-- ==== Sys2Proof/Word.lean ====
section
/-! DEFINITION. The word types of the CML-9160 and the names of the parties that its steps act on.
Registers are 64 bits (R202), bytes are the unit of memory (R2), a lane is 32 bits (R136). -/

namespace Sys2Proof

/-- A control-core register (R202). -/
abbrev Word := BitVec 64

/-- The smallest addressable unit of memory (R2). -/
abbrev Byte := BitVec 8

/-- One lane of a v register (R136, R286). -/
abbrev Lane := BitVec 32

/-- A control-core task: a slot of a region sequencer (R28, numbered by R338), or the steward core
of a chiplet (R271), numbered 4 × field + chiplet (R85). -/
inductive CoreId where
  | seq (region slot : Nat)
  | stew (chiplet : Nat)
  deriving DecidableEq, Repr

/-- The three engines of a region that take commands on tags (R247). -/
inductive Engine where
  | copy
  | merge
  | attention
  deriving DecidableEq, Repr

end Sys2Proof
end

