-- ==== Sys2Proof/Machine/Legal.lean ====
section
/-! DEFINITION. The checks on encoded fields that a field's width alone does not make: format
descriptors (R50), rounding codes (R51), operand lists (R201, R249) and the `fn`, `type` and mode
values of the E-form ops (R209 to R214, R314). WellFormed.lean applies them constructor by
constructor. -/

namespace Sys2Proof.Legal

/-! ### Format descriptors (R50) -/

/-- `CLASS` of a descriptor. -/
def descClass (x : Nat) : Nat := x / 64 % 4
/-- `UNS` of a descriptor. -/
def descUns (x : Nat) : Bool := x / 32 % 2 == 1
/-- `EXT` of a descriptor. -/
def descExt (x : Nat) : Bool := x / 16 % 2 == 1
/-- `SUB` of a descriptor. -/
def descSub (x : Nat) : Nat := x % 8

/-- Whether an 8-bit format descriptor is valid (R50). -/
def descValid (x : Nat) : Bool :=
  x / 8 % 2 == 0 &&
  (match descClass x with
   | 0 => !descExt x && descSub x < 5
   | 1 => !descExt x && !descUns x && descSub x < 4
   | 2 => 0 < descSub x
   | _ => !descExt x && !descUns x && 0 < descSub x && descSub x < 4)

/-- The width in bits of a valid descriptor (R300). -/
def descWidth (x : Nat) : Nat :=
  match descClass x with
  | 0 => 4 * 2 ^ descSub x
  | 1 => if descSub x < 2 then 16 else 16 * 2 ^ (descSub x - 1)
  | 2 => 8
  | _ => 4

/-- Whether the descriptor names an integer format. -/
def descIsInt (x : Nat) : Bool := descClass x == 0

/-- Whether the descriptor's format has an infinity (R53): the IEEE formats and the extended
binary8pP variants. -/
def descHasInf (x : Nat) : Bool := descClass x == 1 || (descClass x == 2 && descExt x)

/-! ### Types of E-form ops (R209) -/

/-- Integer lane types: `.i32`, `.i16`, `.i8`. -/
def intType (t : BitVec 3) : Bool := t.toNat < 3
/-- The floating lane types of lane arithmetic: `.f32`, `.f16`, `.bf16` (R296). -/
def floatType (t : BitVec 3) : Bool := 4 ≤ t.toNat && t.toNat < 7
/-- Any assigned type: 7 is invalid (R209). -/
def anyType (t : BitVec 3) : Bool := t.toNat < 7

/-- Width in bits of one value of a lane type (R286). -/
def typeWidth (t : BitVec 3) : Nat :=
  match t.toNat with
  | 0 => 32 | 1 => 16 | 2 => 8 | 3 => 64 | 4 => 32 | 5 => 16 | 6 => 16 | _ => 32

/-- Rounding codes of arithmetic and conversions: 0 to 4 (R51). -/
def rndOk (r : BitVec 3) : Bool := r.toNat < 5

/-- A shift count below the type's width (R292). -/
def vshiOk (f : BitVec 4) (t : BitVec 3) (c : BitVec 8) : Bool :=
  f.toNat < 3 && intType t && c.toNat < typeWidth t

/-- `vcmp`: every type but `.f64`, U only on integers (R294). -/
def vcmpOk (f : BitVec 4) (t : BitVec 3) (u : BitVec 1) : Bool :=
  f.toNat < 6 && ((intType t) || (floatType t && u == 0))

/-- `vmov`: the lane of a broadcast; otherwise mode 0 (R293). -/
def vmovOk (f : BitVec 4) (m : BitVec 8) : Bool :=
  f.toNat < 3 && (if f.toNat == 1 then m.toNat < 16 else m == 0)

/-- `vred`: R210, R214, R299. -/
def vredOk (f : BitVec 4) (t : BitVec 3) (u : BitVec 1) (l : BitVec 2) (r : BitVec 3) : Bool :=
  anyType t && (f.toNat < 3 || (intType t && f.toNat < 5)) &&
  (if intType t then r == 0 else u == 0 && rndOk r) &&
  (t.toNat != 3 || l == 0)

/-- `vnarrow`: source lane type `t`, destination descriptor `x` (R300, R302). -/
def vnarrowOk (o : BitVec 1) (r : BitVec 3) (t : BitVec 3) (x : BitVec 8) : Bool :=
  anyType t && descValid x.toNat && descWidth x.toNat ≤ typeWidth t && rndOk r &&
  (o == 0 || descHasInf x.toNat) &&
  (!(intType t && descIsInt x.toNat) || r == 0)

/-- `vwiden`: destination lane type `t`, source descriptor `x` (R301, R302). -/
def vwidenOk (o : BitVec 1) (r : BitVec 3) (t : BitVec 3) (x : BitVec 8) : Bool :=
  anyType t && descValid x.toNat && descWidth x.toNat ≤ typeWidth t && rndOk r &&
  (o == 0 || !intType t) &&
  (!(intType t && descIsInt x.toNat) || r == 0)

/-- `vpack`: the sub-function follows from the type (R305). -/
def vpackOk (f : BitVec 4) (t : BitVec 3) : Bool := intType t && f.toNat == t.toNat

/-- `vshuf` (R306). -/
def vshufOk (f : BitVec 4) (l : BitVec 2) (c : BitVec 4) : Bool :=
  match f.toNat with
  | 0 | 1 => c.toNat < (match l.toNat with | 0 => 16 | 1 => 4 | _ => 8)
  | 2 => l.toNat == 1 && c.toNat < 4
  | _ => false

/-- `tksend` destinations 0 to 8; a guard only toward 0x00 is the GUARD refusal of R144. -/
def tksendOk (k : BitVec 8) : Bool := k.toNat < 9

/-- `tkwait` sources 1 to 8 (R312). -/
def tkwaitOk (k : BitVec 8) : Bool := 0 < k.toNat && k.toNat < 9

/-- The value types of `qst` (R314). -/
def qstOk (n : BitVec 2) (t : BitVec 3) : Bool := n.toNat < 3 && (t.toNat == 0 || floatType t)

/-- The value types of `vcld` (R314). -/
def vcldOk (n : BitVec 2) (t : BitVec 3) (r : BitVec 3) : Bool :=
  n.toNat < 3 && floatType t && rndOk r

/-! ### S-form lists (R201, R246, R249) -/

/-- A list of `n` + 1 registers from `a` on ends at code 31 at the latest, and `n` lies between
the two bounds of R249. -/
def listOk (a : BitVec 5) (n lo hi : Nat) : Bool := lo ≤ n && n ≤ hi && a.toNat + n < 32

/-- `rnd` 0 to 5 and `ovf` 0 to 2: copies (R249, R51). -/
def copyOk (r : BitVec 3) (v : BitVec 2) : Bool := r.toNat < 6 && v.toNat < 3

/-- Frame sizes 0 to 24 (R231). -/
def frameOk (f : BitVec 5) : Bool := f.toNat ≤ 24

end Sys2Proof.Legal
end

