-- ==== Sys2Proof/Syntax.lean ====
section
/-! DEFINITION. The instructions and steps of the CML-9160: one constructor per row of
spec/opcode_table.json. S-form words (R200 to R205) and E-form op words (R209 to R214, R314) carry
the fields of their encoding; the events of 95_what_each_step_holds.md have no word and carry the
plain data that names what they act on (notes/assumptions/1.md). -/

namespace Sys2Proof

inductive Instr where
  /-- ADD: Integer add of two registers at a selected width, with optional unsigned and saturating forms (R225) -/
  | add (d a b : BitVec 5) (u : BitVec 1) (w : BitVec 2) (s : BitVec 1)
  /-- SUB: Integer subtract at a selected width, with optional unsigned and saturating forms (R225) -/
  | sub (d a b : BitVec 5) (u : BitVec 1) (w : BitVec 2) (s : BitVec 1)
  /-- MUL: Integer multiply, keeping the low bits or saturating (R225) -/
  | mul (d a b : BitVec 5) (u : BitVec 1) (w : BitVec 2) (s : BitVec 1)
  /-- MULH: High half of the integer product (R225) -/
  | mulh (d a b : BitVec 5) (u : BitVec 1) (w : BitVec 2)
  /-- DIV: Integer divide truncating toward zero; a division by zero gives all ones and sets DZ (R225) -/
  | div (d a b : BitVec 5) (u : BitVec 1) (w : BitVec 2) (s : BitVec 1)
  /-- REM: Integer remainder; a zero divisor returns x and sets DZ (R225) -/
  | rem (d a b : BitVec 5) (u : BitVec 1) (w : BitVec 2)
  /-- AND: Bitwise and of two registers (R225) -/
  | and_ (d a b : BitVec 5) (u : BitVec 1) (w : BitVec 2)
  /-- OR: Bitwise or of two registers (R225) -/
  | or_ (d a b : BitVec 5) (u : BitVec 1) (w : BitVec 2)
  /-- XOR: Bitwise exclusive or of two registers (R225) -/
  | xor_ (d a b : BitVec 5) (u : BitVec 1) (w : BitVec 2)
  /-- SLL: Shift left by the second operand modulo the width (R225) -/
  | sll (d a b : BitVec 5) (u : BitVec 1) (w : BitVec 2)
  /-- SRL: Logical shift right by the second operand modulo the width (R225) -/
  | srl (d a b : BitVec 5) (u : BitVec 1) (w : BitVec 2)
  /-- SRA: Arithmetic shift right by the second operand modulo the width (R225) -/
  | sra (d a b : BitVec 5) (w : BitVec 2)
  /-- SLT: Set to 1 when the first operand is less than the second, signed (R225) -/
  | slt (d a b : BitVec 5) (w : BitVec 2)
  /-- SLTU: Set to 1 when the first operand is less than the second, unsigned (R225) -/
  | sltu (d a b : BitVec 5) (w : BitVec 2)
  /-- MIN: Smaller of two integer operands (R225) -/
  | min_ (d a b : BitVec 5) (u : BitVec 1) (w : BitVec 2)
  /-- MAX: Larger of two integer operands (R225) -/
  | max_ (d a b : BitVec 5) (u : BitVec 1) (w : BitVec 2)
  /-- ADDI: Add a sign-extended 15-bit immediate (R227) -/
  | addi (d a : BitVec 5) (i : BitVec 15)
  /-- ANDI: And with a zero-extended immediate (R227) -/
  | andi (d a : BitVec 5) (i : BitVec 15)
  /-- ORI: Or with a zero-extended immediate (R227) -/
  | ori (d a : BitVec 5) (i : BitVec 15)
  /-- XORI: Exclusive or with a zero-extended immediate (R227) -/
  | xori (d a : BitVec 5) (i : BitVec 15)
  /-- SLLI: Shift left by an immediate count (R227) -/
  | slli (d a : BitVec 5) (c : BitVec 6)
  /-- SRLI: Logical shift right by an immediate count (R227) -/
  | srli (d a : BitVec 5) (c : BitVec 6)
  /-- SRAI: Arithmetic shift right by an immediate count (R227) -/
  | srai (d a : BitVec 5) (c : BitVec 6)
  /-- SLTI: Set when the register is below a sign-extended immediate, signed (R227) -/
  | slti (d a : BitVec 5) (i : BitVec 15)
  /-- SLTIU: Set when the register is below a sign-extended immediate, unsigned (R227) -/
  | sltiu (d a : BitVec 5) (i : BitVec 15)
  /-- LI: Two-word load of a sign-extended 32-bit immediate (R228) -/
  | li (d : BitVec 5) (imm : BitVec 32)
  /-- LIH: Two-word write of a 32-bit immediate into the high half of a register (R228) -/
  | lih (d : BitVec 5) (imm : BitVec 32)
  /-- ADDIL: Two-word add of a sign-extended 32-bit immediate (R228) -/
  | addil (d a : BitVec 5) (imm : BitVec 32)
  /-- CSRR: Read a control register into a register (R229) -/
  | csrr (d : BitVec 5) (r : BitVec 12)
  /-- CSRW: Read a control register and write it from a register; serves writes to registers with no row of their own (R229) -/
  | csrw (d a : BitVec 5) (r : BitVec 12)
  /-- CSRS: Read a control register and set the bits named by a register (R229) -/
  | csrs (d a : BitVec 5) (r : BitVec 12)
  /-- CSRC: Read a control register and clear the bits named by a register (R229) -/
  | csrc (d a : BitVec 5) (r : BitVec 12)
  /-- B: Unconditional branch by a signed word offset (R230) -/
  | b_ (o : BitVec 20)
  /-- BEQZ: Branch when the register is zero (R230) -/
  | beqz (a : BitVec 5) (o : BitVec 20)
  /-- BNEZ: Branch when the register is not zero (R230) -/
  | bnez (a : BitVec 5) (o : BitVec 20)
  /-- BLTZ: Branch when the register is negative (R230) -/
  | bltz (a : BitVec 5) (o : BitVec 20)
  /-- BGEZ: Branch when the register is zero or positive (R230) -/
  | bgez (a : BitVec 5) (o : BitVec 20)
  /-- BGTZ: Branch when the register is positive (R230) -/
  | bgtz (a : BitVec 5) (o : BitVec 20)
  /-- BLEZ: Branch when the register is zero or negative (R230) -/
  | blez (a : BitVec 5) (o : BitVec 20)
  /-- CALL: Slide the register window by the frame size, spilling as needed, and jump by offset (R231) -/
  | call (f : BitVec 5) (o : BitVec 20)
  /-- CALLR: Slide the register window and jump to the address in a register (R231) -/
  | callr (f a : BitVec 5)
  /-- RET: Return through the link in w23, sliding the window back and filling spilled registers (R232) -/
  | ret
  /-- JR: Jump to the address in a register without moving the window (R232) -/
  | jr (a : BitVec 5)
  /-- LD_I8: Load a sign-extended byte (R234) -/
  | ldI8 (d a : BitVec 5) (i : BitVec 12) (s : BitVec 3)
  /-- LD_N8: Load a zero-extended byte (R234) -/
  | ldN8 (d a : BitVec 5) (i : BitVec 12) (s : BitVec 3)
  /-- LD_I16: Load a sign-extended 16-bit value (R234) -/
  | ldI16 (d a : BitVec 5) (i : BitVec 12) (s : BitVec 3)
  /-- LD_N16: Load a zero-extended 16-bit value (R234) -/
  | ldN16 (d a : BitVec 5) (i : BitVec 12) (s : BitVec 3)
  /-- LD_I32: Load a sign-extended 32-bit value (R234) -/
  | ldI32 (d a : BitVec 5) (i : BitVec 12) (s : BitVec 3)
  /-- LD_N32: Load a zero-extended 32-bit value (R234) -/
  | ldN32 (d a : BitVec 5) (i : BitVec 12) (s : BitVec 3)
  /-- LD_I64: Load a 64-bit value (R234) -/
  | ldI64 (d a : BitVec 5) (i : BitVec 12) (s : BitVec 3)
  /-- ST_I8: Store the low byte of a register (R234) -/
  | stI8 (d a : BitVec 5) (i : BitVec 12) (s : BitVec 3)
  /-- ST_I16: Store the low 16 bits of a register (R234) -/
  | stI16 (d a : BitVec 5) (i : BitVec 12) (s : BitVec 3)
  /-- ST_I32: Store the low 32 bits of a register (R234) -/
  | stI32 (d a : BitVec 5) (i : BitVec 12) (s : BitVec 3)
  /-- ST_I64: Store a 64-bit register (R234) -/
  | stI64 (d a : BitVec 5) (i : BitVec 12) (s : BitVec 3)
  /-- LDACQ: Acquire load at a capped scope (R238) -/
  | ldacq (d a : BitVec 5) (w : BitVec 2) (u : BitVec 1) (s : BitVec 3)
  /-- STREL: Release store at a capped scope, returning a fence status word (R238) -/
  | strel (d a b : BitVec 5) (w : BitVec 2) (s : BitVec 3)
  /-- FENCE: Fence at a named scope, waiting for earlier stores and returning a status word (R239) -/
  | fence (d : BitVec 5) (s : BitVec 3)
  /-- FENCE_LCA: Fence at the lowest common scope of this agent and a given coordinate (R239) -/
  | fenceLca (d a : BitVec 5)
  /-- FENCE_COMPLETE: A waiting fence or release completes once every earlier store has performed at its scope or failed, writing the status word (R117) -/
  | fenceComplete (c : CoreId)
  /-- FENCE_TIMEOUT: A fence or release reaches the PT_FENCETO limit and completes with TIMEOUT (R119) -/
  | fenceTimeout (c : CoreId)
  /-- AMOADD: Atomic add returning the old value (R241) -/
  | amoadd (d a b : BitVec 5) (w : BitVec 1) (o : BitVec 2) (s : BitVec 3)
  /-- AMOAND: Atomic and returning the old value (R241) -/
  | amoand (d a b : BitVec 5) (w : BitVec 1) (o : BitVec 2) (s : BitVec 3)
  /-- AMOOR: Atomic or returning the old value (R241) -/
  | amoor (d a b : BitVec 5) (w : BitVec 1) (o : BitVec 2) (s : BitVec 3)
  /-- AMOXOR: Atomic exclusive or returning the old value (R241) -/
  | amoxor (d a b : BitVec 5) (w : BitVec 1) (o : BitVec 2) (s : BitVec 3)
  /-- AMOMIN: Atomic signed minimum (R241) -/
  | amomin (d a b : BitVec 5) (w : BitVec 1) (o : BitVec 2) (s : BitVec 3)
  /-- AMOMAX: Atomic signed maximum (R241) -/
  | amomax (d a b : BitVec 5) (w : BitVec 1) (o : BitVec 2) (s : BitVec 3)
  /-- AMOMINU: Atomic unsigned minimum (R241) -/
  | amominu (d a b : BitVec 5) (w : BitVec 1) (o : BitVec 2) (s : BitVec 3)
  /-- AMOMAXU: Atomic unsigned maximum (R241) -/
  | amomaxu (d a b : BitVec 5) (w : BitVec 1) (o : BitVec 2) (s : BitVec 3)
  /-- AMOSWAP: Atomic swap returning the old value (R241) -/
  | amoswap (d a b : BitVec 5) (w : BitVec 1) (o : BitVec 2) (s : BitVec 3)
  /-- CAS: Atomic compare-and-swap with the expected value in d (R241) -/
  | cas (d a b : BitVec 5) (w : BitVec 1) (o : BitVec 2) (s : BitVec 3)
  /-- COPY: Queue a strided, possibly converting copy command on a tag (R251) -/
  | copy (d a : BitVec 5) (n r : BitVec 3) (v : BitVec 2) (t : BitVec 6)
  /-- COPY_CFG: Configuration copy: the engine checks an image and makes it the region's pending configuration or writes a refusal record (R252) -/
  | copyCfg (d a : BitVec 5) (t : BitVec 6)
  /-- GATHER: Queue a gather of source elements named by an index array (R254) -/
  | gather (d a : BitVec 5) (n r : BitVec 3) (v : BitVec 2) (t : BitVec 6)
  /-- SCATTER: Queue a scatter to destination elements named by an index array (R254) -/
  | scatter (d a : BitVec 5) (n r : BitVec 3) (v : BitVec 2) (t : BitVec 6)
  /-- MERGE: Queue a sorted sparse-row merge with summing of equal indices (R257) -/
  | merge (d a : BitVec 5) (y : BitVec 2) (r : BitVec 3) (k : BitVec 1) (t : BitVec 6)
  /-- MSCAN: Queue an exclusive prefix scan of counts on the merge engine (R258) -/
  | mscan (d a : BitVec 5) (t : BitVec 6)
  /-- WAITT: Wait for all or any of the masked tag bits to be set (R255) -/
  | waitt (d a : BitVec 5) (m : BitVec 1)
  /-- WAITT_RELEASE: A task held in waitt is released when its tag condition holds and acquires the returned tags (R255) -/
  | waittRelease (c : CoreId)
  /-- FFR: Return the lowest set tag bit under a mask without waiting (R256) -/
  | ffr (d a : BitVec 5)
  /-- CBLOAD: Read and check a codebook table into a slot's pending copy (R259) -/
  | cbload (d a : BitVec 5) (s : BitVec 3) (w : BitVec 1)
  /-- ABATCH: Issue an attention batch from its descriptor on a tag (R260) -/
  | abatch (d a : BitVec 5) (t : BitVec 6)
  /-- BIND: Check a stage-set image and install it under a handle (R261) -/
  | bind (d a : BitVec 5) (h : BitVec 4)
  /-- UNBIND: Release a stage-set handle once no batch uses it (R261) -/
  | unbind (d a : BitVec 5) (h : BitVec 4)
  /-- BIND_HOLD_END: A bind or unbind held on a handle proceeds once no issued batch uses it (R261) -/
  | bindHoldEnd (c : CoreId)
  /-- TSEAL: Seal a full tessera, optionally computing and writing its hull (R262) -/
  | tseal (d a : BitVec 5) (h : BitVec 1) (t : BitVec 6)
  /-- PFXFIND: Compute a chunk hash and probe the prefix index for a sealed tessera (R264) -/
  | pfxfind (d a : BitVec 5)
  /-- TOPK: Queue a report of the k sealed tesserae with the largest dot bounds (R263) -/
  | topk (d a : BitVec 5) (t : BitVec 6)
  /-- HULLW: Compute and write the hull of a sealed tessera (R262) -/
  | hullw (d a : BitVec 5) (t : BitVec 6)
  /-- TFORK: Fork a sequence entry and list, copying only the tail's rows (R265) -/
  | tfork (d a : BitVec 5) (t : BitVec 6)
  /-- TEVICT: Evict offsets from a tail by compaction or from a sealed tessera by visibility (R266) -/
  | tevict (d a : BitVec 5) (t : BitVec 6)
  /-- ENGINE_QUEUE_HOLD_END: A task held on a full engine queue issues its command once an entry frees (R247) -/
  | engineQueueHoldEnd (c : CoreId)
  /-- TAG_COUNT_HOLD_END: A task held because a tag had 15 outstanding commands issues once one completes (R89) -/
  | tagCountHoldEnd (c : CoreId)
  /-- ENGINE_COMMAND_COMPLETE: A copy, merge, scan, tessera or pipe command finishes, its writes perform, flags are ORed in and its tag count drops (R89) -/
  | engineCommandComplete (region : Nat) (e : Engine) (index : Nat)
  /-- ENGINE_COMMAND_ABANDON: An engine command meets a fault after issue and is abandoned at a beat, recording SQ_EFAULT and setting TAGC (R248) -/
  | engineCommandAbandon (region : Nat) (e : Engine) (index : Nat)
  /-- ATTENTION_BATCH_COMPLETE: An attention batch's results and side records have performed and its tag bit sets (R184) -/
  | attentionBatchComplete (region index : Nat)
  /-- ATTENTION_BATCH_ABANDON: A batch meets a fault in a read or write and is abandoned, leaving earlier queries complete (R376) -/
  | attentionBatchAbandon (region index : Nat)
  /-- LAUNCH: Open a launch and its units, write preloads and start islands on one tick boundary (R268) -/
  | launch (d a : BitVec 5) (n : BitVec 3)
  /-- LAUNCH_HOLD_END: A launch issued while a reconfiguration token passes proceeds once it has passed (R268) -/
  | launchHoldEnd (c : CoreId)
  /-- SPAWN: Place a sequencer task in a free slot under a counter and endpoint (R269) -/
  | spawn (d a : BitVec 5) (n : BitVec 3)
  /-- TAIL: End the task, freeing its slot and taking a retirement-tracker entry for draining accesses (R29) -/
  | tail
  /-- TAIL_HOLD_END: A tail held because all tracker entries were in use completes once one frees (R29) -/
  | tailHoldEnd (c : CoreId)
  /-- RETIREMENT_TRACKER_DRAIN: The last outstanding access of a retired task performs, its counter is decremented and the entry freed (R29) -/
  | retirementTrackerDrain (region index : Nat)
  /-- GOPEN: Open a graph counter under a job (R272) -/
  | gopen (d a : BitVec 5) (h : BitVec 12)
  /-- GCLOSE: Remove the hold of a graph or job counter (R272) -/
  | gclose (d : BitVec 5) (h : BitVec 12)
  /-- JOPEN: Open a job counter (R272) -/
  | jopen (d : BitVec 5) (h : BitVec 12)
  /-- RECONF: Close the region's phase and start its reconfiguration token toward the next phase (R273) -/
  | reconf (d : BitVec 5) (h : BitVec 12)
  /-- RECONF_HOLD_END: A reconf held behind an earlier token proceeds once that token has passed (R273) -/
  | reconfHoldEnd (c : CoreId)
  /-- RECONF_TOKEN_PASS: The token passes once the phase drains: pending configuration, context and codebooks become current and the next phase opens (R273) -/
  | reconfTokenPass (region : Nat)
  /-- WAITC: Wait on a work counter reaching zero (R274) -/
  | waitc (d : BitVec 5) (h : BitVec 12)
  /-- WAITC_RELEASE: A task held in waitc is released when the counter reaches zero, with OK or CANCELLED (R274) -/
  | waitcRelease (c : CoreId)
  /-- CANCEL: Cancel a counter and everything under it at the next tick boundary (R26) -/
  | cancel (d : BitVec 5) (l : BitVec 3) (h : BitVec 12)
  /-- UNIT_COMPLETE: A unit's last trip takes effect and its store streams close; counters are decremented (R137) -/
  | unitComplete (region island : Nat)
  /-- SENDM: Send a 24-byte message to an endpoint, to its queue or mailbox page (R275) -/
  | sendm (d a : BitVec 5)
  /-- RECVM: Take the head message of the receive queue, waiting if empty (R276) -/
  | recvm (d : BitVec 5)
  /-- RECVM_RELEASE: A task held in recvm takes a message that reaches its queue (R276) -/
  | recvmRelease (c : CoreId)
  /-- BARINIT: Bind or release a barrier handle with a count (R277) -/
  | barinit (d a : BitVec 5) (h : BitVec 8)
  /-- BARARR: Release at a capped scope and arrive at a barrier (R278) -/
  | bararr (d : BitVec 5) (s : BitVec 3) (h : BitVec 8)
  /-- BARWAIT: Wait for the barrier generation recorded at arrival to change (R279) -/
  | barwait (d : BitVec 5) (h : BitVec 8)
  /-- BARWAIT_RELEASE: A task held in barwait is released when the generation changes (R279) -/
  | barwaitRelease (c : CoreId)
  /-- WAITA: Hold while an 8-byte word equals a value, reading with acquires (R280) -/
  | waita (d a b : BitVec 5)
  /-- WAITA_RELEASE: A store that changes the watched word ends the waita hold (R280) -/
  | waitaRelease (c : CoreId)
  /-- SNAP: Fire the common snapshot trigger (R281) -/
  | snap
  /-- TRET: Return from a trap to the recorded address and level (R343) -/
  | tret
  /-- TRAP: Raise a numbered software trap to level K (R282) -/
  | trap (n : BitVec 15)
  /-- HCALL: Raise a numbered hypervisor call to level H (R282) -/
  | hcall (n : BitVec 15)
  /-- ASYNC_TRAP_TAKE: A pending asynchronous cause is taken to level H between two instructions of a steward core (R343) -/
  | asyncTrapTake (chiplet : Nat)
  /-- TLBI_PAGE: Remove translations of one page under one CID (R283) -/
  | tlbiPage (a b : BitVec 5)
  /-- TLBI_PAGEALL: Remove translations of one page under every CID (R283) -/
  | tlbiPageall (a b : BitVec 5)
  /-- TLBI_CID: Remove every non-global translation of one CID (R283) -/
  | tlbiCid (a b : BitVec 5)
  /-- TLBI_ALL: Remove every translation of the partition (R283) -/
  | tlbiAll (a b : BitVec 5)
  /-- ICINV: Invalidate one line in every instruction cache serving the partition (R284) -/
  | icinv (a : BitVec 5)
  /-- ICINV_ALL: Invalidate every line of those instruction caches (R284) -/
  | icinvAll (a : BitVec 5)
  /-- FRAMEMAP: Map a Free frame to a partition (R107) -/
  | framemap (d a b : BitVec 5)
  /-- FRAMEFREE: Move a Mapped frame to Scrubbing (R107) -/
  | framefree (d a b : BitVec 5)
  /-- SCRUB_COMPLETE: The scrub engine finishes a frame, zeroing it and setting it Free or Held (R108) -/
  | scrubComplete (pa : Nat) (lasting : Bool)
  /-- RSAVE: Stop a region's clock, drain it and shift its state into a save area (R34) -/
  | rsave (d a b : BitVec 5)
  /-- RSAVE_COMPLETE: After quiescence and the chain shift, the region is left in reset with tagged banks (R34) -/
  | rsaveComplete (c : CoreId)
  /-- RREST: Shift a save area back into a region and restart its clock (R34) -/
  | rrest (d a b : BitVec 5)
  /-- RREST_COMPLETE: The restored region's clock restarts and islands resume at their saved counters (R34) -/
  | rrestComplete (c : CoreId)
  /-- PPWAIT_EXPIRY: PT_PPWAIT ticks pass before every island reaches a pre-emption point, and the save proceeds (R40) -/
  | ppwaitExpiry (region : Nat)
  /-- BANK_ACCESS_RELEASE: A held bank access proceeds after the bank is spilled, loaded and retagged (R37) -/
  | bankAccessRelease (region elem bank : Nat)
  /-- ISLAND_TICK: An island reads ring words, issues ops, drives ports and moves queues, or holds on a stall cause (R138) -/
  | islandTick (region island : Nat)
  /-- LOAD_REQUEST_ISSUE: A load port requests a word once its pacing tick is reached and an entry is free (R152) -/
  | loadRequestIssue (region elem port : Nat)
  /-- LOAD_REPLY_LAND: A requested word lands in a load queue (R152) -/
  | loadReplyLand (region elem port : Nat)
  /-- STORE_QUEUE_DRAIN: A store-queue entry is written to its address under its guard token (R153) -/
  | storeQueueDrain (region elem port : Nat)
  /-- STORE_PERFORM: A store reaches a scope's point of coherence and is acknowledged (R111) -/
  | storePerform (index : Nat) (scope : BitVec 3)
  /-- STORE_REFUSED: A store's refusal returns from its destination and it is withdrawn (R366) -/
  | storeRefused (index : Nat)
  /-- REMOTE_ACCESS_REQUEST: A package receives a remote-window access and checks the frame owner (R366) -/
  | remoteAccessRequest (pa part : Nat) (write : Bool) (data : List Byte)
  /-- AG_FAULT: An address-generator port faults on a word, stops and records it, and an event is sent (R347) -/
  | agFault (region elem port : Nat)
  /-- AGFAULT_RESUME: Writing RESUME makes the faulted port request word j again (R349) -/
  | agfaultResume (region elem : Nat)
  /-- AGFAULT_DISCARD: Writing DISCARD gives up word j, landing zero or dropping the store (R349) -/
  | agfaultDiscard (region elem : Nat)
  /-- STALL_WATCHDOG: An island's consecutive held ticks reach EL_STALLWD.LIMIT and a STALL event is sent (R350) -/
  | stallWatchdog (region island : Nat)
  /-- PARITY_HIT: A parity hit in an element ends its units, sets its suspect bit or retires it (R383) -/
  | parityHit (region elem : Nat)
  /-- DRAM_ROW_REMAP: A lasting DRAM error copies its row to a spare row and serves it from there (R388) -/
  | dramRowRemap (pa : Nat) (spare : Bool)
  /-- PT_SCOPE_MAX_WRITE: A hypervisor write of the scope cap completes when every agent holds the new value (R18) -/
  | ptScopeMaxWrite (part : Nat) (cap : BitVec 3)
  /-- PT_CTX_WRITE: A PT_CTX write takes effect at once on a steward core, or becomes pending until the region's token (R91) -/
  | ptCtxWrite (c : CoreId) (v : Word)
  /-- EL_FFLAGS_WRITE: A write selects an island's flag word and clears the flags written as 1 (R60) -/
  | elFflagsWrite (region : Nat) (v : Word)
  /-- ST_WIN_FLUSH: Writing FLUSH spills every held register below w0 to the window stack (R271) -/
  | stWinFlush (chiplet : Nat)
  /-- ST_WIN_DEPTH: Writing DEPTH sets BASE and LOW for a switched-in steward task (R271) -/
  | stWinDepth (chiplet : Nat) (depth : BitVec 32)
  /-- PT_UP_WRITE: Writing 1 while Booting moves the partition to Running (R208) -/
  | ptUpWrite (part : Nat) (v : Word)
  /-- LK_SLOTSEL_WRITE: A write of BASE or EN sets PEND for the next frame boundary (R208) -/
  | lkSlotselWrite (port : Nat) (v : Word)
  /-- HEALTH_CRIT_RESTART: Writing 1 to HEALTH.CRIT restarts stopped fabric clocks when no alarm holds (R199) -/
  | healthCritRestart
  /-- THERMAL_ALARM: Excess temperature or current raises an alarm, vector 1 and the H cause ALARM (R199) -/
  | thermalAlarm (current : Bool)
  /-- CRITICAL_STOP: At the critical level every region's fabric clock stops and CRIT is set (R199) -/
  | criticalStop
  /-- LANIKA_FRAME_BOUNDARY: At a frame boundary a port takes or refuses a pending slot map and checks alignment (R192) -/
  | lanikaFrameBoundary (port : Nat) (aligned : Bool)
  /-- LANIKA_SLOT: A port sends the word owned by a slot's edge or general traffic (R194) -/
  | lanikaSlot (port slot : Nat)
  /-- LANIKA_WORD_ARRIVE: A sent word enters the receive half after LK_HOP and counts toward occupancy (R194) -/
  | lanikaWordArrive (port : Nat) (good : Bool) (lane : Nat)
  /-- LANIKA_CONTROL_FLITS: Control flits bring acknowledgements, pop counts and alignment (R191) -/
  | lanikaControlFlits (port : Nat)
  /-- PORT_DECLARED_DEAD: A port with no spare lane or lost alignment is declared dead; stores on dead routes fail (R391) -/
  | portDeclaredDead (port : Nat) (packages : List Nat)
  /-- ROUTE_RECOMPUTE_DONE: General routes are recomputed and RTBUSY clears (R391) -/
  | routeRecomputeDone
  /-- HOST_MAILBOX_WRITE: A host write through a virtual function's BAR performs and may wake waita (R188) -/
  | hostMailboxWrite (part offset : Nat) (data : List Byte)
  /-- HOST_STATUS_READ: A host read of the status page clears pending vectors (R188) -/
  | hostStatusRead (part : Nat)
  /-- QUOTE_REQUEST: The host writes a nonce and 1 to request a signed attestation quote (R198) -/
  | quoteRequest (part : Nat) (nonce : List Byte)
  /-- FUNCTION_LEVEL_RESET: A virtual function reset moves a Booting or Running partition to Stopping (R190) -/
  | functionLevelReset (part : Nat)
  /-- PARTITION_OFF: A Stopping partition whose frames are all Free becomes Off (R190) -/
  | partitionOff (part : Nat)
  /-- DEVICE_RESET: A reset of host port 0's physical function resets the whole device and reruns boot (R190) -/
  | deviceReset
  /-- POWER_ON_BOOT: The ROM verifies the hypervisor image and starts it, or enters recovery (R196) -/
  | powerOnBoot (headerRead : Bool)
  /-- SNAPSHOT_TICK_MATCH: The package tick reaches MATCH and source 6 fires (R394) -/
  | snapshotTickMatch
  /-- SNAPSHOT_PIN: An external-pin assertion fires snapshot source 7 (R394) -/
  | snapshotPin
  /-- SNAPSHOT_LATCH: Eight ticks after an armed source fires, every block latches its snapshot registers (R394) -/
  | snapshotLatch
  /-- SNAPSHOT_DUMP_DONE: The snapshot dump has performed in full and DONE is set (R394) -/
  | snapshotDumpDone
  /-- VNOP: The unfilled op slot word that does nothing (R293) -/
  | vnop
  /-- VNOP_UNGUARDED: The vnop word dolmas emits for a written vnop (R293) -/
  | vnopUnguarded
  /-- VADD: Lane-wise integer add (R290) -/
  | vadd (t : BitVec 3) (u s : BitVec 1)
  /-- VSUB: Lane-wise integer subtract (R290) -/
  | vsub (t : BitVec 3) (u s : BitVec 1)
  /-- VMUL: Lane-wise integer multiply (R290) -/
  | vmul (t : BitVec 3) (u s : BitVec 1)
  /-- VMAD: Lane-wise integer multiply-add into vd (R290) -/
  | vmad (t : BitVec 3) (u s : BitVec 1)
  /-- VMIN: Lane-wise integer minimum (R290) -/
  | vmin (t : BitVec 3) (u : BitVec 1)
  /-- VMAX: Lane-wise integer maximum (R290) -/
  | vmax (t : BitVec 3) (u : BitVec 1)
  /-- VLOGIC: Bitwise logic on 32-bit lanes (R291) -/
  | vlogic (f : BitVec 4)
  /-- VSHL: Lane-wise shift left by a register amount (R292) -/
  | vshl (t : BitVec 3) (u s : BitVec 1)
  /-- VSHR: Lane-wise shift right by a register amount (R292) -/
  | vshr (t : BitVec 3) (u : BitVec 1)
  /-- VSHI: Lane-wise shift by an immediate count (R292) -/
  | vshi (f : BitVec 4) (t : BitVec 3) (c : BitVec 8)
  /-- VCMP: Compare lanes into a guard register (R294) -/
  | vcmp (f : BitVec 4) (t : BitVec 3) (u : BitVec 1)
  /-- VSEL: Select lanes of two registers by a guard (R295) -/
  | vsel (q : BitVec 3)
  /-- VMOV: Move, broadcast a lane, or write lane indices (R293) -/
  | vmov (f : BitVec 4) (m : BitVec 8)
  /-- VMOVI: Write an 8-bit immediate into one byte of every lane (R293) -/
  | vmovi (p : BitVec 2) (i : BitVec 8)
  /-- VGOP: Logic on guard registers (R291) -/
  | vgop (f : BitVec 4)
  /-- VFADD: Lane-wise floating add (R296) -/
  | vfadd (t : BitVec 3) (s : BitVec 1) (r : BitVec 3)
  /-- VFSUB: Lane-wise floating subtract (R296) -/
  | vfsub (t : BitVec 3) (s : BitVec 1) (r : BitVec 3)
  /-- VFMUL: Lane-wise floating multiply (R296) -/
  | vfmul (t : BitVec 3) (s : BitVec 1) (r : BitVec 3)
  /-- VFMA: Lane-wise fused multiply-add into vd (R296) -/
  | vfma (t : BitVec 3) (s : BitVec 1) (r : BitVec 3)
  /-- VFMIN: Lane-wise minimumNumber (R296) -/
  | vfmin (t : BitVec 3)
  /-- VFMAX: Lane-wise maximumNumber (R296) -/
  | vfmax (t : BitVec 3)
  /-- VFSGN: Negate, absolute value or copy sign on bits (R297) -/
  | vfsgn (f : BitVec 4) (t : BitVec 3)
  /-- VFRCP: Correctly rounded reciprocal (R298) -/
  | vfrcp (t r : BitVec 3)
  /-- VFRSQ: Correctly rounded reciprocal square root (R298) -/
  | vfrsq (t r : BitVec 3)
  /-- VFEXP2: Correctly rounded power of two (R298) -/
  | vfexp2 (t r : BitVec 3)
  /-- VRED: Reduce across lanes by the fixed pairwise tree (R299) -/
  | vred (f : BitVec 4) (t : BitVec 3) (u : BitVec 1) (l : BitVec 2) (s : BitVec 1) (r : BitVec 3)
  /-- VNARROW: Convert lane values into a narrower format descriptor (R300) -/
  | vnarrow (o : BitVec 1) (r t : BitVec 3) (x : BitVec 8)
  /-- VWIDEN: Convert narrow values into the lane type (R301) -/
  | vwiden (o : BitVec 1) (r t : BitVec 3) (x : BitVec 8)
  /-- VPERMB: Permute the 64 bytes of a register by indices (R303) -/
  | vpermb
  /-- VNIB: Unpack half a register of nibbles into bytes (R304) -/
  | vnib (f h : BitVec 1)
  /-- VPACK: Narrow the values of two registers into one (R305) -/
  | vpack (f : BitVec 4) (t : BitVec 3) (u s : BitVec 1)
  /-- VSHUF: Rotate, xor-index or broadcast lanes within groups (R306) -/
  | vshuf (f : BitVec 4) (l : BitVec 2) (c : BitVec 4)
  /-- VLDM: Load one ELM row into a register (R307) -/
  | vldm (t : BitVec 3) (o : BitVec 8)
  /-- VSTM: Store a register to one ELM row under a guard (R307) -/
  | vstm (g t : BitVec 3) (o : BitVec 8)
  /-- VLDL: Load 4 bytes per lane from its lane-private slice (R308) -/
  | vldl (t : BitVec 3) (o : BitVec 8)
  /-- VSTL: Store 4 bytes per lane to its lane-private slice under a guard (R308) -/
  | vstl (g t : BitVec 3) (o : BitVec 8)
  /-- VPOP: Pop a load queue's head word into a register (R310) -/
  | vpop (p : BitVec 1)
  /-- VPUSH: Push a register into a store queue with guard-valid lanes (R310) -/
  | vpush (p : BitVec 1) (g : BitVec 3)
  /-- VSEND: Send vd on the out ports with guarded lane-valid bits (R311) -/
  | vsend (g : BitVec 3)
  /-- TKSEND: Send one control token to a latch, start input or the sequencer (R312) -/
  | tksend (g : BitVec 3) (k : BitVec 8)
  /-- TKWAIT: Consume one control token, holding until it arrives (R312) -/
  | tkwait (k : BitVec 8)
  /-- VATOM: Atomic read-modify-write of one ELM row (R313) -/
  | vatom (f : BitVec 4) (g t : BitVec 3) (u : BitVec 1)
  /-- SHAPE: Compute and write a matrix grant for a request and part (R316) -/
  | shape (e : BitVec 3) (w : BitVec 2)
  /-- MBLOAD_QUEUE: Write one B column of a K block from a popped carousel block (R319) -/
  | mbloadQueue (p : BitVec 1)
  /-- MBLOAD_REGISTER: Write one B column of a K block from register integers (R319) -/
  | mbloadRegister (w : BitVec 1) (x : BitVec 8)
  /-- MRUN: Arm a matrix run over K blocks with a feed mask (R320) -/
  | mrun (s : BitVec 2) (c p : BitVec 1) (m : BitVec 8)
  /-- MRDACC: Read 16 accumulators of a row and the run's progress (R322) -/
  | mrdacc
  /-- MFMA64: One FP64 2x2 outer-product step on fused lane groups (R324) -/
  | mfma64 (s : BitVec 1) (r : BitVec 3)
  /-- QST: Quantise N values into one carousel block and push it (R325) -/
  | qst (n : BitVec 2) (w p : BitVec 1) (g t s : BitVec 3) (m : BitVec 5)
  /-- VCLD: Pop a carousel block and decode its elements into registers (R326) -/
  | vcld (n : BitVec 2) (p : BitVec 1) (t : BitVec 3) (s : BitVec 1) (r : BitVec 3)
  /-- AGCFG: Configure an address-generator port's kind, counters and space (R327) -/
  | agcfg (p x : BitVec 1) (c k : BitVec 2)
  /-- AGBASE: Set an address-generator port's base (R327) -/
  | agbase (p : BitVec 1)
  /-- AGRUN: Start an address-generator loop of n words (R329) -/
  | agrun (f n p : BitVec 1)
  /-- MZERO: Zero the grant's accumulators or one row (R323) -/
  | mzero (r : BitVec 1)
  /-- ALARM_LEVEL_CLEAR: Temperature or current falls back below the alarm level, so TALARM or IALARM clears and HEALTH sends vector 1 (R199) -/
  | alarmLevelClear (current : Bool)
  /-- LINK_TRAINING: A Lanika port completes link training with its partner, fixing LK_HOP from 40 to 200 in place of the untrained 0 (R194) -/
  | linkTraining (port : Nat) (hop : BitVec 8)
  /-- ILLEGAL_ENCODING: A control core fetches a word whose major opcode is marked ill or res and takes the precise ILLEGAL trap (R206) -/
  | illegalEncoding (word : BitVec 32)
  /-- FETCH_FAULT: An instruction fetch from a misaligned or untranslatable address raises ALIGN or the translation fault at that address (R200) -/
  | fetchFault (va : Word)
  /-- BUS_MASTERING_DISABLED: The host disables or re-enables bus mastering for a partition's virtual function, which changes whether that partition's host accesses are refused (R366) -/
  | busMasteringDisabled (part : Nat) (enabled : Bool)
  deriving DecidableEq, Repr

end Sys2Proof
end

