-- ==== Sys2Proof/WellFormed.lean ====
section
/-! DEFINITION. Which terms of `Instr` are encodings that R205, R206, R210 to R215, R249 and R314
allow. Every field's width is in its type; the checks here are those that a width does not make. -/

namespace Sys2Proof

/-- The encoding of the instruction is one that the spec assigns. Events have no encoding. -/
def Instr.wf : Instr → Bool
  | .add _ _ _ _ _ _ => true
  | .sub _ _ _ _ _ _ => true
  | .mul _ _ _ _ _ _ => true
  | .mulh _ _ _ _ _ => true
  | .div _ _ _ _ _ _ => true
  | .rem _ _ _ _ _ => true
  | .and_ _ _ _ _ _ => true
  | .or_ _ _ _ _ _ => true
  | .xor_ _ _ _ _ _ => true
  | .sll _ _ _ _ _ => true
  | .srl _ _ _ _ _ => true
  | .sra _ _ _ _ => true
  | .slt _ _ _ _ => true
  | .sltu _ _ _ _ => true
  | .min_ _ _ _ _ _ => true
  | .max_ _ _ _ _ _ => true
  | .addi _ _ _ => true
  | .andi _ _ _ => true
  | .ori _ _ _ => true
  | .xori _ _ _ => true
  | .slli _ _ _ => true
  | .srli _ _ _ => true
  | .srai _ _ _ => true
  | .slti _ _ _ => true
  | .sltiu _ _ _ => true
  | .li _ _ => true
  | .lih _ _ => true
  | .addil _ _ _ => true
  | .csrr _ _ => true
  | .csrw _ _ _ => true
  | .csrs _ _ _ => true
  | .csrc _ _ _ => true
  | .b_ _ => true
  | .beqz _ _ => true
  | .bnez _ _ => true
  | .bltz _ _ => true
  | .bgez _ _ => true
  | .bgtz _ _ => true
  | .blez _ _ => true
  | .call f _ => Legal.frameOk f
  | .callr f _ => Legal.frameOk f
  | .ret => true
  | .jr _ => true
  | .ldI8 _ _ _ _ => true
  | .ldN8 _ _ _ _ => true
  | .ldI16 _ _ _ _ => true
  | .ldN16 _ _ _ _ => true
  | .ldI32 _ _ _ _ => true
  | .ldN32 _ _ _ _ => true
  | .ldI64 _ _ _ _ => true
  | .stI8 _ _ _ _ => true
  | .stI16 _ _ _ _ => true
  | .stI32 _ _ _ _ => true
  | .stI64 _ _ _ _ => true
  | .ldacq _ _ _ _ _ => true
  | .strel _ _ _ _ _ => true
  | .fence _ _ => true
  | .fenceLca _ _ => true
  | .fenceComplete _ => true
  | .fenceTimeout _ => true
  | .amoadd _ _ _ _ _ _ => true
  | .amoand _ _ _ _ _ _ => true
  | .amoor _ _ _ _ _ _ => true
  | .amoxor _ _ _ _ _ _ => true
  | .amomin _ _ _ _ _ _ => true
  | .amomax _ _ _ _ _ _ => true
  | .amominu _ _ _ _ _ _ => true
  | .amomaxu _ _ _ _ _ _ => true
  | .amoswap _ _ _ _ _ _ => true
  | .cas _ _ _ _ _ _ => true
  | .copy _ a n r v _ => Legal.listOk a n.toNat 2 6 && Legal.copyOk r v
  | .copyCfg _ a _ => Legal.listOk a 2 2 2
  | .gather _ a n r v _ => Legal.listOk a n.toNat 3 5 && Legal.copyOk r v
  | .scatter _ a n r v _ => Legal.listOk a n.toNat 3 5 && Legal.copyOk r v
  | .merge _ a _ r _ _ => Legal.listOk a 7 7 7 && Legal.rndOk r
  | .mscan _ a _ => Legal.listOk a 3 3 3
  | .waitt _ _ _ => true
  | .waittRelease _ => true
  | .ffr _ _ => true
  | .cbload _ _ _ _ => true
  | .abatch _ _ _ => true
  | .bind _ a _ => Legal.listOk a 1 1 1
  | .unbind _ a h => Legal.listOk a 1 1 1 && h != 0
  | .bindHoldEnd _ => true
  | .tseal _ a _ _ => Legal.listOk a 1 1 1
  | .pfxfind _ a => Legal.listOk a 5 5 5
  | .topk _ a _ => Legal.listOk a 4 4 4
  | .hullw _ a _ => Legal.listOk a 1 1 1
  | .tfork _ a _ => Legal.listOk a 4 4 4
  | .tevict _ a _ => Legal.listOk a 3 3 3
  | .engineQueueHoldEnd _ => true
  | .tagCountHoldEnd _ => true
  | .engineCommandComplete _ _ _ => true
  | .engineCommandAbandon _ _ _ => true
  | .attentionBatchComplete _ _ => true
  | .attentionBatchAbandon _ _ => true
  | .launch _ a n => Legal.listOk a n.toNat 2 3
  | .launchHoldEnd _ => true
  | .spawn _ a n => Legal.listOk a n.toNat 2 7
  | .tail => true
  | .tailHoldEnd _ => true
  | .retirementTrackerDrain _ _ => true
  | .gopen _ _ _ => true
  | .gclose _ _ => true
  | .jopen _ _ => true
  | .reconf _ _ => true
  | .reconfHoldEnd _ => true
  | .reconfTokenPass _ => true
  | .waitc _ _ => true
  | .waitcRelease _ => true
  | .cancel _ l _ => l.toNat < 5
  | .unitComplete _ _ => true
  | .sendm _ a => Legal.listOk a 3 3 3
  | .recvm d => d.toNat ≤ 28
  | .recvmRelease _ => true
  | .barinit _ _ _ => true
  | .bararr _ _ _ => true
  | .barwait _ _ => true
  | .barwaitRelease _ => true
  | .waita _ _ _ => true
  | .waitaRelease _ => true
  | .snap => true
  | .tret => true
  | .trap _ => true
  | .hcall _ => true
  | .asyncTrapTake _ => true
  | .tlbiPage _ _ => true
  | .tlbiPageall _ _ => true
  | .tlbiCid _ _ => true
  | .tlbiAll _ _ => true
  | .icinv _ => true
  | .icinvAll _ => true
  | .framemap _ _ _ => true
  | .framefree _ _ _ => true
  | .scrubComplete _ _ => true
  | .rsave _ _ _ => true
  | .rsaveComplete _ => true
  | .rrest _ _ _ => true
  | .rrestComplete _ => true
  | .ppwaitExpiry _ => true
  | .bankAccessRelease _ _ _ => true
  | .islandTick _ _ => true
  | .loadRequestIssue _ _ _ => true
  | .loadReplyLand _ _ _ => true
  | .storeQueueDrain _ _ _ => true
  | .storePerform _ _ => true
  | .storeRefused _ => true
  | .remoteAccessRequest _ _ _ _ => true
  | .agFault _ _ _ => true
  | .agfaultResume _ _ => true
  | .agfaultDiscard _ _ => true
  | .stallWatchdog _ _ => true
  | .parityHit _ _ => true
  | .dramRowRemap _ _ => true
  | .ptScopeMaxWrite _ _ => true
  | .ptCtxWrite _ _ => true
  | .elFflagsWrite _ _ => true
  | .stWinFlush _ => true
  | .stWinDepth _ _ => true
  | .ptUpWrite _ _ => true
  | .lkSlotselWrite _ _ => true
  | .healthCritRestart => true
  | .thermalAlarm _ => true
  | .criticalStop => true
  | .lanikaFrameBoundary _ _ => true
  | .lanikaSlot _ _ => true
  | .lanikaWordArrive _ _ _ => true
  | .lanikaControlFlits _ => true
  | .portDeclaredDead _ _ => true
  | .routeRecomputeDone => true
  | .hostMailboxWrite _ _ _ => true
  | .hostStatusRead _ => true
  | .quoteRequest _ _ => true
  | .functionLevelReset _ => true
  | .partitionOff _ => true
  | .deviceReset => true
  | .powerOnBoot _ => true
  | .snapshotTickMatch => true
  | .snapshotPin => true
  | .snapshotLatch => true
  | .snapshotDumpDone => true
  | .vnop => true
  | .vnopUnguarded => true
  | .vadd t _ _ => Legal.intType t
  | .vsub t _ _ => Legal.intType t
  | .vmul t _ _ => Legal.intType t
  | .vmad t _ _ => Legal.intType t
  | .vmin t _ => Legal.intType t
  | .vmax t _ => Legal.intType t
  | .vlogic f => f.toNat < 7
  | .vshl t _ _ => Legal.intType t
  | .vshr t _ => Legal.intType t
  | .vshi f t c => Legal.vshiOk f t c
  | .vcmp f t u => Legal.vcmpOk f t u
  | .vsel _ => true
  | .vmov f m => Legal.vmovOk f m
  | .vmovi _ _ => true
  | .vgop f => f.toNat < 7
  | .vfadd t _ r => Legal.floatType t && Legal.rndOk r
  | .vfsub t _ r => Legal.floatType t && Legal.rndOk r
  | .vfmul t _ r => Legal.floatType t && Legal.rndOk r
  | .vfma t _ r => Legal.floatType t && Legal.rndOk r
  | .vfmin t => Legal.floatType t
  | .vfmax t => Legal.floatType t
  | .vfsgn f t => f.toNat < 3 && Legal.floatType t
  | .vfrcp t r => Legal.floatType t && Legal.rndOk r
  | .vfrsq t r => Legal.floatType t && Legal.rndOk r
  | .vfexp2 t r => Legal.floatType t && Legal.rndOk r
  | .vred f t u l _ r => Legal.vredOk f t u l r
  | .vnarrow o r t x => Legal.vnarrowOk o r t x
  | .vwiden o r t x => Legal.vwidenOk o r t x
  | .vpermb => true
  | .vnib _ _ => true
  | .vpack f t _ _ => Legal.vpackOk f t
  | .vshuf f l c => Legal.vshufOk f l c
  | .vldm t _ => Legal.anyType t
  | .vstm _ t _ => Legal.anyType t
  | .vldl t _ => Legal.anyType t
  | .vstl _ t _ => Legal.anyType t
  | .vpop _ => true
  | .vpush _ _ => true
  | .vsend _ => true
  | .tksend _ k => Legal.tksendOk k
  | .tkwait k => Legal.tkwaitOk k
  | .vatom f _ t _ => f.toNat < 4 && Legal.intType t
  | .shape _ w => w.toNat < 3
  | .mbloadQueue _ => true
  | .mbloadRegister _ _ => true
  | .mrun s _ _ _ => s.toNat < 3
  | .mrdacc => true
  | .mfma64 _ r => Legal.rndOk r
  | .qst n _ _ _ t _ _ => Legal.qstOk n t
  | .vcld n _ t _ r => Legal.vcldOk n t r
  | .agcfg _ _ _ k => k.toNat < 3
  | .agbase _ => true
  | .agrun _ _ _ => true
  | .mzero _ => true
  | .alarmLevelClear _ => true
  | .linkTraining _ _ => true
  | .illegalEncoding _ => true
  | .fetchFault _ => true
  | .busMasteringDisabled _ _ => true

end Sys2Proof
end

