-- ==== Sys2Proof/Decode.lean ====
section
/-! DEFINITION. Decoding and encoding of S-form words (R200 to R206, R249) and of E-form op words
(R209 to R215, R314). A word is read as a natural number whose bit k is bit k of the word (R2); a
two-word instruction (R203) carries its immediate in bits 63 to 32. Decoding is total and refuses
by name what the maps of R204 and R213 do not assign. -/

namespace Sys2Proof

/-- Why a word is no instruction. -/
inductive DecodeError where
  /-- A major opcode marked "ill" or "res" (R204, R213). -/
  | reserved
  /-- A field value that the maps do not assign (R206, R215). -/
  | illegalField
  /-- A guard on an op that takes none (R144, R215). -/
  | guard
  /-- Fewer bytes than the instruction has. -/
  | short
  deriving DecidableEq, Repr

/-- Bits lo to lo + n - 1 of a word. -/
def bits (w lo n : Nat) : Nat := w / 2 ^ lo % 2 ^ n

/-- The same as a bit vector. -/
def fieldOf (w lo n : Nat) : BitVec n := BitVec.ofNat n (bits w lo n)

/-- S-form major opcodes 0x00 to 0x0F (R204). -/
def parseS0 (w : Nat) : Option Instr :=
  match bits w 25 4 with
  | 1 => if bits w 0 6 = 0 then some (.add (fieldOf w 20 5) (fieldOf w 15 5) (fieldOf w 10 5) (fieldOf w 9 1) (fieldOf w 7 2) (fieldOf w 6 1)) else none
  | 2 => if bits w 0 6 = 0 then some (.sub (fieldOf w 20 5) (fieldOf w 15 5) (fieldOf w 10 5) (fieldOf w 9 1) (fieldOf w 7 2) (fieldOf w 6 1)) else none
  | 3 => if bits w 0 6 = 0 then some (.mul (fieldOf w 20 5) (fieldOf w 15 5) (fieldOf w 10 5) (fieldOf w 9 1) (fieldOf w 7 2) (fieldOf w 6 1)) else none
  | 4 => if bits w 0 7 = 0 then some (.mulh (fieldOf w 20 5) (fieldOf w 15 5) (fieldOf w 10 5) (fieldOf w 9 1) (fieldOf w 7 2)) else none
  | 5 => if bits w 0 6 = 0 then some (.div (fieldOf w 20 5) (fieldOf w 15 5) (fieldOf w 10 5) (fieldOf w 9 1) (fieldOf w 7 2) (fieldOf w 6 1)) else none
  | 6 => if bits w 0 7 = 0 then some (.rem (fieldOf w 20 5) (fieldOf w 15 5) (fieldOf w 10 5) (fieldOf w 9 1) (fieldOf w 7 2)) else none
  | 7 => if bits w 0 7 = 0 then some (.and_ (fieldOf w 20 5) (fieldOf w 15 5) (fieldOf w 10 5) (fieldOf w 9 1) (fieldOf w 7 2)) else none
  | 8 => if bits w 0 7 = 0 then some (.or_ (fieldOf w 20 5) (fieldOf w 15 5) (fieldOf w 10 5) (fieldOf w 9 1) (fieldOf w 7 2)) else none
  | 9 => if bits w 0 7 = 0 then some (.xor_ (fieldOf w 20 5) (fieldOf w 15 5) (fieldOf w 10 5) (fieldOf w 9 1) (fieldOf w 7 2)) else none
  | 10 => if bits w 0 7 = 0 then some (.sll (fieldOf w 20 5) (fieldOf w 15 5) (fieldOf w 10 5) (fieldOf w 9 1) (fieldOf w 7 2)) else none
  | 11 => if bits w 0 7 = 0 then some (.srl (fieldOf w 20 5) (fieldOf w 15 5) (fieldOf w 10 5) (fieldOf w 9 1) (fieldOf w 7 2)) else none
  | 12 => if bits w 0 7 = 0 ∧ bits w 9 1 = 0 then some (.sra (fieldOf w 20 5) (fieldOf w 15 5) (fieldOf w 10 5) (fieldOf w 7 2)) else none
  | 13 => if bits w 0 7 = 0 ∧ bits w 9 1 = 0 then some (.slt (fieldOf w 20 5) (fieldOf w 15 5) (fieldOf w 10 5) (fieldOf w 7 2)) else none
  | 14 => if bits w 0 7 = 0 ∧ bits w 9 1 = 0 then some (.sltu (fieldOf w 20 5) (fieldOf w 15 5) (fieldOf w 10 5) (fieldOf w 7 2)) else none
  | 15 => if bits w 0 7 = 0 then some (.min_ (fieldOf w 20 5) (fieldOf w 15 5) (fieldOf w 10 5) (fieldOf w 9 1) (fieldOf w 7 2)) else if bits w 0 7 = 1 then some (.max_ (fieldOf w 20 5) (fieldOf w 15 5) (fieldOf w 10 5) (fieldOf w 9 1) (fieldOf w 7 2)) else none
  | _ => none

/-- S-form major opcodes 0x10 to 0x1F (R204). -/
def parseS1 (w : Nat) : Option Instr :=
  match bits w 25 4 with
  | 0 => some (.addi (fieldOf w 20 5) (fieldOf w 15 5) (fieldOf w 0 15))
  | 1 => some (.andi (fieldOf w 20 5) (fieldOf w 15 5) (fieldOf w 0 15))
  | 2 => some (.ori (fieldOf w 20 5) (fieldOf w 15 5) (fieldOf w 0 15))
  | 3 => some (.xori (fieldOf w 20 5) (fieldOf w 15 5) (fieldOf w 0 15))
  | 4 => if bits w 6 9 = 0 then some (.slli (fieldOf w 20 5) (fieldOf w 15 5) (fieldOf w 0 6)) else none
  | 5 => if bits w 6 9 = 0 then some (.srli (fieldOf w 20 5) (fieldOf w 15 5) (fieldOf w 0 6)) else none
  | 6 => if bits w 6 9 = 0 then some (.srai (fieldOf w 20 5) (fieldOf w 15 5) (fieldOf w 0 6)) else none
  | 7 => some (.slti (fieldOf w 20 5) (fieldOf w 15 5) (fieldOf w 0 15))
  | 8 => some (.sltiu (fieldOf w 20 5) (fieldOf w 15 5) (fieldOf w 0 15))
  | 9 => if bits w 0 20 = 0 then some (.li (fieldOf w 20 5) (fieldOf w 32 32)) else none
  | 10 => if bits w 0 20 = 0 then some (.lih (fieldOf w 20 5) (fieldOf w 32 32)) else none
  | 11 => if bits w 0 15 = 0 then some (.addil (fieldOf w 20 5) (fieldOf w 15 5) (fieldOf w 32 32)) else none
  | 12 => if bits w 12 8 = 0 then some (.csrr (fieldOf w 20 5) (fieldOf w 0 12)) else none
  | 13 => if bits w 12 3 = 0 then some (.csrw (fieldOf w 20 5) (fieldOf w 15 5) (fieldOf w 0 12)) else none
  | 14 => if bits w 12 3 = 0 then some (.csrs (fieldOf w 20 5) (fieldOf w 15 5) (fieldOf w 0 12)) else none
  | 15 => if bits w 12 3 = 0 then some (.csrc (fieldOf w 20 5) (fieldOf w 15 5) (fieldOf w 0 12)) else none
  | _ => none

/-- S-form major opcodes 0x20 to 0x2F (R204). -/
def parseS2 (w : Nat) : Option Instr :=
  match bits w 25 4 with
  | 0 => if bits w 20 5 = 0 then some (.b_ (fieldOf w 0 20)) else none
  | 1 => some (.beqz (fieldOf w 20 5) (fieldOf w 0 20))
  | 2 => some (.bnez (fieldOf w 20 5) (fieldOf w 0 20))
  | 3 => some (.bltz (fieldOf w 20 5) (fieldOf w 0 20))
  | 4 => some (.bgez (fieldOf w 20 5) (fieldOf w 0 20))
  | 5 => some (.bgtz (fieldOf w 20 5) (fieldOf w 0 20))
  | 6 => some (.blez (fieldOf w 20 5) (fieldOf w 0 20))
  | 7 => some (.call (fieldOf w 20 5) (fieldOf w 0 20))
  | 8 => if bits w 0 15 = 0 then some (.callr (fieldOf w 20 5) (fieldOf w 15 5)) else none
  | 9 => if bits w 0 25 = 0 then some (.ret) else none
  | 10 => if bits w 0 15 = 0 ∧ bits w 20 5 = 0 then some (.jr (fieldOf w 15 5)) else none
  | _ => none

/-- S-form major opcodes 0x30 to 0x3F (R204). -/
def parseS3 (w : Nat) : Option Instr :=
  match bits w 25 4 with
  | 0 => some (.ldI8 (fieldOf w 20 5) (fieldOf w 15 5) (fieldOf w 3 12) (fieldOf w 0 3))
  | 1 => some (.ldN8 (fieldOf w 20 5) (fieldOf w 15 5) (fieldOf w 3 12) (fieldOf w 0 3))
  | 2 => some (.ldI16 (fieldOf w 20 5) (fieldOf w 15 5) (fieldOf w 3 12) (fieldOf w 0 3))
  | 3 => some (.ldN16 (fieldOf w 20 5) (fieldOf w 15 5) (fieldOf w 3 12) (fieldOf w 0 3))
  | 4 => some (.ldI32 (fieldOf w 20 5) (fieldOf w 15 5) (fieldOf w 3 12) (fieldOf w 0 3))
  | 5 => some (.ldN32 (fieldOf w 20 5) (fieldOf w 15 5) (fieldOf w 3 12) (fieldOf w 0 3))
  | 6 => some (.ldI64 (fieldOf w 20 5) (fieldOf w 15 5) (fieldOf w 3 12) (fieldOf w 0 3))
  | 7 => some (.stI8 (fieldOf w 20 5) (fieldOf w 15 5) (fieldOf w 3 12) (fieldOf w 0 3))
  | 8 => some (.stI16 (fieldOf w 20 5) (fieldOf w 15 5) (fieldOf w 3 12) (fieldOf w 0 3))
  | 9 => some (.stI32 (fieldOf w 20 5) (fieldOf w 15 5) (fieldOf w 3 12) (fieldOf w 0 3))
  | 10 => some (.stI64 (fieldOf w 20 5) (fieldOf w 15 5) (fieldOf w 3 12) (fieldOf w 0 3))
  | 11 => if bits w 3 4 = 0 ∧ bits w 10 5 = 0 then some (.ldacq (fieldOf w 20 5) (fieldOf w 15 5) (fieldOf w 8 2) (fieldOf w 7 1) (fieldOf w 0 3)) else none
  | 12 => if bits w 3 5 = 0 then some (.strel (fieldOf w 20 5) (fieldOf w 15 5) (fieldOf w 10 5) (fieldOf w 8 2) (fieldOf w 0 3)) else none
  | 13 => if bits w 3 17 = 0 then some (.fence (fieldOf w 20 5) (fieldOf w 0 3)) else none
  | 14 => if bits w 0 15 = 0 then some (.fenceLca (fieldOf w 20 5) (fieldOf w 15 5)) else none
  | _ => none

/-- S-form major opcodes 0x40 to 0x4F (R204). -/
def parseS4 (w : Nat) : Option Instr :=
  match bits w 25 4 with
  | 0 => if bits w 3 3 = 0 ∧ bits w 9 1 = 1 then some (.amoadd (fieldOf w 20 5) (fieldOf w 15 5) (fieldOf w 10 5) (fieldOf w 8 1) (fieldOf w 6 2) (fieldOf w 0 3)) else none
  | 1 => if bits w 3 3 = 0 ∧ bits w 9 1 = 1 then some (.amoand (fieldOf w 20 5) (fieldOf w 15 5) (fieldOf w 10 5) (fieldOf w 8 1) (fieldOf w 6 2) (fieldOf w 0 3)) else none
  | 2 => if bits w 3 3 = 0 ∧ bits w 9 1 = 1 then some (.amoor (fieldOf w 20 5) (fieldOf w 15 5) (fieldOf w 10 5) (fieldOf w 8 1) (fieldOf w 6 2) (fieldOf w 0 3)) else none
  | 3 => if bits w 3 3 = 0 ∧ bits w 9 1 = 1 then some (.amoxor (fieldOf w 20 5) (fieldOf w 15 5) (fieldOf w 10 5) (fieldOf w 8 1) (fieldOf w 6 2) (fieldOf w 0 3)) else none
  | 4 => if bits w 3 3 = 0 ∧ bits w 9 1 = 1 then some (.amomin (fieldOf w 20 5) (fieldOf w 15 5) (fieldOf w 10 5) (fieldOf w 8 1) (fieldOf w 6 2) (fieldOf w 0 3)) else none
  | 5 => if bits w 3 3 = 0 ∧ bits w 9 1 = 1 then some (.amomax (fieldOf w 20 5) (fieldOf w 15 5) (fieldOf w 10 5) (fieldOf w 8 1) (fieldOf w 6 2) (fieldOf w 0 3)) else none
  | 6 => if bits w 3 3 = 0 ∧ bits w 9 1 = 1 then some (.amominu (fieldOf w 20 5) (fieldOf w 15 5) (fieldOf w 10 5) (fieldOf w 8 1) (fieldOf w 6 2) (fieldOf w 0 3)) else none
  | 7 => if bits w 3 3 = 0 ∧ bits w 9 1 = 1 then some (.amomaxu (fieldOf w 20 5) (fieldOf w 15 5) (fieldOf w 10 5) (fieldOf w 8 1) (fieldOf w 6 2) (fieldOf w 0 3)) else none
  | 8 => if bits w 3 3 = 0 ∧ bits w 9 1 = 1 then some (.amoswap (fieldOf w 20 5) (fieldOf w 15 5) (fieldOf w 10 5) (fieldOf w 8 1) (fieldOf w 6 2) (fieldOf w 0 3)) else none
  | 9 => if bits w 3 3 = 0 ∧ bits w 9 1 = 1 then some (.cas (fieldOf w 20 5) (fieldOf w 15 5) (fieldOf w 10 5) (fieldOf w 8 1) (fieldOf w 6 2) (fieldOf w 0 3)) else none
  | _ => none

/-- S-form major opcodes 0x50 to 0x5F (R204). -/
def parseS5 (w : Nat) : Option Instr :=
  match bits w 25 4 with
  | 0 => if bits w 6 1 = 0 then some (.copy (fieldOf w 20 5) (fieldOf w 15 5) (fieldOf w 12 3) (fieldOf w 9 3) (fieldOf w 7 2) (fieldOf w 0 6)) else if bits w 6 9 = 129 then some (.copyCfg (fieldOf w 20 5) (fieldOf w 15 5) (fieldOf w 0 6)) else none
  | 1 => if bits w 6 1 = 0 then some (.gather (fieldOf w 20 5) (fieldOf w 15 5) (fieldOf w 12 3) (fieldOf w 9 3) (fieldOf w 7 2) (fieldOf w 0 6)) else none
  | 2 => if bits w 6 1 = 0 then some (.scatter (fieldOf w 20 5) (fieldOf w 15 5) (fieldOf w 12 3) (fieldOf w 9 3) (fieldOf w 7 2) (fieldOf w 0 6)) else none
  | 3 => if bits w 12 3 = 7 then some (.merge (fieldOf w 20 5) (fieldOf w 15 5) (fieldOf w 10 2) (fieldOf w 7 3) (fieldOf w 6 1) (fieldOf w 0 6)) else none
  | 4 => if bits w 6 9 = 192 then some (.mscan (fieldOf w 20 5) (fieldOf w 15 5) (fieldOf w 0 6)) else none
  | 5 => if bits w 0 6 = 0 ∧ bits w 7 8 = 0 then some (.waitt (fieldOf w 20 5) (fieldOf w 15 5) (fieldOf w 6 1)) else none
  | 6 => if bits w 0 15 = 0 then some (.ffr (fieldOf w 20 5) (fieldOf w 15 5)) else none
  | 7 => if bits w 0 6 = 0 ∧ bits w 10 5 = 0 then some (.cbload (fieldOf w 20 5) (fieldOf w 15 5) (fieldOf w 7 3) (fieldOf w 6 1)) else none
  | 8 => if bits w 6 9 = 0 then some (.abatch (fieldOf w 20 5) (fieldOf w 15 5) (fieldOf w 0 6)) else none
  | 9 => if bits w 0 6 = 0 ∧ bits w 10 5 = 4 then some (.bind (fieldOf w 20 5) (fieldOf w 15 5) (fieldOf w 6 4)) else if bits w 0 6 = 0 ∧ bits w 10 5 = 5 then some (.unbind (fieldOf w 20 5) (fieldOf w 15 5) (fieldOf w 6 4)) else none
  | 10 => if bits w 7 8 = 32 then some (.tseal (fieldOf w 20 5) (fieldOf w 15 5) (fieldOf w 6 1) (fieldOf w 0 6)) else none
  | 11 => if bits w 0 15 = 20480 then some (.pfxfind (fieldOf w 20 5) (fieldOf w 15 5)) else none
  | 12 => if bits w 6 9 = 256 then some (.topk (fieldOf w 20 5) (fieldOf w 15 5) (fieldOf w 0 6)) else none
  | 13 => if bits w 6 9 = 64 then some (.hullw (fieldOf w 20 5) (fieldOf w 15 5) (fieldOf w 0 6)) else none
  | 14 => if bits w 6 9 = 256 then some (.tfork (fieldOf w 20 5) (fieldOf w 15 5) (fieldOf w 0 6)) else none
  | 15 => if bits w 6 9 = 192 then some (.tevict (fieldOf w 20 5) (fieldOf w 15 5) (fieldOf w 0 6)) else none
  | _ => none

/-- S-form major opcodes 0x60 to 0x6F (R204). -/
def parseS6 (w : Nat) : Option Instr :=
  match bits w 25 4 with
  | 0 => if bits w 0 12 = 0 then some (.launch (fieldOf w 20 5) (fieldOf w 15 5) (fieldOf w 12 3)) else none
  | 1 => if bits w 0 12 = 0 then some (.spawn (fieldOf w 20 5) (fieldOf w 15 5) (fieldOf w 12 3)) else none
  | 2 => if bits w 0 25 = 0 then some (.tail) else none
  | 3 => if bits w 12 3 = 0 then some (.gopen (fieldOf w 20 5) (fieldOf w 15 5) (fieldOf w 0 12)) else none
  | 4 => if bits w 12 8 = 0 then some (.gclose (fieldOf w 20 5) (fieldOf w 0 12)) else none
  | 5 => if bits w 12 8 = 0 then some (.jopen (fieldOf w 20 5) (fieldOf w 0 12)) else none
  | 6 => if bits w 12 8 = 0 then some (.reconf (fieldOf w 20 5) (fieldOf w 0 12)) else none
  | 7 => if bits w 12 8 = 0 then some (.waitc (fieldOf w 20 5) (fieldOf w 0 12)) else none
  | 8 => if bits w 15 5 = 0 then some (.cancel (fieldOf w 20 5) (fieldOf w 12 3) (fieldOf w 0 12)) else none
  | 9 => if bits w 0 15 = 12288 then some (.sendm (fieldOf w 20 5) (fieldOf w 15 5)) else none
  | 10 => if bits w 0 20 = 0 then some (.recvm (fieldOf w 20 5)) else none
  | 11 => if bits w 8 7 = 0 then some (.barinit (fieldOf w 20 5) (fieldOf w 15 5) (fieldOf w 0 8)) else none
  | 12 => if bits w 11 9 = 0 then some (.bararr (fieldOf w 20 5) (fieldOf w 8 3) (fieldOf w 0 8)) else none
  | 13 => if bits w 8 12 = 0 then some (.barwait (fieldOf w 20 5) (fieldOf w 0 8)) else none
  | 14 => if bits w 0 10 = 0 then some (.waita (fieldOf w 20 5) (fieldOf w 15 5) (fieldOf w 10 5)) else none
  | 15 => if bits w 0 25 = 0 then some (.snap) else none
  | _ => none

/-- S-form major opcodes 0x70 to 0x7F (R204). -/
def parseS7 (w : Nat) : Option Instr :=
  match bits w 25 4 with
  | 0 => if bits w 0 25 = 0 then some (.tret) else none
  | 1 => if bits w 15 10 = 0 then some (.trap (fieldOf w 0 15)) else none
  | 8 => if bits w 15 10 = 0 then some (.hcall (fieldOf w 0 15)) else none
  | 2 => if bits w 0 10 = 0 ∧ bits w 20 5 = 0 then some (.tlbiPage (fieldOf w 15 5) (fieldOf w 10 5)) else if bits w 0 10 = 1 ∧ bits w 20 5 = 0 then some (.tlbiPageall (fieldOf w 15 5) (fieldOf w 10 5)) else if bits w 0 10 = 2 ∧ bits w 20 5 = 0 then some (.tlbiCid (fieldOf w 15 5) (fieldOf w 10 5)) else if bits w 0 10 = 3 ∧ bits w 20 5 = 0 then some (.tlbiAll (fieldOf w 15 5) (fieldOf w 10 5)) else none
  | 3 => if bits w 0 15 = 0 ∧ bits w 20 5 = 0 then some (.icinv (fieldOf w 15 5)) else if bits w 0 15 = 1 ∧ bits w 20 5 = 0 then some (.icinvAll (fieldOf w 15 5)) else none
  | 4 => if bits w 0 10 = 0 then some (.framemap (fieldOf w 20 5) (fieldOf w 15 5) (fieldOf w 10 5)) else none
  | 5 => if bits w 0 10 = 0 then some (.framefree (fieldOf w 20 5) (fieldOf w 15 5) (fieldOf w 10 5)) else none
  | 6 => if bits w 0 10 = 0 then some (.rsave (fieldOf w 20 5) (fieldOf w 15 5) (fieldOf w 10 5)) else none
  | 7 => if bits w 0 10 = 0 then some (.rrest (fieldOf w 20 5) (fieldOf w 15 5) (fieldOf w 10 5)) else none
  | _ => none

/-- The S-form instruction with these bits, by major opcode (R204); the checks of `Instr.wf` are not
yet made. -/
def parseS (w : Nat) : Option Instr :=
  match bits w 29 3 with
  | 0 => parseS0 w
  | 1 => parseS1 w
  | 2 => parseS2 w
  | 3 => parseS3 w
  | 4 => parseS4 w
  | 5 => parseS5 w
  | 6 => parseS6 w
  | _ => parseS7 w

/-- The major opcodes that R204 marks "ill" or "res". -/
def opcodeReserved (w : Nat) : Bool :=
  match bits w 25 7 with
  | 0 | 43 | 44 | 45 | 46 | 47 | 63 | 74 | 75 | 76 | 77 | 78 | 79 | 121 | 122 | 123 | 124 | 125 | 126 | 127 => true
  | _ => false

/-- The two-word opcodes: li, lih and addil (R203, R228). -/
def isLong (w : Nat) : Bool := bits w 25 7 == 25 || bits w 25 7 == 26 || bits w 25 7 == 27

/-- S-form decoding (R204 to R206). -/
def decodeS (w : Nat) : Except DecodeError Instr :=
  if opcodeReserved w then .error .reserved
  else match parseS w with
    | some i => if i.wf then .ok i else .error .illegalField
    | none => .error .illegalField

/-- E-form opcodes 0x00 to 0x0F (R213, R214). -/
def parseE0 (w : Nat) : Option Instr :=
  match bits w 18 4 with
  | 0 => if bits w 0 18 = 0 then some .vnop else if bits w 0 18 = 14336 then some .vnopUnguarded else none
  | 1 => if bits w 0 3 = 0 ∧ bits w 4 3 = 0 ∧ bits w 11 7 = 7 then some (.vadd (fieldOf w 8 3) (fieldOf w 7 1) (fieldOf w 3 1)) else none
  | 2 => if bits w 0 3 = 0 ∧ bits w 4 3 = 0 ∧ bits w 11 7 = 7 then some (.vsub (fieldOf w 8 3) (fieldOf w 7 1) (fieldOf w 3 1)) else none
  | 3 => if bits w 0 3 = 0 ∧ bits w 4 3 = 0 ∧ bits w 11 7 = 7 then some (.vmul (fieldOf w 8 3) (fieldOf w 7 1) (fieldOf w 3 1)) else none
  | 4 => if bits w 0 3 = 0 ∧ bits w 4 3 = 0 ∧ bits w 11 7 = 7 then some (.vmad (fieldOf w 8 3) (fieldOf w 7 1) (fieldOf w 3 1)) else none
  | 5 => if bits w 0 7 = 0 ∧ bits w 11 7 = 7 then some (.vmin (fieldOf w 8 3) (fieldOf w 7 1)) else none
  | 6 => if bits w 0 7 = 0 ∧ bits w 11 7 = 7 then some (.vmax (fieldOf w 8 3) (fieldOf w 7 1)) else none
  | 7 => if bits w 0 14 = 14336 then some (.vlogic (fieldOf w 14 4)) else none
  | 8 => if bits w 0 3 = 0 ∧ bits w 4 3 = 0 ∧ bits w 11 7 = 7 then some (.vshl (fieldOf w 8 3) (fieldOf w 7 1) (fieldOf w 3 1)) else none
  | 9 => if bits w 0 7 = 0 ∧ bits w 11 7 = 7 then some (.vshr (fieldOf w 8 3) (fieldOf w 7 1)) else none
  | 10 => if bits w 11 3 = 7 then some (.vshi (fieldOf w 14 4) (fieldOf w 8 3) (fieldOf w 0 8)) else none
  | 11 => if bits w 0 7 = 0 ∧ bits w 11 3 = 7 then some (.vcmp (fieldOf w 14 4) (fieldOf w 8 3) (fieldOf w 7 1)) else none
  | 12 => if bits w 3 15 = 1792 then some (.vsel (fieldOf w 0 3)) else none
  | 13 => if bits w 8 6 = 56 then some (.vmov (fieldOf w 14 4) (fieldOf w 0 8)) else none
  | 14 => if bits w 8 6 = 56 ∧ bits w 16 2 = 0 then some (.vmovi (fieldOf w 14 2) (fieldOf w 0 8)) else none
  | 15 => if bits w 0 14 = 14336 then some (.vgop (fieldOf w 14 4)) else none
  | _ => none

/-- E-form opcodes 0x10 to 0x1F (R213, R214). -/
def parseE1 (w : Nat) : Option Instr :=
  match bits w 18 4 with
  | 0 => if bits w 4 4 = 0 ∧ bits w 11 7 = 7 then some (.vfadd (fieldOf w 8 3) (fieldOf w 3 1) (fieldOf w 0 3)) else none
  | 1 => if bits w 4 4 = 0 ∧ bits w 11 7 = 7 then some (.vfsub (fieldOf w 8 3) (fieldOf w 3 1) (fieldOf w 0 3)) else none
  | 2 => if bits w 4 4 = 0 ∧ bits w 11 7 = 7 then some (.vfmul (fieldOf w 8 3) (fieldOf w 3 1) (fieldOf w 0 3)) else none
  | 3 => if bits w 4 4 = 0 ∧ bits w 11 7 = 7 then some (.vfma (fieldOf w 8 3) (fieldOf w 3 1) (fieldOf w 0 3)) else none
  | 4 => if bits w 0 8 = 0 ∧ bits w 11 7 = 7 then some (.vfmin (fieldOf w 8 3)) else none
  | 5 => if bits w 0 8 = 0 ∧ bits w 11 7 = 7 then some (.vfmax (fieldOf w 8 3)) else none
  | 6 => if bits w 0 8 = 0 ∧ bits w 11 3 = 7 then some (.vfsgn (fieldOf w 14 4) (fieldOf w 8 3)) else none
  | 7 => if bits w 3 5 = 0 ∧ bits w 11 7 = 7 then some (.vfrcp (fieldOf w 8 3) (fieldOf w 0 3)) else none
  | 8 => if bits w 3 5 = 0 ∧ bits w 11 7 = 7 then some (.vfrsq (fieldOf w 8 3) (fieldOf w 0 3)) else none
  | 9 => if bits w 3 5 = 0 ∧ bits w 11 7 = 7 then some (.vfexp2 (fieldOf w 8 3) (fieldOf w 0 3)) else none
  | 10 => if bits w 6 1 = 0 ∧ bits w 11 3 = 7 then some (.vred (fieldOf w 14 4) (fieldOf w 8 3) (fieldOf w 7 1) (fieldOf w 4 2) (fieldOf w 3 1) (fieldOf w 0 3)) else none
  | 11 => if bits w 11 3 = 7 then some (.vnarrow (fieldOf w 17 1) (fieldOf w 14 3) (fieldOf w 8 3) (fieldOf w 0 8)) else none
  | 12 => if bits w 11 3 = 7 then some (.vwiden (fieldOf w 17 1) (fieldOf w 14 3) (fieldOf w 8 3) (fieldOf w 0 8)) else none
  | _ => none

/-- E-form opcodes 0x20 to 0x2F (R213, R214). -/
def parseE2 (w : Nat) : Option Instr :=
  match bits w 18 4 with
  | 0 => if bits w 0 18 = 14336 then some .vpermb else none
  | 1 => if bits w 1 13 = 7168 ∧ bits w 15 3 = 0 then some (.vnib (fieldOf w 14 1) (fieldOf w 0 1)) else none
  | 2 => if bits w 0 3 = 0 ∧ bits w 4 3 = 0 ∧ bits w 11 3 = 7 then some (.vpack (fieldOf w 14 4) (fieldOf w 8 3) (fieldOf w 7 1) (fieldOf w 3 1)) else none
  | 3 => if bits w 6 8 = 224 then some (.vshuf (fieldOf w 14 4) (fieldOf w 4 2) (fieldOf w 0 4)) else none
  | 4 => if bits w 11 7 = 7 then some (.vldm (fieldOf w 8 3) (fieldOf w 0 8)) else none
  | 5 => if bits w 14 4 = 0 then some (.vstm (fieldOf w 11 3) (fieldOf w 8 3) (fieldOf w 0 8)) else none
  | 6 => if bits w 11 7 = 7 then some (.vldl (fieldOf w 8 3) (fieldOf w 0 8)) else none
  | 7 => if bits w 14 4 = 0 then some (.vstl (fieldOf w 11 3) (fieldOf w 8 3) (fieldOf w 0 8)) else none
  | 8 => if bits w 0 14 = 14336 ∧ bits w 15 3 = 0 then some (.vpop (fieldOf w 14 1)) else none
  | 9 => if bits w 0 11 = 0 ∧ bits w 15 3 = 0 then some (.vpush (fieldOf w 14 1) (fieldOf w 11 3)) else none
  | 10 => if bits w 0 11 = 0 ∧ bits w 14 4 = 0 then some (.vsend (fieldOf w 11 3)) else none
  | 11 => if bits w 8 3 = 0 ∧ bits w 14 4 = 0 then some (.tksend (fieldOf w 11 3) (fieldOf w 0 8)) else none
  | 12 => if bits w 8 10 = 56 then some (.tkwait (fieldOf w 0 8)) else none
  | 13 => if bits w 0 7 = 0 then some (.vatom (fieldOf w 14 4) (fieldOf w 11 3) (fieldOf w 8 3) (fieldOf w 7 1)) else none
  | _ => none

/-- E-form opcodes 0x30 to 0x3F (R213, R214). -/
def parseE3 (w : Nat) : Option Instr :=
  match bits w 18 4 with
  | 0 => if bits w 5 13 = 448 then some (.shape (fieldOf w 2 3) (fieldOf w 0 2)) else none
  | 1 => if bits w 0 14 = 14336 ∧ bits w 15 3 = 0 then some (.mbloadQueue (fieldOf w 14 1)) else if bits w 8 8 = 184 ∧ bits w 17 1 = 0 then some (.mbloadRegister (fieldOf w 16 1) (fieldOf w 0 8)) else none
  | 2 => if bits w 8 6 = 56 then some (.mrun (fieldOf w 16 2) (fieldOf w 15 1) (fieldOf w 14 1) (fieldOf w 0 8)) else none
  | 3 => if bits w 0 18 = 14336 then some .mrdacc else none
  | 4 => if bits w 4 14 = 944 then some (.mfma64 (fieldOf w 3 1) (fieldOf w 0 3)) else none
  | 5 => some (.qst (fieldOf w 16 2) (fieldOf w 15 1) (fieldOf w 14 1) (fieldOf w 11 3) (fieldOf w 8 3) (fieldOf w 5 3) (fieldOf w 0 5))
  | 6 => if bits w 4 4 = 0 ∧ bits w 11 3 = 7 ∧ bits w 15 1 = 0 then some (.vcld (fieldOf w 16 2) (fieldOf w 14 1) (fieldOf w 8 3) (fieldOf w 3 1) (fieldOf w 0 3)) else none
  | 7 => if bits w 5 9 = 448 ∧ bits w 15 3 = 0 then some (.agcfg (fieldOf w 14 1) (fieldOf w 4 1) (fieldOf w 2 2) (fieldOf w 0 2)) else none
  | 8 => if bits w 0 14 = 14336 ∧ bits w 15 3 = 0 then some (.agbase (fieldOf w 14 1)) else none
  | 9 => if bits w 0 14 = 14336 ∧ bits w 17 1 = 0 then some (.agrun (fieldOf w 16 1) (fieldOf w 15 1) (fieldOf w 14 1)) else none
  | 10 => if bits w 0 14 = 14336 ∧ bits w 15 3 = 0 then some (.mzero (fieldOf w 14 1)) else none
  | _ => none

/-- The E-form op with these bits; the checks of `Instr.wf` are not yet made. -/
def parseE (w : Nat) : Option Instr :=
  match bits w 22 2 with
  | 0 => parseE0 w
  | 1 => parseE1 w
  | 2 => parseE2 w
  | _ => parseE3 w

/-- The E-form opcodes marked "res" (R213, R314). -/
def opReserved (w : Nat) : Bool :=
  match bits w 18 6 with
  | 29 | 30 | 31 | 46 | 47 | 59 | 60 | 61 | 62 | 63 => true
  | _ => false

/-- The ops whose guard column says "yes" (R214, R314). -/
def opTakesGuard (w : Nat) : Bool :=
  match bits w 18 6 with
  | 37 | 39 | 41 | 42 | 43 | 45 | 53 => true
  | _ => false

/-- The word with its guard field set to 7, none. -/
def withoutGuard (w : Nat) : Nat := w - bits w 11 3 * 2048 + 7 * 2048

/-- The word is a valid encoding but for a guard that its op does not take (R372, pass 4). The two
`vnop` words are whole words (R214). -/
def opEncodingOk (w : Nat) : Bool :=
  if opTakesGuard w || bits w 18 6 == 0 then ((parseE w).map Instr.wf).getD false
  else ((parseE (withoutGuard w)).map Instr.wf).getD false

/-- The guard the word carries is one its op may carry (R144; R372, pass 5). A guarded token send
goes only to the region sequencer. -/
def opGuardOk (w : Nat) : Bool :=
  if bits w 18 6 == 0 then true
  else if bits w 18 6 == 43 then bits w 11 3 == 7 || bits w 0 8 == 0
  else opTakesGuard w || bits w 11 3 == 7

/-- E-form decoding (R213 to R215). -/
def decodeE (w : Nat) : Except DecodeError Instr :=
  if opReserved w then .error .reserved
  else if !opEncodingOk w then .error .illegalField
  else if !opGuardOk w then .error .guard
  else match parseE w with
    | some i => .ok i
    | none => .error .illegalField

/-- Little-endian bytes as a number (R2). -/
def leNat : List Byte → Nat
  | [] => 0
  | b :: bs => b.toNat + 256 * leNat bs

/-- The low `n` bytes of a number, lowest first (R2). -/
def leBytes : Nat → Nat → List Byte
  | 0, _ => []
  | n + 1, x => BitVec.ofNat 8 (x % 256) :: leBytes n (x / 256)

/-- The first S-form instruction of a byte sequence and the bytes after it. -/
def decode (bs : List Byte) : Except DecodeError (Instr × List Byte) :=
  if bs.length < 4 then .error .short
  else if isLong (leNat (bs.take 4)) then
    if bs.length < 8 then .error .short
    else match decodeS (leNat (bs.take 8)) with
      | .ok i => .ok (i, bs.drop 8)
      | .error e => .error e
  else match decodeS (leNat (bs.take 4)) with
    | .ok i => .ok (i, bs.drop 4)
    | .error e => .error e

/-- The first op word of a byte sequence (three bytes, R253) and the bytes after it. -/
def decodeOp (bs : List Byte) : Except DecodeError (Instr × List Byte) :=
  if bs.length < 3 then .error .short
  else match decodeE (leNat (bs.take 3)) with
    | .ok i => .ok (i, bs.drop 3)
    | .error e => .error e

/-- The instruction that decoding reads from a word numbered as spec/opcode_table.json numbers it:
rows of 24 bits are op words, every other row is S-form, its bytes in memory order (R200). -/
def decodeTableWord (nbits w : Nat) : Option Instr :=
  if nbits = 24 then (match decodeOp (leBytes 3 w) with | .ok (i, _) => some i | .error _ => none)
  else (match decode (leBytes 8 w) with | .ok (i, _) => some i | .error _ => none)

/-- A word from its fixed bits and its fields, each a value and its lowest bit. -/
def wordOf (base : Nat) : List (Nat × Nat) → Nat
  | [] => base
  | (v, lo) :: fs => v * 2 ^ lo + wordOf base fs

/-- The bits of a word instruction: bits 31 to 0, with an immediate in 63 to 32 (S-form), or bits 23
to 0 (E-form). Events have no word. -/
def encode : Instr → Nat
  | .add d a b u w s => wordOf 0x2000000 [(d.toNat, 20), (a.toNat, 15), (b.toNat, 10), (u.toNat, 9), (w.toNat, 7), (s.toNat, 6)]
  | .sub d a b u w s => wordOf 0x4000000 [(d.toNat, 20), (a.toNat, 15), (b.toNat, 10), (u.toNat, 9), (w.toNat, 7), (s.toNat, 6)]
  | .mul d a b u w s => wordOf 0x6000000 [(d.toNat, 20), (a.toNat, 15), (b.toNat, 10), (u.toNat, 9), (w.toNat, 7), (s.toNat, 6)]
  | .mulh d a b u w => wordOf 0x8000000 [(d.toNat, 20), (a.toNat, 15), (b.toNat, 10), (u.toNat, 9), (w.toNat, 7)]
  | .div d a b u w s => wordOf 0xA000000 [(d.toNat, 20), (a.toNat, 15), (b.toNat, 10), (u.toNat, 9), (w.toNat, 7), (s.toNat, 6)]
  | .rem d a b u w => wordOf 0xC000000 [(d.toNat, 20), (a.toNat, 15), (b.toNat, 10), (u.toNat, 9), (w.toNat, 7)]
  | .and_ d a b u w => wordOf 0xE000000 [(d.toNat, 20), (a.toNat, 15), (b.toNat, 10), (u.toNat, 9), (w.toNat, 7)]
  | .or_ d a b u w => wordOf 0x10000000 [(d.toNat, 20), (a.toNat, 15), (b.toNat, 10), (u.toNat, 9), (w.toNat, 7)]
  | .xor_ d a b u w => wordOf 0x12000000 [(d.toNat, 20), (a.toNat, 15), (b.toNat, 10), (u.toNat, 9), (w.toNat, 7)]
  | .sll d a b u w => wordOf 0x14000000 [(d.toNat, 20), (a.toNat, 15), (b.toNat, 10), (u.toNat, 9), (w.toNat, 7)]
  | .srl d a b u w => wordOf 0x16000000 [(d.toNat, 20), (a.toNat, 15), (b.toNat, 10), (u.toNat, 9), (w.toNat, 7)]
  | .sra d a b w => wordOf 0x18000000 [(d.toNat, 20), (a.toNat, 15), (b.toNat, 10), (w.toNat, 7)]
  | .slt d a b w => wordOf 0x1A000000 [(d.toNat, 20), (a.toNat, 15), (b.toNat, 10), (w.toNat, 7)]
  | .sltu d a b w => wordOf 0x1C000000 [(d.toNat, 20), (a.toNat, 15), (b.toNat, 10), (w.toNat, 7)]
  | .min_ d a b u w => wordOf 0x1E000000 [(d.toNat, 20), (a.toNat, 15), (b.toNat, 10), (u.toNat, 9), (w.toNat, 7)]
  | .max_ d a b u w => wordOf 0x1E000001 [(d.toNat, 20), (a.toNat, 15), (b.toNat, 10), (u.toNat, 9), (w.toNat, 7)]
  | .addi d a i => wordOf 0x20000000 [(d.toNat, 20), (a.toNat, 15), (i.toNat, 0)]
  | .andi d a i => wordOf 0x22000000 [(d.toNat, 20), (a.toNat, 15), (i.toNat, 0)]
  | .ori d a i => wordOf 0x24000000 [(d.toNat, 20), (a.toNat, 15), (i.toNat, 0)]
  | .xori d a i => wordOf 0x26000000 [(d.toNat, 20), (a.toNat, 15), (i.toNat, 0)]
  | .slli d a c => wordOf 0x28000000 [(d.toNat, 20), (a.toNat, 15), (c.toNat, 0)]
  | .srli d a c => wordOf 0x2A000000 [(d.toNat, 20), (a.toNat, 15), (c.toNat, 0)]
  | .srai d a c => wordOf 0x2C000000 [(d.toNat, 20), (a.toNat, 15), (c.toNat, 0)]
  | .slti d a i => wordOf 0x2E000000 [(d.toNat, 20), (a.toNat, 15), (i.toNat, 0)]
  | .sltiu d a i => wordOf 0x30000000 [(d.toNat, 20), (a.toNat, 15), (i.toNat, 0)]
  | .li d imm => wordOf 0x32000000 [(d.toNat, 20), (imm.toNat, 32)]
  | .lih d imm => wordOf 0x34000000 [(d.toNat, 20), (imm.toNat, 32)]
  | .addil d a imm => wordOf 0x36000000 [(d.toNat, 20), (a.toNat, 15), (imm.toNat, 32)]
  | .csrr d r => wordOf 0x38000000 [(d.toNat, 20), (r.toNat, 0)]
  | .csrw d a r => wordOf 0x3A000000 [(d.toNat, 20), (a.toNat, 15), (r.toNat, 0)]
  | .csrs d a r => wordOf 0x3C000000 [(d.toNat, 20), (a.toNat, 15), (r.toNat, 0)]
  | .csrc d a r => wordOf 0x3E000000 [(d.toNat, 20), (a.toNat, 15), (r.toNat, 0)]
  | .b_ o => wordOf 0x40000000 [(o.toNat, 0)]
  | .beqz a o => wordOf 0x42000000 [(a.toNat, 20), (o.toNat, 0)]
  | .bnez a o => wordOf 0x44000000 [(a.toNat, 20), (o.toNat, 0)]
  | .bltz a o => wordOf 0x46000000 [(a.toNat, 20), (o.toNat, 0)]
  | .bgez a o => wordOf 0x48000000 [(a.toNat, 20), (o.toNat, 0)]
  | .bgtz a o => wordOf 0x4A000000 [(a.toNat, 20), (o.toNat, 0)]
  | .blez a o => wordOf 0x4C000000 [(a.toNat, 20), (o.toNat, 0)]
  | .call f o => wordOf 0x4E000000 [(f.toNat, 20), (o.toNat, 0)]
  | .callr f a => wordOf 0x50000000 [(f.toNat, 20), (a.toNat, 15)]
  | .ret => wordOf 0x52000000 []
  | .jr a => wordOf 0x54000000 [(a.toNat, 15)]
  | .ldI8 d a i s => wordOf 0x60000000 [(d.toNat, 20), (a.toNat, 15), (i.toNat, 3), (s.toNat, 0)]
  | .ldN8 d a i s => wordOf 0x62000000 [(d.toNat, 20), (a.toNat, 15), (i.toNat, 3), (s.toNat, 0)]
  | .ldI16 d a i s => wordOf 0x64000000 [(d.toNat, 20), (a.toNat, 15), (i.toNat, 3), (s.toNat, 0)]
  | .ldN16 d a i s => wordOf 0x66000000 [(d.toNat, 20), (a.toNat, 15), (i.toNat, 3), (s.toNat, 0)]
  | .ldI32 d a i s => wordOf 0x68000000 [(d.toNat, 20), (a.toNat, 15), (i.toNat, 3), (s.toNat, 0)]
  | .ldN32 d a i s => wordOf 0x6A000000 [(d.toNat, 20), (a.toNat, 15), (i.toNat, 3), (s.toNat, 0)]
  | .ldI64 d a i s => wordOf 0x6C000000 [(d.toNat, 20), (a.toNat, 15), (i.toNat, 3), (s.toNat, 0)]
  | .stI8 d a i s => wordOf 0x6E000000 [(d.toNat, 20), (a.toNat, 15), (i.toNat, 3), (s.toNat, 0)]
  | .stI16 d a i s => wordOf 0x70000000 [(d.toNat, 20), (a.toNat, 15), (i.toNat, 3), (s.toNat, 0)]
  | .stI32 d a i s => wordOf 0x72000000 [(d.toNat, 20), (a.toNat, 15), (i.toNat, 3), (s.toNat, 0)]
  | .stI64 d a i s => wordOf 0x74000000 [(d.toNat, 20), (a.toNat, 15), (i.toNat, 3), (s.toNat, 0)]
  | .ldacq d a w u s => wordOf 0x76000000 [(d.toNat, 20), (a.toNat, 15), (w.toNat, 8), (u.toNat, 7), (s.toNat, 0)]
  | .strel d a b w s => wordOf 0x78000000 [(d.toNat, 20), (a.toNat, 15), (b.toNat, 10), (w.toNat, 8), (s.toNat, 0)]
  | .fence d s => wordOf 0x7A000000 [(d.toNat, 20), (s.toNat, 0)]
  | .fenceLca d a => wordOf 0x7C000000 [(d.toNat, 20), (a.toNat, 15)]
  | .fenceComplete _ => 0
  | .fenceTimeout _ => 0
  | .amoadd d a b w o s => wordOf 0x80000200 [(d.toNat, 20), (a.toNat, 15), (b.toNat, 10), (w.toNat, 8), (o.toNat, 6), (s.toNat, 0)]
  | .amoand d a b w o s => wordOf 0x82000200 [(d.toNat, 20), (a.toNat, 15), (b.toNat, 10), (w.toNat, 8), (o.toNat, 6), (s.toNat, 0)]
  | .amoor d a b w o s => wordOf 0x84000200 [(d.toNat, 20), (a.toNat, 15), (b.toNat, 10), (w.toNat, 8), (o.toNat, 6), (s.toNat, 0)]
  | .amoxor d a b w o s => wordOf 0x86000200 [(d.toNat, 20), (a.toNat, 15), (b.toNat, 10), (w.toNat, 8), (o.toNat, 6), (s.toNat, 0)]
  | .amomin d a b w o s => wordOf 0x88000200 [(d.toNat, 20), (a.toNat, 15), (b.toNat, 10), (w.toNat, 8), (o.toNat, 6), (s.toNat, 0)]
  | .amomax d a b w o s => wordOf 0x8A000200 [(d.toNat, 20), (a.toNat, 15), (b.toNat, 10), (w.toNat, 8), (o.toNat, 6), (s.toNat, 0)]
  | .amominu d a b w o s => wordOf 0x8C000200 [(d.toNat, 20), (a.toNat, 15), (b.toNat, 10), (w.toNat, 8), (o.toNat, 6), (s.toNat, 0)]
  | .amomaxu d a b w o s => wordOf 0x8E000200 [(d.toNat, 20), (a.toNat, 15), (b.toNat, 10), (w.toNat, 8), (o.toNat, 6), (s.toNat, 0)]
  | .amoswap d a b w o s => wordOf 0x90000200 [(d.toNat, 20), (a.toNat, 15), (b.toNat, 10), (w.toNat, 8), (o.toNat, 6), (s.toNat, 0)]
  | .cas d a b w o s => wordOf 0x92000200 [(d.toNat, 20), (a.toNat, 15), (b.toNat, 10), (w.toNat, 8), (o.toNat, 6), (s.toNat, 0)]
  | .copy d a n r v t => wordOf 0xA0000000 [(d.toNat, 20), (a.toNat, 15), (n.toNat, 12), (r.toNat, 9), (v.toNat, 7), (t.toNat, 0)]
  | .copyCfg d a t => wordOf 0xA0002040 [(d.toNat, 20), (a.toNat, 15), (t.toNat, 0)]
  | .gather d a n r v t => wordOf 0xA2000000 [(d.toNat, 20), (a.toNat, 15), (n.toNat, 12), (r.toNat, 9), (v.toNat, 7), (t.toNat, 0)]
  | .scatter d a n r v t => wordOf 0xA4000000 [(d.toNat, 20), (a.toNat, 15), (n.toNat, 12), (r.toNat, 9), (v.toNat, 7), (t.toNat, 0)]
  | .merge d a y r k t => wordOf 0xA6007000 [(d.toNat, 20), (a.toNat, 15), (y.toNat, 10), (r.toNat, 7), (k.toNat, 6), (t.toNat, 0)]
  | .mscan d a t => wordOf 0xA8003000 [(d.toNat, 20), (a.toNat, 15), (t.toNat, 0)]
  | .waitt d a m => wordOf 0xAA000000 [(d.toNat, 20), (a.toNat, 15), (m.toNat, 6)]
  | .waittRelease _ => 0
  | .ffr d a => wordOf 0xAC000000 [(d.toNat, 20), (a.toNat, 15)]
  | .cbload d a s w => wordOf 0xAE000000 [(d.toNat, 20), (a.toNat, 15), (s.toNat, 7), (w.toNat, 6)]
  | .abatch d a t => wordOf 0xB0000000 [(d.toNat, 20), (a.toNat, 15), (t.toNat, 0)]
  | .bind d a h => wordOf 0xB2001000 [(d.toNat, 20), (a.toNat, 15), (h.toNat, 6)]
  | .unbind d a h => wordOf 0xB2001400 [(d.toNat, 20), (a.toNat, 15), (h.toNat, 6)]
  | .bindHoldEnd _ => 0
  | .tseal d a h t => wordOf 0xB4001000 [(d.toNat, 20), (a.toNat, 15), (h.toNat, 6), (t.toNat, 0)]
  | .pfxfind d a => wordOf 0xB6005000 [(d.toNat, 20), (a.toNat, 15)]
  | .topk d a t => wordOf 0xB8004000 [(d.toNat, 20), (a.toNat, 15), (t.toNat, 0)]
  | .hullw d a t => wordOf 0xBA001000 [(d.toNat, 20), (a.toNat, 15), (t.toNat, 0)]
  | .tfork d a t => wordOf 0xBC004000 [(d.toNat, 20), (a.toNat, 15), (t.toNat, 0)]
  | .tevict d a t => wordOf 0xBE003000 [(d.toNat, 20), (a.toNat, 15), (t.toNat, 0)]
  | .engineQueueHoldEnd _ => 0
  | .tagCountHoldEnd _ => 0
  | .engineCommandComplete _ _ _ => 0
  | .engineCommandAbandon _ _ _ => 0
  | .attentionBatchComplete _ _ => 0
  | .attentionBatchAbandon _ _ => 0
  | .launch d a n => wordOf 0xC0000000 [(d.toNat, 20), (a.toNat, 15), (n.toNat, 12)]
  | .launchHoldEnd _ => 0
  | .spawn d a n => wordOf 0xC2000000 [(d.toNat, 20), (a.toNat, 15), (n.toNat, 12)]
  | .tail => wordOf 0xC4000000 []
  | .tailHoldEnd _ => 0
  | .retirementTrackerDrain _ _ => 0
  | .gopen d a h => wordOf 0xC6000000 [(d.toNat, 20), (a.toNat, 15), (h.toNat, 0)]
  | .gclose d h => wordOf 0xC8000000 [(d.toNat, 20), (h.toNat, 0)]
  | .jopen d h => wordOf 0xCA000000 [(d.toNat, 20), (h.toNat, 0)]
  | .reconf d h => wordOf 0xCC000000 [(d.toNat, 20), (h.toNat, 0)]
  | .reconfHoldEnd _ => 0
  | .reconfTokenPass _ => 0
  | .waitc d h => wordOf 0xCE000000 [(d.toNat, 20), (h.toNat, 0)]
  | .waitcRelease _ => 0
  | .cancel d l h => wordOf 0xD0000000 [(d.toNat, 20), (l.toNat, 12), (h.toNat, 0)]
  | .unitComplete _ _ => 0
  | .sendm d a => wordOf 0xD2003000 [(d.toNat, 20), (a.toNat, 15)]
  | .recvm d => wordOf 0xD4000000 [(d.toNat, 20)]
  | .recvmRelease _ => 0
  | .barinit d a h => wordOf 0xD6000000 [(d.toNat, 20), (a.toNat, 15), (h.toNat, 0)]
  | .bararr d s h => wordOf 0xD8000000 [(d.toNat, 20), (s.toNat, 8), (h.toNat, 0)]
  | .barwait d h => wordOf 0xDA000000 [(d.toNat, 20), (h.toNat, 0)]
  | .barwaitRelease _ => 0
  | .waita d a b => wordOf 0xDC000000 [(d.toNat, 20), (a.toNat, 15), (b.toNat, 10)]
  | .waitaRelease _ => 0
  | .snap => wordOf 0xDE000000 []
  | .tret => wordOf 0xE0000000 []
  | .trap n => wordOf 0xE2000000 [(n.toNat, 0)]
  | .hcall n => wordOf 0xF0000000 [(n.toNat, 0)]
  | .asyncTrapTake _ => 0
  | .tlbiPage a b => wordOf 0xE4000000 [(a.toNat, 15), (b.toNat, 10)]
  | .tlbiPageall a b => wordOf 0xE4000001 [(a.toNat, 15), (b.toNat, 10)]
  | .tlbiCid a b => wordOf 0xE4000002 [(a.toNat, 15), (b.toNat, 10)]
  | .tlbiAll a b => wordOf 0xE4000003 [(a.toNat, 15), (b.toNat, 10)]
  | .icinv a => wordOf 0xE6000000 [(a.toNat, 15)]
  | .icinvAll a => wordOf 0xE6000001 [(a.toNat, 15)]
  | .framemap d a b => wordOf 0xE8000000 [(d.toNat, 20), (a.toNat, 15), (b.toNat, 10)]
  | .framefree d a b => wordOf 0xEA000000 [(d.toNat, 20), (a.toNat, 15), (b.toNat, 10)]
  | .scrubComplete _ _ => 0
  | .rsave d a b => wordOf 0xEC000000 [(d.toNat, 20), (a.toNat, 15), (b.toNat, 10)]
  | .rsaveComplete _ => 0
  | .rrest d a b => wordOf 0xEE000000 [(d.toNat, 20), (a.toNat, 15), (b.toNat, 10)]
  | .rrestComplete _ => 0
  | .ppwaitExpiry _ => 0
  | .bankAccessRelease _ _ _ => 0
  | .islandTick _ _ => 0
  | .loadRequestIssue _ _ _ => 0
  | .loadReplyLand _ _ _ => 0
  | .storeQueueDrain _ _ _ => 0
  | .storePerform _ _ => 0
  | .storeRefused _ => 0
  | .remoteAccessRequest _ _ _ _ => 0
  | .agFault _ _ _ => 0
  | .agfaultResume _ _ => 0
  | .agfaultDiscard _ _ => 0
  | .stallWatchdog _ _ => 0
  | .parityHit _ _ => 0
  | .dramRowRemap _ _ => 0
  | .ptScopeMaxWrite _ _ => 0
  | .ptCtxWrite _ _ => 0
  | .elFflagsWrite _ _ => 0
  | .stWinFlush _ => 0
  | .stWinDepth _ _ => 0
  | .ptUpWrite _ _ => 0
  | .lkSlotselWrite _ _ => 0
  | .healthCritRestart => 0
  | .thermalAlarm _ => 0
  | .criticalStop => 0
  | .lanikaFrameBoundary _ _ => 0
  | .lanikaSlot _ _ => 0
  | .lanikaWordArrive _ _ _ => 0
  | .lanikaControlFlits _ => 0
  | .portDeclaredDead _ _ => 0
  | .routeRecomputeDone => 0
  | .hostMailboxWrite _ _ _ => 0
  | .hostStatusRead _ => 0
  | .quoteRequest _ _ => 0
  | .functionLevelReset _ => 0
  | .partitionOff _ => 0
  | .deviceReset => 0
  | .powerOnBoot _ => 0
  | .snapshotTickMatch => 0
  | .snapshotPin => 0
  | .snapshotLatch => 0
  | .snapshotDumpDone => 0
  | .vnop => wordOf 0x0 []
  | .vnopUnguarded => wordOf 0x3800 []
  | .vadd t u s => wordOf 0x43800 [(t.toNat, 8), (u.toNat, 7), (s.toNat, 3)]
  | .vsub t u s => wordOf 0x83800 [(t.toNat, 8), (u.toNat, 7), (s.toNat, 3)]
  | .vmul t u s => wordOf 0xC3800 [(t.toNat, 8), (u.toNat, 7), (s.toNat, 3)]
  | .vmad t u s => wordOf 0x103800 [(t.toNat, 8), (u.toNat, 7), (s.toNat, 3)]
  | .vmin t u => wordOf 0x143800 [(t.toNat, 8), (u.toNat, 7)]
  | .vmax t u => wordOf 0x183800 [(t.toNat, 8), (u.toNat, 7)]
  | .vlogic f => wordOf 0x1C3800 [(f.toNat, 14)]
  | .vshl t u s => wordOf 0x203800 [(t.toNat, 8), (u.toNat, 7), (s.toNat, 3)]
  | .vshr t u => wordOf 0x243800 [(t.toNat, 8), (u.toNat, 7)]
  | .vshi f t c => wordOf 0x283800 [(f.toNat, 14), (t.toNat, 8), (c.toNat, 0)]
  | .vcmp f t u => wordOf 0x2C3800 [(f.toNat, 14), (t.toNat, 8), (u.toNat, 7)]
  | .vsel q => wordOf 0x303800 [(q.toNat, 0)]
  | .vmov f m => wordOf 0x343800 [(f.toNat, 14), (m.toNat, 0)]
  | .vmovi p i => wordOf 0x383800 [(p.toNat, 14), (i.toNat, 0)]
  | .vgop f => wordOf 0x3C3800 [(f.toNat, 14)]
  | .vfadd t s r => wordOf 0x403800 [(t.toNat, 8), (s.toNat, 3), (r.toNat, 0)]
  | .vfsub t s r => wordOf 0x443800 [(t.toNat, 8), (s.toNat, 3), (r.toNat, 0)]
  | .vfmul t s r => wordOf 0x483800 [(t.toNat, 8), (s.toNat, 3), (r.toNat, 0)]
  | .vfma t s r => wordOf 0x4C3800 [(t.toNat, 8), (s.toNat, 3), (r.toNat, 0)]
  | .vfmin t => wordOf 0x503800 [(t.toNat, 8)]
  | .vfmax t => wordOf 0x543800 [(t.toNat, 8)]
  | .vfsgn f t => wordOf 0x583800 [(f.toNat, 14), (t.toNat, 8)]
  | .vfrcp t r => wordOf 0x5C3800 [(t.toNat, 8), (r.toNat, 0)]
  | .vfrsq t r => wordOf 0x603800 [(t.toNat, 8), (r.toNat, 0)]
  | .vfexp2 t r => wordOf 0x643800 [(t.toNat, 8), (r.toNat, 0)]
  | .vred f t u l s r => wordOf 0x683800 [(f.toNat, 14), (t.toNat, 8), (u.toNat, 7), (l.toNat, 4), (s.toNat, 3), (r.toNat, 0)]
  | .vnarrow o r t x => wordOf 0x6C3800 [(o.toNat, 17), (r.toNat, 14), (t.toNat, 8), (x.toNat, 0)]
  | .vwiden o r t x => wordOf 0x703800 [(o.toNat, 17), (r.toNat, 14), (t.toNat, 8), (x.toNat, 0)]
  | .vpermb => wordOf 0x803800 []
  | .vnib f h => wordOf 0x843800 [(f.toNat, 14), (h.toNat, 0)]
  | .vpack f t u s => wordOf 0x883800 [(f.toNat, 14), (t.toNat, 8), (u.toNat, 7), (s.toNat, 3)]
  | .vshuf f l c => wordOf 0x8C3800 [(f.toNat, 14), (l.toNat, 4), (c.toNat, 0)]
  | .vldm t o => wordOf 0x903800 [(t.toNat, 8), (o.toNat, 0)]
  | .vstm g t o => wordOf 0x940000 [(g.toNat, 11), (t.toNat, 8), (o.toNat, 0)]
  | .vldl t o => wordOf 0x983800 [(t.toNat, 8), (o.toNat, 0)]
  | .vstl g t o => wordOf 0x9C0000 [(g.toNat, 11), (t.toNat, 8), (o.toNat, 0)]
  | .vpop p => wordOf 0xA03800 [(p.toNat, 14)]
  | .vpush p g => wordOf 0xA40000 [(p.toNat, 14), (g.toNat, 11)]
  | .vsend g => wordOf 0xA80000 [(g.toNat, 11)]
  | .tksend g k => wordOf 0xAC0000 [(g.toNat, 11), (k.toNat, 0)]
  | .tkwait k => wordOf 0xB03800 [(k.toNat, 0)]
  | .vatom f g t u => wordOf 0xB40000 [(f.toNat, 14), (g.toNat, 11), (t.toNat, 8), (u.toNat, 7)]
  | .shape e w => wordOf 0xC03800 [(e.toNat, 2), (w.toNat, 0)]
  | .mbloadQueue p => wordOf 0xC43800 [(p.toNat, 14)]
  | .mbloadRegister w x => wordOf 0xC4B800 [(w.toNat, 16), (x.toNat, 0)]
  | .mrun s c p m => wordOf 0xC83800 [(s.toNat, 16), (c.toNat, 15), (p.toNat, 14), (m.toNat, 0)]
  | .mrdacc => wordOf 0xCC3800 []
  | .mfma64 s r => wordOf 0xD03B00 [(s.toNat, 3), (r.toNat, 0)]
  | .qst n w p g t s m => wordOf 0xD40000 [(n.toNat, 16), (w.toNat, 15), (p.toNat, 14), (g.toNat, 11), (t.toNat, 8), (s.toNat, 5), (m.toNat, 0)]
  | .vcld n p t s r => wordOf 0xD83800 [(n.toNat, 16), (p.toNat, 14), (t.toNat, 8), (s.toNat, 3), (r.toNat, 0)]
  | .agcfg p x c k => wordOf 0xDC3800 [(p.toNat, 14), (x.toNat, 4), (c.toNat, 2), (k.toNat, 0)]
  | .agbase p => wordOf 0xE03800 [(p.toNat, 14)]
  | .agrun f n p => wordOf 0xE43800 [(f.toNat, 16), (n.toNat, 15), (p.toNat, 14)]
  | .mzero r => wordOf 0xE83800 [(r.toNat, 14)]
  | .alarmLevelClear _ => 0
  | .linkTraining _ _ => 0
  | .illegalEncoding _ => 0
  | .fetchFault _ => 0
  | .busMasteringDisabled _ _ => 0

/-- Whether the step has a word at all, and of which form. -/
inductive Form where
  | sForm
  | eForm
  | event
  deriving DecidableEq, Repr

def Instr.form : Instr → Form
  | .add _ _ _ _ _ _ => .sForm
  | .sub _ _ _ _ _ _ => .sForm
  | .mul _ _ _ _ _ _ => .sForm
  | .mulh _ _ _ _ _ => .sForm
  | .div _ _ _ _ _ _ => .sForm
  | .rem _ _ _ _ _ => .sForm
  | .and_ _ _ _ _ _ => .sForm
  | .or_ _ _ _ _ _ => .sForm
  | .xor_ _ _ _ _ _ => .sForm
  | .sll _ _ _ _ _ => .sForm
  | .srl _ _ _ _ _ => .sForm
  | .sra _ _ _ _ => .sForm
  | .slt _ _ _ _ => .sForm
  | .sltu _ _ _ _ => .sForm
  | .min_ _ _ _ _ _ => .sForm
  | .max_ _ _ _ _ _ => .sForm
  | .addi _ _ _ => .sForm
  | .andi _ _ _ => .sForm
  | .ori _ _ _ => .sForm
  | .xori _ _ _ => .sForm
  | .slli _ _ _ => .sForm
  | .srli _ _ _ => .sForm
  | .srai _ _ _ => .sForm
  | .slti _ _ _ => .sForm
  | .sltiu _ _ _ => .sForm
  | .li _ _ => .sForm
  | .lih _ _ => .sForm
  | .addil _ _ _ => .sForm
  | .csrr _ _ => .sForm
  | .csrw _ _ _ => .sForm
  | .csrs _ _ _ => .sForm
  | .csrc _ _ _ => .sForm
  | .b_ _ => .sForm
  | .beqz _ _ => .sForm
  | .bnez _ _ => .sForm
  | .bltz _ _ => .sForm
  | .bgez _ _ => .sForm
  | .bgtz _ _ => .sForm
  | .blez _ _ => .sForm
  | .call _ _ => .sForm
  | .callr _ _ => .sForm
  | .ret => .sForm
  | .jr _ => .sForm
  | .ldI8 _ _ _ _ => .sForm
  | .ldN8 _ _ _ _ => .sForm
  | .ldI16 _ _ _ _ => .sForm
  | .ldN16 _ _ _ _ => .sForm
  | .ldI32 _ _ _ _ => .sForm
  | .ldN32 _ _ _ _ => .sForm
  | .ldI64 _ _ _ _ => .sForm
  | .stI8 _ _ _ _ => .sForm
  | .stI16 _ _ _ _ => .sForm
  | .stI32 _ _ _ _ => .sForm
  | .stI64 _ _ _ _ => .sForm
  | .ldacq _ _ _ _ _ => .sForm
  | .strel _ _ _ _ _ => .sForm
  | .fence _ _ => .sForm
  | .fenceLca _ _ => .sForm
  | .fenceComplete _ => .event
  | .fenceTimeout _ => .event
  | .amoadd _ _ _ _ _ _ => .sForm
  | .amoand _ _ _ _ _ _ => .sForm
  | .amoor _ _ _ _ _ _ => .sForm
  | .amoxor _ _ _ _ _ _ => .sForm
  | .amomin _ _ _ _ _ _ => .sForm
  | .amomax _ _ _ _ _ _ => .sForm
  | .amominu _ _ _ _ _ _ => .sForm
  | .amomaxu _ _ _ _ _ _ => .sForm
  | .amoswap _ _ _ _ _ _ => .sForm
  | .cas _ _ _ _ _ _ => .sForm
  | .copy _ _ _ _ _ _ => .sForm
  | .copyCfg _ _ _ => .sForm
  | .gather _ _ _ _ _ _ => .sForm
  | .scatter _ _ _ _ _ _ => .sForm
  | .merge _ _ _ _ _ _ => .sForm
  | .mscan _ _ _ => .sForm
  | .waitt _ _ _ => .sForm
  | .waittRelease _ => .event
  | .ffr _ _ => .sForm
  | .cbload _ _ _ _ => .sForm
  | .abatch _ _ _ => .sForm
  | .bind _ _ _ => .sForm
  | .unbind _ _ _ => .sForm
  | .bindHoldEnd _ => .event
  | .tseal _ _ _ _ => .sForm
  | .pfxfind _ _ => .sForm
  | .topk _ _ _ => .sForm
  | .hullw _ _ _ => .sForm
  | .tfork _ _ _ => .sForm
  | .tevict _ _ _ => .sForm
  | .engineQueueHoldEnd _ => .event
  | .tagCountHoldEnd _ => .event
  | .engineCommandComplete _ _ _ => .event
  | .engineCommandAbandon _ _ _ => .event
  | .attentionBatchComplete _ _ => .event
  | .attentionBatchAbandon _ _ => .event
  | .launch _ _ _ => .sForm
  | .launchHoldEnd _ => .event
  | .spawn _ _ _ => .sForm
  | .tail => .sForm
  | .tailHoldEnd _ => .event
  | .retirementTrackerDrain _ _ => .event
  | .gopen _ _ _ => .sForm
  | .gclose _ _ => .sForm
  | .jopen _ _ => .sForm
  | .reconf _ _ => .sForm
  | .reconfHoldEnd _ => .event
  | .reconfTokenPass _ => .event
  | .waitc _ _ => .sForm
  | .waitcRelease _ => .event
  | .cancel _ _ _ => .sForm
  | .unitComplete _ _ => .event
  | .sendm _ _ => .sForm
  | .recvm _ => .sForm
  | .recvmRelease _ => .event
  | .barinit _ _ _ => .sForm
  | .bararr _ _ _ => .sForm
  | .barwait _ _ => .sForm
  | .barwaitRelease _ => .event
  | .waita _ _ _ => .sForm
  | .waitaRelease _ => .event
  | .snap => .sForm
  | .tret => .sForm
  | .trap _ => .sForm
  | .hcall _ => .sForm
  | .asyncTrapTake _ => .event
  | .tlbiPage _ _ => .sForm
  | .tlbiPageall _ _ => .sForm
  | .tlbiCid _ _ => .sForm
  | .tlbiAll _ _ => .sForm
  | .icinv _ => .sForm
  | .icinvAll _ => .sForm
  | .framemap _ _ _ => .sForm
  | .framefree _ _ _ => .sForm
  | .scrubComplete _ _ => .event
  | .rsave _ _ _ => .sForm
  | .rsaveComplete _ => .event
  | .rrest _ _ _ => .sForm
  | .rrestComplete _ => .event
  | .ppwaitExpiry _ => .event
  | .bankAccessRelease _ _ _ => .event
  | .islandTick _ _ => .event
  | .loadRequestIssue _ _ _ => .event
  | .loadReplyLand _ _ _ => .event
  | .storeQueueDrain _ _ _ => .event
  | .storePerform _ _ => .event
  | .storeRefused _ => .event
  | .remoteAccessRequest _ _ _ _ => .event
  | .agFault _ _ _ => .event
  | .agfaultResume _ _ => .event
  | .agfaultDiscard _ _ => .event
  | .stallWatchdog _ _ => .event
  | .parityHit _ _ => .event
  | .dramRowRemap _ _ => .event
  | .ptScopeMaxWrite _ _ => .event
  | .ptCtxWrite _ _ => .event
  | .elFflagsWrite _ _ => .event
  | .stWinFlush _ => .event
  | .stWinDepth _ _ => .event
  | .ptUpWrite _ _ => .event
  | .lkSlotselWrite _ _ => .event
  | .healthCritRestart => .event
  | .thermalAlarm _ => .event
  | .criticalStop => .event
  | .lanikaFrameBoundary _ _ => .event
  | .lanikaSlot _ _ => .event
  | .lanikaWordArrive _ _ _ => .event
  | .lanikaControlFlits _ => .event
  | .portDeclaredDead _ _ => .event
  | .routeRecomputeDone => .event
  | .hostMailboxWrite _ _ _ => .event
  | .hostStatusRead _ => .event
  | .quoteRequest _ _ => .event
  | .functionLevelReset _ => .event
  | .partitionOff _ => .event
  | .deviceReset => .event
  | .powerOnBoot _ => .event
  | .snapshotTickMatch => .event
  | .snapshotPin => .event
  | .snapshotLatch => .event
  | .snapshotDumpDone => .event
  | .vnop => .eForm
  | .vnopUnguarded => .eForm
  | .vadd _ _ _ => .eForm
  | .vsub _ _ _ => .eForm
  | .vmul _ _ _ => .eForm
  | .vmad _ _ _ => .eForm
  | .vmin _ _ => .eForm
  | .vmax _ _ => .eForm
  | .vlogic _ => .eForm
  | .vshl _ _ _ => .eForm
  | .vshr _ _ => .eForm
  | .vshi _ _ _ => .eForm
  | .vcmp _ _ _ => .eForm
  | .vsel _ => .eForm
  | .vmov _ _ => .eForm
  | .vmovi _ _ => .eForm
  | .vgop _ => .eForm
  | .vfadd _ _ _ => .eForm
  | .vfsub _ _ _ => .eForm
  | .vfmul _ _ _ => .eForm
  | .vfma _ _ _ => .eForm
  | .vfmin _ => .eForm
  | .vfmax _ => .eForm
  | .vfsgn _ _ => .eForm
  | .vfrcp _ _ => .eForm
  | .vfrsq _ _ => .eForm
  | .vfexp2 _ _ => .eForm
  | .vred _ _ _ _ _ _ => .eForm
  | .vnarrow _ _ _ _ => .eForm
  | .vwiden _ _ _ _ => .eForm
  | .vpermb => .eForm
  | .vnib _ _ => .eForm
  | .vpack _ _ _ _ => .eForm
  | .vshuf _ _ _ => .eForm
  | .vldm _ _ => .eForm
  | .vstm _ _ _ => .eForm
  | .vldl _ _ => .eForm
  | .vstl _ _ _ => .eForm
  | .vpop _ => .eForm
  | .vpush _ _ => .eForm
  | .vsend _ => .eForm
  | .tksend _ _ => .eForm
  | .tkwait _ => .eForm
  | .vatom _ _ _ _ => .eForm
  | .shape _ _ => .eForm
  | .mbloadQueue _ => .eForm
  | .mbloadRegister _ _ => .eForm
  | .mrun _ _ _ _ => .eForm
  | .mrdacc => .eForm
  | .mfma64 _ _ => .eForm
  | .qst _ _ _ _ _ _ _ => .eForm
  | .vcld _ _ _ _ _ => .eForm
  | .agcfg _ _ _ _ => .eForm
  | .agbase _ => .eForm
  | .agrun _ _ _ => .eForm
  | .mzero _ => .eForm
  | .alarmLevelClear _ => .event
  | .linkTraining _ _ => .event
  | .illegalEncoding _ => .event
  | .fetchFault _ => .event
  | .busMasteringDisabled _ _ => .event

/-- Bytes of the instruction in memory: 8 for the two-word format (R203), 4 for other S-form words, 3
for an op word (R253). -/
def Instr.size (i : Instr) : Nat :=
  match i with
  | .li _ _ | .lih _ _ | .addil _ _ _ => 8
  | _ => match i.form with | .sForm => 4 | .eForm => 3 | .event => 0

end Sys2Proof
end

