-- ==== Sys2Proof/Config.lean ====
section
/-! DEFINITION. What an implementation fixes and the free values: constants without a body, so that
no proof can see what they are. notes/assumptions/4.md names every use. -/

namespace Sys2Proof.Config

/-- A free value that the machine takes at the n-th choice: a number the spec leaves open. -/
opaque freeNat : Nat → Nat

/-- R396: the value of SCOPE_COST0 to 7 at an agent coordinate, for the places the table does not
give; the second argument is the scope code, the third the host port that presents the partition. -/
opaque scopeCost : BitVec 32 → Nat → Nat → BitVec 32

/-- R142: the ticks that an edge which crosses regions of the package adds before a word counts toward occupancy. -/
opaque edgeLag : Nat → Nat

/-- R85, R388: the bank of a DRAM address: the hash that spreads a stack over its channels is not given. -/
opaque dramBank : Nat → Nat

/-- R388: the DRAM row that holds a DRAM address: how a stack is laid out in rows is not given. -/
opaque dramRow : Nat → Nat

/-- R196: the physical address at which the verified hypervisor image starts. -/
opaque hypervisorEntry : BitVec 52

/-- R196: whether an ML-DSA-65 signature verifies: public key, image, signature. The algorithm is not given. -/
opaque verifies : List (BitVec 8) → List (BitVec 8) → List (BitVec 8) → Bool

/-- R197: the number of the Held frame that keeps the measurement of the hypervisor. -/
opaque measurementFrame : Nat

/-- R198: the ROM version in a quote. -/
opaque romVersion : Nat

/-- R198: the bytes of the ML-DSA-65 signature that the device's identity key gives the bytes of a quote. -/
opaque signature : List (BitVec 8) → Nat → BitVec 8

end Sys2Proof.Config
end

