-- ==== Sys2Proof/Machine/Map.lean ====
section
/-! DEFINITION. The one sparse table of the model: pairs of a key and a value, keys strictly rising,
no entry equal to what an unlisted key reads as. Memory, the element memories, the slices, the vector
registers and every table of State that is mostly at its reset value are held in this form, so that
equal contents are equal data. -/

namespace Sys2Proof.Machine

/-- A sparse table (see the file's head for its canonical form). -/
abbrev Map (α : Type) := List (Nat × α)

/-- The value at a key, or what an unlisted key reads as. -/
def mapGet {α : Type} (z : α) : Map α → Nat → α
  | [], _ => z
  | (k, v) :: m, a => if a = k then v else mapGet z m a

/-- The table without an entry at the key. -/
def mapErase {α : Type} : Map α → Nat → Map α
  | [], _ => []
  | (k, v) :: m, a => if a = k then mapErase m a else (k, v) :: mapErase m a

/-- The table with an entry at the key. -/
def mapPut {α : Type} : Map α → Nat → α → Map α
  | [], a, x => [(a, x)]
  | (k, v) :: m, a, x =>
    if a = k then (a, x) :: m else if a < k then (a, x) :: (k, v) :: m else (k, v) :: mapPut m a x

/-- A write: an entry equal to what an unlisted key reads as is not kept. -/
def mapSet {α : Type} [DecidableEq α] (z : α) (m : Map α) (a : Nat) (x : α) : Map α :=
  if x = z then mapErase m a else mapPut m a x

/-- The canonical form: every key at least lo, keys strictly rising, no entry equal to z. -/
def mapWf {α : Type} [DecidableEq α] (z : α) : Nat → Map α → Bool
  | _, [] => true
  | lo, (k, v) :: m => decide (lo ≤ k) && decide (v ≠ z) && mapWf z (k + 1) m

/-- The values at n consecutive keys. -/
def mapGetN {α : Type} (z : α) (m : Map α) : Nat → Nat → List α
  | _, 0 => []
  | a, n + 1 => mapGet z m a :: mapGetN z m (a + 1) n

/-- A write of consecutive keys. -/
def mapSetN {α : Type} [DecidableEq α] (z : α) : Map α → Nat → List α → Map α
  | m, _, [] => m
  | m, a, x :: xs => mapSetN z (mapSet z m a x) (a + 1) xs

/-- Bytes as a little-endian number (R2). -/
def leToNat : List Byte → Nat
  | [] => 0
  | b :: bs => b.toNat + 256 * leToNat bs

/-- A number as n little-endian bytes (R2). -/
def natToLe (v : Nat) : Nat → List Byte
  | 0 => []
  | n + 1 => BitVec.ofNat 8 (v % 256) :: natToLe (v / 256) n

/-- Bits hi to lo of a number (R5). -/
def nbits (v hi lo : Nat) : Nat := v / 2 ^ lo % 2 ^ (hi + 1 - lo)

/-- One bit of a number. -/
def nbit (v i : Nat) : Bool := v / 2 ^ i % 2 = 1

/-- A number with bits hi to lo replaced. -/
def setBits (v hi lo x : Nat) : Nat :=
  v - nbits v hi lo * 2 ^ lo + x % 2 ^ (hi + 1 - lo) * 2 ^ lo

/-- The numbers below n, rising. -/
def upTo (n : Nat) : List Nat := List.range n

/-- Numbered entries of a list. -/
def numbered {α : Type} (l : List α) : List (Nat × α) := (upTo l.length).zip l

/-- The list with entry i replaced; a longer index changes nothing. -/
def setAt {α : Type} : List α → Nat → α → List α
  | [], _, _ => []
  | _ :: xs, 0, y => y :: xs
  | x :: xs, i + 1, y => x :: setAt xs i y

/-- The list without entry i. -/
def dropAt {α : Type} : List α → Nat → List α
  | [], _ => []
  | _ :: xs, 0 => xs
  | x :: xs, i + 1 => x :: dropAt xs i

/-- R90: an address given by its bits [56:0] as a 64-bit virtual address: bit 56 fills the bits above. -/
def va64 (a : Nat) : Nat := if a % 2 ^ 57 < 2 ^ 56 then a % 2 ^ 57 else a % 2 ^ 57 + (2 ^ 64 - 2 ^ 57)

/-- Bits [hi:lo] of a number, sign-extended to an integer. -/
def sextBits (v n : Nat) : Int :=
  let m := v % 2 ^ n
  if m < 2 ^ (n - 1) then (m : Int) else (m : Int) - ((2 ^ n : Nat) : Int)

end Sys2Proof.Machine
end

