-- ==== Sys2Proof/Machine/Flags.lean ====
section
/-! DEFINITION. The exception flags of R58 and the flag computations of the integer formats: clamping
(R41), wrapping, and the ranges of the integer types. -/

namespace Sys2Proof.Machine

/-- The seven sticky flags in the layout of R58: NX 0, UF 1, OF 2, DZ 3, NV 4, SAT 5, QINF 6. -/
abbrev Flags := BitVec 7

def fNX : Flags := 0x01#7
def fUF : Flags := 0x02#7
def fOF : Flags := 0x04#7
def fDZ : Flags := 0x08#7
def fNV : Flags := 0x10#7
def fSAT : Flags := 0x20#7
def fQINF : Flags := 0x40#7

/-- The flag when the condition holds, else none. -/
def flagIf (c : Bool) (f : Flags) : Flags := if c then f else 0#7

/-- Smallest value of an integer type of w bits (R41). -/
def intMin (w : Nat) (uns : Bool) : Int := if uns then 0 else - ((2 ^ (w - 1) : Nat) : Int)

/-- Largest value of an integer type of w bits (R41). -/
def intMax (w : Nat) (uns : Bool) : Int :=
  if uns then ((2 ^ w : Nat) : Int) - 1 else ((2 ^ (w - 1) : Nat) : Int) - 1

/-- Whether a value lies in an integer type (R41). -/
def intFits (w : Nat) (uns : Bool) (v : Int) : Bool :=
  decide (intMin w uns ≤ v) && decide (v ≤ intMax w uns)

/-- The nearest end of the range, or the value itself (R41). -/
def intClamp (w : Nat) (uns : Bool) (v : Int) : Int :=
  if v < intMin w uns then intMin w uns else if intMax w uns < v then intMax w uns else v

/-- The low w bits of a two's complement integer, as a natural number (R41). -/
def intWrap (w : Nat) (v : Int) : Nat := (v % ((2 ^ w : Nat) : Int)).toNat

/-- A bit pattern of w bits read signed or unsigned (R41). -/
def intRead (w : Nat) (uns : Bool) (n : Nat) : Int :=
  let m := n % 2 ^ w
  if uns || m < 2 ^ (w - 1) then (m : Int) else (m : Int) - ((2 ^ w : Nat) : Int)

/-- R41: the result of an instruction with the `sat` key, as w bits, with the flag SAT where
clamping changed the value. -/
def satResult (w : Nat) (uns sat : Bool) (v : Int) : Nat × Flags :=
  if sat then (intWrap w (intClamp w uns v), flagIf (!intFits w uns v) fSAT)
  else (intWrap w v, 0#7)

end Sys2Proof.Machine
end

