-- ==== Sys2Proof/Machine/Numbers.lean ====
section
/-! DEFINITION. The number formats of 03_number_formats.md: exact values, the IEEE 754 and P3109
formats (R43, R46 to R49), rounding (R51 to R55), exact arithmetic (R44, R45) and the correctly
rounded functions (R56). Every result is computed exactly first and narrowed once at the end. -/

namespace Sys2Proof.Machine

/-- An exact value: a NaN, an infinity, or ±m × 2^e (R5). A zero keeps its sign (R45). -/
inductive Val where
  | nan (signalling : Bool)
  | inf (neg : Bool)
  | fin (neg : Bool) (m : Nat) (e : Int)
  deriving DecidableEq, Repr

/-- A format of the descriptor of R50. -/
inductive Fmt where
  /-- class 0: w bits, unsigned or not (R41) -/
  | int (w : Nat) (uns : Bool)
  /-- class 1: exponent and fraction bits (R43) -/
  | ieee (eb fb : Nat)
  /-- classes 2 and 3: width 8 or 4, precision, unsigned, extended (R46 to R49) -/
  | narrow (k p : Nat) (uns ext : Bool)
  deriving DecidableEq, Repr

/-- The rounding modes of R51; `rsr` carries its random word z (R54). -/
inductive Mode where
  | rne
  | rtz
  | rup
  | rdn
  | rto
  | rsr (z : Nat)
  deriving DecidableEq, Repr

/-- R51: the mode of a rounding code; code 5 takes its word from the copy path alone. -/
def modeOf (code z : Nat) : Mode :=
  match code with
  | 1 => .rtz
  | 2 => .rup
  | 3 => .rdn
  | 4 => .rto
  | 5 => .rsr z
  | _ => .rne

def fmtF16 : Fmt := .ieee 5 10
def fmtBF16 : Fmt := .ieee 8 7
def fmtF32 : Fmt := .ieee 8 23
def fmtF64 : Fmt := .ieee 11 52

/-- R50: the format that a valid descriptor names. -/
def fmtOfDesc (d : Nat) : Fmt :=
  let sub := d % 8
  let uns := d / 32 % 2 = 1
  let ext := d / 16 % 2 = 1
  match d / 64 % 4 with
  | 0 => .int (4 * 2 ^ sub) uns
  | 1 => match sub with
    | 0 => fmtF16
    | 1 => fmtBF16
    | 2 => fmtF32
    | _ => fmtF64
  | 2 => .narrow 8 sub uns ext
  | _ => .narrow 4 sub false false

/-- Width in bits of a value of the format (R300). -/
def fmtWidth : Fmt → Nat
  | .int w _ => w
  | .ieee eb fb => 1 + eb + fb
  | .narrow k _ _ _ => k

/-- Fraction bits F of a floating format. -/
def fmtF : Fmt → Nat
  | .int _ _ => 0
  | .ieee _ fb => fb
  | .narrow _ p _ _ => p - 1

/-- The exponent bias (R43, R46, R49). -/
def fmtBias : Fmt → Int
  | .int _ _ => 0
  | .ieee eb _ => ((2 ^ (eb - 1) : Nat) : Int) - 1
  | .narrow k p _ _ => ((2 ^ (k - 1 - p) : Nat) : Int)

/-- The magnitude code of the largest finite value (R43, R47, R49). -/
def fmtMaxCode : Fmt → Nat
  | .int w uns => if uns then 2 ^ w - 1 else 2 ^ (w - 1) - 1
  | .ieee eb fb => (2 ^ eb - 1) * 2 ^ fb - 1
  | .narrow k _ uns ext => (if uns then 2 ^ k - 2 else 2 ^ (k - 1) - 1) - (if ext then 1 else 0)

/-- Whether the format has an infinity (R53). -/
def fmtHasInf : Fmt → Bool
  | .int _ _ => false
  | .ieee _ _ => true
  | .narrow _ _ _ ext => ext

/-- The one NaN the format's results hold (R43, R46, R49, R55). -/
def fmtNaN : Fmt → Nat
  | .int _ _ => 0
  | .ieee eb fb => (2 ^ eb - 1) * 2 ^ fb + 2 ^ (fb - 1)
  | .narrow k _ uns _ => if uns then 2 ^ k - 1 else 2 ^ (k - 1)

/-- A magnitude code with its sign bit. -/
def fmtSigned (f : Fmt) (neg : Bool) (code : Nat) : Nat :=
  if neg then code + 2 ^ (fmtWidth f - 1) else code

/-- R43, R46, R49: the exact value of a code. -/
def decodeFmt (f : Fmt) (c0 : Nat) : Val :=
  let c := c0 % 2 ^ fmtWidth f
  match f with
  | .int w uns =>
    let v := intRead w uns c
    .fin (decide (v < 0)) v.natAbs 0
  | .ieee eb fb =>
    let s := c / 2 ^ (eb + fb) = 1
    let e := c / 2 ^ fb % 2 ^ eb
    let fr := c % 2 ^ fb
    if e = 2 ^ eb - 1 then
      if fr = 0 then .inf s else .nan (decide (fr < 2 ^ (fb - 1)))
    else if e = 0 then .fin s fr (1 - fmtBias f - fb)
    else .fin s (2 ^ fb + fr) ((e : Int) - fmtBias f - fb)
  | .narrow k p uns ext =>
    let fb := p - 1
    let s := !uns && decide (c ≥ 2 ^ (k - 1))
    let m := if uns then c else c % 2 ^ (k - 1)
    if c = fmtNaN f then .nan false
    else if ext && m = fmtMaxCode f + 1 then .inf s
    else
      let e := m / 2 ^ fb
      let fr := m % 2 ^ fb
      if e = 0 then .fin s fr (1 - fmtBias f - fb)
      else .fin s (2 ^ fb + fr) ((e : Int) - fmtBias f - fb)

/-- Division of m by 2^d: quotient, remainder and divisor; a negative d shifts left. -/
def shiftDiv (m : Nat) (d : Int) : Nat × Nat × Nat :=
  if d ≤ 0 then (m * 2 ^ d.natAbs, 0, 1) else (m / 2 ^ d.natAbs, m % 2 ^ d.natAbs, 2 ^ d.natAbs)

/-- R52: whether the magnitude goes to the next grid point away from zero, when rem / den lies past
the nearer one, whose code is odd or even. -/
def roundsAway (mode : Mode) (neg odd : Bool) (rem den : Nat) : Bool :=
  if rem = 0 then false
  else match mode with
    | .rne => decide (den < 2 * rem) || (decide (den = 2 * rem) && odd)
    | .rtz => false
    | .rup => !neg
    | .rdn => neg
    | .rto => !odd
    | .rsr z =>
      if neg then !decide (z < 2 ^ 32 * (den - rem) / den) else decide (z < 2 ^ 32 * rem / den)

/-- R52 for a floating format: the magnitude code of ±m × 2^e (m not zero) on the grid continued
upward, and whether the value was off the grid. -/
def roundCode (f : Fmt) (mode : Mode) (neg : Bool) (m : Nat) (e : Int) : Nat × Bool :=
  let fb := fmtF f
  let qmin : Int := 1 - fmtBias f - fb
  let top : Int := (Nat.log2 m : Int) + e
  let u := max (top - fb) qmin
  let (k, rem, den) := shiftDiv m (u - e)
  let code := (u - qmin).toNat * 2 ^ fb + k
  (code + (if roundsAway mode neg (code % 2 = 1) rem den then 1 else 0), decide (rem ≠ 0))

/-- R45: whether the value, rounded as though the exponent had no lower limit, stays below the
smallest normal. -/
def isTiny (f : Fmt) (mode : Mode) (neg : Bool) (m : Nat) (e : Int) : Bool :=
  let fb := fmtF f
  let top : Int := (Nat.log2 m : Int) + e
  let emin : Int := 1 - fmtBias f
  if top ≥ emin then false
  else if top < emin - 1 then true
  else
    let u := top - fb
    let (k, rem, den) := shiftDiv m (u - e)
    let code : Int := (u - (emin - fb)) * ((2 ^ fb : Nat) : Int) + k
    !(roundsAway mode neg (code % 2 = 1) rem den && k + 1 = 2 ^ (fb + 1))

/-- R53: the code of an overflow. -/
def overflowCode (f : Fmt) (mode : Mode) (ovfInf neg : Bool) : Nat :=
  let big := fmtSigned f neg (fmtMaxCode f)
  let inf := fmtSigned f neg (fmtMaxCode f + 1)
  if !ovfInf then big
  else match mode with
    | .rne => inf
    | .rsr _ => inf
    | .rtz => big
    | .rto => big
    | .rup => if neg then big else inf
    | .rdn => if neg then inf else big

/-- R52 for an integer destination: the rounded integer and whether it is inexact. -/
def roundInt (mode : Mode) (neg : Bool) (m : Nat) (e : Int) : Int × Bool :=
  let (k, rem, den) := shiftDiv m (-e)
  let a := k + (if roundsAway mode neg (k % 2 = 1) rem den then 1 else 0)
  (if neg then -(a : Int) else (a : Int), decide (rem ≠ 0))

/-- R52 to R55: an exact value into a format, with its flags. `ovfInf` is the key `ovf`. -/
def roundTo (f : Fmt) (mode : Mode) (ovfInf : Bool) (v : Val) : Nat × Flags :=
  match f, v with
  | .int w uns, .fin neg m e =>
    let (i, inexact) := roundInt mode neg m e
    if intFits w uns i then (intWrap w i, flagIf inexact fNX)
    else (intWrap w (intClamp w uns i), fNV)
  | .int w uns, .inf neg =>
    (intWrap w (if neg then intMin w uns else intMax w uns), fNV)
  | .int _ _, .nan _ => (0, fNV)
  | f, .nan sig => (fmtNaN f, flagIf sig fNV)
  | .narrow k p true ext, .inf neg =>
    if neg then (0, fNX)
    else if ext then (fmtMaxCode (.narrow k p true ext) + 1, 0#7)
    else (fmtMaxCode (.narrow k p true ext), fOF ||| fNX)
  | f, .inf neg =>
    if fmtHasInf f then (fmtSigned f neg (fmtMaxCode f + 1), 0#7)
    else (fmtSigned f neg (fmtMaxCode f), fOF ||| fNX)
  | .ieee eb fb, .fin neg m e =>
    let f := Fmt.ieee eb fb
    if m = 0 then (fmtSigned f neg 0, 0#7)
    else
      let (code, inexact) := roundCode f mode neg m e
      if code > fmtMaxCode f then (overflowCode f mode ovfInf neg, fOF ||| fNX)
      else (fmtSigned f neg code,
        flagIf inexact fNX ||| flagIf (inexact && isTiny f mode neg m e) fUF)
  | .narrow k p uns ext, .fin neg m e =>
    let f := Fmt.narrow k p uns ext
    if m = 0 then (0, 0#7)
    else if uns && neg then (0, fNX)
    else
      let (code, inexact) := roundCode f mode neg m e
      if code > fmtMaxCode f then (overflowCode f mode ovfInf neg, fOF ||| fNX)
      else (if code = 0 then 0 else fmtSigned f neg code,
        flagIf inexact fNX ||| flagIf (inexact && isTiny f mode neg m e) fUF)

/-- R73, R55: an exact element value of a block in a wider format: a NaN element, which is quiet, sets no flag but toward
an integer. -/
def deliver (f : Fmt) (mode : Mode) (ovfInf : Bool) (v : Val) : Nat × Flags :=
  match v with
  | .nan _ => roundTo f mode ovfInf (.nan false)
  | _ => roundTo f mode ovfInf v

/-- R53: the default `ovf` of a destination. -/
def defaultOvf (f : Fmt) : Bool := fmtHasInf f

/-- A conversion between formats (R52 to R55, R302): an integer reached from an integer clamps and
sets SAT. -/
def convertCode (src dst : Fmt) (mode : Mode) (ovfInf : Bool) (c : Nat) : Nat × Flags :=
  match src, dst with
  | .int w u, .int w' u' => satResult w' u' true (intRead w u c)
  | _, _ => roundTo dst mode ovfInf (decodeFmt src c)

/-- A finite value as an integer multiple of 2^e0, where e0 does not exceed its exponent. -/
def valScaled (neg : Bool) (m : Nat) (e e0 : Int) : Int :=
  let x : Int := ((m * 2 ^ (e - e0).toNat : Nat) : Int)
  if neg then -x else x

def Val.isNan : Val → Bool
  | .nan _ => true
  | _ => false

def Val.isSnan : Val → Bool
  | .nan s => s
  | _ => false

def Val.isZero : Val → Bool
  | .fin _ m _ => m = 0
  | _ => false

def Val.neg : Val → Val
  | .nan s => .nan s
  | .inf n => .inf (!n)
  | .fin n m e => .fin (!n) m e

/-- R44, R45: the exact sum; a zero sum of operands of different sign takes −0 toward −∞ only. -/
def exactAdd (mode : Mode) (x y : Val) : Val × Flags :=
  match x, y with
  | .nan a, .nan b => (.nan false, flagIf (a || b) fNV)
  | .nan a, _ => (.nan false, flagIf a fNV)
  | _, .nan b => (.nan false, flagIf b fNV)
  | .inf a, .inf b => if a = b then (.inf a, 0#7) else (.nan false, fNV)
  | .inf a, .fin _ _ _ => (.inf a, 0#7)
  | .fin _ _ _, .inf b => (.inf b, 0#7)
  | .fin nx mx ex, .fin ny my ey =>
    let e0 := min ex ey
    let s := valScaled nx mx ex e0 + valScaled ny my ey e0
    if s = 0 then (.fin (if nx = ny then nx else mode = .rdn) 0 0, 0#7)
    else (.fin (decide (s < 0)) s.natAbs e0, 0#7)

/-- R44: the exact product. -/
def exactMul (x y : Val) : Val × Flags :=
  match x, y with
  | .nan a, .nan b => (.nan false, flagIf (a || b) fNV)
  | .nan a, _ => (.nan false, flagIf a fNV)
  | _, .nan b => (.nan false, flagIf b fNV)
  | .inf a, .inf b => (.inf (a != b), 0#7)
  | .inf a, .fin b m _ => if m = 0 then (.nan false, fNV) else (.inf (a != b), 0#7)
  | .fin a m _, .inf b => if m = 0 then (.nan false, fNV) else (.inf (a != b), 0#7)
  | .fin a m e, .fin b n g => (.fin (a != b) (m * n) (e + g), 0#7)

/-- R296: a sum rounded once. -/
def fAdd (f : Fmt) (mode : Mode) (ovfInf : Bool) (x y : Val) : Nat × Flags :=
  let (v, g) := exactAdd mode x y
  let (c, h) := roundTo f mode ovfInf v
  (c, g ||| h)

/-- R296: a product rounded once. -/
def fMul (f : Fmt) (mode : Mode) (ovfInf : Bool) (x y : Val) : Nat × Flags :=
  let (v, g) := exactMul x y
  let (c, h) := roundTo f mode ovfInf v
  (c, g ||| h)

/-- R296: x × y + z exact, rounded once; NV for 0 × ∞ even when z is a quiet NaN (R44). -/
def fFma (f : Fmt) (mode : Mode) (ovfInf : Bool) (x y z : Val) : Nat × Flags :=
  let (p, g) := exactMul x y
  let (v, h) := exactAdd mode p z
  let (c, i) := roundTo f mode ovfInf v
  (c, g ||| h ||| i)

/-- Three-way comparison of two values that are not NaN: −1, 0 or 1; the zeros compare equal. -/
def Val.cmp (x y : Val) : Int :=
  match x, y with
  | .inf a, .inf b => if a = b then 0 else if a then -1 else 1
  | .inf a, _ => if a then -1 else 1
  | _, .inf b => if b then 1 else -1
  | .fin nx mx ex, .fin ny my ey =>
    let e0 := min ex ey
    let d := valScaled nx mx ex e0 - valScaled ny my ey e0
    if d < 0 then -1 else if d = 0 then 0 else 1
  | _, _ => 0

/-- Whether x orders below y, with −0 below +0 (R44). -/
def Val.below (x y : Val) : Bool :=
  let c := x.cmp y
  if c < 0 then true
  else match x, y with
    | .fin nx mx _, .fin ny my _ => c = 0 && mx = 0 && my = 0 && nx && !ny
    | _, _ => false

/-- R44, R296: minimumNumber or maximumNumber of two codes; the result is an operand's code or the
default NaN, never rounded. -/
def fMinMax (f : Fmt) (isMax : Bool) (a b : Nat) : Nat × Flags :=
  let x := decodeFmt f a
  let y := decodeFmt f b
  let g := flagIf (x.isSnan || y.isSnan) fNV
  if x.isNan && y.isNan then (fmtNaN f, g)
  else if x.isNan then (b, g)
  else if y.isNan then (a, g)
  else if isMax then (if x.below y then b else a, g)
  else (if y.below x then b else a, g)

/-- R294: the six comparisons by fn, with the flag NV of R44. -/
def fCompare (fn : Nat) (x y : Val) : Bool × Flags :=
  let anyNan := x.isNan || y.isNan
  let anySnan := x.isSnan || y.isSnan
  let c := x.cmp y
  match fn with
  | 0 => (!anyNan && c = 0, flagIf anySnan fNV)
  | 1 => (anyNan || c ≠ 0, flagIf anySnan fNV)
  | 2 => (!anyNan && c < 0, flagIf anyNan fNV)
  | 3 => (!anyNan && c ≤ 0, flagIf anyNan fNV)
  | 4 => (!anyNan && 0 < c, flagIf anyNan fNV)
  | _ => (!anyNan && 0 ≤ c, flagIf anyNan fNV)

/-- A quotient with one bit below it that tells an inexact one from an exact one. -/
def stickyVal (neg : Bool) (q : Nat) (inexact : Bool) (e : Int) : Val :=
  if inexact then .fin neg (2 * q + 1) (e - 1) else .fin neg q e

/-- R56: the exact reciprocal (64 significant bits and a sticky bit). -/
def exactRcp (x : Val) : Val × Flags :=
  match x with
  | .nan s => (.nan false, flagIf s fNV)
  | .inf n => (.fin n 0 0, 0#7)
  | .fin n m e =>
    if m = 0 then (.inf n, fDZ)
    else
      let k := Nat.log2 m + 64
      (stickyVal n (2 ^ k / m) (2 ^ k % m ≠ 0) (-(k : Int) - e), 0#7)

/-- One descent of the integer square root from above, with fuel. -/
def isqrtGo : Nat → Nat → Nat → Nat
  | 0, _, x => x
  | f + 1, n, x =>
    let y := (x + n / x) / 2
    if y < x then isqrtGo f n y else x

/-- The largest natural number whose square does not exceed n. -/
def isqrt (n : Nat) : Nat := if n = 0 then 0 else isqrtGo (Nat.log2 n + 8) n (2 ^ (Nat.log2 n / 2 + 1))

/-- R56: the exact reciprocal square root (64 significant bits and a sticky bit). -/
def exactRsqrt (x : Val) : Val × Flags :=
  match x with
  | .nan s => (.nan false, flagIf s fNV)
  | .inf n => if n then (.nan false, fNV) else (.fin false 0 0, 0#7)
  | .fin n m0 e0 =>
    if m0 = 0 then (.inf n, fDZ)
    else if n then (.nan false, fNV)
    else
      let odd := e0 % 2 ≠ 0
      let m := if odd then 2 * m0 else m0
      let e := if odd then e0 - 1 else e0
      let k := Nat.log2 m + 64
      let s := isqrt (2 ^ (2 * k) / m)
      (stickyVal false s (s * s * m ≠ 2 ^ (2 * k)) (-(k : Int) - e / 2), 0#7)

/-- Fraction bits carried by the power of two (notes/assumptions/10.md). -/
def expBits : Nat := 192

/-- The product of 2^(2^−i) over the set bits i of a fraction of n bits, at expBits fraction bits:
r is 2^(2^−i) at the current i. -/
def exp2Frac : Nat → Nat → Nat → Nat → Nat
  | 0, _, _, acc => acc
  | n + 1, r, fr, acc =>
    let r' := isqrt (r * 2 ^ expBits)
    let acc' := if fr / 2 ^ n % 2 = 1 then acc * r' / 2 ^ expBits else acc
    exp2Frac n r' fr acc'

/-- R56: 2^x, exact for an integer x, else with a sticky bit. -/
def exactExp2 (x : Val) : Val × Flags :=
  match x with
  | .nan s => (.nan false, flagIf s fNV)
  | .inf n => if n then (.fin false 0 0, 0#7) else (.inf false, 0#7)
  | .fin n m e =>
    let top : Int := (Nat.log2 m : Int) + e
    if m = 0 then (.fin false 1 0, 0#7)
    else if top ≥ 12 then (.fin false 1 (if n then -3000 else 3000), 0#7)
    else if top < -80 then
      (if n then .fin false (2 ^ 200 - 1) (-200) else .fin false (2 ^ 200 + 1) (-200), 0#7)
    else
      let fb := (-e).toNat
      let i : Int := if e ≥ 0 then valScaled n m e 0 else (if n then -(m : Int) else m) / ((2 ^ fb : Nat) : Int)
      let fr : Nat := if e ≥ 0 then 0 else ((if n then -(m : Int) else m) % ((2 ^ fb : Nat) : Int)).toNat
      if fr = 0 then (.fin false 1 i, 0#7)
      else (stickyVal false (exp2Frac fb (2 * 2 ^ expBits) fr (2 ^ expBits)) true (i - expBits), 0#7)

/-- R56, R298: a correctly rounded function of one code, with `ovf=inf`. -/
def fUnary (f : Fmt) (mode : Mode) (g : Val → Val × Flags) (c : Nat) : Nat × Flags :=
  let (v, a) := g (decodeFmt f c)
  let (r, b) := roundTo f mode true v
  (r, a ||| b)

/-- The exponent of the largest power of two not above a nonzero value (R69, R76). -/
def floorLog2 (m : Nat) (e : Int) : Int := (Nat.log2 m : Int) + e

/-- A value times a power of two. -/
def Val.scale (v : Val) (k : Int) : Val :=
  match v with
  | .fin n m e => .fin n m (e + k)
  | v => v

end Sys2Proof.Machine
end

