-- ==== Sys2Proof/Machine/Carousel.lean ====
section
/-! DEFINITION. Carousel blocks (04_carousel_blocks.md): layout, header checks, element values,
codebook levels, the quantising selection rule, aligned integers and block products. -/

namespace Sys2Proof.Machine

/-- A codebook table of R69: width 0 (no table), 4 or 8, the levels by code, and the 24-bit
generation of R70. -/
structure Codebook where
  width : Nat
  levels : List Int
  gen : Nat
  deriving DecidableEq, Repr

def Codebook.none : Codebook := { width := 0, levels := [], gen := 0 }

/-- R62: bytes of a block of N codes of W bits. -/
def blockSize (w n : Nat) : Nat := n * w / 8 + 2

/-- R62: whole blocks in a 4 KiB frame. -/
def blocksPerFrame (w n : Nat) : Nat := 4096 / blockSize w n

/-- R64: whether an address is a block start. -/
def isBlockStart (w n a : Nat) : Bool :=
  let o := a % 4096
  o % blockSize w n = 0 && decide (o / blockSize w n < blocksPerFrame w n)

/-- The byte address of block i of a run that starts at the block start a (R62). -/
def blockAddr (w n a i : Nat) : Nat :=
  let per := blocksPerFrame w n
  let j := a % 4096 / blockSize w n + i
  (a / 4096 + j / per) * 4096 + j % per * blockSize w n

/-- R62: code k of a block's bytes. -/
def blockCode (w : Nat) (bs : List Byte) (k : Nat) : Nat :=
  if w = 8 then (bs.getD k 0#8).toNat
  else (bs.getD (k / 2) 0#8).toNat / 16 ^ (k % 2) % 16

/-- R62: the header of a block's bytes. -/
def blockHeader (w n : Nat) (bs : List Byte) : Nat := leToNat ((bs.drop (n * w / 8)).take 2)

/-- Two nibbles a byte, the even code low (R62). -/
def packNibbles : List Nat → List Byte
  | a :: b :: r => BitVec.ofNat 8 (a % 16 + 16 * (b % 16)) :: packNibbles r
  | [a] => [BitVec.ofNat 8 (a % 16)]
  | [] => []

/-- R62: the bytes of a block. -/
def blockBytes (w : Nat) (codes : List Nat) (h : Nat) : List Byte :=
  (if w = 8 then codes.map (BitVec.ofNat 8) else packNibbles codes) ++ natToLe h 2

/-- R65: the header fields. -/
def hdrSel (h : Nat) : Nat := h / 8192 % 8
def hdrSck (h : Nat) : Nat := h / 2048 % 4
def hdrAux (h : Nat) : Nat := h / 256 % 8
def hdrSexp (h : Nat) : Nat := h % 256

/-- R65: the check bits of a selector. -/
def sckOf (sel : Nat) : Nat :=
  let a := sel % 2
  let b := sel / 2 % 2
  let c := sel / 4 % 2
  (a + b + c) % 2 + 2 * ((b + c + 1) % 2)

/-- R65: a header from its fields. -/
def mkHeader (sel aux sexp : Nat) : Nat := sel * 8192 + sckOf sel * 2048 + aux % 8 * 256 + sexp % 256

/-- R64: the header of the zero block. -/
def zeroHeader : Nat := 0x107F

/-- R64: the zero block. -/
def zeroBlock (w n : Nat) : List Byte := blockBytes w (List.replicate n 0) zeroHeader

/-- R65, R66: the sign-only code, which decodes to NaN in every selector. -/
def nanCode (w : Nat) : Nat := 2 ^ (w - 1)

/-- R66: the reason code of the selector corruption fault, if any. -/
def headerFault (w h : Nat) (book : Nat → Codebook) : Option Nat :=
  let sel := hdrSel h
  if sel ≥ 5 then some 1
  else if hdrSck h ≠ sckOf sel then some 2
  else if sel ≠ 4 && hdrAux h ≠ 0 then some 3
  else if sel = 4 && (book (hdrAux h)).width = 0 then some 4
  else if sel = 4 && (book (hdrAux h)).width ≠ w then some 5
  else none

/-- R68: the float format of selectors 1 to 3. -/
def selFmt (w sel : Nat) : Fmt := if w = 8 then .narrow 8 (sel + 2) false false else .narrow 4 sel false false

/-- R69: the codes in the order of the levels, the NaN code left out. -/
def levelOrder (w : Nat) : List Nat :=
  (upTo (2 ^ w - 1)).map fun i => (2 ^ (w - 1) + 1 + i) % 2 ^ w

/-- The level of a code. -/
def Codebook.level (b : Codebook) (c : Nat) : Int := b.levels.getD c 0

/-- R69: the first code, in the order of the levels, whose level is not above its predecessor's. -/
def notIncreasing (lv : Nat → Int) : List Nat → Option Nat
  | a :: b :: r => if lv a < lv b then notIncreasing lv (b :: r) else some b
  | _ => none

/-- R69: the slot's emax. -/
def bookEmax (b : Codebook) : Int :=
  let lo := (b.level (2 ^ (b.width - 1) + 1)).natAbs
  let hi := (b.level (2 ^ (b.width - 1) - 1)).natAbs
  (Nat.log2 (max lo hi) : Int) - 15

/-- R68: the exponent of a selector's largest finite magnitude. -/
def selEmax (w sel : Nat) (b : Codebook) : Int :=
  match sel with
  | 0 => if w = 8 then 6 else 2
  | 1 => if w = 8 then 15 else 3
  | 2 => if w = 8 then 7 else 1
  | 3 => if w = 8 then 3 else 0
  | _ => bookEmax b

/-- R68: the value of a code before the block's scale. -/
def selValue (w sel : Nat) (b : Codebook) (c : Nat) : Val :=
  if c = nanCode w then .nan false
  else match sel with
    | 0 => decodeFmt (.int w false) c
    | 4 => .fin (decide (b.level c < 0)) (b.level c).natAbs (-15)
    | s => decodeFmt (selFmt w s) c

/-- R67, R68: the exact value of element k of a block whose header passed R66. -/
def blockValue (w h : Nat) (book : Nat → Codebook) (c : Nat) : Val :=
  if hdrSexp h = 255 then .nan false
  else (selValue w (hdrSel h) (book (hdrAux h)) c).scale ((hdrSexp h : Int) - 127)

/-- All element values of a block (R61, R68). -/
def blockValues (w n : Nat) (book : Nat → Codebook) (bs : List Byte) : List Val :=
  (upTo n).map fun k => blockValue w (blockHeader w n bs) book (blockCode w bs k)

/-- The difference of two finite values. -/
def finSub (x y : Val) : Int × Int :=
  match x, y with
  | .fin nx mx ex, .fin ny my ey =>
    let e0 := min ex ey
    (valScaled nx mx ex e0 - valScaled ny my ey e0, e0)
  | _, _ => (0, 0)

/-- R76, R79: the code of a value among the levels of a table, in a mode: lo and hi are the levels
around it (each with its code), beyond the ends the end level. Of two levels of one magnitude the lower counts as the
nearer to zero (DESIGN CHOICE, notes/assumptions/59.md). -/
def levelBetween (mode : Mode) (v : Val) (cl : Nat) (l : Int) (ch : Nat) (h : Int) : Nat :=
  let (dl, e1) := finSub v (.fin (decide (l < 0)) l.natAbs (-15))
  let (dh, e2) := finSub (.fin (decide (h < 0)) h.natAbs (-15)) v
  let e0 := min e1 e2
  let a := (dl * ((2 ^ (e1 - e0).toNat : Nat) : Int)).toNat
  let b := (dh * ((2 ^ (e2 - e0).toNat : Nat) : Int)).toNat
  if a = 0 then cl
  else if b = 0 then ch
  else
    let zeroward := if l.natAbs ≤ h.natAbs then cl else ch
    let other := if l.natAbs ≤ h.natAbs then ch else cl
    match mode with
    | .rne => if a < b then cl else if b < a then ch else if cl % 2 = 0 then cl else ch
    | .rtz => zeroward
    | .rup => ch
    | .rdn => cl
    | .rto => if zeroward % 2 = 0 then other else zeroward
    | .rsr z => if z < 2 ^ 32 * a / (a + b) then ch else cl

/-- R76: the code of the level that represents a value, over the codes in level order. -/
def encodeLevels (mode : Mode) (b : Codebook) (v : Val) : List Nat → Nat
  | [] => 0
  | [c] => c
  | c :: d :: r =>
    if (finSub v (.fin (decide (b.level c < 0)) (b.level c).natAbs (-15))).1 ≤ 0 then c
    else if (finSub v (.fin (decide (b.level d < 0)) (b.level d).natAbs (-15))).1 ≤ 0 then
      levelBetween mode v c (b.level c) d (b.level d)
    else encodeLevels mode b v (d :: r)

/-- R76: the code of one scaled input in a selector; R79 uses the other modes. An input whose nearest level is zero
takes code 0, as every value that rounds to zero does (DEDUCED, notes/assumptions/74.md). -/
def selEncode (w sel : Nat) (b : Codebook) (mode : Mode) (v : Val) : Nat :=
  match sel, v with
  | 0, .fin n m e =>
    let lim : Int := if w = 8 then 127 else 7
    let (i, _) := roundInt mode n m e
    intWrap w (if i < -lim then -lim else if lim < i then lim else i)
  | 4, .fin n m e =>
    let k := encodeLevels mode b (.fin n m e) (levelOrder w)
    if b.level k = 0 then 0 else k
  | s, v => (roundTo (selFmt w s) mode false v).1

/-- R76: whether the candidate overflows at exponent e, for one input of the largest magnitude. -/
def selOverflows (w sel : Nat) (b : Codebook) (v : Val) : Bool :=
  match sel, v with
  | 0, .fin n m e => decide ((roundInt .rne n m e).1.natAbs > (if w = 8 then 127 else 7))
  | 4, v =>
    let hi := b.level (2 ^ (w - 1) - 1)
    let lo := b.level (2 ^ (w - 1) + 1)
    decide ((finSub v (.fin (decide (hi < 0)) hi.natAbs (-15))).1 > 0) ||
      decide ((finSub v (.fin (decide (lo < 0)) lo.natAbs (-15))).1 < 0)
  | s, .fin n m e => m ≠ 0 && decide ((roundCode (selFmt w s) .rne n m e).1 > fmtMaxCode (selFmt w s))
  | _, _ => false

/-- The magnitude of a value. -/
def Val.abs : Val → Val
  | .fin _ m e => .fin false m e
  | .inf _ => .inf false
  | v => v

/-- The largest magnitude of a list of finite values. -/
def maxAbs : List Val → Val
  | [] => .fin false 0 0
  | v :: r => let m := maxAbs r; if m.cmp v.abs < 0 then v.abs else m

/-- R77: one truncated term of a candidate's error. -/
def errTerm (m : Int) (x d : Val) : Nat :=
  let (df, e) := finSub x d
  let sq := df.natAbs * df.natAbs
  let k := 2 * e + 62 - 2 * m
  if k ≥ 0 then sq * 2 ^ k.toNat else sq / 2 ^ (-k).toNat

/-- R77: the saturating error of a candidate. -/
def errSum (m : Int) : List Val → List Val → Nat → Nat
  | x :: xs, d :: ds, acc => errSum m xs ds (min (acc + errTerm m x d) (2 ^ 64 - 1))
  | _, _, acc => acc

/-- R76, R77: one candidate: its error, its scale exponent s and its codes, unless it is skipped. -/
def candidate (w sel : Nat) (b : Codebook) (xs : List Val) : Option (Nat × Int × List Nat) :=
  if sel = 4 && b.width ≠ w then none
  else
    let big := maxAbs xs
    let m := match big with
      | .fin _ mm e => floorLog2 mm e
      | _ => 0
    let e0 := m - selEmax w sel b
    let tooBig := xs.any fun x => x.abs.cmp big = 0 && selOverflows w sel b (x.scale (-e0))
    let e := if tooBig then e0 + 1 else e0
    if e + 127 > 254 then none
    else
      let s := max e (-127)
      let ks := xs.map fun x => selEncode w sel b .rne (x.scale (-s))
      let ds := ks.map fun k => (selValue w sel b k).scale s
      some (errSum m xs ds 0, s, ks)

/-- R78: the winning candidate among the selectors of a mask: its selector, scale and codes. -/
def bestCandidate (w mask : Nat) (b : Codebook) (xs : List Val) : List Nat → Option (Nat × Nat × Int × List Nat)
  | [] => none
  | sel :: r =>
    let rest := bestCandidate w mask b xs r
    if mask / 2 ^ sel % 2 = 1 then
      match candidate w sel b xs with
      | none => rest
      | some (err, s, ks) =>
        match rest with
        | none => some (err, sel, s, ks)
        | some (err', sel', s', ks') => if err ≤ err' then some (err, sel, s, ks) else some (err', sel', s', ks')
    else rest

/-- R75 to R79: N exact inputs into one block: its bytes and its flags. The mode and the random
words matter to a copy alone (R79). A re-encoding in another mode that passes the largest finite value of the selector
saturates and sets NX alone (DESIGN CHOICE: R79 names no flag, notes/assumptions/84.md). -/
def quantise (w n mask slot : Nat) (b : Codebook) (mode : Nat → Mode) (xs : List Val) : List Byte × Flags :=
  let nanBlock := blockBytes w (List.replicate n (nanCode w)) 0x10FF
  if xs.any Val.isNan then (nanBlock, 0#7)
  else if xs.any (fun v => match v with | .inf _ => true | _ => false) then (nanBlock, fQINF)
  else if xs.all Val.isZero then (zeroBlock w n, 0#7)
  else match bestCandidate w mask b xs [0, 1, 2, 3, 4] with
    | none => (nanBlock, fOF ||| fNX)
    | some (_, sel, s, ks) =>
      let ks' := if mode 0 = .rne then ks
        else (xs.zip (upTo n)).map fun p => selEncode w sel b (mode p.2) (p.1.scale (-s))
      let ds := ks'.map fun k => (selValue w sel b k).scale s
      let nx := (xs.zip ds).any fun p => (finSub p.1 p.2).1 ≠ 0
      (blockBytes w ks' (mkHeader sel (if sel = 4 then slot else 0) (s + 127).toNat), flagIf nx fNX)

/-- R81: bits of a selector's aligned integers. -/
def alignedWidth (w sel : Nat) : Nat := if sel = 0 then w else 12

/-- R81: the alignment exponent of a selector. -/
def alignedExp (w sel : Nat) : Int :=
  match sel with
  | 0 => 0
  | 4 => -11
  | s => selEmax w s Codebook.none - 10

/-- A block decoded for the matrix array (R81): whether it is NaN, the aligned width, the exponent
A_c + SEXP − 127 and the aligned integers. -/
structure AlignedBlock where
  isNan : Bool
  width : Nat
  exp : Int
  vals : List Int
  deriving DecidableEq, Repr

def AlignedBlock.zero : AlignedBlock := { isNan := false, width := 4, exp := 0, vals := [] }

/-- R81: the aligned integer of one code; the NaN code stores 0 (R319). -/
def alignedInt (w sel : Nat) (b : Codebook) (c : Nat) : Int :=
  if c = nanCode w then 0
  else match sel with
  | 0 => intRead w false c
  | 4 =>
    let l := b.level c
    let (i, _) := roundInt .rne (decide (l < 0)) l.natAbs (-4)
    if i < -2048 then -2048 else if 2047 < i then 2047 else i
  | s => match (selValue w s b c).scale (-(alignedExp w s)) with
    | .fin n m e => (roundInt .rne n m e).1
    | _ => 0

/-- R81: a block whose header passed R66, as aligned integers. -/
def alignBlock (w n : Nat) (book : Nat → Codebook) (bs : List Byte) : AlignedBlock :=
  let h := blockHeader w n bs
  let sel := hdrSel h
  let cs := (upTo n).map (blockCode w bs)
  { isNan := hdrSexp h = 255 || cs.any (fun c => c = nanCode w)
    width := alignedWidth w sel
    exp := alignedExp w sel + (hdrSexp h : Int) - 127
    vals := cs.map (alignedInt w sel (book (hdrAux h))) }

/-- The exact sum of products of two lists (R82). -/
def dotInt : List Int → List Int → Int
  | a :: as, b :: bs => a * b + dotInt as bs
  | _, _ => 0

/-- R82: one block product added into a binary32 accumulator, with the run's bit steps; the flag NV
is set when the A block is wider than the run. -/
def blockProduct (steps : Nat) (a b : AlignedBlock) (acc : Nat) : Nat × Flags :=
  if a.isNan || b.isNan then (fmtNaN fmtF32, 0#7)
  else if a.width > steps then (fmtNaN fmtF32, fNV)
  else
    let p := dotInt a.vals b.vals
    let (v, f1) := roundTo fmtF32 .rne true (.fin (decide (p < 0)) p.natAbs (a.exp + b.exp))
    let (r, f2) := fAdd fmtF32 .rne true (decodeFmt fmtF32 acc) (decodeFmt fmtF32 v)
    (r, f1 ||| f2)

end Sys2Proof.Machine
end

