-- ==== Sys2Proof/Machine/Keccak.lean ====
section
/-! DEFINITION. SHAKE256, which gives the random words of stochastic rounding (R54), the chunk hashes of the
prefix index (R183) and the measurements and key hash of boot (R196, R197). The rules name the function; its
construction is that of the public standard (notes/assumptions/11.md). The 1,600 bits of the sponge are one number
here, its first byte the lowest, so that absorbing bytes is one exclusive-or of the number they spell. -/

namespace Sys2Proof.Machine

/-- A 64-bit lane turned left by r places. -/
def laneTurn (v r : Nat) : Nat := v * 2 ^ r % 2 ^ 64 + v / 2 ^ (64 - r)

/-- For each place of the sponge, lane by lane, the lane that comes there in a round and how far it is turned. -/
def laneTravel : List (Nat × Nat) :=
  [(0, 0), (6, 44), (12, 43), (18, 21), (24, 14), (3, 28), (9, 20), (10, 3), (16, 45), (22, 61), (1, 1), (7, 6),
   (13, 25)] ++
  [(19, 8), (20, 18), (4, 27), (5, 36), (11, 10), (17, 15), (23, 56), (2, 62), (8, 55), (14, 39), (15, 41), (21, 2)]

/-- The rounds' constants, each as the seven bits that may be 1 in it: bit j stands for bit 2^j - 1. -/
def roundCodes : List Nat :=
  [1, 26, 94, 112, 31, 33, 121, 85, 14, 12, 53, 38] ++ [63, 79, 93, 83, 82, 72, 22, 102, 121, 88, 33, 116]

/-- A round's constant from its code. -/
def roundConstant (code : Nat) : Nat :=
  (upTo 7).foldl (fun v j => if nbit code j then v + 2 ^ (2 ^ j - 1) else v) 0

/-- The lanes of the sponge, and the sponge of lanes. -/
def spongeLanes (a : Nat) : List Nat := (upTo 25).map fun k => a / 2 ^ (64 * k) % 2 ^ 64

def spongeOf : List Nat → Nat
  | [] => 0
  | v :: l => v + 2 ^ 64 * spongeOf l

/-- Every lane takes up the parities of two neighbouring columns. -/
def mixColumns (l : List Nat) : List Nat :=
  let parity := (upTo 5).map fun k =>
    l.getD k 0 ^^^ l.getD (k + 5) 0 ^^^ l.getD (k + 10) 0 ^^^ l.getD (k + 15) 0 ^^^ l.getD (k + 20) 0
  (numbered l).map fun q => q.2 ^^^ parity.getD ((q.1 + 4) % 5) 0 ^^^ laneTurn (parity.getD ((q.1 + 1) % 5) 0) 1

/-- Every lane takes up the bits of the second lane after it in its row that the next one does not have. -/
def mixRows (l : List Nat) : List Nat :=
  (numbered l).map fun q =>
    let row := q.1 / 5 * 5
    let next := l.getD (row + (q.1 + 1) % 5) 0
    let after := l.getD (row + (q.1 + 2) % 5) 0
    q.2 ^^^ (after - (after &&& next))

/-- One round of the permutation. -/
def spongeRound (a code : Nat) : Nat :=
  let l := mixColumns (spongeLanes a)
  spongeOf (mixRows (laneTravel.map fun w => laneTurn (l.getD w.1 0) w.2)) ^^^ roundConstant code

/-- The sponge after a block of bytes, at most 136, and the permutation. -/
def absorb (a : Nat) (block : List Byte) : Nat := roundCodes.foldl spongeRound (a ^^^ leToNat block)

/-- The sponge after a message, 136 bytes at a time, with the padding of SHAKE in its last block; the first argument
bounds the blocks. -/
def absorbAll : Nat → Nat → List Byte → Nat
  | 0, a, _ => a
  | f + 1, a, m =>
    if 136 ≤ m.length then absorbAll f (absorb a (m.take 136)) (m.drop 136)
    else absorb (a ^^^ (31 * 256 ^ m.length) ^^^ 2 ^ 1087) m

/-- The first 8k bytes, k at most 17, of SHAKE256 of a message. -/
def shake256 (m : List Byte) (k : Nat) : List Byte := natToLe (absorbAll (m.length / 136 + 1) 0 m) (8 * k)

/-- R54: the random word of destination element i of a copy with this salt. -/
def rsrWord (salt i : Nat) : Nat :=
  leToNat (((shake256 (natToLe salt 8 ++ natToLe (i / 16) 8) 8).drop (4 * (i % 16))).take 4)

end Sys2Proof.Machine
end

