-- ==== Sys2Proof/Machine/State.lean ====
section
/-! DEFINITION. The state of the CML-9160 as plain data, and the state right after reset. Every field
names the rule of spec/ that gives it; the fields the spec does not give are the model's own:
`agenda`, `sched`, `cur`, `focus` and `free` (notes/assumptions/1.md and 4.md). Tables that are mostly
at their reset value are sparse (Machine/Map.lean). -/

namespace Sys2Proof.Machine

/-- The three privilege levels (R205, R340). -/
inductive Level where
  | u
  | k
  | h
  deriving DecidableEq, Repr

/-- Why a task does not issue. A held task keeps its pc at the instruction that holds. -/
inductive Hold where
  /-- no task: a free slot (R28), or a steward core that nothing has started (R196) -/
  | free
  | ready
  /-- the instruction waits for its own condition (R255, R261, R268, R29, R273, R274, R276, R279,
  R280, R247, R89, R37, R34) -/
  | wait (i : Instr)
  /-- a `waita` whose word a store has changed: it reads once more and goes on (R280) -/
  | changed (i : Instr)
  /-- a `waitc` whose counter has reached zero, with its CANC: it returns, whatever opens the handle again (R25,
  R27) -/
  | counted (i : Instr) (canc : Bool)
  /-- a fence, a release or a releasing atomic, arrival or send waits for earlier stores at a scope
  (R117): capped, the limit captured at issue and the tick of issue (R119) -/
  | fence (i : Instr) (scope : Nat) (capped : Bool) (limit since : Nat)
  /-- a release store has been issued and drains (R238) -/
  | strel (d : BitVec 5) (scope : Nat) (capped : Bool) (limit since : Nat)
  /-- a double trap on a sequencer (R344) -/
  | doubled
  /-- a steward core stopped by a double trap at H (R344) -/
  | stopped
  deriving DecidableEq, Repr

/-- A task: a slot of a region sequencer (R28, R223) or the task of a steward core (R271). -/
structure Task where
  hold : Hold
  level : Level
  pc : Word
  /-- s1 to s7 (R202) -/
  sregs : Map Word
  /-- the 56-register window ring, by absolute number modulo 56 (R223) -/
  ring : Map Word
  base : Nat
  low : Nat
  base0 : Nat
  /-- TSTAT.WSP, VA[56:3] (R224) -/
  wsp : BitVec 54
  sendst : BitVec 3
  capped : Bool
  /-- SQ_FFLAGS or ST_FFLAGS (R58, R59) -/
  fflags : Flags
  /-- TAGS and TAGC (R89) -/
  tags : Word
  tagc : Word
  /-- outstanding commands per tag (R89) -/
  counts : Map Nat
  /-- conversion flags of finished commands by tag, until the tag bit sets (R59) -/
  tagflags : Map Flags
  /-- SQ_OOR (R87) -/
  oor : Word
  /-- SQ_EFAULT and SQ_EFADDR (R345) -/
  efault : Word
  efaddr : Word
  /-- the K record (R341) -/
  kcause : Word
  kpc : Word
  kval : Word
  kscr : Word
  /-- the counter the task belongs to, its endpoint and its generation (R28) -/
  counter : Nat
  endpoint : Nat
  gen : Nat
  /-- the recorded pair of R278 and the scope of the arrival -/
  pair : Option (Nat × Nat × Nat)
  /-- failures since the last fence word (R117, R240) -/
  nfail : Nat
  refused : Bool
  deadlink : Bool
  deriving DecidableEq, Repr

/-- A slot or core without a task (R36, R223); its WSP is zero until a `spawn` sets it (R224; DESIGN CHOICE,
notes/assumptions/2.md). -/
def Task.zero : Task :=
  { hold := .free, level := .u, pc := 0, sregs := [], ring := [], base := 0, low := 0, base0 := 0,
    wsp := 0, sendst := 0, capped := false, fflags := 0, tags := -1, tagc := 0, counts := [],
    tagflags := [], oor := 0, efault := 0, efaddr := 0, kcause := 0, kpc := 0, kval := 0, kscr := 0, counter := 0,
    endpoint := 0, gen := 0, pair := none, nfail := 0, refused := false, deadlink := false }

/-- A steward core (R8, R271): its task, its H record (R341), ST_HVEC (R342), PT_CTX (R91), the
partition whose image it runs (R189) and the asynchronous causes pending for H (R343), by code. -/
structure Steward where
  task : Task
  hcause : Word
  hpc : Word
  hval : Word
  hscr : Word
  hvec : Word
  ctx : Word
  part : Nat
  pending : List (Nat × Word)
  deriving DecidableEq, Repr

def Steward.zero : Steward :=
  { task := Task.zero, hcause := 0, hpc := 0, hval := 0, hscr := 0, hvec := 0, ctx := 0, part := 0,
    pending := [] }

/-- One word of a stream edge (R141): 16 lanes, lane-valid bits, LAST. -/
structure SWord where
  data : BitVec 512
  valid : BitVec 16
  last : Bool
  deriving DecidableEq, Repr

/-- A word in a decoupling queue (R136): its bytes, its lane-valid bits or guard token (R310, R330),
the index and address it has in its loop once it has one (R328, R329), whether a requested word has
landed (R152), the carousel block it is (width and count, R61), and how many of the queue's 8 entries
of 512 bits it takes (R325). -/
structure QEntry where
  bytes : List Byte
  token : BitVec 16
  index : Nat
  addr : Option Nat
  landed : Bool
  block : Option (Nat × Nat)
  size : Nat
  /-- the tick of its push (R112), and whether its store stream has closed since, with the entry's range in the
  record (R104, R26) -/
  born : Nat
  closed : Bool
  deriving DecidableEq, Repr

def QEntry.zero : QEntry :=
  { bytes := [], token := 0, index := 0, addr := none, landed := false, block := none, size := 0, born := 0
    closed := false }

/-- A fault record of an address generator port (R347, R349). -/
structure AgFault where
  kind : Nat
  code : Nat
  word : Nat
  addr : Nat
  deriving DecidableEq, Repr

/-- One port of an address generator (R151, R327 to R329). -/
structure AgPort where
  /-- 0 off, 1 load, 2 store (R314) -/
  kind : Nat
  counters : Nat
  extents : List Nat
  strides : List Int
  lead : Nat
  rsm : Bool
  base : Nat
  /-- the loop (R329): its words, whether it runs, its finish key, and a loop that awaits its start
  token -/
  count : Nat
  running : Bool
  fin : Bool
  armed : Option (Nat × Bool)
  /-- words requested (load) or given addresses (store) in the loop, and words popped (load) -/
  next : Nat
  moved : Nat
  /-- for the next words of a load port that are due and not yet requested: the ticks at which they became due, which
  is their place in island-tick order (R112) -/
  asked : List Nat
  queue : List QEntry
  /-- dirty range of a store port (R104) -/
  dirty : Option (Nat × Nat)
  fault : Option AgFault
  /-- what was written for the next tick boundary (R349): 1 RESUME, 2 DISCARD -/
  act : Nat
  deriving DecidableEq, Repr

def AgPort.zero : AgPort :=
  { kind := 0, counters := 0, extents := [], strides := [], lead := 0, rsm := false, base := 0,
    count := 0, running := false, fin := false, armed := none, next := 0, moved := 0, asked := [], queue := [],
    dirty := none, fault := none, act := 0 }

/-- A matrix grant (R316, R317): bits of its runs, rows, columns, K blocks, part and status. The bank
layout follows from them. -/
structure Grant where
  width : Nat
  h : Nat
  ne : Nat
  kb : Nat
  part : Nat
  status : Nat
  deriving DecidableEq, Repr

/-- A matrix run (R320): armed until its start token, then running with its ticks from T0. -/
structure Run where
  k0 : Nat
  nk : Nat
  set : Nat
  mask : Nat
  port : Nat
  acc : Bool
  running : Bool
  clock : Nat
  deriving DecidableEq, Repr

/-- A result in flight in an element's pipeline latches (R122, R146). -/
inductive Effect where
  | v (r : Nat) (x : BitVec 512)
  | q (r : Nat) (x : BitVec 16)
  | elm (cells : List (Nat × Byte))
  | lps (cells : List (Nat × Byte))
  /-- flags of an op (R60) -/
  | flags (f : Flags)
  /-- accumulator update of one row (R320): the rounded products by column, and the fresh start -/
  | acc (row : Nat) (products : List Nat) (fresh : Bool)
  /-- a grant taking effect (R316) -/
  | grant (g : Option Grant)
  /-- an armed run (R320), and its start token (R312) -/
  | arm (r : Run)
  | runStart
  /-- a port configuration, a port base (R327), the start of a loop, a loop armed for its start token
  (R329), the start token of the armed loops (R312) -/
  | cfg (p : Nat) (a : AgPort)
  | base (p : Nat) (a : Nat)
  | loop (p n : Nat) (fin : Bool)
  | armLoop (p n : Nat) (fin : Bool)
  | agStart
  /-- a token reaching a latch of this element (R312) -/
  | token (latch : Nat)
  deriving DecidableEq, Repr

/-- An element (R136). The maps run over registers, bytes, banks and ports. -/
structure Element where
  v : Map (BitVec 512)
  q : Map (BitVec 16)
  /-- lane-private slices, lane × 512 + offset -/
  lps : Map Byte
  /-- element memory by offset (R84) -/
  elm : Map Byte
  /-- ELM bank tags that differ from the region's (R36, R37): partition and CID, or no context -/
  tags : Map (Option (Option (Nat × Nat)))
  ops : List Nat
  routes : List Nat
  regs : List Nat
  /-- the stream words latched at the six in ports (R138) -/
  latches : Map (Option SWord)
  /-- token latches: 1 to 6 from the neighbours, 7 the generator's finish, 8 the array's (R312) -/
  tokens : BitVec 9
  /-- results in flight with the counter advances left until they take effect -/
  flight : List (Nat × Effect)
  ag0 : AgPort
  ag1 : AgPort
  grant : Option Grant
  run : Option Run
  /-- K blocks absorbed per row in the latest run (R322) -/
  absorbed : Map Nat
  /-- the feed row buffer of the array: the A block of each of its 8 rows (R136, R154) -/
  feed : Map (Option QEntry)
  deriving DecidableEq, Repr

def Element.zero : Element :=
  { v := [], q := [], lps := [], elm := [], tags := [], ops := [], routes := [], regs := [],
    latches := [], tokens := 0, flight := [], ag0 := AgPort.zero, ag1 := AgPort.zero, grant := none,
    run := none, absorbed := [], feed := [] }

/-- Tick charges of R33. -/
structure Charges where
  busy : Nat
  idle : Nat
  late : Nat
  tsfull : Nat
  tsempty : Nat
  token : Nat
  stopped : Nat
  spill : Nat
  quiet : Nat
  deriving DecidableEq, Repr

def Charges.zero : Charges :=
  { busy := 0, idle := 0, late := 0, tsfull := 0, tsempty := 0, token := 0, stopped := 0, spill := 0,
    quiet := 0 }

/-- The stall causes of R33 in its order of charging. -/
inductive Stall where
  | late
  | tsfull
  | tsempty
  | token
  | stopped
  | spill
  | quiet
  deriving DecidableEq, Repr

/-- A timing island (R21, R22): its rectangle, ring lengths, counter, the unit it runs and the trips
left (R137), its flag word (R60), the cause of its last held tick, its watchdog count and whether the
STALL event of this hold was sent (R350), its charges for the unit and for the phase (R33), and a parity hit
under way (R383): 1 before the tick that it holds, 2 after it. -/
structure Island where
  row0 : Nat
  col0 : Nat
  nrow : Nat
  ncol : Nat
  lop : Nat
  lrt : Nat
  lra : Nat
  counter : Nat
  unit : Option Nat
  trips : Nat
  flags : Flags
  held : Option Stall
  watch : Nat
  stalled : Bool
  charges : Charges
  phase : Charges
  hit : Nat
  deriving DecidableEq, Repr

/-- A turnstile (R142): which edge it stands on, its entries oldest first, its token lane (R145), the
occupancies of both at the start of the tick, which set the lines, and for an edge that crosses
packages (R191, R194, R374) its edge number, the words of the send half with their sequence numbers,
the next sequence numbers and the words pushed and not reported popped. -/
structure Turnstile where
  capacity : Nat
  element : Nat
  port : Nat
  initial : Nat
  entries : List SWord
  tokens : Nat
  line : Nat
  tokenLine : Nat
  edge : Nat
  send : List SWord
  sent : Nat
  sendSeq : Nat
  recvSeq : Nat
  unreported : Nat
  /-- words on their way across regions of the package, each with the boundary at which it arrives (R142) -/
  crossing : List (Nat × SWord)
  deriving DecidableEq, Repr

/-- The records of an image (R253). -/
structure IslandRec where
  row0 : Nat
  col0 : Nat
  nrow : Nat
  ncol : Nat
  lop : Nat
  lrt : Nat
  lra : Nat
  stage : Nat
  inputs : Nat
  maskClass : Nat
  theta : Option Nat
  deriving DecidableEq, Repr

structure ElementRec where
  row : Nat
  col : Nat
  island : Nat
  ops : List Nat
  routes : List Nat
  regs : List Nat
  shape : Nat × Nat × Nat
  deriving DecidableEq, Repr

structure EdgeRec where
  consumer : Nat
  slot : Nat
  operand : Nat
  producer : Nat
  prodSlot : Nat
  distance : Nat
  deriving DecidableEq, Repr

structure TurnRec where
  number : Nat
  big : Bool
  port : Nat
  element : Nat
  initial : Nat
  edge : Nat
  deriving DecidableEq, Repr

structure PointRec where
  island : Nat
  slot : Nat
  mask : Nat
  deriving DecidableEq, Repr

/-- An image (R253): a configuration when kind is 0, a stage set when it is 1. -/
structure Image where
  kind : Nat
  islands : List IslandRec
  elements : List ElementRec
  edges : List EdgeRec
  turns : List TurnRec
  points : List PointRec
  consts : List Nat
  deriving DecidableEq, Repr

def Image.empty : Image :=
  { kind := 0, islands := [], elements := [], edges := [], turns := [], points := [], consts := [] }

/-- Where the completion of an engine command goes (R29): a slot, an entry of the retirement tracker,
or nowhere when its task ended under a cancellation (R26). -/
inductive Owner where
  | slot (n : Nat)
  | tracker (n : Nat)
  | none
  deriving DecidableEq, Repr

/-- A queued engine command (R247): its instruction, operand list as read at issue (R246), owner, tag,
counter, the descriptor bytes it read at issue (R260, R262), and the writes left to a `tevict` that has begun
(R267): addresses and bytes. -/
structure Command where
  instr : Instr
  list : List Word
  owner : Owner
  tag : Nat
  counter : Nat
  desc : List Byte
  rest : Option (List (Nat × List Byte))
  deriving DecidableEq, Repr

/-- A retirement-tracker entry (R29): the counter of the ended task and the partition it ran in. -/
structure Tracker where
  counter : Nat
  slot : Nat
  deriving DecidableEq, Repr

/-- A message in a receive queue (R31, R276): the slot it is for, three payload words and the sender
word. -/
structure Message where
  slot : Nat
  payload : List Word
  sender : Word
  deriving DecidableEq, Repr

/-- A region (R6): its sequencer, engines, pipe, elements, islands and turnstiles. -/
structure Region where
  part : Nat
  /-- PT_CTX in force and pending (R91) -/
  ctx : Word
  ctxNext : Option Word
  /-- phase handle, and the next phase of a token under way with its job (R273) -/
  phase : Nat
  token : Option (Nat × Nat)
  costsel : Word
  busymap : Word
  busypos : BitVec 32
  dirtylog : Word
  dirtypos : BitVec 32
  cbslot : BitVec 3
  tokcnt : BitVec 32
  pfxcoll : BitVec 32
  evep : BitVec 12
  stallwd : BitVec 32
  oor : Word
  oorloc : BitVec 32
  fflSel : BitVec 8
  agSel : BitVec 8
  /-- current codebooks by slot (R71) -/
  books : Map Codebook
  /-- enabled, spare, suspect and awaiting-retirement elements (R8, R383, R385, R387) -/
  enabled : List Nat
  spares : List Nat
  suspect : List Nat
  retiring : List Nat
  /-- Of these, the elements that a second parity hit retires (R383, R387). -/
  lasting : List Nat
  pending : Option Image
  resident : Image
  islands : Map (Option Island)
  turnstiles : Map (Option Turnstile)
  elements : Map Element
  tasks : Map Task
  queue : List Message
  trackers : Map (Option Tracker)
  copyq : List Command
  mergeq : List Command
  pipeq : List Command
  /-- bound stage sets by handle (R176) and the three stage elements (R156) -/
  sets : Map (Option Image)
  stages : Map Element
  /-- the save area of a saved region (R34), the clock stopped for pre-emption, and a save deferred to
  pre-emption points with its start tick (R40) -/
  saved : Option Nat
  frozen : Bool
  deferred : Option Nat
  /-- the tag of every bank that has none of its own (R34, R36), and the slot whose turn of the sequencer
  comes next (R30) -/
  tagBase : Option (Nat × Nat)
  nextSlot : Nat
  deriving DecidableEq, Repr

/-- R8, R136: the elements enabled at shipment (notes/assumptions/7.md). -/
def shippedEnabled : List Nat := upTo 250

/-- R8: the six spares (notes/assumptions/7.md). -/
def shippedSpares : List Nat := [250, 251, 252, 253, 254, 255]

/-- A region in the reset state of R36. -/
def Region.zero : Region :=
  { part := 0, ctx := 0, ctxNext := none, phase := 0, token := none, costsel := 0, busymap := 0,
    busypos := 0, dirtylog := 0, dirtypos := 0, cbslot := 0, tokcnt := 0, pfxcoll := 0, evep := 0,
    stallwd := 0, oor := 0, oorloc := 0, fflSel := 0, agSel := 0, books := [],
    enabled := shippedEnabled, spares := shippedSpares, suspect := [], retiring := [], lasting := [],
    pending := none, resident := Image.empty, islands := [], turnstiles := [], elements := [],
    tasks := [], queue := [], trackers := [], copyq := [], mergeq := [], pipeq := [], sets := [],
    stages := [], saved := none, frozen := false, deferred := none, tagBase := none, nextSlot := 0 }

/-- A partition (R189) and its policy registers (R16, R119, R208, R342). -/
structure Partition where
  cap : BitVec 3
  fenceto : BitVec 32
  ppwait : BitVec 32
  ctrbase : Word
  epbase : Word
  hmbx : Word
  grantva : Word
  kvec : Word
  kctx : Word
  /-- the host port that presents it (R185), bus mastering (R366), function-level reset (R190) -/
  hostPort : Nat
  busMaster : Bool
  flr : Bool
  /-- status page STATE and reason (R190) -/
  state : Nat
  reason : Nat
  /-- the image loaded for the partition, and its measurement (R197) -/
  image : List Byte
  measure : List Byte
  /-- pending codebooks by slot (R70) -/
  books : Map Codebook
  /-- bound barrier handles: chiplet and entry (R277) -/
  barriers : Map (Option (Nat × Nat))
  /-- MSI-X vectors whose message is pending (R188) -/
  vectors : BitVec 3
  deriving DecidableEq, Repr

def Partition.zero : Partition :=
  { cap := 7, fenceto := 0, ppwait := 0, ctrbase := 0, epbase := 0, hmbx := 0, grantva := 0,
    kvec := 0, kctx := 0, hostPort := 0, busMaster := true, flr := false, state := 0, reason := 0,
    image := [], measure := [], books := [], barriers := [], vectors := 0 }

/-- A slot's traffic on a Lanika wire (R191): edge, sequence number, the entry if it carries one, the
token-lane bit, whether it is a re-send, the tick at which it enters the receive half, and the lane that corrupts
it, if one does (R390). -/
structure WireWord where
  edge : Nat
  seq : Nat
  word : Option SWord
  token : Bool
  resent : Bool
  due : Nat
  fails : Option Nat
  deriving DecidableEq, Repr

/-- A word that failed its check at the receiver (R390): its edge and sequence number, whether the sender
has gone back to it, and whether its re-sending failed too. -/
structure Nak where
  edge : Nat
  seq : Nat
  told : Bool
  lasting : Bool
  deriving DecidableEq, Repr

/-- A Lanika port (R191 to R194, R390, R391). -/
structure Port where
  bad : Bool
  pend : Bool
  en : Bool
  mapBase : BitVec 35
  /-- the slot map in use, as the port read it at the boundary where it took it (R208), or every slot idle -/
  active : Option (Map Nat)
  hop : BitVec 8
  /-- lanes retired (of 34) and spares left (R390) -/
  retired : List Nat
  spares : Nat
  dead : Bool
  /-- whether the frame under way has lost alignment, and how many in a row have (R391) -/
  skewed : Bool
  misaligned : Nat
  wire : List WireWord
  naks : List Nak
  /-- a lane that the receiver has named, and one whose notice the sender has received and whose traffic it moves on
  the next tick (R390) -/
  notice : Option Nat
  moving : Option Nat
  deriving DecidableEq, Repr

def Port.zero : Port :=
  { bad := false, pend := false, en := false, mapBase := 0, active := none, hop := 0, retired := [],
    spares := 2, dead := false, skewed := false, misaligned := 0, wire := [], naks := [], notice := none, moving := none }

/-- A barrier entry (R277, R278): count, arrivals, generation. -/
structure Barrier where
  count : Nat
  arrivals : Nat
  gen : Nat
  deriving DecidableEq, Repr

/-- A cached translation (R100): partition, CID (or any, for a global entry), first virtual page
number, page count, physical page number, the leaf and its level and address, and the D bits held. -/
structure Tlb where
  part : Nat
  cid : Option Nat
  vpn : Nat
  pages : Nat
  pfn : Nat
  leaf : Word
  level : Nat
  leafAddr : Nat
  dirty : List Nat
  deriving DecidableEq, Repr

/-- A line of an instruction cache (R88): the partition it was fetched for, its virtual and physical address, and
its 64 bytes as they were when it was fetched. -/
structure ILine where
  part : Nat
  va : Nat
  pa : Nat
  bytes : List Byte
  deriving DecidableEq, Repr

/-- A walk-cache entry (R100): partition, CID, the level of the pointer entry, the prefix, the PFN. -/
structure WalkEntry where
  part : Nat
  cid : Nat
  level : Nat
  vpre : Nat
  pfn : Nat
  deriving DecidableEq, Repr

/-- Who issued a pending store (R117, R366): a core's task, or the tracker entry of an ended task. -/
inductive Issuer where
  | core (c : CoreId)
  | tracker (region n : Nat)
  | none
  deriving DecidableEq, Repr

/-- A store that has left its core and is not yet at its home (R111): its bytes, those that later writes have not
superseded, and the address of its home; its issuer and the coordinate of the agent that issued it, the partition,
the scope at which it has performed, whether its page is strongly ordered (R368), the scope that orders it there
(R115), and whether its page is unordered and no fence has settled its place (R116), with the agents that have read
it. -/
structure PStore where
  cells : List (Nat × Byte)
  addr : Nat
  issuer : Issuer
  agent : Nat
  part : Nat
  reached : Nat
  strong : Bool
  scope : Nat
  unordered : Bool
  readers : List Nat
  deriving DecidableEq, Repr

/-- Boot progress (R196). -/
inductive Boot where
  | rom
  | up
  | recovery
  deriving DecidableEq, Repr

/-- HEALTH (R384) and the hidden counts behind the health area (R384, R385). -/
structure Health where
  hbase : BitVec 36
  retired : Nat
  rtbusy : Bool
  /-- the tick at which RTBUSY was set (R391) -/
  rtsince : Nat
  sparelow : Bool
  degraded : Bool
  crit : Bool
  ialarm : Bool
  talarm : Bool
  replace : Bool
  /-- corrected and transient counts by class, and retirement counts by class (R385) -/
  corrected : Map Nat
  transient : Map Nat
  classes : Map Nat
  /-- class 2 counts by chiplet (R395) -/
  chipCorrected : Map Nat
  chipTransient : Map Nat
  /-- the tick of the last retirement, and the retirements of that tick in the order of their records (R392): class,
  bits [63:8] of the record's first word in place, address -/
  lastTick : Nat
  onTick : List (Nat × Nat × Nat)
  deriving DecidableEq, Repr

def Health.zero : Health :=
  { hbase := 0, retired := 0, rtbusy := false, rtsince := 0, sparelow := false, degraded := false, crit := false,
    ialarm := false, talarm := false, replace := false, corrected := [], transient := [],
    classes := [], chipCorrected := [], chipTransient := [], lastTick := 0, onTick := [] }

/-- A save area (R34, R35): its address, the region, partition and context that `rsave` saved there, whether no
`rrest` has restored it since, the counters cancelled since (R39), what did not fit into a record of it, by the
record's offset, the number of the save, which stands in the area, and the bank save area of the context that its header
named (R38; notes/assumptions/31.md). -/
structure Saved where
  area : Nat
  region : Nat
  part : Nat
  ctx : Word
  live : Bool
  cancelled : List Nat
  beyond : Map (List Byte)
  serial : Word
  bank : Option Nat
  deriving DecidableEq, Repr

/-- An ELM bank that the hypervisor keeps for a context whose save area names no bank save area (R37, R38): region,
partition, CID, element, bank, its bytes and the offsets of its poisoned units. -/
structure Kept where
  region : Nat
  part : Nat
  cid : Nat
  elem : Nat
  bank : Nat
  bytes : List Byte
  bad : List Nat
  deriving DecidableEq, Repr

/-- The boot flash (R196): the hypervisor image with the public key, the security version and the signature of its
header. -/
structure Flash where
  key : List Byte
  version : Nat
  image : List Byte
  signature : List Byte
  deriving DecidableEq, Repr

/-- The fuses (R196): the key hash and the counter of security versions. -/
structure Fuses where
  keyHash : List Byte
  counter : Nat
  deriving DecidableEq, Repr

/-- An empty flash, and fuses that accept its key and version (notes/assumptions/65.md). -/
def Flash.blank : Flash := { key := [], version := 0, image := [], signature := [] }
def Fuses.blank : Fuses := { keyHash := shake256 Flash.blank.key 4, counter := 0 }

/-- What comes from outside the package, or from its hypervisor by means the spec does not give
(notes/assumptions/66.md). -/
inductive Input where
  /-- R186: the host reads n bytes at an offset of a partition's BAR -/
  | hostRead (part offset n : Nat)
  /-- R185: the hypervisor presents a partition on a host port -/
  | present (part port : Nat)
  /-- R189: the hypervisor gives a steward core to the image of a partition -/
  | shareCore (chiplet part : Nat)
  /-- R36: the hypervisor gives a region to a partition that has no save area for it -/
  | grantRegion (region part : Nat)
  /-- R358: an error appears in a protection unit: 1 transient, 2 lasting, 3 one that its code corrects -/
  | upset (unit kind : Nat)
  /-- R197: the hypervisor measures the image it loads for a partition that is Off -/
  | measure (part : Nat) (image : List Byte)
  /-- R191, R194: another package sends a word slot to a port -/
  | farWord (port : Nat) (w : WireWord)
  /-- R191, R194: control flits of another package: the edge's next sequence number expected there, and how many
  more of its words have been popped -/
  | farFlits (port edge expected popped : Nat)
  /-- R390: control flits of another package: a negative acknowledgement, and a lane it names -/
  | farNak (port edge seq : Nat)
  | farNotice (port lane : Nat)
  /-- R390: a lane corrupts the word at an index of a wire -/
  | corrupt (port index lane : Nat)
  /-- R391: the frame under way loses alignment -/
  | misalign (port : Nat)
  deriving DecidableEq, Repr

/-- A move of the machine: which agent acts next (notes/assumptions/1.md). -/
inductive Turn where
  /-- one instruction of a control core -/
  | core (c : CoreId)
  /-- one event -/
  | event (i : Instr)
  /-- one op word issued by an element (region, 16 × row + column) -/
  | op (region elem : Nat)
  /-- one tick of the fabric clock -/
  | tick
  /-- something from outside -/
  | input (x : Input)
  deriving DecidableEq, Repr

/-- The whole machine. -/
structure State where
  /-- the model's own: the next movers, oldest first; the count of turns taken; the core and the
  element that the current turn moves; the counter of free values -/
  agenda : List Turn
  sched : Nat
  cur : CoreId
  focus : Nat × Nat
  free : Nat
  /-- package number (R9) -/
  pkg : BitVec 6
  /-- package tick count (R394) -/
  tick : Nat
  boot : Boot
  /-- bytes at their home (R85) and stores on their way (R111) -/
  mem : Map Byte
  stores : List PStore
  /-- poisoned units (R359), units whose next read finds an error: 1 uncorrectable and
  transient, 2 uncorrectable and lasting (R382), 3 one bit, corrected (R358) -/
  poison : Map Bool
  bad : Map Nat
  /-- ways of an L1 or L2 disabled, by the line that failed (R389), DRAM units whose row waits for its remap
  and the spare rows used by bank (R388), units of host lines written back poisoned (R358) -/
  waysOff : List Nat
  rowWork : List Nat
  spareRows : Map Nat
  epSent : List Nat
  /-- packages without a live route (R367), ranges of other packages with the partition that owns their frames
  there, if one does (R366) -/
  deadPkgs : List Nat
  refusing : List (Nat × Nat × Option Nat)
  frametab : Word
  health : Health
  /-- a snapshot trigger under way: boundary T and source (R394), and the latched dump -/
  snapAt : Option (Nat × Nat)
  dump : Option (List (Nat × Byte))
  parts : Map Partition
  stews : Map Steward
  regions : Map Region
  ports : Map Port
  /-- barrier units: chiplet × 1,024 + entry (R277) -/
  barriers : Map (Option Barrier)
  /-- TLBs by agent and walk caches by walker (R100) -/
  tlbs : Map (List Tlb)
  walks : Map (List WalkEntry)
  /-- frames whose scrub is under way (R108) -/
  scrubs : List Nat
  /-- banks on which an access waits: region, element, bank (R37) -/
  spills : List (Nat × Nat × Nat)
  /-- the save areas that `rsave` has written (R35), and the banks kept without an area (R37) -/
  saves : List Saved
  kept : List Kept
  /-- MSI-X messages sent: virtual function and vector (R188) -/
  sent : List (Nat × Nat)
  /-- mailbox pages that may hold messages, by 4,096 × partition + endpoint (R32) -/
  boxes : Map Bool
  /-- lines of the instruction caches (R88), by the key of their core's walker -/
  icaches : Map (List ILine)
  /-- boot flash and fuses (R196), what host reads returned (R186): virtual function, offset and bytes -/
  flash : Flash
  fuses : Fuses
  hostReads : List (Nat × Nat × List Byte)
  /-- general traffic of the Lanika ports waits here: requests received (R366), with their answers -/
  answers : List (Nat × Option (List Byte))
  deriving DecidableEq, Repr

/-- The machine's stops. No instruction of this part ends in one: every failure the spec describes is
a next state (a trap, a record, a hold). -/
inductive Fault where
  /-- raised by no meaning; safe, since no run reaches it -/
  | unreachable
  deriving DecidableEq, Repr

/-- What the model gives no meaning. -/
inductive Refusal where
  /-- raised by an arm of exec without a meaning; safe: the run stops -/
  | notModelled (mnemonic : String)
  deriving DecidableEq, Repr

/-- The machine right after reset: the ROM is about to verify the hypervisor image (R196), every
region is in the reset state of R36, and every register holds its reset value (notes/assumptions/2.md
for those the spec gives none). -/
def State.reset : State :=
  { agenda := [.event (.powerOnBoot true)], sched := 0, cur := .stew 0, focus := (0, 0), free := 0,
    pkg := 0, tick := 0, boot := .rom, mem := [], stores := [], poison := [], bad := [],
    waysOff := [], rowWork := [], spareRows := [], epSent := [], boxes := [], icaches := [],
    flash := Flash.blank, fuses := Fuses.blank, hostReads := [],
    deadPkgs := [], refusing := [], frametab := 0, health := Health.zero, snapAt := none,
    dump := none, parts := [], stews := [], regions := [], ports := [], barriers := [], tlbs := [],
    walks := [], scrubs := [], spills := [], saves := [], kept := [], sent := [], answers := [] }

end Sys2Proof.Machine
end

