-- ==== Sys2Proof/Machine/Base.lean ====
section
/-! DEFINITION. Reading and writing the parts of State: partitions, cores, regions, tasks, registers;
where an agent stands (R6 to R10, R338); scopes (R12, R17). -/

namespace Sys2Proof.Machine

/-- The answer of a meaning that completes. -/
abbrev Out := Host.Outcome State Fault Refusal

def Level.num : Level → Nat
  | .u => 0
  | .k => 1
  | .h => 2

def Level.ofNum : Nat → Level
  | 0 => .u
  | 1 => .k
  | _ => .h

/-! ### Parts of the state -/

def State.part (s : State) (p : Nat) : Partition := mapGet Partition.zero s.parts p
def State.setPart (s : State) (p : Nat) (x : Partition) : State :=
  { s with parts := mapSet Partition.zero s.parts p x }

def State.stew (s : State) (c : Nat) : Steward := mapGet Steward.zero s.stews c
def State.setStew (s : State) (c : Nat) (x : Steward) : State :=
  { s with stews := mapSet Steward.zero s.stews c x }

def State.region (s : State) (r : Nat) : Region := mapGet Region.zero s.regions r
def State.setRegion (s : State) (r : Nat) (x : Region) : State :=
  { s with regions := mapSet Region.zero s.regions r x }

def State.port (s : State) (p : Nat) : Port := mapGet Port.zero s.ports p
def State.setPort (s : State) (p : Nat) (x : Port) : State :=
  { s with ports := mapSet Port.zero s.ports p x }

def Region.task (r : Region) (n : Nat) : Task := mapGet Task.zero r.tasks n
def Region.setTask (r : Region) (n : Nat) (t : Task) : Region :=
  { r with tasks := mapSet Task.zero r.tasks n t }

def Region.element (r : Region) (e : Nat) : Element := mapGet Element.zero r.elements e
def Region.setElement (r : Region) (e : Nat) (x : Element) : Region :=
  { r with elements := mapSet Element.zero r.elements e x }

def Region.island (r : Region) (i : Nat) : Option Island := mapGet none r.islands i
def Region.setIsland (r : Region) (i : Nat) (x : Option Island) : Region :=
  { r with islands := mapSet none r.islands i x }

def Region.turn (r : Region) (n : Nat) : Option Turnstile := mapGet none r.turnstiles n
def Region.setTurn (r : Region) (n : Nat) (x : Option Turnstile) : Region :=
  { r with turnstiles := mapSet none r.turnstiles n x }

/-- The task of a control core. -/
def State.task (s : State) : CoreId → Task
  | .seq r n => (s.region r).task n
  | .stew c => (s.stew c).task

def State.setTask (s : State) (c : CoreId) (t : Task) : State :=
  match c with
  | .seq r n => s.setRegion r ((s.region r).setTask n t)
  | .stew x => s.setStew x { s.stew x with task := t }

/-- The task whose instruction this turn executes. -/
def State.me (s : State) : Task := s.task s.cur
def State.setMe (s : State) (t : Task) : State := s.setTask s.cur t

/-- The element on which this turn's op acts. -/
def State.elem (s : State) : Element := (s.region s.focus.1).element s.focus.2
def State.setElem (s : State) (x : Element) : State :=
  s.setRegion s.focus.1 ((s.region s.focus.1).setElement s.focus.2 x)

def CoreId.isSteward : CoreId → Bool
  | .seq _ _ => false
  | .stew _ => true

/-- The partition a core works for (R189). -/
def State.partOf (s : State) : CoreId → Nat
  | .seq r _ => (s.region r).part
  | .stew c => (s.stew c).part

/-- A fresh free value: the next number of the free sequence (notes/assumptions/4.md). -/
def State.takeFree (s : State) : Nat × State := (Config.freeNat s.free, { s with free := s.free + 1 })

/-! ### Registers -/

/-- R202, R223: the value of a 5-bit register code. -/
def Task.get (t : Task) (r : BitVec 5) : Word :=
  let n := r.toNat
  if n = 0 then 0
  else if n < 8 then mapGet 0 t.sregs n
  else mapGet 0 t.ring ((t.base + (n - 8)) % 56)

/-- R202, R223: a write of a register; s0 discards it. -/
def Task.set (t : Task) (r : BitVec 5) (v : Word) : Task :=
  let n := r.toNat
  if n = 0 then t
  else if n < 8 then { t with sregs := mapSet 0 t.sregs n v }
  else { t with ring := mapSet 0 t.ring ((t.base + (n - 8)) % 56) v }

/-- The register of the current task. -/
def State.reg (s : State) (r : BitVec 5) : Word := s.me.get r

/-- A write of a register of the current task. -/
def State.setReg (s : State) (r : BitVec 5) (v : Word) : State := s.setMe (s.me.set r v)

/-- The registers of an SE list: n + 1 registers from code a (R201, R246). -/
def Task.listFrom (t : Task) (a : BitVec 5) (n : Nat) : List Word :=
  (upTo (n + 1)).map fun i => t.get (BitVec.ofNat 5 (a.toNat + i))

/-- The pc of the current task past an instruction of n bytes (R200, R203). -/
def State.advance (s : State) (n : Nat) : State :=
  s.setMe { s.me with pc := s.me.pc + BitVec.ofNat 64 n }

/-- The pc of the current task set by a branch (R230). -/
def State.goto (s : State) (pc : Word) : State := s.setMe { s.me with pc := pc }

/-- R59: flags of an instruction ORed into the task's word. -/
def State.orFlags (s : State) (f : Flags) : State := s.setMe { s.me with fflags := s.me.fflags ||| f }

/-- An instruction of n bytes that writes one register and the flags, and goes on. -/
def State.retire (s : State) (n : Nat) (d : BitVec 5) (v : Word) (f : Flags) : State :=
  s.setMe { (s.me.set d v) with pc := s.me.pc + BitVec.ofNat 64 n, fflags := s.me.fflags ||| f }

/-- The held task releases: it is ready again. -/
def State.ready (s : State) (c : CoreId) : State := s.setTask c { s.task c with hold := .ready }

/-- The current task holds at its instruction. -/
def State.holdMe (s : State) (h : Hold) : State := s.setMe { s.me with hold := h }

/-! ### Places (R6 to R10, R338) -/

/-- R338: chiplet, layer and quarter of a region number. -/
def regionChiplet (r : Nat) : Nat := r / 16
def regionLayer (r : Nat) : Nat := r / 4 % 4
def regionRow (r : Nat) : Nat := 16 * (r % 4 / 2)
def regionCol (r : Nat) : Nat := 16 * (r % 2)

/-- Where an element's stream port leads within the package, across regions, layers and chiplets (R7,
R8); none where it leads off the grid. -/
def farEnd (r e p : Nat) : Option (Nat × Nat) :=
  let row := 32 * (2 * (r / 64 / 5) + r / 16 % 4 / 2) + 16 * (r % 4 / 2) + e / 16
  let col := 32 * (2 * (r / 64 % 5) + r / 16 % 2) + 16 * (r % 2) + e % 16
  let at_ (row col : Nat) : Nat × Nat :=
    let gr := row / 32
    let gc := col / 32
    (64 * (5 * (gr / 2) + gc / 2) + 16 * (2 * (gr % 2) + gc % 2) + 4 * regionLayer r + 2 * (row % 32 / 16) +
      col % 32 / 16, 16 * (row % 16) + col % 16)
  match p with
  | 1 => if row = 0 then none else some (at_ (row - 1) col)
  | 2 => if col = 319 then none else some (at_ row (col + 1))
  | 3 => if row = 127 then none else some (at_ (row + 1) col)
  | 4 => if col = 0 then none else some (at_ row (col - 1))
  | 5 => if regionLayer r = 3 then none else some (r + 4, e)
  | 6 => if regionLayer r = 0 then none else some (r - 4, e)
  | _ => none

/-- R9: an agent coordinate from its fields. -/
def coord (pkg field chip layer row col lg kind idx : Nat) : Nat :=
  pkg % 64 * 2 ^ 26 + field % 16 * 2 ^ 22 + chip % 4 * 2 ^ 20 + layer % 4 * 2 ^ 18 + row % 32 * 2 ^ 13 +
    col % 32 * 2 ^ 8 + lg % 4 * 2 ^ 6 + kind % 16 * 4 + idx % 4

/-- R10: an agent of a region: sequencer 3, copy 4, merge 5, attention 6. -/
def regionCoord (s : State) (r kind : Nat) : Nat :=
  let c := regionChiplet r
  coord s.pkg.toNat (c / 4) (c % 4) (regionLayer r) (regionRow r) (regionCol r) 0 kind 0

/-- R10: an element (kind 1) or its address generator (kind 2); e is 16 × row + column. -/
def elemCoord (s : State) (r e kind : Nat) : Nat :=
  let c := regionChiplet r
  coord s.pkg.toNat (c / 4) (c % 4) (regionLayer r) (regionRow r + e / 16) (regionCol r + e % 16) 0 kind 0

/-- R10: an agent of a chiplet base: steward core 7, Lanika port 8, host port 9. -/
def chipCoord (s : State) (c kind idx : Nat) : Nat := coord s.pkg.toNat (c / 4) (c % 4) 0 0 0 0 kind idx

/-- R9: the register AGENT of a core. -/
def State.agent (s : State) : CoreId → Nat
  | .seq r _ => regionCoord s r 3
  | .stew c => chipCoord s c 7 0

/-- R10: a coordinate is malformed when its KIND or its FIELD is 10 to 15. -/
def coordMalformed (a : Nat) : Bool := decide (nbits a 5 2 ≥ 10) || decide (nbits a 25 22 ≥ 10)

/-- R10: the level of a kind, as a scope code. -/
def coordLevel (a : Nat) : Nat :=
  match nbits a 5 2 with
  | 0 => 0
  | 1 => 1
  | 2 => 1
  | 3 => 2
  | 4 => 2
  | 5 => 2
  | 6 => 2
  | _ => 3

/-- R12: the lowest enclosing scope of two coordinates. -/
def lca (a b : Nat) : Nat :=
  if coordMalformed a || coordMalformed b then 7
  else if nbits a 31 26 ≠ nbits b 31 26 then 6
  else if nbits a 25 22 ≠ nbits b 25 22 then 5
  else if nbits a 21 20 ≠ nbits b 21 20 then 4
  else if coordLevel a ≥ 3 || coordLevel b ≥ 3 then 3
  else if nbits a 19 18 ≠ nbits b 19 18 then 3
  else if coordLevel a ≥ 2 || coordLevel b ≥ 2 then 2
  else if nbits a 17 13 ≠ nbits b 17 13 || nbits a 12 8 ≠ nbits b 12 8 then 2
  else if coordLevel a ≥ 1 || coordLevel b ≥ 1 then 1
  else if nbits a 7 6 ≠ nbits b 7 6 then 1
  else 0

/-- R17: a scope capped by a partition's PT_SCOPE_MAX, and whether the cap changed it. -/
def capScope (s : State) (part scope : Nat) : Nat × Bool :=
  let cap := (s.part part).cap.toNat
  if scope > cap then (cap, true) else (scope, false)

/-- R10, R239: the scope of a core's own level, below which a fence waits for no store. -/
def coreLevel : CoreId → Nat
  | .seq _ _ => 2
  | .stew _ => 3

/-- R338: the chiplet at a row and column of the grid of 4 × 10. -/
def gridChiplet (row col : Nat) : Nat := 4 * (5 * (row / 2) + col / 2) + 2 * (row % 2) + col % 2

/-- R8: the chiplet under which DRAM stack k has its controller. -/
def stackChiplet (k : Nat) : Nat :=
  gridChiplet (if k < 4 then 0 else 3) (match k % 4 with
    | 0 => 1
    | 1 => 3
    | 2 => 6
    | _ => 8)

/-- R8: the chiplets on the perimeter of the grid, in the order of their numbers. -/
def perimeter : List Nat :=
  (upTo 40).filter fun c => ((upTo 10).any fun k => c = gridChiplet 0 k || c = gridChiplet 3 k) ||
    (upTo 4).any fun k => c = gridChiplet k 0 || c = gridChiplet k 9

/-- R8: the chiplet that holds Lanika port p: the perimeter's chiplets in ascending order
(DESIGN CHOICE, notes/assumptions/7.md). -/
def portChiplet (p : Nat) : Nat := perimeter.getD p 0

/-- R8: the chiplet whose base holds a host port. -/
def hostChiplet (h : Nat) : Nat := if h = 0 then gridChiplet 1 0 else gridChiplet 2 9

/-- R10, R20: the coordinates of the Lanika ports and of the host ports. -/
def lanikaCoord (s : State) (p : Nat) : Nat := chipCoord s (portChiplet p) 8 0
def hostCoord (s : State) (h : Nat) : Nat := chipCoord s (hostChiplet h) 9 h

/-- R205: 64-bit status word of a code and a value (R245). -/
def statusWord (code value : Nat) : Word := BitVec.ofNat 64 (code % 256 + value % 2 ^ 32 * 2 ^ 32)

/-! ### Status codes (R245) -/

def stOK : Nat := 0
def stBUSY : Nat := 1
def stOVF : Nat := 2
def stALREADY : Nat := 3
def stLEVEL : Nat := 4
def stBADHANDLE : Nat := 5
def stNOSLOT : Nat := 6
def stCANCELLED : Nat := 7
def stNOTINC : Nat := 8
def stBADDESC : Nat := 9
def stNOTFREE : Nat := 10
def stNOTMAPPED : Nat := 11
def stNOISLAND : Nat := 12
def stNOTGRANTED : Nat := 13
def stNOTFULL : Nat := 14
def stNOTSEALED : Nat := 15
def stHIT : Nat := 16
def stMISS : Nat := 17
def stNOARRIVE : Nat := 18
def stBADADDR : Nat := 19
def stMISMATCH : Nat := 20
def stFULL : Nat := 21
def stSPILL : Nat := 22
def stDEADDEST : Nat := 23

/-- The current instruction writes its status word and goes on. -/
def State.status (s : State) (d : BitVec 5) (code value : Nat) : State :=
  s.retire 4 d (statusWord code value) 0

end Sys2Proof.Machine
end

