-- ==== Sys2Proof/Machine/Space.lean ====
section
/-! DEFINITION. The physical space (R85), its bytes, the stores on their way to it (R111), poison
(R358, R359), HEALTH and its area (R384 to R386), MSI-X (R188) and the snapshot trigger (R394). -/

namespace Sys2Proof.Machine

/-- Bytes of the frame table (R208). -/
def frametabSize : Nat := 0x08140000

/-- What a byte of memory that nothing has written reads as: Held in the frame table that
ST_FRAMETAB names at reset (R105, R208), zero elsewhere (notes/assumptions/5.md). -/
def memDefault (a : Nat) : Byte := if a < frametabSize then 0xC0#8 else 0#8

def memGet (m : Map Byte) (a : Nat) : Byte := mapGet (memDefault a) m a

def memSet (m : Map Byte) (a : Nat) (b : Byte) : Map Byte :=
  if b = memDefault a then mapErase m a else mapPut m a b

/-- The canonical form of memory from address lo on. -/
def memWfFrom : Nat → Map Byte → Bool
  | _, [] => true
  | lo, (k, v) :: m => decide (lo ≤ k) && decide (v ≠ memDefault k) && memWfFrom (k + 1) m

/-- The canonical form of memory: addresses strictly rising, no entry equal to what an unlisted
address reads as. -/
def Memory.wf (m : Map Byte) : Bool := memWfFrom 0 m

/-- What stands at a physical address (R85). -/
inductive Place where
  | dram (stack : Nat)
  | csp (chiplet : Nat)
  | cspHole
  | remote (pkg : Nat)
  | host (port : Nat)
  | hole
  deriving DecidableEq, Repr

/-- R85: the place of a physical address; the first argument is the package's own number. -/
def placeOf (own pa : Nat) : Place :=
  let localPlace (a : Nat) : Place :=
    if a < 0x8000000000 then
      if a % 0x1000000000 ≤ 0xB2D05DFFF then .dram (a / 0x1000000000) else .hole
    else if 0x10000000000 ≤ a && a < 0x10000000000 + 40 * 0x8000000 then
      let o := a - 0x10000000000
      if o % 0x8000000 < 0x4000000 then .csp (o / 0x8000000) else .cspHole
    else .hole
  if pa < 0x1000000000000 then localPlace pa
  else if pa < 0x1000000000000 + 64 * 0x20000000000 then
    let o := pa - 0x1000000000000
    let p := o / 0x20000000000
    match localPlace (o % 0x20000000000) with
    | .hole => .hole
    | .cspHole => .cspHole
    | x => if p = own then x else .remote p
  else if 0x4000000000000 ≤ pa && pa < 0x6000000000000 then .host 0
  else if 0x6000000000000 ≤ pa && pa < 0x8000000000000 then .host 1
  else .hole

/-- R85: a remote-window address of the package itself is served as the matching local address. -/
def canonPa (own pa : Nat) : Nat :=
  if 0x1000000000000 ≤ pa && pa < 0x1000000000000 + 64 * 0x20000000000 &&
    (pa - 0x1000000000000) / 0x20000000000 = own
  then (pa - 0x1000000000000) % 0x20000000000 else pa

def State.place (s : State) (pa : Nat) : Place := placeOf s.pkg.toNat pa

/-- R111: the narrowest scope whose point of coherence is the home of an address. -/
def homeScope (s : State) (pa : Nat) : Nat :=
  match s.place pa with
  | .remote _ => 6
  | .host _ => 7
  | _ => 4

/-- R111: a store that has performed at a scope has performed at every scope with the same point of
coherence: the widest such scope. The chiplet L2 serves LAYER and CHIPLET; the home of a local line
serves RETICLE and all wider scopes; the egress queue of a host or remote line serves every scope up
to its home. -/
def sameScope (home scope : Nat) : Nat :=
  if scope ≥ home then 7
  else if scope ≥ 4 then home - 1
  else if scope ≥ 2 then 3
  else scope

/-- R115, R217: the scope that `auto` names for an agent and a physical address. -/
def autoScope (s : State) (agent pa : Nat) : Nat :=
  match s.place pa with
  | .dram k => lca agent (chipCoord s (stackChiplet k) 7 0)
  | .csp c => lca agent (chipCoord s c 7 0)
  | .cspHole =>
    let a := canonPa s.pkg.toNat pa
    if a < 0x1000000000000 then lca agent (chipCoord s ((a - 0x10000000000) / 0x8000000) 7 0) else 6
  | .remote _ => 6
  | .host _ => 7
  | .hole => 5

/-- R367: no live route to the home of an address. -/
def routeDead (s : State) (pa : Nat) : Bool :=
  match s.place pa with
  | .remote p => s.deadPkgs.contains p
  | _ => false

/-- R366: whether an entry of `refusing` makes the home refuse a partition at an address: a range of
another package, and the partition that owns its frames there, if one does. -/
def refusedBy (part pa : Nat) (x : Nat × Nat × Option Nat) : Bool :=
  decide (x.1 ≤ pa) && decide (pa < x.1 + x.2.1) && x.2.2 ≠ some part

/-- R366: the home of an address refuses a partition's access. -/
def homeRefuses (s : State) (part pa : Nat) : Bool :=
  match s.place pa with
  | .host p =>
    let q := s.part part
    q.hostPort ≠ p || !q.busMaster || q.flr
  | .remote _ => s.refusing.any (refusedBy part pa)
  | _ => false

/-- R358: the first address and the size of the protection unit that holds an address. -/
def unitOf (s : State) (pa : Nat) : Nat × Nat :=
  match s.place pa with
  | .dram _ => (pa / 64 * 64, 64)
  | _ => (pa / 8 * 8, 8)

/-- A key for the protection units of element memory, above every physical address. -/
def elmUnit (r e off : Nat) : Nat := 2 ^ 60 + ((r * 256 + e) * 2 ^ 20 + off / 8 * 8)

/-- A key for the protection units of lane-private slices; the offset is lane × 512 + byte. -/
def lpsUnit (r e off : Nat) : Nat := elmUnit r e 0 + (2 ^ 19 + off / 8 * 8)

/-- A key for the protection units of the slices of the stage elements of a region's pipe (R156). -/
def stageUnit (r n off : Nat) : Nat := lpsUnit r n (0x2000 + off)

/-- R358: a key for the 8-byte unit of an L1 or an L2 that holds a byte: for the mark that travels with the unit, and for
an error in an L2; DRAM lines and host lines have such units besides the unit of their home. -/
def cacheUnit (pa : Nat) : Nat := 2 ^ 56 + pa / 8 * 8

/-- R88, R358: a key for an error of a unit in an L1 or an instruction cache, which R395 counts with no chiplet. -/
def coreUnit (pa : Nat) : Nat := 2 ^ 57 + pa / 8 * 8

/-- The bytes that a key of a protection unit of the physical space stands for: first address and size. -/
def unitRange (s : State) (u : Nat) : Option (Nat × Nat) :=
  if u < 2 ^ 56 then some (u, (unitOf s u).2)
  else if u < 2 ^ 57 then some (u - 2 ^ 56, 8)
  else none

/-! ### Bytes -/

/-- The byte of a cell list at an address. -/
def findCell : List (Nat × Byte) → Nat → Option Byte
  | [], _ => none
  | (k, v) :: r, a => if k = a then some v else findCell r a

/-- The newest pending byte at an address. -/
def pendingByte : List PStore → Nat → Option Byte
  | [], _ => none
  | p :: r, a => match findCell p.cells a with
    | some v => some v
    | none => pendingByte r a

/-- The value of a byte: the newest store to it, whether or not it has performed
(notes/assumptions/8.md). -/
def State.byte (s : State) (a : Nat) : Byte :=
  match pendingByte s.stores (canonPa s.pkg.toNat a) with
  | some v => v
  | none => memGet s.mem (canonPa s.pkg.toNat a)

/-- The values of n consecutive bytes. -/
def State.bytes (s : State) (a : Nat) : Nat → List Byte
  | 0 => []
  | n + 1 => s.byte a :: s.bytes (a + 1) n

/-- Whether a pending store writes one of n bytes. -/
def PStore.touches (p : PStore) (a n : Nat) : Bool := p.cells.any fun c => decide (a ≤ c.1) && decide (c.1 < a + n)

/-- Whether a pending store writes every byte of a range. -/
def PStore.covers (p : PStore) (r : Nat × Nat) : Bool := (upTo r.2).all fun k => (findCell p.cells (r.1 + k)).isSome

/-- R116: a store to an unordered page that has not performed outside its own core: its place among the stores to its
bytes is open. -/
def PStore.floating (p : PStore) : Bool := p.unordered && decide (p.reached < 3)

/-- Whether two pending stores write one byte both. -/
def PStore.meets (p q : PStore) : Bool := p.cells.any fun c => q.touches c.1 1

/-- A pending store without its cells in a range. -/
def dropCells (a n : Nat) (p : PStore) : PStore :=
  { p with cells := p.cells.filter fun c => !(decide (a ≤ c.1) && decide (c.1 < a + n)) }

/-- A write of consecutive bytes of the home. -/
def memSetN (m : Map Byte) : Nat → List Byte → Map Byte
  | _, [] => m
  | a, b :: bs => memSetN (memSet m a b) (a + 1) bs

/-- Whether n bytes from a cover a range whole. -/
def coversRange (a n : Nat) (r : Nat × Nat) : Bool := decide (a ≤ r.1) && decide (r.1 + r.2 ≤ a + n)

/-- The poison marks but for those of the units whose ranges are covered. -/
def unpoison (s : State) (covered : Nat × Nat → Bool) : Map Bool :=
  s.poison.filter fun u => match unitRange s u.1 with
    | none => true
    | some r => !covered r

/-- R361: a write clears the poison of the units it covers whole. -/
def clearPoison (s : State) (a n : Nat) : Map Bool := unpoison s (coversRange a n)

/-- A write that performs at its home in this step: it is newer than every pending store to its
bytes. -/
def State.write (s : State) (a0 : Nat) (bs : List Byte) : State :=
  let a := canonPa s.pkg.toNat a0
  { s with mem := memSetN s.mem a bs
           stores := s.stores.map (dropCells a bs.length)
           poison := clearPoison s a bs.length }

/-- R361: whether a write of n bytes would be merged into a poisoned unit. -/
def mergesPoison (s : State) (a n : Nat) : Bool :=
  s.poison.any fun u => match unitRange s u.1 with
    | none => false
    | some r => decide (r.1 < a + n) && decide (a < r.1 + r.2) && !coversRange a n r

/-- A 64-bit little-endian word of memory. -/
def State.word (s : State) (a : Nat) : Nat := leToNat (s.bytes a 8)

def State.writeWord (s : State) (a v : Nat) : State := s.write a (natToLe v 8)

/-! ### HEALTH, MSI-X and snapshots -/

/-- R188: one MSI-X vector of a virtual function, unless its message is still pending; while boot has not finished,
or in recovery, no virtual function is there to send it (R196). -/
def sendVector (s : State) (p v : Nat) : State :=
  let q := s.part p
  if s.boot ≠ .up || q.vectors.getLsbD v then s
  else { s.setPart p { q with vectors := q.vectors ||| BitVec.ofNat 3 (2 ^ v) } with
         sent := s.sent ++ [(p, v)] }

/-- R186: the address of the frames behind the BAR of a partition. A base of 0 names none (DESIGN CHOICE: R208 gives it
no meaning of its own, notes/assumptions/42.md). -/
def boxBase (s : State) (p : Nat) : Option Nat :=
  let b := nbits (s.part p).hmbx.toNat 51 14 * 2 ^ 14
  if b = 0 then none else some (canonPa s.pkg.toNat b)

/-- R188: MSI-X vectors that what performed between two states sends: vector 0 for a change of the
device-to-host write index behind a BAR, vector 2 for a change of STATE. -/
def pageVectors (s t : State) : State :=
  (upTo 64).foldl (fun u p => match boxBase s p with
    | none => u
    | some b =>
      let at_ (x : State) (a n : Nat) : Nat := leToNat ((upTo n).map fun i => memGet x.mem (a + i))
      let u1 := if at_ s (b + 0x1000) 8 = at_ t (b + 0x1000) 8 then u else sendVector u p 0
      if at_ s (b + 0x2000) 4 = at_ t (b + 0x2000) 4 then u1 else sendVector u1 p 2) t

/-- A vector to every virtual function. -/
def sendVectorAll (s : State) (v : Nat) : State := (upTo 64).foldl (fun t p => sendVector t p v) s

/-- R384: bits [15:0] of HEALTH. -/
def healthLow (x : Health) : Nat :=
  (if x.replace then 1 else 0) + (if x.talarm then 2 else 0) + (if x.ialarm then 4 else 0) +
    (if x.crit then 8 else 0) + (if x.degraded then 16 else 0) + (if x.sparelow then 32 else 0) +
    (if x.rtbusy then 64 else 0) + x.retired % 256 * 256

/-- R384: a change of HEALTH's bits [15:0] sends vector 1 to every virtual function. -/
def State.setHealth (s : State) (h : Health) : State :=
  let t := { s with health := h }
  if healthLow s.health = healthLow h then t else sendVectorAll t 1

/-- The first address of the health area, or none while HBASE is 0 (R384, R385). -/
def healthBase (s : State) : Option Nat :=
  if s.health.hbase = 0 then none else some (s.health.hbase.toNat * 2 ^ 16)

/-- R393: the offset in the snapshot control words of an address, 0 to 0x27, if it lies there. -/
def controlOff (s : State) (a : Nat) : Option Nat :=
  match healthBase s with
  | none => none
  | some b => if b + 0x100 ≤ a && a < b + 0x128 then some (a - (b + 0x100)) else none

/-- R3, R393: byte `off` of the snapshot control words after a store of `new` over `old`: ARM, SRC, MISSED,
MATCH and DUMP take it, a 1 clears DONE, and every other bit ignores it. -/
def controlByte (off : Nat) (old new : Byte) : Byte :=
  if off = 0 || off = 2 || off = 3 || (8 ≤ off && off < 16) || (19 ≤ off && off < 24) then new
  else if off = 7 then old &&& ~~~ (new &&& 0x80#8)
  else if off = 18 then new &&& 0xF0#8
  else old

/-- R393: byte `o` of the control words, at an address, after stores to it, newest first, over the byte of its home:
each takes effect on what the older ones left. -/
def controlFold (a o : Nat) (home : Byte) : List PStore → Byte
  | [] => home
  | p :: r => match findCell p.cells a with
    | none => controlFold a o home r
    | some v => controlByte o (controlFold a o home r) v

/-- What a store of a byte, and the stores before it, leave at its home (R393). -/
def storedByte (s : State) (before : List PStore) (a : Nat) (b : Byte) : Byte :=
  match controlOff s a with
  | none => b
  | some o => controlByte o (controlFold a o (memGet s.mem a) before) b

/-- R393: a byte as a read of an agent sees it: TICKNOW is the tick count, the other snapshot control bits
what the stores to them leave, oldest first. -/
def State.busByte (s : State) (a : Nat) : Byte :=
  let c := canonPa s.pkg.toNat a
  match controlOff s c with
  | none => s.byte a
  | some o =>
    if 24 ≤ o && o < 32 then BitVec.ofNat 8 (s.tick / 256 ^ (o - 24))
    else controlFold c o (memGet s.mem c) s.stores

/-- Consecutive bytes as a read of an agent sees them. -/
def State.busBytes (s : State) (a : Nat) : Nat → List Byte
  | 0 => []
  | n + 1 => s.busByte a :: s.busBytes (a + 1) n

/-- What a store of consecutive bytes leaves at their homes. -/
def storedBytes (s : State) : Nat → List Byte → List Byte
  | _, [] => []
  | a, b :: bs => storedByte s s.stores a b :: storedBytes s (a + 1) bs

/-- A store of an agent that performs at its home in this step. -/
def State.busWrite (s : State) (a : Nat) (bs : List Byte) : State :=
  pageVectors s (s.write a (storedBytes s (canonPa s.pkg.toNat a) bs))

/-- A write into the health area, if there is one. -/
def healthWrite (s : State) (off : Nat) (bs : List Byte) : State :=
  match healthBase s with
  | none => s
  | some b => s.write (b + off) bs

/-- Bits of a map of elements, as 32 bytes (R385). -/
def elementMap (l : List Nat) : List Byte := natToLe (l.foldl (fun n e => n + 2 ^ (e % 256)) 0) 32

/-- R8, R385: the enable map and the spare map of a region, written where the health area holds them. -/
def writeMaps (s : State) (r : Nat) : State :=
  healthWrite s (0x1000 + 64 * r) (elementMap (s.region r).enabled ++ elementMap (s.region r).spares)

/-- R384, R385, R393: the counts kept while there was no health area, and the maps of every region, written into a new
one, whose snapshot control words take their reset values (R3; DESIGN CHOICE for the time at which they take them,
notes/assumptions/77.md). -/
def publishHealth (s : State) : State :=
  let h := s.health
  let s1 := (upTo 5).foldl (fun t c => healthWrite t (16 * c)
    (natToLe (mapGet 0 h.corrected c) 8 ++ natToLe (mapGet 0 h.transient c) 8)) s
  let s2 := (upTo 6).foldl (fun t k => healthWrite t (0x80 + 8 * k) (natToLe (mapGet 0 h.classes (k + 1)) 4)) s1
  (upTo 640).foldl writeMaps (healthWrite s2 0x100 (List.replicate 40 0))

def satInc (n lim : Nat) : Nat := if n ≥ lim then n else n + 1

/-- The chiplet of the scratchpad that holds an address. -/
def cspChiplet (s : State) (pa : Nat) : Option Nat :=
  match s.place pa with
  | .csp c => some c
  | _ => none

/-- R8: the chiplet at which the home of an address in the package stands. -/
def homeChiplet (s : State) (pa : Nat) : Nat :=
  match s.place pa with
  | .dram k => stackChiplet k
  | .csp c => c
  | .host h => hostChiplet h
  | _ => 0

def bump (m : Map Nat) (k : Nat) : Map Nat := mapSet 0 m k (satInc (mapGet 0 m k) (2 ^ 64 - 1))

/-- A count of one chiplet, if there is one (R395). -/
def bumpChip (m : Map Nat) : Option Nat → Map Nat
  | none => m
  | some c => bump m c

/-- R382, R385: one transient error of class c counted, at a chiplet's caches or scratchpad or elsewhere. -/
def countTransient (s : State) (c : Nat) (chip : Option Nat) : State :=
  let h := s.health
  let m := bump h.transient c
  healthWrite { s with health := { h with transient := m, chipTransient := bumpChip h.chipTransient chip } }
    (8 + 16 * c) (natToLe (mapGet 0 m c) 8)

/-- R358, R385: one corrected error of class c counted. -/
def countCorrected (s : State) (c : Nat) (chip : Option Nat) : State :=
  let h := s.health
  let m := bump h.corrected c
  healthWrite { s with health := { h with corrected := m, chipCorrected := bumpChip h.chipCorrected chip } }
    (16 * c) (natToLe (mapGet 0 m c) 8)

/-- R393: the control word of the snapshot unit at offset 0x100, as a read sees it. -/
def controlWord (s : State) (b : Nat) : Nat := leToNat (s.busBytes (b + 0x100) 8)

/-- R394: a snapshot source fires: it latches eight ticks later if its enable is set and ARM is 1, and
counts as missed if ARM is 0. -/
def fireSnapshot (s : State) (source : Nat) : State :=
  match healthBase s with
  | none => s
  | some b =>
    let w := controlWord s b
    if !nbit w source then s
    else if nbit w 0 then
      match s.snapAt with
      | none => { s with snapAt := some (s.tick + 8, source) }
      | some (t, x) => if t = s.tick + 8 && source < x then { s with snapAt := some (t, source) } else s
    else s.writeWord (b + 0x100) (setBits w 31 16 (satInc (nbits w 31 16) 0xFFFF))

/-- R392: the place of a retirement among those of its tick: class, then region, row, column and bank, port and lane,
address. -/
def retireKey (x : Nat × Nat × Nat) : Nat :=
  let at_ (hi lo : Nat) : Nat := nbits x.2.1 hi lo
  (((((((x.1 * 2 ^ 10 + at_ 17 8) * 2 ^ 4 + at_ 21 18) * 2 ^ 4 + at_ 25 22) * 2 ^ 7 + at_ 32 26) * 2 ^ 5 + at_ 37 33) *
    2 ^ 6 + at_ 43 38)) * 2 ^ 64 + x.2.2

def insertRetired (x : Nat × Nat × Nat) : List (Nat × Nat × Nat) → List (Nat × Nat × Nat)
  | [] => [x]
  | y :: l => if retireKey x < retireKey y then x :: y :: l else y :: insertRetired x l

/-- R386: the records of a tick written from the n-th on. -/
def writeRecords (b tick : Nat) : Nat → List (Nat × Nat × Nat) → State → State
  | _, [], s => s
  | n, (cls, info, addr) :: l, s => writeRecords b tick (n + 1) l
      (s.write (b + 0x200 + n % 112 * 32) (natToLe (cls + info) 8 ++ natToLe 0 8 ++ natToLe addr 8 ++ natToLe tick 8))

/-- R386, R392: a retirement: its log record, in its place among those of its tick, its class count and threshold,
RETIRED and DEGRADED, and the snapshot source 4. `info` holds the record's bits [63:8] fields already in place. -/
def retireRecord (s : State) (cls info addr : Nat) (noSpareLeft : Bool) : State :=
  let old := if s.health.lastTick = s.tick then s.health.onTick else []
  let all := insertRetired (cls, info, addr) old
  let s1 := match healthBase s with
    | none => s
    | some b =>
      let n := s.word (b + 0x1F8)
      (writeRecords b s.tick (n - old.length) all s).writeWord (b + 0x1F8) ((n + 1) % 2 ^ 64)
  let h := { s1.health with lastTick := s.tick, onTick := all }
  let count := (mapGet 0 h.classes cls + 1) % 2 ^ 32
  let threshold := match healthBase s1 with
    | none => 0
    | some b => leToNat (s1.bytes (b + 0x80 + 8 * (cls - 1) + 4) 4)
  let s2 := healthWrite s1 (0x80 + 8 * (cls - 1)) (natToLe count 4)
  let s3 := s2.setHealth { h with
    retired := satInc h.retired 255
    degraded := true
    sparelow := h.sparelow || noSpareLeft
    classes := mapSet 0 h.classes cls count
    replace := h.replace || (threshold ≠ 0 && decide (count > threshold)) }
  fireSnapshot s3 4

/-- Whether a store on its way covers a range whole: its bytes are the newest, and good (R361). -/
def storeCovers (s : State) (r : Nat × Nat) : Bool :=
  s.stores.any fun p => p.covers r

/-- Whether a store to a byte of a range is on its way: a cache holds what its home has not. -/
def storeTouches (s : State) (r : Nat × Nat) : Bool :=
  s.stores.any fun p => p.touches r.1 r.2

/-- R386, R389: the way of a line of an L1, an L2 or an instruction cache is disabled and logged as class 6, with the
address of the unit that failed. -/
def wayOff (s : State) (pa u : Nat) : State :=
  retireRecord { s with bad := mapSet 0 s.bad u 0, waysOff := s.waysOff ++ [pa / 64 * 64] } 6 0
    (pa / 8 * 8) false

/-- R359, R389: a lasting error of an L1 or L2 line: its way is disabled, and its units are refetched from below;
bytes that only the line held are lost with the stores that wrote them, and their unit is poisoned. -/
def disableWay (s : State) (pa u : Nat) : Bool × State :=
  let dirty := storeTouches s (pa / 8 * 8, 8)
  (dirty, wayOff (if dirty then { s with
    poison := mapSet false s.poison (cacheUnit pa) true
    stores := s.stores.map (dropCells (pa / 8 * 8) 8) } else s) pa u)

/-- R359, R382, R389: a read of a unit of one level of the caches, by its key: an error is corrected or transient and
counted, with its chiplet if R395 shows it there, or disables the way. -/
def readLevel (s : State) (chip : Option Nat) (pa u : Nat) : Bool × State :=
  match mapGet 0 s.bad u with
  | 0 => (false, s)
  | 1 => (false, countTransient { s with bad := mapSet 0 s.bad u 0 } 2 chip)
  | 3 => (false, countCorrected { s with bad := mapSet 0 s.bad u 0 } 2 chip)
  | _ => disableWay s pa u

/-- R358, R359, R389: a read, by an agent of a chiplet, of the cache units that hold a byte, of an L1 and, unless that
answers, of the L2; the answer is whether it fails. -/
def readCache (s : State) (chip pa : Nat) : Bool × State :=
  if mapGet false s.poison (cacheUnit pa) then (!storeCovers s (pa / 8 * 8, 8), s)
  else
    let first := readLevel s none pa (coreUnit pa)
    if first.1 || mapGet 0 s.bad (coreUnit pa) % 2 = 1 then first else readLevel first.2 (some chip) pa (cacheUnit pa)

/-- R358: every unit of a host line marked: its completion came back poisoned. -/
def poisonHostLine (s : State) (pa : Nat) : State :=
  { s with poison := (upTo 8).foldl (fun m k => mapSet false m (cacheUnit (pa / 64 * 64 + 8 * k)) true) s.poison }

/-- R359, R382, R388, R389: a read of the unit of its home that holds a byte: a transient or corrected error
is counted and the read is good; a lasting one poisons the unit, and a DRAM row then waits for its remap. Host
memory lies outside the device's protection: an error there is a poisoned completion (R358). -/
def readHome (s : State) (pa : Nat) : Bool × State :=
  let u := (unitOf s pa).1
  if mapGet false s.poison u then (!storeCovers s (unitOf s pa), s)
  else
    let t := { s with bad := mapSet 0 s.bad u 0 }
    match s.place pa, mapGet 0 s.bad u with
    | _, 0 => (false, s)
    | .host _, _ => (true, poisonHostLine t pa)
    | .dram _, 1 => (false, countTransient t 3 none)
    | .dram _, 3 => (false, countCorrected t 3 none)
    | .dram _, _ => (true, { t with poison := mapSet false s.poison u true, rowWork := s.rowWork ++ [u] })
    | _, 1 => (false, countTransient t 2 (cspChiplet s pa))
    | _, 3 => (false, countCorrected t 2 (cspChiplet s pa))
    | _, _ => (true, retireRecord { t with poison := mapSet false s.poison u true } 6 0 u false)

/-- R359: a read of the units, of the caches and of its home, that hold a byte, by an agent of a chiplet. -/
def readUnit (s : State) (chip pa : Nat) : Bool × State :=
  let c := readCache s chip pa
  if c.1 then c else readHome c.2 pa

/-- R9: the chiplet of an agent coordinate. -/
def agentChiplet (agent : Nat) : Nat := nbits agent 25 20

/-- The units that n bytes touch, each checked once. -/
def readUnits (s : State) (chip pa : Nat) : Nat → Bool × State
  | 0 => (false, s)
  | n + 1 =>
    let (bad, t) := readUnits s chip pa n
    if n = 0 || (pa + n) % 8 = 0 then
      let (b, t') := readUnit t chip (canonPa s.pkg.toNat (pa + n))
      (bad || b, t')
    else (bad, t)

end Sys2Proof.Machine
end

