-- ==== Sys2Proof/Machine/Translate.lean ====
section
/-! DEFINITION. Address translation (R90 to R104): the five-level walk, its checks in order, the TLBs
and walk caches, the accessed and dirty bits. One walk is indivisible in this model; only stores already on
their way can change an entry between a walker's read and its swap (notes/assumptions/12.md). -/

namespace Sys2Proof.Machine

/-- The kinds of access of R98. -/
inductive Access where
  | read
  | write
  | fetch
  | atomic
  deriving DecidableEq, Repr

def Access.num : Access → Nat
  | .read => 0
  | .write => 1
  | .fetch => 2
  | .atomic => 3

def Access.writes : Access → Bool
  | .write => true
  | .atomic => true
  | _ => false

/-- The context of an access: who translates (TLB), whose walker and walk cache, the partition, the
CID and the root (R91), and whether addresses are physical (R342). -/
structure XCtx where
  agent : Nat
  walker : Nat
  part : Nat
  cid : Nat
  root : Nat
  phys : Bool
  deriving DecidableEq, Repr

/-- What a translation answers. -/
inductive XRes where
  | ok (pa : Nat) (leaf : Word)
  /-- a translation fault with the code of R98 -/
  | fault (code : Nat)
  /-- R360: a poisoned table entry at a level -/
  | memerr (level : Nat)
  /-- R356, R363: a table entry beyond a dead route, or one whose home refuses -/
  | unreach (dead : Bool)
  deriving DecidableEq, Repr

/-- R98: a translation fault code. -/
def xcode (reason level : Nat) (k : Access) : Nat := reason * 4096 + level * 512 + k.num * 128

/-- R91: CID and ROOT of a PT_CTX value. -/
def ctxCid (w : Word) : Nat := nbits w.toNat 63 52
def ctxRoot (w : Word) : Nat := nbits w.toNat 39 0

/-- R100: the keys of the walk caches: regions 0 to 639, then the chiplet bases. -/
def chipWalker (c : Nat) : Nat := 640 + c

/-- R91, R342, R343: the context under which a core translates at its level. -/
def coreCtx (s : State) (c : CoreId) : XCtx :=
  let p := s.partOf c
  let own := match c with
    | .seq r _ => (s.region r).ctx
    | .stew x => (s.stew x).ctx
  let w := match (s.task c).level with
    | .k => (s.part p).kctx
    | _ => own
  { agent := s.agent c
    walker := match c with
      | .seq r _ => r
      | .stew x => chipWalker x
    part := p, cid := ctxCid w, root := ctxRoot w
    phys := match (s.task c).level with
      | .h => true
      | _ => false }

/-- The context of an engine or generator of a region (R91): kind 2 to 6 of R10. -/
def regionCtx (s : State) (r agent : Nat) : XCtx :=
  let x := s.region r
  { agent := agent, walker := r, part := x.part, cid := ctxCid x.ctx, root := ctxRoot x.ctx, phys := false }

/-- The context of PT_KCTX for the tables that hardware keeps in it (R208, R31). -/
def kernelCtx (s : State) (part agent walker : Nat) : XCtx :=
  let w := (s.part part).kctx
  { agent := agent, walker := walker, part := part, cid := ctxCid w, root := ctxRoot w, phys := false }

/-- R100: entries of an agent's TLB, by the KIND of its coordinate. -/
def tlbSize (agent : Nat) : Nat :=
  match nbits agent 5 2 with
  | 1 => 8
  | 2 => 8
  | 4 => 16
  | 5 => 16
  | 6 => 16
  | _ => 64

/-- R105: the address of the frame table. -/
def frametabBase (s : State) : Nat := canonPa s.pkg.toNat (nbits s.frametab.toNat 51 12 * 4096)

/-- R105: the frame-table byte of a local DRAM or CSP address. -/
def frameByteAddr (s : State) (pa : Nat) : Option Nat :=
  let b := frametabBase s
  let a := canonPa s.pkg.toNat pa
  match s.place pa with
  | .dram _ => some (b + a / 4096)
  | .csp c => some (b + 0x8000000 + c * 0x8000 + (a - 0x10000000000) % 0x8000000 / 4096)
  | _ => none

/-- R186: whether an address lies in a range of the frames behind the BAR of a partition. -/
def inBox (s : State) (lo hi a part : Nat) : Bool :=
  match boxBase s part with
  | none => false
  | some b => b + lo ≤ a && a < b + hi

/-- R189, R208: a read of the grant page: at the address in PT_GRANT, in the context of PT_KCTX. The status and the
quote page of a partition are never mapped (R186). -/
def grantRead (s : State) (x : XCtx) (va a : Nat) (k : Access) : Bool :=
  let q := s.part x.part
  k = .read && nbits q.grantva.toNat 56 12 ≠ 0 && nbits q.grantva.toNat 56 12 = va % 2 ^ 57 / 4096 &&
    x.cid = ctxCid q.kctx && x.root = ctxRoot q.kctx &&
    !(upTo 64).any (inBox s 0x2000 0x4000 a)

/-- R186, R189, R385: the Held frames that the hypervisor maps into a partition's image: the two mailbox pages, and
to be read only, not fetched, the grant page and the maps of the health area (notes/assumptions/63.md). -/
def heldShared (s : State) (x : XCtx) (va pa : Nat) (k : Access) : Bool :=
  let a := canonPa s.pkg.toNat pa
  let shared := (inBox s 0 0x2000 a x.part && k ≠ .fetch) ||
    grantRead s x va a k ||
    (k = .read && match healthBase s with
      | none => false
      | some h => h + 0x1000 ≤ a && a < h + 0xB000)
  shared && match frameByteAddr s pa with
    | some f => (s.byte f).toNat / 64 = 3
    | none => false

/-- R106: the owner check of a frame for a walking partition. Host frames and remote-window frames are
checked elsewhere. -/
def ownerOk (s : State) (part pa : Nat) : Bool :=
  match frameByteAddr s pa with
  | some a => (s.byte a).toNat = 64 + part
  | none => match s.place pa with
    | .remote _ => true
    | .host _ => true
    | _ => false

/-- R359: the frame-table byte of a frame is read for a check on it, by an agent of a chiplet: whether its unit
fails. -/
def readFrameByte (s : State) (chip pa : Nat) : Bool × State :=
  match frameByteAddr s pa with
  | some a => readUnits s chip a 1
  | none => (false, s)

/-! ### Entry fields (R92) -/

def pteV (e : Word) : Bool := e.getLsbD 0
def pteR (e : Word) : Bool := e.getLsbD 1
def pteW (e : Word) : Bool := e.getLsbD 2
def pteX (e : Word) : Bool := e.getLsbD 3
def pteA (e : Word) : Bool := e.getLsbD 4
def pteD (e : Word) : Bool := e.getLsbD 5
def pteCG (e : Word) : Bool := e.getLsbD 6
def pteLF (e : Word) : Bool := e.getLsbD 7
def pteOrd (e : Word) : Nat := nbits e.toNat 9 8
def pteCow (e : Word) : Bool := e.getLsbD 10
def pteG (e : Word) : Bool := e.getLsbD 11
def ptePfn (e : Word) : Nat := nbits e.toNat 51 12
def pteFmt (e : Word) : Nat := nbits e.toNat 56 52
def pteGeo (e : Word) : Nat := nbits e.toNat 58 57

/-- Pages of 4 KiB under one entry of a walk level. -/
def levelPages (lvl : Nat) : Nat := 512 ^ (lvl - 1)

/-- R90: the index of a virtual address at a walk level. -/
def vaIndex (va lvl : Nat) : Nat := va / 4096 / levelPages lvl % 512

/-- R93: whether an entry is a leaf at its level. -/
def isLeaf (e : Word) (lvl : Nat) : Bool := lvl = 1 || ((lvl = 2 || lvl = 3) && pteLF e)

/-- R93: the reserved conditions. -/
def pteReserved (e : Word) (lvl : Nat) : Bool :=
  nbits e.toNat 61 59 ≠ 0 ||
  (match lvl with
   | 1 => pteLF e
   | 2 => pteLF e && (pteCG e || ptePfn e % 512 ≠ 0)
   | 3 => pteLF e && (pteCG e || ptePfn e % 262144 ≠ 0)
   | _ => pteLF e)

/-- R94: whether FMT and GEO are valid. -/
def fmtGeoOk (e : Word) : Bool :=
  let f := pteFmt e
  let g := pteGeo e
  !(f = 0xF || f = 0x10 || f ≥ 0x1D) && (if f = 0x18 || f = 0x19 then g ≠ 3 else g = 0)

/-- R96: the reason code of a failed right, or 0. -/
def rightsFault (e : Word) (k : Access) : Nat :=
  match k with
  | .read => if pteR e then 0 else 3
  | .write => if pteW e then 0 else 4
  | .fetch => if pteX e then 0 else 5
  | .atomic => if !pteW e then 4 else if !pteR e then 3 else 0

/-- R97: the checks of a leaf before that of its frame's owner, in order. -/
def leafShape (s : State) (e : Word) (lvl pa : Nat) (k : Access) : Option Nat :=
  if pteOrd e = 3 then some (xcode 7 lvl k)
  else if !fmtGeoOk e then some (xcode 8 lvl k)
  else if s.place pa = .hole then some (xcode 10 lvl k)
  else none

/-- R97: the check of its owner and those after it. -/
def leafRights (s : State) (x : XCtx) (e : Word) (lvl va pa : Nat) (k : Access) : Option Nat :=
  if s.place pa ≠ .cspHole && !ownerOk s x.part pa && !heldShared s x va pa k then some (xcode 9 lvl k)
  else if rightsFault e k ≠ 0 then some (xcode (rightsFault e k) lvl k)
  else if k.writes && pteCow e then some (xcode 6 lvl k)
  else none

/-- R97: the checks of a leaf after its address is formed, in order. A frame-table byte that cannot be read is
reported as the level's table entry is (R360; DESIGN CHOICE, notes/assumptions/78.md). -/
def leafCheck (s : State) (x : XCtx) (e : Word) (lvl va pa : Nat) (k : Access) : XRes × State :=
  match leafShape s e lvl pa k with
  | some c => (.fault c, s)
  | none => match readFrameByte s (agentChiplet x.agent) pa with
    | (true, t) => (.memerr lvl, t)
    | (false, t) => match leafRights t x e lvl va pa k with
      | some c => (.fault c, t)
      | none => (.ok pa e, t)

/-! ### Walk caches and TLBs (R100) -/

def prefixOf (va lvl : Nat) : Nat := va / 4096 / levelPages lvl

/-- The deepest walk-cache entry that holds a prefix of an address. -/
def walkHit (l : List WalkEntry) (part cid va : Nat) : Option WalkEntry :=
  let hit (lvl : Nat) := l.find? fun w =>
    w.part = part && w.cid = cid && w.level = lvl && w.vpre = prefixOf va lvl
  match hit 3 with
  | some w => some w
  | none => match hit 4 with
    | some w => some w
    | none => hit 5

/-- A used entry moves to the front; a new one enters there, and the last leaves (R100). -/
def lruPut {α : Type} [DecidableEq α] (size : Nat) (l : List α) (x : α) : List α :=
  (x :: l.filter (fun y => y ≠ x)).take size

def fillWalk (s : State) (x : XCtx) (va lvl pfn : Nat) : State :=
  let w : WalkEntry := { part := x.part, cid := x.cid, level := lvl, vpre := prefixOf va lvl, pfn := pfn }
  { s with walks := mapSet [] s.walks x.walker (lruPut 256 (mapGet [] s.walks x.walker) w) }

/-- A TLB entry that covers an address in a context (R91, R100). -/
def tlbMatches (x : XCtx) (va : Nat) (t : Tlb) : Bool :=
  t.part = x.part && (t.cid = none || t.cid = some x.cid) && decide (t.vpn ≤ va / 4096) &&
    decide (va / 4096 < t.vpn + t.pages)

def State.tlb (s : State) (agent : Nat) : List Tlb := mapGet [] s.tlbs agent
def State.setTlb (s : State) (agent : Nat) (l : List Tlb) : State :=
  { s with tlbs := mapSet [] s.tlbs agent l }

/-! ### The walk (R97) -/

/-- Reading one table entry: a dead or refusing home, a poisoned unit, or the entry (R355, R360). -/
inductive Entry where
  | ok (e : Word)
  | memerr
  | unreach (dead : Bool)
  deriving DecidableEq, Repr

def readEntry (s : State) (x : XCtx) (a : Nat) : Entry × State :=
  if routeDead s a then (.unreach true, s)
  else if homeRefuses s x.part a then (.unreach false, s)
  else
    let (bad, t) := readUnits s (agentChiplet x.agent) a 8
    if bad then (.memerr, t) else (.ok (BitVec.ofNat 64 (t.word a)), t)

/-- R97: the loop from a level down; the answer is the leaf, its level and its address. -/
def walkGo (x : XCtx) (va : Nat) (k : Access) : Nat → Nat → State → XRes × Nat × Nat × State
  | 0, _, s => (.fault (xcode 1 0 k), 0, 0, s)
  | l + 1, base, s =>
    let lvl := l + 1
    let (bad, s) := readFrameByte s (agentChiplet x.agent) (base * 4096)
    if bad then (.memerr lvl, lvl, 0, s)
    else if !ownerOk s x.part (base * 4096) then (.fault (xcode 9 lvl k), lvl, 0, s)
    else
      let a := base * 4096 + 8 * vaIndex va lvl
      match readEntry s x a with
      | (.memerr, t) => (.memerr lvl, lvl, a, t)
      | (.unreach d, t) => (.unreach d, lvl, a, t)
      | (.ok e, t) =>
        if !pteV e then (.fault (xcode 1 lvl k), lvl, a, t)
        else if pteReserved e lvl then (.fault (xcode 2 lvl k), lvl, a, t)
        else if isLeaf e lvl then (.ok 0 e, lvl, a, t)
        else walkGo x va k l (ptePfn e) (if lvl ≥ 3 then fillWalk t x va lvl (ptePfn e) else t)

/-- R99: whether the 16 entries around a leaf, whose units are good, form one 64 KiB entry. -/
def contiguous (s : State) (leafAddr : Nat) (e : Word) : Bool :=
  let g := leafAddr / 128 * 128
  let mask : Word := ~~~ (0xC00FFFFFFFFFF030#64)
  let e0 := BitVec.ofNat 64 (s.word g)
  pteCG e && ptePfn e0 % 16 = 0 &&
  (upTo 16).all fun j =>
    let w := BitVec.ofNat 64 (s.word (g + 8 * j))
    pteV w && pteCG w && (w &&& mask) = (e &&& mask) && ptePfn w = ptePfn e0 + j

/-- R99: the group around a leaf with CG read and its conditions tested: a unit of it that cannot be read fails
them. -/
def readGroup (s : State) (x : XCtx) (leafAddr : Nat) (e : Word) : Bool × State :=
  if !pteCG e then (false, s)
  else
    let (bad, t) := readUnits s (agentChiplet x.agent) (leafAddr / 128 * 128) 128
    (!bad && contiguous t leafAddr e, t)

/-- R102: A set in a leaf, or in the 16 leaves of a 64 KiB entry. -/
def setAccessed (s : State) (leafAddr : Nat) (group : Bool) : State :=
  let one (t : State) (a : Nat) : State :=
    let w := t.word a
    if nbit w 4 then t else t.writeWord a (w + 16)
  if group then (upTo 16).foldl (fun t j => one t (leafAddr / 128 * 128 + 8 * j)) s else one s leafAddr

/-- The page of a cached entry that an address lies in: the slot of its D bit and its leaf's address. -/
def Tlb.slotAt (t : Tlb) (va : Nat) : Nat × Nat :=
  let j := va / 4096 - t.vpn
  if t.level = 1 then (j, if t.pages = 16 then t.leafAddr / 128 * 128 + 8 * j else t.leafAddr)
  else (0, t.leafAddr)

/-- Whether a leaf in memory still is the one cached, but for A, D and the software bits (R103). -/
def Tlb.sameLeaf (t : Tlb) (slot : Nat) (e : Word) : Bool :=
  let mask : Word := ~~~ (0xC00FFFFFFFFFF030#64)
  (e &&& mask) = (t.leaf &&& mask) && ptePfn e = t.pfn + slot

/-- Whether another agent's store to an entry is on its way: only such a store can change the entry between a
walker's read and its swap. -/
def entryContended (s : State) (x : XCtx) (a : Nat) : Bool :=
  s.stores.any fun p => (p.cells.any fun c => decide (a ≤ c.1) && decide (c.1 < a + 8)) &&
    match p.issuer with
    | .core c => s.agent c ≠ x.agent
    | _ => true

/-- R103: whether 16 successive swaps of an entry fail: open while another agent writes it. -/
def swapsFail (s : State) (x : XCtx) (a : Nat) : Bool × State :=
  if entryContended s x (canonPa s.pkg.toNat a) then
    let (n, t) := s.takeFree
    (n % 2 = 1, t)
  else (false, s)

/-- R103: D set in the leaf of the page written, when the cached entry holds D = 0 for it. -/
def setDirty (s : State) (x : XCtx) (va : Nat) (t : Tlb) : State :=
  let (slot, a) := t.slotAt va
  if t.dirty.contains slot then s
  else
    let w := s.word a
    let s1 := if nbit w 5 then s else s.writeWord a (w + 32)
    let t1 := { t with dirty := slot :: t.dirty }
    s1.setTlb x.agent ((s1.tlb x.agent).map fun y => if y = t then t1 else y)

/-- R103: a write through an entry that holds D = 0 for its page sets D before it goes on to its address and
leaf; 16 failed swaps are a RACE fault. -/
def markDirty (s : State) (x : XCtx) (va : Nat) (k : Access) (t : Tlb) (r : Nat × Word) : XRes × State :=
  if t.dirty.contains (t.slotAt va).1 then (.ok r.1 r.2, s)
  else match swapsFail s x (t.slotAt va).2 with
    | (true, u) => (.fault (xcode 11 t.level k), u)
    | (false, u) => (.ok r.1 r.2, setDirty u x va t)

/-- The physical address of a virtual one under a cached entry. -/
def tlbPa (t : Tlb) (va : Nat) : Nat := (t.pfn + (va / 4096 - t.vpn)) * 4096 + va % 4096

/-- R97, R100 to R103: a translation with no cached entry. `setD` says whether the agent sets D (R104:
element store streams do not). A walk that ends in a fault forms no TLB entry (R354). -/
def translateMiss (s : State) (x : XCtx) (v : Nat) (k : Access) (setD : Bool) : XRes × State :=
  let (lvl, base, s0) := match walkHit (mapGet [] s.walks x.walker) x.part x.cid v with
    | some w => (w.level - 1, w.pfn,
        { s with walks := mapSet [] s.walks x.walker (lruPut 256 (mapGet [] s.walks x.walker) w) })
    | none => (5, x.root, s)
  match walkGo x v k lvl base s0 with
  | (.ok _ e, l, ea, s0) =>
    let pages := levelPages l
    let pa := (ptePfn e + v / 4096 % pages) * 4096 + v % 4096
    match leafCheck s0 x e l v pa k with
    | (.ok _ _, s0) =>
      let (group, s1) := if l = 1 then readGroup s0 x ea e else (false, s0)
      let s2 := setAccessed s1 ea group
      let j := if group then v / 4096 % 16 else 0
      let n := if group then 16 else pages
      let t : Tlb :=
        { part := x.part, cid := if pteG e then none else some x.cid
          vpn := if l = 1 then v / 4096 - j else v / 4096 / pages * pages
          pages := n
          pfn := ptePfn e - j
          leaf := e, level := l, leafAddr := ea
          dirty := if group then
              (upTo 16).filter fun i => nbit (s1.word (ea / 128 * 128 + 8 * i)) 5
            else if pteD e then [0] else [] }
      let s3 := s2.setTlb x.agent (lruPut (tlbSize x.agent) (s2.tlb x.agent) t)
      if k.writes && setD then
        match markDirty s3 x v k t (pa, e) with
        | (.fault c, u) => (.fault c, u.setTlb x.agent (s2.tlb x.agent))
        | r => r
      else (.ok pa e, s3)
    | r => r
  | (r, _, _, s1) => (r, s1)

/-- R103: a write through a cached entry. With D = 0 for the page the walker reads the leaf; one that has
changed in more than A, D and the software bits is translated again from the table. -/
def translateHit (s : State) (x : XCtx) (v : Nat) (k : Access) (setD : Bool) (t : Tlb) : XRes × State :=
  let (slot, a) := t.slotAt v
  if !(k.writes && setD) || t.dirty.contains slot then (.ok (tlbPa t v) t.leaf, s)
  else match readEntry s x a with
    | (.memerr, u) => (.memerr t.level, u)
    | (.unreach d, u) => (.unreach d, u)
    | (.ok e, u) =>
      if t.sameLeaf slot e then markDirty u x v k t (tlbPa t v, t.leaf)
      else translateMiss (u.setTlb x.agent ((u.tlb x.agent).filter fun y => y ≠ t)) x v k setD

/-- R97, R100 to R103: one translation. -/
def translate (s : State) (x : XCtx) (va : Nat) (k : Access) (setD : Bool) : XRes × State :=
  let a := va % 2 ^ 64
  if a / 2 ^ 56 ≠ 0 && a / 2 ^ 56 ≠ 2 ^ 8 - 1 then (.fault (xcode 12 0 k), s)
  else
    let v := a % 2 ^ 57
    match (s.tlb x.agent).find? (tlbMatches x v) with
    | some t =>
      let s1 := s.setTlb x.agent (lruPut (tlbSize x.agent) (s.tlb x.agent) t)
      if rightsFault t.leaf k ≠ 0 then (.fault (xcode (rightsFault t.leaf k) t.level k), s1)
      else if k.writes && pteCow t.leaf then (.fault (xcode 6 t.level k), s1)
      else translateHit s1 x v k setD t
    | none => translateMiss s x v k setD

/-- The leaf that a walk of an address reaches, whatever its rights. -/
def leafAt (s : State) (x : XCtx) (va : Nat) : Option Word :=
  if x.phys then none
  else match walkGo x (va % 2 ^ 57) .read 5 x.root s with
    | (.ok _ e, _) => some e
    | _ => none

/-- R342: an address at level H. -/
def translatePhys (s : State) (va : Nat) (k : Access) : XRes × State :=
  if va / 2 ^ 52 ≠ 0 then (.fault (xcode 12 0 k), s)
  else if s.place va = .hole then (.fault (xcode 10 0 k), s)
  else (.ok va 0, s)

/-- A translation in a context. -/
def xlate (s : State) (x : XCtx) (va : Nat) (k : Access) (setD : Bool) : XRes × State :=
  if x.phys then translatePhys s va k else translate s x va k setD

end Sys2Proof.Machine
end

