-- ==== Sys2Proof/Machine/Access.lean ====
section
/-! DEFINITION. Accesses of agents: to virtual memory in pieces (R235, R86), to the element memories of
a region (R84, R37), and the records of out-of-range addresses (R87). Every failure is an answer of
`Acc`; what the agent does with it is its own (R356). -/

namespace Sys2Proof.Machine

/-- The answer of an access (R356). -/
inductive Acc (α : Type) where
  | ok (x : α)
  /-- translation fault: code of R98 and address -/
  | xlate (code va : Nat)
  /-- dead route, or a refusal at the destination -/
  | unreach (dead : Bool) (va : Nat)
  /-- uncorrectable: the level of R360 (0 for data) and the address -/
  | memerr (level va : Nat)
  /-- an ELM bank tagged with another context (R37): region, element and bank -/
  | bank (region elem bank : Nat)
  /-- the access waits for an earlier strongly ordered store of its agent (R115) -/
  | held
  deriving DecidableEq, Repr

/-- Consecutive bytes at one physical place, with their virtual address. -/
structure Piece where
  pa : Nat
  n : Nat
  va : Nat
  leaf : Word
  deriving DecidableEq, Repr

/-- A failure carried over to another kind of answer; an answer that is no failure stands for none. -/
def Acc.failed {α β : Type} (x : β) : Acc α → Acc β
  | .ok _ => .ok x
  | .xlate c a => .xlate c a
  | .unreach d a => .unreach d a
  | .memerr l a => .memerr l a
  | .bank r e b => .bank r e b
  | .held => .held

/-- R340: the order in which the failures of one access are taken. -/
def Acc.rank {α : Type} : Acc α → Nat
  | .xlate _ _ => 0
  | .unreach _ _ => 1
  | .memerr _ _ => 2
  | .bank _ _ _ => 3
  | .held => 3
  | .ok _ => 4

/-- R340: of two answers the failure that is taken. -/
def Acc.first {α : Type} (a b : Acc α) : Acc α := if b.rank < a.rank then b else a

/-- R360: an uncorrectable error is reported at the address of the access. -/
def Acc.memerrAt {α : Type} (va : Nat) : Acc α → Acc α
  | .memerr l _ => .memerr l va
  | x => x

/-- What a translation answers, as the answer of the access. -/
def XRes.acc (va : Nat) (x : List Piece) : XRes → Acc (List Piece)
  | .ok _ _ => .ok x
  | .fault c => .xlate c va
  | .memerr l => .memerr l va
  | .unreach d => .unreach d va

/-- R235, R340: the pieces of an access of n bytes: every page is translated before any byte performs, and of
several failures the first in the order of R340 is the answer. The first argument of the recursion is the number
of pages it may touch. -/
def piecesGo (x : XCtx) (k : Access) (setD : Bool) : Nat → Nat → Nat → State → Acc (List Piece) × State
  | 0, _, _, s => (.ok [], s)
  | f + 1, va, n, s =>
    if n = 0 then (.ok [], s)
    else
      let m := min n (4096 - va % 4096)
      match xlate s x va k setD with
      | (.ok pa leaf, t) =>
        match piecesGo x k setD f ((va + m) % 2 ^ 64) (n - m) t with
        | (.ok r, t') => (.ok ({ pa := pa, n := m, va := va, leaf := leaf } :: r), t')
        | (e, t') => (e, t')
      | (.fault c, t) => (.xlate c va, t)
      | (r, t) =>
        let rest := piecesGo x k setD f ((va + m) % 2 ^ 64) (n - m) t
        ((r.acc va []).first rest.1, rest.2)

def pieces (s : State) (x : XCtx) (va n : Nat) (k : Access) (setD : Bool) : Acc (List Piece) × State :=
  let r := piecesGo x k setD (n / 4096 + 2) va n s
  (r.1.memerrAt va, r.2)

/-- Whether a piece lies in a CSP hole (R86). -/
def pieceHole (s : State) (p : Piece) : Bool := s.place p.pa = .cspHole

/-- The virtual address of the first out-of-range piece. -/
def oorPiece (s : State) (l : List Piece) : Option Nat := (l.find? (pieceHole s)).map (·.va)

/-- Whether the home of a piece cannot be reached by a partition (R236). -/
def pieceLost (s : State) (part : Nat) (p : Piece) : Bool :=
  !pieceHole s p && (routeDead s p.pa || homeRefuses s part p.pa)

/-! ### Unordered pages (R116) -/

/-- R111: whether a store has performed at a scope that holds its issuer and a reader: every read of that agent
returns it or a later store. -/
def seenBy (agent : Nat) (p : PStore) : Bool := decide (lca agent p.agent ≤ p.reached)

/-- An element put at an index of a list. -/
def putAt {α : Type} : Nat → α → List α → List α
  | 0, x, l => x :: l
  | _ + 1, x, [] => [x]
  | n + 1, x, y :: l => y :: putAt n x l

/-- R116: stores, newest first, with those of a set brought into an order that a number picks: each may pass others
of the set and stores to other bytes, but no other store to a byte of its own. -/
def shuffle (sel : PStore → Bool) : Nat → List PStore → List PStore × Nat
  | x, [] => ([], x)
  | x, p :: r =>
    let (l, y) := shuffle sel x r
    if sel p then
      let n := (l.takeWhile fun q => sel q || !p.meets q).length + 1
      (putAt (y % n) p l, y / n)
    else (p :: l, y)

/-- The unordered stores to n bytes at a physical address. -/
def unorderedAt (a n : Nat) (p : PStore) : Bool := p.unordered && p.touches a n

/-- R111, R116: those that a reader may see or not: the others have performed at a scope that holds it. -/
def openAt (agent a n : Nat) (p : PStore) : Bool := unorderedAt a n p && !seenBy agent p

/-- R116: of the stores that a reader of n bytes may see or not, those that a number picks, in the order that it picks,
newest first; and those left out. -/
def viewOf (s : State) (agent a n x : Nat) : List PStore × List PStore :=
  let l := numbered (s.stores.filter (openAt agent a n))
  ((shuffle (fun _ => true) (x / 2 ^ l.length) ((l.filter fun p => nbit x p.1).map (·.2))).1,
    (l.filter fun p => !nbit x p.1).map (·.2))

/-- A store that an agent has read. -/
def PStore.readBy (p : PStore) (agent : Nat) : PStore :=
  { p with readers := if p.readers.contains agent then p.readers else agent :: p.readers }

/-- R116, R235: the bytes of a piece of an unordered page as one view shows them: which one is left open. What has
performed at a scope that holds the reader stands in its order (R111), and what the view adds stands above it. -/
def readUnordered (s : State) (agent pa n : Nat) : List Byte × State :=
  let a := canonPa s.pkg.toNat pa
  if !s.stores.any (unorderedAt a n) then (s.busBytes pa n, s)
  else
    let (x, t) := s.takeFree
    let v := viewOf s agent a n x
    ({ s with stores := v.1 ++ s.stores.filter fun p => !openAt agent a n p }.busBytes pa n,
      { t with stores := s.stores.map fun p => if unorderedAt a n p && !v.2.contains p then p.readBy agent else p })

/-- R114, R116: what an atomic finds at a piece: on an unordered page it takes one view of the stores to its bytes,
whose place is settled from then on; those that it does not see come after it, and are answered apart. -/
def holdBack (agent : Nat) (s : State) (p : Piece) : List PStore × State :=
  let a := canonPa s.pkg.toNat p.pa
  if pteOrd p.leaf ≠ 2 || !s.stores.any (unorderedAt a p.n) then ([], s)
  else
    let (x, t) := s.takeFree
    let v := viewOf s agent a p.n x
    (v.2, { t with stores := (v.1 ++ s.stores.filter fun q => !openAt agent a p.n q).map fun q =>
      if unorderedAt a p.n q then { q with unordered := false } else q })

/-- The views of the pieces of an atomic. -/
def holdBacks (agent : Nat) : List Piece → State → List PStore × State
  | [], s => ([], s)
  | p :: r, s =>
    let (l, t) := holdBack agent s p
    let (m, u) := holdBacks agent r t
    (l ++ m, u)

/-- The bytes of a piece as its page's kind lets a reader see them (R109). -/
def pieceBytes (s : State) (agent : Nat) (p : Piece) : List Byte × State :=
  if pteOrd p.leaf = 2 then readUnordered s agent p.pa p.n else (s.busBytes p.pa p.n, s)

/-- The bytes of pieces whose homes can be reached: zero in a CSP hole (R86); an uncorrectable unit (R359). -/
def readGo (agent : Nat) : List Piece → State → Acc (List Byte) × State
  | [], s => (.ok [], s)
  | p :: r, s =>
    if pieceHole s p then
      match readGo agent r s with
      | (.ok bs, t) => (.ok (List.replicate p.n 0#8 ++ bs), t)
      | e => e
    else
      let (bad, t) := readUnits s (agentChiplet agent) p.pa p.n
      if bad then (.memerr 0 p.va, t)
      else
        let b := pieceBytes t agent p
        match readGo agent r b.2 with
        | (.ok bs, t') => (.ok (b.1 ++ bs), t')
        | e => e

/-- R236, R340: a read of pieces by an agent of a partition: a dead route or a refusal at any of them comes before an
uncorrectable unit. -/
def readPieces (agent part : Nat) (l : List Piece) (s : State) : Acc (List Byte) × State :=
  match l.find? (pieceLost s part) with
  | some p => (.unreach (routeDead s p.pa) p.va, s)
  | none =>
    let r := readGo agent l s
    (r.1.memerrAt ((l.head?.map Piece.va).getD 0), r.2)

/-- A read of n bytes at a virtual address: the bytes and the out-of-range address, if any. -/
def readVirt (s : State) (x : XCtx) (va n : Nat) (k : Access) : Acc (List Byte × Option Nat) × State :=
  match pieces s x va n k true with
  | (.ok l, t) =>
    match readPieces x.agent x.part l t with
    | (.ok bs, t') => (.ok (bs, oorPiece t l), t')
    | (e, t') => (e.failed ([], none), t')
  | (e, t) => (e.failed ([], none), t)

/-- Writes of pieces that perform at their homes in this step (engines, generators): a failure stops
before its piece (R248, R356, R361). -/
def writePieces (part : Nat) : List Piece → List Byte → State → Acc Unit × State
  | [], _, s => (.ok (), s)
  | p :: r, bs, s =>
    let mine := bs.take p.n
    let rest := bs.drop p.n
    if pieceHole s p then writePieces part r rest s
    else if pieceLost s part p then (.unreach (routeDead s p.pa) p.va, s)
    else if mergesPoison s (canonPa s.pkg.toNat p.pa) p.n then (.memerr 0 p.va, s)
    else writePieces part r rest (s.busWrite p.pa mine)

/-- A write of bytes at a virtual address by an engine: the out-of-range address, if any. -/
def writeVirt (s : State) (x : XCtx) (va : Nat) (bs : List Byte) (setD : Bool) : Acc (Option Nat) × State :=
  match pieces s x va bs.length .write setD with
  | (.ok l, t) =>
    match writePieces x.part l bs t with
    | (.ok _, t') => (.ok (oorPiece t l), t')
    | (e, t') => (e.failed none, t')
  | (e, t) => (e.failed none, t)

/-! ### Out-of-range records (R87) -/

/-- R87: a record word once it is VALID: level, write bit, address. -/
def oorWord (lvl : Nat) (wr : Bool) (addr : Nat) : Word :=
  BitVec.ofNat 64 (2 ^ 63 + lvl * 2 ^ 60 + (if wr then 2 ^ 59 else 0) + addr % 2 ^ 57)

/-- R87: SQ_OOR of a task, unless it holds an address already. -/
def Task.oorAt (t : Task) (lvl : Nat) (wr : Bool) (addr : Nat) : Task :=
  if t.oor.getLsbD 63 then t else { t with oor := oorWord lvl wr addr }

/-- R87: EL_OOR and EL_OORLOC of a region. -/
def Region.oorAt (r : Region) (e lvl : Nat) (wr : Bool) (addr : Nat) : Region :=
  if r.oor.getLsbD 63 then r
  else { r with oor := oorWord lvl wr addr, oorloc := BitVec.ofNat 32 e }

/-! ### Element memories (R84) -/

/-- R84: whether an ELM offset of an element can be reached: in range, the element enabled (R86). -/
def elmReach (r : Region) (e off : Nat) : Bool := decide (off < 0x60000) && r.enabled.contains e

/-- R84: element and offset of an RSM address. -/
def rsmElem (a : Nat) : Nat := a / 2 ^ 19 % 256
def rsmOff (a : Nat) : Nat := a % 2 ^ 19

/-- The context that a region runs (R37). -/
def Region.context (r : Region) : Nat × Nat := (r.part, ctxCid r.ctx)

/-- R36, R37: the context that a bank is tagged with, or no context. -/
def Region.bankTag (r : Region) (e bank : Nat) : Option (Nat × Nat) :=
  (mapGet none (r.element e).tags bank).getD r.tagBase

/-- R37: whether a bank is tagged with the region's context. -/
def bankMine (r : Region) (e bank : Nat) : Bool := r.bankTag e bank = some r.context

/-- R37: the first of n RSM bytes whose bank is tagged with another context. -/
def rsmForeign (r : Region) (a : Nat) : Nat → Option (Nat × Nat)
  | 0 => none
  | n + 1 =>
    match rsmForeign r a n with
    | some x => some x
    | none =>
      let b := (a + n) % 2 ^ 27
      if elmReach r (rsmElem b) (rsmOff b) && !bankMine r (rsmElem b) (rsmOff b / 0xC00)
      then some (rsmElem b, rsmOff b / 0xC00) else none

/-- One RSM byte: zero out of range (R86). -/
def rsmByte (r : Region) (a : Nat) : Byte :=
  if elmReach r (rsmElem a) (rsmOff a) then mapGet 0 (r.element (rsmElem a)).elm (rsmOff a) else 0#8

/-- One RSM byte written; an out-of-range write is dropped (R86). -/
def Region.rsmSet (r : Region) (a : Nat) (b : Byte) : Region :=
  if elmReach r (rsmElem a) (rsmOff a) then
    let e := r.element (rsmElem a)
    r.setElement (rsmElem a) { e with elm := mapSet 0 e.elm (rsmOff a) b }
  else r

/-- Consecutive RSM bytes written. -/
def Region.rsmSetN (r : Region) : Nat → List Byte → Region
  | _, [] => r
  | a, b :: bs => (r.rsmSet (a % 2 ^ 27) b).rsmSetN (a + 1) bs

/-- Whether one of n RSM bytes is out of range. -/
def rsmOut (r : Region) (a n : Nat) : Bool :=
  (upTo n).any fun i => !elmReach r (rsmElem ((a + i) % 2 ^ 27)) (rsmOff ((a + i) % 2 ^ 27))

/-- R359: a read of the ELM unit that holds an offset; a lasting error poisons the unit and retires the
bank (R387). -/
def readElmUnit (s : State) (r e off : Nat) : Bool × State :=
  let u := elmUnit r e off
  if mapGet false s.poison u then (true, s)
  else match mapGet 0 s.bad u with
    | 0 => (false, s)
    | 1 => (false, countTransient { s with bad := mapSet 0 s.bad u 0 } 0 none)
    | 3 => (false, countCorrected { s with bad := mapSet 0 s.bad u 0 } 0 none)
    | _ =>
      let g := s.region r
      let t := { s with bad := mapSet 0 s.bad u 0, poison := mapSet false s.poison u true }
      let t1 := t.setRegion r { g with retiring := e :: g.retiring.filter (· ≠ e) }
      (true, retireRecord t1 1 (r * 2 ^ 8 + e / 16 * 2 ^ 18 + e % 16 * 2 ^ 22 + off / 0xC00 * 2 ^ 26 +
        (if g.spares = [] then 2 ^ 45 else 2 ^ 44)) 0 (g.spares = []))

/-- R359, R382: a read of a unit of slices; a lasting error poisons the unit, with what else follows. -/
def readSlice (u : Nat) (lost : State → State) (s : State) : Bool × State :=
  if mapGet false s.poison u then (true, s)
  else match mapGet 0 s.bad u with
    | 0 => (false, s)
    | 1 => (false, countTransient { s with bad := mapSet 0 s.bad u 0 } 0 none)
    | 3 => (false, countCorrected { s with bad := mapSet 0 s.bad u 0 } 0 none)
    | _ => (true, lost { s with bad := mapSet 0 s.bad u 0, poison := mapSet false s.poison u true })

/-- R359: a read of the slice unit that holds an offset; the element of a unit that is lost is retired at the next
token. -/
def readLpsUnit (s : State) (r e off : Nat) : Bool × State :=
  readSlice (lpsUnit r e off) (fun t =>
    t.setRegion r { t.region r with retiring := e :: (t.region r).retiring.filter (· ≠ e) }) s

/-- R37: an access waits on a bank tagged with another context. -/
def noteSpill (s : State) (r e b : Nat) : State :=
  if s.spills.contains (r, e, b) then s else { s with spills := s.spills ++ [(r, e, b)] }

/-- A read of n RSM bytes by an agent of a region; `none` of the pair means in range throughout. -/
def readRsm (s : State) (r a n : Nat) : Acc (List Byte × Bool) × State :=
  match rsmForeign (s.region r) a n with
  | some (e, b) => (.bank r e b, noteSpill s r e b)
  | none =>
    let (bad, t) := (upTo n).foldl
      (fun (acc : Bool × State) i =>
        let b := (a + i) % 2 ^ 27
        if elmReach (s.region r) (rsmElem b) (rsmOff b) && (i = 0 || b % 8 = 0) then
          let (x, t) := readElmUnit acc.2 r (rsmElem b) (rsmOff b)
          (acc.1 || x, t)
        else acc) (false, s)
    if bad then (.memerr 0 a, t)
    else (.ok ((upTo n).map fun i => rsmByte (s.region r) ((a + i) % 2 ^ 27), rsmOut (s.region r) a n), t)

/-- A write of RSM bytes by an agent of a region: it performs at the bank at once (R111). -/
def writeRsm (s : State) (r a : Nat) (bs : List Byte) : Acc Bool × State :=
  let n := bs.length
  match rsmForeign (s.region r) a n with
  | some (e, b) => (.bank r e b, noteSpill s r e b)
  | none =>
    let part := (upTo n).any fun i =>
      let b := (a + i) % 2 ^ 27
      elmReach (s.region r) (rsmElem b) (rsmOff b) && mapGet false s.poison (elmUnit r (rsmElem b) (rsmOff b)) &&
        !(decide (a ≤ b / 8 * 8) && decide (b / 8 * 8 + 8 ≤ a + n))
    if part then (.memerr 0 a, s)
    else
      let t := s.setRegion r ((s.region r).rsmSetN a bs)
      (.ok (rsmOut (s.region r) a n),
        { t with poison := (upTo n).foldl (fun m i =>
            let b := (a + i) % 2 ^ 27
            if elmReach (s.region r) (rsmElem b) (rsmOff b) then mapSet false m (elmUnit r (rsmElem b) (rsmOff b)) false
            else m) t.poison })

/-- R235, R250: whether a 64-bit address lies in the RSM window. The first byte of an access decides for all of
it: one that begins below the window is translated whole, and one that runs past its end goes on at RSM address 0
(DESIGN CHOICE, notes/assumptions/64.md). -/
def isRsm (va : Nat) : Bool := va % 2 ^ 64 / 2 ^ 27 = 2 ^ 37 - 1

end Sys2Proof.Machine
end

