-- ==== Sys2Proof/Machine/Message.lean ====
section
/-! DEFINITION. The tables behind work and messages: the counter table (R23 to R25), the endpoint table
(R31), sending and receiving messages (R32, R275, R276) and events (R351). -/

namespace Sys2Proof.Machine

/-! ### Counters (R24) -/

/-- R24: the address of a counter entry. -/
def ctrAddr (s : State) (part h : Nat) : Nat :=
  nbits (s.part part).ctrbase.toNat 51 15 * 2 ^ 15 + 8 * (h % 4096)

def ctrGet (s : State) (part h : Nat) : Nat := s.word (ctrAddr s part h)
def ctrPut (s : State) (part h w : Nat) : State := s.writeWord (ctrAddr s part h) w

def ctrLevel (w : Nat) : Nat := nbits w 63 61
def ctrCanc (w : Nat) : Bool := nbit w 60
def ctrOpen (w : Nat) : Bool := nbit w 59
def ctrParent (w : Nat) : Nat := nbits w 55 44
def ctrPhase (w : Nat) : Nat := nbits w 43 32
def ctrCount (w : Nat) : Nat := nbits w 31 0

/-- R24: an entry from its fields. -/
def ctrMake (level : Nat) (canc op : Bool) (parent phase count : Nat) : Nat :=
  level * 2 ^ 61 + (if canc then 2 ^ 60 else 0) + (if op then 2 ^ 59 else 0) + parent % 4096 * 2 ^ 44 +
    phase % 4096 * 2 ^ 32 + count % 2 ^ 32

/-- R24, R25: a handle that names no counter, or an entry marked free. -/
def ctrBad (s : State) (part h : Nat) : Bool :=
  h = 0 || decide (h > 0xFFF) || decide (ctrLevel (ctrGet s part h) ≥ 5)

/-- R25: whether n more children would pass the limit. -/
def ctrFull (s : State) (part h n : Nat) : Bool := decide (ctrCount (ctrGet s part h) + n > 0xFFFFFFFF)

/-- n children more. -/
def ctrAdd (s : State) (part h n : Nat) : State :=
  if h = 0 then s
  else
    let w := ctrGet s part h
    ctrPut s part h (setBits w 31 0 (ctrCount w + n))

/-- R23, R25: one child fewer; a counter that reaches zero completes, and its parent and phase lose a
child. The first argument bounds the levels. -/
def ctrSub (part : Nat) : Nat → Nat → State → State
  | 0, _, s => s
  | f + 1, h, s =>
    if h = 0 then s
    else
      let w := ctrGet s part h
      if ctrCount w = 0 then s
      else
        let s1 := ctrPut s part h (setBits w 31 0 (ctrCount w - 1))
        if ctrCount w = 1 then
          let s2 := ctrSub part f (ctrParent w) s1
          if ctrLevel w = 1 then ctrSub part f (ctrPhase w) s2 else s2
        else s1

def ctrDone (s : State) (part h : Nat) : State := ctrSub part 6 h s

/-- R23, R273: the job at the root of a counter. -/
def ctrRoot (s : State) (part : Nat) : Nat → Nat → Nat
  | 0, h => h
  | f + 1, h =>
    let w := ctrGet s part h
    if ctrLevel w = 4 || ctrParent w = 0 then h else ctrRoot s part f (ctrParent w)

/-- R26: whether a counter is at or under another: itself, or through its parents or its phase. -/
def ctrUnder (s : State) (part top : Nat) : Nat → Nat → Bool
  | 0, _ => false
  | f + 1, h =>
    if h = 0 then false
    else if h = top then true
    else
      let w := ctrGet s part h
      if ctrLevel w ≥ 5 then false
      else ctrUnder s part top f (ctrParent w) || (ctrLevel w = 1 && ctrUnder s part top f (ctrPhase w))

/-! ### Endpoints (R31) -/

/-- R31, R208: the address of an endpoint entry under PT_KCTX. -/
def endpointVa (s : State) (part h : Nat) : Nat :=
  va64 (nbits (s.part part).epbase.toNat 56 16 * 2 ^ 16) + 16 * h

/-- R31: an endpoint entry as one number, read under PT_KCTX by an agent. -/
def endpointGet (s : State) (x : XCtx) (h : Nat) : Option Nat × State :=
  match readVirt s x (endpointVa s x.part h) 16 .read with
  | (.ok (bs, _), t) => (some (leToNat bs), t)
  | (_, t) => (none, t)

def epMbox (w : Nat) : Nat := va64 (nbits w 120 76 * 4096)
def epState (w : Nat) : Nat := nbits w 63 62
def epRegion (w : Nat) : Nat := nbits w 61 52
def epSlot (w : Nat) : Nat := nbits w 51 49
def epGen (w : Nat) : Nat := nbits w 31 0

/-- R31: the low word of an entry written; a failed write is lost. -/
def endpointPut (s : State) (x : XCtx) (h low : Nat) : State :=
  (writeVirt s x (endpointVa s x.part h) (natToLe low 8) true).2

/-- R31: STATE of an entry written by hardware. -/
def endpointState (s : State) (x : XCtx) (h st : Nat) : State :=
  if h = 0 then s
  else match endpointGet s x h with
    | (some w, t) => endpointPut t x h (setBits (w % 2 ^ 64) 63 62 st)
    | (none, t) => t

/-- The PT_KCTX context of a region's sequencer. -/
def regionKctx (s : State) (r : Nat) : XCtx :=
  kernelCtx s (s.region r).part (regionCoord s r 3) r

/-- The PT_KCTX context of a core. -/
def coreKctx (s : State) (c : CoreId) : XCtx :=
  kernelCtx s (s.partOf c) (s.agent c) (match c with
    | .seq r _ => r
    | .stew x => chipWalker x)

/-! ### Mailboxes (R32) -/

/-- R32: the two indices of a mailbox page under a region's PT_CTX. -/
def mboxIndices (s : State) (x : XCtx) (mbox : Nat) : Option (Nat × Nat) × State :=
  match readVirt s x mbox 16 .read with
  | (.ok (bs, _), t) => (some (leToNat (bs.take 8), leToNat (bs.drop 8)), t)
  | (_, t) => (none, t)

/-- R32: whether the mailbox page of an endpoint may hold messages that its page, when it cannot be read, does
not show: messages were left in it, or written to it, and not moved since. -/
def boxHolds (s : State) (part h : Nat) : Bool := mapGet false s.boxes (4096 * part + h)

/-- R32: what is known of a mailbox page once its indices have been read. -/
def noteBox (s : State) (part h : Nat) : Option (Nat × Nat) → State
  | none => s
  | some (w, rd) => { s with boxes := mapSet false s.boxes (4096 * part + h) (decide (w ≠ rd)) }

/-- R32, R39: the context under which the mailbox of a task of a partition is translated, by the STATE of its entry:
its region's PT_CTX, and for a task that is not placed the one saved with it, whatever the region runs now. -/
def mailCtx (s : State) (r part st : Nat) : XCtx :=
  let c := regionCtx s r (regionCoord s r 3)
  match if st = 2 then s.saves.find? fun x => x.live && x.region = r && x.part = part else none with
  | none => c
  | some x => { c with part := x.part, cid := ctxCid x.ctx, root := ctxRoot x.ctx }

/-- R32: messages of a mailbox page moved into the receive queue, in page order; a failed move leaves
them. The first argument bounds the moves. -/
def mboxMove (x : XCtx) (r slot mbox : Nat) : Nat → State → State
  | 0, s => s
  | f + 1, s =>
    match mboxIndices s x mbox with
    | (none, t) => t
    | (some (w, rd), t) =>
      if w = rd || (t.region r).queue.length ≥ 16 then t
      else
        match readVirt t x (mbox + 0x40 + 32 * (rd % 126)) 32 .read with
        | (.ok (bs, _), t1) =>
          let m : Message :=
            { slot := slot
              payload := (upTo 3).map fun i => BitVec.ofNat 64 (leToNat ((bs.drop (8 * i)).take 8))
              sender := BitVec.ofNat 64 (leToNat ((bs.drop 24).take 8)) }
          match writeVirt t1 x (mbox + 8) (natToLe ((rd + 1) % 2 ^ 64) 8) true with
          | (.ok _, t2) =>
            let g := t2.region r
            mboxMove x r slot mbox f (t2.setRegion r { g with queue := g.queue ++ [m] })
          | (_, t2) => t2
        | (_, t1) => t1

/-- R32: MAILBOX_MOVE of a task that runs: its page is found through its endpoint. -/
def mailboxMove (s : State) (r slot : Nat) : State :=
  let h := ((s.region r).task slot).endpoint
  if h = 0 then s
  else match endpointGet s (regionKctx s r) h with
    | (none, t) => t
    | (some w, t) =>
      let y := mailCtx t r (t.region r).part 1
      let u := mboxMove y r slot (epMbox w) 17 t
      let ix := mboxIndices u y (epMbox w)
      noteBox ix.2 y.part h ix.1

/-- R32, R275: a message placed: its status code and SENDST, under the sender's PT_KCTX context. -/
def sendMessage (s : State) (x : XCtx) (h : Nat) (payload : List Word) (sender : Word) : Nat × Nat × State :=
  if h = 0 then (stBADHANDLE, 4, s)
  else match endpointGet s x h with
    | (none, t) => (stBADHANDLE, 5, t)
    | (some w, t) =>
      let r := epRegion w
      if epState w = 0 || r > 639 then (stBADHANDLE, 4, t)
      else if epState w = 3 then (stDEADDEST, 3, t)
      else
        let y := mailCtx t r x.part (epState w)
        let t0 := if epState w = 1 then mboxMove y r (epSlot w) (epMbox w) 17 t else t
        let (ix, t00) := mboxIndices t0 y (epMbox w)
        let t1 := noteBox t00 x.part h ix
        let empty := match ix with
          | none => !boxHolds t1 x.part h
          | some (a, b) => a = b
        let g := t1.region r
        if epState w = 1 && empty && g.queue.length < 16 then
          (stOK, 0, t1.setRegion r { g with
            queue := g.queue ++ [{ slot := epSlot w, payload := payload, sender := sender }] })
        else match ix with
          | none => (stBADHANDLE, 5, t1)
          | some (a, b) =>
            if (a + 2 ^ 64 - b) % 2 ^ 64 ≥ 126 then (stFULL, 2, t1)
            else
              let bytes := (payload ++ [sender]).flatMap fun v => natToLe v.toNat 8
              match writeVirt t1 y (epMbox w + 0x40 + 32 * (a % 126)) bytes true with
              | (.ok _, t2) =>
                match writeVirt t2 y (epMbox w) (natToLe ((a + 1) % 2 ^ 64) 8) true with
                | (.ok _, t3) => (stSPILL, 1, noteBox t3 x.part h (some (1, 0)))
                | (_, t3) => (stBADHANDLE, 5, t3)
              | (_, t2) => (stBADHANDLE, 5, t2)

/-- R351: an event of a region to the endpoint in SQ_EVEP; its sender word has bit 62 set. -/
def sendEvent (s : State) (r : Nat) (w0 w1 w2 : Nat) : State :=
  let h := (s.region r).evep.toNat
  if h = 0 then s
  else (sendMessage s (regionKctx s r) h
    [BitVec.ofNat 64 w0, BitVec.ofNat 64 w1, BitVec.ofNat 64 w2] (BitVec.ofNat 64 (2 ^ 62))).2.2

end Sys2Proof.Machine
end

