-- ==== Sys2Proof/Machine/Ops.lean ====
section
/-! DEFINITION. The named operations of the control cores: taking an exception and returning from one
(R340 to R344), accesses of a task to memory (R235, R236, R242), the stores that leave a core
(R111, R117, R118), fences and their word (R117 to R119, R239). -/

namespace Sys2Proof.Machine

/-- An answer carried over to another kind of answer. -/
def Acc.map {α β : Type} (f : α → β) : Acc α → Acc β
  | .ok x => .ok (f x)
  | .xlate c a => .xlate c a
  | .unreach d a => .unreach d a
  | .memerr l a => .memerr l a
  | .bank r e b => .bank r e b
  | .held => .held

/-! ### Taking an exception (R340 to R344) -/

/-- The codes of R340. -/
def tcILLEGAL : Nat := 1
def tcPRIV : Nat := 2
def tcALIGN : Nat := 3
def tcXLATE : Nat := 4
def tcBADLINK : Nat := 5
def tcUNREACH : Nat := 6
def tcMEMERR : Nat := 7
def tcTRAP : Nat := 8
def tcHCALL : Nat := 9
def tcTAIL : Nat := 10
def tcDOUBLE : Nat := 11
def tcSPILL : Nat := 16
def tcFLR : Nat := 17
def tcALARM : Nat := 18

/-- What a trap leaves in its record: code and INFO, PC and VAL (R340, R341). -/
structure Trap where
  code : Nat
  info : Nat
  pc : Word
  val : Word
  deriving DecidableEq, Repr

/-- R341: xCAUSE on entry from a level. -/
def causeWord (t : Trap) (lvl : Level) : Word :=
  BitVec.ofNat 64 (2 ^ 63 + lvl.num * 2 ^ 61 + t.info % 2 ^ 16 * 2 ^ 32 + t.code % 2 ^ 8)

/-- R341: LIVE of a record. -/
def isLive (cause : Word) : Bool := cause.getLsbD 63

/-- R342: the address of the K handler of a partition. -/
def kVector (s : State) (part : Nat) : Word := BitVec.ofNat 64 (va64 (nbits (s.part part).kvec.toNat 56 2 * 4))

/-- R342: the address of the H handler of a steward core. -/
def hVector (s : State) (c : Nat) : Word := BitVec.ofNat 64 (nbits (s.stew c).hvec.toNat 51 2 * 4)

/-- R343: entry to level K. -/
def takeK (s : State) (t : Trap) : State :=
  let m := s.me
  s.setMe { m with kcause := causeWord t m.level, kpc := t.pc, kval := t.val, level := .k
                   pc := kVector s (s.partOf s.cur), hold := .ready }

/-- R343: entry to level H on a steward core. -/
def takeH (s : State) (c : Nat) (t : Trap) : State :=
  let x := s.stew c
  s.setStew c { x with hcause := causeWord t x.task.level, hpc := t.pc, hval := t.val
                       task := { x.task with level := .h, pc := hVector s c, hold := .ready } }

/-- R190, R344: the address of the status page of a partition, if it has one. -/
def statusPage (s : State) (p : Nat) : Option Nat := (boxBase s p).map (· + 0x2000)

/-- R190: STATE of a partition: the word of its status page once PT_HMBX names one. -/
def partState (s : State) (p : Nat) : Nat :=
  match statusPage s p with
  | none => (s.part p).state
  | some a => leToNat (s.bytes a 4)

/-- R188, R190: STATE written, and on a transition into Failed its reason; a change sends vector 2. -/
def setPartState (s : State) (p st reason : Nat) : State :=
  let old := partState s p
  let t := s.setPart p { s.part p with state := st, reason := if st = 4 then reason else (s.part p).reason }
  let u := match statusPage t p with
    | none => t
    | some a =>
      let t1 := t.write a (natToLe st 4)
      if st = 4 then t1.write (a + 4) (natToLe reason 4) else t1
  if old = st then u else sendVector u p 2

/-- R344: a double trap at H: the core stops, and every virtual function shows Failed, reason 3. -/
def stopHypervisor (s : State) (c : Nat) : State :=
  let x := s.stew c
  let t := s.setStew c { x with task := { x.task with hold := .stopped } }
  (upTo 64).foldl (fun u p => setPartState u p 4 3) t

/-- R344: a double trap on a sequencer: the task is held and a DOUBLE event is sent. -/
def holdDoubled (s : State) (r slot : Nat) : State :=
  sendEvent (s.holdMe .doubled) r (3 + r * 2 ^ 8) slot 0

/-- R344: whether a precise trap of the current task is a DOUBLE instead. -/
def State.doubles (s : State) (toH : Bool) : Bool :=
  match s.cur with
  | .seq _ _ => s.me.level = .k && isLive s.me.kcause
  | .stew c =>
    if s.me.level = .h then isLive (s.stew c).hcause else !toH && s.me.level = .k && isLive s.me.kcause

/-- R343, R344: a precise trap of the current task to K, or to H for a hypervisor call and for a trap
at H (notes/assumptions/13.md). -/
def State.take (s : State) (t : Trap) (toH : Bool) : State :=
  let m := s.me
  match s.cur with
  | .seq r n =>
    if m.level = .k && isLive m.kcause then fireSnapshot (holdDoubled s r n) 2 else takeK s t
  | .stew c =>
    if m.level = .h then
      if isLive (s.stew c).hcause then fireSnapshot (stopHypervisor s c) 2 else takeH s c t
    else if toH then takeH s c t
    else if m.level = .k && isLive m.kcause then
      fireSnapshot (takeH s c { code := tcDOUBLE, info := 0, pc := m.pc, val := m.kcause }) 2
    else takeK s t

/-- A precise trap at the instruction of the current task. -/
def State.trap (s : State) (code info : Nat) (val : Word) : State :=
  s.take { code := code, info := info, pc := s.me.pc, val := val } false

/-- R340: the instruction word, zero-extended. -/
def wordOfInstr (i : Instr) : Word := BitVec.ofNat 64 (encode i % 2 ^ 32)

/-- R206: ILLEGAL at the instruction i. -/
def State.illegal (s : State) (i : Instr) : State := s.trap tcILLEGAL 0 (wordOfInstr i)

/-- R206: PRIV at the instruction i. -/
def State.priv (s : State) (i : Instr) : State := s.trap tcPRIV 0 (wordOfInstr i)

/-- R343: tret: the level and the pc of the record of the current level; ILLEGAL when there is none to
return from. -/
def State.tret (s : State) : State :=
  let m := s.me
  match m.level, s.cur with
  | .u, _ => s.priv .tret
  | .k, _ =>
    let lvl := nbits m.kcause.toNat 62 61
    if !isLive m.kcause || decide (lvl > 1) then s.illegal .tret
    else s.setMe { m with kcause := m.kcause &&& ~~~ (1#64 <<< 63), level := Level.ofNum lvl, pc := m.kpc }
  | .h, .seq _ _ => s.illegal .tret
  | .h, .stew c =>
    let x := s.stew c
    let lvl := nbits x.hcause.toNat 62 61
    if !isLive x.hcause || decide (lvl > 2) then s.illegal .tret
    else s.setStew c { x with hcause := x.hcause &&& ~~~ (1#64 <<< 63)
                              task := { m with level := Level.ofNum lvl, pc := x.hpc } }

/-- R206: a sequencer-only instruction runs on a sequencer; on a steward core it is ILLEGAL. -/
def onSequencer (s : State) (i : Instr) (f : Nat → Nat → State) : State :=
  match s.cur with
  | .seq r n => f r n
  | .stew _ => s.illegal i

/-- R206: a steward-only instruction. -/
def onSteward (s : State) (i : Instr) (f : Nat → State) : State :=
  match s.cur with
  | .seq _ _ => s.illegal i
  | .stew c => f c

/-- R206: an instruction runs at its level or above; below it is PRIV. -/
def atLevel (s : State) (i : Instr) (l : Level) (f : State) : State :=
  if s.me.level.num < l.num then s.priv i else f

/-- R37, R343: an asynchronous cause pending for H on the steward core of a chiplet. -/
def raiseH (s : State) (c code : Nat) (val : Word) : State :=
  let x := s.stew c
  if x.pending.contains (code, val) then s
  else s.setStew c { x with pending := x.pending ++ [(code, val)] }

/-- R37: the H cause SPILL for a region. -/
def raiseSpill (s : State) (r : Nat) : State :=
  raiseH s (regionChiplet r) tcSPILL (BitVec.ofNat 64 r)

/-- R356: what a failed access does to the instruction i: a precise trap, or, on a bank tagged with
another context, a hold and the cause SPILL (R37); one that waits for an earlier strongly ordered store leaves its
task at the instruction (R115). -/
def State.fail {α : Type} (s : State) (i : Instr) : Acc α → State
  | .ok _ => s
  | .xlate c va => s.trap tcXLATE c (BitVec.ofNat 64 va)
  | .unreach _ va => s.trap tcUNREACH 0 (BitVec.ofNat 64 va)
  | .memerr l va =>
    let t := s.trap tcMEMERR l (BitVec.ofNat 64 va)
    if s.doubles false then t else fireSnapshot t 2
  | .bank r _ _ => raiseSpill (s.holdMe (.wait i)) r
  | .held => s

/-! ### Reads of a task -/

/-- The first out-of-range byte of n RSM bytes (R86, R87). -/
def rsmFirstOut (r : Region) (a n : Nat) : Option Nat :=
  ((upTo n).map fun i => (a + i) % 2 ^ 27).find? fun b => !elmReach r (rsmElem b) (rsmOff b)

/-- R87: an out-of-range address of the current task, if any. -/
def State.oorMe (s : State) (lvl : Nat) (wr : Bool) : Option Nat → State
  | none => s
  | some a => s.setMe (s.me.oorAt lvl wr a)

/-- R115, R237: the scope at which an access of the current task to a strongly ordered page is ordered. -/
def orderScope (s : State) (code pa : Nat) : Nat := if code ≠ 0 then code else autoScope s (s.agent s.cur) pa

/-- R115: a strongly ordered store of a core that has not performed at a scope. -/
def strongPending (s : State) (c : CoreId) (scope : Nat) : Bool :=
  s.stores.any fun p => p.strong && p.issuer = .core c && decide (p.reached < scope)

/-- R115: whether a read of pieces by the current task, at the scope it names, waits for earlier strongly
ordered stores. -/
def waitsStrong (s : State) (l : List Piece) (code : Nat) : Bool :=
  l.any fun p => pteOrd p.leaf = 1 && strongPending s s.cur (orderScope s code p.pa)

/-- R235, R236: a read of n bytes by the current task, with the scope code it names (R237). -/
def coreRead (s : State) (va n : Nat) (k : Access) (code : Nat := 0) : Acc (List Byte) × State :=
  match s.cur, isRsm va with
  | .seq r _, true =>
    if k = .fetch then (.xlate (xcode 5 0 .fetch) va, s)
    else
      match readRsm s r (va % 2 ^ 27) n with
      | (.ok (bs, _), t) => (.ok bs, t.oorMe 2 false (rsmFirstOut (s.region r) (va % 2 ^ 27) n))
      | (.memerr l _, t) => (.memerr l va, t)
      | (e, t) => (e.map fun x => x.1, t)
  | _, _ =>
    match pieces s (coreCtx s s.cur) va n k true with
    | (.ok l, t) =>
      if waitsStrong t l code then (.held, t)
      else match readPieces (s.agent s.cur) (s.partOf s.cur) l t with
        | (.ok bs, t') => (.ok bs, t'.oorMe 3 false (oorPiece t l))
        | (e, t') => (e, t')
    | (e, t) => (e.failed [], t)

/-! ### Stores of a task (R111, R117, R118) -/

/-- The scope below which a store of a core has performed when it leaves the core. -/
def firstScope (c : CoreId) : Nat := coreLevel c - 1

/-- Cells of consecutive bytes. -/
def cellsFrom (own a : Nat) : List Byte → List (Nat × Byte)
  | [] => []
  | b :: bs => (canonPa own a, b) :: cellsFrom own (a + 1) bs

/-- R117, R366, R367: a failed store counted at its issuer. -/
def countFailure (s : State) (who : Issuer) (dead : Bool) : State :=
  match who with
  | .core c =>
    let t := s.task c
    s.setTask c { t with nfail := satInc t.nfail 255, deadlink := t.deadlink || dead
                         refused := t.refused || !dead }
  | _ => s

/-- One piece of a store of the current task, with the scope code it names: dropped in a CSP hole (R86), failed
at once on a dead route (R367), otherwise on its way to its home. What an atomic writes has its place among the
stores to its bytes (R114), on an unordered page too. -/
def issuePiece (s : State) (p : Piece) (bs : List Byte) (code : Nat := 0) (placed : Bool := false) : State :=
  if pieceHole s p then s
  else if routeDead s p.pa then countFailure s (.core s.cur) true
  else
    let q : PStore :=
      { cells := cellsFrom s.pkg.toNat p.pa bs, addr := canonPa s.pkg.toNat p.pa, issuer := .core s.cur
        agent := s.agent s.cur, part := s.partOf s.cur, reached := firstScope s.cur, strong := pteOrd p.leaf = 1
        scope := orderScope s code p.pa, unordered := pteOrd p.leaf = 2 && !placed, readers := [] }
    { s with stores := q :: s.stores }

def issuePieces (code : Nat) (placed : Bool) : List Piece → List Byte → State → State
  | [], _, s => s
  | p :: r, bs, s => issuePieces code placed r (bs.drop p.n) (issuePiece s p (bs.take p.n) code placed)

/-- R235: a store of the current task, with the scope code it names (R237): every page is translated before any
byte performs. A table entry whose home cannot be reached fails the store as a dead route or a refusal does
(R356, R363); a spill of a register window traps there, and where the route to its home is dead (R233, R244). -/
def coreWrite (s : State) (va : Nat) (bs : List Byte) (code : Nat := 0) (spills : Bool := false) : Acc Unit × State :=
  match s.cur, isRsm va with
  | .seq r _, true =>
    match writeRsm s r (va % 2 ^ 27) bs with
    | (.ok _, t) => (.ok (), t.oorMe 2 true (rsmFirstOut (s.region r) (va % 2 ^ 27) bs.length))
    | (.memerr _ _, t) => (.ok (), countFailure t (.core s.cur) false)
    | (e, t) => (e.map fun _ => (), t)
  | _, _ =>
    match pieces s (coreCtx s s.cur) va bs.length .write true with
    | (.ok l, t) => match if spills then l.find? (fun p => !pieceHole t p && routeDead t p.pa) else none with
      | some p => (.unreach true p.va, t)
      | none => (.ok (), (issuePieces code false l bs t).oorMe 3 true (oorPiece t l))
    | (.unreach dead a, t) => if spills then (.unreach dead a, t) else (.ok (), countFailure t (.core s.cur) dead)
    | (e, t) => (e.failed (), t)

/-- R242: a read-modify-write of n bytes by the current task: the old value; it performs at the line's
serialisation point, and the written bytes go on to their home as a store does. The function answers
none where nothing is written (a cas whose comparison fails, R114). -/
def coreAtomic (s : State) (va n : Nat) (f : Nat → Option Nat) (code : Nat := 0) : Acc Nat × State :=
  match s.cur, isRsm va with
  | .seq r _, true =>
    match readRsm s r (va % 2 ^ 27) n with
    | (.ok (bs, _), t) =>
      let old := leToNat bs
      match f old with
      | none => (.ok old, t.oorMe 2 true (rsmFirstOut (s.region r) (va % 2 ^ 27) n))
      | some v =>
        match writeRsm t r (va % 2 ^ 27) (natToLe v n) with
        | (.ok _, t') => (.ok old, t'.oorMe 2 true (rsmFirstOut (s.region r) (va % 2 ^ 27) n))
        | (e, t') => (e.map fun _ => 0, t')
    | (.memerr l _, t) => (.memerr l va, t)
    | (e, t) => (e.map fun _ => 0, t)
  | _, _ =>
    match pieces s (coreCtx s s.cur) va n .atomic true with
    | (.ok l, t) =>
      if waitsStrong t l code then (.held, t)
      else
        let (later, t0) := holdBacks (s.agent s.cur) l t
        match readPieces (s.agent s.cur) (s.partOf s.cur) l t0 with
        | (.ok bs, t') =>
          let old := leToNat bs
          let u := match f old with
            | none => t'
            | some v => issuePieces code true l (natToLe v n) t'
          (.ok old, { u with stores := later ++ u.stores }.oorMe 3 true (oorPiece t l))
        | (e, t') => (e.failed 0, { t' with stores := later ++ t'.stores })
    | (e, t) => (e.failed 0, t)

/-- The scope that code 0 names (R217, R115) for an access of the current task at an address, or the
scope named. -/
def scopeAt (s : State) (code va : Nat) (k : Access) : Nat :=
  if code ≠ 0 then code
  else match s.cur, isRsm va with
    | .seq r _, true => lca (s.agent s.cur) (elemCoord s r (rsmElem (va % 2 ^ 27)) 1)
    | _, _ => match xlate s (coreCtx s s.cur) va k false with
      | (.ok pa _, _) => autoScope s (s.agent s.cur) pa
      | _ => 7

/-- The code under which an access names a capped scope: LANE and ELEM have one point of coherence (R111), and code 0
stands for `auto`. -/
def scopeCode (scope : Nat) : Nat := max 1 scope

/-- R17: the scope capped for the current task, and whether the cap changed it. -/
def capMe (s : State) (scope : Nat) : Nat × Bool := capScope s (s.partOf s.cur) scope

/-- R17, R224: CAPPED in the task status register. -/
def State.markCapped (s : State) (c : Bool) : State :=
  if c then s.setMe { s.me with capped := true } else s

/-! ### Fences (R117 to R119, R239) -/

/-- R117: whether a store of a core has not yet performed at a scope. -/
def storesPending (s : State) (c : CoreId) (scope : Nat) : Bool :=
  s.stores.any fun p => p.issuer = .core c && decide (p.reached < scope)

/-- R117, R239: whether a fence at a scope has nothing to wait for. -/
def fenceOver (s : State) (c : CoreId) (scope : Nat) : Bool :=
  decide (scope < coreLevel c) || !storesPending s c scope

/-- R118: the lowest scope at which every pending store of a core has performed. -/
def reachedScope (s : State) (c : CoreId) (scope : Nat) : Nat :=
  s.stores.foldl (fun m p => if p.issuer = .core c then min m p.reached else m) scope

/-- R117: the fence status word. -/
def fenceWord (t : Task) (reached : Nat) (timeout capped : Bool) : Word :=
  BitVec.ofNat 64
    (reached * 2 ^ 16 + min t.nfail 255 * 2 ^ 8 + (if timeout then 16 else 0) + (if capped then 8 else 0) +
      (if t.refused then 4 else 0) + (if t.deadlink then 2 else 0) +
      (if !t.deadlink && !t.refused && !timeout then 1 else 0))

/-- R117, R240: a fence or release completes: its word goes to d, and the counts start again. -/
def State.endRelease (s : State) (d : BitVec 5) (scope : Nat) (capped timeout : Bool) : State :=
  let m := s.me
  let w := fenceWord m (if timeout then reachedScope s s.cur scope else scope) timeout capped
  s.setMe { (m.set d w) with pc := m.pc + 4, hold := .ready, nfail := 0, refused := false, deadlink := false }

/-- R113, R116: a fence of a core orders before what follows its unordered stores that have performed at the fence's
scope, and the unordered stores that its agent has read: their places are settled, those of its own stores that are
open in an order that is left open. -/
def State.settle (s : State) (c : CoreId) (scope : Nat) : State :=
  let own (p : PStore) : Bool := p.unordered && p.issuer = .core c && decide (scope ≤ p.reached)
  let sel (p : PStore) : Bool := own p && p.floating
  let fix (p : PStore) : PStore :=
    if own p || (p.unordered && p.readers.contains (s.agent c)) then { p with unordered := false } else p
  if (s.stores.filter sel).length ≤ 1 then { s with stores := s.stores.map fix }
  else
    let (x, t) := s.takeFree
    { t with stores := (shuffle sel x s.stores).1.map fix }

/-- R117, R239: a fence or fence.lca completes. One below the core's level orders the task's own accesses and has
waited for no store; it reports the failures counted as every fence does (R356, R367; DEDUCED,
notes/assumptions/39.md). -/
def State.endFence (s : State) (d : BitVec 5) (scope : Nat) (capped timeout : Bool) : State :=
  if scope < coreLevel s.cur then (s.settle s.cur 0).endRelease d scope capped false
  else (s.settle s.cur scope).endRelease d scope capped timeout

/-- R119: PT_FENCETO.LIMIT of the current task's partition. -/
def fenceLimit (s : State) : Nat := (s.part (s.partOf s.cur)).fenceto.toNat

/-- The current task waits at the instruction i for its earlier stores at a scope, or `f` goes on at
once. -/
def releaseWait (s : State) (i : Instr) (scope : Nat) (capped : Bool) (f : State → State) : State :=
  if fenceOver s s.cur scope then f s
  else s.holdMe (.fence i scope capped (fenceLimit s) s.tick)

/-! ### Stores performing (R111, R366, R367) -/

/-- The pending store at an index, oldest last. -/
def storeAt (s : State) (i : Nat) : Option PStore := s.stores[i]?

/-- R115: an older strongly ordered store of the same issuer that has not performed where the store would at an
event's scope, as far as the scope that the later store names orders the two. -/
def strongBefore (s : State) (i scope : Nat) (p : PStore) : Bool :=
  p.strong && (s.stores.drop (i + 1)).any fun q =>
    q.strong && q.issuer = p.issuer && decide (q.reached < min (sameScope (homeScope s p.addr) scope) p.scope)

/-- R116: whether a store has no order after another: the place of that one is open, and the two are of different
agents or both on unordered pages. -/
def noOrder (p q : PStore) : Bool := q.floating && (p.unordered || p.issuer ≠ q.issuer)

/-- R112, R361: whether an older store on its way that is ordered before the one at an index covers a range whole, and
so will clear its mark first. -/
def coveredBefore (s : State) (i : Nat) (p : PStore) (r : Nat × Nat) : Bool :=
  (s.stores.drop (i + 1)).any fun q => q.issuer = p.issuer && !noOrder p q && q.covers r

/-- R361: the poisoned units into which a pending store would be merged. -/
def mergedUnits (s : State) (p : PStore) : List (Nat × Nat) :=
  s.poison.filterMap fun u => match unitRange s u.1 with
    | none => none
    | some r => if p.touches r.1 r.2 && !p.covers r then some r else none

/-- Whether the home refuses the pending store at an index (R361, R366). -/
def storeRefusedAt (s : State) (i : Nat) (p : PStore) : Bool :=
  homeRefuses s p.part p.addr || (mergedUnits s p).any fun r => !coveredBefore s i p r

/-- R112: whether the pending store at an index waits for an older one that clears the mark of its unit. -/
def storeWaits (s : State) (i : Nat) (p : PStore) : Bool := (mergedUnits s p).any (coveredBefore s i p)

/-- R358: a host line that is written back takes along its other poisoned units: the request is marked, and they
leave the device. -/
def writeBack (s : State) (a : Nat) : State :=
  match s.place a with
  | .host _ =>
    let gone := (upTo 8).filter fun k => mapGet false s.poison (cacheUnit (a / 64 * 64 + 8 * k))
    { s with epSent := s.epSent ++ gone.map fun k => a / 64 * 64 + 8 * k
             poison := gone.foldl (fun m k => mapSet false m (cacheUnit (a / 64 * 64 + 8 * k)) false) s.poison }
  | _ => s

/-- The bytes of a pending store at their home; older pending stores to them are superseded, but those without
order against it (R116). -/
def performHome (s : State) (i : Nat) (p : PStore) : State :=
  let before := s.stores.drop (i + 1)
  let older := before.map fun q =>
    if noOrder p q then q else { q with cells := q.cells.filter fun c => !(p.cells.any fun d => d.1 = c.1) }
  writeBack { s with
    mem := p.cells.foldl (fun m c => memSet m c.1 (storedByte s (before.filter fun q => !noOrder p q) c.1 c.2)) s.mem
    poison := unpoison s p.covers
    stores := s.stores.take i ++ older } p.addr

/-- R111: the store at index i has performed at a scope. One whose place is open (R116) takes the newest when it first
performs outside its core. -/
def performAt (s : State) (i scope : Nat) (p : PStore) : State :=
  let at_ := sameScope (homeScope s p.addr) scope
  let q := { p with reached := max p.reached at_ }
  let (t, k) := if p.floating && decide (3 ≤ at_) then ({ s with stores := p :: dropAt s.stores i }, 0) else (s, i)
  if at_ = 7 then performHome t k p else { t with stores := setAt t.stores k q }

/-- R118, R366, R367: the store at index i is withdrawn and counted. -/
def withdraw (s : State) (i : Nat) (p : PStore) (dead : Bool) : State :=
  countFailure { s with stores := dropAt s.stores i } p.issuer dead

end Sys2Proof.Machine
end

