-- ==== Sys2Proof/Machine/Operands.lean ====
section
/-! DEFINITION. The operands of instructions: the widths, types and immediates of the S-form
(R201, R205, R225) and the register, stream and immediate operands of the E-form (R139, R141, R211,
R289). -/

namespace Sys2Proof.Machine

/-! ### S-form -/

/-- R205: the width that fn[8:7] names in an integer operation. -/
def intWidth (w : BitVec 2) : Nat :=
  match w.toNat with
  | 0 => 64
  | 1 => 32
  | 2 => 16
  | _ => 8

/-- R225: the low W bits of a register, read signed or unsigned. -/
def regInt (x : Word) (w : Nat) (uns : Bool) : Int := intRead w uns x.toNat

/-- R225: a W-bit result extended to 64 bits. -/
def extendTo64 (w : Nat) (uns : Bool) (r : Nat) : Word :=
  if uns then BitVec.ofNat 64 (r % 2 ^ w) else BitVec.ofInt 64 (intRead w false r)

/-- R201: a sign-extended immediate. -/
def sextImm {n : Nat} (i : BitVec n) : Word := i.signExtend 64

/-- R201: a zero-extended immediate. -/
def zextImm {n : Nat} (i : BitVec n) : Word := i.setWidth 64

/-- R201: the target of a branch. -/
def branchTarget (pc : Word) (o : BitVec 20) : Word := pc + 4 * sextImm o

/-- R234: the effective address of a load or store. -/
def effAddr (s : State) (a : BitVec 5) (i : BitVec 12) : Nat := (s.reg a + sextImm i).toNat

/-- R205, R238: bytes of the width that fn[9:8] names in ldacq and strel. -/
def acqBytes (w : BitVec 2) : Nat := 2 ^ w.toNat

/-- R205, R241: bytes of an atomic's width; the field keeps bit 8 of fn (2 is 32 bits, 3 is 64). -/
def amoBytes (w : BitVec 1) : Nat := if w = 0 then 4 else 8

/-! ### E-form: values in lanes (R286) -/

/-- R286: bits from one value to the next: an `.f64` value stands at the start of its lane group. -/
def stride (w : Nat) : Nat := if w = 64 then 128 else w

/-- R286: the values of width w of a v register, in lane order. -/
def valsOf (w : Nat) (x : BitVec 512) : List Nat :=
  (upTo (512 / stride w)).map fun i => x.toNat / 2 ^ (stride w * i) % 2 ^ w

/-- Values of width w, each s bits from the one before, as one number. -/
def packVals (s w : Nat) : List Nat → Nat
  | [] => 0
  | v :: r => v % 2 ^ w + 2 ^ s * packVals s w r

/-- R286: a v register from its values of width w; an `.f64` result writes zero to lanes 4g + 2 and
4g + 3. -/
def ofVals (w : Nat) (l : List Nat) : BitVec 512 := BitVec.ofNat 512 (packVals (stride w) w l)

/-- Lane j of a v register. -/
def laneOf (x : BitVec 512) (j : Nat) : Nat := x.toNat / 2 ^ (32 * j) % 2 ^ 32

/-- The bytes of a v register, lane 0 byte 0 first. -/
def regBytes (x : BitVec 512) : List Byte := natToLe x.toNat 64

/-- A v register from 64 bytes. -/
def ofBytes (bs : List Byte) : BitVec 512 := BitVec.ofNat 512 (leToNat (bs.take 64))

/-- R287: a stream or queue operand: a lane whose lane-valid bit is clear reads as zero. -/
def maskLanes (x : BitVec 512) (valid : BitVec 16) : BitVec 512 :=
  ofVals 32 ((upTo 16).map fun j => if valid.getLsbD j then laneOf x j else 0)

/-- R138, R141: the word that a queue entry gives as an operand or on a stream. -/
def QEntry.word (e : QEntry) (last : Bool) : SWord :=
  { data := ofBytes e.bytes, valid := e.token, last := last }

/-- What an op reads (R138, R287): its element, the fields of the register-address word (R211), the
stream or queue word that is operand b, the heads of the two load queues, and the region's codebooks
(R71). -/
structure OpIn where
  el : Element
  reg : Nat
  bword : Option SWord
  head0 : Option QEntry
  head1 : Option QEntry
  books : Map Codebook
  deriving DecidableEq, Repr

/-- R211: the fields of the register-address word. -/
def regVd (w : Nat) : Nat := nbits w 15 11
def regVa (w : Nat) : Nat := nbits w 10 6
def regVb (w : Nat) : Nat := nbits w 5 1
def regStream (w : Nat) : Bool := nbit w 0

def Element.vreg (e : Element) (r : Nat) : BitVec 512 := mapGet 0 e.v (r % 32)
def Element.qreg (e : Element) (r : Nat) : BitVec 16 := mapGet 0 e.q (r % 8)

def OpIn.vd (x : OpIn) : Nat := regVd x.reg
def OpIn.va (x : OpIn) : Nat := regVa x.reg
def OpIn.vb (x : OpIn) : Nat := regVb x.reg

/-- Operand a (R287). -/
def OpIn.a (x : OpIn) : BitVec 512 := x.el.vreg x.va

/-- Operand b (R287). -/
def OpIn.b (x : OpIn) : BitVec 512 :=
  match x.bword with
  | none => x.el.vreg x.vb
  | some w => maskLanes w.data w.valid

/-- The addend (R287): vd as it stands. -/
def OpIn.c (x : OpIn) : BitVec 512 := x.el.vreg x.vd

/-- The head of a load queue. -/
def OpIn.head (x : OpIn) (p : Nat) : Option QEntry := if p = 0 then x.head0 else x.head1

/-- R144: the guard of an op: all ones for code 7. -/
def OpIn.guard (x : OpIn) (g : BitVec 3) : BitVec 16 := if g = 7 then -1 else x.el.qreg g.toNat

/-- The codebook of a slot (R71). -/
def OpIn.book (x : OpIn) (slot : Nat) : Codebook := mapGet Codebook.none x.books slot

/-- What an op does (R138): its results with their latencies; out-of-range addresses (level, write,
address; R87); a push into a store queue; a token to the sequencer's count or through a port
(R312); a token latch it consumes; the lane-valid bits of a word it sends (R311). -/
structure OpOut where
  effs : List (Nat × Effect)
  oor : List (Nat × Bool × Nat)
  push : Option (Nat × QEntry)
  count : Bool
  send : Option Nat
  wait : Option Nat
  valid : BitVec 16
  deriving DecidableEq, Repr

/-- An op that does nothing. -/
def OpOut.nothing : OpOut :=
  { effs := [], oor := [], push := none, count := false, send := none, wait := none, valid := -1 }

/-- Flags as a result of an op (R60): they come with its last effect. -/
def flagEffs (lat : Nat) (f : Flags) : List (Nat × Effect) := if f = 0 then [] else [(lat, .flags f)]

/-- An op whose one result is register vd. -/
def OpIn.result (x : OpIn) (lat : Nat) (v : BitVec 512) (f : Flags) : OpOut :=
  { OpOut.nothing with effs := (lat, .v x.vd v) :: flagEffs lat f }

/-- An op whose one result is the guard register that vd names (R211). -/
def OpIn.resultQ (x : OpIn) (lat : Nat) (q : BitVec 16) (f : Flags) : OpOut :=
  { OpOut.nothing with effs := (lat, .q (x.vd % 8) q) :: flagEffs lat f }

/-- Whether a one-bit field is set. -/
def isSet (b : BitVec 1) : Bool := b = 1

/-- R296: `ovf=inf`, or the `satf` column of R53 when `sat` is 1. -/
def ovfOf (s : BitVec 1) : Bool := !isSet s

/-- The floating format of a lane type (R209, R286). -/
def fmtOfType (t : BitVec 3) : Fmt :=
  match t.toNat with
  | 3 => fmtF64
  | 4 => fmtF32
  | 5 => fmtF16
  | 6 => fmtBF16
  | 1 => .int 16 false
  | 2 => .int 8 false
  | _ => .int 32 false

end Sys2Proof.Machine
end

