-- ==== Sys2Proof/Machine/LoadStore.lean ====
section
/-! DEFINITION. Loads and stores (R234 to R237), acquire and release (R238), fences (R239), the ends of
their waits (R117, R119), and stores performing or being refused (R111, R366). -/

namespace Sys2Proof.Machine

/-- R234, R237: a load of n bytes into d, zero- or sign-extended, with the scope code it names. -/
def loadOp (i : Instr) (d : BitVec 5) (va n : Nat) (uns : Bool) (sc : BitVec 3) (s : State) : Out :=
  match coreRead s va n .read sc.toNat with
  | (.ok bs, t) => .next (t.retire 4 d (extendTo64 (8 * n) uns (leToNat bs)) 0)
  | (e, t) => .next (t.fail i e)

def execLdI8 (d a : BitVec 5) (i : BitVec 12) (sc : BitVec 3) (s : State) : Out :=
  loadOp (.ldI8 d a i sc) d (effAddr s a i) 1 false sc s
def execLdN8 (d a : BitVec 5) (i : BitVec 12) (sc : BitVec 3) (s : State) : Out :=
  loadOp (.ldN8 d a i sc) d (effAddr s a i) 1 true sc s
def execLdI16 (d a : BitVec 5) (i : BitVec 12) (sc : BitVec 3) (s : State) : Out :=
  loadOp (.ldI16 d a i sc) d (effAddr s a i) 2 false sc s
def execLdN16 (d a : BitVec 5) (i : BitVec 12) (sc : BitVec 3) (s : State) : Out :=
  loadOp (.ldN16 d a i sc) d (effAddr s a i) 2 true sc s
def execLdI32 (d a : BitVec 5) (i : BitVec 12) (sc : BitVec 3) (s : State) : Out :=
  loadOp (.ldI32 d a i sc) d (effAddr s a i) 4 false sc s
def execLdN32 (d a : BitVec 5) (i : BitVec 12) (sc : BitVec 3) (s : State) : Out :=
  loadOp (.ldN32 d a i sc) d (effAddr s a i) 4 true sc s
def execLdI64 (d a : BitVec 5) (i : BitVec 12) (sc : BitVec 3) (s : State) : Out :=
  loadOp (.ldI64 d a i sc) d (effAddr s a i) 8 false sc s

/-- R234, R237: a store of the low n bytes of d, with the scope code it names. -/
def storeOp (i : Instr) (d : BitVec 5) (va n : Nat) (sc : BitVec 3) (s : State) : Out :=
  match coreWrite s va (natToLe (s.reg d).toNat n) sc.toNat with
  | (.ok _, t) => .next (t.advance 4)
  | (e, t) => .next (t.fail i e)

def execStI8 (d a : BitVec 5) (i : BitVec 12) (sc : BitVec 3) (s : State) : Out :=
  storeOp (.stI8 d a i sc) d (effAddr s a i) 1 sc s
def execStI16 (d a : BitVec 5) (i : BitVec 12) (sc : BitVec 3) (s : State) : Out :=
  storeOp (.stI16 d a i sc) d (effAddr s a i) 2 sc s
def execStI32 (d a : BitVec 5) (i : BitVec 12) (sc : BitVec 3) (s : State) : Out :=
  storeOp (.stI32 d a i sc) d (effAddr s a i) 4 sc s
def execStI64 (d a : BitVec 5) (i : BitVec 12) (sc : BitVec 3) (s : State) : Out :=
  storeOp (.stI64 d a i sc) d (effAddr s a i) 8 sc s

/-! ### Acquire and release (R238) -/

/-- ALIGN at an address (R238, R241, R280). -/
def State.misaligned (s : State) (va : Nat) : State := s.trap tcALIGN 0 (BitVec.ofNat 64 va)

def execLdacq (d a : BitVec 5) (w : BitVec 2) (u : BitVec 1) (sc : BitVec 3) (s : State) : Out :=
  let va := (s.reg a).toNat
  let n := acqBytes w
  if va % n ≠ 0 then .next (s.misaligned va)
  else
    let cap := capMe s (scopeAt s sc.toNat va .read)
    match coreRead s va n .read (scopeCode cap.1) with
    | (.ok bs, t) =>
      .next ((t.retire 4 d (extendTo64 (8 * n) (u = 1) (leToNat bs)) 0).markCapped cap.2)
    | (e, t) => .next (t.fail (.ldacq d a w u sc) e)

/-- R238: the release store is issued after the first wait, and drains. -/
def issueRelease (i : Instr) (d b : BitVec 5) (va n scope : Nat) (capped : Bool) (limit since : Nat)
    (s : State) : State :=
  match coreWrite s va (natToLe (s.reg b).toNat n) (scopeCode scope) with
  | (.ok _, t) =>
    if fenceOver t t.cur scope then t.endRelease d scope capped false
    else t.holdMe (.strel d scope capped limit since)
  | (e, t) => t.fail i e

def execStrel (d a b : BitVec 5) (w : BitVec 2) (sc : BitVec 3) (s : State) : Out :=
  let va := (s.reg a).toNat
  let n := acqBytes w
  let i := Instr.strel d a b w sc
  if va % n ≠ 0 then .next (s.misaligned va)
  else
    let cap := capMe s (scopeAt s sc.toNat va .write)
    match s.cur, isRsm va with
    | .seq _ _, true =>
      .next (releaseWait s i cap.1 cap.2 fun t => issueRelease i d b va n cap.1 cap.2 (fenceLimit t) t.tick t)
    | _, _ =>
      match pieces s (coreCtx s s.cur) va n .write true with
      | (.xlate c x, t) => .next (t.fail i (.xlate c x : Acc Unit))
      | (.memerr l x, t) => .next (t.fail i (.memerr l x : Acc Unit))
      | (_, t) =>
        .next (releaseWait t i cap.1 cap.2 fun t =>
          issueRelease i d b va n cap.1 cap.2 (fenceLimit t) t.tick t)

/-! ### Fences (R239) -/

def execFence (d : BitVec 5) (sc : BitVec 3) (s : State) : Out :=
  let cap := capMe s sc.toNat
  .next (releaseWait s (.fence d sc) cap.1 cap.2 fun t => t.endFence d cap.1 cap.2 false)

def execFenceLca (d a : BitVec 5) (s : State) : Out :=
  let cap := capMe s (lca (s.agent s.cur) ((s.reg a).toNat % 2 ^ 32))
  .next (releaseWait s (.fenceLca d a) cap.1 cap.2 fun t => t.endFence d cap.1 cap.2 false)

/-! ### Stores on their way -/

/-- R111, R115: the store at an index reaches a scope's point of coherence. A store that its home
refuses does not perform (R366), and one behind an earlier strongly ordered store, or behind an earlier store that
clears the mark of its unit (R361), waits. -/
def execStorePerform (index : Nat) (scope : BitVec 3) (s : State) : Out :=
  match storeAt s index with
  | none => .next s
  | some p =>
    let whole := sameScope (homeScope s p.addr) scope.toNat
    if strongBefore s index scope.toNat p || (whole = 7 && (storeRefusedAt s index p || storeWaits s index p)) then .next s
    else .next (pageVectors s (performAt s index scope.toNat p))

/-- R118, R366: the refusal of the store at an index returns, and the store is withdrawn. -/
def execStoreRefused (index : Nat) (s : State) : Out :=
  match storeAt s index with
  | none => .next s
  | some p => if storeRefusedAt s index p then .next (withdraw s index p false) else .next s

/-- R359: the frame-table bytes of the frames that n bytes touch are read for the check of an access from outside, at
their homes: whether a unit of them fails. -/
def readFrames (s : State) (pa n : Nat) : Bool × State :=
  (upTo n).foldl (fun (x : Bool × State) i =>
    if i = 0 || (pa + i) % 4096 = 0 then
      let r := readFrameByte x.2 (homeChiplet x.2 (pa + i)) (pa + i)
      (x.1 || r.1, r.2)
    else x) (false, s)

/-- R366: another package's access to this package's memory: it performs when the frame is Mapped to
the partition number that the request carries, and is refused otherwise. The answer waits in
`answers`. -/
def execRemoteAccessRequest (pa part : Nat) (write : Bool) (data : List Byte) (s : State) : Out :=
  let n := data.length
  let (lost, s) := readFrames s pa n
  let mine := !lost && (upTo n).all fun i => match s.place (pa + i) with
    | .dram _ => ownerOk s part (pa + i)
    | .csp _ => ownerOk s part (pa + i)
    | _ => false
  if !mine then .next { s with answers := s.answers ++ [(pa, none)] }
  else if write then
    if mergesPoison s (canonPa s.pkg.toNat pa) n then .next { s with answers := s.answers ++ [(pa, none)] }
    else
      let t := s.busWrite pa data
      .next { t with answers := t.answers ++ [(pa, some [])] }
  else
    match readUnits s (homeChiplet s pa) pa n with
    | (true, t) => .next { t with answers := t.answers ++ [(pa, none)] }
    | (false, t) => .next { t with answers := t.answers ++ [(pa, some (t.busBytes pa n))] }

end Sys2Proof.Machine
end

