-- ==== Sys2Proof/Machine/Atomics.lean ====
section
/-! DEFINITION. Atomics (R241 to R243). -/

namespace Sys2Proof.Machine

/-- R241: the read-modify-write itself: the old value, sign-extended, goes to d. -/
def performAmo (i : Instr) (d : BitVec 5) (va n : Nat) (capped : Bool) (sc : Nat) (f : Nat → Option Nat)
    (s : State) : State :=
  match coreAtomic s va n f (scopeCode sc) with
  | (.ok old, t) => ((t.retire 4 d (extendTo64 (8 * n) false old) 0).markCapped capped).ready t.cur
  | (e, t) => t.fail i e

/-- R243: whether an order releases: rel or acqrel. -/
def releases (o : BitVec 2) : Bool := o.getLsbD 1

/-- R241 to R243: an atomic: alignment first, then the wait of a release, then the access. A page that
fails traps before the wait. -/
def amo (i : Instr) (d a : BitVec 5) (w : BitVec 1) (o : BitVec 2) (sc : BitVec 3) (f : Nat → Option Nat)
    (s : State) : Out :=
  let va := (s.reg a).toNat
  let n := amoBytes w
  if va % n ≠ 0 then .next (s.misaligned va)
  else
    let cap := capMe s (scopeAt s sc.toNat va .atomic)
    if !releases o then .next (performAmo i d va n cap.2 cap.1 f s)
    else
      match s.cur, isRsm va with
      | .seq _ _, true => .next (releaseWait s i cap.1 cap.2 (performAmo i d va n cap.2 cap.1 f))
      | _, _ =>
        match pieces s (coreCtx s s.cur) va n .atomic true with
        | (.ok _, t) => .next (releaseWait t i cap.1 cap.2 (performAmo i d va n cap.2 cap.1 f))
        | (e, t) => .next (t.fail i e)

/-- R241: W-bit operations on the old value and y. -/
def amoAdd (n old y : Nat) : Nat := (old + y) % 2 ^ (8 * n)
def amoLess (n : Nat) (uns : Bool) (x y : Nat) : Bool := decide (intRead (8 * n) uns x < intRead (8 * n) uns y)
def amoMin (n : Nat) (uns : Bool) (old y : Nat) : Nat := if amoLess n uns y old then y else old
def amoMax (n : Nat) (uns : Bool) (old y : Nat) : Nat := if amoLess n uns old y then y else old

/-- R241: y is b[W−1:0]. -/
def amoOperand (s : State) (b : BitVec 5) (w : BitVec 1) : Nat := (s.reg b).toNat % 2 ^ (8 * amoBytes w)

/-- R241: what memory becomes: a function of the old value, for each atomic of the current task; none
where a cas fails and nothing is written. -/
def amoFun (s : State) : Instr → Nat → Option Nat
  | .amoadd _ _ b w _ _, old => some (amoAdd (amoBytes w) old (amoOperand s b w))
  | .amoand _ _ b w _ _, old => some (old &&& amoOperand s b w)
  | .amoor _ _ b w _ _, old => some (old ||| amoOperand s b w)
  | .amoxor _ _ b w _ _, old => some (old ^^^ amoOperand s b w)
  | .amomin _ _ b w _ _, old => some (amoMin (amoBytes w) false old (amoOperand s b w))
  | .amomax _ _ b w _ _, old => some (amoMax (amoBytes w) false old (amoOperand s b w))
  | .amominu _ _ b w _ _, old => some (amoMin (amoBytes w) true old (amoOperand s b w))
  | .amomaxu _ _ b w _ _, old => some (amoMax (amoBytes w) true old (amoOperand s b w))
  | .amoswap _ _ b w _ _, _ => some (amoOperand s b w)
  | .cas d _ b w _ _, old =>
    if old = (s.reg d).toNat % 2 ^ (8 * amoBytes w) then some (amoOperand s b w) else none
  | _, _ => none

def execAmoadd (d a b : BitVec 5) (w : BitVec 1) (o : BitVec 2) (sc : BitVec 3) (s : State) : Out :=
  amo (.amoadd d a b w o sc) d a w o sc (amoFun s (.amoadd d a b w o sc)) s
def execAmoand (d a b : BitVec 5) (w : BitVec 1) (o : BitVec 2) (sc : BitVec 3) (s : State) : Out :=
  amo (.amoand d a b w o sc) d a w o sc (amoFun s (.amoand d a b w o sc)) s
def execAmoor (d a b : BitVec 5) (w : BitVec 1) (o : BitVec 2) (sc : BitVec 3) (s : State) : Out :=
  amo (.amoor d a b w o sc) d a w o sc (amoFun s (.amoor d a b w o sc)) s
def execAmoxor (d a b : BitVec 5) (w : BitVec 1) (o : BitVec 2) (sc : BitVec 3) (s : State) : Out :=
  amo (.amoxor d a b w o sc) d a w o sc (amoFun s (.amoxor d a b w o sc)) s
def execAmomin (d a b : BitVec 5) (w : BitVec 1) (o : BitVec 2) (sc : BitVec 3) (s : State) : Out :=
  amo (.amomin d a b w o sc) d a w o sc (amoFun s (.amomin d a b w o sc)) s
def execAmomax (d a b : BitVec 5) (w : BitVec 1) (o : BitVec 2) (sc : BitVec 3) (s : State) : Out :=
  amo (.amomax d a b w o sc) d a w o sc (amoFun s (.amomax d a b w o sc)) s
def execAmominu (d a b : BitVec 5) (w : BitVec 1) (o : BitVec 2) (sc : BitVec 3) (s : State) : Out :=
  amo (.amominu d a b w o sc) d a w o sc (amoFun s (.amominu d a b w o sc)) s
def execAmomaxu (d a b : BitVec 5) (w : BitVec 1) (o : BitVec 2) (sc : BitVec 3) (s : State) : Out :=
  amo (.amomaxu d a b w o sc) d a w o sc (amoFun s (.amomaxu d a b w o sc)) s
def execAmoswap (d a b : BitVec 5) (w : BitVec 1) (o : BitVec 2) (sc : BitVec 3) (s : State) : Out :=
  amo (.amoswap d a b w o sc) d a w o sc (amoFun s (.amoswap d a b w o sc)) s
def execCas (d a b : BitVec 5) (w : BitVec 1) (o : BitVec 2) (sc : BitVec 3) (s : State) : Out :=
  amo (.cas d a b w o sc) d a w o sc (amoFun s (.cas d a b w o sc)) s

/-- The operand fields of an atomic, for the end of its wait. -/
def amoFields : Instr → Option (BitVec 5 × BitVec 5 × BitVec 1)
  | .amoadd d a _ w _ _ => some (d, a, w)
  | .amoand d a _ w _ _ => some (d, a, w)
  | .amoor d a _ w _ _ => some (d, a, w)
  | .amoxor d a _ w _ _ => some (d, a, w)
  | .amomin d a _ w _ _ => some (d, a, w)
  | .amomax d a _ w _ _ => some (d, a, w)
  | .amominu d a _ w _ _ => some (d, a, w)
  | .amomaxu d a _ w _ _ => some (d, a, w)
  | .amoswap d a _ w _ _ => some (d, a, w)
  | .cas d a _ w _ _ => some (d, a, w)
  | _ => none

end Sys2Proof.Machine
end

