-- ==== Sys2Proof/Machine/Lanes.lean ====
section
/-! DEFINITION. What the lane ops of an element compute (R286 to R313): a function of what the op
reads to what it does. The latencies are the classes of R146. The fabric (Fabric.lean), a single op
turn and the stage elements of the attention pipe all run these. -/

namespace Sys2Proof.Machine

/-! ### Value by value -/

/-- Results of single values, with the union of their flags (R288). -/
def collect : List (Nat × Flags) → List Nat × Flags
  | [] => ([], 0)
  | (v, f) :: r => let (vs, g) := collect r; (v :: vs, f ||| g)

/-- An op of one operand on every value (R42). -/
def map1 (w : Nat) (f : Nat → Nat × Flags) (a : BitVec 512) : BitVec 512 × Flags :=
  let (vs, g) := collect ((valsOf w a).map f)
  (ofVals w vs, g)

/-- An op of two operands on every value. -/
def map2 (w : Nat) (f : Nat → Nat → Nat × Flags) (a b : BitVec 512) : BitVec 512 × Flags :=
  let (vs, g) := collect (((valsOf w a).zip (valsOf w b)).map fun p => f p.1 p.2)
  (ofVals w vs, g)

/-- An op of three operands on every value. -/
def map3 (w : Nat) (f : Nat → Nat → Nat → Nat × Flags) (a b c : BitVec 512) : BitVec 512 × Flags :=
  let (vs, g) := collect (((valsOf w a).zip ((valsOf w b).zip (valsOf w c))).map fun p => f p.1 p.2.1 p.2.2)
  (ofVals w vs, g)

/-! ### Integer arithmetic (R290), logic, shifts and moves (R291 to R293) -/

/-- R290: an exact integer function of two values, wrapped or clamped. -/
def intOp2 (t : BitVec 3) (u s : BitVec 1) (f : Int → Int → Int) (x : OpIn) : BitVec 512 × Flags :=
  let w := Legal.typeWidth t
  map2 w (fun a b => satResult w (isSet u) (isSet s) (f (intRead w (isSet u) a) (intRead w (isSet u) b))) x.a x.b

def opVadd (t : BitVec 3) (u s : BitVec 1) (x : OpIn) : OpOut :=
  let r := intOp2 t u s (fun a b => a + b) x
  x.result 1 r.1 r.2
def opVsub (t : BitVec 3) (u s : BitVec 1) (x : OpIn) : OpOut :=
  let r := intOp2 t u s (fun a b => a - b) x
  x.result 1 r.1 r.2
def opVmul (t : BitVec 3) (u s : BitVec 1) (x : OpIn) : OpOut :=
  let r := intOp2 t u s (fun a b => a * b) x
  x.result 2 r.1 r.2
def opVmad (t : BitVec 3) (u s : BitVec 1) (x : OpIn) : OpOut :=
  let w := Legal.typeWidth t
  let rd := intRead w (isSet u)
  let r := map3 w (fun a b c => satResult w (isSet u) (isSet s) (rd a * rd b + rd c)) x.a x.b x.c
  x.result 2 r.1 r.2
def opVmin (t : BitVec 3) (u : BitVec 1) (x : OpIn) : OpOut :=
  let r := intOp2 t u 0 (fun a b => if b < a then b else a) x
  x.result 1 r.1 r.2
def opVmax (t : BitVec 3) (u : BitVec 1) (x : OpIn) : OpOut :=
  let r := intOp2 t u 0 (fun a b => if a < b then b else a) x
  x.result 1 r.1 r.2

/-- R291: the logic functions of `vlogic`. -/
def logicFn (f : Nat) (a b : BitVec 512) : BitVec 512 :=
  match f with
  | 0 => a &&& b
  | 1 => a ||| b
  | 2 => a ^^^ b
  | 3 => a &&& ~~~ b
  | 4 => a ||| ~~~ b
  | 5 => ~~~ (a ^^^ b)
  | _ => ~~~ a

def opVlogic (f : BitVec 4) (x : OpIn) : OpOut := x.result 1 (logicFn f.toNat x.a x.b) 0

/-- R292: a shift left by n of one value, clamped with `sat`. -/
def shlVal (w : Nat) (uns sat : Bool) (a n : Nat) : Nat × Flags :=
  satResult w uns sat (intRead w uns a * ((2 ^ n : Nat) : Int))

/-- R292: a shift right by n of one value. -/
def shrVal (w : Nat) (uns : Bool) (a n : Nat) : Nat × Flags :=
  (intWrap w (intRead w uns a / ((2 ^ n : Nat) : Int)), 0)

def opVshl (t : BitVec 3) (u s : BitVec 1) (x : OpIn) : OpOut :=
  let w := Legal.typeWidth t
  let r := map2 w (fun a b => shlVal w (isSet u) (isSet s) a (b % w)) x.a x.b
  x.result 1 r.1 r.2
def opVshr (t : BitVec 3) (u : BitVec 1) (x : OpIn) : OpOut :=
  let w := Legal.typeWidth t
  let r := map2 w (fun a b => shrVal w (isSet u) a (b % w)) x.a x.b
  x.result 1 r.1 r.2
def opVshi (f : BitVec 4) (t : BitVec 3) (c : BitVec 8) (x : OpIn) : OpOut :=
  let w := Legal.typeWidth t
  let r := map1 w (fun a => match f.toNat with
    | 0 => shlVal w false false a c.toNat
    | 1 => shrVal w true a c.toNat
    | _ => shrVal w false a c.toNat) x.a
  x.result 1 r.1 r.2

/-- R293: `vmov`: move, broadcast of a lane, lane indices. -/
def opVmov (f : BitVec 4) (m : BitVec 8) (x : OpIn) : OpOut :=
  x.result 1 (match f.toNat with
    | 0 => x.a
    | 1 => ofVals 32 (List.replicate 16 (laneOf x.a (m.toNat % 16)))
    | _ => ofVals 32 (upTo 16)) 0

/-- R293: `vmovi`: an immediate into byte p of every lane; with p = 0 the other bytes are zero. -/
def opVmovi (p : BitVec 2) (i : BitVec 8) (x : OpIn) : OpOut :=
  x.result 1 (ofVals 32 ((upTo 16).map fun j =>
    if p.toNat = 0 then i.toNat
    else setBits (laneOf x.c j) (8 * p.toNat + 7) (8 * p.toNat) i.toNat)) 0

/-- R291: `vgop` on the guard registers that va and vb name. -/
def opVgop (f : BitVec 4) (x : OpIn) : OpOut :=
  let a := x.el.qreg x.va
  let b := x.el.qreg x.vb
  x.resultQ 1 (match f.toNat with
    | 0 => a &&& b
    | 1 => a ||| b
    | 2 => a ^^^ b
    | 3 => a &&& ~~~ b
    | 4 => ~~~ a
    | 5 => -1
    | _ => 0) 0

/-! ### Comparisons and selects (R294, R295) -/

/-- R294: an integer comparison by fn. -/
def intCompare (f : Nat) (a b : Int) : Bool :=
  match f with
  | 0 => a = b
  | 1 => a ≠ b
  | 2 => a < b
  | 3 => a ≤ b
  | 4 => b < a
  | _ => b ≤ a

/-- R294: one value compared, as 1 or 0. -/
def compareVal (f : Nat) (t : BitVec 3) (u : BitVec 1) (a b : Nat) : Nat × Flags :=
  let w := Legal.typeWidth t
  if Legal.intType t then
    (if intCompare f (intRead w (isSet u) a) (intRead w (isSet u) b) then 1 else 0, 0)
  else
    let r := fCompare f (decodeFmt (fmtOfType t) a) (decodeFmt (fmtOfType t) b)
    (if r.1 then 1 else 0, r.2)

/-- R294: bit j of the guard: the comparison holds for every value of lane j. -/
def guardOf (perLane : Nat) (l : List Nat) : BitVec 16 :=
  BitVec.ofNat 16 (packVals 1 1 ((upTo 16).map fun j =>
    if ((l.drop (perLane * j)).take perLane).all (fun v => v = 1) then 1 else 0))

def opVcmp (f : BitVec 4) (t : BitVec 3) (u : BitVec 1) (x : OpIn) : OpOut :=
  let w := Legal.typeWidth t
  let r := collect (((valsOf w x.a).zip (valsOf w x.b)).map fun p => compareVal f.toNat t u p.1 p.2)
  x.resultQ 1 (guardOf (32 / w) r.1) r.2

def opVsel (q : BitVec 3) (x : OpIn) : OpOut :=
  let g := x.el.qreg q.toNat
  x.result 1 (ofVals 32 ((upTo 16).map fun j => if g.getLsbD j then laneOf x.a j else laneOf x.b j)) 0

/-! ### Floating arithmetic (R296 to R298) -/

/-- R296: a rounded function of two values. -/
def floatOp2 (t : BitVec 3) (s : BitVec 1) (r : BitVec 3)
    (f : Fmt → Mode → Bool → Val → Val → Nat × Flags) (x : OpIn) : BitVec 512 × Flags :=
  let fm := fmtOfType t
  map2 (Legal.typeWidth t)
    (fun a b => f fm (modeOf r.toNat 0) (ovfOf s) (decodeFmt fm a) (decodeFmt fm b)) x.a x.b

def opVfadd (t : BitVec 3) (s : BitVec 1) (r : BitVec 3) (x : OpIn) : OpOut :=
  let o := floatOp2 t s r fAdd x
  x.result 4 o.1 o.2
def opVfsub (t : BitVec 3) (s : BitVec 1) (r : BitVec 3) (x : OpIn) : OpOut :=
  let o := floatOp2 t s r (fun f m o a b => fAdd f m o a b.neg) x
  x.result 4 o.1 o.2
def opVfmul (t : BitVec 3) (s : BitVec 1) (r : BitVec 3) (x : OpIn) : OpOut :=
  let o := floatOp2 t s r fMul x
  x.result 4 o.1 o.2
def opVfma (t : BitVec 3) (s : BitVec 1) (r : BitVec 3) (x : OpIn) : OpOut :=
  let fm := fmtOfType t
  let o := map3 (Legal.typeWidth t) (fun a b c =>
    fFma fm (modeOf r.toNat 0) (ovfOf s) (decodeFmt fm a) (decodeFmt fm b) (decodeFmt fm c)) x.a x.b x.c
  x.result 4 o.1 o.2
def opVfmin (t : BitVec 3) (x : OpIn) : OpOut :=
  let o := map2 (Legal.typeWidth t) (fMinMax (fmtOfType t) false) x.a x.b
  x.result 4 o.1 o.2
def opVfmax (t : BitVec 3) (x : OpIn) : OpOut :=
  let o := map2 (Legal.typeWidth t) (fMinMax (fmtOfType t) true) x.a x.b
  x.result 4 o.1 o.2

/-- R297: operations on the sign bit. -/
def signVal (f w a b : Nat) : Nat :=
  let top := 2 ^ (w - 1)
  match f with
  | 0 => if a ≥ top then a - top else a + top
  | 1 => a % top
  | _ => a % top + (if b ≥ top then top else 0)

def opVfsgn (f : BitVec 4) (t : BitVec 3) (x : OpIn) : OpOut :=
  let w := Legal.typeWidth t
  x.result 1 (map2 w (fun a b => (signVal f.toNat w a b, 0)) x.a x.b).1 0

/-- R298: a correctly rounded function of every value, with `ovf=inf`. -/
def funcOp (g : Val → Val × Flags) (t r : BitVec 3) (x : OpIn) : OpOut :=
  let o := map1 (Legal.typeWidth t) (fUnary (fmtOfType t) (modeOf r.toNat 0) g) x.a
  x.result 8 o.1 o.2

def opVfrcp (t r : BitVec 3) (x : OpIn) : OpOut := funcOp exactRcp t r x
def opVfrsq (t r : BitVec 3) (x : OpIn) : OpOut := funcOp exactRsqrt t r x
def opVfexp2 (t r : BitVec 3) (x : OpIn) : OpOut := funcOp exactExp2 t r x

/-! ### Reductions (R57, R299) -/

/-- R57: one level of the tree: neighbours combined, the lower-numbered side operand a. -/
def treeLevel (node : Nat → Nat → Nat × Flags) : List Nat → List Nat × Flags
  | a :: b :: r =>
    let (vs, f) := treeLevel node r
    let (v, g) := node a b
    (v :: vs, g ||| f)
  | l => (l, 0)

/-- R57: n levels of the tree. -/
def tree (node : Nat → Nat → Nat × Flags) : Nat → List Nat → List Nat × Flags
  | 0, l => (l, 0)
  | n + 1, l =>
    let (m, f) := treeLevel node l
    let (r, g) := tree node n m
    (r, f ||| g)

/-- R299: one node of a reduction. -/
def redNode (f : Nat) (t : BitVec 3) (u s : BitVec 1) (r : BitVec 3) (a b : Nat) : Nat × Flags :=
  let w := Legal.typeWidth t
  if Legal.intType t then
    let x := intRead w (isSet u) a
    let y := intRead w (isSet u) b
    match f with
    | 0 => satResult w (isSet u) (isSet s) (x + y)
    | 1 => (if y < x then b else a, 0)
    | 2 => (if x < y then b else a, 0)
    | 3 => (a &&& b, 0)
    | _ => (a ||| b, 0)
  else
    let fm := fmtOfType t
    match f with
    | 0 => fAdd fm (modeOf r.toNat 0) (ovfOf s) (decodeFmt fm a) (decodeFmt fm b)
    | 1 => fMinMax fm false a b
    | _ => fMinMax fm true a b

/-- R299: the identity of a reduction. -/
def redIdentity (f : Nat) (t : BitVec 3) (u : BitVec 1) : Nat :=
  let w := Legal.typeWidth t
  if Legal.intType t then
    match f with
    | 0 => 0
    | 1 => intWrap w (intMax w (isSet u))
    | 2 => intWrap w (intMin w (isSet u))
    | 3 => 2 ^ w - 1
    | _ => 0
  else
    let fm := fmtOfType t
    match f with
    | 0 => 2 ^ (w - 1)
    | 1 => fmtMaxCode fm + 1
    | _ => fmtMaxCode fm + 1 + 2 ^ (w - 1)

/-- R299: the results of one value position: one per lane group under `lg`, else one. -/
def redColumn (f : Nat) (t : BitVec 3) (u : BitVec 1) (l : Nat) (s : BitVec 1) (r : BitVec 3)
    (col : List Nat) : List Nat × Flags :=
  let node := redNode f t u s r
  let id := List.replicate 8 (redIdentity f t u)
  match l with
  | 0 => tree node 4 col
  | 1 => tree node 2 col
  | 2 => tree node 4 (col.take 8 ++ id)
  | _ => tree node 4 (id ++ col.drop 8)

/-- Values position by position, read back in lane order: value k of lane j of the results. -/
def redSpread (per : Nat) (cols : List (List Nat)) : List Nat :=
  (upTo 16).flatMap fun j => (upTo per).map fun k =>
    let c := cols.getD k []
    if c.length = 4 then c.getD (j / 4) 0 else c.getD 0 0

def opVred (f : BitVec 4) (t : BitVec 3) (u : BitVec 1) (l : BitVec 2) (s : BitVec 1) (r : BitVec 3)
    (x : OpIn) : OpOut :=
  let w := Legal.typeWidth t
  let vs := valsOf w x.a
  if w = 64 then
    let (o, g) := tree (redNode f.toNat t u s r) 2 vs
    x.result 6 (ofVals 64 (List.replicate 4 (o.getD 0 0))) g
  else
    let per := 32 / w
    let cols := (upTo per).map fun k =>
      redColumn f.toNat t u l.toNat s r ((upTo 16).map fun j => vs.getD (per * j + k) 0)
    let g := cols.foldl (fun a c => a ||| c.2) 0
    x.result (if l = 1 then 3 else 6) (ofVals w (redSpread per (cols.map fun c => c.1))) g

/-! ### Conversions (R300 to R302), permutes, nibbles and packing (R303 to R306) -/

def opVnarrow (o : BitVec 1) (r t : BitVec 3) (d : BitVec 8) (x : OpIn) : OpOut :=
  let c := map1 (Legal.typeWidth t)
    (convertCode (fmtOfType t) (fmtOfDesc d.toNat) (modeOf r.toNat 0) (isSet o)) x.a
  x.result 2 c.1 c.2

def opVwiden (o : BitVec 1) (r t : BitVec 3) (d : BitVec 8) (x : OpIn) : OpOut :=
  let src := fmtOfDesc d.toNat
  let c := map1 (Legal.typeWidth t)
    (fun a => convertCode src (fmtOfType t) (modeOf r.toNat 0) (isSet o) (a % 2 ^ fmtWidth src)) x.a
  x.result 2 c.1 c.2

/-- R303: byte b of vd is zero or a byte of va, by byte b of operand b. -/
def opVpermb (x : OpIn) : OpOut :=
  let a := valsOf 8 x.a
  x.result 1 (ofVals 8 ((valsOf 8 x.b).map fun i => if i ≥ 128 then 0 else a.getD (i % 64) 0)) 0

/-- R304: 64 nibbles of va become 64 bytes. -/
def opVnib (f h : BitVec 1) (x : OpIn) : OpOut :=
  let n := (valsOf 4 x.a).drop (64 * h.toNat)
  x.result 1 (ofVals 8 ((n.take 64).map fun v => if f = 0 then intWrap 8 (intRead 4 false v) else v)) 0

/-- R305: the values of two registers narrowed into one. -/
def opVpack (_ : BitVec 4) (t : BitVec 3) (u s : BitVec 1) (x : OpIn) : OpOut :=
  let w := Legal.typeWidth t
  let c := collect ((valsOf w x.a ++ valsOf w x.b).map fun v =>
    satResult (w / 2) (isSet u) (isSet s) (intRead w (isSet u) v))
  x.result 1 (ofVals (w / 2) c.1) c.2

/-- R306: the lane that lane j takes. -/
def shufSource (f l c j : Nat) : Nat :=
  let g := match l with
    | 0 => 16
    | 1 => 4
    | _ => 8
  let base := j / g * g
  if (l = 2 && decide (j ≥ 8)) || (l = 3 && decide (j < 8)) then j
  else match f with
    | 0 => base + (j - base + c) % g
    | 1 => base + ((j - base) ^^^ c)
    | _ => base + c

def opVshuf (f : BitVec 4) (l : BitVec 2) (c : BitVec 4) (x : OpIn) : OpOut :=
  x.result 1 (ofVals 32 ((upTo 16).map fun j => laneOf x.a (shufSource f.toNat l.toNat c.toNat j))) 0

/-! ### Element memory and slices (R307, R308, R313) -/

/-- R307: bytes of a row. -/
def rowSize (t : BitVec 3) : Nat := if t = 3 then 32 else 64

/-- R307: the row address. -/
def rowAddr (x : OpIn) (t : BitVec 3) (o : BitVec 8) : Nat :=
  (laneOf x.a 0 + 64 * o.toNat) % 2 ^ 32 / rowSize t * rowSize t

/-- R84, R307: whether a row lies in ELM. -/
def rowIn (a : Nat) : Bool := decide (a < 0x60000)

/-- R307: an `.f64` row of 32 bytes in its lanes. -/
def rowReg (t : BitVec 3) (bs : List Byte) : BitVec 512 :=
  if t = 3 then ofVals 64 ((upTo 4).map fun g => leToNat ((bs.drop (8 * g)).take 8)) else ofBytes bs

def opVldm (t : BitVec 3) (o : BitVec 8) (x : OpIn) : OpOut :=
  let a := rowAddr x t o
  if rowIn a then x.result 3 (rowReg t (mapGetN 0 x.el.elm a (rowSize t))) 0
  else { x.result 3 0 0 with oor := [(1, false, a)] }

/-- Cells of the lanes whose guard bit is 1: 4 bytes a lane from address a on. -/
def laneCells (a : Nat) (v : BitVec 512) (g : BitVec 16) : List (Nat × Byte) :=
  (upTo 16).flatMap fun j =>
    if g.getLsbD j then
      (natToLe (laneOf v j) 4).zip (upTo 4) |>.map fun p => (a + 4 * j + p.2, p.1)
    else []

/-- R307: cells of an `.f64` row: lane 4g guards its group's 8 bytes. -/
def groupCells (a : Nat) (v : BitVec 512) (g : BitVec 16) : List (Nat × Byte) :=
  (upTo 4).flatMap fun k =>
    if g.getLsbD (4 * k) then
      (natToLe ((valsOf 64 v).getD k 0) 8).zip (upTo 8) |>.map fun p => (a + 8 * k + p.2, p.1)
    else []

/-- R307: a store of vd to a row. A lane whose guard bit is 0 writes nothing; the address out of range is the row's,
and is recorded whatever the guard (notes/assumptions/14.md). -/
def opVstm (g t : BitVec 3) (o : BitVec 8) (x : OpIn) : OpOut :=
  let a := rowAddr x t o
  let cells := if t = 3 then groupCells a x.c (x.guard g) else laneCells a x.c (x.guard g)
  if rowIn a then { OpOut.nothing with effs := [(1, .elm cells)] }
  else { OpOut.nothing with oor := [(1, true, a)] }

/-- R308: the offset of lane j in its slice. -/
def sliceOff (x : OpIn) (o : BitVec 8) (j : Nat) : Nat := (laneOf x.a j + 4 * o.toNat) % 2 ^ 32 / 4 * 4

/-- R308: whether an offset lies in the slice. -/
def sliceIn (a : Nat) : Bool := decide (a ≤ 0x1FC)

def opVldl (_ : BitVec 3) (o : BitVec 8) (x : OpIn) : OpOut :=
  let v := (upTo 16).map fun j =>
    let a := sliceOff x o j
    if sliceIn a then leToNat (mapGetN 0 x.el.lps (512 * j + a) 4) else 0
  { x.result 2 (ofVals 32 v) 0 with
    oor := ((upTo 16).filter fun j => !sliceIn (sliceOff x o j)).map fun j => (0, false, sliceOff x o j) }

def opVstl (g : BitVec 3) (_ : BitVec 3) (o : BitVec 8) (x : OpIn) : OpOut :=
  let on := (upTo 16).filter fun j => (x.guard g).getLsbD j
  let cells := (on.filter fun j => sliceIn (sliceOff x o j)).flatMap fun j =>
    (natToLe (laneOf x.c j) 4).zip (upTo 4) |>.map fun p => (512 * j + sliceOff x o j + p.2, p.1)
  { OpOut.nothing with
    effs := [(1, .lps cells)]
    oor := (on.filter fun j => !sliceIn (sliceOff x o j)).map fun j => (0, true, sliceOff x o j) }

/-- R313: the memory value that a value becomes. -/
def vatomVal (f w : Nat) (uns : Bool) (m y : Nat) : Nat :=
  match f with
  | 0 => (m + y) % 2 ^ w
  | 1 => if intRead w uns y < intRead w uns m then y else m
  | 2 => if intRead w uns m < intRead w uns y then y else m
  | _ => y

def opVatom (f : BitVec 4) (g t : BitVec 3) (u : BitVec 1) (x : OpIn) : OpOut :=
  let a := laneOf x.a 0 / 64 * 64
  let w := Legal.typeWidth t
  let per := 32 / w
  let q := x.guard g
  if !rowIn a then { x.result 3 0 0 with oor := [(1, true, a)] }
  else
    let m := valsOf w (ofBytes (mapGetN 0 x.el.elm a 64))
    let old := (m.zip (upTo (16 * per))).map fun p => if q.getLsbD (p.2 / per) then p.1 else 0
    let new := (m.zip (valsOf w x.b)).map fun p => vatomVal f.toNat w (isSet u) p.1 p.2
    { OpOut.nothing with
      effs := [(1, .elm (laneCells a (ofVals w new) q)), (3, .v x.vd (ofVals w old))] }

/-! ### Queues, streams and tokens (R310 to R312) -/

/-- R310: the head of a load queue, with zero where lane-valid is clear; no head gives zero. -/
def opVpop (p : BitVec 1) (x : OpIn) : OpOut :=
  x.result 0 (match x.head p.toNat with
    | none => 0
    | some e => maskLanes (ofBytes e.bytes) e.token) 0

/-- A beat for a store queue (R310, R330). -/
def beatEntry (v : BitVec 512) (valid : BitVec 16) : QEntry :=
  { bytes := regBytes v, token := valid, index := 0, addr := none, landed := true, block := none, size := 1
    born := 0, closed := false }

def opVpush (p : BitVec 1) (g : BitVec 3) (x : OpIn) : OpOut :=
  { OpOut.nothing with push := some (p.toNat, beatEntry x.a (x.guard g)) }

/-- R311: the word driven this tick carries the guard as its lane-valid bits. -/
def opVsend (g : BitVec 3) (x : OpIn) : OpOut := { OpOut.nothing with valid := x.guard g }

/-- R312: a token to a destination. -/
def opTksend (g : BitVec 3) (k : BitVec 8) (x : OpIn) : OpOut :=
  match k.toNat with
  | 0 => { OpOut.nothing with count := (x.guard g).getLsbD 0 }
  | 7 => { OpOut.nothing with effs := [(1, .agStart)] }
  | 8 => { OpOut.nothing with effs := [(1, .runStart)] }
  | n => { OpOut.nothing with send := some n }

/-- R312: a token consumed. -/
def opTkwait (k : BitVec 8) (_ : OpIn) : OpOut := { OpOut.nothing with wait := some k.toNat }

end Sys2Proof.Machine
end

