-- ==== Sys2Proof/Machine/Matrix.lean ====
section
/-! DEFINITION. The matrix array (R154, R316 to R324), the quantising store and carousel loads (R325,
R326), the configuration ops of the address generator (R327 to R329), what each tick of a matrix run
does (R320, R321), and results taking effect in an element (R122, R398). -/

namespace Sys2Proof.Machine

/-! ### Grants (R316 to R318) -/

/-- Division rounded up. -/
def ceilDiv (a b : Nat) : Nat := (a + b - 1) / b

/-- R314: bits of a width code. -/
def widthOfCode (w : BitVec 2) : Nat :=
  match w.toNat with
  | 0 => 4
  | 1 => 8
  | _ => 12

/-- R316: sets of a grant. -/
def setsOf (w : Nat) : Nat := if w = 4 then 3 else 1

/-- R316: whether kb K blocks fit. -/
def kbFits (n0 sets h kb : Nat) : Bool :=
  decide (kb * (n0 / 64) + ceilDiv (kb * n0 * sets * 2) 3072 + ceilDiv (h * n0 * 4) 3072 ≤ 128)

/-- R316: the largest kb not above the first argument that fits. -/
def largestKb (n0 sets h : Nat) : Nat → Nat
  | 0 => 0
  | kb + 1 => if kbFits n0 sets h (kb + 1) then kb + 1 else largestKb n0 sets h kb

/-- R316: the grant of a request, and its status. -/
def grantOf (m n k w e : Nat) : Option Grant × Nat :=
  if m = 0 || n = 0 || k = 0 then (none, 2)
  else
    let h := min m 128
    let nr := min (64 * ceilDiv n 64) 1024
    let n0 := min nr 128
    let ne := min (nr - 128 * e) 128
    if ne = 0 then (none, 3)
    else
      let kb := largestKb n0 (setsOf w) h (min (ceilDiv k 32) 128)
      let status := if h < m || 32 * kb < k || nr < 64 * ceilDiv n 64 then 1 else 0
      (some { width := w, h := h, ne := ne, kb := kb, part := e, status := status }, status)

/-- R317: the banks of a grant. -/
def Grant.bBanks (g : Grant) : Nat := g.kb * g.ne / 64
def Grant.eBanks (g : Grant) : Nat := ceilDiv (g.kb * g.ne * setsOf g.width * 2) 3072
def Grant.aBanks (g : Grant) : Nat := ceilDiv (g.h * g.ne * 4) 3072

/-- R317: the offset of the exponent entry of a set, K block and column. -/
def Grant.entryOff (g : Grant) (s b j : Nat) : Nat := g.bBanks * 0xC00 + 2 * ((s * g.kb + b) * g.ne + j)

/-- R317: the offset of an accumulator. -/
def Grant.accOff (g : Grant) (m j : Nat) : Nat := (128 - g.aBanks) * 0xC00 + 4 * (m * g.ne + j)

/-- R317: the bit position, from the start of ELM, of row k of a K block's column. -/
def Grant.cellBit (g : Grant) (b j k : Nat) : Nat :=
  8 * 0xC00 * (b * (g.ne / 64) + j / 64) + 12 * (k * 64 + j % 64)

/-- R318: the lanes that `shape` writes. -/
def grantLanes : Option Grant × Nat → List Nat
  | (none, st) => [0, 0, 0, 0, 0, 0, 0, 0, 0, st]
  | (some g, st) => [g.h, g.ne, 32 * g.kb, 128 * g.part, g.bBanks, g.bBanks, g.eBanks,
      128 - g.aBanks, g.aBanks, st]

def opShape (e : BitVec 3) (w : BitVec 2) (x : OpIn) : OpOut :=
  let r := grantOf (laneOf x.a 0) (laneOf x.a 1) (laneOf x.a 2) (widthOfCode w) e.toNat
  { OpOut.nothing with effs := [(2, .v x.vd (ofVals 32 (grantLanes r))), (2, .grant r.1)] }

/-! ### Weights (R319) -/

/-- The cells of ELM as a number from an offset on. -/
def elmWord (e : Element) (a n : Nat) : Nat := leToNat (mapGetN 0 e.elm a n)

/-- R319: the position in a K block's column that lane 0 of va names, unless it is out of grant. -/
def mbPos (e : Element) (lane : Nat) : Option (Grant × Nat × Nat × Nat) :=
  let j := nbits lane 9 0
  let b := nbits lane 20 10
  let s := nbits lane 22 21
  match e.grant with
  | none => none
  | some g =>
    if j ≥ g.ne || b ≥ g.kb || s = 3 || (s > 0 && g.width ≠ 4) then none else some (g, j, b, s)

/-- R317: the bytes of one column of 32 cells, each written in `n` bits from bit `lo` of its cell. -/
def columnCells (e : Element) (g : Grant) (b j lo n : Nat) (vals : List Nat) : List (Nat × Byte) :=
  (vals.zip (upTo 32)).flatMap fun p =>
    let bit := g.cellBit b j p.2 + lo
    let old := elmWord e (bit / 8) 2
    let new := setBits old (bit % 8 + n - 1) (bit % 8) p.1
    (natToLe new 2).zip [bit / 8, bit / 8 + 1] |>.map fun q => (q.2, q.1)

/-- R317: the bytes of an exponent entry. -/
def entryCells (g : Grant) (s b j : Nat) (nan : Bool) (eb : Int) : List (Nat × Byte) :=
  let v := (if nan then 2 ^ 15 else 0) + intWrap 10 eb
  (natToLe v 2).zip [g.entryOff s b j, g.entryOff s b j + 1] |>.map fun q => (q.2, q.1)

/-- R61, R319, R321: the block that a queue entry gives the matrix path: the zero block, of width 4,
for a word that is no block of N = 32 (notes/assumptions/15.md); the address to record. -/
def matrixBlock (books : Map Codebook) : Option QEntry → AlignedBlock × Option Nat
  | none => (alignBlock 4 32 (mapGet Codebook.none books) (zeroBlock 4 32), none)
  | some q => match q.block with
    | some (w, 32) => (alignBlock w 32 (mapGet Codebook.none books) q.bytes, none)
    | _ => (alignBlock 4 32 (mapGet Codebook.none books) (zeroBlock 4 32), some (q.addr.getD 0))

/-- R87: the record of a wrong source page. -/
def wrongPage (lvl : Nat) : Option Nat → List (Nat × Bool × Nat)
  | none => []
  | some a => [(lvl, false, a)]

def opMbloadQueue (p : BitVec 1) (x : OpIn) : OpOut :=
  let lane := laneOf x.a 0
  let (k, bad) := matrixBlock x.books (x.head p.toNat)
  match mbPos x.el lane with
  | none => { OpOut.nothing with oor := wrongPage 5 bad ++ [(5, true, lane)] }
  | some (g, j, b, s) =>
    let clash := g.width = 4 && k.width ≠ 4
    let vals := (if clash then List.replicate 32 0 else k.vals).map (intWrap 12)
    let cells := if g.width = 4 then columnCells x.el g b j (4 * s) 4 vals else columnCells x.el g b j 0 12 vals
    { OpOut.nothing with
      effs := (1, .elm (cells ++ entryCells g s b j (k.isNan || clash) k.exp)) :: flagEffs 1 (flagIf clash fNV)
      oor := wrongPage 5 bad }

/-- R319: rows of the register form: nibble k of a set's four lanes, or byte k. -/
def registerNibble (v : BitVec 512) (s k : Nat) : Nat := laneOf v (4 * s + k / 8) / 2 ^ (4 * (k % 8)) % 16
def registerByte (v : BitVec 512) (k : Nat) : Nat := laneOf v (k / 4) / 2 ^ (8 * (k % 4)) % 256

/-- R319: the register form; a form that does not match the grant held at run time is taken as out of
grant (notes/assumptions/16.md). -/
def opMbloadRegister (w : BitVec 1) (sexp : BitVec 8) (x : OpIn) : OpOut :=
  let lane := laneOf x.a 0
  match mbPos x.el lane with
  | none => { OpOut.nothing with oor := [(5, true, lane)] }
  | some (g, j, b, _) =>
    if isSet w ≠ decide (g.width = 4) then { OpOut.nothing with oor := [(5, true, lane)] }
    else
      let entry (s : Nat) := entryCells g s b j (sexp = 0xFF) ((sexp.toNat : Int) - 127)
      if isSet w then
        let vals := (upTo 32).map fun k => registerNibble x.b 0 k + 16 * registerNibble x.b 1 k +
          256 * registerNibble x.b 2 k
        { OpOut.nothing with
          effs := [(1, .elm (columnCells x.el g b j 0 12 vals ++ entry 0 ++ entry 1 ++ entry 2))] }
      else
        let vals := (upTo 32).map fun k => intWrap 12 (intRead 8 false (registerByte x.b k))
        { OpOut.nothing with effs := [(1, .elm (columnCells x.el g b j 0 12 vals ++ entry 0))] }

/-! ### Runs (R320 to R323) -/

def opMrun (s : BitVec 2) (c p : BitVec 1) (m : BitVec 8) (x : OpIn) : OpOut :=
  { OpOut.nothing with
    effs := [(1, .arm
      { k0 := laneOf x.a 0, nk := laneOf x.a 1, set := s.toNat, mask := m.toNat, port := p.toNat
        acc := isSet c, running := false, clock := 0 })] }

/-- Ticks of an interval: the grant's bits, 4 without a grant. -/
def runSteps : Option Grant → Nat
  | none => 4
  | some g => g.width

/-- R320: Q, the intervals of a run. -/
def runIntervals (g : Option Grant) (r : Run) : Nat :=
  match g with
  | none => 0
  | some g => ceilDiv g.h 8 * r.nk * 8

/-- R154: the row and the K block of interval q, relative to k0. -/
def runRow (r : Run) (q : Nat) : Nat := 8 * (q / (r.nk * 8)) + q % 8
def runKappa (r : Run) (q : Nat) : Nat := q / 8 % r.nk

/-- R321: a run-time set outside the grant. -/
def runBadSet (g : Grant) (r : Run) : Bool := r.set = 3 || (r.set > 0 && g.width ≠ 4)

/-- R154, R320, R321: whether interval q is a bubble. -/
def runBubble (g : Grant) (r : Run) (q : Nat) : Bool :=
  runBadSet g r || decide (runRow r q ≥ g.h) || !nbit r.mask (q % 8) || decide (r.k0 + runKappa r q ≥ g.kb)

/-- R320: the interval whose first tick this is, if any. -/
def runStart (e : Element) : Option (Grant × Run × Nat) :=
  match e.run, e.grant with
  | some r, some g =>
    if r.running && r.clock % runSteps (some g) = 0 &&
      decide (r.clock / runSteps (some g) < runIntervals (some g) r)
    then some (g, r, r.clock / runSteps (some g)) else none
  | _, _ => none

/-- R320: the load port from which the run pops this tick. -/
def runPop (e : Element) : Option Nat :=
  match runStart e with
  | none => none
  | some (g, r, q) => if runBubble g r q then none else some r.port

/-- R82: the exact integer of a B cell. -/
def cellValue (e : Element) (g : Grant) (s b j k : Nat) : Int :=
  let bit := g.cellBit b j k
  let c := elmWord e (bit / 8) 2 / 2 ^ (bit % 8) % 4096
  if g.width = 4 then intRead 4 false (c / 16 ^ s) else intRead 12 false c

/-- R82: the rounded product of an A block with one B column, and its flags. A NaN block and a NaN entry are looked
at first: such a product sets no flag, be the A block wider than the run or not (DESIGN CHOICE,
notes/assumptions/68.md). -/
def blockTerm (e : Element) (g : Grant) (s b : Nat) (a : AlignedBlock) (j : Nat) : Nat × Flags :=
  let entry := elmWord e (g.entryOff s b j) 2
  if a.isNan || nbit entry 15 then (fmtNaN fmtF32, 0)
  else if a.width > g.width then (fmtNaN fmtF32, fNV)
  else
    let p := dotInt a.vals ((upTo 32).map (cellValue e g s b j))
    roundTo fmtF32 .rne true (.fin (decide (p < 0)) p.natAbs (a.exp + sextBits entry 10))

/-- R136, R154: an interval's first tick puts its A block into the feed row's place in the row buffer; a bubble
leaves no block there. -/
def feedRow (e : Element) (head : Option QEntry) : Element :=
  match runStart e with
  | none => e
  | some (g, r, q) => { e with feed := mapSet none e.feed (q % 8) (if runBubble g r q then none else head) }

/-- R320, R321: what the array does on a tick that advances the counter: the products of an interval
that starts, from the block in its feed row, which take effect on the tick after the interval's end, and the records
of R321. -/
def runTick (e : Element) (books : Map Codebook) : List (Nat × Effect) × List (Nat × Bool × Nat) :=
  match runStart e with
  | none => ([], [])
  | some (g, r, q) =>
    if runBubble g r q then
      ([], if runBadSet g r then (if r.clock = 0 then [(5, false, r.set)] else [])
        else if runRow r q < g.h && nbit r.mask (q % 8) then [(5, false, r.k0 + runKappa r q)] else [])
    else
      let (a, bad) := matrixBlock books (mapGet none e.feed (q % 8))
      let (vs, f) := collect ((upTo g.ne).map fun j => blockTerm e g r.set (r.k0 + runKappa r q) a j)
      let lat := runSteps (some g) + 1
      ((lat, .acc (runRow r q) vs (!r.acc && runKappa r q = 0)) :: flagEffs lat f, wrongPage 5 bad)

/-- R320: the run after a tick that advances the counter, and whether it sends its finish token. -/
def runAdvance (e : Element) : Element × Bool :=
  match e.run with
  | none => (e, false)
  | some r =>
    if !r.running then (e, false)
    else if r.clock ≥ runSteps e.grant * runIntervals e.grant r + 1 then ({ e with run := none }, true)
    else ({ e with run := some { r with clock := r.clock + 1 } }, false)

/-- R322: 16 accumulators and the run's progress. -/
def opMrdacc (x : OpIn) : OpOut :=
  let m := laneOf x.a 0
  let c := laneOf x.a 1
  let bad : OpOut := { OpOut.nothing with effs := [(3, .v x.vd 0), (3, .v (x.vd + 1) 0)], oor := [(5, false, m)] }
  match x.el.grant with
  | none => bad
  | some g =>
    if m ≥ g.h || c ≥ g.ne / 16 then bad
    else
      let on := match x.el.run with
        | some r => r.running
        | none => false
      let n := mapGet 0 x.el.absorbed m
      { OpOut.nothing with
        effs := [(3, .v x.vd (ofBytes (mapGetN 0 x.el.elm (g.accOff m (16 * c)) 64))),
          (3, .v (x.vd + 1) (ofVals 32 [n, if on then 1 else 0]))] }

/-- R323: accumulators zeroed. Without a grant nothing is written (notes/assumptions/16.md). -/
def opMzero (r : BitVec 1) (x : OpIn) : OpOut :=
  let m := if isSet r then laneOf x.a 0 else 0
  match x.el.grant with
  | none => { OpOut.nothing with oor := [(5, true, m)] }
  | some g =>
    if isSet r && decide (m ≥ g.h) then { OpOut.nothing with oor := [(5, true, m)] }
    else
      let n := if isSet r then 4 * g.ne else 4 * g.h * g.ne
      { OpOut.nothing with effs := [(1, .elm ((upTo n).map fun i => (g.accOff m 0 + i, 0)))] }

/-- R324: one outer-product step of the fused lane groups. -/
def opMfma64 (s : BitVec 1) (r : BitVec 3) (x : OpIn) : OpOut :=
  let grp (v : BitVec 512) (g : Nat) : Val := decodeFmt fmtF64 ((valsOf 64 v).getD g 0)
  let o := collect ((upTo 4).map fun g =>
    fFma fmtF64 (modeOf r.toNat 0) (ovfOf s) (grp x.a (g / 2)) (grp x.b (g % 2)) (grp x.c g))
  x.result 6 (ofVals 64 o.1) o.2

/-! ### Carousel blocks (R325, R326) -/

/-- R314: the N of an N code. -/
def geoOf (n : BitVec 2) : Nat := 16 * 2 ^ n.toNat

/-- R325: the codes of N values from register a on. -/
def blockInputs (e : Element) (a n : Nat) (t : BitVec 3) : List Nat :=
  let w := Legal.typeWidth t
  let per := 512 / w
  ((upTo (ceilDiv n per)).flatMap fun i => valsOf w (e.vreg (a + i))).take n

/-- R325: the quantising store. -/
def opQst (n : BitVec 2) (w p : BitVec 1) (g t slot : BitVec 3) (m : BitVec 5) (x : OpIn) : OpOut :=
  let wid := if isSet w then 8 else 4
  let vals := (blockInputs x.el x.va (geoOf n) t).map (decodeFmt (fmtOfType t))
  let r := quantise wid (geoOf n) m.toNat slot.toNat (x.book slot.toNat) (fun _ => .rne) vals
  let token : BitVec 16 := if (x.guard g).getLsbD 0 then -1 else 0
  { OpOut.nothing with
    effs := flagEffs 0 (r.2 ||| flagIf (vals.any Val.isSnan) fNV)
    push := some (p.toNat,
      { bytes := r.1, token := token, index := 0, addr := none, landed := true
        block := some (wid, geoOf n), size := if r.1.length > 64 then 2 else 1, born := 0, closed := false }) }

/-- Values of width w into consecutive registers from vd on. -/
def spreadRegs (vd w : Nat) (vs : List Nat) (lat : Nat) : List (Nat × Effect) :=
  let per := 512 / w
  (upTo (ceilDiv vs.length per)).map fun i => (lat, .v (vd + i) (ofVals w ((vs.drop (per * i)).take per)))

/-- R326: a carousel block decoded into registers; a word that is no block of this N gives zeros. -/
def opVcld (n : BitVec 2) (p : BitVec 1) (t : BitVec 3) (s : BitVec 1) (r : BitVec 3) (x : OpIn) : OpOut :=
  let w := Legal.typeWidth t
  let zeros := spreadRegs x.vd w (List.replicate (geoOf n) 0) 2
  match x.head p.toNat with
  | none => { OpOut.nothing with effs := zeros }
  | some q => match q.block with
    | none => { OpOut.nothing with effs := zeros, oor := [(4, false, q.addr.getD 0)] }
    | some (bw, bn) =>
      if bn ≠ geoOf n then { OpOut.nothing with effs := zeros, oor := [(4, false, q.addr.getD 0)] }
      else
        let o := collect ((blockValues bw bn x.book q.bytes).map
          (deliver (fmtOfType t) (modeOf r.toNat 0) (ovfOf s)))
        { OpOut.nothing with effs := spreadRegs x.vd w o.1 2 ++ flagEffs 2 o.2 }

/-! ### Address-generator configuration (R327 to R329) -/

/-- R327: the extent of a counter. -/
def extentOf (lane : Nat) : Nat := if lane % 2 ^ 24 = 0 then 1 else lane % 2 ^ 24

def opAgcfg (p k : BitVec 1) (c kind : BitVec 2) (x : OpIn) : OpOut :=
  let n := c.toNat + 1
  { OpOut.nothing with
    effs := [(1, .cfg p.toNat
      { AgPort.zero with
        kind := kind.toNat, counters := n, rsm := isSet k
        extents := (upTo n).map fun i => extentOf (laneOf x.a (2 * i))
        strides := (upTo n).map fun i => sextBits (laneOf x.a (2 * i + 1)) 32
        lead := laneOf x.a 8 % 256 })] }

def opAgbase (p : BitVec 1) (x : OpIn) : OpOut :=
  { OpOut.nothing with effs := [(1, .base p.toNat (laneOf x.a 0 + laneOf x.a 1 * 2 ^ 32))] }

def opAgrun (f n p : BitVec 1) (x : OpIn) : OpOut :=
  let words := laneOf x.a 0
  { OpOut.nothing with
    effs := [(1, if isSet n then .loop p.toNat words (isSet f) else .armLoop p.toNat words (isSet f))] }

/-! ### Results taking effect (R122) -/

def Element.ag (e : Element) (p : Nat) : AgPort := if p = 0 then e.ag0 else e.ag1
def Element.setAg (e : Element) (p : Nat) (a : AgPort) : Element :=
  if p = 0 then { e with ag0 := a } else { e with ag1 := a }

/-- Bytes of an element's memory written. -/
def Element.elmPut (e : Element) (cells : List (Nat × Byte)) : Element :=
  { e with elm := cells.foldl (fun m c => mapSet 0 m c.1 c.2) e.elm }

/-- R82, R320: one row's accumulators updated. -/
def Element.accumulate (e : Element) (row : Nat) (vs : List Nat) (fresh : Bool) : Element × Flags :=
  match e.grant with
  | none => (e, 0)
  | some g =>
    let (rs, f) := collect ((vs.zip (upTo vs.length)).map fun p =>
      let old := if fresh then 0 else elmWord e (g.accOff row p.2) 4
      fAdd fmtF32 .rne true (decodeFmt fmtF32 old) (decodeFmt fmtF32 p.1))
    let cells := (rs.flatMap fun v => natToLe v 4).zip (upTo (4 * vs.length)) |>.map fun p =>
      (g.accOff row 0 + p.2, p.1)
    ({ e.elmPut cells with absorbed := mapSet 0 e.absorbed row (mapGet 0 e.absorbed row + 1) }, f)

/-- R327: a configuration: queue and fault stay unless the kind changes (notes/assumptions/17.md). -/
def AgPort.configure (old new : AgPort) : AgPort :=
  { new with base := old.base
             queue := if old.kind = new.kind then old.queue else []
             act := if old.kind = new.kind then old.act else 0
             fault := if old.kind = new.kind then old.fault else none }

/-- R329: a loop starts: the entries pushed beyond the last loop's words take the first addresses of
this one. -/
def AgPort.startLoop (a : AgPort) (n : Nat) (fin : Bool) : AgPort :=
  { a with count := n, running := true, fin := fin, armed := none, next := 0, moved := 0, asked := [] }

def AgPort.start (a : AgPort) : AgPort :=
  match a.armed with
  | none => a
  | some (n, f) => a.startLoop n f

/-- R122: one result takes effect. -/
def Element.apply (e : Element) : Effect → Element × Flags
  | .v r x => ({ e with v := mapSet 0 e.v r x }, 0)
  | .q r x => ({ e with q := mapSet 0 e.q r x }, 0)
  | .elm cells => (e.elmPut cells, 0)
  | .lps cells => ({ e with lps := cells.foldl (fun m c => mapSet 0 m c.1 c.2) e.lps }, 0)
  | .flags f => (e, f)
  | .acc row vs fresh => e.accumulate row vs fresh
  | .grant g => ({ e with grant := g }, 0)
  | .arm r => ({ e with run := some r }, 0)
  | .runStart => (match e.run with
    | some r => { e with run := some { r with running := true, clock := 0 }, absorbed := [] }
    | none => e, 0)
  | .cfg p a => (e.setAg p ((e.ag p).configure a), 0)
  | .base p a => (e.setAg p { e.ag p with base := a }, 0)
  | .loop p n f => (e.setAg p ((e.ag p).startLoop n f), 0)
  | .armLoop p n f => (e.setAg p { e.ag p with armed := some (n, f) }, 0)
  | .agStart => ({ e with ag0 := e.ag0.start, ag1 := e.ag1.start }, 0)
  | .token k => ({ e with tokens := e.tokens ||| BitVec.ofNat 9 (2 ^ k) }, 0)

/-- Results taking effect in turn. -/
def Element.applyAll (e : Element) : List Effect → Element × Flags
  | [] => (e, 0)
  | x :: r =>
    let (e1, f) := e.apply x
    let (e2, g) := e1.applyAll r
    (e2, f ||| g)

/-- R398: an accumulator update prevails over the other writes of its tick. -/
def isAcc : Effect → Bool
  | .acc _ _ _ => true
  | _ => false

/-- R122: the end of a tick that advances the counter: what has reached its latency takes effect, in
issue order, accumulator updates last. -/
def Element.settle (e : Element) : Element × Flags :=
  let fl : List (Nat × Effect) := e.flight.map fun p => (p.1 - 1, p.2)
  let due : List Effect := (fl.filter fun p => p.1 = 0).map fun p => p.2
  let later := { e with flight := fl.filter fun p => p.1 ≠ 0 }
  later.applyAll (due.filter (fun x => !isAcc x) ++ due.filter isAcc)

/-- R122, R138: an op's results enter the latches; those of latency 0 take effect at once. -/
def Element.issue (e : Element) (effs : List (Nat × Effect)) : Element × Flags :=
  let after : List (Nat × Effect) := effs.filter fun p : Nat × Effect => p.1 ≠ 0
  let now : List (Nat × Effect) := effs.filter fun p : Nat × Effect => p.1 = 0
  let later := { e with flight := e.flight ++ after }
  later.applyAll (now.map fun p => p.2)

end Sys2Proof.Machine
end

