-- ==== Sys2Proof/Machine/Generator.lean ====
section
/-! DEFINITION. Address generators (R151 to R153, R327 to R330): the addresses of a loop, requests and
their words, draining stores under guard tokens, dirty ranges and the logs of a region (R33, R104),
faults and their records (R347 to R349), events (R351). -/

namespace Sys2Proof.Machine

/-! ### Addresses (R328) -/

/-- R328: the sum over the counters of index × stride, from the divisor of the first counter on. -/
def loopOffset : List Nat → List Int → Nat → Nat → Int
  | e :: es, s :: ss, d, j => ((j / d % e : Nat) : Int) * s + loopOffset es ss (d * e) j
  | _, _, _, _ => 0

/-- R328: the address of word j, wrapped in its space. -/
def AgPort.addrOf (a : AgPort) (j : Nat) : Nat :=
  intWrap (if a.rsm then 27 else 57) ((a.base : Int) + loopOffset a.extents a.strides 1 j)

/-- R63: W and N of a carousel page, by its leaf. -/
def leafBlock (e : Word) : Option (Nat × Nat) :=
  if pteFmt e = 24 then some (4, 16 * 2 ^ pteGeo e)
  else if pteFmt e = 25 then some (8, 16 * 2 ^ pteGeo e)
  else none

/-! ### Out-of-range records (R87) -/

/-- R87: records of an element, the first one kept. -/
def elOor (s : State) (r e : Nat) : List (Nat × Bool × Nat) → State
  | [] => s
  | (l, w, a) :: rest => elOor (s.setRegion r ((s.region r).oorAt e l w a)) r e rest

/-! ### Requests (R152, R329) -/

/-- What a request of a word answers. -/
inductive AgWord where
  | ok (q : QEntry) (oor : List (Nat × Bool × Nat))
  /-- R347: KIND and CODE -/
  | fault (kind code : Nat)
  /-- R37: a bank tagged with another context -/
  | held
  deriving DecidableEq, Repr

/-- A loaded word as a queue entry. -/
def loadEntry (bs : List Byte) (j a : Nat) (block : Option (Nat × Nat)) : QEntry :=
  { bytes := bs, token := -1, index := j, addr := some a, landed := false, block := block
    size := if bs.length > 64 then 2 else 1, born := 0, closed := false }

/-- R347: KIND and CODE of a failed access. -/
def accFault {α : Type} : Acc α → Nat × Nat
  | .xlate c _ => (1, c)
  | .memerr _ _ => (3, 0)
  | _ => (4, 0)

/-- R328, R347: word j read for a load port of an element. -/
def agRead (s : State) (r e : Nat) (a : AgPort) (j : Nat) : AgWord × State :=
  if a.rsm then
    let va := a.addrOf j / 64 * 64
    match readRsm s r va 64 with
    | (.ok (bs, out), t) => (.ok (loadEntry bs j va none) (if out then [(2, false, va)] else []), t)
    | (.bank _ _ _, t) => (.held, t)
    | (x, t) => (.fault (accFault x).1 (accFault x).2, t)
  else
    let va := va64 (a.addrOf j)
    let x := regionCtx s r (elemCoord s r e 2)
    match xlate s x va .read true with
    | (.fault c, t) => (.fault 1 c, t)
    | (.memerr _, t) => (.fault 3 0, t)
    | (.unreach _, t) => (.fault 4 0, t)
    | (.ok pa leaf, t) =>
      match leafBlock leaf with
      | some (w, n) =>
        let zero := loadEntry (zeroBlock w n) j va (some (w, n))
        if !isBlockStart w n va then (.ok zero [(4, false, va)], t)
        else if t.place pa = .cspHole then (.ok zero [(3, false, va)], t)
        else
          match readVirt t x va (blockSize w n) .read with
          | (.ok (bs, _), u) =>
            match headerFault w (blockHeader w n bs) (mapGet Codebook.none (u.region r).books) with
            | some c => (.fault 2 c, u)
            | none => (.ok (loadEntry bs j va (some (w, n))) [], u)
          | (x, u) => (.fault (accFault x).1 (accFault x).2, u)
      | none =>
        let va := va / 64 * 64
        match readVirt t x va 64 .read with
        | (.ok (bs, out), u) =>
          (.ok (loadEntry bs j va none) (match out with
            | none => []
            | some o => [(3, false, o)]), u)
        | (x, u) => (.fault (accFault x).1 (accFault x).2, u)

/-- Queue entries in use (R136, R325). -/
def queueUsed (q : List QEntry) : Nat := q.foldl (fun n x => n + x.size) 0

/-- R136: the free entries of a queue. -/
def AgPort.free (a : AgPort) : Nat := 8 - queueUsed a.queue

/-- R152: the head of a load queue, once it has landed. -/
def AgPort.head (a : AgPort) : Option QEntry :=
  match a.queue with
  | [] => none
  | x :: _ => if x.landed then some x else none

/-- R152: the oldest requested word lands. -/
def landOldest : List QEntry → List QEntry
  | [] => []
  | x :: r => if x.landed then x :: landOldest r else { x with landed := true } :: r

/-! ### Stores (R153, R329, R330) -/

/-- R329: entries without an address take the loop's next addresses, in push order. -/
def assignAddrs (a : AgPort) : List QEntry → Nat → List QEntry × Nat
  | [], n => ([], n)
  | x :: r, n =>
    match x.addr with
    | some _ => let (l, m) := assignAddrs a r n; (x :: l, m)
    | none =>
      if a.running && decide (n < a.count) then
        let (l, m) := assignAddrs a r (n + 1)
        ({ x with index := n, addr := some (a.addrOf n) } :: l, m)
      else (x :: r, n)

/-- R329: a store port gives addresses to its waiting entries. -/
def AgPort.assign (a : AgPort) : AgPort :=
  if a.kind ≠ 2 then a
  else
    let (q, n) := assignAddrs a a.queue a.next
    { a with queue := q, next := n, moved := n }

/-- R153: a push; the entry takes its address at once when the loop has one. -/
def AgPort.push (a : AgPort) (x : QEntry) : AgPort := { a with queue := a.queue ++ [x] }.assign

/-- R287: a pop of the head word. -/
def AgPort.pop (a : AgPort) : AgPort := { a with queue := a.queue.drop 1, moved := a.moved + 1 }

/-- R141: a stream takes one beat of the head word: a block of 66 bytes gives its first 64, and its last 2 stay for
the next pop. The second beat is padded with zeros and has every lane valid (DESIGN CHOICE: the spec says nothing of
the rest of that beat, notes/assumptions/85.md). -/
def AgPort.popBeat (a : AgPort) : AgPort :=
  match a.queue with
  | x :: r =>
    if x.size ≤ 1 then a.pop else { a with queue := { x with bytes := x.bytes.drop 64, block := none, size := 1 } :: r }
  | [] => a.pop

/-- R104: the dirty range widened by bytes a to a + n − 1 of the virtual space. -/
def AgPort.widen (a : AgPort) (va n : Nat) : AgPort :=
  if a.rsm || n = 0 then a
  else
    let lo := va % 2 ^ 57
    let hi := (va + n - 1) % 2 ^ 57
    { a with dirty := match a.dirty with
      | none => some (lo, hi)
      | some (l, h) => some (min l lo, max h hi) }

/-- R330: runs of lane slots whose token bit is 1, as first byte and length. -/
def tokenRuns (t : BitVec 16) : Nat → List (Nat × Nat)
  | 0 => []
  | n + 1 =>
    let r := tokenRuns t n
    if !t.getLsbD n then r
    else match r with
      | (o, l) :: rest => if o + l = 4 * n then (o, l + 4) :: rest else (4 * n, 4) :: r
      | [] => [(4 * n, 4)]

/-- What a store of an entry answers. -/
inductive AgStore where
  /-- the runs written, the records -/
  | ok (runs : List (Nat × Nat)) (oor : List (Nat × Bool × Nat))
  | fault (kind code : Nat)
  | held
  deriving DecidableEq, Repr

/-- Runs of an entry written one after another; a failure ends it. -/
def writeRuns (x : XCtx) (va : Nat) (bs : List Byte) : List (Nat × Nat) → State → Acc (List (Nat × Bool × Nat)) × State
  | [], s => (.ok [], s)
  | (o, n) :: r, s =>
    match writeVirt s x (va + o) ((bs.drop o).take n) false with
    | (.ok out, t) =>
      match writeRuns x va bs r t with
      | (.ok l, u) => (.ok ((match out with
          | none => []
          | some a => [(3, true, a)]) ++ l), u)
      | e => e
    | (e, t) => (e.map fun _ => [], t)

/-- The same in the RSM space. -/
def writeRsmRuns (r va : Nat) (bs : List Byte) : List (Nat × Nat) → State → Acc (List (Nat × Bool × Nat)) × State
  | [], s => (.ok [], s)
  | (o, n) :: rest, s =>
    match writeRsm s r (va + o) ((bs.drop o).take n) with
    | (.ok out, t) =>
      match writeRsmRuns r va bs rest t with
      | (.ok l, u) => (.ok ((if out then [(2, true, va + o)] else []) ++ l), u)
      | e => e
    | (e, t) => (e.map fun _ => [], t)

/-- R330: the runs of bytes that an entry writes. -/
def entryRuns (q : QEntry) : List (Nat × Nat) :=
  match q.block with
  | some _ => if q.token = 0 then [] else [(0, q.bytes.length)]
  | none => (tokenRuns q.token 16).reverse

/-- R104: of the pieces of a write, those that reach memory: up to the first whose home cannot be reached or takes no
part of a unit, and outside the CSP holes. -/
def piecesDone (s : State) (part : Nat) (l : List Piece) : List Piece :=
  (l.takeWhile fun p => pieceHole s p ||
    !(pieceLost s part p || mergesPoison s (canonPa s.pkg.toNat p.pa) p.n)).filter fun p => !pieceHole s p

/-- R104: the bytes that runs of an entry reach memory with, as first byte and length, one run after another. -/
def runsDone (x : XCtx) (va : Nat) (bs : List Byte) : List (Nat × Nat) → State → List (Nat × Nat)
  | [], _ => []
  | (o, n) :: r, s =>
    let done := match pieces s x (va + o) n .write false with
      | (.ok l, t) => (piecesDone t x.part l).map fun p => ((p.va + 2 ^ 64 - va) % 2 ^ 64, p.n)
      | _ => []
    match writeVirt s x (va + o) ((bs.drop o).take n) false with
    | (.ok _, t) => done ++ runsDone x va bs r t
    | _ => done

/-- R325, R330: whether an entry lands on the page of a leaf: beats on plain pages, blocks on the pages of their kind. -/
def QEntry.lands (q : QEntry) (leaf : Word) (va : Nat) : Bool :=
  match q.block, leafBlock leaf with
  | none, none => true
  | none, some _ => false
  | some _, none => pteFmt leaf = 0
  | some (w, n), some p => p = (w, n) && isBlockStart w n va

/-- The first virtual address of an entry's bytes. -/
def QEntry.va (q : QEntry) : Nat :=
  if q.block = none then va64 (q.addr.getD 0) / 64 * 64 else va64 (q.addr.getD 0)

/-- R104: the bytes that the store of an entry writes to memory, as first byte and length: what it writes before it
fails too. -/
def landedRuns (s : State) (r e : Nat) (a : AgPort) (q : QEntry) : List (Nat × Nat) :=
  let x := regionCtx s r (elemCoord s r e 2)
  if a.rsm then []
  else match xlate s x q.va .write false with
    | (.ok _ leaf, t) => if q.lands leaf q.va then runsDone x q.va q.bytes (entryRuns q) t else []
    | _ => []

/-- R104: the dirty range widened by what the store of an entry writes; an entry of a closed stream widens none. -/
def AgPort.dirtied (a : AgPort) (q : QEntry) (runs : List (Nat × Nat)) : AgPort :=
  if q.closed then a else runs.foldl (fun b u => b.widen (q.va + u.1) u.2) a

/-- R153, R325, R330: the store of an entry at its address. -/
def agWrite (s : State) (r e : Nat) (a : AgPort) (q : QEntry) : AgStore × State :=
  let runs := entryRuns q
  if runs = [] then (.ok [] [], s)
  else if a.rsm then
    let va := q.addr.getD 0 / 64 * 64
    match writeRsmRuns r va q.bytes runs s with
    | (.ok l, t) => (.ok runs l, t)
    | (.bank _ _ _, t) => (.held, t)
    | (x, t) => (.fault (accFault x).1 (accFault x).2, t)
  else
    let va := q.va
    let x := regionCtx s r (elemCoord s r e 2)
    match xlate s x va .write false with
    | (.fault c, t) => (.fault 1 c, t)
    | (.memerr _, t) => (.fault 3 0, t)
    | (.unreach _, t) => (.fault 4 0, t)
    | (.ok _ leaf, t) =>
      if !q.lands leaf va then (.ok [] [(4, true, va)], t)
      else
        match writeRuns x va q.bytes runs t with
        | (.ok l, u) => (.ok (landedRuns s r e a q) l, u)
        | (y, u) => (.fault (accFault y).1 (accFault y).2, u)

/-! ### The logs of a region (R33, R104, R364) -/

/-- Whether a log records, and whether a record fits. -/
def logEn (w : Word) : Bool := w.getLsbD 0
def logFits (w : Word) (pos size : Nat) : Bool := decide ((pos + 1) * size ≤ 4096 * 2 ^ nbits w.toNat 63 60)
def logOvf (w : Word) : Word := w ||| BitVec.ofNat 64 (2 ^ 11)
def logVa (w : Word) (pos size : Nat) : Nat :=
  (va64 (nbits w.toNat 56 12 * 4096) + pos * size) % 2 ^ 64

/-- R33, R364: a record appended to the busy map. -/
def logBusy (s : State) (r v : Nat) : State :=
  let g := s.region r
  let pos := g.busypos.toNat
  if !logEn g.busymap then s
  else if !logFits g.busymap pos 64 then s.setRegion r { g with busymap := logOvf g.busymap }
  else
    match writeVirt s (regionCtx s r (regionCoord s r 3)) (logVa g.busymap pos 64) (natToLe v 64) true with
    | (.ok _, t) => t.setRegion r { t.region r with busypos := g.busypos + 1 }
    | (_, t) => t.setRegion r { t.region r with busymap := logOvf g.busymap }

/-- R104, R364: a record appended to the dirty-range log. -/
def logDirty (s : State) (r v : Nat) : State :=
  let g := s.region r
  let pos := g.dirtypos.toNat
  if !logEn g.dirtylog then s
  else if !logFits g.dirtylog pos 32 then s.setRegion r { g with dirtylog := logOvf g.dirtylog }
  else
    match writeVirt s (regionCtx s r (regionCoord s r 3)) (logVa g.dirtylog pos 32) (natToLe v 32) true with
    | (.ok _, t) => t.setRegion r { t.region r with dirtypos := g.dirtypos + 1 }
    | (_, t) => t.setRegion r { t.region r with dirtylog := logOvf g.dirtylog }

/-- R104: the record of one store stream that closes. -/
def closePort (s : State) (r e p cause : Nat) : State :=
  let a := ((s.region r).element e).ag p
  match a.kind, a.dirty with
  | 2, some (lo, hi) =>
    let v := hi * 2 ^ 199 + lo * 2 ^ 142 + ctxCid (s.region r).ctx * 2 ^ 130 + r * 2 ^ 120 +
      e / 16 * 2 ^ 116 + e % 16 * 2 ^ 112 + p * 2 ^ 111 + cause * 2 ^ 109
    let t := logDirty s r v
    let x := (t.region r).element e
    t.setRegion r ((t.region r).setElement e (x.setAg p { x.ag p with dirty := none }))
  | _, _ => s

/-- R104: both store streams of an element close. -/
def closeElement (s : State) (r e cause : Nat) : State := closePort (closePort s r e 0 cause) r e 1 cause

/-! ### Ring words and pacing (R137, R152, R329) -/

/-- The elements of an island, as 16 × row + column. -/
def Island.cells (i : Island) : List Nat :=
  (upTo i.nrow).flatMap fun a => (upTo i.ncol).map fun b => 16 * (i.row0 + a) + i.col0 + b

def Island.covers (i : Island) (e : Nat) : Bool :=
  decide (i.row0 ≤ e / 16) && decide (e / 16 < i.row0 + i.nrow) && decide (i.col0 ≤ e % 16) &&
    decide (e % 16 < i.col0 + i.ncol)

/-- R137: the period. -/
def Island.period (i : Island) : Nat := Nat.lcm (Nat.lcm i.lop i.lrt) i.lra

/-- The island that holds an element. -/
def Region.islandOf (g : Region) (e : Nat) : Option (Nat × Island) :=
  match g.islands.find? (fun p => match p.2 with
    | some i => i.covers e
    | none => false) with
  | some (k, some i) => some (k, i)
  | _ => none

/-- R137: the three ring words of an element at a counter value. -/
def opWord (i : Island) (e : Element) (c : Nat) : Nat := e.ops.getD (c % i.lop) 0
def routeWord (i : Island) (e : Element) (c : Nat) : Nat := e.routes.getD (c % i.lrt) 0
def regWord (i : Island) (e : Element) (c : Nat) : Nat := e.regs.getD (c % i.lra) 0

/-- R139, R141: the fields of a route word. -/
def rtIna (w : Nat) : Nat := nbits w 15 13
def rtInb (w : Nat) : Nat := nbits w 12 10
def rtOut (w : Nat) : Nat := nbits w 9 7
def rtOut2 (w : Nat) : Nat := nbits w 6 4
def rtOsrc (w : Nat) : Nat := nbits w 3 2
def rtTs (w : Nat) : Bool := nbit w 1
def rtLast (w : Nat) : Bool := nbit w 0

/-- The op of a ring word; a word that is none does nothing, since no image holds one (R215). -/
def instrOf (w : Nat) : Instr :=
  match decodeE w with
  | .ok i => i
  | .error _ => .vnop

/-- R287, R310, R319, R326: the load port that an op pops. -/
def opPop : Instr → Option Nat
  | .vpop p => some p.toNat
  | .mbloadQueue p => some p.toNat
  | .vcld _ p _ _ _ => some p.toNat
  | _ => none

/-- R287: whether ring words pop a load port. -/
def ringPops (op route reg p : Nat) : Bool :=
  (p = 0 && rtInb route = 7 && regStream reg) ||
  (rtOsrc route = p + 2 && (rtOut route ≠ 0 || rtOut2 route ≠ 0)) ||
  opPop (instrOf op) = some p

/-- R329: whether an element pops a load port n ticks from now: by ring words, up to the end of the last trip, or
by a matrix run, which goes on to its own end (R320). -/
def popsAhead (i : Island) (e : Element) (p n : Nat) : Bool :=
  let c := (i.counter + n) % i.period
  (decide (n < i.trips * i.period - i.counter) && ringPops (opWord i e c) (routeWord i e c) (regWord i e c) p) ||
    (match e.run with
      | some r => runPop { e with run := some { r with clock := r.clock + n } } = some p
      | none => false)

/-- R329: the pops of a load port in the ticks up to its lead. -/
def popsWithin (i : Island) (e : Element) (p : Nat) : Nat → Nat
  | 0 => if popsAhead i e p 0 then 1 else 0
  | n + 1 => popsWithin i e p n + (if popsAhead i e p (n + 1) then 1 else 0)

/-- Whether ops or the array of an element pop a load port, which take a word whole; streams take beats (R141). -/
def wholePops (e : Element) (p : Nat) : Bool :=
  (e.ops.any fun w => opPop (instrOf w) = some p) || (match e.run with
    | some r => r.port = p
    | none => false)

/-- R141: the beats in a load queue beyond one a word. -/
def extraBeats (e : Element) (p : Nat) : Nat :=
  if wholePops e p then 0 else queueUsed (e.ag p).queue - (e.ag p).queue.length

/-- R152, R329: how many words a load port requests now, as far as it has free entries. -/
def wordsDue (i : Island) (e : Element) (p : Nat) : Nat :=
  let a := e.ag p
  if a.kind ≠ 1 || a.fault ≠ none || i.unit = none then 0
  else min (min a.free (a.count - a.next)) (a.moved + popsWithin i e p a.lead - (a.next + extraBeats e p))

/-- R152, R329: whether a load port requests its next word now. -/
def requestDue (i : Island) (e : Element) (p : Nat) : Bool := decide (0 < wordsDue i e p)

/-! ### Steps of a port -/

/-- The port of an element of a region. -/
def State.agPort (s : State) (r e p : Nat) : AgPort := ((s.region r).element e).ag p

def State.setAgPort (s : State) (r e p : Nat) (a : AgPort) : State :=
  let x := (s.region r).element e
  s.setRegion r ((s.region r).setElement e (x.setAg p a))

/-- Where a word of a port lies: in RSM or in memory, its first address there and its length, and the ordering kind
of its page (R109). -/
structure Span where
  rsm : Bool
  first : Nat
  len : Nat
  ord : Nat
  deriving DecidableEq, Repr

/-- Whether two spans share a byte. -/
def Span.meets (a b : Span) : Bool :=
  a.rsm = b.rsm && decide (a.first < b.first + b.len) && decide (b.first < a.first + a.len)

/-- R112, R115, R116: whether two accesses of one island keep their order: to one location, unless a page of it is
unordered, or both on strongly ordered pages. -/
def Span.ordered (a b : Span) : Bool :=
  (a.ord = 1 && b.ord = 1) || (a.ord ≠ 2 && b.ord ≠ 2 && a.meets b)

/-- The span of n bytes at a virtual address, if it translates for the access. -/
def virtSpan (s : State) (r e va n : Nat) (k : Access) : Option Span :=
  match (xlate s (regionCtx s r (elemCoord s r e 2)) va k false).1 with
  | .ok pa leaf => some (match leafBlock leaf with
    | some (w, g) => { rsm := false, first := canonPa s.pkg.toNat pa, len := max n (blockSize w g), ord := pteOrd leaf }
    | none => { rsm := false, first := canonPa s.pkg.toNat pa / 64 * 64, len := 64 + n, ord := pteOrd leaf })
  | _ => none

/-- R109: accesses to RSM follow the release-consistent kind. -/
def rsmSpan (a : Nat) : Span := { rsm := true, first := a / 64 * 64, len := 64, ord := 0 }

/-- The span of word j of a load port, and of a store entry that has an address. -/
def loadSpan (s : State) (r e : Nat) (a : AgPort) (j : Nat) : Option Span :=
  if a.rsm then some (rsmSpan (a.addrOf j)) else virtSpan s r e (va64 (a.addrOf j)) 0 .read

def entrySpan (s : State) (r e : Nat) (a : AgPort) (q : QEntry) : Option Span :=
  match q.addr with
  | none => none
  | some x => if a.rsm then some (rsmSpan x) else virtSpan s r e (va64 x) (if q.block = none then 0 else 66) .write

/-- Whether two accesses that both translate keep their order. -/
def keepOrder : Option Span → Option Span → Bool
  | some a, some b => a.ordered b
  | _, _ => false

/-- Each port of an island's elements. -/
def Island.ports (i : Island) : List (Nat × Nat) := i.cells.flatMap fun e => [(e, 0), (e, 1)]

/-- R112: whether a store that an island has queued before a tick, in a port of its own, keeps its order before an
access: a port's own entries drain in their order. -/
def storeBefore (s : State) (r : Nat) (i : Island) (own : Nat × Nat) (tick : Nat) (w : Option Span) : Bool :=
  i.ports.any fun x =>
    let a := s.agPort r x.1 x.2
    x ≠ own && a.kind = 2 && a.queue.any fun q => decide (q.born < tick) && keepOrder (entrySpan s r x.1 a q) w

/-- R112: whether a load of an island that became due before a tick, in another port, and is not yet requested, keeps
its order before an access. -/
def loadBefore (s : State) (r : Nat) (i : Island) (own : Nat × Nat) (tick : Nat) (w : Option Span) : Bool :=
  i.ports.any fun x =>
    let a := s.agPort r x.1 x.2
    x ≠ own && a.kind = 1 && (numbered a.asked).any fun k =>
      decide (k.2 < tick) && keepOrder (loadSpan s r x.1 a (a.next + k.1)) w

/-- R112, R115: whether an access of a port, which took its place in the island's order at a tick, waits for earlier
ones. -/
def accessWaits (s : State) (r e p tick : Nat) (w : Option Span) : Bool :=
  match (s.region r).islandOf e with
  | none => false
  | some (_, i) => storeBefore s r i (e, p) tick w || loadBefore s r i (e, p) tick w

/-- The tick at which the next word of a load port became due. -/
def AgPort.askedAt (a : AgPort) (now : Nat) : Nat := a.asked.headD (now + 1)

/-- R152, R112, R115: whether a port of an element may request: it is due, and waits for no earlier access of its
island. -/
def portDue (s : State) (r e p : Nat) : Bool :=
  match (s.region r).islandOf e with
  | none => false
  | some (_, i) =>
    let a := s.agPort r e p
    requestDue i ((s.region r).element e) p && !accessWaits s r e p (a.askedAt s.tick) (loadSpan s r e a a.next)

/-- R112: the words of the load ports of an element that are due after a tick of its island take their place in the
island's order. -/
def noteDue (r : Nat) (i : Island) (s : State) (e : Nat) : State :=
  let note (t : State) (p : Nat) : State :=
    let a := t.agPort r e p
    let n := wordsDue i ((t.region r).element e) p
    if n ≤ a.asked.length then t
    else t.setAgPort r e p { a with asked := a.asked ++ List.replicate (n - a.asked.length) (t.tick + 1) }
  note (note s 0) 1

/-- A load port that has requested, or given up, its next word. -/
def AgPort.took (a : AgPort) (q : QEntry) : AgPort :=
  { a with queue := a.queue ++ [q], next := a.next + 1, asked := a.asked.drop 1 }

/-- R152: a word that is due and can be read is requested. -/
def requestOnce (s : State) (r e p : Nat) : State :=
  if !portDue s r e p then s
  else
    let a := s.agPort r e p
    match agRead s r e a a.next with
    | (.ok q oor, t) =>
      if queueUsed a.queue + q.size > 8 then s
      else elOor (t.setAgPort r e p ((t.agPort r e p).took q)) r e oor
    | (.fault _ _, _) => s
    | (.held, t) => raiseSpill t r

/-- R152: LOAD_REQUEST_ISSUE: a fault is the other step (R347), and a bank of another context waits for its release
(R37). -/
def execLoadRequestIssue (r e p : Nat) (s : State) : Out := .next (requestOnce s r e p)

/-- R152: LOAD_REPLY_LAND. -/
def execLoadReplyLand (r e p : Nat) (s : State) : Out :=
  let a := s.agPort r e p
  if a.kind ≠ 1 then .next s else .next (s.setAgPort r e p { a with queue := landOldest a.queue })

/-- The oldest entry of a store port that has an address. -/
def drainHead (a : AgPort) : Option QEntry :=
  match a.queue with
  | [] => none
  | q :: _ => if a.kind = 2 && a.fault = none && q.addr ≠ none then some q else none

/-- R112, R115: whether an entry of a store port waits for earlier accesses of its island. -/
def drainWaits (s : State) (r e p : Nat) (q : QEntry) : Bool :=
  accessWaits s r e p q.born (entrySpan s r e (s.agPort r e p) q)

/-- R116: the entries of a store port, by their places, of which any may drain next: the oldest, and while its page is
unordered every later one on such a page. -/
def drainPicks (s : State) (r e : Nat) (a : AgPort) : List Nat :=
  let loose (q : QEntry) : Bool := ((entrySpan s r e a q).map Span.ord).getD 0 = 2
  match a.queue with
  | [] => []
  | q :: l => if loose q then 0 :: ((numbered l).filter fun x => loose x.2).map fun x => x.1 + 1 else [0]

/-- R116: the entry of a store port that drains next, first in its queue: one of those that may, left open. -/
def pickDrain (s : State) (r e p : Nat) : State :=
  let a := s.agPort r e p
  let l := drainPicks s r e a
  if l.length ≤ 1 then s
  else
    let (n, t) := s.takeFree
    let k := l.getD (n % l.length) 0
    t.setAgPort r e p { a with queue := (a.queue.drop k).take 1 ++ a.queue.take k ++ a.queue.drop (k + 1) }

/-- R153, R104: the oldest entry of a store port drains. -/
def drainOnce (s : State) (r e p : Nat) : State :=
  let a := s.agPort r e p
  match drainHead a with
  | none => s
  | some q =>
    match agWrite s r e a q with
    | (.ok runs oor, t) =>
      let b := { t.agPort r e p with queue := (t.agPort r e p).queue.drop 1 }
      elOor (t.setAgPort r e p (b.dirtied q runs)) r e oor
    | (.fault _ _, _) => s
    | (.held, t) => raiseSpill t r

/-- R153, R112, R116: an entry of a store port drains, unless it waits. -/
def drainNext (s0 : State) (r e p : Nat) : State :=
  let s := pickDrain s0 r e p
  match drainHead (s.agPort r e p) with
  | none => s0
  | some q =>
    if drainWaits s r e p q then s0
    else match (agWrite s r e (s.agPort r e p) q).1 with
      | .fault _ _ => s0
      | _ => drainOnce s r e p

/-- R153: STORE_QUEUE_DRAIN. -/
def execStoreQueueDrain (r e p : Nat) (s : State) : Out := .next (drainNext s r e p)

/-- Whether stores of a port to RSM are queued. -/
def AgPort.rsmStores (a : AgPort) : Bool := a.kind = 2 && a.rsm && a.queue.any fun q => q.addr ≠ none

/-- The ports of an island's elements whose RSM stores are queued, and those whose RSM loads are due. -/
def rsmPorts (s : State) (r : Nat) (i : Island) : List (Nat × Nat) := i.ports.filter fun x => (s.agPort r x.1 x.2).rsmStores
def rsmLoads (s : State) (r : Nat) (i : Island) : List (Nat × Nat) :=
  i.ports.filter fun x => (s.agPort r x.1 x.2).kind = 1 && (s.agPort r x.1 x.2).rsm && (s.agPort r x.1 x.2).asked ≠ []

/-- A round of the RSM accesses of an island: each port's next one performs if it waits for none. -/
def settleRound (s : State) (r : Nat) (i : Island) : State :=
  let t := (rsmLoads s r i).foldl (fun u x => requestOnce u r x.1 x.2) s
  (rsmPorts t r i).foldl (fun u x => drainNext u r x.1 x.2) t

/-- R123, R112: the RSM writes that an island has issued perform at their banks, in the island's order, with the loads
for which they wait. -/
def settleRsm (s : State) (r : Nat) (i : Island) : State :=
  let n := ((rsmPorts s r i).flatMap fun x => (s.agPort r x.1 x.2).queue).length
  let m := ((rsmLoads s r i).flatMap fun x => (s.agPort r x.1 x.2).asked).length
  (upTo (if n = 0 then 0 else n + m)).foldl (fun t _ => settleRound t r i) s

/-- R104: what a store stream will have written once its queued entries have drained, as far as they will not fail: they
belong to the stream that closes. -/
def closeQueued (s : State) (r e p : Nat) : State :=
  let a := s.agPort r e p
  if a.kind ≠ 2 then s
  else
    let wide := ((a.queue.filter fun q => !q.closed && q.addr ≠ none).foldl (fun (b, t) q =>
      (b.dirtied q (landedRuns t r e a q), (agWrite t r e a q).2)) (a, s)).1
    s.setAgPort r e p { wide with queue := wide.queue.map fun q => { q with closed := true } }

/-- R347, R351: a port stops, its record is written and the event is sent. -/
def recordFault (s : State) (r e p : Nat) (f : AgFault) : State :=
  let a := s.agPort r e p
  let wr := a.kind = 2
  let w0 := 1 + r * 2 ^ 8 + e / 16 * 2 ^ 18 + e % 16 * 2 ^ 22 + p * 2 ^ 26 + (if wr then 2 ^ 27 else 0) +
    f.kind % 16 * 2 ^ 28 + f.code % 2 ^ 16 * 2 ^ 32
  fireSnapshot (sendEvent (s.setAgPort r e p { a with fault := some f }) r w0 f.addr 0) 3

/-- R347: AG_FAULT: the word that a port would request or drain next faults, once it waits for none (R112). -/
def execAgFault (r e p : Nat) (s : State) : Out :=
  let a := s.agPort r e p
  if a.kind = 1 then
    if !portDue s r e p then .next s
    else match agRead s r e a a.next with
      | (.fault k c, t) =>
        .next (recordFault t r e p { kind := k, code := c, word := a.next, addr := a.addrOf a.next })
      | _ => .next s
  else match drainHead a with
    | none => .next s
    | some q =>
      if drainWaits s r e p q then .next s
      else match agWrite s r e a q with
        | (.fault k c, t) =>
          let u := t.setAgPort r e p ((t.agPort r e p).dirtied q (landedRuns s r e a q))
          .next (recordFault u r e p { kind := k, code := c, word := q.index, addr := q.addr.getD 0 })
        | _ => .next s

/-! ### RESUME and DISCARD (R349) -/

/-- The faulted port of an element. -/
def faultedPort (e : Element) : Option Nat :=
  if e.ag0.fault ≠ none then some 0 else if e.ag1.fault ≠ none then some 1 else none

/-- R349: RESUME: the record of a port is cleared and it requests the word again. -/
def agResume (s : State) (r e p : Nat) : State := s.setAgPort r e p { s.agPort r e p with fault := none, act := 0 }

/-- R349: what a write of EL_AGFAULT asks of the faulted port at the next tick boundary. -/
def agAsk (s : State) (r e act : Nat) : State :=
  match faultedPort ((s.region r).element e) with
  | none => s
  | some p => s.setAgPort r e p { s.agPort r e p with act := act }

/-- R349: the word that a load port lands in place of a word given up: a zero beat, or the zero block
where the word's page is known to be a carousel page. -/
def discardEntry (s : State) (r e : Nat) (a : AgPort) (j : Nat) : QEntry :=
  let va := va64 (a.addrOf j)
  let q (bs : List Byte) (b : Option (Nat × Nat)) : QEntry :=
    { loadEntry bs j va b with token := 0, landed := true }
  match (if a.rsm then none else (leafAt s (regionCtx s r (elemCoord s r e 2)) va).bind leafBlock) with
  | some (w, n) => q (zeroBlock w n) (some (w, n))
  | none => q (List.replicate 64 0) none

/-- R349: DISCARD: word j of a port is given up. -/
def agDiscard (s : State) (r e p : Nat) : State :=
  let a := s.agPort r e p
  if a.kind = 2 then s.setAgPort r e p { a with fault := none, act := 0, queue := a.queue.drop 1 }
  else s.setAgPort r e p { a.took (discardEntry s r e a a.next) with fault := none, act := 0 }

/-- What is done with the faulted port of an element, if it has one. -/
def onFaulted (f : State → Nat → Nat → Nat → State) (r e : Nat) (s : State) : State :=
  match faultedPort ((s.region r).element e) with
  | none => s
  | some p => f s r e p

def execAgfaultResume (r e : Nat) (s : State) : Out := .next (onFaulted agResume r e s)
def execAgfaultDiscard (r e : Nat) (s : State) : Out := .next (onFaulted agDiscard r e s)

/-- R349: what was asked of a port takes effect. -/
def portActs (r : Nat) (s : State) (x : Nat × Nat) : State :=
  match (s.agPort r x.1 x.2).act with
  | 0 => s
  | 1 => agResume s r x.1 x.2
  | _ => agDiscard s r x.1 x.2

/-- R349: what was asked of a region's generators takes effect, at the port that held the fault when it was asked. -/
def agActs (s : State) (r : Nat) : State :=
  ((s.region r).elements.flatMap fun p => [(p.1, 0), (p.1, 1)]).foldl (portActs r) s

/-- R348: whether a store port without a fault may still drain: its queue holds an entry that waits for nothing but
what the island's order puts before it at a faulted port (notes/assumptions/18.md). -/
def stillDrains (s : State) (r e p : Nat) : Bool :=
  let a := s.agPort r e p
  if a.queue = [] then false
  else match drainHead a with
    | none => true
    | some q => !drainWaits s r e p q || (s.region r).elements.any fun x => portDue s r x.1 0 || portDue s r x.1 1

/-- R348: whether a region is quiescent. -/
def quiescent (s : State) (r : Nat) : Bool :=
  let g := s.region r
  (g.elements.any fun e => faultedPort e.2 ≠ none) &&
  (g.islands.all fun p => match p.2 with
    | some i => i.unit = none || i.held ≠ none
    | none => true) &&
  (g.elements.all fun e => faultedPort e.2 ≠ none || (upTo 2).all fun p =>
    if (e.2.ag p).kind = 2 then !stillDrains s r e.1 p else (e.2.ag p).queue.all fun q => q.landed)

end Sys2Proof.Machine
end

