-- ==== Sys2Proof/Machine/Sync.lean ====
section
/-! DEFINITION. Messages between tasks (R275, R276), barriers (R277 to R279), waiting on a word (R280). -/

namespace Sys2Proof.Machine

/-! ### Messages -/

/-- R275: the scope of a send: that of the sender and the sequencer that the entry names, or none when
the entry names none. -/
def sendScope (s : State) (h : Nat) : Option Nat :=
  if h = 0 then none
  else match endpointGet s (coreKctx s s.cur) h with
    | (some w, _) => if epRegion w > 639 then none else some (lca (s.agent s.cur) (regionCoord s (epRegion w) 3))
    | (none, _) => none

/-- R275: the sender word: the endpoint of a sequencer task, 0 for a steward-core task. -/
def senderWord (s : State) : Word :=
  match s.cur with
  | .seq _ _ => BitVec.ofNat 64 (s.me.endpoint % 2 ^ 12)
  | .stew _ => 0

/-- R275: the message is placed; SENDST and d receive its outcome. -/
def placeMessage (d a : BitVec 5) (capped : Bool) (s : State) : State :=
  let l := s.me.listFrom a 3
  let h := ((l.getD 0 0).toNat) % 4096
  let (code, st, t) := sendMessage s (coreKctx s s.cur) h (l.drop 1) (senderWord s)
  let u := t.setMe { t.me with sendst := BitVec.ofNat 3 st, hold := .ready }
  (u.markCapped capped).status d code 0

def execSendm (d a : BitVec 5) (s : State) : Out :=
  match sendScope s ((s.reg a).toNat % 4096) with
  | none => .next (placeMessage d a false s)
  | some scope =>
    let cap := capMe s scope
    .next (releaseWait s (.sendm d a) cap.1 cap.2 (placeMessage d a cap.2))

/-- The first message for a slot and the queue without it. -/
def takeMessage (slot : Nat) : List Message → Option (Message × List Message)
  | [] => none
  | m :: r =>
    if m.slot = slot then some (m, r)
    else match takeMessage slot r with
      | none => none
      | some (x, l) => some (x, m :: l)

/-- Registers d to d + 3 take the payload and the sender word. -/
def Task.setMessage (t : Task) (d : BitVec 5) (p : List Word) (sender : Word) : Task :=
  (((t.set d (p.getD 0 0)).set (d + 1) (p.getD 1 0)).set (d + 2) (p.getD 2 0)).set (d + 3) sender

/-- R276: the head message of the slot's queue into d to d + 3; the task holds without one. -/
def receive (d : BitVec 5) (r slot : Nat) (s : State) : State :=
  match takeMessage slot (s.region r).queue with
  | none => s.holdMe (.wait (.recvm d))
  | some (m, q) =>
    let t := s.setRegion r { s.region r with queue := q }
    (t.setMe { (t.me.setMessage d m.payload (m.sender &&& ~~~ (1#64 <<< 63))) with hold := .ready }).advance 4

/-- R276: `recvm`; a steward core has no receive queue. -/
def execRecvm (d : BitVec 5) (s : State) : Out :=
  match s.cur with
  | .seq r n => .next (receive d r n (mailboxMove s r n))
  | .stew _ => .next ((s.setMe (s.me.setMessage d [] (1#64 <<< 63))).advance 4)

/-- R32, R276: RECVM_RELEASE: a task held in `recvm` takes a message of its queue. Messages that stay in the mailbox page for
want of room do not move here, but at the next `sendm`, `recvm` or `rrest` (DESIGN CHOICE, notes/assumptions/38.md). -/
def execRecvmRelease (c : CoreId) (s : State) : Out :=
  match (s.task c).hold, c with
  | .wait (.recvm d), .seq r n => .next (receive d r n { s with cur := c })
  | _, _ => .next s

/-! ### Barriers -/

/-- R277: the barrier unit of a core is that of its chiplet. -/
def coreChiplet : CoreId → Nat
  | .seq r _ => regionChiplet r
  | .stew c => c

/-- The entry of a barrier unit (R277). -/
def State.barrier (s : State) (u : Nat × Nat) : Option Barrier := mapGet none s.barriers (u.1 * 1024 + u.2)
def State.setBarrier (s : State) (u : Nat × Nat) (b : Option Barrier) : State :=
  { s with barriers := mapSet none s.barriers (u.1 * 1024 + u.2) b }

/-- The entry that a partition's handle is bound to. -/
def barBinding (s : State) (p h : Nat) : Option (Nat × Nat) := mapGet none (s.part p).barriers h

def bindBarrier (s : State) (p h : Nat) (u : Option (Nat × Nat)) : State :=
  s.setPart p { s.part p with barriers := mapSet none (s.part p).barriers h u }

/-- A free entry of the barrier unit of a chiplet: the lowest. -/
def freeBarrier (s : State) (c : Nat) : Option Nat := (upTo 1024).find? fun e => s.barrier (c, e) = none

/-- Every task slot and steward core of a partition. -/
def coresOf (s : State) (p : Nat) : List CoreId :=
  (((s.regions.map fun r => r.1).filter fun r => (s.region r).part = p).flatMap fun r =>
    (upTo 8).map fun n => CoreId.seq r n) ++
    ((s.stews.map fun c => c.1).filter fun c => (s.stew c).part = p).map fun c => CoreId.stew c

/-- A held instruction of a task ends with a status. -/
def State.endWait (s : State) (c : CoreId) (d : BitVec 5) (code value : Nat) : State :=
  let t := s.task c
  s.setTask c { (t.set d (statusWord code value)) with pc := t.pc + 4, hold := .ready }

/-- R277: a task held by `barwait` on a released handle returns BADHANDLE. -/
def dropWaiter (h : Nat) (s : State) (c : CoreId) : State :=
  match (s.task c).hold with
  | .wait (.barwait d x) => if x.toNat = h then s.endWait c d stBADHANDLE 0 else s
  | _ => s

def execBarinit (d a : BitVec 5) (h : BitVec 8) (s : State) : Out :=
  let n := (s.reg a).toNat
  let p := s.partOf s.cur
  if n > 65535 then .next (s.status d stBADDESC 0)
  else match barBinding s p h.toNat with
    | some u =>
      if n ≠ 0 then .next (s.status d stBUSY 0)
      else
        let t := bindBarrier (s.setBarrier u none) p h.toNat none
        .next (((coresOf t p).foldl (dropWaiter h.toNat) t).status d stOK 0)
    | none =>
      if n = 0 then .next (s.status d stALREADY 0)
      else
        let c := coreChiplet s.cur
        match freeBarrier s c with
        | none => .next (s.status d stFULL 0)
        | some e =>
          .next ((bindBarrier (s.setBarrier (c, e) (some { count := n, arrivals := 0, gen := 0 })) p h.toNat
            (some (c, e))).status d stOK 0)

/-- R278: one arrival: its generation into d, the recorded pair; the last arrival opens the next
generation. -/
def arrive (d : BitVec 5) (h : BitVec 8) (scope : Nat) (capped : Bool) (s0 : State) : State :=
  let s := s0.setMe { s0.me with hold := .ready }
  match barBinding s (s.partOf s.cur) h.toNat with
  | none => s.status d stBADHANDLE 0
  | some u => match s.barrier u with
    | none => s.status d stBADHANDLE 0
    | some b =>
      let b' : Barrier := if b.arrivals + 1 ≥ b.count
        then { b with arrivals := 0, gen := (b.gen + 1) % 2 ^ 32 } else { b with arrivals := b.arrivals + 1 }
      let t := s.setBarrier u (some b')
      let m := t.me
      ((t.setMe { m with pair := some (h.toNat, b.gen, scope) }).markCapped capped).status d stOK b.gen

def execBararr (d : BitVec 5) (sc : BitVec 3) (h : BitVec 8) (s : State) : Out :=
  match barBinding s (s.partOf s.cur) h.toNat with
  | none => .next (s.status d stBADHANDLE 0)
  | some _ =>
    let cap := capMe s sc.toNat
    .next (releaseWait s (.bararr d sc h) cap.1 cap.2 (arrive d h cap.1 cap.2))

/-- R279: the answer of `barwait` to the current task, or none while it holds. -/
def barwaitAnswer (s : State) (h : BitVec 8) : Option Nat :=
  match s.me.pair with
  | none => some stNOARRIVE
  | some (x, gen, _) =>
    if x ≠ h.toNat then some stNOARRIVE
    else match barBinding s (s.partOf s.cur) x with
      | none => some stBADHANDLE
      | some u => match s.barrier u with
        | none => some stBADHANDLE
        | some b => if b.gen = gen then none else some stOK

def barwaitStep (d : BitVec 5) (h : BitVec 8) (s : State) : State :=
  match barwaitAnswer s h with
  | none => s.holdMe (.wait (.barwait d h))
  | some code => (s.setMe { s.me with hold := .ready }).status d code 0

def execBarwait (d : BitVec 5) (h : BitVec 8) (s : State) : Out := .next (barwaitStep d h s)

def execBarwaitRelease (c : CoreId) (s : State) : Out :=
  match (s.task c).hold with
  | .wait (.barwait d h) => .next (barwaitStep d h { s with cur := c })
  | _ => .next s

/-! ### Waiting on a word (R280) -/

/-- R280: one reading of the word, an acquire at cap(SYS): the task holds while the word equals b, unless a store
has changed it meanwhile. -/
def waitaStep (d a b : BitVec 5) (changed : Bool) (s : State) : State :=
  match coreRead s (s.reg a).toNat 8 .read (scopeCode (capMe s 7).1) with
  | (.ok bs, t) =>
    let w := leToNat bs
    let u := t.markCapped (capMe t 7).2
    if BitVec.ofNat 64 w = s.reg b && !changed then u.holdMe (.wait (.waita d a b))
    else (u.setMe { u.me with hold := .ready }).status d stOK (w % 2 ^ 32)
  | (e, t) => t.fail (.waita d a b) e

def execWaita (d a b : BitVec 5) (s : State) : Out :=
  if (s.reg a).toNat % 8 ≠ 0 then .next (s.misaligned (s.reg a).toNat) else .next (waitaStep d a b false s)

def execWaitaRelease (c : CoreId) (s : State) : Out :=
  match (s.task c).hold with
  | .wait (.waita d a b) => .next (waitaStep d a b false { s with cur := c })
  | .changed (.waita d a b) => .next (waitaStep d a b true { s with cur := c })
  | _ => .next s

end Sys2Proof.Machine
end

