-- ==== Sys2Proof/Machine/Engines.lean ====
section
/-! DEFINITION. Engine commands (R245 to R258): issuing on a tag, the copy, gather, scatter, merge and
scan work as planned writes that are then emitted beat by beat, completion, abandonment (R248, R345),
and waiting on tags (R255, R256). -/

namespace Sys2Proof.Machine

/-! ### Queues of a region's engines (R247) -/

def Region.queueOf (g : Region) : Engine → List Command
  | .copy => g.copyq
  | .merge => g.mergeq
  | .attention => g.pipeq

def Region.setQueue (g : Region) (e : Engine) (q : List Command) : Region :=
  match e with
  | .copy => { g with copyq := q }
  | .merge => { g with mergeq := q }
  | .attention => { g with pipeq := q }

def tagBit (t : Nat) : Word := BitVec.ofNat 64 (2 ^ t)

/-- R89: a command issued on a tag. -/
def Task.beginCommand (t : Task) (tag : Nat) : Task :=
  { t with counts := mapSet 0 t.counts tag (mapGet 0 t.counts tag + 1)
           tags := t.tags &&& ~~~ (tagBit tag), tagc := t.tagc &&& ~~~ (tagBit tag) }

/-- R89, R59: a command on a tag complete or abandoned; its flags wait for the tag bit. -/
def Task.endCommand (t : Task) (tag : Nat) (fl : Flags) (abandoned : Bool) : Task :=
  let n := mapGet 0 t.counts tag - 1
  let pend := mapGet 0 t.tagflags tag ||| fl
  let t1 := { t with counts := mapSet 0 t.counts tag n
                     tagc := if abandoned then t.tagc ||| tagBit tag else t.tagc }
  if n = 0 then { t1 with tags := t1.tags ||| tagBit tag, fflags := t1.fflags ||| pend
                          tagflags := mapSet 0 t1.tagflags tag 0 }
  else { t1 with tagflags := mapSet 0 t1.tagflags tag pend }

/-- R247, R89, R25: whether the current task may issue to an engine: its queue has room and the tag's
count is below 15. -/
def canIssue (g : Region) (t : Task) (e : Engine) (tag : Nat) : Bool :=
  decide ((g.queueOf e).length < 16) && decide (mapGet 0 t.counts tag < 15)

/-- R247: a command enters its queue, or the task holds; R25: OVF when its counter is full. -/
def issueCommand (r n : Nat) (e : Engine) (i : Instr) (d : BitVec 5) (list : List Word) (tag : Nat)
    (desc : List Byte) (s : State) : State :=
  let g := s.region r
  let m := g.task n
  if !canIssue g m e tag then s.holdMe (.wait i)
  else if m.counter ≠ 0 && ctrFull s g.part m.counter 1 then
    (s.setMe { m with hold := .ready }).status d stOVF 0
  else
    let c : Command :=
      { instr := i, list := list, owner := .slot n, tag := tag, counter := m.counter, desc := desc
        rest := none }
    let s1 := ctrAdd s g.part m.counter 1
    let s2 := s1.setMe { (s1.me.beginCommand tag) with hold := .ready }
    let h := s2.region r
    (s2.setRegion r (h.setQueue e (h.queueOf e ++ [c]))).status d stOK 0

/-! ### Faults of a command (R345) -/

structure EFault where
  kind : Nat
  code : Nat
  addr : Nat
  deriving DecidableEq, Repr

/-- R345: SQ_EFAULT of a command. -/
def efaultWord (tag engine : Nat) (f : EFault) : Word :=
  BitVec.ofNat 64 (2 ^ 63 + tag % 64 * 2 ^ 57 + f.kind % 16 * 2 ^ 53 + engine % 8 * 2 ^ 50 + f.code % 2 ^ 16)

/-- R345: the record of a task, unless one is valid already. -/
def Task.efaultAt (t : Task) (tag engine : Nat) (f : EFault) : Task :=
  if t.efault.getLsbD 63 then t
  else { t with efault := efaultWord tag engine f, efaddr := BitVec.ofNat 64 (f.addr % 2 ^ 57) }

/-- R345, R356: the cause that a failed access of an engine records. -/
def accEFault {α : Type} : Acc α → EFault
  | .xlate c va => { kind := 1, code := c, addr := va }
  | .memerr _ va => { kind := 3, code := 0, addr := va }
  | .unreach _ va => { kind := 4, code := 0, addr := va }
  | _ => { kind := 4, code := 0, addr := 0 }

/-! ### Work of a command: reads now, planned writes, one fault at most -/

/-- One planned write. -/
structure PWrite where
  va : Nat
  bytes : List Byte
  flags : Flags
  deriving DecidableEq, Repr

/-- A command under way: the state after its reads, its writes and out-of-range records (newest first),
its flags that belong to no write, its fault, whether it met a bank of another context (R37), and the tables that it
reads once, with what it read (R165). -/
structure Job where
  s : State
  x : XCtx
  r : Nat
  writes : List PWrite
  oor : List (Nat × Bool × Nat)
  flags : Flags
  fault : Option EFault
  held : Bool
  tables : List ((Nat × Nat) × Nat)
  deriving DecidableEq, Repr

def Job.start (s : State) (r kind : Nat) : Job :=
  { s := s, x := regionCtx s r (regionCoord s r kind), r := r, writes := [], oor := [], flags := 0
    fault := none, held := false, tables := [] }

/-- Whether the command goes on. -/
def Job.going (j : Job) : Bool := j.fault = none && !j.held

/-- R345: the address that a fault records: virtual, or the RSM address zero-extended. -/
def faultAddr (addr : Nat) : Nat := if isRsm addr then addr % 2 ^ 27 else addr

/-- The command meets a fault, if it still goes on. -/
def Job.fail (j : Job) (kind code addr : Nat) : Job :=
  if j.going then { j with fault := some { kind := kind, code := code, addr := faultAddr addr } } else j

/-- The command meets a failed access. -/
def Job.stop {α : Type} (j : Job) (t : State) : Acc α → Job
  | .ok _ => { j with s := t }
  | .bank _ _ _ => { j with s := t, held := true }
  | a => { j with s := t, fault := some (accEFault a) }

def Job.addOor (j : Job) (lvl : Nat) (wr : Bool) : Option Nat → Job
  | none => j
  | some a => { j with oor := (lvl, wr, a) :: j.oor }

/-- A read of n bytes of one beat; zeros once the command has stopped. -/
def Job.readBeat (j : Job) (va n : Nat) : List Byte × Job :=
  if !j.going then (List.replicate n 0, j)
  else if isRsm va then
    match readRsm j.s j.r (va % 2 ^ 27) n with
    | (.ok (bs, _), t) =>
      (bs, { j with s := t }.addOor 2 false (rsmFirstOut (t.region j.r) (va % 2 ^ 27) n))
    | (a, t) => (List.replicate n 0, j.stop t a)
  else
    match readVirt j.s j.x va n .read with
    | (.ok (bs, o), t) => (bs, { j with s := t }.addOor 3 false o)
    | (a, t) => (List.replicate n 0, j.stop t a)

/-- R345: a read in beats of 64 bytes, of which one that fails is named. The first argument bounds the beats. -/
def Job.readBeats : Nat → Nat → Nat → Job → List Byte × Job
  | 0, _, _, j => ([], j)
  | f + 1, va, n, j =>
    if n = 0 then ([], j)
    else
      let m := min n (64 - va % 64)
      let (bs, k) := j.readBeat va m
      let next := if isRsm va then va - va % 2 ^ 27 + (va + m) % 2 ^ 27 else (va + m) % 2 ^ 64
      let (l, k') := Job.readBeats f next (n - m) k
      (bs ++ l, k')

/-- A read of n bytes; zeros once the command has stopped. -/
def Job.read (j : Job) (va n : Nat) : List Byte × Job := Job.readBeats (n / 64 + 2) (va % 2 ^ 64) n j

/-- A read of a little-endian number. -/
def Job.num (j : Job) (va n : Nat) : Nat × Job :=
  let (bs, k) := j.read va n
  (leToNat bs, k)

/-- R165: a number of a table, read at its first use. -/
def Job.once (j : Job) (va n : Nat) : Nat × Job :=
  match j.tables.find? fun p => p.1 = (va, n) with
  | some p => (p.2, j)
  | none =>
    let (v, k) := j.num va n
    (v, if k.going then { k with tables := ((va, n), v) :: k.tables } else k)

/-- Whether two virtual addresses name one byte. -/
def Job.samePlace (j : Job) (a b : Nat) : Bool :=
  a = b || (a % 4096 = b % 4096 && !isRsm a && !isRsm b &&
    match (xlate j.s j.x a .write false).1, (xlate j.s j.x b .read false).1 with
    | .ok p _, .ok q _ => p = q
    | _, _ => false)

/-- The byte that a planned write puts at an address. -/
def Job.wroteAt (j : Job) (va : Nat) (w : PWrite) : Option Byte :=
  (w.bytes.zip (upTo w.bytes.length)).findSome? fun p =>
    if j.samePlace ((w.va + p.2) % 2 ^ 64) va then some p.1 else none

/-- The newest byte planned for an address. -/
def Job.plannedAt (j : Job) (va : Nat) : Option Byte := j.writes.findSome? (j.wroteAt va)

/-- R251: a read of source bytes: a byte that the command has already planned to write is the old byte or
the new one, a free choice (notes/assumptions/46.md). -/
def Job.source (j : Job) (va n : Nat) : List Byte × Job :=
  let (bs, k) := j.read va n
  let new := (upTo n).map fun i => k.plannedAt ((va + i) % 2 ^ 64)
  if !k.going || new.all (fun b => b = none) then (bs, k)
  else
    let (x, t) := k.s.takeFree
    (((bs.zip new).zip (upTo n)).map fun p => if nbit x p.2 then p.1.2.getD p.1.1 else p.1.1, { k with s := t })

/-- A planned write. -/
def Job.put (j : Job) (va : Nat) (bs : List Byte) (f : Flags) : Job :=
  if !j.going || bs = [] then j
  else { j with writes := { va := va % 2 ^ 64, bytes := bs, flags := f } :: j.writes }

/-- R248, R379: the writes of the line that a failed access feeds are not made. -/
def Job.dropLine (j : Job) (va : Nat) : Job :=
  { j with writes := j.writes.dropWhile fun w => w.va / 64 = va % 2 ^ 64 / 64 }

/-! ### Emitting the writes (R26, R248, R361) -/

/-- What emitting answers: the state, the number of writes made, their flags, records, a fault. -/
structure Emitted where
  s : State
  done : Nat
  flags : Flags
  oor : List (Nat × Bool × Nat)
  fault : Option EFault
  held : Bool
  deriving DecidableEq, Repr

/-- Adjoining writes of a beat as one store (R361). -/
def coalesce : List PWrite → List (Nat × List Byte)
  | [] => []
  | w :: r => match coalesce r with
    | (a, bs) :: rest => if w.va + w.bytes.length = a then (w.va, w.bytes ++ bs) :: rest
        else (w.va, w.bytes) :: (a, bs) :: rest
    | [] => [(w.va, w.bytes)]

/-- One store of an engine. -/
def engineStore (x : XCtx) (r : Nat) (s : State) (va : Nat) (bs : List Byte) :
    Acc (Option (Nat × Bool × Nat)) × State :=
  if isRsm va then
    match writeRsm s r (va % 2 ^ 27) bs with
    | (.ok _, t) => (.ok ((rsmFirstOut (t.region r) (va % 2 ^ 27) bs.length).map fun a => (2, true, a)), t)
    | (a, t) => (a.map fun _ => none, t)
  else
    match writeVirt s x va bs true with
    | (.ok o, t) => (.ok (o.map fun a => (3, true, a)), t)
    | (a, t) => (a.map fun _ => none, t)

/-- The stores of one beat: all of them, or a failure. -/
def emitBeat (x : XCtx) (r : Nat) : List (Nat × List Byte) → State → Acc (List (Nat × Bool × Nat)) × State
  | [], s => (.ok [], s)
  | (va, bs) :: rest, s =>
    match engineStore x r s va bs with
    | (.ok o, t) => match emitBeat x r rest t with
      | (.ok l, u) => (.ok (o.toList ++ l), u)
      | (e, u) => (e, u)
    | (e, t) => (e.map fun _ => [], t)

/-- The writes in front that lie on one line. -/
def lineOf (line : Nat) : List PWrite → List PWrite
  | [] => []
  | w :: r => if w.va / 64 = line then w :: lineOf line r else []

/-- R354: what the walks of a beat's stores leave, up to the first that fails, where none of its stores is made. -/
def beatWalks (x : XCtx) : List (Nat × List Byte) → State → State
  | [], s => s
  | (va, bs) :: rest, s =>
    if isRsm va then beatWalks x rest s
    else match pieces s x va bs.length .write true with
      | (.ok _, t) => beatWalks x rest t
      | (_, t) => t

/-- R26: beats in traversal order; a beat that fails is not partly written. -/
def emitGo (x : XCtx) (r : Nat) : Nat → List PWrite → State → Emitted
  | 0, _, s => { s := s, done := 0, flags := 0, oor := [], fault := none, held := false }
  | _ + 1, [], s => { s := s, done := 0, flags := 0, oor := [], fault := none, held := false }
  | f + 1, w :: l, s =>
    let beat := lineOf (w.va / 64) (w :: l)
    match emitBeat x r (coalesce beat) s with
    | (.ok o, t) =>
      let e := emitGo x r f ((w :: l).drop beat.length) t
      { e with done := beat.length + e.done, flags := (beat.foldl (fun a y => a ||| y.flags) 0) ||| e.flags
               oor := o ++ e.oor }
    | (.bank _ _ _, t) => { s := t, done := 0, flags := 0, oor := [], fault := none, held := true }
    | (a, _) =>
      { s := beatWalks x (coalesce beat) s, done := 0, flags := 0, oor := [], fault := some (accEFault a), held := false }

/-- The planned writes of a command, made. Its reads come before all its writes, so of its out-of-range addresses
one that it reads is recorded before one that it writes (R87; DESIGN CHOICE, notes/assumptions/69.md). -/
def Job.emit (j : Job) : Emitted :=
  let l := j.writes.reverse
  let e := emitGo j.x j.r (l.length + 1) l j.s
  { e with flags := j.flags ||| e.flags, oor := j.oor.reverse ++ e.oor, held := e.held || j.held
           fault := match e.fault with
             | some f => some f
             | none => j.fault }

/-! ### Formats of the two sides (R94, R250, R251) -/

/-- How a side's elements stand in memory. -/
inductive Side where
  | fmt (f : Fmt)
  | blocks (w n : Nat)
  deriving DecidableEq, Repr

/-- R94: the descriptor of a typed page. -/
def pageDesc (f : Nat) : Option Nat :=
  if f = 0 then none
  else if f ≤ 4 then some f
  else if f ≤ 8 then some (0x40 + (f - 5))
  else if f ≤ 12 then some (0x20 + (f - 8))
  else if f = 13 then some 0
  else if f = 14 then some 0x20
  else if 0x11 ≤ f && f ≤ 0x17 then some (0x80 + (f - 0x10))
  else if 0x1A ≤ f && f ≤ 0x1C then some (0xC0 + (f - 0x19))
  else none

/-- R251: the format of the page at an address; none on a raw page and in RSM. -/
def Job.side (j : Job) (va0 : Nat) (k : Access) : Option Side × Job :=
  let va := va0 % 2 ^ 64
  if !j.going || isRsm va then (none, j)
  else match xlate j.s j.x va k false with
    | (.ok _ leaf, t) =>
      (match leafBlock leaf with
        | some (w, n) => some (.blocks w n)
        | none => (pageDesc (pteFmt leaf)).map fun d => Side.fmt (fmtOfDesc d), { j with s := t })
    | (.fault c, t) => (none, { j with s := t }.fail 1 c va)
    | (.memerr _, t) => (none, { j with s := t }.fail 3 0 va)
    | (.unreach _, t) => (none, { j with s := t }.fail 4 0 va)

/-- R251: the formats of the two sides, from what their pages give and the register of descriptors, if given. -/
def resolveSides (a b : Option Side) (desc : Option Nat) : Side × Side :=
  let given (lo : Nat) : Option Side := desc.map fun d => Side.fmt (fmtOfDesc (d / 2 ^ lo % 256))
  let a1 := a.or (given 0)
  let b1 := b.or (given 8)
  let n8 := Side.fmt (.int 8 true)
  ((a1.or b1).getD n8, (b1.or a1).getD n8)

/-- R251: the formats of source and destination at two addresses. -/
def Job.sides (j : Job) (src dst : Nat) (desc : Option Nat) : Side × Side × Job :=
  let (a, j1) := j.side src .read
  let (b, j2) := j1.side dst .write
  let r := resolveSides a b desc
  (r.1, r.2, j2)

/-- What a page gives for an address, without an effect: none also where it cannot be translated, which the access
itself meets. -/
def Job.peekSide (j : Job) (va : Nat) (k : Access) : Option Side := (j.side va k).1

/-- R251: the format of an element of a typed row: as the pages of the element and of its counterpart on the other
side give it, where such elements have the size of the row's (notes/assumptions/46.md). -/
def rowFmt (f : Fmt) : Side → Fmt
  | .fmt g => if fmtWidth g = fmtWidth f then g else f
  | .blocks _ _ => f

/-- R251: the formats of an element at two addresses. -/
def Job.elemSides (j : Job) (src dst : Nat) (desc : Option Nat) : Side × Side :=
  resolveSides (j.peekSide src .read) (j.peekSide dst .write) desc

/-- R162: the format of an element of a row that is only read: its page's, or on a raw page the one named. -/
def Job.namedFmt (j : Job) (f : Fmt) (va desc : Nat) : Fmt :=
  rowFmt f ((j.peekSide va .read).getD (.fmt (fmtOfDesc desc)))

/-- Whether an address lies on a carousel page. -/
def Job.onBlocks (j : Job) (va : Nat) (k : Access) : Bool :=
  match j.peekSide va k with
  | some (.blocks _ _) => true
  | _ => false

/-- R250: bytes of a row of n elements. -/
def Side.rowBytes (f : Side) (n : Nat) : Nat :=
  match f with
  | .fmt g => (n * fmtWidth g + 7) / 8
  | .blocks w k => (n + k - 1) / k * blockSize w k

/-- R250: the address of row (i1, i2): by explicit strides, packed, or in block order from the side's base. -/
def Side.rowAddr (f : Side) (base : Nat) (strides : Option Nat) (n0 n1 i1 i2 : Nat) : Nat :=
  match strides with
  | some w => intWrap 64 ((base : Int) + (i1 : Int) * sextBits w 32 + (i2 : Int) * sextBits (w / 2 ^ 32) 32)
  | none => match f with
    | .blocks w k =>
      let b := (i1 + n1 * i2) * ((n0 + k - 1) / k)
      (base + b / blocksPerFrame w k * 4096 + b % blocksPerFrame w k * blockSize w k) % 2 ^ 64
    | .fmt _ => (base + (i1 + n1 * i2) * f.rowBytes n0) % 2 ^ 64

/-- R251: the address of element i0 of a row. -/
def Side.elemAddr (f : Side) (row i0 : Nat) : Nat :=
  match f with
  | .blocks w k => blockAddr w k row (i0 / k) % 2 ^ 64
  | .fmt g => (row + i0 * fmtWidth g / 8) % 2 ^ 64

/-! ### Rows of a copy (R251, R79, R80) -/

/-- What a copy converts with: rounding code, `ovf`, salt. -/
structure Convert where
  rnd : Nat
  ovf : Nat
  salt : Word
  deriving DecidableEq, Repr

/-- R54: the mode for the element of index i. -/
def Convert.mode (c : Convert) (i : Nat) : Mode :=
  if c.rnd = 5 then modeOf 5 (rsrWord c.salt.toNat i) else modeOf c.rnd 0

/-- R53: the overflow key toward a format. -/
def Convert.inf (c : Convert) (f : Fmt) : Bool :=
  match c.ovf with
  | 1 => false
  | 2 => true
  | _ => defaultOvf f

/-- The source codes of a row, each with its format, or its values. -/
inductive Elems where
  | codes (l : List (Fmt × Nat))
  | vals (l : List Val)
  deriving DecidableEq, Repr

def Elems.toVals : Elems → List Val
  | .codes l => l.map fun p => decodeFmt p.1 p.2
  | .vals l => l

def Elems.len : Elems → Nat
  | .codes l => l.length
  | .vals l => l.length

/-- One element of a typed row; `at_` gives the format of the element of an index. -/
def Job.elem (j : Job) (at_ : Job → Nat → Fmt) (f : Fmt) (row i0 : Nat) : (Fmt × Nat) × Job :=
  let w := fmtWidth f
  let (bs, k) := j.source (Side.elemAddr (.fmt f) row i0) (max 1 (w / 8))
  let x := leToNat bs
  ((at_ k i0, if w = 4 then x / 16 ^ (i0 % 2) % 16 else x), k)

/-- A reading of the command over the writes that its row would have planned by then. -/
def Job.over {α : Type} (j : Job) (ahead : Job → Job) (read : Job → α × Job) : α × Job :=
  let (x, k) := read { j with writes := (ahead j).writes }
  (x, { k with writes := j.writes })

/-- Elements of a typed row, from index i0 on; a failed access ends the list before its element. `ahead`
plans what the elements read so far become. -/
def Job.typedRow (ahead : List (Fmt × Nat) → Job → Job) (at_ : Job → Nat → Fmt) (f : Fmt) (row : Nat) :
    Nat → Nat → List (Fmt × Nat) → Job → List (Fmt × Nat) × Job
  | 0, _, _, j => ([], j)
  | n + 1, i0, done, j =>
    let (x, k) := j.over (ahead done) fun m => m.elem at_ f row i0
    if !k.going then ([], k)
    else
      let (l, k') := Job.typedRow ahead at_ f row n (i0 + 1) (done ++ [x]) k
      (x :: l, k')

/-- R74, R251: a read of the bytes of a block that is decoded: each write that the command has already planned to them
is seen whole or not at all, a free choice (notes/assumptions/46.md). -/
def Job.sourceBlock (j : Job) (va n : Nat) : List Byte × Job :=
  let (bs, k) := j.read va n
  let at_ (i : Nat) : Nat := (va + i) % 2 ^ 64
  if !k.going || (upTo n).all (fun i => k.plannedAt (at_ i) = none) then (bs, k)
  else
    let (x, t) := k.s.takeFree
    let seen := (numbered k.writes).filter fun p => nbit x p.1
    ((numbered bs).map fun b => (seen.findSome? fun p => k.wroteAt (at_ b.1) p.2).getD b.2, { k with s := t })

/-- R64, R66, R86: the values of one block: the zero block away from a block start and out of range, a
fault for a corrupt header. -/
def Job.block (j : Job) (w n row b : Nat) : List Val × Job :=
  let books := mapGet Codebook.none (j.s.region j.r).books
  if !isBlockStart w n row then (blockValues w n books (zeroBlock w n), j.addOor 4 false (some row))
  else
    let a := blockAddr w n row b % 2 ^ 64
    let (bs, k) := j.sourceBlock a (blockSize w n)
    if !k.going then ([], k)
    else if k.oor.length ≠ j.oor.length then (blockValues w n books (zeroBlock w n), k)
    else match headerFault w (blockHeader w n bs) books with
      | some c => ([], k.fail 2 c a)
      | none => (blockValues w n books bs, k)

/-- The values of consecutive blocks of a row, from block b on. -/
def Job.blockRow (ahead : List Val → Job → Job) (w n row : Nat) : Nat → Nat → List Val → Job → List Val × Job
  | 0, _, _, j => ([], j)
  | m + 1, b, done, j =>
    let (x, k) := j.over (ahead done) fun y => y.block w n row b
    if !k.going then ([], k)
    else
      let (l, k') := Job.blockRow ahead w n row m (b + 1) (done ++ x) k
      (x ++ l, k')

/-- The elements of a row of n0. -/
def Job.row (j : Job) (ahead : Elems → Job → Job) (at_ : Job → Nat → Fmt → Fmt) (f : Side) (row n0 : Nat) : Elems × Job :=
  match f with
  | .fmt g =>
    let (l, k) := Job.typedRow (fun l => ahead (.codes l)) (fun k i => at_ k i g) g row n0 0 [] j
    (.codes l, k)
  | .blocks w n =>
    let (l, k) := Job.blockRow (fun l => ahead (.vals (l.take n0))) w n row ((n0 + n - 1) / n) 0 [] j
    (.vals (l.take n0), k)

/-- R251: one element in the destination's format: the code itself in the same format. -/
def Convert.toFmt (c : Convert) (dst : Fmt) (i : Nat) (src : Fmt) (x : Nat) : Nat × Flags :=
  if src = dst then (x, 0) else convertCode src dst (c.mode i) (c.inf dst) x

/-- The converted codes of a row whose first element has index i; `dst` is the format of an element of the row. -/
def Convert.codes (c : Convert) (dst : Nat → Fmt) (i : Nat) (e : Elems) : List (Nat × Flags) :=
  match e with
  | .codes l => (l.zip (upTo l.length)).map fun p => c.toFmt (dst p.2) (i + p.2) p.1.1 p.1.2
  | .vals l => (l.zip (upTo l.length)).map fun p => deliver (dst p.2) (c.mode (i + p.2)) (c.inf (dst p.2)) p.1

/-- The state of the command goes on past a fault while the prefix of a row is planned. -/
def Job.clear (j : Job) : Job := { j with fault := none, held := false }

/-- The bytes of a typed destination row; a lone nibble keeps the other nibble of its byte (R42), which it reads: the page
needs R and a byte out of range is a read (DESIGN CHOICE, notes/assumptions/46.md). -/
def putTyped (f : Fmt) (row : Nat) : Nat → List (Nat × Flags) → Job → Job
  | _, [], j => j
  | i0, [(x, fl)], j =>
    let a := Side.elemAddr (.fmt f) row i0
    if fmtWidth f = 4 then
      let (old, k) := match j.plannedAt a with
        | some b => (b.toNat, j)
        | none => j.num a 1
      let v := if i0 % 2 = 0 then old / 16 * 16 + x % 16 else old % 16 + x % 16 * 16
      k.put a [BitVec.ofNat 8 v] fl
    else j.put a (natToLe x (fmtWidth f / 8)) fl
  | i0, (x, fl) :: (y, fm) :: r, j =>
    let a := Side.elemAddr (.fmt f) row i0
    if fmtWidth f = 4 then
      putTyped f row (i0 + 2) r (j.put a [BitVec.ofNat 8 (x % 16 + y % 16 * 16)] (fl ||| fm))
    else putTyped f row (i0 + 1) ((y, fm) :: r) (j.put a (natToLe x (fmtWidth f / 8)) fl)

/-- Chunks of n values, the last filled with +0 (R79). -/
def chunkVals (n : Nat) : Nat → List Val → List (List Val)
  | 0, _ => []
  | _ + 1, [] => []
  | f + 1, l => ((l.take n) ++ List.replicate (n - (l.take n).length) (.fin false 0 0)) :: chunkVals n f (l.drop n)

/-- R79: blocks of a destination row, from block b and element index i on; a signalling NaN that the copy converts
sets NV (R44). -/
def putBlocks (w n : Nat) (c : Convert) (row : Nat) : Nat → Nat → List (List Val) → Job → Job
  | _, _, [], j => j
  | b, i, x :: r, j =>
    let book := mapGet Codebook.none (j.s.region j.r).books 0
    let (bs, fl) := quantise w n 31 0 book (fun k => c.mode (i + k)) x
    putBlocks w n c row (b + 1) (i + n) r
      (j.put (blockAddr w n row b % 2 ^ 64) bs (fl ||| flagIf (x.any Val.isSnan) fNV))

/-- R80: whole blocks moved. -/
def moveBlocks (w n src dst : Nat) : Nat → Nat → Job → Job
  | 0, _, j => j
  | m + 1, b, j =>
    let s0 := isBlockStart w n src
    let (bs, k) := if s0 then j.source (blockAddr w n src b % 2 ^ 64) (blockSize w n)
      else (zeroBlock w n, j.addOor 4 false (some src))
    let k1 := if !k.going then k.dropLine (blockAddr w n dst b)
      else if isBlockStart w n dst then k.put (blockAddr w n dst b % 2 ^ 64) bs 0
      else k.addOor 4 true (some dst)
    moveBlocks w n src dst m (b + 1) k1

/-- The writes that elements of a row become, from the row's first element on; i is its index (R251), and `at_` gives
the format of an element. Of a row that did not end, whole destination blocks alone. -/
def planRow (at_ : Job → Nat → Fmt → Fmt) (df : Side) (c : Convert) (dst i : Nat) (whole : Bool) (e : Elems) (j : Job) : Job :=
  match df with
  | .blocks w n =>
    let l := if whole then e.toVals else e.toVals.take (e.len / n * n)
    if isBlockStart w n dst then putBlocks w n c dst 0 i (chunkVals n (l.length + 1) l) j
    else if l = [] then j
    else j.addOor 4 true (some dst)
  | .fmt g => putTyped g dst 0 (c.codes (fun k => at_ j k g) i e) j

/-- Bytes from the first to the last of a row of n elements. -/
def Side.rowSpan (f : Side) (row n : Nat) : Nat :=
  match f with
  | .fmt _ => f.rowBytes n
  | .blocks w k => if n = 0 then 0 else f.elemAddr row (n - 1) + blockSize w k - row

/-- The frames of the pages that n bytes lie on. -/
def Job.framesOf (j : Job) (a n : Nat) (k : Access) : List (Nat × Nat) :=
  (upTo ((a % 4096 + n + 4095) / 4096)).filterMap fun i =>
    let p := (a / 4096 + i) * 4096 % 2 ^ 64
    if isRsm p then none
    else match (xlate j.s j.x p k false).1 with
      | .ok pa _ => some (p, pa / 4096)
      | _ => none

/-- R251: whether a row's source bytes may be its destination bytes: by address, or by a frame that two of
their pages share. -/
def Job.rowsMeet (j : Job) (src m dst n : Nat) : Bool :=
  (decide (src < dst + n) && decide (dst < src + m)) ||
    (j.framesOf src m .read).any fun p => (j.framesOf dst n .write).any fun q => p.2 = q.2 && p.1 ≠ q.1

/-- One row of a copy; i is the index of its first element (R251). -/
def copyRow (sf df : Side) (c : Convert) (desc : Option Nat) (src dst n0 i : Nat) (j : Job) : Job :=
  let sides (k : Job) (e : Nat) : Side × Side := k.elemSides (sf.elemAddr src e) (df.elemAddr dst e) desc
  let plan := planRow (fun k e f => rowFmt f (sides k e).2) df c dst i
  if !j.going then j
  else if sf = df && (match sf with | .blocks _ _ => true | .fmt _ => false) then
    match sf with
    | .blocks w n => moveBlocks w n src dst ((n0 + n - 1) / n) 0 j
    | .fmt _ => j
  else
    let ahead : Elems → Job → Job :=
      if j.rowsMeet src (sf.rowSpan src n0) dst (df.rowSpan dst n0) then plan false else fun _ k => k
    let (e, k) := j.row ahead (fun k e f => rowFmt f (sides k e).1) sf src n0
    if k.going then plan true e k
    else
      let k1 := (plan false e k.clear).dropLine (df.elemAddr dst e.len)
      { k1 with fault := k.fault, held := k.held }

/-- The bases of a copy with their formats there, and its strides and descriptors. -/
structure CopyArgs where
  sf : Side
  df : Side
  src : Nat
  dst : Nat
  ss : Option Nat
  ds : Option Nat
  desc : Option Nat
  n0 : Nat
  n1 : Nat
  deriving DecidableEq, Repr

def CopyArgs.srcRow (m : CopyArgs) (i : Nat) : Nat := m.sf.rowAddr m.src m.ss m.n0 m.n1 (i % m.n1) (i / m.n1)
def CopyArgs.dstRow (m : CopyArgs) (i : Nat) : Nat := m.df.rowAddr m.dst m.ds m.n0 m.n1 (i % m.n1) (i / m.n1)

/-- R251: the formats of row i: those of the pages on which it begins, a raw one resolved as at the base
(notes/assumptions/46.md). -/
def CopyArgs.sidesAt (m : CopyArgs) (j : Job) (i : Nat) : Side × Side := j.elemSides (m.srcRow i) (m.dstRow i) m.desc

/-- Rows i of a copy, one after another. -/
def copyRows (m : CopyArgs) (c : Convert) : List Nat → Job → Job
  | [], j => j
  | i :: r, j =>
    let f := m.sidesAt j i
    copyRows m c r (copyRow f.1 f.2 c m.desc (m.srcRow i) (m.dstRow i) m.n0 (i * m.n0) j)

/-- R251: `ovf=inf` toward a finite P3109 format is refused after issue. -/
def ovfRefused (c : Convert) : Side → Bool
  | .fmt (.narrow k p u e) => c.ovf = 2 && !fmtHasInf (.narrow k p u e)
  | _ => false

/-- R251: whether some element of a row of a destination has a format that `ovf=inf` refuses. -/
def rowRefused (m : CopyArgs) (c : Convert) (j : Job) (i : Nat) : Bool :=
  let f := m.sidesAt j i
  ovfRefused c f.2 || match f.2 with
    | .fmt g => (upTo m.n0).any fun k => ovfRefused c (.fmt (rowFmt g
        (j.elemSides (f.1.elemAddr (m.srcRow i) k) (f.2.elemAddr (m.dstRow i) k) m.desc).2))
    | .blocks _ _ => false

/-- R250: the extents n0, n1 and n2. -/
def copyN0 (l : List Word) : Nat := nbits (l.getD 2 0).toNat 23 0
def copyN1 (l : List Word) : Nat := max 1 (nbits (l.getD 2 0).toNat 43 24)
def copyN2 (l : List Word) : Nat := max 1 (nbits (l.getD 2 0).toNat 63 44)

/-- A register of a list that may be shorter. -/
def optReg (l : List Word) (k : Nat) : Option Nat := (l[k]?).map (·.toNat)

/-- R250, R251: the work of a copy. -/
def copyJob (c : Convert) (l : List Word) (j : Job) : Job :=
  let dst := (l.getD 0 0).toNat
  let src := (l.getD 1 0).toNat
  let (sf, df, j1) := j.sides src dst (optReg l 5)
  let m : CopyArgs :=
    { sf := sf, df := df, src := src, dst := dst, ss := optReg l 4, ds := optReg l 3, desc := optReg l 5
      n0 := copyN0 l, n1 := copyN1 l }
  let rows := upTo (copyN1 l * copyN2 l)
  match (if c.ovf = 2 then rows.find? (rowRefused m c j1) else none) with
  | some i => j1.fail 5 0 (m.dstRow i)
  | none => copyRows m c rows j1

/-! ### Gather and scatter (R254) -/

/-- R254: the code that an element named twice keeps: that of an earlier writer, or the new one, a free
choice (notes/assumptions/46.md). -/
def keepWriter (scatter : Bool) (seen : List (Nat × Nat)) (di y : Nat) (j : Job) : Nat × Job :=
  match scatter, seen.find? fun p => p.1 = di with
  | true, some p =>
    let (x, t) := j.s.takeFree
    (if nbit x 0 then p.2 else y, { j with s := t })
  | _, _ => (y, j)

/-- R254: element i of a gather or scatter, which is abandoned with nothing written where it meets a carousel page or
a destination format that `ovf=inf` refuses (R251); `seen` holds the destination elements written, newest first, with
their codes. -/
def moveIndexed (scatter : Bool) (sf df : Fmt) (c : Convert) (desc : Option Nat) (dst src idx : Nat) :
    Nat → Nat → List (Nat × Nat) → Job → Job
  | 0, _, _, j => j
  | n + 1, i, seen, j =>
    if !j.going then j
    else
      let (x, j1) := j.num (idx + 4 * i) 4
      let si := if scatter then i else x
      let di := if scatter then x else i
      let sa := Side.elemAddr (.fmt sf) src si
      let a := Side.elemAddr (.fmt df) dst di
      let sides (k : Job) : Side × Side := k.elemSides sa a desc
      let (v, j0) := j1.elem (fun k _ => rowFmt sf (sides k).1) sf src si
      let g := rowFmt df (sides j0).2
      let (y0, fl) := c.toFmt g i v.1 v.2
      let (y, j2) := keepWriter scatter seen di y0 j0
      let none_ (k : Job) (at_ : Nat) : Job := { k with writes := [] }.fail 5 0 at_
      let j3 :=
        if j1.going && j1.onBlocks sa .read then none_ j1 sa
        else if j1.going && j1.onBlocks a .write then none_ j1 a
        else if !j1.going then (if scatter then j2 else j2.dropLine a)
        else if !j2.going then j2.dropLine a
        else if ovfRefused c (.fmt g) then none_ j2 a
        else if fmtWidth df = 4 then
          -- the newest planned byte at the place, or the byte in memory (R42)
          match j2.writes.find? fun w => w.va = a with
          | some w =>
            let old := (w.bytes.getD 0 0).toNat
            let z := if di % 2 = 0 then old / 16 * 16 + y % 16 else old % 16 + y % 16 * 16
            j2.put a [BitVec.ofNat 8 z] fl
          | none =>
            let (old, k) := j2.num a 1
            let z := if di % 2 = 0 then old / 16 * 16 + y % 16 else old % 16 + y % 16 * 16
            k.put a [BitVec.ofNat 8 z] fl
        else j2.put a (natToLe y (fmtWidth df / 8)) fl
      moveIndexed scatter sf df c desc dst src idx n (i + 1) ((di, y) :: seen) j3

/-- R254: the element sizes are those of the formats at the two bases, of which only the pages that elements lie on are
accessed (notes/assumptions/46.md). -/
def gatherJob (scatter : Bool) (c : Convert) (l : List Word) (j : Job) : Job :=
  let dst := (l.getD 0 0).toNat
  let src := (l.getD 1 0).toNat
  let n := nbits (l.getD 3 0).toNat 23 0
  let desc := optReg l 4
  if n = 0 then j
  else match j.elemSides src dst desc with
    | (.fmt f, .fmt g) => moveIndexed scatter f g c desc dst src (l.getD 2 0).toNat n 0 [] j
    | (.blocks _ _, _) => j.fail 5 0 src
    | (_, .blocks _ _) => j.fail 5 0 dst

/-! ### Merge and scan (R257, R258) -/

/-- R257: the type of a merge. -/
def mergeFmt (y : BitVec 2) : Fmt :=
  match y.toNat with
  | 0 => fmtF32
  | 1 => fmtF64
  | 2 => .int 32 false
  | _ => .int 64 false

/-- R257: the rounded sum, its flags, and whether it counts as zero. -/
def mergeSum (f : Fmt) (rnd a b : Nat) : Nat × Flags × Bool :=
  match f with
  | .int w _ => let v := (a + b) % 2 ^ w; (v, 0, v = 0)
  | f =>
    let (c, g) := fAdd f (modeOf rnd 0) true (decodeFmt f a) (decodeFmt f b)
    (c, g, c % 2 ^ (fmtWidth f - 1) = 0)

/-- The arrays of a merge. -/
structure MergeArgs where
  ia : Nat
  va : Nat
  ib : Nat
  vb : Nat
  na : Nat
  nb : Nat
  oi : Nat
  ov : Nat
  f : Fmt
  rnd : Nat
  keepz : Bool
  deriving DecidableEq, Repr

/-- The next index of a row, if it has one. -/
def Job.nextIndex (j : Job) (base i n : Nat) : Option Nat × Job :=
  if i ≥ n then (none, j)
  else
    let (x, k) := j.num (base + 4 * i) 4
    (some x, k)

/-- R257: an index that does not exceed its predecessor in the row. -/
def badOrder (x prev : Option Nat) : Bool :=
  match x, prev with
  | some a, some b => decide (a ≤ b)
  | _, _ => false

/-- R257: put(x, v) at output k. -/
def mergePut (m : MergeArgs) (k x v : Nat) (fl : Flags) (j : Job) : Job :=
  (j.put (m.oi + 4 * k) (natToLe x 4) 0).put (m.ov + fmtWidth m.f / 8 * k) (natToLe v (fmtWidth m.f / 8)) fl

/-- R257: the loop; the answer is the count k. -/
def mergeGo (m : MergeArgs) : Nat → Nat → Nat → Nat → Option Nat → Option Nat → Job → Nat × Job
  | 0, _, _, k, _, _, j => (k, j)
  | fuel + 1, i, b, k, pa, pb, j =>
    if !j.going || (i ≥ m.na && b ≥ m.nb) then (k, j)
    else
      let w := fmtWidth m.f / 8
      let (xa, j1) := j.nextIndex m.ia i m.na
      let (xb, j2) := j1.nextIndex m.ib b m.nb
      if !j2.going then (k, j2)
      else if badOrder xa pa then (k, j2.fail 6 0 (m.ia + 4 * i))
      else if badOrder xb pb then (k, j2.fail 6 0 (m.ib + 4 * b))
      else
        let onlyA := match xa, xb with
          | some p, some q => decide (p < q)
          | some _, none => true
          | _, _ => false
        let onlyB := match xa, xb with
          | some p, some q => decide (q < p)
          | none, some _ => true
          | _, _ => false
        if onlyA then
          let (v, j3) := j2.num (m.va + w * i) w
          if !j3.going then (k, j3)
          else mergeGo m fuel (i + 1) b (k + 1) xa pb (mergePut m k (xa.getD 0) v 0 j3)
        else if onlyB then
          let (v, j3) := j2.num (m.vb + w * b) w
          if !j3.going then (k, j3)
          else mergeGo m fuel i (b + 1) (k + 1) pa xb (mergePut m k (xb.getD 0) v 0 j3)
        else
          let (v, j3) := j2.num (m.va + w * i) w
          let (u, j4) := j3.num (m.vb + w * b) w
          if !j4.going then (k, j4)
          else
            let (sum, fl, zero) := mergeSum m.f m.rnd v u
            if !zero || m.keepz then
              mergeGo m fuel (i + 1) (b + 1) (k + 1) xa xb (mergePut m k (xa.getD 0) sum fl j4)
            else mergeGo m fuel (i + 1) (b + 1) k xa xb { j4 with flags := j4.flags ||| fl }

def mergeArgs (y : BitVec 2) (rnd : BitVec 3) (keepz : BitVec 1) (l : List Word) : MergeArgs :=
  let n (k : Nat) : Nat := (l.getD k 0).toNat
  { ia := n 0, va := n 1, ib := n 2, vb := n 3, na := n 4 % 2 ^ 32, nb := n 4 / 2 ^ 32, oi := n 5, ov := n 6
    f := mergeFmt y, rnd := rnd.toNat, keepz := keepz = 1 }

/-- R258: pointers k + 1 onward. -/
def scanGo (counts out : Nat) : Nat → Nat → Nat → Job → Job
  | 0, _, _, j => j
  | n + 1, k, p, j =>
    if !j.going then j
    else
      let (c, j1) := j.num (counts + 4 * k) 4
      let q := (p + c) % 2 ^ 32
      scanGo counts out n (k + 1) q
        (if j1.going then j1.put (out + 4 * (k + 1)) (natToLe q 4) 0 else j1.dropLine (out + 4 * (k + 1)))

def scanJob (l : List Word) (j : Job) : Job :=
  let n := (l.getD 2 0).toNat
  let out := (l.getD 1 0).toNat
  let init := (l.getD 3 0).toNat % 2 ^ 32
  if n > 2 ^ 24 - 1 then j.fail 5 0 out
  else scanGo (l.getD 0 0).toNat out n 0 init (j.put out (natToLe init 4) 0)

/-! ### Completion and abandonment (R89, R248, R345) -/

/-- A change of the task that owns a command, if one does (R29). -/
def onOwner (s : State) (r : Nat) (o : Owner) (f : Task → Task) : State :=
  match o with
  | .slot n => s.setRegion r ((s.region r).setTask n (f ((s.region r).task n)))
  | _ => s

/-- R87: the records of a command in its task's SQ_OOR. -/
def Task.oorAll (t : Task) (l : List (Nat × Bool × Nat)) : Task :=
  l.foldl (fun x y => x.oorAt y.1 y.2.1 y.2.2) t

/-- R89: a command leaves its queue; its tag, its flags and its counter follow, whatever else its tag still waits for
(R23 against R247: DESIGN CHOICE, notes/assumptions/87.md). -/
def finishCommand (s : State) (r : Nat) (e : Engine) (idx : Nat) (c : Command) (fl : Flags) (abandoned : Bool) :
    State :=
  let g := s.region r
  let s1 := s.setRegion r (g.setQueue e (dropAt (g.queueOf e) idx))
  let s2 := onOwner s1 r c.owner fun t => t.endCommand c.tag fl abandoned
  ctrDone s2 g.part c.counter

/-- R257: the count is written also when the merge is abandoned. -/
def mergeFinish (oc k : Nat) (j : Job) : Emitted :=
  let e := j.emit
  let wholly := if e.done < j.writes.length then e.done / 2 else k
  match engineStore j.x j.r e.s oc (natToLe (wholly % 2 ^ 32) 4) with
  | (.ok o, t) => { e with s := t, oor := e.oor ++ o.toList }
  | (.bank _ _ _, t) => { e with s := t, held := true }
  | (a, _) => { e with
      s := beatWalks j.x [(oc, natToLe (wholly % 2 ^ 32) 4)] e.s
      fault := match e.fault with
        | some f => some f
        | none => some (accEFault a) }

/-- The whole work of a copy or merge engine command; configuration copies and pipe commands run
elsewhere. -/
def engineWork (s : State) (r : Nat) (c : Command) : Option Emitted :=
  match c.instr with
  | .copy _ _ _ rnd v _ =>
    some ((copyJob { rnd := rnd.toNat, ovf := v.toNat, salt := c.list.getD 6 0 } c.list (Job.start s r 4)).emit)
  | .gather _ _ _ rnd v _ =>
    some ((gatherJob false { rnd := rnd.toNat, ovf := v.toNat, salt := c.list.getD 5 0 } c.list
      (Job.start s r 4)).emit)
  | .scatter _ _ _ rnd v _ =>
    some ((gatherJob true { rnd := rnd.toNat, ovf := v.toNat, salt := c.list.getD 5 0 } c.list
      (Job.start s r 4)).emit)
  | .merge _ _ y rnd k _ =>
    let m := mergeArgs y rnd k c.list
    let (n, j) := mergeGo m (m.na + m.nb) 0 0 0 none none (Job.start s r 5)
    some (mergeFinish (c.list.getD 7 0).toNat n j)
  | .mscan _ _ _ => some ((scanJob c.list (Job.start s r 5)).emit)
  | _ => none

/-! ### The issuing instructions -/

/-- R50, R251: whether a descriptor register is valid. -/
def descsOk : Option Nat → Bool
  | none => true
  | some d => decide (d < 2 ^ 16) && Legal.descValid (d % 256) && Legal.descValid (d / 256)

/-- R250: a copy of nothing is complete at issue. -/
def finishEmpty (r : Nat) (n : Nat) (before : Nat) (s : State) : State :=
  let q := (s.region r).copyq
  match q[before]? with
  | some c => if n = 0 then finishCommand s r .copy before c 0 false else s
  | none => s

def execCopy (d a : BitVec 5) (n rnd : BitVec 3) (v : BitVec 2) (t : BitVec 6) (s : State) : Out :=
  let i := Instr.copy d a n rnd v t
  .next (onSequencer s i fun r k =>
    let l := s.me.listFrom a n.toNat
    if !descsOk (optReg l 5) then s.illegal i
    else finishEmpty r (copyN0 l) (s.region r).copyq.length (issueCommand r k .copy i d l t.toNat [] s))

def execCopyCfg (d a : BitVec 5) (t : BitVec 6) (s : State) : Out :=
  let i := Instr.copyCfg d a t
  .next (onSequencer s i fun r k => atLevel s i .k
    (issueCommand r k .copy i d (s.me.listFrom a 2) t.toNat [] s))

/-- R206, R254: whether a list of a gather or scatter holds a field value that is not assigned. -/
def indexedBad (l : List Word) : Bool := decide ((l.getD 3 0).toNat ≥ 2 ^ 24) || !descsOk (optReg l 4)

def execGather (d a : BitVec 5) (n rnd : BitVec 3) (v : BitVec 2) (t : BitVec 6) (s : State) : Out :=
  let i := Instr.gather d a n rnd v t
  .next (onSequencer s i fun r k =>
    let l := s.me.listFrom a n.toNat
    if indexedBad l then s.illegal i else issueCommand r k .copy i d l t.toNat [] s)

def execScatter (d a : BitVec 5) (n rnd : BitVec 3) (v : BitVec 2) (t : BitVec 6) (s : State) : Out :=
  let i := Instr.scatter d a n rnd v t
  .next (onSequencer s i fun r k =>
    let l := s.me.listFrom a n.toNat
    if indexedBad l then s.illegal i else issueCommand r k .copy i d l t.toNat [] s)

def execMerge (d a : BitVec 5) (y : BitVec 2) (rnd : BitVec 3) (k : BitVec 1) (t : BitVec 6) (s : State) : Out :=
  let i := Instr.merge d a y rnd k t
  .next (onSequencer s i fun r n => issueCommand r n .merge i d (s.me.listFrom a 7) t.toNat [] s)

def execMscan (d a : BitVec 5) (t : BitVec 6) (s : State) : Out :=
  let i := Instr.mscan d a t
  .next (onSequencer s i fun r n => issueCommand r n .merge i d (s.me.listFrom a 3) t.toNat [] s)

/-! ### Waiting on tags (R255, R256) -/

/-- R255: whether a mask of tags is met. -/
def tagsMet (tags mask : Word) (all : Bool) : Bool :=
  if all then tags &&& mask = mask else mask = 0 || tags &&& mask ≠ 0

def waittStep (d a : BitVec 5) (m : BitVec 1) (s : State) : State :=
  let t := s.me
  let mask := t.get a
  if tagsMet t.tags mask (m = 1) then
    s.setMe { (t.set d (t.tags &&& mask)) with pc := t.pc + 4, hold := .ready }
  else s.holdMe (.wait (.waitt d a m))

def execWaitt (d a : BitVec 5) (m : BitVec 1) (s : State) : Out :=
  .next (onSequencer s (.waitt d a m) fun _ _ => waittStep d a m s)

def execWaittRelease (c : CoreId) (s : State) : Out :=
  match (s.task c).hold with
  | .wait (.waitt d a m) => .next (waittStep d a m { s with cur := c })
  | _ => .next s

/-- The lowest set bit of a word, or 64. -/
def lowestBit (w : Word) : Nat := ((upTo 64).find? fun t => w.getLsbD t).getD 64

def execFfr (d a : BitVec 5) (s : State) : Out :=
  .next (onSequencer s (.ffr d a) fun _ _ =>
    s.retire 4 d (BitVec.ofNat 64 (lowestBit (s.me.tags &&& s.me.get a))) 0)

/-! ### Holds of an issue (R247, R89) -/

/-- The engine and tag of an instruction that issues a command. -/
def engineOf : Instr → Option (Engine × Nat)
  | .copy _ _ _ _ _ t => some (.copy, t.toNat)
  | .copyCfg _ _ t => some (.copy, t.toNat)
  | .gather _ _ _ _ _ t => some (.copy, t.toNat)
  | .scatter _ _ _ _ _ t => some (.copy, t.toNat)
  | .merge _ _ _ _ _ t => some (.merge, t.toNat)
  | .mscan _ _ t => some (.merge, t.toNat)
  | .abatch _ _ t => some (.attention, t.toNat)
  | .tseal _ _ _ t => some (.attention, t.toNat)
  | .topk _ _ t => some (.attention, t.toNat)
  | .hullw _ _ t => some (.attention, t.toNat)
  | .tfork _ _ t => some (.attention, t.toNat)
  | .tevict _ _ t => some (.attention, t.toNat)
  | _ => none

/-- A task held at the issue of a command is ready once the queue has room and the tag's count is below
15; it issues in its next turn. -/
def issueHoldEnd (s : State) (c : CoreId) : State :=
  match (s.task c).hold, c with
  | .wait i, .seq r n => match engineOf i with
    | some (e, tag) => if canIssue (s.region r) ((s.region r).task n) e tag then s.ready c else s
    | none => s
  | _, _ => s

def execEngineQueueHoldEnd (c : CoreId) (s : State) : Out := .next (issueHoldEnd s c)
def execTagCountHoldEnd (c : CoreId) (s : State) : Out := .next (issueHoldEnd s c)

end Sys2Proof.Machine
end

