-- ==== Sys2Proof/Machine/Fabric.lean ====
section
/-! DEFINITION. Islands (R21, R22, R137 to R145): what an element reads, issues, drives, pops and pushes
in a tick, the causes that hold an island (R33, R143), units ending (R137, R26), and the meanings of the
E-form ops as single turns. -/

namespace Sys2Proof.Machine

/-! ### One function from an op to what it does -/

/-- What an E-form op does; the other instructions do nothing on an element. -/
def runOp : Instr → OpIn → OpOut
  | .vadd t u s, x => opVadd t u s x
  | .vsub t u s, x => opVsub t u s x
  | .vmul t u s, x => opVmul t u s x
  | .vmad t u s, x => opVmad t u s x
  | .vmin t u, x => opVmin t u x
  | .vmax t u, x => opVmax t u x
  | .vlogic f, x => opVlogic f x
  | .vshl t u s, x => opVshl t u s x
  | .vshr t u, x => opVshr t u x
  | .vshi f t c, x => opVshi f t c x
  | .vcmp f t u, x => opVcmp f t u x
  | .vsel q, x => opVsel q x
  | .vmov f m, x => opVmov f m x
  | .vmovi p i, x => opVmovi p i x
  | .vgop f, x => opVgop f x
  | .vfadd t s r, x => opVfadd t s r x
  | .vfsub t s r, x => opVfsub t s r x
  | .vfmul t s r, x => opVfmul t s r x
  | .vfma t s r, x => opVfma t s r x
  | .vfmin t, x => opVfmin t x
  | .vfmax t, x => opVfmax t x
  | .vfsgn f t, x => opVfsgn f t x
  | .vfrcp t r, x => opVfrcp t r x
  | .vfrsq t r, x => opVfrsq t r x
  | .vfexp2 t r, x => opVfexp2 t r x
  | .vred f t u l s r, x => opVred f t u l s r x
  | .vnarrow o r t d, x => opVnarrow o r t d x
  | .vwiden o r t d, x => opVwiden o r t d x
  | .vpermb, x => opVpermb x
  | .vnib f h, x => opVnib f h x
  | .vpack f t u s, x => opVpack f t u s x
  | .vshuf f l c, x => opVshuf f l c x
  | .vldm t o, x => opVldm t o x
  | .vstm g t o, x => opVstm g t o x
  | .vldl t o, x => opVldl t o x
  | .vstl g t o, x => opVstl g t o x
  | .vpop p, x => opVpop p x
  | .vpush p g, x => opVpush p g x
  | .vsend g, x => opVsend g x
  | .tksend g k, x => opTksend g k x
  | .tkwait k, x => opTkwait k x
  | .vatom f g t u, x => opVatom f g t u x
  | .shape e w, x => opShape e w x
  | .mbloadQueue p, x => opMbloadQueue p x
  | .mbloadRegister w d, x => opMbloadRegister w d x
  | .mrun s c p m, x => opMrun s c p m x
  | .mrdacc, x => opMrdacc x
  | .mfma64 s r, x => opMfma64 s r x
  | .qst n w p g t s m, x => opQst n w p g t s m x
  | .vcld n p t s r, x => opVcld n p t s r x
  | .agcfg p x' c k, x => opAgcfg p x' c k x
  | .agbase p, x => opAgbase p x
  | .agrun f n p, x => opAgrun f n p x
  | .mzero r, x => opMzero r x
  | _, _ => OpOut.nothing

/-- R153, R325: the store port that an op pushes into, and the entries it takes. -/
def opPush : Instr → Option (Nat × Nat)
  | .vpush p _ => some (p.toNat, 1)
  | .qst n w p _ _ _ _ => some (p.toNat, if n = 2 && w = 1 then 2 else 1)
  | _ => none

/-- R309, R321: the ELM banks that an op touches. -/
def opBanks (i : Instr) (x : OpIn) : List Nat :=
  match i with
  | .vldm t o => if rowIn (rowAddr x t o) then [rowAddr x t o / 0xC00] else []
  | .vstm g t o => if rowIn (rowAddr x t o) && x.guard g ≠ 0 then [rowAddr x t o / 0xC00] else []
  | .vatom _ g _ _ =>
    let a := laneOf x.a 0 / 64 * 64
    if rowIn a && x.guard g ≠ 0 then [a / 0xC00] else []
  | .mbloadQueue _ => match mbPos x.el (laneOf x.a 0) with
    | none => []
    | some (g, j, b, s) => [g.cellBit b j 0 / 8 / 0xC00, g.entryOff s b j / 0xC00]
  | .mbloadRegister w _ => match mbPos x.el (laneOf x.a 0) with
    | none => []
    | some (g, j, b, _) => g.cellBit b j 0 / 8 / 0xC00 ::
        (if isSet w then [0, 1, 2] else [0]).map fun s => g.entryOff s b j / 0xC00
  | .mrdacc => match x.el.grant with
    | none => []
    | some g => if laneOf x.a 0 < g.h then [g.accOff (laneOf x.a 0) 0 / 0xC00] else []
  | .mzero r => match x.el.grant with
    | none => []
    | some g =>
      if isSet r then (if laneOf x.a 0 < g.h then [g.accOff (laneOf x.a 0) 0 / 0xC00] else [])
      else (upTo g.aBanks).map fun k => 128 - g.aBanks + k
  | _ => []

/-- R321: the banks that the array touches on an interval's first tick. -/
def runBanks (e : Element) : List Nat :=
  match runStart e with
  | none => []
  | some (g, r, q) =>
    if runBubble g r q then []
    else
      let b := r.k0 + runKappa r q
      ((upTo (g.ne / 64)).map fun k => b * (g.ne / 64) + k) ++
        [g.entryOff r.set b 0 / 0xC00, g.entryOff r.set b (g.ne - 1) / 0xC00, g.accOff (runRow r q) 0 / 0xC00]

/-! ### Protection units (R358, R359, R361) -/

/-- The ELM bytes that an op reads, as offsets with lengths (R307, R313, R322). -/
def opElmReads (i : Instr) (x : OpIn) : List (Nat × Nat) :=
  match i with
  | .vldm t o => if rowIn (rowAddr x t o) then [(rowAddr x t o, rowSize t)] else []
  | .vatom _ g _ _ =>
    let a := laneOf x.a 0 / 64 * 64
    if rowIn a then ((upTo 16).filter fun j => (x.guard g).getLsbD j).map fun j => (a + 4 * j, 4) else []
  | .mrdacc => match x.el.grant with
    | none => []
    | some g =>
      if laneOf x.a 0 < g.h && decide (laneOf x.a 1 < g.ne / 16) then
        [(g.accOff (laneOf x.a 0) (16 * laneOf x.a 1), 64)] else []
  | _ => []

/-- The slice bytes that an op reads, as offsets with lengths (R308). -/
def opLpsReads (i : Instr) (x : OpIn) : List (Nat × Nat) :=
  match i with
  | .vldl _ o => ((upTo 16).filter fun j => sliceIn (sliceOff x o j)).map fun j => (512 * j + sliceOff x o j, 4)
  | _ => []

/-- The cells and exponent entries that the array reads on an interval's first tick (R320, R321). -/
def runReads (e : Element) : List (Nat × Nat) :=
  match runStart e with
  | none => []
  | some (g, r, q) =>
    if runBubble g r q then []
    else
      let b := r.k0 + runKappa r q
      (b * (g.ne / 64) * 0xC00, g.ne / 64 * 0xC00) :: [(g.entryOff r.set b 0, 2 * g.ne)]

/-- The offsets of the 8-byte units of some bytes. -/
def unitsOfBytes (l : List (Nat × Nat)) : List Nat :=
  l.flatMap fun p => (upTo ((p.1 % 8 + p.2 + 7) / 8)).map fun k => p.1 / 8 * 8 + 8 * k

/-- The bytes of a unit set from a number. -/
def putUnit (m : Map Byte) (off x : Nat) : Map Byte :=
  ((natToLe x 8).zip (upTo 8)).foldl (fun n p => mapSet 0 n (off / 8 * 8 + p.2) p.1) m

/-- R359: an element reads a unit of its memory or slices. R356 names no report for it, and no value of a
unit that fails: its bytes are a free value (notes/assumptions/40.md). -/
def readUnitOf (lps : Bool) (r e : Nat) (s : State) (off : Nat) : State :=
  let (bad, t) := if lps then readLpsUnit s r e off else readElmUnit s r e off
  if !bad then t
  else
    let (x, u) := t.takeFree
    let el := (u.region r).element e
    u.setRegion r ((u.region r).setElement e
      (if lps then { el with lps := putUnit el.lps off x } else { el with elm := putUnit el.elm off x }))

/-- The units that an op reads: those of the slices with true. -/
def opUnits (i : Instr) (x : OpIn) : List (Bool × Nat) :=
  ((unitsOfBytes (opElmReads i x)).map fun o => (false, o)) ++ (unitsOfBytes (opLpsReads i x)).map fun o => (true, o)

/-- R358, R359: the reads of an element's tick, of its op and of its array. -/
def readTick (s : State) (r e : Nat) (ins : Instr) (x : OpIn) (run : Bool) : State :=
  if s.poison = [] && s.bad = [] then s
  else
    let s1 := (opUnits ins x).foldl (fun t p => readUnitOf p.1 r e t p.2) s
    (if run then unitsOfBytes (runReads x.el) else []).foldl (readUnitOf false r e) s1

/-- R361: the cells of a store that its units take: a whole unit clears its mark, a part of a poisoned unit is
refused there. -/
def storeCells (s : State) (unit : Nat → Nat) (cells : List (Nat × Byte)) : State × List (Nat × Byte) :=
  let whole (a : Nat) : Bool := (upTo 8).all fun k => cells.any fun c => c.1 = a / 8 * 8 + k
  let kept := cells.filter fun c => !mapGet false s.poison (unit c.1) || whole c.1
  ({ s with poison := kept.foldl (fun m c => mapSet false m (unit c.1) false) s.poison }, kept)

/-- R359, R361: a result that takes effect at the end of this tick, against the marks of the units it writes;
an accumulator row is read, unless it starts afresh, and written whole. -/
def dueEffect (r e : Nat) (s : State) (p : Nat × Effect) : State × (Nat × Effect) :=
  if p.1 > 1 then (s, p)
  else match p.2 with
    | .elm cells => let (t, l) := storeCells s (elmUnit r e) cells; (t, (p.1, .elm l))
    | .lps cells => let (t, l) := storeCells s (lpsUnit r e) cells; (t, (p.1, .lps l))
    | .acc row vs fresh => match ((s.region r).element e).grant with
      | none => (s, p)
      | some g =>
        let us := unitsOfBytes [(g.accOff row 0, 4 * vs.length)]
        let t := if fresh then s else us.foldl (readUnitOf false r e) s
        ({ t with poison := us.foldl (fun m o => mapSet false m (elmUnit r e o) false) t.poison }, p)
    | _ => (s, p)

/-- The results of an element that take effect at the end of this tick, against the marks of units. -/
def storeDue (s : State) (r e : Nat) : State :=
  if s.poison = [] && s.bad = [] then s
  else
    let (t, fl) := ((s.region r).element e).flight.foldl (fun (a : State × List (Nat × Effect)) p =>
      let (u, q) := dueEffect r e a.1 p
      (u, a.2 ++ [q])) (s, [])
    let g := t.region r
    t.setRegion r (g.setElement e { g.element e with flight := fl })

/-! ### Edges and turnstiles (R141, R142, R145) -/

/-- The neighbour through a port inside the region. -/
def nbrOf (e p : Nat) : Option Nat :=
  match p with
  | 1 => if e / 16 = 0 then none else some (e - 16)
  | 2 => if e % 16 = 15 then none else some (e + 1)
  | 3 => if e / 16 = 15 then none else some (e + 16)
  | 4 => if e % 16 = 0 then none else some (e - 1)
  | _ => none

/-- The port at the other end of an edge. -/
def oppPort (p : Nat) : Nat :=
  match p with
  | 1 => 3
  | 2 => 4
  | 3 => 1
  | 4 => 2
  | 5 => 6
  | 6 => 5
  | n => n

/-- Whether rings push words or tokens through a port. -/
def ringsSend (ops routes : List Nat) (p : Nat) : Bool :=
  (routes.any fun w => rtTs w && (rtOut w = p || rtOut2 w = p)) ||
    ops.any fun w => match instrOf w with
      | .tksend _ k => k.toNat = p
      | _ => false

def sendsThrough (el : Element) (p : Nat) : Bool := ringsSend el.ops el.routes p

/-- R142: the record of the stream that leaves by one side of an edge, from the records at that side and at the
other and from which sides send: with records at both sides each is its own side's outgoing one; a single one
belongs to the side that sends, and with two at one side the second is the incoming one
(notes/assumptions/73.md). -/
def edgeOut {α : Type} (mine far : List α) (sends back : Bool) : Option α :=
  match mine, far with
  | a :: _, _ :: _ => some a
  | a :: b, [] => if b.isEmpty && back && !sends then none else some a
  | [], [b] => if back then none else some b
  | [], l => l[1]?

/-- The turnstiles declared at a port of an element. -/
def Region.turnsAt (g : Region) (e p : Nat) : List (Nat × Turnstile) :=
  g.turnstiles.filterMap fun x => match x.2 with
    | some t => if t.element = e && t.port = p then some (x.1, t) else none
    | none => none

/-- R142: the turnstile of the stream that leaves an element through a port. -/
def Region.turnOut (g : Region) (e p : Nat) : Option (Nat × Turnstile) :=
  if p = 0 || p > 6 then none
  else
    let mine := g.turnsAt e p
    match nbrOf e p with
    | none => mine.head?
    | some n => edgeOut mine (g.turnsAt n (oppPort p)) (sendsThrough (g.element e) p)
        (sendsThrough (g.element n) (oppPort p))

/-- R142: the turnstile of the stream that an element takes at a port. -/
def Region.turnIn (g : Region) (e p : Nat) : Option (Nat × Turnstile) :=
  if p = 0 || p > 6 then none
  else match nbrOf e p with
    | none => ((g.turnsAt e p)[1]?).or (g.turnsAt e p).head?
    | some n => g.turnOut n (oppPort p)

/-- Whether the edge at a port of an element leaves its island. -/
def Island.leaves (i : Island) (e p : Nat) : Bool :=
  match nbrOf e p with
  | some n => !i.covers n
  | none => true

/-- R145: the turnstiles whose token lanes the tokens of an edge that leaves the island use: those sent, and those
taken. -/
def laneOut (g : Region) (i : Island) (e p : Nat) : Option (Nat × Turnstile) := if i.leaves e p then g.turnOut e p else none
def laneIn (g : Region) (i : Island) (e p : Nat) : Option (Nat × Turnstile) := if i.leaves e p then g.turnIn e p else none

/-- R142, R194: the full line. -/
def Turnstile.full (t : Turnstile) : Bool :=
  decide ((if t.edge = 0 then t.line else t.unreported) ≥ t.capacity)

/-- R142: the empty line. -/
def Turnstile.empty (t : Turnstile) : Bool := t.line = 0

def State.setTurnstile (s : State) (r n : Nat) (t : Turnstile) : State :=
  s.setRegion r ((s.region r).setTurn n (some t))

/-! ### What a tick uses, and what holds it (R143) -/

/-- What an element's words name in a tick. -/
structure Uses where
  instr : Instr
  route : Nat
  reg : Nat
  pops : List Nat
  whole : List Nat
  pushes : List (Nat × Nat)
  tpush : List Nat
  tpops : List Nat
  deriving DecidableEq, Repr

/-- R141: the store port that an out port of 7 pushes into, by the ops of the rings. -/
def ringStorePort (ops : List Instr) : Nat :=
  if ops.any fun o => (match o with
    | .agcfg p _ _ k => p = 0 && k = 2
    | _ => false) then 0 else 1

def storePort (e : Element) : Nat := ringStorePort (e.ops.map instrOf)

def addOne (l : List Nat) (x : Nat) : List Nat := if l.contains x then l else l ++ [x]

/-- R287, R138: the queues and turnstiles that words name; each named queue pops once. -/
def usesOf (g : Region) (e : Nat) (ins : Instr) (route reg : Nat) (run : Bool) : Uses :=
  let el := g.element e
  let inb := if regStream reg then rtInb route else 0
  let outs := [rtOut route, rtOut2 route]
  let drives := outs.any fun p => p ≠ 0
  let p1 : List Nat := if inb = 7 then [0] else []
  let p2 := if drives && decide (rtOsrc route ≥ 2) then addOne p1 (rtOsrc route - 2) else p1
  let whole := (opPop ins).toList ++ (if run then runPop el else none).toList
  let num (x : Option (Nat × Turnstile)) : List Nat := match x with
    | some (n, _) => [n]
    | none => []
  { instr := ins, route := route, reg := reg, pops := whole.foldl addOne p2, whole := whole
    pushes := (match opPush ins with
      | some x => [x]
      | none => []) ++ (outs.filter fun p => p = 7).map fun _ => (storePort el, 1)
    tpush := if rtTs route then (outs.flatMap fun p => num (g.turnOut e p)) else []
    tpops := ((num (g.turnIn e (rtIna route))) ++ num (g.turnIn e inb)).foldl addOne [] }

/-- What an op reads, without a stream operand. -/
def plainIn (g : Region) (e reg : Nat) : OpIn :=
  { el := g.element e, reg := reg, bword := none, head0 := (g.element e).ag0.head
    head1 := (g.element e).ag1.head, books := g.books }

/-- R152, R347: a port that has no word to pop or no room holds with LATE, or QUIET once it is
faulted. -/
def lateOf (a : AgPort) : Stall := if a.fault = none then .late else .quiet

/-- R37: the banks of other contexts that an element's tick touches. -/
def foreignBanks (g : Region) (e : Nat) (u : Uses) (run : Bool) : List Nat :=
  (opBanks u.instr (plainIn g e u.reg) ++ if run then runBanks (g.element e) else []).filter fun b => !bankMine g e b

/-- R37: a tick that holds on banks of other contexts. -/
def holdSpill (s : State) (r : Nat) (us : List (Nat × Uses)) (run : Bool) : State :=
  raiseSpill (us.foldl (fun t p =>
    (foreignBanks (s.region r) p.1 p.2 run).foldl (fun u b => noteSpill u r p.1 b) t) s) r

/-- R143: the causes that hold an element's tick. -/
def causesOf (g : Region) (i : Island) (e : Nat) (u : Uses) (run : Bool) : List Stall :=
  let el := g.element e
  let late := (u.pops.filter fun p => (el.ag p).head = none).map fun p => lateOf (el.ag p)
  let room := (upTo 2).flatMap fun p =>
    let n := (u.pushes.filter fun x => x.1 = p).foldl (fun a x => a + x.2) 0
    if decide ((el.ag p).free < n) then [lateOf (el.ag p)] else []
  let ts (l : List Nat) (f : Turnstile → Bool) (c : Stall) : List Stall :=
    if l.any (fun n => match g.turn n with
      | some t => f t
      | none => false) then [c] else []
  let tok : List Stall := match u.instr with
    | .tksend _ k => match laneOut g i e k.toNat with
      | some (_, t) => if t.tokenLine ≥ 8 then [.tsfull] else []
      | none => []
    | .tkwait k => match laneIn g i e k.toNat with
      | some (_, t) => if t.tokenLine = 0 then [.token] else []
      | none => if el.tokens.getLsbD k.toNat then [] else [.token]
    | _ => []
  let spill : List Stall := if foreignBanks g e u run = [] then [] else [.spill]
  late ++ room ++ ts u.tpush Turnstile.full .tsfull ++ ts u.tpops Turnstile.empty .tsempty ++ tok ++ spill

/-- R33: the cause that a tick is charged to: the first that holds in the order of R33. -/
def firstStall (l : List Stall) : Option Stall :=
  [Stall.late, .tsfull, .tsempty, .token, .stopped, .spill, .quiet].find? fun c => l.contains c

/-! ### What an element does in a tick (R138) -/

/-- The words an element's tick reads and what its op and its array do. -/
structure Plan where
  elem : Nat
  uses : Uses
  out : OpOut
  effs : List (Nat × Effect)
  oor : List (Nat × Bool × Nat)
  word : SWord
  run : Bool
  deriving DecidableEq, Repr

def SWord.zero : SWord := { data := 0, valid := 0, last := false }

/-- R138, R212: the word at an in port: the head of load queue 0, the head of a turnstile or the
latched word. -/
def portWord (g : Region) (e p : Nat) : SWord :=
  let el := g.element e
  if p = 7 then (match el.ag0.head with
    | some q => q.word true
    | none => SWord.zero)
  else match g.turnIn e p with
    | some (_, t) => t.entries.headD SWord.zero
    | none => (mapGet none el.latches p).getD SWord.zero

/-- R138, R287: what an op reads under a route word and a register-address word. -/
def opInput (g : Region) (e route reg : Nat) : OpIn :=
  { plainIn g e reg with bword := if regStream reg then some (portWord g e (rtInb route)) else none }

/-- R136: an element whose array takes the block of an interval that starts. -/
def fedElement (el : Element) : Element :=
  feedRow el (match runPop el with
    | some p => (el.ag p).head
    | none => none)

/-- R138: step 1 and 2 of a tick: operands are read and the op is computed. -/
def planOf (g : Region) (e : Nat) (u : Uses) (run : Bool) : Plan :=
  let el := g.element e
  let x := opInput g e u.route u.reg
  let out := runOp u.instr x
  let r := if run then runTick (fedElement el) g.books else ([], [])
  let w : SWord := match rtOsrc u.route with
    | 0 => if rtIna u.route = 0 then SWord.zero else portWord g e (rtIna u.route)
    | 1 => { data := x.c, valid := out.valid, last := false }
    | n => match (el.ag (n - 2)).head with
      | some q => q.word false
      | none => SWord.zero
  { elem := e, uses := u, out := out, effs := out.effs ++ r.1, oor := out.oor ++ r.2
    word := { w with last := rtLast u.route }, run := run }

/-- Flags ORed into an island's word (R60). -/
def islandFlags (s : State) (r k : Nat) (f : Flags) : State :=
  match (s.region r).island k with
  | none => s
  | some i => s.setRegion r ((s.region r).setIsland k (some { i with flags := i.flags ||| f }))

/-- R142, R194: a word pushed into a turnstile. -/
def Turnstile.pushWord (t : Turnstile) (w : SWord) : Turnstile :=
  if t.edge = 0 then { t with entries := t.entries ++ [w] }
  else { t with send := t.send ++ [w], unreported := t.unreported + 1 }

def Turnstile.popWord (t : Turnstile) : Turnstile := { t with entries := t.entries.drop 1 }

/-- A turnstile of a region changed. -/
def onTurn (s : State) (r n : Nat) (f : Turnstile → Turnstile) : State :=
  match (s.region r).turn n with
  | none => s
  | some t => s.setTurnstile r n (f t)

def State.putElem (s : State) (r e : Nat) (x : Element) : State :=
  s.setRegion r ((s.region r).setElement e x)

/-- R312: the token of an op: to the sequencer's count, a turnstile's lane or the neighbour's latch. -/
def sendToken (s : State) (r e : Nat) (i : Island) (o : OpOut) : State :=
  let g := s.region r
  let s1 := if o.count then s.setRegion r { g with tokcnt := g.tokcnt + 1 } else s
  match o.send with
  | none => s1
  | some p => match laneOut g i e p, nbrOf e p with
    | some (n, _), _ => onTurn s1 r n fun t => { t with tokens := t.tokens + 1 }
    | none, some b =>
      let x := (s1.region r).element b
      s1.putElem r b { x with flight := x.flight ++ [(1, .token (oppPort p))] }
    | none, none => s1

/-- R312: the token that `tkwait` consumes. -/
def takeToken (s : State) (r e : Nat) (i : Island) (o : OpOut) : State :=
  match o.wait with
  | none => s
  | some k => match laneIn (s.region r) i e k with
    | some (n, _) => onTurn s r n fun t => { t with tokens := t.tokens - 1 }
    | none =>
      let x := (s.region r).element e
      s.putElem r e { x with tokens := x.tokens &&& ~~~ (BitVec.ofNat 9 (2 ^ k)) }

/-- R138: steps 2 to 4 of a tick for one element: results enter the latches, queues and turnstiles pop
and push, tokens move, records are made. -/
def applyPlan (s : State) (r k : Nat) (i : Island) (p : Plan) : State :=
  let e := p.elem
  let x0 := (s.region r).element e
  let (x1, f) := (if p.run then fedElement x0 else x0).issue p.effs
  let x2 := p.uses.pops.foldl (fun x q =>
    x.setAg q (if p.uses.whole.contains q then (x.ag q).pop else (x.ag q).popBeat)) x1
  let x3 := match p.out.push with
    | some (q, ent) => x2.setAg q ((x2.ag q).push { ent with born := s.tick })
    | none => x2
  let outs := [rtOut p.uses.route, rtOut2 p.uses.route]
  let x4 := (outs.filter fun q => q = 7).foldl
    (fun x _ => x.setAg (storePort x) ((x.ag (storePort x)).push { beatEntry p.word.data p.word.valid with born := s.tick })) x3
  let s1 := islandFlags (elOor (s.putElem r e x4) r e p.oor) r k f
  let s2 := p.uses.tpops.foldl (fun t n => onTurn t r n Turnstile.popWord) s1
  let s3 := p.uses.tpush.foldl (fun t n => onTurn t r n fun x => x.pushWord p.word) s2
  takeToken (sendToken s3 r e i p.out) r e i p.out

/-- R138: the words driven toward neighbours without a turnstile: element, port, word. -/
def drivesOf (p : Plan) : List (Nat × Nat × SWord) :=
  if rtTs p.uses.route then []
  else [rtOut p.uses.route, rtOut2 p.uses.route].filterMap fun q => match nbrOf p.elem q with
    | some b => some (b, oppPort q, p.word)
    | none => none

/-- R329: a loop whose last pop or push has happened ends, with its finish token. -/
def endLoop (e : Element) (p : Nat) : Element :=
  let a := e.ag p
  if a.running && decide (a.moved ≥ a.count) then
    let e1 := e.setAg p { a with running := false }
    if a.fin then { e1 with tokens := e1.tokens ||| BitVec.ofNat 9 (2 ^ 7) } else e1
  else e

/-- The end of a tick that advances: loops and the run go on, results of this tick take effect, the
words driven are latched. -/
def endTick (s0 : State) (r k e : Nat) (drives : List (Nat × Nat × SWord)) : State :=
  let s := storeDue s0 r e
  let x0 := endLoop (endLoop ((s.region r).element e) 0) 1
  let (x1, fin) := runAdvance x0
  let x2 := if fin then { x1 with tokens := x1.tokens ||| BitVec.ofNat 9 (2 ^ 8) } else x1
  let (x3, f) := x2.settle
  let x4 := (x3.setAg 0 (x3.ag 0).assign).setAg 1 (x3.ag 1).assign
  let mine : List (Nat × Nat × SWord) := drives.filter fun d : Nat × Nat × SWord => d.1 = e
  let latched := mine.foldl (fun m d => mapSet none m d.2.1 (some d.2.2)) []
  islandFlags (s.putElem r e { x4 with latches := latched }) r k f

/-! ### Charges (R33) -/

def Charges.add (c : Charges) : Stall → Charges
  | .late => { c with late := c.late + 1 }
  | .tsfull => { c with tsfull := c.tsfull + 1 }
  | .tsempty => { c with tsempty := c.tsempty + 1 }
  | .token => { c with token := c.token + 1 }
  | .stopped => { c with stopped := c.stopped + 1 }
  | .spill => { c with spill := c.spill + 1 }
  | .quiet => { c with quiet := c.quiet + 1 }

/-- R33, R350: a held tick: charged, and counted by the watchdog unless it is STOPPED or SPILL. -/
def Island.hold (i : Island) (c : Stall) : Island :=
  { i with charges := i.charges.add c, phase := i.phase.add c, held := some c
           watch := if c = .stopped || c = .spill then i.watch else i.watch + 1 }

/-- R22, R350: a tick on which the counter advances. -/
def Island.busy (i : Island) : Island :=
  { i with charges := { i.charges with busy := i.charges.busy + 1 }
           phase := { i.phase with busy := i.phase.busy + 1 }
           held := none, watch := 0, stalled := false }

/-- R137: the counter after an advance, and whether a trip but the last has ended. -/
def Island.advance (i : Island) : Island × Bool :=
  if i.counter + 1 = i.period then ({ i with counter := 0, trips := i.trips - 1 }, decide (i.trips > 1))
  else ({ i with counter := i.counter + 1 }, false)

/-- R40: whether an island stands at a declared pre-emption point. The slot of a point is one of its op ring
(DESIGN CHOICE: the spec does not say which ring, notes/assumptions/83.md). -/
def atPoint (g : Region) (k : Nat) (i : Island) : Bool :=
  g.resident.points.any fun p => p.island = k && i.counter % i.lop = p.slot

/-- The words of an element in a tick: none once the last trip has ended. -/
def tickUses (g : Region) (i : Island) (e : Nat) : Uses :=
  let el := g.element e
  if i.trips = 0 then usesOf g e .vnop 0 0 true
  else usesOf g e (instrOf (opWord i el i.counter)) (routeWord i el i.counter) (regWord i el i.counter) true

/-- R350, R351: the watchdog's event, once for a hold, when its count reaches the limit. -/
def stallCheck (s : State) (r k : Nat) : State :=
  let g := s.region r
  match g.island k with
  | none => s
  | some i =>
    match i.held with
    | none => s
    | some c =>
      if g.stallwd = 0 || i.stalled || i.watch ≠ g.stallwd.toNat || c = .stopped || c = .spill then s
      else
        let code := match c with
          | .late => 0
          | .tsfull => 1
          | .tsempty => 2
          | .token => 3
          | _ => 4
        let t := s.setRegion r (g.setIsland k (some { i with stalled := true }))
        sendEvent t r (2 + r * 2 ^ 8 + i.row0 * 2 ^ 18 + i.col0 * 2 ^ 22)
          (i.counter % 2 ^ 15 + code * 2 ^ 16) g.stallwd.toNat

/-- R143: a tick that an island holds. -/
def holdIsland (s : State) (r k : Nat) (i : Island) (c : Stall) : State :=
  stallCheck (s.setRegion r ((s.region r).setIsland k (some (i.hold c)))) r k

/-- R123: whether an element's tick sends a word or a token out of the island: through a turnstile, or to the
sequencer (R312). -/
def sendsOut (g : Region) (i : Island) (e : Nat) (u : Uses) : Bool :=
  u.tpush ≠ [] || (match u.instr with
    | .tksend _ k => k = 0 || (laneOut g i e k.toNat).isSome
    | _ => false)

/-- R112: whether an element's tick touches element memory. -/
def touchesElm (g : Region) (e : Nat) (u : Uses) : Bool :=
  opBanks u.instr (plainIn g e u.reg) ≠ [] || runBanks (g.element e) ≠ []

/-- Why the oldest RSM store of a port is still queued: its port is faulted, it waits for an earlier access, or its
bank is another context's. -/
def rsmCause (s : State) (r : Nat) (i : Island) (e p : Nat) : Stall :=
  let a := s.agPort r e p
  match drainHead a with
  | none => lateOf a
  | some q =>
    if drainWaits s r e p q then
      if i.cells.any fun x => faultedPort ((s.region r).element x) ≠ none then .quiet else .late
    else match (agWrite s r e a q).1 with
      | .held => .spill
      | _ => .late

/-- R123, R112: the stores to RSM that a tick waits for: those queued when it sends or touches element memory, and
that their banks or ports still keep. -/
def rsmCauses (s : State) (r : Nat) (i : Island) : List Stall :=
  (rsmPorts s r i).map fun x => rsmCause s r i x.1 x.2

/-- R137, R33: the cause of a tick on which an ended unit waits for its results and its store streams
(notes/assumptions/53.md). -/
def drainCause (g : Region) (i : Island) : Stall :=
  if i.cells.any fun e => faultedPort (g.element e) ≠ none then .quiet else .late

/-- R138: a tick on which nothing holds an island. -/
def runIsland (r k h : Nat) (i : Island) (us : List (Nat × Uses)) (s : State) : State :=
  let s0 := us.foldl (fun t p => readTick t r p.1 p.2.instr (plainIn (t.region r) p.1 p.2.reg) true) s
  let plans := us.map fun p => planOf (s0.region r) p.1 p.2 true
  let s1 := plans.foldl (fun t p => applyPlan t r k i p) s0
  let drives := plans.flatMap drivesOf
  let s2 := i.cells.foldl (fun t e => endTick t r k e drives) s1
  match (s2.region r).island k with
  | none => s2
  | some j =>
    if i.trips = 0 then holdIsland s2 r k j (drainCause (s2.region r) i)
    else
      let (j', trip) := j.busy.advance
      let s3 := i.cells.foldl (noteDue r j') (s2.setRegion r ((s2.region r).setIsland k (some j')))
      if trip then ctrDone s3 (s.region r).part h else s3

/-- R138, R143: one tick of an island. -/
def islandTick (r k : Nat) (s : State) : State :=
  let g := s.region r
  match g.island k with
  | none => s
  | some i =>
    match i.unit with
    | none => s.setRegion r (g.setIsland k (some { i with phase := { i.phase with idle := i.phase.idle + 1 } }))
    | some h =>
      if g.frozen || s.health.crit then holdIsland s r k i .stopped
      else if i.hit ≠ 0 then holdIsland s r k { i with hit := 2 } .quiet
      else
        let us := i.cells.map fun e => (e, tickUses g i e)
        let point : List Stall := if g.deferred ≠ none && atPoint g k i then [.stopped] else []
        match firstStall ((us.flatMap fun p => causesOf g i p.1 p.2 true) ++ point) with
        | some c =>
          let t := holdIsland s r k i c
          if c = .spill then holdSpill t r us true else t
        | none =>
          if us.any fun p => sendsOut g i p.1 p.2 || touchesElm g p.1 p.2 then
            let t := settleRsm s r i
            match firstStall (rsmCauses t r i) with
            | some c => holdIsland t r k i c
            | none => runIsland r k h i us t
          else runIsland r k h i us s

def execIslandTick (r k : Nat) (s : State) : Out := .next (islandTick r k s)

def execStallWatchdog (r k : Nat) (s : State) : Out := .next (stallCheck s r k)

/-! ### Units ending (R137, R26, R33) -/

/-- R33: a busy-map record. -/
def busyRecord (c : Charges) (idle kind end_ handle r : Nat) (i : Island) : Nat :=
  let f (n : Nat) : Nat := n % 2 ^ 32
  f c.quiet * 2 ^ 320 + f c.spill * 2 ^ 288 + f c.stopped * 2 ^ 256 + f c.token * 2 ^ 224 +
    f c.tsempty * 2 ^ 192 + f c.tsfull * 2 ^ 160 + f c.late * 2 ^ 128 + f idle * 2 ^ 96 +
    f c.busy * 2 ^ 64 + kind * 2 ^ 62 + end_ * 2 ^ 60 + handle % 4096 * 2 ^ 48 + r * 2 ^ 38 +
    i.row0 * 2 ^ 34 + i.col0 * 2 ^ 30 + (i.nrow - 1) * 2 ^ 26 + (i.ncol - 1) * 2 ^ 22

/-- R33: a unit's record, and the island without a unit. -/
def finishUnit (s : State) (r k end_ : Nat) : State :=
  match (s.region r).island k with
  | none => s
  | some i =>
    match i.unit with
    | none => s
    | some h =>
      let t := logBusy s r (busyRecord i.charges 0 0 end_ h r i)
      t.setRegion r ((t.region r).setIsland k (some { i with
        unit := none, trips := 0, held := none, watch := 0, stalled := false, charges := Charges.zero, hit := 0 }))

/-- R137: whether a unit whose trips have ended has nothing left: results, runs, store entries. -/
def unitOver (g : Region) (i : Island) : Bool :=
  i.trips = 0 && i.hit = 0 && i.cells.all fun e =>
    let x := g.element e
    x.flight = [] && (match x.run with
      | some r => !r.running
      | none => true) &&
    (upTo 2).all fun p => (x.ag p).kind ≠ 2 || (x.ag p).queue.all fun q => q.addr = none

/-- R383: a unit that ends normally clears the suspect bits of its elements and counts a transient
parity error for each. -/
def clearSuspects (s : State) (r : Nat) : List Nat → State
  | [] => s
  | e :: l =>
    let g := s.region r
    if g.suspect.contains e then
      clearSuspects (countTransient (s.setRegion r { g with suspect := g.suspect.erase e }) 1 none) r l
    else clearSuspects s r l

/-- R137, R104: UNIT_COMPLETE. -/
def execUnitComplete (r k : Nat) (s : State) : Out :=
  let g := s.region r
  match g.island k with
  | none => .next s
  | some i =>
    match i.unit with
    | none => .next s
    | some h =>
      if !unitOver g i then .next s
      else
        let s1 := i.cells.foldl (fun t e => closeElement t r e 0) s
        .next (ctrDone (finishUnit (clearSuspects s1 r i.cells) r k 0) g.part h)

/-- R26, R375, R348: a generator port whose unit is cancelled. -/
def AgPort.cancel (a : AgPort) : AgPort :=
  { a with running := false, fin := false, armed := none, count := a.next, fault := none, act := 0, asked := []
           queue := if a.kind = 2 then a.queue.filter fun x : QEntry => x.addr ≠ none else [] }

/-- R26, R375: what an element keeps when its unit is cancelled. -/
def Element.cancel (e : Element) : Element :=
  { e with flight := [], run := none, ag0 := e.ag0.cancel, ag1 := e.ag1.cancel }

/-- R26: an island's unit stops at a tick boundary: in-flight results are discarded, its store streams
close, its record is written. -/
def stopUnit (s : State) (r k end_ cause : Nat) : State :=
  match (s.region r).island k with
  | none => s
  | some i =>
    if i.unit = none then s
    else
      let stop (t : State) (e : Nat) : State :=
        let u := closeQueued (closeQueued t r e 0) r e 1
        closeElement (u.putElem r e ((u.region r).element e).cancel) r e cause
      let s1 := i.cells.foldl stop s
      finishUnit s1 r k end_

/-! ### An op as a turn of its own -/

/-- The words that an op turn uses: those of the element's island at its counter, or none. -/
def turnWords (s : State) : Option (Nat × Island) × Nat × Nat :=
  let g := s.region s.focus.1
  match g.islandOf s.focus.2 with
  | none => (none, 0, 0)
  | some (k, i) =>
    let el := g.element s.focus.2
    (some (k, i), rtInb (routeWord i el i.counter) * 2 ^ 10, regWord i el i.counter)

/-- An island for an element that none holds. -/
def bareIsland (e : Nat) : Island :=
  { row0 := e / 16, col0 := e % 16, nrow := 1, ncol := 1, lop := 1, lrt := 1, lra := 1, counter := 0
    unit := none, trips := 0, flags := 0, held := none, watch := 0, stalled := false
    charges := Charges.zero, phase := Charges.zero, hit := 0 }

/-- The island of the element in focus. -/
def turnIsland (s : State) : Island :=
  match (turnWords s).1 with
  | some (_, i) => i
  | none => bareIsland s.focus.2

/-- What an op of the element in focus reads. -/
def turnInput (s : State) : OpIn :=
  opInput (s.region s.focus.1) s.focus.2 (turnWords s).2.1 (turnWords s).2.2

/-- What an op of the element in focus uses. -/
def turnUses (ins : Instr) (s : State) : Uses :=
  usesOf (s.region s.focus.1) s.focus.2 ins (turnWords s).2.1 (turnWords s).2.2 false

/-- R138, R143: the element in focus issues one op, or is held by what holds its island. -/
def opTurn (ins : Instr) (s : State) : State :=
  let g := s.region s.focus.1
  let u := turnUses ins s
  match firstStall (causesOf g (turnIsland s) s.focus.2 u false) with
  | some .spill => holdSpill s s.focus.1 [(s.focus.2, u)] false
  | some _ => s
  | none =>
    let after := sendsOut g (turnIsland s) s.focus.2 u || touchesElm g s.focus.2 u
    let t0 := if after then settleRsm s s.focus.1 (turnIsland s) else s
    if after && rsmCauses t0 s.focus.1 (turnIsland s) ≠ [] then t0
    else
      let t := readTick t0 s.focus.1 s.focus.2 ins (plainIn g s.focus.2 u.reg) false
      applyPlan t s.focus.1 (match (turnWords s).1 with
        | some (n, _) => n
        | none => 64) (turnIsland s) (planOf (t.region s.focus.1) s.focus.2 u false)

def execVnop (s : State) : Out := .next (opTurn .vnop s)
def execVnopUnguarded (s : State) : Out := .next (opTurn .vnopUnguarded s)
def execVadd (t : BitVec 3) (u s1 : BitVec 1) (s : State) : Out := .next (opTurn (.vadd t u s1) s)
def execVsub (t : BitVec 3) (u s1 : BitVec 1) (s : State) : Out := .next (opTurn (.vsub t u s1) s)
def execVmul (t : BitVec 3) (u s1 : BitVec 1) (s : State) : Out := .next (opTurn (.vmul t u s1) s)
def execVmad (t : BitVec 3) (u s1 : BitVec 1) (s : State) : Out := .next (opTurn (.vmad t u s1) s)
def execVmin (t : BitVec 3) (u : BitVec 1) (s : State) : Out := .next (opTurn (.vmin t u) s)
def execVmax (t : BitVec 3) (u : BitVec 1) (s : State) : Out := .next (opTurn (.vmax t u) s)
def execVlogic (f : BitVec 4) (s : State) : Out := .next (opTurn (.vlogic f) s)
def execVshl (t : BitVec 3) (u s1 : BitVec 1) (s : State) : Out := .next (opTurn (.vshl t u s1) s)
def execVshr (t : BitVec 3) (u : BitVec 1) (s : State) : Out := .next (opTurn (.vshr t u) s)
def execVshi (f : BitVec 4) (t : BitVec 3) (c : BitVec 8) (s : State) : Out := .next (opTurn (.vshi f t c) s)
def execVcmp (f : BitVec 4) (t : BitVec 3) (u : BitVec 1) (s : State) : Out := .next (opTurn (.vcmp f t u) s)
def execVsel (q : BitVec 3) (s : State) : Out := .next (opTurn (.vsel q) s)
def execVmov (f : BitVec 4) (m : BitVec 8) (s : State) : Out := .next (opTurn (.vmov f m) s)
def execVmovi (p : BitVec 2) (i : BitVec 8) (s : State) : Out := .next (opTurn (.vmovi p i) s)
def execVgop (f : BitVec 4) (s : State) : Out := .next (opTurn (.vgop f) s)
def execVfadd (t : BitVec 3) (s1 : BitVec 1) (r : BitVec 3) (s : State) : Out := .next (opTurn (.vfadd t s1 r) s)
def execVfsub (t : BitVec 3) (s1 : BitVec 1) (r : BitVec 3) (s : State) : Out := .next (opTurn (.vfsub t s1 r) s)
def execVfmul (t : BitVec 3) (s1 : BitVec 1) (r : BitVec 3) (s : State) : Out := .next (opTurn (.vfmul t s1 r) s)
def execVfma (t : BitVec 3) (s1 : BitVec 1) (r : BitVec 3) (s : State) : Out := .next (opTurn (.vfma t s1 r) s)
def execVfmin (t : BitVec 3) (s : State) : Out := .next (opTurn (.vfmin t) s)
def execVfmax (t : BitVec 3) (s : State) : Out := .next (opTurn (.vfmax t) s)
def execVfsgn (f : BitVec 4) (t : BitVec 3) (s : State) : Out := .next (opTurn (.vfsgn f t) s)
def execVfrcp (t r : BitVec 3) (s : State) : Out := .next (opTurn (.vfrcp t r) s)
def execVfrsq (t r : BitVec 3) (s : State) : Out := .next (opTurn (.vfrsq t r) s)
def execVfexp2 (t r : BitVec 3) (s : State) : Out := .next (opTurn (.vfexp2 t r) s)
def execVred (f : BitVec 4) (t : BitVec 3) (u : BitVec 1) (l : BitVec 2) (s1 : BitVec 1) (r : BitVec 3) (s : State) : Out := .next (opTurn (.vred f t u l s1 r) s)
def execVnarrow (o : BitVec 1) (r t : BitVec 3) (ax : BitVec 8) (s : State) : Out := .next (opTurn (.vnarrow o r t ax) s)
def execVwiden (o : BitVec 1) (r t : BitVec 3) (ax : BitVec 8) (s : State) : Out := .next (opTurn (.vwiden o r t ax) s)
def execVpermb (s : State) : Out := .next (opTurn .vpermb s)
def execVnib (f h : BitVec 1) (s : State) : Out := .next (opTurn (.vnib f h) s)
def execVpack (f : BitVec 4) (t : BitVec 3) (u s1 : BitVec 1) (s : State) : Out := .next (opTurn (.vpack f t u s1) s)
def execVshuf (f : BitVec 4) (l : BitVec 2) (c : BitVec 4) (s : State) : Out := .next (opTurn (.vshuf f l c) s)
def execVldm (t : BitVec 3) (o : BitVec 8) (s : State) : Out := .next (opTurn (.vldm t o) s)
def execVstm (g t : BitVec 3) (o : BitVec 8) (s : State) : Out := .next (opTurn (.vstm g t o) s)
def execVldl (t : BitVec 3) (o : BitVec 8) (s : State) : Out := .next (opTurn (.vldl t o) s)
def execVstl (g t : BitVec 3) (o : BitVec 8) (s : State) : Out := .next (opTurn (.vstl g t o) s)
def execVpop (p : BitVec 1) (s : State) : Out := .next (opTurn (.vpop p) s)
def execVpush (p : BitVec 1) (g : BitVec 3) (s : State) : Out := .next (opTurn (.vpush p g) s)
def execVsend (g : BitVec 3) (s : State) : Out := .next (opTurn (.vsend g) s)
def execTksend (g : BitVec 3) (k : BitVec 8) (s : State) : Out := .next (opTurn (.tksend g k) s)
def execTkwait (k : BitVec 8) (s : State) : Out := .next (opTurn (.tkwait k) s)
def execVatom (f : BitVec 4) (g t : BitVec 3) (u : BitVec 1) (s : State) : Out := .next (opTurn (.vatom f g t u) s)
def execShape (e : BitVec 3) (w : BitVec 2) (s : State) : Out := .next (opTurn (.shape e w) s)
def execMbloadQueue (p : BitVec 1) (s : State) : Out := .next (opTurn (.mbloadQueue p) s)
def execMbloadRegister (w : BitVec 1) (ax : BitVec 8) (s : State) : Out := .next (opTurn (.mbloadRegister w ax) s)
def execMrun (s1 : BitVec 2) (c p : BitVec 1) (m : BitVec 8) (s : State) : Out := .next (opTurn (.mrun s1 c p m) s)
def execMrdacc (s : State) : Out := .next (opTurn .mrdacc s)
def execMfma64 (s1 : BitVec 1) (r : BitVec 3) (s : State) : Out := .next (opTurn (.mfma64 s1 r) s)
def execQst (n : BitVec 2) (w p : BitVec 1) (g t s1 : BitVec 3) (m : BitVec 5) (s : State) : Out := .next (opTurn (.qst n w p g t s1 m) s)
def execVcld (n : BitVec 2) (p : BitVec 1) (t : BitVec 3) (s1 : BitVec 1) (r : BitVec 3) (s : State) : Out := .next (opTurn (.vcld n p t s1 r) s)
def execAgcfg (p ax : BitVec 1) (c k : BitVec 2) (s : State) : Out := .next (opTurn (.agcfg p ax c k) s)
def execAgbase (p : BitVec 1) (s : State) : Out := .next (opTurn (.agbase p) s)
def execAgrun (f n p : BitVec 1) (s : State) : Out := .next (opTurn (.agrun f n p) s)
def execMzero (r : BitVec 1) (s : State) : Out := .next (opTurn (.mzero r) s)

end Sys2Proof.Machine
end

