-- ==== Sys2Proof/Machine/Uses.lean ====
section
/-! DEFINITION. What ops and ring words read and write, as the loader sees them: from the words alone
(R148, R211, R214, R253, R397). -/

namespace Sys2Proof.Machine

/-- R148: a location the loader names. -/
inductive Loc where
  | v (r : Nat)
  | q (r : Nat)
  deriving DecidableEq, Repr

/-- What an op reads and writes: operands a, b and the addend by location, further registers, the guard
register that its guard field or mode byte names, whether it reads ELM or LPS bytes, its writes with
their latencies, and the latency of an ELM or LPS store. -/
structure OpUse where
  a : Option Loc
  b : Option Loc
  c : Option Loc
  more : List Loc
  g : Option Nat
  mem : Bool
  writes : List (Loc × Nat)
  store : Option Nat
  deriving DecidableEq, Repr

def OpUse.none : OpUse :=
  { a := Option.none, b := Option.none, c := Option.none, more := [], g := Option.none, mem := false
    writes := [], store := Option.none }

/-- R144: the guard register of a guard field; 7 names none. -/
def guardField (g : BitVec 3) : Option Nat := if g = 7 then none else some g.toNat

/-- R287: operand b as a register, unless it is a stream. -/
def regB (reg : Nat) : Option Loc := if regStream reg then none else some (.v (regVb reg))

/-- An op on va alone, with its result in vd. -/
def useA (reg lat : Nat) : OpUse :=
  { OpUse.none with a := some (.v (regVa reg)), writes := [(.v (regVd reg), lat)] }

/-- An op on va and operand b, with its result in vd. -/
def useAB (reg lat : Nat) : OpUse := { useA reg lat with b := regB reg }

/-- The same with vd as addend. -/
def useABC (reg lat : Nat) : OpUse := { useAB reg lat with c := some (.v (regVd reg)) }

/-- Consecutive registers. -/
def regRange (from_ n : Nat) : List Loc := (upTo n).map fun i => .v (from_ + i)

/-- R325, R326: registers that N values of a lane type fill. -/
def blockRegs (n : BitVec 2) (t : BitVec 3) : Nat := ceilDiv (geoOf n) (512 / Legal.typeWidth t)

/-- What an op word reads and writes under a register-address word. -/
def opUse (i : Instr) (reg : Nat) : OpUse :=
  let vd := regVd reg
  let qd : Loc := .q (vd % 8)
  match i with
  | .vadd _ _ _ => useAB reg 1
  | .vsub _ _ _ => useAB reg 1
  | .vmul _ _ _ => useAB reg 2
  | .vmad _ _ _ => useABC reg 2
  | .vmin _ _ => useAB reg 1
  | .vmax _ _ => useAB reg 1
  | .vlogic f => if f = 6 then useA reg 1 else useAB reg 1
  | .vshl _ _ _ => useAB reg 1
  | .vshr _ _ => useAB reg 1
  | .vshi _ _ _ => useA reg 1
  | .vcmp _ _ _ => { useAB reg 1 with writes := [(qd, 1)] }
  | .vsel q => { useAB reg 1 with g := some q.toNat }
  | .vmov f _ => if f = 2 then { OpUse.none with writes := [(.v vd, 1)] } else useA reg 1
  | .vmovi p _ => { OpUse.none with c := if p = 0 then none else some (.v vd), writes := [(.v vd, 1)] }
  | .vgop f =>
    { OpUse.none with
      a := if f.toNat < 5 then some (.q (regVa reg % 8)) else none
      b := if f.toNat < 4 then some (.q (regVb reg % 8)) else none
      writes := [(qd, 1)] }
  | .vfadd _ _ _ => useAB reg 4
  | .vfsub _ _ _ => useAB reg 4
  | .vfmul _ _ _ => useAB reg 4
  | .vfma _ _ _ => useABC reg 4
  | .vfmin _ => useAB reg 4
  | .vfmax _ => useAB reg 4
  | .vfsgn f _ => if f = 2 then useAB reg 1 else useA reg 1
  | .vfrcp _ _ => useA reg 8
  | .vfrsq _ _ => useA reg 8
  | .vfexp2 _ _ => useA reg 8
  | .vred _ _ _ l _ _ => useA reg (if l = 1 then 3 else 6)
  | .vnarrow _ _ _ _ => useA reg 2
  | .vwiden _ _ _ _ => useA reg 2
  | .vpermb => useAB reg 1
  | .vnib _ _ => useA reg 1
  | .vpack _ _ _ _ => useAB reg 1
  | .vshuf _ _ _ => useA reg 1
  | .vldm _ _ => { useA reg 3 with mem := true }
  | .vstm g _ _ =>
    { OpUse.none with a := some (.v (regVa reg)), c := some (.v vd), g := guardField g, store := some 1 }
  | .vldl _ _ => { useA reg 2 with mem := true }
  | .vstl g _ _ =>
    { OpUse.none with a := some (.v (regVa reg)), c := some (.v vd), g := guardField g, store := some 1 }
  | .vpop _ => { OpUse.none with writes := [(.v vd, 0)] }
  | .vpush _ g => { OpUse.none with a := some (.v (regVa reg)), g := guardField g }
  | .vsend g => { OpUse.none with g := guardField g }
  | .tksend g _ => { OpUse.none with g := guardField g }
  | .vatom _ g _ _ => { useAB reg 3 with g := guardField g, mem := true, store := some 1 }
  | .shape _ _ => useA reg 2
  | .mbloadQueue _ => { OpUse.none with a := some (.v (regVa reg)), store := some 1 }
  | .mbloadRegister _ _ => { OpUse.none with a := some (.v (regVa reg)), b := regB reg, store := some 1 }
  | .mrun _ _ _ _ => { OpUse.none with a := some (.v (regVa reg)) }
  | .mrdacc => { useA reg 3 with writes := [(.v vd, 3), (.v (vd + 1), 3)] }
  | .mfma64 _ _ => useABC reg 6
  | .qst n _ _ g t _ _ =>
    { OpUse.none with
      a := some (.v (regVa reg)), more := regRange (regVa reg) (blockRegs n t), g := guardField g }
  | .vcld n _ t _ _ => { OpUse.none with writes := (regRange vd (blockRegs n t)).map fun l => (l, 2) }
  | .agcfg _ _ _ _ => { OpUse.none with a := some (.v (regVa reg)) }
  | .agbase _ => { OpUse.none with a := some (.v (regVa reg)) }
  | .agrun _ _ _ => { OpUse.none with a := some (.v (regVa reg)) }
  | .mzero r => if isSet r then { OpUse.none with a := some (.v (regVa reg)), store := some 1 }
      else { OpUse.none with store := some 1 }
  | _ => OpUse.none

/-- R141: whether a route word drives vd. -/
def routeReadsVd (route : Nat) : Bool := rtOsrc route = 1 && (rtOut route ≠ 0 || rtOut2 route ≠ 0)

/-- The registers and guards that the words of one tick read. -/
def wordReads (i : Instr) (route reg : Nat) : List Loc :=
  let u := opUse i reg
  u.a.toList ++ u.b.toList ++ u.c.toList ++ u.more ++ (u.g.map Loc.q).toList ++
    (if routeReadsVd route then [.v (regVd reg)] else [])

/-- R211, R314, R322: whether the register-address word of a tick breaks its op: a guard register with
its high bits set, or a register range past v31. -/
def regWordBad (i : Instr) (reg : Nat) : Bool :=
  match i with
  | .vcmp _ _ _ => decide (regVd reg ≥ 8)
  | .vgop f => decide (regVd reg ≥ 8) || (decide (f.toNat < 5) && decide (regVa reg ≥ 8)) ||
      (decide (f.toNat < 4) && decide (regVb reg ≥ 8))
  | .mrdacc => regVd reg = 31
  | .qst n _ _ _ t _ _ => decide (regVa reg + blockRegs n t > 32)
  | .vcld n _ t _ _ => decide (regVd reg + blockRegs n t > 32)
  | _ => false

/-- R156, R214: whether a stage element has the op. -/
def stageOp : Instr → Bool
  | .vldm _ _ => false
  | .vstm _ _ _ => false
  | .vpop p => p = 0
  | .vpush _ _ => false
  | .vsend _ => false
  | .tksend _ _ => false
  | .tkwait _ => false
  | .vatom _ _ _ _ => false
  | .shape _ _ => false
  | .mbloadQueue _ => false
  | .mbloadRegister _ _ => false
  | .mrun _ _ _ _ => false
  | .mrdacc => false
  | .mfma64 _ _ => false
  | .qst _ _ _ _ _ _ _ => false
  | .vcld _ _ _ _ _ => false
  | .agcfg _ _ _ _ => false
  | .agbase _ => false
  | .agrun _ _ _ => false
  | .mzero _ => false
  | _ => true

/-- R310, R319, R325 to R327: the port that an op uses as a load (1) or store (2) port. -/
def portUse : Instr → Option (Nat × Nat)
  | .vpop p => some (p.toNat, 1)
  | .vpush p _ => some (p.toNat, 2)
  | .mbloadQueue p => some (p.toNat, 1)
  | .mrun _ _ p _ => some (p.toNat, 1)
  | .qst _ _ p _ _ _ _ => some (p.toNat, 2)
  | .vcld _ p _ _ _ => some (p.toNat, 1)
  | _ => none

/-- R327: the port, kind and counters that an `agcfg` configures. -/
def portConfig : Instr → Option (Nat × Nat × Nat)
  | .agcfg p _ c k => if k = 0 then none else some (p.toNat, k.toNat, c.toNat + 1)
  | _ => none

end Sys2Proof.Machine
end

