-- ==== Sys2Proof/Machine/Loader.lean ====
section
/-! DEFINITION. The Planos loader: the layout of an image (R253), the checks in the passes of R372 with
their refusal records (R148 to R150, R211 to R215, R310 to R329, R397, R398), and the checks of a stage
set (R169, R176). -/

namespace Sys2Proof.Machine

/-! ### Layout (R253) -/

/-- A little-endian field of n bytes at an offset. -/
def fieldAt (bs : List Byte) (o n : Nat) : Nat := leToNat ((bs.drop o).take n)

/-- Whether n bytes at an offset are zero. -/
def zerosAt (bs : List Byte) (o n : Nat) : Bool := ((bs.drop o).take n).all fun b => b = 0

/-- An island record; none for a field that must be zero. θ bits without bit 80 are taken for such a field
(DESIGN CHOICE: R253 gives them no fate, notes/assumptions/86.md). -/
def parseIsland (kind : Nat) (b : List Byte) : Option IslandRec :=
  let v := leToNat b
  let theta := nbit v 80
  let rest := if kind = 1 then nbits v 63 34 + nbits v 95 81 + (if theta then 0 else nbits v 127 96)
    else nbits v 127 34
  if rest ≠ 0 || (kind = 1 && (nbits v 15 0 ≠ 0 || decide (nbits v 67 64 > 5))) then none
  else some
    { row0 := nbits v 3 0, col0 := nbits v 7 4, nrow := nbits v 11 8 + 1, ncol := nbits v 15 12 + 1
      lop := nbits v 21 16, lrt := nbits v 27 22, lra := nbits v 33 28, stage := nbits v 67 64
      inputs := nbits v 77 68, maskClass := nbits v 79 78
      theta := if theta then some (nbits v 127 96) else none }

/-- The slots of a ring at or beyond its length are zero. -/
def ringTailZero (l : List Nat) (len : Nat) : Bool := (l.drop len).all fun x => x = 0

/-- An element record, checked against its island. -/
def parseElement (kind : Nat) (isl : List IslandRec) (b : List Byte) : Option ElementRec :=
  let k := fieldAt b 1 1
  match isl[k]? with
  | none => none
  | some i =>
    let e : ElementRec :=
      { row := fieldAt b 0 1 % 16, col := fieldAt b 0 1 / 16, island := k
        ops := (upTo 32).map fun j => fieldAt b (2 + 3 * j) 3
        routes := (upTo 32).map fun j => fieldAt b (98 + 2 * j) 2
        regs := (upTo 32).map fun j => fieldAt b (162 + 2 * j) 2
        shape := (fieldAt b 226 4, fieldAt b 230 4, fieldAt b 234 4) }
    if !zerosAt b 238 18 || (kind = 1 && fieldAt b 0 1 ≠ 0) then none
    else if ringTailZero e.ops i.lop && ringTailZero e.routes i.lrt && ringTailZero e.regs i.lra then some e
    else none

/-- An edge entry among ne element records. -/
def parseEdge (ne : Nat) (b : List Byte) : Option EdgeRec :=
  let v := leToNat b
  let e : EdgeRec := { consumer := nbits v 7 0, slot := nbits v 12 8, operand := nbits v 15 13
                       producer := nbits v 23 16, prodSlot := nbits v 28 24, distance := nbits v 47 32 }
  if nbits v 31 29 ≠ 0 || nbits v 63 48 ≠ 0 || e.operand > 4 || e.producer ≠ e.consumer || e.consumer ≥ ne
  then none else some e

/-- A turnstile record. An edge number whose far end lies in the region is accepted and unused (DESIGN CHOICE: R253
gives it no fate, notes/assumptions/86.md). -/
def parseTurn (ne : Nat) (b : List Byte) : Option TurnRec :=
  let v := leToNat b
  let t : TurnRec := { number := nbits v 5 0, big := nbit v 6, port := nbits v 9 7, element := nbits v 23 16
                       initial := nbits v 29 24, edge := nbits v 43 32 }
  if nbits v 15 10 ≠ 0 || nbits v 31 30 ≠ 0 || nbits v 63 44 ≠ 0 || t.port = 0 || t.port = 7 || t.element ≥ ne
  then none else some t

/-- A pre-emption point. -/
def parsePoint (ni : Nat) (b : List Byte) : Option PointRec :=
  let v := fieldAt b 0 16
  if nbits v 127 11 ≠ 0 || nbits v 5 0 ≥ ni then none
  else some { island := nbits v 5 0, slot := nbits v 10 6, mask := fieldAt b 16 16 }

/-- n records of size bytes each, all of them or none. -/
def parseMany {α : Type} (f : List Byte → Option α) (size : Nat) : Nat → List Byte → Option (List α)
  | 0, _ => some []
  | n + 1, bs => match f (bs.take size), parseMany f size n (bs.drop size) with
    | some x, some l => some (x :: l)
    | _, _ => none

/-- R253: a stage code is present once. -/
def stagesOnce : List IslandRec → Bool
  | [] => true
  | i :: r => !(r.any fun j => j.stage = i.stage) && stagesOnce r

/-- R253: an image from its bytes; none is a layout breach. Each island of a stage set is one element. -/
def parseImage (bs : List Byte) : Option Image :=
  let ni := fieldAt bs 0 2
  let ne := fieldAt bs 2 2
  let ng := fieldAt bs 4 2
  let ns := fieldAt bs 6 1
  let np := fieldAt bs 7 1
  let kind := fieldAt bs 8 1
  if bs.length < 0x40 || ni = 0 || ni > 64 || ne = 0 || ne > 256 || ns > 64 || kind > 1 || !zerosAt bs 9 55 ||
    bs.length ≠ 0x40 + 16 * ni + 256 * ne + 8 * ng + 8 * ns + 32 * np + 256 * kind then none
  else
    match parseMany (parseIsland kind) 16 ni (bs.drop 0x40) with
    | none => none
    | some isl =>
      if kind = 1 && !stagesOnce isl then none
      else
        let o1 := 0x40 + 16 * ni
        match parseMany (parseElement kind isl) 256 ne (bs.drop o1),
          parseMany (parseEdge ne) 8 ng (bs.drop (o1 + 256 * ne)),
          parseMany (parseTurn ne) 8 ns (bs.drop (o1 + 256 * ne + 8 * ng)),
          parseMany (parsePoint ni) 32 np (bs.drop (o1 + 256 * ne + 8 * ng + 8 * ns)) with
        | some els, some eds, some ts, some ps =>
          if kind = 1 && !((upTo ni).all fun k => (els.filter fun e => e.island = k).length = 1) then none
          else
            some { kind := kind, islands := isl, elements := els, edges := eds, turns := ts, points := ps
                   consts := if kind = 1 then
                       (upTo 64).map fun j => fieldAt bs (bs.length - 256 + 4 * j) 4
                     else [] }
        | _, _, _, _ => none

/-- R253: the largest size that an image can have. -/
def maxImage : Nat := 0x40 + 16 * 64 + 256 * 256 + 8 * 65535 + 8 * 64 + 32 * 255 + 256

/-! ### Refusal records (R150) -/

/-- A refusal: its code, the element record it names (or an island's first element), ring, slot, need. -/
structure Refused where
  code : Nat
  elem : Nat
  row : Nat
  col : Nat
  ring : Nat
  slot : Nat
  need : Nat
  deriving DecidableEq, Repr

/-- R150: the record word. -/
def Refused.word (x : Refused) (region : Nat) : Nat :=
  x.code * 2 ^ 56 + region % 1024 * 2 ^ 46 + x.row % 16 * 2 ^ 42 + x.col % 16 * 2 ^ 38 + x.ring % 4 * 2 ^ 36 +
    x.slot % 32 * 2 ^ 31 + min x.need 0x7FFF * 2 ^ 16

/-- R372, pass 1. -/
def layoutBreach : Refused := { code := 9, elem := 0, row := 0, col := 0, ring := 3, slot := 0, need := 0 }

/-- The first answer of a list of checks. -/
def firstSome {α β : Type} (f : α → Option β) : List α → Option β
  | [] => none
  | x :: r => match f x with
    | some y => some y
    | none => firstSome f r

/-- A refusal at an element. -/
def refuseAt (code : Nat) (p : Nat × ElementRec) (ring slot need : Nat) : Refused :=
  { code := code, elem := p.1, row := p.2.row, col := p.2.col, ring := ring, slot := slot, need := need }

/-- A refusal of a whole island. -/
def refuseIsland (im : Image) (code : Nat) (p : Nat × IslandRec) : Refused :=
  { code := code, elem := (im.elements.findIdx? fun e => e.island = p.1).getD 0
    row := p.2.row0, col := p.2.col0, ring := 3, slot := 0, need := 0 }

/-! ### Order of the checks -/

/-- Insertion by a key. -/
def insertBy {α : Type} (k : α → Nat) (x : α) : List α → List α
  | [] => [x]
  | y :: r => if k x < k y then x :: y :: r else y :: insertBy k x r

def sortBy {α : Type} (k : α → Nat) (l : List α) : List α := l.foldl (fun m x => insertBy k x m) []

def Image.isl (im : Image) (e : ElementRec) : IslandRec := im.islands.getD e.island
  { row0 := 0, col0 := 0, nrow := 1, ncol := 1, lop := 1, lrt := 1, lra := 1, stage := 0, inputs := 0
    maskClass := 0, theta := none }

/-- R372: the place of an element in the order of the checks: row, then column; the stages of a stage set in their
order. -/
def Image.rank (im : Image) (e : ElementRec) : Nat :=
  if im.kind = 1 then (im.isl e).stage else e.row * 16 + e.col

def Image.sorted (im : Image) : List (Nat × ElementRec) := sortBy (fun p => im.rank p.2) (numbered im.elements)

/-- R372: the place of a refusal: element, ring, slot. -/
def Image.placeOf (im : Image) (x : Refused) : Nat :=
  (match im.elements[x.elem]? with
    | none => 0
    | some e => im.rank e) * 128 + x.ring * 32 + x.slot

/-- R372: the first of some refusals of one pass. -/
def Image.first (im : Image) (l : List Refused) : Option Refused := (sortBy im.placeOf l).head?

def IslandRec.covers (i : IslandRec) (row col : Nat) : Bool :=
  decide (i.row0 ≤ row) && decide (row < i.row0 + i.nrow) && decide (i.col0 ≤ col) && decide (col < i.col0 + i.ncol)

/-- R21: the period of a record. -/
def IslandRec.period (i : IslandRec) : Nat := Nat.lcm (Nat.lcm i.lop i.lrt) i.lra

/-- R253: the words of an element at a counter value. -/
def opAt (i : IslandRec) (e : ElementRec) (c : Nat) : Instr := instrOf (e.ops.getD (c % i.lop) 0)
def routeAt (i : IslandRec) (e : ElementRec) (c : Nat) : Nat := e.routes.getD (c % i.lrt) 0
def regAt (i : IslandRec) (e : ElementRec) (c : Nat) : Nat := e.regs.getD (c % i.lra) 0

/-! ### Passes 2 to 5 -/

/-- R150: `LENGTH`. -/
def lengthBad (i : IslandRec) : Bool :=
  i.lop = 0 || i.lrt = 0 || i.lra = 0 || decide (i.lop > 32) || decide (i.lrt > 32) || decide (i.lra > 32)

def rectsMeet (a b : IslandRec) : Bool :=
  decide (a.row0 < b.row0 + b.nrow) && decide (b.row0 < a.row0 + a.nrow) &&
    decide (a.col0 < b.col0 + b.ncol) && decide (b.col0 < a.col0 + a.ncol)

/-- R150, R387: `SHAPE`: past the region, overlapping, over an element that is not enabled, or with an
element record outside it or given twice. -/
def shapeBad (im : Image) (enabled : List Nat) (p : Nat × IslandRec) : Bool :=
  let i := p.2
  decide (i.row0 + i.nrow > 16) || decide (i.col0 + i.ncol > 16) ||
    ((numbered im.islands).any fun q => q.1 ≠ p.1 && rectsMeet i q.2) ||
    ((upTo (i.nrow * i.ncol)).any fun k =>
      !enabled.contains (16 * (i.row0 + k / i.ncol) + i.col0 + k % i.ncol)) ||
    ((numbered im.elements).any fun e => e.2.island = p.1 &&
      (!i.covers e.2.row e.2.col ||
        (numbered im.elements).any fun f => f.1 ≠ e.1 && f.2.row = e.2.row && f.2.col = e.2.col))

/-- Passes 2 and 3. The islands of a stage set stand each for itself at row 0, column 0 (R253): of the shapes
they can break only R387's, over an element that is not enabled. -/
def islandPasses (im : Image) (enabled : List Nat) : Option Refused :=
  let isl := sortBy (fun p : Nat × IslandRec => p.2.row0 * 16 + p.2.col0) (numbered im.islands)
  match isl.find? fun p => lengthBad p.2 with
  | some p => some (refuseIsland im 12 p)
  | none =>
    (isl.find? fun p => if im.kind = 1 then !enabled.contains 0 else shapeBad im enabled p).map fun p =>
      refuseIsland im 11 p

/-- Pass 4 for one element: op words, then register-address words against the ops they meet. -/
def encodingPass (im : Image) (p : Nat × ElementRec) : Option Refused :=
  let i := im.isl p.2
  match (upTo i.lop).find? fun s => !opEncodingOk (p.2.ops.getD s 0) with
  | some s => some (refuseAt 9 p 0 s 0)
  | none =>
    ((upTo i.lra).find? fun s => (upTo i.lop).any fun o =>
      (o % Nat.gcd i.lop i.lra = s % Nat.gcd i.lop i.lra) &&
        regWordBad (instrOf (withoutGuard (p.2.ops.getD o 0))) (p.2.regs.getD s 0)).map fun s => refuseAt 9 p 2 s 0

/-- Pass 5 for one element (R144). -/
def guardPass (im : Image) (p : Nat × ElementRec) : Option Refused :=
  ((upTo (im.isl p.2).lop).find? fun s => !opGuardOk (p.2.ops.getD s 0)).map fun s => refuseAt 10 p 0 s 0

/-! ### Spans of runs and loops (R397) -/

/-- The ops of an element through one period, by counter value. -/
def opsOf (i : IslandRec) (e : ElementRec) : List Instr := (upTo i.lop).map fun c => opAt i e c

/-- R397: whether an op that satisfies `hit` stands at slot s within the span that an op satisfying
`opens` begins and `tkwait k` ends, counted through the op ring and across trips. -/
def inSpan (ops : List Instr) (k : Nat) (opens : Instr → Bool) (s : Nat) : Bool :=
  let n := ops.length
  let back := (upTo n).map fun j => ops.getD ((s + 2 * n - 1 - j) % n) .vnop
  match back.find? fun o => opens o || (match o with
    | .tkwait x => x.toNat = k
    | _ => false) with
  | some o => opens o
  | none => false

def opensRun : Instr → Bool
  | .mrun _ _ _ _ => true
  | _ => false

/-- R397: a loop with a span, on a port or on either. -/
def opensLoop (port : Option Nat) : Instr → Bool
  | .agrun f _ p => isSet f && (match port with
    | none => true
    | some q => p.toNat = q)
  | _ => false

/-! ### Pass 6: generator configuration (R141, R212, R310, R327) -/

/-- A use of a port in a ring: its ring and slot, the port, its kind, the counters of a configuration. -/
structure PortUse where
  ring : Nat
  slot : Nat
  port : Nat
  kind : Nat
  counters : Option Nat
  deriving DecidableEq, Repr

/-- Whether some tick of the route slot has b-is-stream. -/
def streamsAt (i : IslandRec) (e : ElementRec) (s : Nat) : Bool :=
  (upTo i.lra).any fun j => j % Nat.gcd i.lra i.lrt = s % Nat.gcd i.lra i.lrt && regStream (e.regs.getD j 0)

/-- R327, R331: the uses of ports in an element's rings. A stage element's operand b from load queue 0 needs no
configuration: the pipe fills the queue. -/
def portUses (stage : Bool) (i : IslandRec) (e : ElementRec) : List PortUse :=
  let ops := opsOf i e
  ((numbered ops).flatMap fun p =>
    (match portConfig p.2 with
      | some (q, k, c) => [{ ring := 0, slot := p.1, port := q, kind := k, counters := some c }]
      | none => []) ++
    (match portUse p.2 with
      | some (q, k) => [{ ring := 0, slot := p.1, port := q, kind := k, counters := none }]
      | none => [])) ++
  (upTo i.lrt).flatMap fun s =>
    let w := e.routes.getD s 0
    (if !stage && rtInb w = 7 && streamsAt i e s then
      [{ ring := 1, slot := s, port := 0, kind := 1, counters := none }] else []) ++
    (if rtOsrc w ≥ 2 then
      [{ ring := 1, slot := s, port := rtOsrc w - 2, kind := 1, counters := none }] else []) ++
    (if rtOut w = 7 || rtOut2 w = 7 then
      [{ ring := 1, slot := s, port := ringStorePort ops, kind := 2, counters := none }] else [])

/-- The most counters that the configurations of a port among the uses take. -/
def portCounters (l : List PortUse) (p : Nat) : Nat :=
  l.foldl (fun m u => if u.port = p then max m (u.counters.getD 0) else m) 0

/-- The first use that R327 refuses, given the uses before it. A stage element's ops that are foreign to it are refused
with `OPS`, its routes like others (R212). -/
def agcfgGo (stage : Bool) (all : List PortUse) : List PortUse → List PortUse → Option PortUse
  | _, [] => none
  | seen, u :: r =>
    let configured (k : Nat) : Bool := all.any fun x => x.port = u.port && x.kind = k && x.counters ≠ none
    let other := (u :: seen).any fun x => x.port = u.port && x.kind ≠ u.kind
    let bad := match u.counters with
      | some _ => !stage && (other || decide (portCounters (u :: seen) 0 + portCounters (u :: seen) 1 > 4))
      | none => if stage then !configured u.kind && u.ring = 1
          else configured (3 - u.kind) || !configured u.kind
    if bad then some u else agcfgGo stage all (u :: seen) r

/-- R310: whether an op and a route of one tick push one store queue twice. -/
def pushesTwice (i : IslandRec) (e : ElementRec) (s : Nat) : Bool :=
  match opPush (opAt i e s) with
  | none => false
  | some (p, _) => p = ringStorePort (opsOf i e) && (upTo i.lrt).any fun j =>
      j % Nat.gcd i.lop i.lrt = s % Nat.gcd i.lop i.lrt &&
        (rtOut (e.routes.getD j 0) = 7 || rtOut2 (e.routes.getD j 0) = 7)

/-- R327: whether a port is configured while its loop runs, as far as the rings show. -/
def configInLoop (ops : List Instr) (s : Nat) : Bool :=
  match ops.getD s .vnop with
  | .agcfg p _ _ _ => inSpan ops 7 (opensLoop (some p.toNat)) s
  | .agbase p => inSpan ops 7 (opensLoop (some p.toNat)) s
  | _ => false

def agcfgPass (im : Image) (p : Nat × ElementRec) : Option Refused :=
  let i := im.isl p.2
  let stage := im.kind = 1
  let uses := portUses stage i p.2
  let slot := if stage then none
    else (upTo i.lop).find? fun s => pushesTwice i p.2 s || configInLoop (opsOf i p.2) s
  im.first ((slot.map fun s => refuseAt 13 p 0 s 0).toList ++
    ((agcfgGo stage uses [] uses).map fun u => refuseAt 13 p u.ring u.slot 0).toList)

/-! ### Pass 7: routes (R141, R150, R212, R311, R312) -/

/-- The element record at a place. -/
def Image.at (im : Image) (n : Nat) : Option ElementRec := im.elements.find? fun e => 16 * e.row + e.col = n

/-- The turnstile records at a port of an element, by number. -/
def Image.turnsAt (im : Image) (e p : Nat) : List TurnRec :=
  sortBy (fun t => t.number) (im.turns.filter fun t => t.port = p && (match im.elements[t.element]? with
    | none => false
    | some x => 16 * x.row + x.col = e))

/-- Whether the element at a place sends through a port. -/
def Image.sends (im : Image) (e p : Nat) : Bool :=
  match im.at e with
  | none => false
  | some x => ringsSend x.ops x.routes p

/-- R142: the turnstile that the image declares for the stream that leaves an element through a port, and for the
one that it takes there (as `Region.turnOut` and `Region.turnIn` find them once it is resident). -/
def Image.turnOut (im : Image) (e p : Nat) : Option TurnRec :=
  match nbrOf e p with
  | none => (im.turnsAt e p).head?
  | some n => edgeOut (im.turnsAt e p) (im.turnsAt n (oppPort p)) (im.sends e p) (im.sends n (oppPort p))

def Image.turnIn (im : Image) (e p : Nat) : Option TurnRec :=
  match nbrOf e p with
  | none => ((im.turnsAt e p)[1]?).or (im.turnsAt e p).head?
  | some n => im.turnOut n (oppPort p)

/-- Whether a neighbour lies in the same island. -/
def sameIsland (i : IslandRec) (e p : Nat) : Bool :=
  match nbrOf e p with
  | none => false
  | some n => i.covers (n / 16) (n % 16)

/-- R138, R150: whether a read of a port at route slot s has something to read: a turnstile, or the
neighbour's word of the tick before. -/
def portFed (im : Image) (i : IslandRec) (e : ElementRec) (p s : Nat) : Bool :=
  let me := 16 * e.row + e.col
  (im.turnIn me p).isSome || (sameIsland i me p && (match nbrOf me p with
    | none => false
    | some n => match im.at n with
      | none => false
      | some x =>
        let w := x.routes.getD ((s + i.lrt - 1) % i.lrt) 0
        rtOut w = oppPort p || rtOut2 w = oppPort p))

/-- Whether an op ring has a `vsend` on a tick of a slot of the route ring. -/
def vsendAt (i : IslandRec) (e : ElementRec) (s : Nat) : Bool :=
  (upTo i.lop).any fun o => match opAt i e o with
    | .vsend _ => o % Nat.gcd i.lop i.lrt = s % Nat.gcd i.lop i.lrt
    | _ => false

/-- R150, R212, R311: `ROUTE` at a slot of the route ring; the layer is the region's. -/
def routeBad (im : Image) (layer : Nat) (e : ElementRec) (s : Nat) : Bool :=
  let i := im.isl e
  let w := e.routes.getD s 0
  let reads := (if 1 ≤ rtIna w && rtIna w ≤ 6 then [rtIna w] else []) ++
    (if 1 ≤ rtInb w && rtInb w ≤ 6 && streamsAt i e s then [rtInb w] else [])
  (rtOut w ≠ 0 && rtOut w = rtOut2 w) || rtIna w = 7 ||
    ((rtOut w :: rtOut2 w :: reads).any fun p => (p = 5 && layer = 3) || (p = 6 && layer = 0)) ||
    (reads.any fun p => !portFed im i e p s) ||
    (im.kind ≠ 1 && vsendAt i e s && (rtOsrc w ≠ 1 || rtOut w = 0))

/-- R150: `TSEDGE` at a slot of the route ring; the `vsend` of a stage set is refused with `OPS` (R331). -/
def edgeBad (im : Image) (e : ElementRec) (s : Nat) : Bool :=
  let i := im.isl e
  let me := 16 * e.row + e.col
  let w := e.routes.getD s 0
  !(im.kind = 1 && vsendAt i e s) && [rtOut w, rtOut2 w].any fun p => 1 ≤ p && p ≤ 6 &&
    ((!rtTs w && !sameIsland i me p) || (rtTs w && (im.turnOut me p).isNone))

/-- R312: `TSEDGE` for a token through an edge of the island; a stage set's tokens are refused with `OPS`. -/
def tokenEdgeBad (im : Image) (e : ElementRec) (s : Nat) : Bool :=
  let me := 16 * e.row + e.col
  match opAt (im.isl e) e s with
  | .tksend _ k => im.kind ≠ 1 && 1 ≤ k.toNat && k.toNat ≤ 6 && !sameIsland (im.isl e) me k.toNat &&
      (im.turnOut me k.toNat).isNone
  | _ => false

def routePass (im : Image) (layer : Nat) (p : Nat × ElementRec) : Option Refused :=
  ((upTo (im.isl p.2).lrt).find? (routeBad im layer p.2)).map fun s => refuseAt 4 p 1 s 0

def edgePass (im : Image) (p : Nat × ElementRec) : Option Refused :=
  im.first (((upTo (im.isl p.2).lop).find? (tokenEdgeBad im p.2)).toList.map (fun s => refuseAt 5 p 1 s 0) ++
    ((upTo (im.isl p.2).lrt).find? (edgeBad im p.2)).toList.map fun s => refuseAt 5 p 1 s 0)

/-! ### Pass 8: grants (R316, R319, R320, R323, R397) -/

/-- R316, R397: the width of the grant that a `shape` op gives for its element's `.shape` request; without a
request only the width is known. -/
def shapeWidth (e : ElementRec) : Instr → Option Nat
  | .shape p w =>
    if e.shape = (0, 0, 0) then some (widthOfCode w)
    else (grantOf e.shape.1 e.shape.2.1 e.shape.2.2 (widthOfCode w) p.toNat).1.map fun _ => widthOfCode w
  | _ => none

def isShape : Instr → Bool
  | .shape _ _ => true
  | _ => false

/-- R316: the width of the grant in force at a slot: that of the last `shape` whose result, two ticks after its
issue, has taken effect, counted back through the op ring and across trips. -/
def widthAt (e : ElementRec) (ops : List Instr) (s : Nat) : Option Nat :=
  let n := ops.length
  let back := (upTo n).map fun j => ops.getD ((s + 2 * n - 2 - j) % n) .vnop
  (back.find? isShape).bind (shapeWidth e)

/-- R320: whether a start token reaches an array that no `mrun` has armed since the last start. -/
def unarmedStart (ops : List Instr) (s : Nat) : Bool :=
  let n := ops.length
  let back := (upTo n).map fun j => ops.getD ((s + 2 * n - 1 - j) % n) .vnop
  match back.find? fun o => opensRun o || (match o with
    | .tksend _ k => k.toNat = 8
    | _ => false) with
  | some o => !opensRun o
  | none => true

/-- R316, R319, R320, R323: `GRANT` at a slot of the op ring. A feed mask never leaves a grant: a bit of a
feed row at or above `h` only asks for bubbles (R154). -/
def grantBad (e : ElementRec) (ops : List Instr) (s : Nat) : Bool :=
  let width := widthAt e ops s
  match ops.getD s .vnop with
  | .shape _ _ => inSpan ops 8 opensRun s
  | .mbloadQueue _ => width = none
  | .mbloadRegister w _ => !(width.any fun x => decide (x = 4) = isSet w)
  | .mrun t _ _ _ => !(width.any fun x => decide (t.toNat < setsOf x)) || inSpan ops 8 opensRun s
  | .mrdacc => width = none
  | .mzero _ => width = none || inSpan ops 8 opensRun s
  | .tksend _ k => k.toNat = 8 && unarmedStart ops s
  | _ => false

/-- Pass 8 for one element; the matrix ops of a stage set are refused with `OPS`. -/
def grantPass (im : Image) (p : Nat × ElementRec) : Option Refused :=
  let i := im.isl p.2
  if im.kind = 1 then none
  else ((upTo i.lop).find? (grantBad p.2 (opsOf i p.2))).map fun s => refuseAt 14 p 0 s 0

/-! ### Pass 9: edges and timing (R122, R148, R253, R397, R398) -/

/-- The location of an operand at a counter value; operand code 4 has none. -/
def operandLoc (i : IslandRec) (e : ElementRec) (operand c : Nat) : Option Loc :=
  let u := opUse (opAt i e c) (regAt i e c)
  match operand with
  | 0 => u.a
  | 1 => u.b
  | 2 => if routeReadsVd (routeAt i e c) then some (.v (regVd (regAt i e c))) else u.c
  | 3 => u.g.map Loc.q
  | _ => none

/-- The latency with which the op at a counter value writes a location. -/
def writeLat (i : IslandRec) (e : ElementRec) (x : Loc) (c : Nat) : Option Nat :=
  ((opUse (opAt i e c) (regAt i e c)).writes.find? fun w => w.1 = x).map fun w => w.2

/-- R253: the length of the ring that names an operand or a written location. -/
def edgeRing (i : IslandRec) (operand : Nat) : Nat := if operand < 3 then i.lra else i.lop

/-- R253: the ring of a producer: the register-address ring, or the op ring for ELM and LPS. -/
def prodRing (i : IslandRec) (operand : Nat) : Nat := if operand = 4 then i.lop else i.lra

/-- The reads of an edge in one late period: their times. -/
def edgeReads (i : IslandRec) (e : ElementRec) (g : EdgeRec) : List Nat :=
  let t0 := i.period * (g.distance + 1)
  ((upTo i.period).map fun k => t0 + k).filter fun u =>
    u % edgeRing i g.operand = g.slot && (if g.operand = 4 then (opUse (opAt i e u) 0).mem
      else (operandLoc i e g.operand u).isSome)

/-- R148: the producer's issue time for a read at u. -/
def prodTime (i : IslandRec) (g : EdgeRec) (u : Nat) : Nat :=
  let l := prodRing i g.operand
  (u / l - g.distance) * l + g.prodSlot

/-- The latency of the producer of a read at u, if its op writes the location. -/
def prodLat (i : IslandRec) (e : ElementRec) (g : EdgeRec) (u : Nat) : Option Nat :=
  let t := prodTime i g u
  if g.operand = 4 then (opUse (opAt i e t) (regAt i e t)).store
  else match operandLoc i e g.operand u with
    | none => none
    | some x => writeLat i e x t

/-- R253: an edge entry that names no reading or no writing op. -/
def edgeNames (i : IslandRec) (e : ElementRec) (g : EdgeRec) : Bool :=
  g.slot < edgeRing i g.operand && g.prodSlot < prodRing i g.operand && !(edgeReads i e g).isEmpty &&
    (edgeReads i e g).all fun u => (prodLat i e g u).isSome

/-- R148: the shortfall of an edge: the largest over its reads (DESIGN CHOICE, notes/assumptions/75.md). -/
def edgeShort (i : IslandRec) (e : ElementRec) (g : EdgeRec) : Nat :=
  (edgeReads i e g).foldl (fun m u => max m (prodTime i g u + (prodLat i e g u).getD 0 - u)) 0

/-- R148: another write to the location takes effect after the producer's and at or before the read. -/
def edgeOverwritten (i : IslandRec) (e : ElementRec) (g : EdgeRec) : Bool :=
  g.operand ≠ 4 && (edgeReads i e g).any fun u => match operandLoc i e g.operand u with
    | none => false
    | some x =>
      let eff := prodTime i g u + (prodLat i e g u).getD 0
      (upTo (min u (i.period + 8) + 1)).any fun k =>
        let t := u - k
        t ≠ prodTime i g u && (match writeLat i e x t with
          | none => false
          | some l => decide (eff < t + l) && decide (t + l ≤ u))

/-- The record of an edge entry. -/
def refuseEdge (im : Image) (code : Nat) (g : EdgeRec) (need : Nat) : Option Refused :=
  (im.elements[g.consumer]?).map fun e =>
    refuseAt code (g.consumer, e) (if g.operand < 3 then 2 else 0) g.slot need

/-- An edge with its element and island. -/
def onEdge (im : Image) (g : EdgeRec) (f : IslandRec → ElementRec → Bool) : Bool :=
  match im.elements[g.consumer]? with
  | none => false
  | some e => f (im.isl e) e

/-- R398: the slot of the second of two writes that take effect on one tick. -/
def clashAt (i : IslandRec) (e : ElementRec) : Option Nat :=
  let l := i.period
  let eff : List (Loc × Nat × Nat) := (upTo l).flatMap fun c =>
    (opUse (opAt i e c) (regAt i e c)).writes.map fun w => (w.1, (c + w.2) % l, c * 16 + w.2)
  ((sortBy (fun x : Loc × Nat × Nat => x.2.2 / 16 % i.lra) eff).find? fun x =>
    eff.any fun y => y.1 = x.1 && y.2.1 = x.2.1 && y.2.2 ≠ x.2.2 && decide (x.2.2 % 16 ≤ y.2.2 % 16)).map
      fun x => x.2.2 / 16 % i.lra

def clashPass (im : Image) (p : Nat × ElementRec) : Option Refused :=
  (clashAt (im.isl p.2) p.2).map fun s => refuseAt 3 p 2 s 0

/-- R397, R329: a loop with a finish token within the span of an earlier one. No token code of R312 sends to a finish
latch, so a `tksend` never breaks a span (notes/assumptions/76.md). A stage set's loops are refused with `OPS`
(R331). -/
def loopOver (im : Image) (p : Nat × ElementRec) : Option Refused :=
  let ops := opsOf (im.isl p.2) p.2
  if im.kind = 1 then none
  else ((upTo ops.length).find? fun s => opensLoop none (ops.getD s .vnop) && inSpan ops 7 (opensLoop none) s).map
    fun s => refuseAt 2 p 0 s 0

/-- R145, R312: the slots of the op ring on which a token of the island's neighbour arrives at a port, one tick
after its send. -/
def tokenArrivals (im : Image) (i : IslandRec) (me k : Nat) : List Nat :=
  match (if sameIsland i me k then nbrOf me k else none).bind im.at with
  | none => []
  | some x => ((upTo i.lop).filter fun s => match opAt i x s with
      | .tksend _ y => y.toNat = oppPort k
      | _ => false).map fun s => (s + 1) % i.lop

/-- The slots on which an element waits for a token of a port. -/
def tokenWaits (i : IslandRec) (e : ElementRec) (k : Nat) : List Nat :=
  (upTo i.lop).filter fun s => match opAt i e s with
    | .tkwait y => y.toNat = k
    | _ => false

/-- How many ticks on, from 0 to n, a slot of a ring of n comes to one of some slots. -/
def ticksOn (n : Nat) (l : List Nat) (s : Nat) : Option Nat := (upTo (n + 1)).find? fun d => l.contains ((s + d) % n)

/-- How many ticks back, from 1 to n, a slot of a ring of n comes from one of some slots. -/
def ticksBack (n : Nat) (l : List Nat) (s : Nat) : Option Nat :=
  ((upTo n).map fun d => d + 1).find? fun d => l.contains ((s + n - d) % n)

/-- R145, R148: `DIST` for a token latch: a wait that finds the latch empty, its last token taken by an earlier
wait, since the next arrives later; the shortfall is the time until then. Without any send there is no producer to
name (notes/assumptions/75.md). -/
def tokenShort (im : Image) (p : Nat × ElementRec) : List Refused :=
  let i := im.isl p.2
  (upTo 7).flatMap fun k =>
    let arr := tokenArrivals im i (16 * p.2.row + p.2.col) k
    let waits := tokenWaits i p.2 k
    waits.filterMap fun s =>
      if arr.contains s then none
      else match ticksBack i.lop arr s, ticksBack i.lop waits s, ticksOn i.lop arr s with
        | some a, some w, some d => if a < w then none else some (refuseAt 1 p 0 s d)
        | _, _, _ => none

/-- R312: `OVERWRITE` for a token latch: a token arrives while the latch is still set, no wait lying between it and
the one before. The record names the receiver and the wait that would take the token (notes/assumptions/75.md). -/
def tokenOver (im : Image) (p : Nat × ElementRec) : List Refused :=
  let i := im.isl p.2
  (upTo 7).flatMap fun k =>
    let arr := tokenArrivals im i (16 * p.2.row + p.2.col) k
    let waits := tokenWaits i p.2 k
    arr.filterMap fun s => match ticksBack i.lop arr s with
      | none => none
      | some gap =>
        -- a wait on the tick of the arrival before is met by it; one on this tick takes the new token
        if (upTo gap).any fun d => waits.contains ((s + i.lop - gap + d) % i.lop) then none
        else some (refuseAt 2 p 0 ((s + (ticksOn i.lop waits s).getD 0) % i.lop) 0)

def timingPass (im : Image) : Option Refused :=
  let els := im.sorted
  let edges (code : Nat) (need : IslandRec → ElementRec → EdgeRec → Nat) (bad : IslandRec → ElementRec → EdgeRec → Bool) :
      List Refused :=
    (im.edges.filter fun g => onEdge im g fun i e => bad i e g).filterMap fun g =>
      (im.elements[g.consumer]?).bind fun e => refuseEdge im code g (need (im.isl e) e g)
  (im.first (edges 9 (fun _ _ _ => 0) fun i e g => !edgeNames i e g)).or
    ((firstSome (clashPass im) els).or
      ((im.first (edges 1 edgeShort (fun i e g => decide (edgeShort i e g > 0)) ++ els.flatMap (tokenShort im))).or
        (im.first (edges 2 (fun _ _ _ => 0) edgeOverwritten ++ els.filterMap (loopOver im) ++
          els.flatMap (tokenOver im)))))

/-! ### Pass 10: turnstile rates and cycles (R149) -/

/-- Pushes of an element through a port in one trip. -/
def pushesOf (i : IslandRec) (e : ElementRec) (p : Nat) : Nat :=
  ((upTo i.lrt).filter fun s => let w := e.routes.getD s 0
    rtTs w && (rtOut w = p || rtOut2 w = p)).length * (i.period / i.lrt)

/-- Pops of an element from a port in one trip. -/
def popsOf (i : IslandRec) (e : ElementRec) (p : Nat) : Nat :=
  ((upTo i.period).filter fun c =>
    rtIna (routeAt i e c) = p || (rtInb (routeAt i e c) = p && regStream (regAt i e c))).length

/-- A turnstile edge with both ends in the image: its number, the islands it leads from and to, its
initial entries, pushes per trip and capacity, and its producing element. -/
structure TEdge where
  number : Nat
  src : Nat
  dst : Nat
  initial : Nat
  pushes : Nat
  cap : Nat
  rateBad : Bool
  elem : Nat × ElementRec
  deriving DecidableEq, Repr

/-- R142: whether the stream of a record leaves its element through its port. -/
def Image.leads (im : Image) (t : TurnRec) : Bool :=
  match im.elements[t.element]? with
  | none => false
  | some e => im.turnOut (16 * e.row + e.col) t.port = some t

/-- The two ends of a turnstile record: the element that pushes and the element that pops. -/
def turnEdge (im : Image) (t : TurnRec) : Option TEdge :=
  (im.elements[t.element]?).bind fun e =>
  (nbrOf (16 * e.row + e.col) t.port).bind fun n =>
  ((numbered im.elements).find? fun p => 16 * p.2.row + p.2.col = n).map fun f =>
    let edge (a b : Nat × ElementRec) (p : Nat) : TEdge :=
      let i := im.isl a.2
      let k := im.isl b.2
      let out := pushesOf i a.2 p
      { number := t.number, src := a.2.island, dst := b.2.island, initial := t.initial, pushes := out
        cap := if t.big then 32 else 8
        rateBad := out * k.period ≠ popsOf k b.2 (oppPort p) * i.period, elem := a }
    if im.leads t then edge (t.element, e) f t.port else edge f (t.element, e) (oppPort t.port)

/-- The sums of initial entries, pushes and capacities over the simple cycles that start with an edge and
go on through the given ones: from the current island back to the start. -/
def cycleSums (edges : List TEdge) (start : Nat) : Nat → Nat → List Nat → Nat × Nat × Nat → List (Nat × Nat × Nat)
  | 0, _, _, _ => []
  | f + 1, cur, seen, (a, n, c) =>
    if cur = start then [(a, n, c)]
    else (edges.filter fun e => e.src = cur && !seen.contains e.dst).flatMap fun e =>
      cycleSums edges start f e.dst (e.dst :: seen) (a + e.initial, n + e.pushes, c + e.cap)

/-- The cycles whose lowest-numbered turnstile is an edge. -/
def cyclesAt (edges : List TEdge) (e : TEdge) : List (Nat × Nat × Nat) :=
  cycleSums (edges.filter fun x => decide (x.number > e.number)) e.src 66 e.dst [e.dst]
    (e.initial, e.pushes, e.cap)

/-- R253: whether a record's initial entries exceed its capacity. -/
def overFilled (t : TurnRec) : Bool := decide (t.initial > (if t.big then 32 else 8))

/-- R195: the word slots per frame that the active slot maps give an edge. -/
def edgeSlots (s : State) (edge : Nat) : Nat :=
  s.ports.foldl (fun n p => match p.2.active with
    | none => n
    | some m => n + (m.filter fun k => k.2 = 4096 + edge).length) 0

/-- R195: a cross-package edge that owns fewer slots than the words that its element sends by it need. -/
def slotsShort (s : State) (region : Nat) (im : Image) (t : TurnRec) : Option Refused :=
  match im.elements[t.element]? with
  | none => none
  | some e =>
    let i := im.isl e
    if t.edge ≠ 0 && farEnd region (16 * e.row + e.col) t.port = none && im.leads t &&
        decide (edgeSlots s t.edge < ceilDiv (4096 * pushesOf i e t.port) i.period) then
      some (refuseAt 6 (t.element, e) 3 0 t.number)
    else none

/-- R149, R195: the lowest-numbered turnstile whose rates do not agree. -/
def ratePass (short : TurnRec → Option Refused) (im : Image) : Option Refused :=
  firstSome (fun t : TurnRec => match turnEdge im t with
    | some e => if e.rateBad then some (refuseAt 6 e.elem 3 0 e.number) else none
    | none => short t) (sortBy (fun t : TurnRec => t.number) im.turns)

/-- R149, R253: the turnstile checks that follow the rates, by ascending turnstile number; a cycle counts at its
lowest number. -/
def turnPass (im : Image) : Option Refused :=
  let turns := sortBy (fun t : TurnRec => t.number) im.turns
  let edges := turns.filterMap (turnEdge im)
  let bad (t : TurnRec) (wrong : Nat × Nat × Nat → Bool) : Bool := match turnEdge im t with
    | none => false
    | some e => (cyclesAt edges e).any wrong
  let refuse (code : Nat) (t : TurnRec) : Option Refused := match turnEdge im t with
    | some e => some (refuseAt code e.elem 3 0 t.number)
    | none => (im.elements[t.element]?).map fun e => refuseAt code (t.element, e) 3 0 t.number
  match turns.find? fun t => overFilled t || bad t fun c => decide (c.1 + c.2.1 > c.2.2) with
  | some t => refuse 7 t
  | none => (turns.find? fun t => bad t fun c => c.1 = 0).bind (refuse 8)

/-! ### The whole check -/

/-- R372: passes 2 to 10 for an image that passes 1; the region gives its layer, its enabled elements and the
check of its cross-package edges (R195). -/
def checkImage (im : Image) (layer : Nat) (enabled : List Nat) (short : TurnRec → Option Refused) :
    Option Refused :=
  let els := im.sorted
  match islandPasses im enabled with
  | some x => some x
  | none => match firstSome (encodingPass im) els with
    | some x => some x
    | none => match firstSome (guardPass im) els with
      | some x => some x
      | none => match firstSome (agcfgPass im) els with
        | some x => some x
        | none => match firstSome (routePass im layer) els with
          | some x => some x
          | none => match firstSome (edgePass im) els with
            | some x => some x
            | none => match firstSome (grantPass im) els with
              | some x => some x
              | none => match timingPass im with
                | some x => some x
                | none => match ratePass short im with
                  | some x => some x
                  | none => turnPass im

/-- R252, R372: a configuration image: its refusal record, or the image, whose edge table serves the checks alone
(R36). -/
def loadImage (s : State) (region : Nat) (bs : List Byte) : Nat × Option Image :=
  match parseImage bs with
  | none => (layoutBreach.word region, none)
  | some im =>
    if im.kind ≠ 0 then (layoutBreach.word region, none)
    else match checkImage im (regionLayer region) (s.region region).enabled (slotsShort s region im) with
      | some x => (x.word region, none)
      | none => (0, some { im with edges := [] })

/-! ### Stage sets (R169, R176) -/

/-- R176: the record of `bind`. -/
def bindRecord (code stage ring slot reg sub : Nat) : Nat :=
  code * 2 ^ 56 + stage % 16 * 2 ^ 52 + ring % 4 * 2 ^ 50 + slot % 32 * 2 ^ 45 + reg % 32 * 2 ^ 40 +
    sub % 256 * 2 ^ 32

/-- R166, R167: the input code whose registers hold a register for a stage, if one does; the second state
of MERGE comes with `IN.STATE`, and the scores of STEP and MASK are placed undeclared. -/
def inputOf (stage r : Nat) : Option Nat :=
  if stage = 5 && 6 ≤ r && r ≤ 15 then some 9
  else if r ≤ 4 then some r
  else if r ≤ 7 then some 5
  else if r = 8 then some 6
  else if 16 ≤ r && r ≤ 25 then some 9
  else if 28 ≤ r then some 7
  else none

/-- R169: the inputs a stage may declare, as a mask. -/
def allowedInputs (stage cls : Nat) : Nat :=
  match stage with
  | 0 => 0xFF
  | 1 => 0x81
  | 2 => match cls with
    | 0 => 0xC6
    | 1 => 0xE6
    | _ => 0xFF
  | _ => 0x380

/-- R176: `UNDECL` at a counter value: the registers of undeclared inputs that are read without a write of the trip
that has taken effect, and a read of an undeclared queue; each with its ring, slot and register. -/
def undeclared (i : IslandRec) (e : ElementRec) (c : Nat) : List (Nat × Nat × Nat) :=
  let op := opAt i e c
  let bad (l : Loc) : Bool := match l with
    | .q _ => false
    | .v r => match inputOf i.stage r with
      | none => false
      | some k => !nbit i.inputs k && !((upTo (c + 1)).any fun t => match writeLat i e l t with
          | none => false
          | some n => decide (t < c) && decide (t + n ≤ c))
  let queue : List (Nat × Nat × Nat) :=
    if nbit i.inputs 8 then []
    else (match op with
      | .vpop _ => [(0, c % i.lop, 0)]
      | _ => []) ++ if rtInb (routeAt i e c) = 7 && regStream (regAt i e c) then [(1, c % i.lrt, 0)] else []
  queue ++ ((wordReads op (routeAt i e c) (regAt i e c)).filter bad).map fun
    | .v r => (2, c % i.lra, r)
    | .q r => (2, c % i.lra, r)

/-- R174: θ that is negative or NaN. -/
def thetaBad : Option Nat → Bool
  | none => false
  | some t => match decodeFmt fmtF32 t with
    | .nan _ => true
    | .inf n => n
    | .fin n m _ => n && m ≠ 0

/-- The island record of a stage with its element record. -/
def Image.stage (im : Image) (k : Nat) : Option (IslandRec × ElementRec) :=
  match (numbered im.islands).find? fun p => p.2.stage = k with
  | none => none
  | some p => (im.elements.find? fun e => e.island = p.1).map fun e => (p.2, e)

/-- R176: the checks of one stage: of its record, then `OPS` (an op or a stream send outside its datapath) and
`UNDECL` in ring and slot order. -/
def stageBad (im : Image) (k : Nat) : Option Nat :=
  match im.stage k with
  | none => if k = 1 then none else some (bindRecord 3 k 3 0 0 0)
  | some (i, e) =>
    if (k = 2 && i.maskClass = 3) || i.inputs &&& allowedInputs k i.maskClass ≠ i.inputs then
      some (bindRecord 2 k 3 0 0 0)
    else if k = 4 && thetaBad i.theta then some (bindRecord 5 k 3 0 0 0)
    else
      let sends (s : Nat) : Bool := let w := e.routes.getD s 0
        rtTs w && (rtOut w ≠ 0 || rtOut2 w ≠ 0)
      let ops := ((upTo i.lop).filter fun s => !stageOp (opAt i e s)).map fun s => (32 * 0 + s, bindRecord 7 k 0 s 0 0)
      let routes := ((upTo i.lrt).filter sends).map fun s => (32 * 1 + s, bindRecord 7 k 1 s 0 0)
      let reads := ((upTo i.period).flatMap (undeclared i e)).map fun x =>
        (32 * x.1 + x.2.1, bindRecord 1 k x.1 x.2.1 x.2.2 0)
      ((sortBy (fun x : Nat × Nat => x.1) (ops ++ routes ++ reads)).head?).map fun x => x.2

/-- R176, R261: a stage set for a region of a layer with the given enabled elements: its record, or the set. -/
def loadStages (layer : Nat) (enabled : List Nat) (bs : List Byte) : Nat × Option Image :=
  match parseImage bs with
  | none => (bindRecord 4 0 3 0 0 9, none)
  | some im =>
    if im.kind ≠ 1 then (bindRecord 4 0 3 0 0 9, none)
    else match checkImage im layer enabled (fun _ => none) with
      | some x =>
        let st := match im.elements[x.elem]? with
          | some e => (im.isl e).stage
          | none => 0
        (bindRecord 4 st x.ring x.slot 0 x.code, none)
      | none => match firstSome (stageBad im) [0, 1, 2, 3, 4, 5] with
        | some w => (w, none)
        | none => (0, some { im with edges := [] })

end Sys2Proof.Machine
end

