-- ==== Sys2Proof/Machine/Stages.lean ====
section
/-! DEFINITION. The work of an attention batch (R155 to R182, R331): the walk of a sequence, rows and dot
products, stage programs run for one trip, culling, presentation, the blend and its merge tree, and the
result with its side record. -/

namespace Sys2Proof.Machine

/-! ### Tables of a batch (R157 to R164) -/

/-- The fields of a batch descriptor. -/
structure Batch where
  nocoal : Bool
  split : Nat
  qmva : Nat
  bindh : Nat
  topk : Nat
  ofmt : Nat
  qfmt : Nat
  dim : Nat
  nq : Nat
  hull : Bool
  ttab : Nat
  xva : Nat
  ova : Nat
  sva : Nat
  qva : Nat
  deriving DecidableEq, Repr

/-- R157: a descriptor from its number; a VA field is sign-extended like every virtual address, so one whose bits
[56:27] are all ones names RSM (DESIGN CHOICE, notes/assumptions/81.md); bits [63:57] of QVA, SVA, OVA and XVA are ignored
(DESIGN CHOICE, notes/assumptions/71.md). -/
def Batch.of (v : Nat) : Batch :=
  { nocoal := nbit v 451, split := nbits v 450 448, qmva := va64 (nbits v 440 384), bindh := nbits v 383 376
    topk := nbits v 375 361, ofmt := nbits v 360 353, qfmt := nbits v 352 345, dim := nbits v 344 337
    nq := nbits v 336 321, hull := nbit v 320, ttab := va64 (nbits v 312 256), xva := nbits v 248 192
    ova := va64 (nbits v 184 128), sva := va64 (nbits v 120 64), qva := va64 (nbits v 56 0) }

/-- R157: a head dimension: 4 to 128, a multiple of 4. -/
def dimOk (d : Nat) : Bool := decide (4 ≤ d) && decide (d ≤ 128) && d % 4 = 0

/-- R157: whether a descriptor keeps its ranges and must-be-zero fields. -/
def batchOk (v : Nat) : Bool :=
  let b := Batch.of v
  nbits v 511 452 = 0 && nbits v 447 441 = 0 && nbits v 319 313 = 0 && dimOk b.dim && decide (1 ≤ b.nq) &&
    decide (1 ≤ b.bindh) && decide (b.bindh ≤ 15) && Legal.descValid b.ofmt && Legal.descValid b.qfmt

/-- A tessera as a list entry names it (R160, R161). -/
structure Tess where
  idx : Nat
  tid : Nat
  vis : Nat
  surv : Nat
  live : Nat
  sealed : Bool
  hv : Bool
  base : Nat
  kva : Nat
  vva : Nat
  hva : Nat
  tokva : Nat
  deriving DecidableEq, Repr

/-- R160: a tessera from its 64 bytes and its list entry; the bits that must be zero are not looked at (DESIGN
CHOICE, notes/assumptions/71.md). -/
def Tess.of (idx entry v : Nat) : Tess :=
  { idx := idx, tid := nbits entry 87 64, vis := nbits entry 63 0, surv := nbits v 63 0, live := nbits v 70 64
    sealed := nbit v 88, hv := nbit v 89, base := nbits v 127 96, kva := va64 (nbits v 191 135)
    vva := va64 (nbits v 255 199), hva := va64 (nbits v 319 263), tokva := va64 (nbits v 383 327) }

/-- R159: a sequence entry. -/
structure Seq where
  lva : Nat
  ksva : Nat
  dbase : Nat
  len : Nat
  nt : Nat
  deriving DecidableEq, Repr

/-- R159: a sequence entry from its number; the bits that must be zero are not looked at (DESIGN CHOICE,
notes/assumptions/71.md). -/
def Seq.of (v : Nat) : Seq :=
  { lva := va64 (nbits v 255 199), ksva := nbits v 191 135, dbase := nbits v 127 96, len := nbits v 95 64
    nt := nbits v 46 32 }

/-- Tesserae j onward of a list. -/
def Job.tessList (lva ttab : Nat) : Nat → Nat → Job → List Tess × Job
  | 0, _, k => ([], k)
  | n + 1, j, k =>
    if !k.going then ([], k)
    else
      let (e, k1) := k.once (lva + 16 * j) 16
      let (v, k2) := k1.once (ttab + 64 * nbits e 87 64) 64
      let (l, k3) := Job.tessList lva ttab n (j + 1) k2
      (Tess.of j e v :: l, k3)

/-- R164: the checks of LEN and NT, made before the list is read. -/
def Seq.ok (q : Seq) : Bool := decide (q.len ≤ 2 ^ 20) && q.nt = (q.len + 63) / 64

/-- R164: the checks of the list. -/
def listOk (q : Seq) (l : List Tess) : Bool :=
  l.all fun t => t.base = 64 * t.idx &&
    (if t.idx + 1 < q.nt then t.sealed && t.live = 64
     else if q.len % 64 = 0 then t.sealed else !t.sealed && t.live = q.len % 64)

/-- R164: a sequence and its list; none of the list when a check fails. -/
def Job.walk (j : Job) (sva ttab : Nat) : Seq × Option (List Tess) × Job :=
  let (v, j1) := j.once sva 32
  let q := Seq.of v
  if !j1.going || !q.ok then (q, none, j1)
  else
    let (l, j2) := Job.tessList q.lva ttab q.nt 0 j1
    (q, if listOk q l then some l else none, j2)

/-- R162: the offsets with a stored visible row, ascending. -/
def Tess.offsets (t : Tess) : List Nat :=
  (upTo 64).filter fun o => decide (o < t.live) && nbit t.surv o && nbit t.vis o

/-- R162: the packed slot of an offset. -/
def Tess.slot (t : Tess) (o : Nat) : Nat := ((upTo o).filter fun i => nbit t.surv i).length

/-! ### Rows (R162, R166, R172) -/

/-- R162, R94: the format of the rows at an address: its page's, or on a raw page the one named. -/
def Job.rowSide (j : Job) (base desc : Nat) : Side × Job :=
  let (a, k) := j.side base .read
  (a.getD (.fmt (fmtOfDesc desc)), k)

/-- R162: elements n × d to n × d + d − 1 of the array at an address. On a carousel page d must be a multiple of N;
of another d the elements are those of the same indices in the array's blocks (DESIGN CHOICE,
notes/assumptions/72.md). -/
def Job.rowElems (j : Job) (base desc n d : Nat) : Elems × Job :=
  let (sd, j1) := j.rowSide base desc
  if !j1.going then (.vals [], j1)
  else match sd with
    | .fmt f =>
      let at_ (k : Job) (i : Nat) : Fmt := k.namedFmt f (Side.elemAddr (.fmt f) base i) desc
      let (l, j2) := Job.typedRow (fun _ k => k) at_ f base d (n * d) [] j1
      (.codes l, j2)
    | .blocks w m =>
      let b0 := n * d / m
      let (l, j2) := Job.blockRow (fun _ k => k) w m base ((n * d + d + m - 1) / m - b0) b0 [] j1
      (.vals ((l.drop (n * d - b0 * m)).take d), j2)

/-- The values of such a row. -/
def Job.rowVals (j : Job) (base desc n d : Nat) : List Val × Job :=
  let (l, k) := j.rowElems base desc n d
  (l.toVals, k)

/-- R166: the dot product, rounded after each addition. -/
def dotGo : List Val → List Val → Nat → Nat
  | x :: xs, y :: ys, acc => dotGo xs ys (fFma fmtF32 .rne true x y (decodeFmt fmtF32 acc)).1
  | _, _, acc => acc

/-- R172: one term of the dot bound. -/
def hullTerm (q lo hi : Val) : Nat :=
  (fMinMax fmtF32 true (fMul fmtF32 .rup true q lo).1 (fMul fmtF32 .rup true q hi).1).1

/-- R172: the terms, in increasing i. -/
def hullTerms : List Val → List Val → List Val → List Nat
  | q :: qs, a :: as, b :: bs => hullTerm q a b :: hullTerms qs as bs
  | _, _, _ => []

/-- R172: the dot bound of a query over a hull. -/
def hullBound (q lo hi : List Val) : Nat :=
  match hullTerms q lo hi with
  | [] => 0
  | t :: r => r.foldl (fun a x => (fAdd fmtF32 .rup true (decodeFmt fmtF32 a) (decodeFmt fmtF32 x)).1) t

/-- The d minima and d maxima of a hull entry. -/
def Job.hullOf (j : Job) (hva d : Nat) : List Val × List Val × Job :=
  let (bs, k) := j.read hva (4 * d)
  let v (i : Nat) : Val := decodeFmt fmtBF16 (leToNat ((bs.drop (2 * i)).take 2))
  ((upTo d).map v, (upTo d).map fun i => v (d + i), k)

/-- R172: the dot bound over a tessera's hull. -/
def Job.boundOf (j : Job) (t : Tess) (q : List Val) (d : Nat) : Nat × Job :=
  let (lo, hi, k) := j.hullOf t.hva d
  (hullBound q lo hi, k)

/-! ### Stage programs (R156, R167, R331) -/

/-- The stage element of a stage code: SCORE, MASK, BLEND. -/
def stageElem (k : Nat) : Nat := if k ≤ 1 then 0 else if k = 2 then 1 else 2

/-- What a stage program works on: its element, its flags, its records, and the state with the marks of units. -/
structure StageRun where
  el : Element
  flags : Flags
  oor : List (Nat × Bool × Nat)
  s : State
  deriving DecidableEq, Repr

/-- R358, R359: stage element n of a region reads a unit of its slices; the bytes of one that fails are a free value
(notes/assumptions/40.md). -/
def stageRead (r n : Nat) (x : StageRun) (off : Nat) : StageRun :=
  let (bad, t) := readSlice (stageUnit r n off) id x.s
  if !bad then { x with s := t }
  else { x with s := t.takeFree.2, el := { x.el with lps := putUnit x.el.lps off t.takeFree.1 } }

def stageReads (r n : Nat) (us : List Nat) (x : StageRun) : StageRun :=
  if x.s.poison = [] && x.s.bad = [] then x else us.foldl (stageRead r n) x

/-- R361: a result of a stage element against the marks of the units that it writes. -/
def stageStore (r n : Nat) (a : State × List (Nat × Effect)) (p : Nat × Effect) : State × List (Nat × Effect) :=
  match p.1, p.2 with
  | 1, .lps cells => let (t, l) := storeCells a.1 (stageUnit r n) cells; (t, a.2 ++ [(1, .lps l)])
  | _, _ => (a.1, a.2 ++ [p])

/-- The results that are due take effect. -/
def StageRun.settle (r n : Nat) (x : StageRun) : StageRun :=
  let (t, fl) := if x.s.poison = [] then (x.s, x.el.flight) else x.el.flight.foldl (stageStore r n) (x.s, [])
  let (e, f) := { x.el with flight := fl }.settle
  { x with el := e, flags := x.flags ||| f, s := t }

/-- One tick of a stage program. A stage element has no stream ports (R156), and a route that reads one through a
declared turnstile finds a word of zeros (DESIGN CHOICE, notes/assumptions/82.md). -/
def stageTick (r n : Nat) (i : IslandRec) (e : ElementRec) (c : Nat) (x0 : StageRun) : StageRun :=
  let op := opAt i e c
  let reg := regAt i e c
  let queued := regStream reg && rtInb (routeAt i e c) = 7
  let head := x0.el.ag0.head
  let beat : SWord := match head with
    | some q => q.word true
    | none => SWord.zero
  let y : OpIn := { el := x0.el, reg := reg
                    bword := if regStream reg then some (if queued then beat else SWord.zero) else none
                    head0 := head, head1 := none, books := [] }
  let x := stageReads r n (unitsOfBytes (opLpsReads op y)) x0
  let o := runOp op { y with el := x.el }
  let (e1, f1) := x.el.issue o.effs
  let e2 := if queued || opPop op ≠ none then { e1 with ag0 := e1.ag0.pop } else e1
  StageRun.settle r n { x with el := e2, flags := x.flags ||| f1, oor := x.oor ++ o.oor }

/-- R156: after the trip every op of it takes effect. -/
def settleN (r n : Nat) : Nat → StageRun → StageRun
  | 0, x => x
  | k + 1, x => settleN r n k (x.settle r n)

/-- R156: one trip of stage element n of a region. -/
def stageTrip (r n : Nat) (i : IslandRec) (e : ElementRec) (x : StageRun) : StageRun :=
  settleN r n 16 ((upTo i.period).foldl (fun y c => stageTick r n i e c y) x)

/-- R166: declared inputs as register values; undeclared ones are not filled. -/
def filled (decl : Nat) (l : List (Nat × Nat × BitVec 512)) : List (Nat × BitVec 512) :=
  (l.filter fun p => nbit decl p.1).map fun p => p.2

/-- R166: the constants in v28 to v31. -/
def constInputs (im : Image) : List (Nat × Nat × BitVec 512) :=
  (upTo 4).map fun k => (7, 28 + k, ofVals 32 ((upTo 16).map fun j => im.consts.getD (16 * k + j) 0))

/-- R331: an invocation of stage k of a set: declared inputs, registers that R167 places, q7, beats in load
queue 0. Lane-private slices go on from the invocation before. Once an access has failed nothing more is invoked (R376). -/
def Job.invoke (j : Job) (im : Image) (k : Nat) (ins : List (Nat × Nat × BitVec 512))
    (placed : List (Nat × BitVec 512)) (q7 : BitVec 16) (beats : List QEntry) : Element × Job :=
  match (if j.going then im.stage k else none) with
  | none => (Element.zero, j)
  | some (i, e) =>
    let g := j.s.region j.r
    let n := stageElem k
    let old := mapGet Element.zero g.stages n
    let v := (filled i.inputs (constInputs im ++ ins) ++ placed).foldl (fun m p => mapSet 0 m p.1 p.2) []
    let x := stageTrip j.r n i e
      { el := { Element.zero with v := v, q := mapSet 0 [] 7 q7, lps := old.lps
                                  ag0 := { AgPort.zero with kind := 1, queue := beats } }
        flags := 0, oor := [], s := j.s }
    let kept := { Element.zero with lps := x.el.lps }
    let h := x.s.region j.r
    (x.el, { j with s := x.s.setRegion j.r { h with stages := mapSet Element.zero h.stages n kept }
                    flags := j.flags ||| x.flags, oor := x.oor.reverse ++ j.oor })

/-- A value in every lane; the low lanes of a register. -/
def allLanes (x : Nat) : BitVec 512 := ofVals 32 (List.replicate 16 x)
def lowLanes (l : List Nat) : BitVec 512 := ofVals 32 l
def onLanes (n : Nat) : BitVec 16 := BitVec.ofNat 16 (2 ^ n - 1)

/-! ### One query -/

/-- A query (R158) with its row's values. -/
structure Query where
  pos : Nat
  side : Nat
  seq : Nat
  anc : Nat
  row : List Val
  deriving DecidableEq, Repr

/-- A pair of a query and a key: position, dot product, side value, draft slot. -/
structure Pair where
  pos : Nat
  dot : Nat
  kside : Nat
  draft : Nat
  deriving DecidableEq, Repr

/-- R166: the draft slot of a position. -/
def draftOf (q : Seq) (p : Nat) : Nat :=
  if q.dbase = 0xFFFFFFFF || decide (p < q.dbase) then 0xFFFFFFFF else p - q.dbase

/-- Whether a program that sees pairs declares IN.KSIDE. -/
def declaresKside (im : Image) : Bool :=
  [0, 2].any fun k => match im.stage k with
    | some (i, _) => nbit i.inputs 4
    | none => false

/-- R166: the side value of a position; 0 without a table or where nobody declares it. -/
def Job.ksideOf (j : Job) (im : Image) (q : Seq) (p : Nat) : Nat × Job :=
  if q.ksva = 0 || !declaresKside im then (0, j) else j.num (va64 q.ksva + 4 * p) 4

/-- R166: the inputs of pair mode; what belongs to the query stands in every lane. -/
def pairInputs (q : Query) (l : List Pair) : List (Nat × Nat × BitVec 512) :=
  [(0, 0, lowLanes (l.map (·.dot))), (1, 1, allLanes q.pos), (2, 2, lowLanes (l.map (·.pos))), (3, 3, allLanes q.side),
   (4, 4, lowLanes (l.map (·.kside))), (5, 5, allLanes (q.anc % 2 ^ 32)), (5, 6, allLanes (q.anc / 2 ^ 32)),
   (5, 7, lowLanes (l.map (·.draft))), (6, 8, allLanes q.seq)]

/-- R166: the inputs of tessera mode, for the first and the last stored visible position. -/
def tessInputs (q : Query) (bound : Nat) (l : List Pair) : List (Nat × Nat × BitVec 512) :=
  let n := l.length
  let same (x : Nat) : BitVec 512 := lowLanes (List.replicate n x)
  [(0, 0, lowLanes [bound]), (1, 1, lowLanes [q.pos]), (2, 2, lowLanes (l.map (·.pos))), (3, 3, lowLanes [q.side]),
   (4, 4, lowLanes (l.map (·.kside))), (5, 5, same (q.anc % 2 ^ 32)), (5, 6, same (q.anc / 2 ^ 32)),
   (5, 7, lowLanes (l.map (·.draft))), (6, 8, lowLanes [q.seq])]

/-! ### CULL (R170 to R173) -/

/-- R170: whether the ends of a tessera are visible; none for a tessera without a stored visible slot. A `POSMONO` mask
declares no side values (R169), and none are read. -/
def Job.ends (j : Job) (im : Image) (q : Query) (s : Seq) (t : Tess) : Option Bool × Job :=
  match t.offsets with
  | [] => (none, j)
  | o :: r =>
    let pair (p : Nat) : Pair := { pos := p, dot := 0, kside := 0, draft := draftOf s p }
    let l := [pair (t.base + o), pair (t.base + r.getLast?.getD o)]
    let (e, k) := j.invoke im 2 (tessInputs q 0 l) [] 0 []
    (some ((e.qreg 0).getLsbD 0 || (e.qreg 0).getLsbD 1), k)

/-- The ends of every tessera of a list. -/
def Job.endsAll (im : Image) (q : Query) (s : Seq) : List Tess → Job → List (Tess × Option Bool) × Job
  | [], j => ([], j)
  | t :: r, j =>
    let (x, j1) := j.ends im q s t
    let (l, j2) := Job.endsAll im q s r j1
    ((t, x) :: l, j2)

/-- R170: the tesserae that a POSMONO mask leaves. -/
def Job.maskCull (j : Job) (im : Image) (q : Query) (s : Seq) (l : List Tess) : List Tess × Job :=
  let mono := match im.stage 2 with
    | some (i, _) => i.maskClass = 0
    | none => false
  if !mono then (l, j)
  else
    let (x, j1) := Job.endsAll im q s l j
    if x.any fun p => p.2 = some true then ((x.filter fun p => p.2 ≠ some false).map (·.1), j1) else (l, j1)

def posInf32 : Nat := 0x7F800000
def negInf32 : Nat := 0xFF800000

/-- R172, R334: score bounds: from the tessera entry, or +∞. A batch with `HULL` reads the hull entry of every
sealed tessera with `HV` that is left, also without a tessera entry to run. -/
def Job.bounds (im : Image) (b : Batch) (q : Query) : List Tess → Job → List (Tess × Nat) × Job
  | [], j => ([], j)
  | t :: r, j =>
    if b.hull && t.hv && t.sealed then
      let (x, j1) := j.boundOf t q.row b.dim
      let (v, j2) := if im.stage 1 = none then (posInf32, j1)
        else let (e, j2) := j1.invoke im 1 (tessInputs q x []) [] 0 []
          (laneOf (e.vreg 9) 0, j2)
      let (l, j3) := Job.bounds im b q r j2
      ((t, v) :: l, j3)
    else
      let (l, j1) := Job.bounds im b q r j
      ((t, posInf32) :: l, j1)

/-- Whether bound x ranks before bound y: larger first, NaN below −∞ (R173, R263). -/
def ranksBefore (x y : Nat) : Bool :=
  let a := decodeFmt fmtF32 x
  let c := decodeFmt fmtF32 y
  if a.isNan then false else if c.isNan then true else decide (0 < a.cmp c)

/-- Insertion behind equal bounds. -/
def rankInsert {α : Type} (f : α → Nat) (x : α) : List α → List α
  | [] => [x]
  | y :: r => if ranksBefore (f x) (f y) then x :: y :: r else y :: rankInsert f x r

/-- A list by descending bound; among equal bounds the order stays. -/
def rankAll {α : Type} (f : α → Nat) (l : List α) : List α := l.foldl (fun m x => rankInsert f x m) []

/-- R173: the tesserae that top-k keeps, in list order. -/
def topkKeep (k : Nat) (l : List (Tess × Nat)) : List (Tess × Nat) :=
  if k = 0 then l
  else
    let best := (rankAll (fun p => p.2) (l.filter fun p => p.1.sealed)).take k
    l.filter fun p => !p.1.sealed || best.any fun b => b.1.idx = p.1.idx

/-! ### FETCH, SCORE and MASK for one group (R166 to R168, R175) -/

/-- The pairs of some offsets of a tessera. -/
def Job.pairsOf (im : Image) (b : Batch) (q : Query) (s : Seq) (t : Tess) : List Nat → Job → List Pair × Job
  | [], j => ([], j)
  | o :: r, j =>
    let (k, j1) := j.rowVals t.kva b.qfmt (t.slot o) b.dim
    let (ks, j2) := j1.ksideOf im s (t.base + o)
    let p : Pair := { pos := t.base + o, dot := dotGo q.row k 0, kside := ks, draft := draftOf s (t.base + o) }
    if !j2.going then ([], j2)
    else
      let (l, j3) := Job.pairsOf im b q s t r j2
      (p :: l, j3)

/-- A landed beat in load queue 0. -/
def pipeBeat (bs : List Byte) : QEntry :=
  { bytes := bs, token := -1, index := 0, addr := none, landed := true, block := none, size := 1, born := 0
    closed := false }

/-- R167, R73, R44: a value row as beats of FP32 with zero beyond d, and the flags of its delivery: an FP32 code
keeps its bits, every other format converts. -/
def rowBeats (d : Nat) (row : Elems) : List QEntry × Flags :=
  let codes : List (Nat × Flags) := match row with
    | .codes l => l.map fun p => if p.1 = fmtF32 then (p.2, 0) else convertCode p.1 fmtF32 .rne true p.2
    | .vals l => l.map (deliver fmtF32 .rne true)
  ((upTo ((d + 15) / 16)).map fun k => pipeBeat (regBytes (lowLanes (((codes.drop (16 * k)).take 16).map (·.1)))),
    codes.foldl (fun a p => a ||| p.2) 0)

/-- The value rows of some offsets of a tessera, as beats. Of the flags of a batch R167 names those of the stage
elements alone; those of the delivery of value rows (R73) join them, and those of the dot products, hull bounds and
results do not (DESIGN CHOICE, notes/assumptions/80.md). -/
def Job.valuesOf (b : Batch) (t : Tess) : List Nat → Job → List QEntry × Job
  | [], j => ([], j)
  | o :: r, j =>
    let (v, j1) := j.rowElems t.vva b.qfmt (t.slot o) b.dim
    if !j1.going then ([], j1)
    else
      let (w, fl) := rowBeats b.dim v
      let (l, j2) := Job.valuesOf b t r { j1 with flags := j1.flags ||| fl }
      (w ++ l, j2)

/-- R175: the pairs and the value beats of the tesserae of a group: key gather, then value gather. -/
def Job.fetchGroup (im : Image) (b : Batch) (q : Query) (s : Seq) : List Tess → Job → List Pair × List QEntry × Job
  | [], j => ([], [], j)
  | t :: r, j =>
    let (p, j1) := Job.pairsOf im b q s t t.offsets j
    let (v, j2) := Job.valuesOf b t t.offsets j1
    let (p', v', j3) := Job.fetchGroup im b q s r j2
    (p ++ p', v ++ v', j3)

/-- R168: a score placed on the grid: its code, and whether it is NaN. A visible −∞ has no stated place:
its code is a free value. -/
def Job.grid (j : Job) (score : Nat) (visible : Bool) : Nat × Bool × Job :=
  match decodeFmt fmtF32 score with
  | .nan _ => (negInf32, true, j)
  | v =>
    if !visible then (negInf32, false, j)
    else match v with
      | .inf true =>
        let (x, t) := j.s.takeFree
        (x % 2 ^ 32, false, { j with s := t })
      | .inf false => ((roundTo fmtF32 .rne true (.fin false (2 ^ 23 - 1) (-16))).1, false, j)
      | .fin n m e =>
        let (k, _) := roundInt .rne n m (e + 16)
        ((roundTo fmtF32 .rne true (.fin n (min k.natAbs (2 ^ 23 - 1)) (-16))).1, false, j)
      | .nan _ => (negInf32, true, j)

/-- The grid codes of lanes 0 onward; whether one of them is NaN. -/
def Job.gridAll (scores : BitVec 512) (vis : BitVec 16) : Nat → Nat → Job → List Nat × Bool × Job
  | 0, _, j => ([], false, j)
  | n + 1, k, j =>
    let (x, nan, j1) := j.grid (laneOf scores k) (vis.getLsbD k)
    let (l, more, j2) := Job.gridAll scores vis n (k + 1) j1
    (x :: l, nan || more, j2)

/-- R156, R167: the scores of a group, 16 pairs at a time. -/
def Job.scores (im : Image) (q : Query) : Nat → List Pair → Job → List Nat × Bool × Job
  | 0, _, j => ([], false, j)
  | f + 1, l, j =>
    let c := l.take 16
    if c = [] then ([], false, j)
    else
      let on := onLanes c.length
      let (e, j1) := j.invoke im 0 (pairInputs q c) [] on []
      let sc := maskLanes (e.vreg 9) on
      let (m, j2) := j1.invoke im 2 (pairInputs q c) [(9, sc)] on []
      let (x, nan, j3) := Job.gridAll (m.vreg 9) (m.qreg 0) c.length 0 j2
      let (y, more, j4) := Job.scores im q f (l.drop 16) j3
      (x ++ y, nan || more, j4)

/-! ### BLEND (R167, R174, R177 to R179) -/

/-- A partial state: v16 to v25 as one list of ten registers. -/
abbrev Blend := List (BitVec 512)

def Blend.of (e : Element) : Blend := (upTo 10).map fun k => e.vreg (16 + k)
def Blend.at (base : Nat) (b : Blend) : List (Nat × BitVec 512) := (upTo 10).map fun k => (base + k, b.getD k 0)

/-- The running maximum and the sum of a state (R167). -/
def Blend.m (b : Blend) : Nat := laneOf (b.getD 0 0) 0
def Blend.l (b : Blend) : Nat := laneOf (b.getD 1 0) 0
def Blend.acc (b : Blend) (i : Nat) : Nat := laneOf (b.getD (2 + i / 16) 0) (i % 16)

def Job.initState (j : Job) (im : Image) : Blend × Job :=
  let (e, k) := j.invoke im 3 [] [] 0 []
  (Blend.of e, k)

def Job.mergeStates (j : Job) (im : Image) (a b : Blend) : Blend × Job :=
  let (e, k) := j.invoke im 5 [] (a.at 16 ++ b.at 6) 0 []
  (Blend.of e, k)

/-- R174: whether a tessera is removed at presentation: its bound lies below m − θ. -/
def belowTheta (theta : Option Nat) (m bound : Nat) : Bool :=
  match theta with
  | none => false
  | some t =>
    let d := (exactAdd .rne (decodeFmt fmtF32 m) (decodeFmt fmtF32 t).neg).1
    let b := decodeFmt fmtF32 bound
    !d.isNan && !b.isNan && decide (b.cmp d < 0)

/-- R177, R179: the lengths of groups: consecutive survivors, at most 4, at most 64 slots. -/
def groupGo (nocoal : Bool) : List (Tess × Nat) → List (Tess × Nat) → Nat → List (List (Tess × Nat))
  | [], cur, _ => if cur = [] then [] else [cur]
  | t :: r, cur, n =>
    let k := t.1.offsets.length
    if cur ≠ [] && (nocoal || decide (cur.length ≥ 4) || decide (n + k > 64)) then cur :: groupGo nocoal r [t] k
    else groupGo nocoal r (cur ++ [t]) (n + k)

/-- What a query's blend carries: tesserae presented, THETA, NANIN. -/
structure Present where
  tess : Nat
  theta : Bool
  nanin : Bool
  deriving DecidableEq, Repr

/-- R167, R174: one group presented to a partial state. -/
def Job.present (im : Image) (b : Batch) (q : Query) (s : Seq) (group : List (Tess × Nat)) (st : Blend)
    (p : Present) (j : Job) : Blend × Present × Job :=
  let theta := match im.stage 4 with
    | some (i, _) => i.theta
    | none => none
  let kept := group.filter fun t => !belowTheta theta st.m t.2
  let p1 := { p with tess := p.tess + kept.length, theta := p.theta || decide (kept.length < group.length) }
  if kept = [] then (st, p1, j)
  else
    let (pairs, beats, j1) := Job.fetchGroup im b q s (kept.map (·.1)) j
    if !j1.going then (st, p1, j1)
    else
      let (sc, nan, j2) := Job.scores im q 5 pairs j1
      let lane (k : Nat) : Nat := sc.getD k negInf32
      let regs := (upTo 4).map fun k => (9 + k, lowLanes ((upTo 16).map fun i => lane (16 * k + i)))
      let want := 64 * ((b.dim + 15) / 16)
      let all := beats ++ List.replicate (want - beats.length) (pipeBeat (List.replicate 64 0))
      let (e, j3) := j2.invoke im 4 [] (st.at 16 ++ regs) 0 all
      (Blend.of e, { p1 with nanin := p1.nanin || nan }, j3)

/-- The groups of one partial, in order. -/
def Job.partial_ (im : Image) (b : Batch) (q : Query) (s : Seq) :
    List (List (Tess × Nat)) → Blend → Present → Job → Blend × Present × Job
  | [], st, p, j => (st, p, j)
  | g :: r, st, p, j =>
    if !j.going then (st, p, j)
    else
      let (st1, p1, j1) := Job.present im b q s g st p j
      Job.partial_ im b q s r st1 p1 j1

/-- R179: leaves k onward of the merge tree: partials, then identities. -/
def Job.leaves (im : Image) (b : Batch) (q : Query) (s : Seq) (groups : List (List (Tess × Nat))) (per : Nat) :
    Nat → Nat → Present → Job → List Blend × Present × Job
  | 0, _, p, j => ([], p, j)
  | n + 1, k, p, j =>
    let (st, j1) := j.initState im
    let mine := if k ≤ b.split then (groups.drop (k * per)).take per else []
    let (st1, p1, j2) := Job.partial_ im b q s mine st p j1
    let (l, p2, j3) := Job.leaves im b q s groups per n (k + 1) p1 j2
    (st1 :: l, p2, j3)

/-- R57, R179: one level of the merge tree. -/
def Job.mergeLevel (im : Image) : List Blend → Job → List Blend × Job
  | a :: b :: r, j =>
    let (x, j1) := j.mergeStates im a b
    let (l, j2) := Job.mergeLevel im r j1
    (x :: l, j2)
  | l, j => (l, j)

/-- The state of a query after its merge tree. -/
def Job.blend (j : Job) (im : Image) (b : Batch) (q : Query) (s : Seq) (l : List (Tess × Nat)) :
    Blend × Present × Job :=
  let groups := groupGo b.nocoal l [] 0
  let per := (groups.length + b.split) / (b.split + 1)
  let (leaves, p, j1) := Job.leaves im b q s groups per 8 0 { tess := 0, theta := false, nanin := false } j
  let (l4, j2) := Job.mergeLevel im leaves j1
  let (l2, j3) := Job.mergeLevel im l4 j2
  let (l1, j4) := Job.mergeLevel im l2 j3
  (l1.headD [], p, j4)

/-! ### RESOLVE (R181) -/

/-- R181: the quotient of two FP32 codes, rounded `rne`. -/
def divF32 (x y : Nat) : Nat :=
  let v : Val := match decodeFmt fmtF32 x, decodeFmt fmtF32 y with
    | .nan _, _ => .nan false
    | _, .nan _ => .nan false
    | .inf _, .inf _ => .nan false
    | .inf a, .fin b _ _ => .inf (a != b)
    | .fin a _ _, .inf b => .fin (a != b) 0 0
    | .fin a m e, .fin b n f =>
      if n = 0 then (if m = 0 then .nan false else .inf (a != b))
      else if m = 0 then .fin (a != b) 0 0
      else stickyVal (a != b) (m * 2 ^ 64 / n) (decide (m * 2 ^ 64 % n ≠ 0)) (e - f - 64)
  (roundTo fmtF32 .rne true v).1

/-- Codes of a format as bytes, elements in order. -/
def packCodes (f : Fmt) : List Nat → List Byte
  | [] => []
  | [x] => if fmtWidth f = 4 then [BitVec.ofNat 8 (x % 16)] else natToLe x (fmtWidth f / 8)
  | x :: y :: r =>
    if fmtWidth f = 4 then BitVec.ofNat 8 (x % 16 + y % 16 * 16) :: packCodes f r
    else natToLe x (fmtWidth f / 8) ++ packCodes f (y :: r)

/-- R181: the writes of a query: its result elements and, if wanted, its side record. -/
def queryWrites (b : Batch) (i : Nat) (out : List Nat) (m l tess flags : Nat) : List (Nat × List Byte) :=
  let f := fmtOfDesc b.ofmt
  (( b.ova + i * b.dim * fmtWidth f / 8) % 2 ^ 64, packCodes f out) ::
    (if b.xva = 0 then [] else
      [((va64 b.xva + 16 * i) % 2 ^ 64, natToLe (m % 2 ^ 32 * 2 ^ 96 + l % 2 ^ 32 * 2 ^ 64 + tess % 2 ^ 24 * 2 ^ 40 + flags) 16)])

/-- R158: query i: its record, whose low 96 bits are not looked at (DESIGN CHOICE, notes/assumptions/71.md), and its
row. -/
def Job.queryOf (j : Job) (b : Batch) (i : Nat) : Query × Job :=
  let (v, j1) := j.num (b.qmva + 32 * i) 32
  let (row, j2) := j1.rowVals b.qva b.qfmt i b.dim
  ({ pos := nbits v 159 128, side := nbits v 191 160, seq := nbits v 127 96, anc := nbits v 255 192, row := row }, j2)

/-- R155, R164, R181: the work of one query and what it writes. A query without a blend state has no
stated M, and after a bad sequence no stated L: free values. A bad sequence sets BADSEQ alone, and the flags of RESOLVE's
division and conversion reach no word (both DESIGN CHOICE, notes/assumptions/80.md). -/
def Job.query (j : Job) (im : Image) (b : Batch) (i : Nat) : List (Nat × List Byte) × Job :=
  let zeros := List.replicate b.dim 0
  let (q, j1) := j.queryOf b i
  let (s, l, j2) := j1.walk (b.sva + 32 * q.seq) b.ttab
  match l with
  | none =>
    let (m, t) := j2.s.takeFree
    let (x, t') := t.takeFree
    (queryWrites b i zeros m x 0 4, { j2 with s := t' })
  | some l =>
    if s.len = 0 then
      let (m, t) := j2.s.takeFree
      (queryWrites b i zeros m 0 0 1, { j2 with s := t })
    else
      let (l1, j3) := j2.maskCull im q s l
      let (l2, j4) := Job.bounds im b q l1 j3
      let (st, p, j5) := j4.blend im b q s (topkKeep b.topk l2)
      let none_ := (decodeFmt fmtF32 st.l).isZero
      let f := fmtOfDesc b.ofmt
      let out := if none_ then zeros
        else (upTo b.dim).map fun k => (convertCode fmtF32 f .rne (defaultOvf f) (divF32 (st.acc k) st.l)).1
      let flags := (if none_ then 2 else 0) + (if p.nanin then 8 else 0) + (if p.theta then 16 else 0)
      (queryWrites b i out st.m st.l p.tess flags, j5)

/-- R376: queries i onward, each written whole or not at all; the first failure ends the batch, whose flags
are those of the queries written (R59, R167). -/
def batchGo (im : Image) (b : Batch) : Nat → Nat → Job → Job
  | 0, _, j => j
  | n + 1, i, j =>
    let (w, k) := j.query im b i
    if !k.going then { k with flags := j.flags }
    else match emitBeat k.x k.r w k.s with
      | (.ok o, t) => batchGo im b n (i + 1) { k with s := t, oor := o.reverse ++ k.oor }
      | (.bank _ _ _, t) => { k with s := t, held := true }
      | (a, _) => { k with s := beatWalks k.x w k.s, fault := some (accEFault a), flags := j.flags }

/-- The work of an attention batch whose descriptor was read at issue. -/
def batchWork (s : State) (r : Nat) (c : Command) : Job :=
  let b := Batch.of (leToNat c.desc)
  let j := Job.start s r 6
  match mapGet none (s.region r).sets b.bindh with
  | none => j.fail 5 0 0
  | some im => batchGo im b b.nq 0 j

end Sys2Proof.Machine
end

