-- ==== Sys2Proof/Machine/Attention.lean ====
section
/-! DEFINITION. The attention commands of a sequencer (R259 to R266), the tessera work, and the completion
and abandonment of every engine command (R89, R184, R248, R252, R345, R376). -/

namespace Sys2Proof.Machine

/-! ### Codebooks (R69, R70, R259) -/

/-- R259: a table of levels from its bytes. -/
def tableOf (w gen : Nat) (bs : List Byte) : Codebook :=
  { width := w, levels := (upTo (2 ^ w)).map fun c => sextBits (leToNat ((bs.drop (2 * c)).take 2)) 16, gen := gen }

/-- R70: a checked table becomes the pending copy of a slot. -/
def loadTable (d : BitVec 5) (p slot w : Nat) (bs : List Byte) (s : State) : State :=
  let old := mapGet Codebook.none (s.part p).books slot
  let b := tableOf w ((old.gen + 1) % 2 ^ 24) bs
  match notIncreasing b.level (levelOrder w) with
  | some c => s.status d stNOTINC c
  | none =>
    (s.setPart p { s.part p with books := mapSet Codebook.none (s.part p).books slot b }).status d stOK b.gen

def execCbload (d a : BitVec 5) (slot : BitVec 3) (w : BitVec 1) (s : State) : Out :=
  let i := Instr.cbload d a slot w
  let bits := if isSet w then 8 else 4
  .next (onSequencer s i fun r _ =>
    match coreRead s (s.reg a).toNat (2 * 2 ^ bits) .read with
    | (.ok bs, t) => loadTable d (s.region r).part slot.toNat bits bs t
    | (e, t) => t.fail i e)

/-! ### Batches and stage sets (R260, R261) -/

def execAbatch (d a : BitVec 5) (t : BitVec 6) (s : State) : Out :=
  let i := Instr.abatch d a t
  .next (onSequencer s i fun r k =>
    match coreRead s (s.reg a).toNat 64 .read with
    | (.ok bs, u) =>
      let v := leToNat bs
      if !batchOk v || mapGet none (u.region r).sets (Batch.of v).bindh = none then u.status d stBADDESC 0
      else issueCommand r k .attention i d (s.me.listFrom a 0) t.toNat bs u
    | (e, u) => u.fail i e)

/-- R261: whether an issued batch of a region uses a handle. -/
def handleInUse (g : Region) (h : Nat) : Bool :=
  g.pipeq.any fun c => match c.instr with
    | .abatch _ _ _ => (Batch.of (leToNat c.desc)).bindh = h
    | _ => false

/-- R261, R331: a set under a handle; the slices of the stage elements are zero again. -/
def Region.bindSet (g : Region) (h : Nat) (im : Image) : Region :=
  { g with sets := mapSet none g.sets h (some im), stages := [] }

/-- R331, R361: the slices of the stage elements of a region are written whole: none of their units has a mark. -/
def clearStageMarks (s : State) (r : Nat) : State :=
  { s with poison := s.poison.filter fun u => !(upTo 3).any fun n =>
      decide (stageUnit r n 0 ≤ u.1) && decide (u.1 < stageUnit r n 0x2000) }

/-- R253: the size that an image's counts imply. -/
def impliedSize (h : List Byte) : Nat :=
  0x40 + 16 * fieldAt h 0 2 + 256 * fieldAt h 2 2 + 8 * fieldAt h 4 2 + 8 * fieldAt h 6 1 + 32 * fieldAt h 7 1 +
    256 * (fieldAt h 8 1 % 2)

/-- The lowest free handle of a region (R261). -/
def freeHandle (g : Region) : Option Nat := (upTo 16).find? fun h => h ≠ 0 && mapGet none g.sets h = none

/-- R261: the record goes to d, and on OK the handle to a + 1. -/
def bindFinish (d a : BitVec 5) (r h : Nat) (w : Nat) (im : Option Image) (s : State) : State :=
  match im with
  | none => s.retire 4 d (BitVec.ofNat 64 w) 0
  | some m =>
    match (if h ≠ 0 then some h else freeHandle (s.region r)) with
    | none => s.retire 4 d (BitVec.ofNat 64 (bindRecord 6 0 0 0 0 0)) 0
    | some k =>
      let t := ((clearStageMarks s r).setRegion r ((s.region r).bindSet k m)).retire 4 d 0 0
      t.setReg (BitVec.ofNat 5 (a.toNat + 1)) (BitVec.ofNat 64 k)

/-- R261: the image is read by the task and checked. -/
def bindImage (i : Instr) (d a : BitVec 5) (r h : Nat) (s : State) : State :=
  let va := (s.reg a).toNat
  match coreRead s va 0x40 .read with
  | (.ok hd, t) =>
    if impliedSize hd > maxImage then bindFinish d a r h (bindRecord 4 0 3 0 0 9) none t
    else match coreRead t va (impliedSize hd) .read with
      | (.ok bs, u) => let x := loadStages (regionLayer r) (u.region r).enabled bs
        bindFinish d a r h x.1 x.2 u
      | (e, u) => u.fail i e
  | (e, t) => t.fail i e

def execBind (d a : BitVec 5) (h : BitVec 4) (s : State) : Out :=
  let i := Instr.bind d a h
  .next (onSequencer s i fun r _ =>
    if h ≠ 0 && handleInUse (s.region r) h.toNat then s.holdMe (.wait i) else bindImage i d a r h.toNat s)

def execUnbind (d a : BitVec 5) (h : BitVec 4) (s : State) : Out :=
  let i := Instr.unbind d a h
  .next (onSequencer s i fun r _ =>
    if h = 0 then s.illegal i
    else if handleInUse (s.region r) h.toNat then s.holdMe (.wait i)
    else
      let g := s.region r
      (s.setRegion r { g with sets := mapSet none g.sets h.toNat none }).retire 4 d 0 0)

/-- The handle that a held `bind` or `unbind` waits for. -/
def bindWait : Instr → Option Nat
  | .bind _ _ h => some h.toNat
  | .unbind _ _ h => some h.toNat
  | _ => none

/-- R261: the task is ready again; it goes on in its next turn. -/
def execBindHoldEnd (c : CoreId) (s : State) : Out :=
  match (s.task c).hold, c with
  | .wait i, .seq r _ => match bindWait i with
    | some h => if handleInUse (s.region r) h then .next s else .next (s.ready c)
    | none => .next s
  | _, _ => .next s

/-! ### Tessera commands at issue (R262 to R266) -/

/-- R262: d and the key descriptor of a + 1. -/
def keyDim (l : List Word) : Nat := nbits (l.getD 1 0).toNat 7 0
def keyDesc (l : List Word) : Nat := nbits (l.getD 1 0).toNat 15 8

/-- R262: the answer to `tseal` that refuses it, if one does. -/
def tsealRefusal (hull : Bool) (l : List Word) (v : Nat) : Option Nat :=
  let t := Tess.of 0 0 v
  if t.sealed then some stALREADY
  else if t.live ≠ 64 then some stNOTFULL
  else if (hull && t.hva = 0) || !dimOk (keyDim l) then some stBADDESC
  else none

/-- R262: the answer to `hullw` that refuses it, if one does. -/
def hullwRefusal (l : List Word) (v : Nat) : Option Nat :=
  let t := Tess.of 0 0 v
  if !t.sealed then some stNOTSEALED
  else if t.hva = 0 || !dimOk (keyDim l) then some stBADDESC
  else none

def execTseal (d a : BitVec 5) (h : BitVec 1) (t : BitVec 6) (s : State) : Out :=
  let i := Instr.tseal d a h t
  .next (onSequencer s i fun r k =>
    let l := s.me.listFrom a 1
    if !Legal.descValid (keyDesc l) then s.illegal i
    else match coreRead s (s.reg a).toNat 64 .read with
    | (.ok bs, u) => match tsealRefusal (isSet h) l (leToNat bs) with
      | some c => u.status d c 0
      | none => issueCommand r k .attention i d l t.toNat bs u
    | (e, u) => u.fail i e)

def execHullw (d a : BitVec 5) (t : BitVec 6) (s : State) : Out :=
  let i := Instr.hullw d a t
  .next (onSequencer s i fun r k =>
    let l := s.me.listFrom a 1
    if !Legal.descValid (keyDesc l) then s.illegal i
    else match coreRead s (s.reg a).toNat 64 .read with
    | (.ok bs, u) => match hullwRefusal l (leToNat bs) with
      | some c => u.status d c 0
      | none => issueCommand r k .attention i d l t.toNat bs u
    | (e, u) => u.fail i e)

/-- R263: k, d and the query descriptor of a + 4. -/
def topkK (l : List Word) : Nat := nbits (l.getD 4 0).toNat 14 0
def topkD (l : List Word) : Nat := nbits (l.getD 4 0).toNat 22 15
def topkDesc (l : List Word) : Nat := nbits (l.getD 4 0).toNat 30 23

/-- R263, R353: whether the operands of `topk` are in range; an invalid descriptor is no such operand but raises
`ILLEGAL` (R50, R206). -/
def topkOk (l : List Word) : Bool :=
  decide (1 ≤ topkK l) && decide (topkK l ≤ 16384) && dimOk (topkD l) && nbits (l.getD 4 0).toNat 63 31 = 0

def execTopk (d a : BitVec 5) (t : BitVec 6) (s : State) : Out :=
  let i := Instr.topk d a t
  .next (onSequencer s i fun r k =>
    let l := s.me.listFrom a 4
    if !Legal.descValid (topkDesc l) then s.illegal i
    else if !topkOk l then s.status d stBADDESC 0 else issueCommand r k .attention i d l t.toNat [] s)

def execTfork (d a : BitVec 5) (t : BitVec 6) (s : State) : Out :=
  let i := Instr.tfork d a t
  .next (onSequencer s i fun r k => issueCommand r k .attention i d (s.me.listFrom a 4) t.toNat [] s)

def execTevict (d a : BitVec 5) (t : BitVec 6) (s : State) : Out :=
  let i := Instr.tevict d a t
  .next (onSequencer s i fun r k => issueCommand r k .attention i d (s.me.listFrom a 3) t.toNat [] s)

/-! ### The prefix index (R183, R264, R377) -/

/-- What a lookup answers: HIT or MISS with its value, and how it ended a failed load. -/
inductive Found where
  | hit (tid : Nat)
  | miss (why : Nat)
  | failed (a : Acc Unit)
  deriving DecidableEq, Repr

/-- A load of a lookup: a number, or its failure. -/
def lookupRead (s : State) (va n : Nat) : Acc Nat × State :=
  match coreRead s (va % 2 ^ 64) n .read with
  | (.ok bs, t) => (.ok (leToNat bs), t)
  | (e, t) => (e.map fun _ => 0, t)

/-- What an entry with the hash turns out to be: equal, a collision, a collision with a failed token
read (its KIND and address), or a failed load. -/
inductive Match where
  | equal
  | collision
  | unread (kind va : Nat)
  | failed (a : Acc Unit)
  deriving DecidableEq, Repr

/-- R183, R377: the comparison at an entry whose hash matches. -/
def lookupMatch (entry p ttab ids : Nat) (s : State) : Match × State :=
  if nbits entry 127 104 ≠ p then (.collision, s)
  else match lookupRead s (ttab + 64 * nbits entry 103 80) 64 with
    | (.ok v, t) =>
      let tess := Tess.of 0 0 v
      if !tess.sealed then (.collision, t)
      else match lookupRead t tess.tokva 256 with
        | (.ok w, u) => (if w = ids then .equal else .collision, u)
        | (.memerr _ va, u) => (.unread 3 va, u)
        | (.unreach _ va, u) => (.unread 4 va, u)
        | (e, u) => (.failed (e.map fun _ => ()), u)
    | (e, t) => (.failed (e.map fun _ => ()), t)

/-- The operands of a lookup. -/
structure Lookup where
  base : Nat
  size : Nat
  hash : Nat
  prev : Nat
  ids : Nat
  ttab : Nat
  deriving DecidableEq, Repr

/-- R183: probes n onward; with the answer come the collisions and the first failed token read. -/
def lookupGo (q : Lookup) : Nat → Nat → Nat → Option (Nat × Nat) → State → Found × Nat × Option (Nat × Nat) × State
  | 0, _, coll, bad, s => (.miss 1, coll, bad, s)
  | f + 1, n, coll, bad, s =>
    match lookupRead s (q.base + 16 * ((q.hash + n) % 2 ^ q.size)) 16 with
    | (.ok e, t) =>
      if !nbit e 64 then (.miss 0, coll, bad, t)
      else if nbits e 63 0 ≠ q.hash then lookupGo q f (n + 1) coll bad t
      else match lookupMatch e q.prev q.ttab q.ids t with
        | (.equal, u) => (.hit (nbits e 103 80), coll, bad, u)
        | (.collision, u) => lookupGo q f (n + 1) (coll + 1) bad u
        | (.unread k va, u) => lookupGo q f (n + 1) (coll + 1) (bad.or (some (k, va))) u
        | (.failed a, u) => (.failed a, coll, bad, u)
    | (e, t) => (.failed (e.map fun _ => ()), coll, bad, t)

/-- R183: SQ_PFXCOLL after more collisions. -/
def Region.addCollisions (g : Region) (n : Nat) : Region :=
  { g with pfxcoll := BitVec.ofNat 32 (min (g.pfxcoll.toNat + n) 0xFFFFFFFF) }

/-- R264: the lookup completes: H_n to a + 2, the answer to d, collisions counted, a failed token read
recorded. -/
def lookupEnd (i : Instr) (d a : BitVec 5) (r hash : Nat) (x : Found × Nat × Option (Nat × Nat) × State) : State :=
  let (ans, coll, bad, s) := x
  let done (code v : Nat) : State :=
    let t := s.setRegion r ((s.region r).addCollisions coll)
    let m := match bad with
      | none => t.me
      | some (k, va) => t.me.efaultAt 0 3 { kind := k, code := 0, addr := va }
    ((t.setMe m).setReg (BitVec.ofNat 5 (a.toNat + 2)) (BitVec.ofNat 64 hash)).status d code v
  match ans with
  | .hit tid => done stHIT tid
  | .miss why => done stMISS why
  | .failed e => s.fail i e

def execPfxfind (d a : BitVec 5) (s : State) : Out :=
  let i := Instr.pfxfind d a
  .next (onSequencer s i fun r _ =>
    let l := s.me.listFrom a 5
    let n (k : Nat) : Nat := (l.getD k 0).toNat
    let size := n 1 % 32
    if size = 0 || decide (size > 24) then s.status d stBADDESC 0
    else match coreRead s (n 4) 256 .read with
      | (.ok ids, t) =>
        let hash := leToNat (shake256 (natToLe (n 2) 8 ++ ids) 1)
        lookupEnd i d a r hash (lookupGo
          { base := n 0, size := size, hash := hash, prev := n 3 % 2 ^ 24, ids := leToNat ids, ttab := n 5 }
          8 0 0 none t)
      | (e, t) => t.fail i e)

/-! ### Tessera work -/

/-- The smaller (or larger) of exact values; none once one of them is NaN. -/
def extreme (big : Bool) : List Val → Option Val
  | [] => none
  | [x] => if x.isNan then none else some x
  | x :: r => match extreme big r with
    | none => none
    | some y =>
      if x.isNan then none
      else if big then some (if x.below y then y else x) else some (if y.below x then y else x)

/-- R172: one hull element in BF16; over a NaN key the spec states none: a free value. -/
def Job.hullElem (j : Job) (big : Bool) (l : List Val) : Nat × Job :=
  match extreme big l with
  | some v => ((roundTo fmtBF16 (if big then .rup else .rdn) true v).1, j)
  | none =>
    let (x, t) := j.s.takeFree
    (x % 2 ^ 16, { j with s := t })

/-- Elements k onward of one half of a hull. -/
def Job.hullHalf (big : Bool) (keys : List (List Val)) : Nat → Nat → Job → List Nat × Job
  | 0, _, j => ([], j)
  | n + 1, k, j =>
    let (x, j1) := j.hullElem big (keys.map fun r => r.getD k (.fin false 0 0))
    let (l, j2) := Job.hullHalf big keys n (k + 1) j1
    (x :: l, j2)

/-- The stored key rows of a tessera. -/
def Job.keyRows (t : Tess) (desc d : Nat) : Nat → Nat → Job → List (List Val) × Job
  | 0, _, j => ([], j)
  | n + 1, k, j =>
    let (x, j1) := j.rowVals t.kva desc k d
    if !j1.going then ([], j1)
    else
      let (l, j2) := Job.keyRows t desc d n (k + 1) j1
      (x :: l, j2)

/-- Number of bits set in the low 64 bits. -/
def popcount64 (v : Nat) : Nat := ((upTo 64).filter fun o => nbit v o).length

/-- R262: the hull, then the descriptor word with SEALED and HV. -/
def sealJob (seals hull : Bool) (c : Command) (j : Job) : Job :=
  let v := leToNat c.desc
  let t := Tess.of 0 0 v
  let d := keyDim c.list
  let word := nbits v 127 64 % 2 ^ 64
  let at8 := (c.list.getD 0 0).toNat + 8
  let sealed := if seals then setBits word 24 24 1 else word
  if !hull || t.surv = 0 then (if seals then j.put at8 (natToLe sealed 8) 0 else j)
  else
    let (keys, j1) := Job.keyRows t (keyDesc c.list) d (popcount64 t.surv) 0 j
    let (lo, j2) := Job.hullHalf false keys d 0 j1
    let (hi, j3) := Job.hullHalf true keys d 0 j2
    let j4 := j3.put t.hva ((lo ++ hi).flatMap fun x => natToLe x 2) 0
    j4.put at8 (natToLe (setBits sealed 25 25 1) 8) 0

/-- The bounds of the sealed entries of a list (R263). -/
def Job.topkBounds (q : List Val) (d : Nat) : List Tess → Job → List (Nat × Nat) × Job
  | [], j => ([], j)
  | t :: r, j =>
    if !t.sealed then Job.topkBounds q d r j
    else if !t.hv then
      let (l, j1) := Job.topkBounds q d r j
      ((t.idx, posInf32) :: l, j1)
    else
      let (b, j1) := j.boundOf t q d
      let (l, j2) := Job.topkBounds q d r j1
      ((t.idx, b) :: l, j2)

/-- Entries k onward of the output of `topk`. -/
def putEntries (out : Nat) : List Nat → Nat → Job → Job
  | [], _, j => j
  | x :: r, k, j => putEntries out r (k + 1) (j.put (out + 8 * k) (natToLe x 8) 0)

/-- R263. -/
def topkJob (c : Command) (j : Job) : Job :=
  let n (k : Nat) : Nat := (c.list.getD k 0).toNat
  let k := topkK c.list
  let (_, l, j1) := j.walk (n 1) (n 2)
  match l with
  | none => (putEntries (n 3) (List.replicate k (2 ^ 64 - 1)) 0 j1).fail 5 0 (n 1)
  | some l =>
    let (q, j2) := j1.rowVals (n 0) (topkDesc c.list) 0 (topkD c.list)
    let (b, j3) := Job.topkBounds q (topkD c.list) l j2
    let best := ((rankAll (fun p => p.2) b).take k).map fun p => p.1 + p.2 * 2 ^ 32
    putEntries (n 3) (best ++ List.replicate (k - best.length) (2 ^ 64 - 1)) 0 j3

/-- R265, R266: the places of row k of n bytes: blocks of a carousel page, or consecutive bytes. -/
def rowPlaces (sd : Option Side) (base n k : Nat) : List (Nat × Nat) :=
  match sd with
  | some (.blocks w m) =>
    let per := n / blockSize w m
    (upTo per).map fun b => (blockAddr w m base (k * per + b) % 2 ^ 64, blockSize w m)
  | _ => [((base + n * k) % 2 ^ 64, n)]

/-- Bytes copied place by place. -/
def copyPlaces : List ((Nat × Nat) × (Nat × Nat)) → Job → Job
  | [], j => j
  | (src, dst) :: r, j =>
    let (bs, k) := j.read src.1 src.2
    copyPlaces r (k.put dst.1 bs 0)

/-- Two lists of places cut so that they pair up byte for byte. The first argument bounds the cuts. -/
def pairPlaces : Nat → List (Nat × Nat) → List (Nat × Nat) → List ((Nat × Nat) × (Nat × Nat))
  | f + 1, a :: r, b :: t =>
    let k := min a.2 b.2
    let rest (p : Nat × Nat) (l : List (Nat × Nat)) : List (Nat × Nat) :=
      if p.2 = k then l else ((p.1 + k) % 2 ^ 64, p.2 - k) :: l
    ((a.1, k), (b.1, k)) :: pairPlaces f (rest a r) (rest b t)
  | _, _, _ => []

/-- R265: rows of n bytes copied byte for byte, also between blocks and consecutive bytes: pairs of a source row and a
destination row. -/
def copyRowBytes (src dst n : Nat) (l : List (Nat × Nat)) (j : Job) : Job :=
  if l = [] || n = 0 then j
  else
    let (a, j1) := j.side src .read
    let (b, j2) := j1.side dst .write
    copyPlaces (l.flatMap fun p =>
      let (x, y) := (rowPlaces a src n p.1, rowPlaces b dst n p.2)
      pairPlaces (x.length + y.length) x y) j2

/-- Key-row and value-row bytes of a register (R265, R266). -/
def keyBytes (w : Word) : Nat := nbits w.toNat 47 32
def valBytes (w : Word) : Nat := nbits w.toNat 63 48

/-- R265: the tail's rows, tokens and words, and its place in the new list. -/
def forkTail (c : Command) (t : Tess) (n : Nat) (j : Job) : Job :=
  let w := c.list.getD 4 0
  let tid := nbits w.toNat 23 0
  let va := (c.list.getD 3 0).toNat + 64 * tid
  let (v, j1) := j.num va 64
  let x := Tess.of 0 0 v
  let rows := (upTo (popcount64 t.surv)).map fun k => (k, k)
  let j2 := copyRowBytes t.kva x.kva (keyBytes w) rows j1
  let j3 := copyRowBytes t.vva x.vva (valBytes w) rows j2
  let j4 := copyPlaces [((t.tokva, 256), (x.tokva, 256))] j3
  let j5 := j4.put va (natToLe t.surv 8 ++ natToLe (t.live + t.base * 2 ^ 32) 8) 0
  j5.put ((c.list.getD 2 0).toNat + 16 * (n - 1)) (natToLe (t.vis + tid * 2 ^ 64) 16) 0

/-- R265: `tfork`. -/
def forkJob (c : Command) (j : Job) : Job :=
  let n (k : Nat) : Nat := (c.list.getD k 0).toNat
  let (q, l, j1) := j.walk (n 0) (n 3)
  match l with
  | none => j1.fail 5 0 (n 0)
  | some l =>
    let (e, j2) := j1.num (n 0) 32
    let j3 := copyPlaces [((q.lva, 16 * q.nt), (n 2, 16 * q.nt))] j2
    let j4 := j3.put (n 1) (natToLe (setBits e 255 199 (n 2)) 32) 0
    match l.getLast? with
    | none => j4
    | some t => if t.sealed then j4 else forkTail c t q.nt j4

/-- R163, R266: the moves of a compaction: kept rows whose packed slot changes. -/
def compactMoves (surv kept : Nat) : List (Nat × Nat) :=
  let slot (v o : Nat) : Nat := ((upTo o).filter fun i => nbit v i).length
  (((upTo 64).filter fun o => nbit kept o).map fun o => (slot surv o, slot kept o)).filter fun p => p.1 ≠ p.2

/-- R266: `tevict`. -/
def evictJob (c : Command) (j : Job) : Job :=
  let n (k : Nat) : Nat := (c.list.getD k 0).toNat
  let w := c.list.getD 2 0
  let idx := nbits w.toNat 31 0
  let (v, j1) := j.num (n 0) 32
  let q := Seq.of v
  if j1.going && decide (idx ≥ q.nt) then j1.fail 5 0 (n 0)
  else
    let (e, j2) := j1.num (q.lva + 16 * idx) 16
    let va := n 1 + 64 * nbits e 87 64
    let (u, j3) := j2.num va 64
    let t := Tess.of idx e u
    let keep (x m : Nat) : Nat := x % 2 ^ 64 &&& (2 ^ 64 - 1 - m % 2 ^ 64)
    if t.sealed then j3.put (q.lva + 16 * idx) (natToLe (keep t.vis (n 3)) 8) 0
    else
      let kept := keep t.surv (n 3 % 2 ^ t.live)
      let moves := compactMoves t.surv kept
      let j4 := copyRowBytes t.kva t.kva (keyBytes w) moves j3
      let j5 := copyRowBytes t.vva t.vva (valBytes w) moves j4
      j5.put va (natToLe kept 8) 0

/-- The first n beats of some writes, and the others. -/
def takeBeats : Nat → List PWrite → List PWrite × List PWrite
  | 0, l => ([], l)
  | _ + 1, [] => ([], [])
  | n + 1, w :: l =>
    let beat := lineOf (w.va / 64) (w :: l)
    let (a, b) := takeBeats n ((w :: l).drop beat.length)
    (beat ++ a, b)

/-- R267: an eviction's writes up to a freely chosen beat, and the writes that follow later: what runs beside the
command meets its rows partly moved. -/
def evictFirst (s : State) (r : Nat) (c : Command) : Emitted × List (Nat × List Byte) :=
  let j := evictJob c (Job.start s r 6)
  let (x, t) := j.s.takeFree
  let (a, b) := takeBeats (x % (j.writes.length + 1)) j.writes.reverse
  (Job.emit { j with s := t, writes := a.reverse }, b.map fun w => (w.va, w.bytes))

/-- The planned work of an eviction: the whole, or what its first part left. -/
def evictPlan (s : State) (r : Nat) (c : Command) : Job :=
  let j := Job.start s r 6
  match c.rest with
  | none => evictJob c j
  | some l => { j with writes := (l.map fun p => { va := p.1, bytes := p.2, flags := 0 }).reverse }

/-- The planned work of a tessera command. -/
def tessWork (s : State) (r : Nat) (c : Command) : Option Emitted :=
  let j := Job.start s r 6
  match c.instr with
  | .tseal _ _ h _ => some (sealJob true (isSet h) c j).emit
  | .hullw _ _ _ => some (sealJob false true c j).emit
  | .topk _ _ _ => some (topkJob c j).emit
  | .tfork _ _ _ => some (forkJob c j).emit
  | .tevict _ _ _ => some (evictPlan s r c).emit
  | _ => none

/-! ### Configuration copies (R252) -/

/-- R252: the image is read and checked, and the record is written; an accepted image comes with it. -/
def cfgWork (s : State) (r : Nat) (c : Command) : Emitted × Option Image :=
  let n (k : Nat) : Nat := (c.list.getD k 0).toNat
  let j := Job.start s r 4
  let (w, im, j1) := if n 2 > maxImage then (layoutBreach.word r, none, j)
    else
      let (bs, k) := j.read (n 1) (n 2)
      if k.going then ((loadImage s r bs).1, (loadImage s r bs).2, k) else (0, none, k)
  ((j1.put (n 0) (natToLe w 8) 0).emit, im)

/-! ### Completion and abandonment of a command -/

/-- R345: the number of the engine that records. -/
def faultEngine : Instr → Nat
  | .copy _ _ _ _ _ _ => 0
  | .copyCfg _ _ _ => 0
  | .gather _ _ _ _ _ _ => 0
  | .scatter _ _ _ _ _ _ => 0
  | .merge _ _ _ _ _ _ => 1
  | .mscan _ _ _ => 1
  | .abatch _ _ _ => 2
  | _ => 3

/-- Whether a command is an attention batch. -/
def isBatch : Instr → Bool
  | .abatch _ _ _ => true
  | _ => false

/-- The whole work of a command: what it leaves, and the configuration that it makes pending. -/
def commandWork (s : State) (r : Nat) (c : Command) : Option (Emitted × Option Image) :=
  match c.instr with
  | .copyCfg _ _ _ => some (cfgWork s r c)
  | .abatch _ _ _ =>
    let j := batchWork s r c
    some ({ s := j.s, done := 0, flags := j.flags, oor := j.oor.reverse, fault := j.fault, held := j.held }, none)
  | _ => match engineWork s r c with
    | some e => some (e, none)
    | none => (tessWork s r c).map fun e => (e, none)

/-- R87: the records of a command go to its task. -/
def recordOor (s : State) (r : Nat) (c : Command) (e : Emitted) : State :=
  onOwner s r c.owner fun t => t.oorAll e.oor

/-- R267: whether a command has its first part before it. -/
def Command.parted (c : Command) : Bool :=
  match c.instr with
  | .tevict _ _ _ => c.rest = none
  | _ => false

/-- R267: the first part of an eviction is made, unless it meets a fault or waits for a bank. -/
def partCommand (r : Nat) (e : Engine) (idx : Nat) (c : Command) (s : State) : State :=
  let (w, l) := evictFirst s r c
  if w.held then raiseSpill { s with spills := w.s.spills } r
  else if w.fault ≠ none then s
  else
    let t := recordOor w.s r c w
    let g := t.region r
    t.setRegion r (g.setQueue e ((g.queueOf e).set idx { c with rest := some l }))

/-- R89, R184: the command at an index completes; one that would be abandoned, or that waits for a bank,
does not. -/
def completeCommand (r : Nat) (e : Engine) (idx : Nat) (batch : Bool) (s : State) : State :=
  match ((s.region r).queueOf e)[idx]? with
  | none => s
  | some c =>
    if isBatch c.instr ≠ batch || (s.region r).saved ≠ none then s
    else if c.parted then partCommand r e idx c s
    else match commandWork s r c with
      | none => s
      | some (w, im) =>
        if w.held then raiseSpill { s with spills := w.s.spills } r
        else if w.fault ≠ none then s
        else
          let t := recordOor w.s r c w
          let u := match im with
            | none => t
            | some m => t.setRegion r { t.region r with pending := some m }
          finishCommand u r e idx c w.flags false

/-- R26, R248, R345: the command at an index meets its fault and is abandoned. -/
def abandonCommand (r : Nat) (e : Engine) (idx : Nat) (batch : Bool) (s : State) : State :=
  match ((s.region r).queueOf e)[idx]? with
  | none => s
  | some c =>
    if isBatch c.instr ≠ batch || (s.region r).saved ≠ none then s
    else match commandWork s r c with
      | none => s
      | some (w, _) =>
        match w.held, w.fault with
        | true, _ => raiseSpill { s with spills := w.s.spills } r
        | false, none => s
        | false, some f =>
          let t := recordOor w.s r c w
          let u := onOwner t r c.owner fun x => x.efaultAt c.tag (faultEngine c.instr) f
          finishCommand u r e idx c w.flags true

def execEngineCommandComplete (r : Nat) (e : Engine) (idx : Nat) (s : State) : Out :=
  .next (completeCommand r e idx false s)

def execEngineCommandAbandon (r : Nat) (e : Engine) (idx : Nat) (s : State) : Out :=
  .next (abandonCommand r e idx false s)

def execAttentionBatchComplete (r idx : Nat) (s : State) : Out :=
  .next (completeCommand r .attention idx true s)

def execAttentionBatchAbandon (r idx : Nat) (s : State) : Out :=
  .next (abandonCommand r .attention idx true s)

end Sys2Proof.Machine
end

