-- ==== Sys2Proof/Machine/Flow.lean ====
section
/-! DEFINITION. Branches (R230), calls and returns with their sliding windows (R223, R231 to R233). -/

namespace Sys2Proof.Machine

/-- R230: a branch: taken when the condition holds on the register. -/
def branchOn (c : Word → Bool) (a : BitVec 5) (o : BitVec 20) (s : State) : Out :=
  .next (if c (s.reg a) then s.goto (branchTarget s.me.pc o) else s.advance 4)

def execB (o : BitVec 20) (s : State) : Out := .next (s.goto (branchTarget s.me.pc o))
def execBeqz (a : BitVec 5) (o : BitVec 20) (s : State) : Out := branchOn (fun x => x = 0) a o s
def execBnez (a : BitVec 5) (o : BitVec 20) (s : State) : Out := branchOn (fun x => x ≠ 0) a o s
def execBltz (a : BitVec 5) (o : BitVec 20) (s : State) : Out := branchOn (fun x => x.msb) a o s
def execBgez (a : BitVec 5) (o : BitVec 20) (s : State) : Out := branchOn (fun x => !x.msb) a o s
def execBgtz (a : BitVec 5) (o : BitVec 20) (s : State) : Out :=
  branchOn (fun x => !x.msb && x ≠ 0) a o s
def execBlez (a : BitVec 5) (o : BitVec 20) (s : State) : Out :=
  branchOn (fun x => x.msb || x = 0) a o s

/-! ### Windows -/

/-- The register of the ring with an absolute number (R223). -/
def Task.abs (t : Task) (n : Nat) : Word := mapGet 0 t.ring (n % 56)
def Task.setAbs (t : Task) (n : Nat) (v : Word) : Task := { t with ring := mapSet 0 t.ring (n % 56) v }

/-- R224: the address that WSP names. -/
def Task.wspVa (t : Task) : Nat := (t.wsp.signExtend 61 ++ (0 : BitVec 3)).toNat

/-- WSP moved by n slots (R224). -/
def Task.moveWsp (t : Task) (n : Int) : Task := { t with wsp := t.wsp + BitVec.ofInt 54 n }

/-- R233: the store of a window's lowest held register. A spill that its home refuses is not detected here
(notes/assumptions/79.md). -/
def spillStore (s : State) : Acc Unit × State :=
  coreWrite s s.me.wspVa (natToLe (s.me.abs s.me.low).toNat 8) 0 true

/-- R233: registers spilled in ascending order until at most `keep` positions are held below the new
base; a failed spill ends it. The first argument bounds the spills. -/
def spill (base' : Nat) : Nat → State → Acc Unit × State
  | 0, s => (.ok (), s)
  | f + 1, s =>
    if base' + 24 - s.me.low ≤ 56 then (.ok (), s)
    else
      match spillStore s with
      | (.ok _, t) => spill base' f (t.setMe { (t.me.moveWsp 1) with low := t.me.low + 1 })
      | (e, t) => (e, t)

/-- R231: the link word of a call. -/
def linkWord (pc : Word) (f : BitVec 5) : Word :=
  BitVec.ofNat 64 (nbits (pc + 4).toNat 56 2 * 4 + f.toNat * 2 ^ 57)

/-- R231: registers w(24 − f) to w22 zeroed. -/
def freshRegs (base f : Nat) (t : Task) : Task :=
  (upTo (f - 1)).foldl (fun t i => t.setAbs (base + 24 - f + i) 0) t

/-- R231, R233: the window slides by f and the pc goes to a target; a failed spill traps with the
window unchanged. -/
def callTo (i : Instr) (f : BitVec 5) (target : Word) (s : State) : State :=
  let m := s.me
  let base' := m.base + f.toNat
  match spill base' 64 s with
  | (.ok _, t) =>
    let m' := freshRegs base' f.toNat { t.me with base := base' }
    t.setMe { (m'.setAbs (base' + 23) (linkWord m.pc f)) with pc := target }
  | (e, t) => (t.setMe { t.me with low := m.low, wsp := m.wsp }).fail i e

def execCall (f : BitVec 5) (o : BitVec 20) (s : State) : Out :=
  .next (callTo (.call f o) f (branchTarget s.me.pc o) s)

def execCallr (f a : BitVec 5) (s : State) : Out := .next (callTo (.callr f a) f (s.reg a) s)

/-- R232, R233: registers filled in descending order until LOW is at the base. -/
def fill (base : Nat) : Nat → State → Acc Unit × State
  | 0, s => (.ok (), s)
  | f + 1, s =>
    if s.me.low ≤ base then (.ok (), s)
    else
      let m := s.me.moveWsp (-1)
      match coreRead s m.wspVa 8 .read with
      | (.ok bs, t) =>
        let u := t.me.moveWsp (-1)
        fill base f (t.setMe { (u.setAbs (u.low - 1) (BitVec.ofNat 64 (leToNat bs))) with low := u.low - 1 })
      | (e, t) => (e.map fun _ => (), t)

/-- R232: the return; a bad link traps, a failed fill traps with the window unchanged. -/
def execRet (s : State) : Out :=
  let m := s.me
  let link := m.get 31
  let f := nbits link.toNat 61 57
  if nbits link.toNat 63 62 ≠ 0 || decide (f > 24) || decide (m.base < m.base0 + f) then
    .next (s.trap tcBADLINK 0 link)
  else
    let base := m.base - f
    let target := ((link >>> 2).setWidth 55 ++ (0 : BitVec 2)).signExtend 64
    match fill base 64 s with
    | (.ok _, t) => .next (t.setMe { t.me with base := base, pc := target })
    | (e, t) => .next ((t.setMe { t.me with ring := m.ring, low := m.low, wsp := m.wsp }).fail .ret e)

/-- R232: jr; the window is unchanged. -/
def execJr (a : BitVec 5) (s : State) : Out := .next (s.goto (s.reg a))

end Sys2Proof.Machine
end

