-- ==== Sys2Proof/Machine/Csr.lean ====
section
/-! DEFINITION. The control registers (R207, R208, R342): who may name each, what a read returns, what a
write does (R229), and the writes that other rules state as steps of their own (R18, R91, R60, R271,
R190, R192, R199). -/

namespace Sys2Proof.Machine

/-! ### The register list (R207, R342) -/

/-- Which cores have a register, and its read and write levels; no write level is RO. -/
structure CsrSpec where
  onSeq : Bool
  onStew : Bool
  rd : Level
  wr : Option Level
  deriving DecidableEq, Repr

/-- A row for the numbers lo to hi. -/
def csrRange (n lo hi : Nat) (x : CsrSpec) (rest : Option CsrSpec) : Option CsrSpec :=
  if lo ≤ n && n ≤ hi then some x else rest

/-- R207, R342: the complete list. -/
def csrSpec (n : Nat) : Option CsrSpec :=
  csrRange n 0x000 0x000 ⟨true, true, .u, none⟩ <|
  csrRange n 0x008 0x00F ⟨true, true, .u, none⟩ <|
  csrRange n 0x010 0x010 ⟨true, false, .u, some .u⟩ <|
  csrRange n 0x020 0x020 ⟨true, false, .u, some .u⟩ <|
  csrRange n 0x021 0x021 ⟨false, true, .u, some .u⟩ <|
  csrRange n 0x022 0x022 ⟨true, false, .u, some .u⟩ <|
  csrRange n 0x023 0x023 ⟨false, true, .u, some .u⟩ <|
  csrRange n 0x024 0x024 ⟨true, false, .u, none⟩ <|
  csrRange n 0x025 0x025 ⟨true, false, .u, some .u⟩ <|
  csrRange n 0x026 0x026 ⟨true, true, .u, some .u⟩ <|
  csrRange n 0x027 0x027 ⟨true, false, .u, some .u⟩ <|
  csrRange n 0x028 0x028 ⟨true, false, .u, none⟩ <|
  csrRange n 0x029 0x029 ⟨false, true, .k, some .k⟩ <|
  csrRange n 0x030 0x031 ⟨true, false, .u, some .u⟩ <|
  csrRange n 0x032 0x032 ⟨true, false, .u, none⟩ <|
  csrRange n 0x033 0x033 ⟨true, false, .u, some .k⟩ <|
  csrRange n 0x034 0x034 ⟨true, false, .u, none⟩ <|
  csrRange n 0x035 0x035 ⟨true, false, .k, some .k⟩ <|
  csrRange n 0x040 0x04F ⟨true, false, .u, none⟩ <|
  csrRange n 0x050 0x053 ⟨true, false, .k, some .k⟩ <|
  csrRange n 0x054 0x056 ⟨true, false, .u, some .u⟩ <|
  csrRange n 0x057 0x057 ⟨true, false, .k, some .k⟩ <|
  csrRange n 0x100 0x100 ⟨true, true, .k, some .k⟩ <|
  csrRange n 0x101 0x104 ⟨true, true, .k, some .h⟩ <|
  csrRange n 0x105 0x105 ⟨true, true, .k, some .k⟩ <|
  csrRange n 0x106 0x107 ⟨true, true, .k, some .h⟩ <|
  csrRange n 0x108 0x108 ⟨false, true, .k, some .k⟩ <|
  csrRange n 0x110 0x110 ⟨true, true, .k, some .k⟩ <|
  csrRange n 0x111 0x111 ⟨true, true, .k, some .h⟩ <|
  csrRange n 0x120 0x123 ⟨true, false, .k, some .k⟩ <|
  csrRange n 0x124 0x127 ⟨false, true, .k, some .k⟩ <|
  csrRange n 0x200 0x200 ⟨false, true, .h, some .h⟩ <|
  csrRange n 0x220 0x224 ⟨false, true, .h, some .h⟩ <|
  csrRange n 0x300 0x300 ⟨true, true, .u, some .h⟩ <|
  (if 0x400 ≤ n && n < 0x400 + 48 then
    if n % 2 = 0 then some ⟨false, true, .h, some .h⟩ else some ⟨false, true, .k, none⟩
   else none)

/-- Whether a core has the register. -/
def csrHere (s : State) (x : CsrSpec) : Bool := if CoreId.isSteward s.cur then x.onStew else x.onSeq

/-! ### Masks -/

/-- Bits hi to lo of a word, in place. -/
def fieldMask (hi lo : Nat) : Word := BitVec.ofNat 64 (2 ^ (hi + 1) - 2 ^ lo)

/-- R91: the fields of PT_CTX and PT_KCTX. -/
def ctxMask : Word := fieldMask 63 52 ||| fieldMask 39 0

/-- R341: the fields of xCAUSE. -/
def causeMask : Word := fieldMask 63 61 ||| fieldMask 47 32 ||| fieldMask 7 0

/-- R33: the RW fields of SQ_BUSYMAP and SQ_DIRTYLOG. -/
def logMask : Word := fieldMask 63 60 ||| fieldMask 56 12 ||| fieldMask 0 0

/-- R33: a log register after a write. -/
def logWrite (old rw clr : Word) : Word := (rw &&& logMask) ||| (old &&& fieldMask 11 11 &&& ~~~ clr)

/-- R87, R345: a record word whose VALID is cleared where 1 is written. -/
def dropValid (old clr : Word) : Word := old &&& ~~~ (clr &&& fieldMask 63 63)

/-! ### SCOPE_COST (R13, R15, R396) -/

/-- R396: the table: TYPICAL and BOUND at the centre and the corner element, by scope code. -/
def centreCost : List (Nat × Nat) :=
  [(0, 1), (1, 3), (8, 20), (22, 52), (40, 96), (72, 168), (940, 8400), (1450, 0xFFFF)]
def cornerCost : List (Nat × Nat) :=
  [(0, 1), (1, 3), (14, 34), (26, 60), (44, 104), (118, 276), (980, 8520), (1400, 0xFFFF)]

/-- R396: the free readings of a position, made non-decreasing in the scope code with TYPICAL at most
BOUND. -/
def freeCost (at_ code port : Nat) : Nat × Nat :=
  let raw (j : Nat) : Nat := (Config.scopeCost (BitVec.ofNat 32 at_) j (if j = 7 then port else 0)).toNat
  let typ := (upTo (code + 1)).foldl (fun m j => max m (raw j % 2 ^ 16)) 0
  let bound := (upTo (code + 1)).foldl (fun m j => max m (max (raw j % 2 ^ 16) (raw j / 2 ^ 16))) 0
  (typ, if code = 7 then 0xFFFF else bound)

/-- R396: the reading at a position of the package. The table gives SYS TYPICAL for host port 0 alone; for a
partition on host port 1 the two places keep a free reading, at least their POD TYPICAL
(notes/assumptions/45.md). -/
def scopeCostAt (at_ code port : Nat) : Nat × Nat :=
  let place := at_ % 2 ^ 26
  if place = coord 0 2 2 1 16 15 0 1 0 && (code < 7 || port = 0) then centreCost.getD code (0, 0)
  else if place = coord 0 5 2 3 31 0 0 1 0 && (code < 7 || port = 0) then cornerCost.getD code (0, 0)
  else if (place = coord 0 2 2 1 16 15 0 1 0 || place = coord 0 5 2 3 31 0 0 1 0) && code = 7 then
    (max (freeCost place 7 port).1 (if place = coord 0 2 2 1 16 15 0 1 0 then 940 else 980), 0xFFFF)
  else freeCost place code port

/-- R15: the position that the SCOPE_COST registers of a core report on. -/
def costView (s : State) : Option Nat :=
  match s.cur with
  | .stew _ => some (s.agent s.cur)
  | .seq r _ =>
    let w := (s.region r).costsel.toNat
    if !nbit w 10 then some (s.agent s.cur)
    else
      let row := nbits w 9 5
      let col := nbits w 4 0
      let e := (row - regionRow r) * 16 + (col - regionCol r)
      if row / 16 = r % 4 / 2 && col / 16 = r % 2 && (s.region r).enabled.contains e then
        some (elemCoord s r e 1)
      else none

/-- R13: SCOPE_COSTn. -/
def scopeCostReg (s : State) (code : Nat) : Word :=
  match costView s with
  | none => 0
  | some a =>
    let x := scopeCostAt a code (s.part (s.partOf s.cur)).hostPort
    BitVec.ofNat 64 (x.2 * 2 ^ 16 + x.1)

/-! ### Reads -/

/-- R224: the task status register. -/
def Task.tstat (t : Task) : Word :=
  BitVec.ofNat 64 (t.wsp.toNat * 2 ^ 10 + t.sendst.toNat * 2 ^ 5 + (if t.capped then 1 else 0))

/-- R60: EL_FFLAGS. -/
def elFflags (g : Region) : Word :=
  let f : Flags := match g.islandOf g.fflSel.toNat with
    | some (_, i) => i.flags
    | none => 0
  BitVec.ofNat 64 (g.fflSel.toNat * 2 ^ 18 + f.toNat)

/-- R349: EL_AGFAULT. -/
def elAgfault (s : State) (r : Nat) : Word :=
  let g := s.region r
  let any := g.elements.any fun p => faultedPort p.2 ≠ none
  let low := g.agSel.toNat + (if any then 2 ^ 60 else 0) + (if quiescent s r then 2 ^ 59 else 0)
  let e := g.element g.agSel.toNat
  BitVec.ofNat 64 (match faultedPort e with
    | none => low
    | some p => match (e.ag p).fault with
      | none => low
      | some f => low + 2 ^ 63 + p * 2 ^ 58 + (if (e.ag p).kind = 2 then 2 ^ 57 else 0) + f.kind * 2 ^ 53 +
          f.code * 2 ^ 37 + f.word % 2 ^ 24 * 2 ^ 13)

/-- R349: EL_AGFADDR. -/
def elAgfaddr (g : Region) : Word :=
  let e := g.element g.agSel.toNat
  BitVec.ofNat 64 (match faultedPort e with
    | none => 0
    | some p => match (e.ag p).fault with
      | none => 0
      | some f => f.addr % 2 ^ 57)

/-- R72: a codebook width as SQ_CBSTAT codes it. -/
def widthCode (w : Nat) : Nat := if w = 4 then 1 else if w = 8 then 2 else 0

/-- R72: SQ_CBSTAT. -/
def cbStat (s : State) (g : Region) : Word :=
  let slot := g.cbslot.toNat
  let p := mapGet Codebook.none (s.part g.part).books slot
  let c := mapGet Codebook.none g.books slot
  BitVec.ofNat 64 (p.gen * 2 ^ 40 + c.gen * 2 ^ 16 + widthCode p.width * 2 ^ 8 + widthCode c.width * 2 ^ 6 + slot)

/-- R146: the latencies by class. -/
def latTable : List Nat := [1, 2, 1, 2, 4, 8, 3, 6, 6, 3, 1, 2, 1, 1, 0, 2]

/-- R147: SQ_LATn. -/
def latReg (n : Nat) : Word := BitVec.ofNat 64 (latTable.getD n 0 + 1 * 2 ^ 8)

/-- R271: ST_WIN. -/
def winReg (t : Task) : Word := BitVec.ofNat 64 ((t.base - t.low) * 2 ^ 33 + (t.base - t.base0) % 2 ^ 32)

/-- R384: HEALTH as a level reads it. -/
def healthReg (s : State) : Word :=
  BitVec.ofNat 64 ((if s.me.level = .h then s.health.hbase.toNat * 2 ^ 28 else 0) + healthLow s.health)

/-- R208: LK_SLOTSEL of a port. -/
def Port.slotsel (p : Port) : Word :=
  BitVec.ofNat 64 ((if p.bad then 2 ^ 63 else 0) + (if p.pend then 2 ^ 62 else 0) + (if p.en then 2 ^ 61 else 0) +
    p.mapBase.toNat * 2 ^ 17)

/-- The registers of a region's sequencer. -/
def csrSeqGet (s : State) (r n : Nat) : Word :=
  let g := s.region r
  match n with
  | 0x010 => g.costsel
  | 0x030 => elFflags g
  | 0x031 => g.oor
  | 0x032 => g.oorloc.setWidth 64
  | 0x033 => elAgfault s r
  | 0x034 => elAgfaddr g
  | 0x035 => g.stallwd.setWidth 64
  | 0x050 => g.busymap
  | 0x051 => g.busypos.setWidth 64
  | 0x052 => g.dirtylog
  | 0x053 => g.dirtypos.setWidth 64
  | 0x054 => cbStat s g
  | 0x055 => g.tokcnt.setWidth 64
  | 0x056 => g.pfxcoll.setWidth 64
  | 0x057 => g.evep.setWidth 64
  | 0x100 => g.ctxNext.getD g.ctx
  | _ => 0

/-- The registers of a steward core. -/
def csrStewGet (s : State) (x : Steward) (n : Nat) : Word :=
  match n with
  | 0x100 => x.ctx
  | 0x108 => if partState s x.part = 2 then 1 else 0
  | 0x200 => s.frametab
  | 0x220 => x.hcause
  | 0x221 => x.hpc
  | 0x222 => x.hval
  | 0x223 => x.hscr
  | 0x224 => x.hvec
  | _ => 0

/-- The registers of a partition. -/
def csrPartGet (p : Partition) (n : Nat) : Word :=
  match n with
  | 0x101 => p.cap.setWidth 64
  | 0x102 => p.fenceto.setWidth 64
  | 0x103 => p.ppwait.setWidth 64
  | 0x104 => p.ctrbase
  | 0x105 => p.epbase
  | 0x106 => p.hmbx
  | 0x107 => p.grantva
  | 0x110 => p.kvec
  | 0x111 => p.kctx
  | _ => 0

/-- The registers of a task. -/
def csrTaskGet (t : Task) (n : Nat) : Word :=
  match n with
  | 0x020 => t.fflags.setWidth 64
  | 0x021 => t.fflags.setWidth 64
  | 0x022 => t.tstat
  | 0x023 => t.tstat
  | 0x024 => t.tags
  | 0x025 => t.tagc
  | 0x026 => t.oor
  | 0x027 => t.efault
  | 0x028 => t.efaddr
  | 0x029 => winReg t
  | 0x120 => t.kcause
  | 0x121 => t.kpc
  | 0x122 => t.kval
  | 0x123 => t.kscr
  | 0x124 => t.kcause
  | 0x125 => t.kpc
  | 0x126 => t.kval
  | 0x127 => t.kscr
  | _ => 0

/-- Where a register lives. -/
inductive CsrHome where
  | task
  | core
  | part
  | other
  deriving DecidableEq, Repr

def csrHome (n : Nat) : CsrHome :=
  if (0x020 ≤ n && n ≤ 0x029) || (0x120 ≤ n && n ≤ 0x127) then .task
  else if (0x101 ≤ n && n ≤ 0x107) || n = 0x110 || n = 0x111 then .part
  else if n = 0 || (0x008 ≤ n && n ≤ 0x00F) || (0x040 ≤ n && n ≤ 0x04F) || n ≥ 0x300 then .other
  else .core

/-- What a read of a listed register returns. -/
def csrGet (s : State) (n : Nat) : Word :=
  match csrHome n with
  | .task => csrTaskGet s.me n
  | .part => csrPartGet (s.part (s.partOf s.cur)) n
  | .core => match s.cur with
    | .seq r _ => csrSeqGet s r n
    | .stew c => csrStewGet s (s.stew c) n
  | .other =>
    if n = 0 then BitVec.ofNat 64 (s.agent s.cur)
    else if n ≤ 0x00F then scopeCostReg s (n - 8)
    else if n ≤ 0x04F then latReg (n - 0x40)
    else if n = 0x300 then healthReg s
    else if n % 2 = 0 then (s.port ((n - 0x400) / 2)).slotsel
    else (s.port ((n - 0x400) / 2)).hop.setWidth 64

/-! ### Writes. `rw` is what the RW and WO bits take, `clr` has 1 where a W1C bit is cleared. -/

/-- R18: the scope cap of a partition. -/
def writeCap (s : State) (p : Nat) (cap : BitVec 3) : State := s.setPart p { s.part p with cap := cap }

/-- R91: PT_CTX of a core: at once on a steward core, pending for a region. -/
def writeCtx (s : State) (c : CoreId) (v : Word) : State :=
  match c with
  | .seq r _ => s.setRegion r { s.region r with ctxNext := some (v &&& ctxMask) }
  | .stew x => s.setStew x { s.stew x with ctx := v &&& ctxMask }

/-- R60: EL_FFLAGS: selection, then the flags cleared in the island selected. -/
def writeElFflags (s : State) (r : Nat) (rw clr : Word) : State :=
  let g := { s.region r with fflSel := BitVec.ofNat 8 (nbits rw.toNat 25 18) }
  s.setRegion r (match g.islandOf g.fflSel.toNat with
    | some (k, i) => g.setIsland k (some { i with flags := i.flags &&& ~~~ (clr.setWidth 7) })
    | none => g)

/-- R349: EL_AGFAULT: selection, then RESUME or DISCARD. -/
def writeAgfault (s : State) (r : Nat) (rw : Word) : State :=
  let e := nbits rw.toNat 7 0
  let t := s.setRegion r { s.region r with agSel := BitVec.ofNat 8 e }
  match rw.getLsbD 62, rw.getLsbD 61 with
  | true, false => agAsk t r e 1
  | false, true => agAsk t r e 2
  | _, _ => t

/-- R208: PT_UP. -/
def writeUp (s : State) (p : Nat) (v : Word) : State :=
  if v.getLsbD 0 && partState s p = 1 then setPartState s p 2 0 else s

/-- R208: LK_SLOTSEL of a port; a change of BASE or EN sets PEND. -/
def writeSlotsel (s : State) (p : Nat) (rw clr : Word) : State :=
  let x := s.port p
  let base := BitVec.ofNat 35 (nbits rw.toNat 51 17)
  let en := rw.getLsbD 61
  s.setPort p { x with bad := x.bad && !clr.getLsbD 63, en := en, mapBase := base
                       pend := x.pend || en ≠ x.en || base ≠ x.mapBase }

/-- R199, R384: the stopped clocks restart, unless an alarm holds. -/
def restartClocks (s : State) : State :=
  if s.health.talarm || s.health.ialarm then s else s.setHealth { s.health with crit := false }

/-- R384: HEALTH. -/
def writeHealth (s : State) (rw clr : Word) : State :=
  let base := BitVec.ofNat 36 (nbits rw.toNat 63 28)
  let t0 := { s with health := { s.health with hbase := base } }
  let t := if base = s.health.hbase then t0 else publishHealth t0
  if clr.getLsbD 3 then restartClocks t else t

/-- R271: DEPTH: BASE and LOW move, w0 to w23 are unchanged. -/
def Task.setDepth (t : Task) (d : Nat) : Task :=
  let base := t.base0 + d
  let u := (upTo 24).foldl (fun x i => Task.setAbs x (base + i) (t.abs (t.base + i))) t
  { u with base := base, low := base }

/-- R271: FLUSH: every held register below w0 is spilled; a fault keeps the spills made. -/
def flushWindow : Nat → State → Acc Unit × State
  | 0, s => (.ok (), s)
  | f + 1, s =>
    if s.me.low ≥ s.me.base then (.ok (), s)
    else
      match spillStore s with
      | (.ok _, t) => flushWindow f (t.setMe { (t.me.moveWsp 1) with low := t.me.low + 1 })
      | (e, t) => (e, t)

/-- A write of a region's register. -/
def csrSeqPut (s : State) (r n : Nat) (rw clr : Word) : State :=
  let g := s.region r
  match n with
  | 0x010 => s.setRegion r { g with costsel := rw &&& fieldMask 10 0 }
  | 0x030 => writeElFflags s r rw clr
  | 0x031 => s.setRegion r { g with oor := dropValid g.oor clr }
  | 0x033 => writeAgfault s r rw
  | 0x035 => s.setRegion r { g with stallwd := rw.setWidth 32 }
  | 0x050 => s.setRegion r { g with busymap := logWrite g.busymap rw clr }
  | 0x051 => s.setRegion r { g with busypos := rw.setWidth 32 }
  | 0x052 => s.setRegion r { g with dirtylog := logWrite g.dirtylog rw clr }
  | 0x053 => s.setRegion r { g with dirtypos := rw.setWidth 32 }
  | 0x054 => s.setRegion r { g with cbslot := rw.setWidth 3 }
  | 0x055 => s.setRegion r { g with tokcnt := rw.setWidth 32 }
  | 0x056 => s.setRegion r { g with pfxcoll := rw.setWidth 32 }
  | 0x057 => s.setRegion r { g with evep := rw.setWidth 12 }
  | 0x100 => writeCtx s s.cur rw
  | _ => s

/-- A write of a steward core's register. -/
def csrStewPut (s : State) (c n : Nat) (rw : Word) : State :=
  let x := s.stew c
  match n with
  | 0x100 => writeCtx s s.cur rw
  | 0x108 => writeUp s x.part rw
  | 0x200 => { s with frametab := rw &&& fieldMask 51 12 }
  | 0x220 => s.setStew c { x with hcause := rw &&& causeMask }
  | 0x221 => s.setStew c { x with hpc := rw }
  | 0x222 => s.setStew c { x with hval := rw }
  | 0x223 => s.setStew c { x with hscr := rw }
  | 0x224 => s.setStew c { x with hvec := rw &&& fieldMask 51 2 }
  | _ => s

/-- A write of a partition's register. -/
def csrPartPut (p : Partition) (n : Nat) (rw : Word) : Partition :=
  match n with
  | 0x101 => { p with cap := rw.setWidth 3 }
  | 0x102 => { p with fenceto := rw.setWidth 32 }
  | 0x103 => { p with ppwait := rw.setWidth 32 }
  | 0x104 => { p with ctrbase := rw &&& fieldMask 51 15 }
  | 0x105 => { p with epbase := rw &&& fieldMask 56 16 }
  | 0x106 => { p with hmbx := rw &&& fieldMask 51 14 }
  | 0x107 => { p with grantva := rw &&& fieldMask 56 12 }
  | 0x110 => { p with kvec := rw &&& fieldMask 56 2 }
  | 0x111 => { p with kctx := rw &&& ctxMask }
  | _ => p

/-- R224: a write of the task status register. -/
def Task.putTstat (t : Task) (rw clr : Word) : Task :=
  { t with wsp := BitVec.ofNat 54 (nbits rw.toNat 63 10), capped := t.capped && !clr.getLsbD 0 }

/-- A write of a task's register; ST_WIN is written by `writeWin`. -/
def csrTaskPut (t : Task) (n : Nat) (rw clr : Word) : Task :=
  match n with
  | 0x020 => { t with fflags := rw.setWidth 7 }
  | 0x021 => { t with fflags := rw.setWidth 7 }
  | 0x022 => t.putTstat rw clr
  | 0x023 => t.putTstat rw clr
  | 0x025 => { t with tagc := t.tagc &&& ~~~ clr }
  | 0x026 => { t with oor := dropValid t.oor clr }
  | 0x027 => { t with efault := dropValid t.efault clr }
  | 0x120 => { t with kcause := rw &&& causeMask }
  | 0x121 => { t with kpc := rw }
  | 0x122 => { t with kval := rw }
  | 0x123 => { t with kscr := rw }
  | 0x124 => { t with kcause := rw &&& causeMask }
  | 0x125 => { t with kpc := rw }
  | 0x126 => { t with kval := rw }
  | 0x127 => { t with kscr := rw }
  | _ => t

/-- A write of a listed register that is not RO. -/
def csrPut (s : State) (n : Nat) (rw clr : Word) : State :=
  match csrHome n with
  | .task => s.setMe (csrTaskPut s.me n rw clr)
  | .part =>
    let p := s.partOf s.cur
    s.setPart p (csrPartPut (s.part p) n rw)
  | .core => match s.cur with
    | .seq r _ => csrSeqPut s r n rw clr
    | .stew c => csrStewPut s c n rw
  | .other =>
    if n = 0x300 then writeHealth s rw clr
    else if n ≥ 0x400 && n % 2 = 0 then writeSlotsel s ((n - 0x400) / 2) rw clr
    else s

/-! ### The four instructions (R229) -/

/-- R206, R207: an access of a register: ILLEGAL for a number or core that has none, PRIV below the read
level or, for a write, below the write level; `go` has the register's row and old value. -/
def csrAccess (i : Instr) (n : Nat) (writes : Bool) (go : CsrSpec → Word → State → State) (s : State) : Out :=
  match csrSpec n with
  | none => .next (s.illegal i)
  | some x =>
    if !csrHere s x then .next (s.illegal i)
    else
      let need := if writes then max x.rd.num ((x.wr.map Level.num).getD 0) else x.rd.num
      if s.me.level.num < need then .next (s.priv i) else .next (go x (csrGet s n) s)

/-- R229: the old value into d, then the write, then the next instruction. ST_WIN may fault, before
any effect but its spills. -/
def csrUpdate (i : Instr) (d : BitVec 5) (n : Nat) (rw : Word → Word) (clr : Word) (x : CsrSpec) (old : Word)
    (s : State) : State :=
  if x.wr = none then s.retire 4 d old 0
  else if n = 0x029 then
    let v := rw old
    match (if v.getLsbD 32 then flushWindow 64 s else (.ok (), s)) with
    | (.ok _, t) => (t.setMe ((t.me.set d old).setDepth (nbits v.toNat 31 0))).advance 4
    | (e, t) => t.fail i e
  else (csrPut (s.setReg d old) n (rw old) clr).advance 4

def execCsrr (d : BitVec 5) (r : BitVec 12) (s : State) : Out :=
  csrAccess (.csrr d r) r.toNat false (fun _ old t => t.retire 4 d old 0) s

def execCsrw (d a : BitVec 5) (r : BitVec 12) (s : State) : Out :=
  csrAccess (.csrw d a r) r.toNat true (csrUpdate (.csrw d a r) d r.toNat (fun _ => s.reg a) (s.reg a)) s

def execCsrs (d a : BitVec 5) (r : BitVec 12) (s : State) : Out :=
  csrAccess (.csrs d a r) r.toNat true
    (csrUpdate (.csrs d a r) d r.toNat (fun old => old ||| s.reg a) (s.reg a)) s

def execCsrc (d a : BitVec 5) (r : BitVec 12) (s : State) : Out :=
  csrAccess (.csrc d a r) r.toNat true
    (csrUpdate (.csrc d a r) d r.toNat (fun old => old &&& ~~~ (s.reg a)) 0) s

/-! ### Writes as steps of their own -/

def execPtScopeMaxWrite (part : Nat) (cap : BitVec 3) (s : State) : Out := .next (writeCap s part cap)

def execPtCtxWrite (c : CoreId) (v : Word) (s : State) : Out := .next (writeCtx s c v)

def execElFflagsWrite (region : Nat) (v : Word) (s : State) : Out := .next (writeElFflags s region v v)

/-- R271: FLUSH on a steward core. -/
def execStWinFlush (chiplet : Nat) (s : State) : Out :=
  let s0 := { s with cur := .stew chiplet }
  match flushWindow 64 s0 with
  | (.ok _, t) => .next t
  | (e, t) => .next (t.fail (.stWinFlush chiplet) e)

def execStWinDepth (chiplet : Nat) (depth : BitVec 32) (s : State) : Out :=
  let s0 := { s with cur := .stew chiplet }
  .next (s0.setMe (s0.me.setDepth depth.toNat))

def execPtUpWrite (part : Nat) (v : Word) (s : State) : Out := .next (writeUp s part v)

def execLkSlotselWrite (port : Nat) (v : Word) (s : State) : Out := .next (writeSlotsel s port v v)

def execHealthCritRestart (s : State) : Out := .next (restartClocks s)

end Sys2Proof.Machine
end

