-- ==== Sys2Proof/Machine/Integer.lean ====
section
/-! DEFINITION. Integer register operations (R225), immediates (R227) and the two-word instructions
(R228). None of them traps (R244). -/

namespace Sys2Proof.Machine

/-- R225: the result of an exact value and its flags, at width W. -/
def intResult (w : Nat) (uns sat : Bool) (r : Int) : Word × Flags :=
  let x := satResult w uns sat r
  (extendTo64 w uns x.1, x.2)

/-- R225: an operation on two registers: f takes the width and the two operands to the exact result. -/
def intOp (d a b : BitVec 5) (uns : Bool) (w : BitVec 2) (sat : Bool) (f : Nat → Int → Int → Int)
    (s : State) : Out :=
  let n := intWidth w
  let r := intResult n uns sat (f n (regInt (s.reg a) n uns) (regInt (s.reg b) n uns))
  .next (s.retire 4 d r.1 r.2)

/-- R225: the count of a shift. -/
def shiftCount (w : Nat) (y : Int) : Nat := (y % (w : Int)).toNat

def execAdd (d a b : BitVec 5) (u : BitVec 1) (w : BitVec 2) (st : BitVec 1) (s : State) : Out :=
  intOp d a b (u = 1) w (st = 1) (fun _ x y => x + y) s

def execSub (d a b : BitVec 5) (u : BitVec 1) (w : BitVec 2) (st : BitVec 1) (s : State) : Out :=
  intOp d a b (u = 1) w (st = 1) (fun _ x y => x - y) s

def execMul (d a b : BitVec 5) (u : BitVec 1) (w : BitVec 2) (st : BitVec 1) (s : State) : Out :=
  intOp d a b (u = 1) w (st = 1) (fun _ x y => x * y) s

/-- R225: floor(x × y / 2^W). -/
def execMulh (d a b : BitVec 5) (u : BitVec 1) (w : BitVec 2) (s : State) : Out :=
  intOp d a b (u = 1) w false (fun n x y => x * y / ((2 ^ n : Nat) : Int)) s

/-- R225: division: truncation toward zero; a zero divisor gives all ones and DZ, never SAT. -/
def divResult (w : Nat) (uns sat : Bool) (x y : Int) : Word × Flags :=
  if y = 0 then (extendTo64 w uns (2 ^ w - 1), fDZ) else intResult w uns sat (x.tdiv y)

def execDiv (d a b : BitVec 5) (u : BitVec 1) (w : BitVec 2) (st : BitVec 1) (s : State) : Out :=
  let n := intWidth w
  let r := divResult n (u = 1) (st = 1) (regInt (s.reg a) n (u = 1)) (regInt (s.reg b) n (u = 1))
  .next (s.retire 4 d r.1 r.2)

/-- R225: remainder; a zero divisor gives x and DZ. -/
def remResult (w : Nat) (uns : Bool) (x y : Int) : Word × Flags :=
  if y = 0 then (extendTo64 w uns (intWrap w x), fDZ) else intResult w uns false (x.tmod y)

def execRem (d a b : BitVec 5) (u : BitVec 1) (w : BitVec 2) (s : State) : Out :=
  let n := intWidth w
  let r := remResult n (u = 1) (regInt (s.reg a) n (u = 1)) (regInt (s.reg b) n (u = 1))
  .next (s.retire 4 d r.1 r.2)

/-- R225: a bitwise operation on the low W bits. -/
def bitOp (d a b : BitVec 5) (u : BitVec 1) (w : BitVec 2) (f : Word → Word → Word) (s : State) : Out :=
  .next (s.retire 4 d (extendTo64 (intWidth w) (u = 1) (f (s.reg a) (s.reg b)).toNat) 0)

def execAnd (d a b : BitVec 5) (u : BitVec 1) (w : BitVec 2) (s : State) : Out :=
  bitOp d a b u w (fun x y => x &&& y) s

def execOr (d a b : BitVec 5) (u : BitVec 1) (w : BitVec 2) (s : State) : Out :=
  bitOp d a b u w (fun x y => x ||| y) s

def execXor (d a b : BitVec 5) (u : BitVec 1) (w : BitVec 2) (s : State) : Out :=
  bitOp d a b u w (fun x y => x ^^^ y) s

def execSll (d a b : BitVec 5) (u : BitVec 1) (w : BitVec 2) (s : State) : Out :=
  intOp d a b (u = 1) w false (fun n x y => x * ((2 ^ shiftCount n y : Nat) : Int)) s

def execSrl (d a b : BitVec 5) (u : BitVec 1) (w : BitVec 2) (s : State) : Out :=
  intOp d a b (u = 1) w false
    (fun n x y => ((intWrap n x : Nat) : Int) / ((2 ^ shiftCount n y : Nat) : Int)) s

def execSra (d a b : BitVec 5) (w : BitVec 2) (s : State) : Out :=
  intOp d a b false w false (fun n x y => x / ((2 ^ shiftCount n y : Nat) : Int)) s

/-- R225: 1 when the condition holds, else 0. -/
def boolWord (c : Bool) : Word := if c then 1 else 0

def execSlt (d a b : BitVec 5) (w : BitVec 2) (s : State) : Out :=
  let n := intWidth w
  .next (s.retire 4 d (boolWord (decide (regInt (s.reg a) n false < regInt (s.reg b) n false))) 0)

def execSltu (d a b : BitVec 5) (w : BitVec 2) (s : State) : Out :=
  let n := intWidth w
  .next (s.retire 4 d (boolWord (decide (regInt (s.reg a) n true < regInt (s.reg b) n true))) 0)

def execMin (d a b : BitVec 5) (u : BitVec 1) (w : BitVec 2) (s : State) : Out :=
  intOp d a b (u = 1) w false (fun _ x y => if y < x then y else x) s

def execMax (d a b : BitVec 5) (u : BitVec 1) (w : BitVec 2) (s : State) : Out :=
  intOp d a b (u = 1) w false (fun _ x y => if x < y then y else x) s

/-! ### Immediates (R227) -/

/-- R227: an operation of a register and an immediate. -/
def immOp (d a : BitVec 5) (f : Word → Word) (s : State) : Out := .next (s.retire 4 d (f (s.reg a)) 0)

def execAddi (d a : BitVec 5) (i : BitVec 15) (s : State) : Out := immOp d a (fun x => x + sextImm i) s
def execAndi (d a : BitVec 5) (i : BitVec 15) (s : State) : Out := immOp d a (fun x => x &&& zextImm i) s
def execOri (d a : BitVec 5) (i : BitVec 15) (s : State) : Out := immOp d a (fun x => x ||| zextImm i) s
def execXori (d a : BitVec 5) (i : BitVec 15) (s : State) : Out := immOp d a (fun x => x ^^^ zextImm i) s
def execSlli (d a : BitVec 5) (c : BitVec 6) (s : State) : Out := immOp d a (fun x => x <<< c.toNat) s
def execSrli (d a : BitVec 5) (c : BitVec 6) (s : State) : Out := immOp d a (fun x => x >>> c.toNat) s
def execSrai (d a : BitVec 5) (c : BitVec 6) (s : State) : Out := immOp d a (fun x => x.sshiftRight c.toNat) s
def execSlti (d a : BitVec 5) (i : BitVec 15) (s : State) : Out :=
  immOp d a (fun x => boolWord (x.slt (sextImm i))) s
def execSltiu (d a : BitVec 5) (i : BitVec 15) (s : State) : Out :=
  immOp d a (fun x => boolWord (x.ult (sextImm i))) s

/-! ### Two-word instructions (R228) -/

def execLi (d : BitVec 5) (imm : BitVec 32) (s : State) : Out := .next (s.retire 8 d (sextImm imm) 0)

/-- R228: the high half of d; d[31:0] is unchanged. -/
def execLih (d : BitVec 5) (imm : BitVec 32) (s : State) : Out :=
  .next (s.retire 8 d (imm ++ (s.reg d).setWidth 32) 0)

def execAddil (d a : BitVec 5) (imm : BitVec 32) (s : State) : Out :=
  .next (s.retire 8 d (s.reg a + sextImm imm) 0)

end Sys2Proof.Machine
end

