-- ==== Sys2Proof/Machine/System.lean ====
section
/-! DEFINITION. System instructions: traps and calls (R282), the return from a trap (R343),
asynchronous causes (R343), illegal words and failed fetches (R200, R206), translation and
instruction-cache maintenance (R283, R284), frames (R107, R108, R285), the snapshot trigger (R281) and
the sources that fire it (R394). -/

namespace Sys2Proof.Machine

def execTret (s : State) : Out := .next s.tret

/-- R282: the software trap n to K; the record holds the next instruction. -/
def execTrap (n : BitVec 15) (s : State) : Out :=
  .next (s.take { code := tcTRAP, info := n.toNat, pc := s.me.pc + 4, val := 0 } false)

/-- R282: the hypervisor call n to H, on a steward core at K or above. -/
def execHcall (n : BitVec 15) (s : State) : Out :=
  .next (onSteward s (.hcall n) fun _ => atLevel s (.hcall n) .k
    (s.take { code := tcHCALL, info := n.toNat, pc := s.me.pc + 4, val := 0 } true))

/-- The pending asynchronous cause with the lowest code (R343). -/
def firstCause : List (Nat × Word) → Option (Nat × Word)
  | [] => none
  | x :: r => match firstCause r with
    | none => some x
    | some y => if y.1 < x.1 then some y else some x

/-- R343: whether a steward core is between two instructions: it issues, or it is held in a wait that
a trap may interrupt. -/
def betweenInstructions (t : Task) : Bool :=
  match t.hold with
  | .ready => true
  | .wait _ => true
  | .changed _ => true
  | .counted _ _ => true
  | _ => false

/-- R343: a pending cause is taken to H while the H record is not LIVE. -/
def execAsyncTrapTake (c : Nat) (s : State) : Out :=
  let x := s.stew c
  match firstCause x.pending with
  | none => .next s
  | some p =>
    if isLive x.hcause || !betweenInstructions x.task then .next s
    else
      let t := s.setStew c { x with pending := x.pending.erase p }
      .next (takeH t c { code := p.1, info := 0, pc := x.task.pc, val := p.2 })

/-- R206: a word that is no instruction. -/
def execIllegalEncoding (w : BitVec 32) (s : State) : Out := .next (s.trap tcILLEGAL 0 (zextImm w))

/-- The instruction that a failed fetch stands for. -/
def fetchInstrFault (va : Word) : Instr := .fetchFault va

/-! ### Instruction caches (R88, R284) -/

/-- R88: lines of an instruction cache of 8 KiB. -/
def icacheLines : Nat := 128

def State.icache (s : State) (k : Nat) : List ILine := mapGet [] s.icaches k
def State.setIcache (s : State) (k : Nat) (l : List ILine) : State := { s with icaches := mapSet [] s.icaches k l }

/-- R359: whether every unit of a line can be read. -/
def lineGood (s : State) (line : Nat) : Bool :=
  (upTo 8).all fun k => !mapGet false s.poison (unitOf s (line + 8 * k)).1 &&
    !mapGet false s.poison (cacheUnit (line + 8 * k))

/-- R88: a line that the cache holds for a partition. -/
def lineHit (s : State) (k part line : Nat) : Option ILine :=
  (s.icache k).find? fun x => x.part = part && x.pa = line

/-- R88: a line held by an instruction cache, which stores do not change; when the bytes at its address differ,
whether the line has left the cache since is left open (notes/assumptions/8.md). -/
def staleLine (s : State) (x : ILine) : Option ILine × State :=
  if x.bytes = s.bytes x.pa 64 then (some x, s)
  else
    let (n, t) := s.takeFree
    (if n % 2 = 1 then some x else none, t)

/-- A line fetched from the L2 or beyond, and held from then on when all of it is good (R359). -/
def fillLine (s : State) (k part va line : Nat) : State :=
  if lineGood s line then
    s.setIcache k (lruPut icacheLines ((s.icache k).filter fun x => !(x.part = part && x.pa = line))
      { part := part, va := va / 64 * 64, pa := line, bytes := s.bytes line 64 })
  else s

/-- The four bytes of an instruction word in a line. -/
def wordOfLine (x : ILine) (pa : Nat) : List Byte := (x.bytes.drop (pa % 64)).take 4

/-- R358, R359, R389: a line of an instruction cache is read: an error of its unit at an address is corrected, is
transient, or disables the way of the line, which is then no longer held. -/
def readLine (s : State) (k pa : Nat) (x : ILine) : Option ILine × State :=
  match mapGet 0 s.bad (coreUnit pa) with
  | 0 => (some x, s)
  | 1 => (some x, countTransient { s with bad := mapSet 0 s.bad (coreUnit pa) 0 } 2 none)
  | 3 => (some x, countCorrected { s with bad := mapSet 0 s.bad (coreUnit pa) 0 } 2 none)
  | _ => (none, wayOff (s.setIcache k ((s.icache k).filter (· ≠ x))) pa (coreUnit pa))

/-- R88, R200: an instruction word whose home can be reached, from the cache of the core or through it. -/
def fetchLine (s : State) (x : XCtx) (p : Piece) : Acc (List Byte) × State :=
  let a := canonPa s.pkg.toNat p.pa
  let k := x.walker
  let chip := agentChiplet x.agent
  let miss (t : State) : Acc (List Byte) × State :=
    match readUnits t chip a 4 with
    | (true, u) => (.memerr 0 p.va, u)
    | (false, u) => (.ok (u.bytes a 4), fillLine u k x.part p.va (a / 64 * 64))
  match lineHit s k x.part (a / 64 * 64) with
  | none => miss s
  | some l => match staleLine s l with
    | (none, t) => miss t
    | (some y, t) => match readLine t k a y with
      | (none, u) => miss u
      | (some z, u) => (.ok (wordOfLine z a), u.setIcache k (lruPut icacheLines (u.icache k) z))

/-- R200, R235: the instruction word at an address of the current task. -/
def fetchWord (s : State) (va : Nat) : Acc (List Byte) × State :=
  match s.cur, isRsm va with
  | .seq _ _, true => (.xlate (xcode 5 0 .fetch) va, s)
  | _, _ =>
    let x := coreCtx s s.cur
    match xlate s x va .fetch false with
    | (.ok pa leaf, t) =>
      let p : Piece := { pa := pa, n := 4, va := va, leaf := leaf }
      if pieceHole t p then (.ok [0, 0, 0, 0], t.oorMe 3 false (some va))
      else if pieceLost t x.part p then (.unreach (routeDead t pa) va, t)
      else fetchLine t x p
    | (r, t) => ((r.acc va []).failed [], t)

/-- R200, R203: a fetch that fails traps at the instruction's address. -/
def execFetchFault (va : Word) (s : State) : Out :=
  if va.toNat % 4 ≠ 0 then .next (s.trap tcALIGN 0 va)
  else
    match fetchWord s va.toNat with
    | (.ok bs, t) =>
      if !isLong (leToNat bs) then .next t
      else
        match fetchWord t (va + 4).toNat with
        | (.ok _, u) => .next u
        | (e, u) => .next (u.fail (fetchInstrFault va) e)
    | (e, t) => .next (t.fail (fetchInstrFault va) e)

/-! ### Translation caches (R283) and instruction caches (R284) -/

/-- A table without the entries of each list that match. -/
def dropEntries {α : Type} (m : Map (List α)) (hit : α → Bool) : Map (List α) :=
  (m.map fun e => (e.1, e.2.filter fun x => !hit x)).filter fun e => !e.2.isEmpty

/-- R283: the TLB and walk-cache entries that match leave every cache. -/
def State.tlbi (s : State) (tl : Tlb → Bool) (wk : WalkEntry → Bool) : State :=
  { s with tlbs := dropEntries s.tlbs tl, walks := dropEntries s.walks wk }

/-- Whether a cached translation covers a virtual address. -/
def tlbCovers (t : Tlb) (va : Nat) : Bool :=
  decide (t.vpn ≤ va % 2 ^ 57 / 4096) && decide (va % 2 ^ 57 / 4096 < t.vpn + t.pages)

def walkCovers (w : WalkEntry) (va : Nat) : Bool := w.vpre = prefixOf (va % 2 ^ 57) w.level

def execTlbiPage (a b : BitVec 5) (s : State) : Out :=
  let p := s.partOf s.cur
  let va := (s.reg a).toNat
  let cid := (s.reg b).toNat % 4096
  .next (atLevel s (.tlbiPage a b) .k ((s.tlbi
    (fun t => t.part = p && (t.cid = none || t.cid = some cid) && tlbCovers t va)
    (fun w => w.part = p && w.cid = cid && walkCovers w va)).advance 4))

def execTlbiPageall (a b : BitVec 5) (s : State) : Out :=
  let p := s.partOf s.cur
  let va := (s.reg a).toNat
  .next (atLevel s (.tlbiPageall a b) .k ((s.tlbi
    (fun t => t.part = p && tlbCovers t va) (fun w => w.part = p && walkCovers w va)).advance 4))

def execTlbiCid (a b : BitVec 5) (s : State) : Out :=
  let p := s.partOf s.cur
  let cid := (s.reg b).toNat % 4096
  .next (atLevel s (.tlbiCid a b) .k ((s.tlbi
    (fun t => t.part = p && t.cid = some cid) (fun w => w.part = p && w.cid = cid)).advance 4))

def execTlbiAll (a b : BitVec 5) (s : State) : Out :=
  let p := s.partOf s.cur
  .next (atLevel s (.tlbiAll a b) .k ((s.tlbi (fun t => t.part = p) (fun w => w.part = p)).advance 4))

/-- R284: the lines for a partition that match leave every instruction cache of the package. -/
def State.dropLines (s : State) (part : Nat) (hit : ILine → Bool) : State :=
  { s with icaches := dropEntries s.icaches fun x => x.part = part && hit x }

/-- R284: the physical line of an address of the current task, if it has one. -/
def lineBase (s : State) (va : Nat) : Option Nat :=
  match xlate s (coreCtx s s.cur) va .fetch false with
  | (.ok pa _, _) => some (canonPa s.pkg.toNat pa / 64 * 64)
  | _ => none

/-- R284: the line that holds a, by its virtual and by its physical address. -/
def execIcinv (a : BitVec 5) (s : State) : Out :=
  let va := (s.reg a).toNat
  .next ((s.dropLines (s.partOf s.cur) fun x => x.va = va / 64 * 64 || some x.pa = lineBase s va).advance 4)

def execIcinvAll (_ : BitVec 5) (s : State) : Out :=
  .next ((s.dropLines (s.partOf s.cur) fun _ => true).advance 4)

/-! ### Frames (R107, R108, R285) -/

/-- R285: the frame-table byte of a frame operand; none gives BADADDR. -/
def frameOperand (s : State) (pa : Nat) : Option Nat :=
  if pa % 4096 ≠ 0 || decide (pa ≥ 2 ^ 48) then none else frameByteAddr s pa

/-- R105: STATE of a frame-table byte. -/
def frameState (b : Byte) : Nat := b.toNat / 64

/-- R107, R361: a frame instruction reads the frame's byte; a poisoned unit there is MEMERR. -/
def frameByte (s : State) (i : Instr) (x : Nat) (go : State → State) : State :=
  match readUnits s (agentChiplet (s.agent s.cur)) x 1 with
  | (true, t) => t.fail i (.memerr 0 x : Acc Unit)
  | (false, t) => go t

def execFramemap (d a b : BitVec 5) (s : State) : Out :=
  let i := Instr.framemap d a b
  .next (onSteward s i fun _ => atLevel s i .h (
    match frameOperand s (s.reg a).toNat with
    | none => s.status d stBADADDR 0
    | some x =>
      if (s.reg b).toNat > 63 then s.status d stBADHANDLE 0
      else frameByte s i x fun u =>
        if frameState (u.byte x) ≠ 0 then u.status d stNOTFREE 0
        else (u.write x [BitVec.ofNat 8 (64 + (u.reg b).toNat)]).status d stOK 0))

def execFramefree (d a b : BitVec 5) (s : State) : Out :=
  let i := Instr.framefree d a b
  .next (onSteward s i fun _ => atLevel s i .h (
    let pa := (s.reg a).toNat
    match frameOperand s pa with
    | none => s.status d stBADADDR 0
    | some x => frameByte s i x fun u =>
      if frameState (u.byte x) ≠ 1 then u.status d stNOTMAPPED 0
      else
        let t := u.write x [BitVec.ofNat 8 (128 + (u.byte x).toNat % 64)]
        { t with scrubs := t.scrubs ++ [pa] }.status d stOK 0))

/-- Whether a cached translation maps a frame (R108), through whichever window. -/
def tlbMaps (own : Nat) (t : Tlb) (pfn : Nat) : Bool :=
  let p := canonPa own (t.pfn * 4096) / 4096
  decide (p ≤ pfn) && decide (pfn < p + t.pages)

/-- Whether a walk-cache entry points into a frame (R108). -/
def walkMaps (own : Nat) (w : WalkEntry) (pfn : Nat) : Bool := canonPa own (w.pfn * 4096) / 4096 = pfn

/-- R388: whether the bank of a DRAM address has one of its 8 spare rows left. -/
def spareRowLeft (s : State) (pa : Nat) : Bool := decide (mapGet 0 s.spareRows (Config.dramBank pa) < 8)

/-- R388: whether a key stands for a unit of the DRAM row that holds an address. -/
def inRow (s : State) (pa u : Nat) : Bool :=
  match s.place u with
  | .dram _ => Config.dramRow u = Config.dramRow pa
  | _ => false

/-- R388, R359: the controller copies a row: it reads the units in which it finds an error, and carries the mark of
each that fails. -/
def copySpare (s : State) (pa : Nat) : State :=
  s.bad.foldl (fun t b => if inRow s pa b.1 then (readHome t b.1).2 else t) s

/-- R388: the row of a DRAM unit that failed for good is served from a spare one of its bank, all its failing units at
once, or its units stay poisoned. -/
def retireRow (s0 : State) (pa : Nat) : State :=
  let s1 := copySpare s0 pa
  let s := { s1 with rowWork := s1.rowWork.filter fun u => !inRow s1 pa u }
  let k := Config.dramBank pa
  if spareRowLeft s pa then
    retireRecord { s with spareRows := mapSet 0 s.spareRows k (mapGet 0 s.spareRows k + 1) } 5 (2 ^ 44) pa false
  else retireRecord s 5 (2 ^ 45) pa false

/-- R365, R388, R389: a write of the scrub engine that fails for good: the row or the unit is retired; a failing CSP
unit, and a DRAM unit without a spare row, is poisoned. -/
def scrubFailed (s : State) (pa : Nat) : State :=
  let bad (t : State) : State := { t with poison := mapSet false t.poison (unitOf s (canonPa s.pkg.toNat pa)).1 true }
  match s.place pa with
  | .dram _ => retireRow (if spareRowLeft s pa then s else bad s) pa
  | _ => retireRecord (bad s) 6 0 pa false

/-- Whether a store to a frame is on its way (R108 step 2). -/
def frameBusy (s : State) (pa : Nat) : Bool :=
  s.stores.any fun p => p.cells.any fun c => c.1 / 4096 = canonPa s.pkg.toNat pa / 4096

/-- R108, R365: the scrub engine finishes a frame whose byte is Scrubbing, once every access already translated to
it has performed; a frame whose byte in the table fails is given up (DESIGN CHOICE, notes/assumptions/42.md). -/
def execScrubComplete (pa : Nat) (lasting : Bool) (s : State) : Out :=
  let s0 := { s with scrubs := s.scrubs.erase pa }
  match frameOperand s pa with
  | none => .next s0
  | some x =>
    let (lost, v) := readFrameByte s0 (homeChiplet s pa) pa
    if lost || frameState (s.byte x) ≠ 2 then .next v
    else if frameBusy s pa then .next s
    else
      let pfn := canonPa s.pkg.toNat pa / 4096
      let s1 := v.tlbi (fun t => tlbMaps s.pkg.toNat t pfn) (fun w => walkMaps s.pkg.toNat w pfn)
      let s2 := { s1.write pa (List.replicate 4096 0) with
        icaches := dropEntries s1.icaches fun l => l.pa / 4096 = pfn }
      let s3 := s2.write x [BitVec.ofNat 8 ((if lasting then 192 else 0) + (s.byte x).toNat % 64)]
      .next (if lasting then scrubFailed s3 (canonPa s.pkg.toNat pa) else s3)

/-- R388: the row of a DRAM unit that failed for good is remapped: with a spare row, if one is left, its readable
units are copied; the failing units keep their marks. `spare` says which of the two the controller finds. -/
def execDramRowRemap (pa : Nat) (spare : Bool) (s : State) : Out :=
  let u := canonPa s.pkg.toNat pa / 64 * 64
  if s.rowWork.contains u && spare = spareRowLeft s u then
    .next (retireRow s u)
  else .next s

/-! ### Snapshots (R281, R393 to R395) -/

/-- R281: snap fires source 1; the core goes on. -/
def execSnap (s : State) : Out := .next (atLevel s .snap .k ((fireSnapshot s 1).advance 4))

/-- R394: source 6, when the package tick reaches MATCH. -/
def execSnapshotTickMatch (s : State) : Out :=
  match healthBase s with
  | none => .next s
  | some b => if s.word (b + 0x108) = s.tick then .next (fireSnapshot s 6) else .next s

/-- R394: source 7. -/
def execSnapshotPin (s : State) : Out := .next (fireSnapshot s 7)

end Sys2Proof.Machine
end

