-- ==== Sys2Proof/Machine/Fetch.lean ====
section
/-! DEFINITION. Fetching an instruction (R200, R203). -/

namespace Sys2Proof.Machine

/-- The instruction of a fetched word, or the word that is none (R206). -/
def instrOfWord (w : Nat) : Instr :=
  match decodeS w with
  | .ok i => i
  | .error _ => .illegalEncoding (BitVec.ofNat 32 w)

/-- R200, R203, R206: what the current core fetches at its pc: an instruction, an illegal word, or a
fetch that fails, with the state after the accesses of the fetch. -/
def fetchInstr (s : State) : Instr × State :=
  let pc := s.me.pc
  if pc.toNat % 4 ≠ 0 then (.fetchFault pc, s)
  else
    match fetchWord s pc.toNat with
    | (.ok bs, t) =>
      if !isLong (leToNat bs) then (instrOfWord (leToNat bs), t)
      else
        match fetchWord t (pc + 4).toNat with
        | (.ok bs2, u) => (instrOfWord (leToNat bs + leToNat bs2 * 2 ^ 32), u)
        | _ => (.fetchFault pc, s)
    | _ => (.fetchFault pc, s)

end Sys2Proof.Machine
end

