-- ==== Sys2Proof/Machine/Codec.lean ====
section
/-! DEFINITION. How the parts of State that the state-save chain shifts out stand as bytes in a record of a
save area (R35, R36): the spec gives each record's place, size and contents, and the order within it is the
model's (DESIGN CHOICE, notes/assumptions/31.md). -/

namespace Sys2Proof.Machine

/-! ### Codecs -/

/-- Bytes of a value, and the value that bytes begin with, with the bytes after it. -/
structure Codec (α : Type) where
  enc : α → List Byte
  dec : List Byte → α × List Byte

/-- Seven bits a byte, low ones first; all bytes but the last have bit 7. -/
def varint : Nat → Nat → List Byte
  | 0, n => [BitVec.ofNat 8 n]
  | f + 1, n => if n < 128 then [BitVec.ofNat 8 n] else BitVec.ofNat 8 (n % 128 + 128) :: varint f (n / 128)

def unvarint : List Byte → Nat × List Byte
  | [] => (0, [])
  | b :: r => if b.toNat < 128 then (b.toNat, r)
    else let x := unvarint r
      (b.toNat - 128 + 128 * x.1, x.2)

def Codec.nat : Codec Nat := { enc := fun n => varint n.log2 n, dec := unvarint }

/-- A bit vector in whole bytes. -/
def Codec.bv (n : Nat) : Codec (BitVec n) :=
  { enc := fun x => natToLe x.toNat ((n + 7) / 8)
    dec := fun l => (BitVec.ofNat n (leToNat (l.take ((n + 7) / 8))), l.drop ((n + 7) / 8)) }

/-- A codec for what a pair of functions turns into a type that has one. -/
def Codec.conv {α β : Type} (c : Codec α) (f : α → β) (g : β → α) : Codec β :=
  { enc := fun y => c.enc (g y)
    dec := fun l => (f (c.dec l).1, (c.dec l).2) }

def Codec.pair {α β : Type} (a : Codec α) (b : Codec β) : Codec (α × β) :=
  { enc := fun x => a.enc x.1 ++ b.enc x.2
    dec := fun l => (((a.dec l).1, (b.dec (a.dec l).2).1), (b.dec (a.dec l).2).2) }

/-- A decoding with its value turned into another. -/
def decAs {α β : Type} (c : Codec α) (f : α → β) (l : List Byte) : β × List Byte := (f (c.dec l).1, (c.dec l).2)

/-- n values in turn, as far as there are bytes. -/
def decMany {α : Type} (dec : List Byte → α × List Byte) : Nat → List Byte → List α × List Byte
  | 0, l => ([], l)
  | _ + 1, [] => ([], [])
  | n + 1, b :: l =>
    let x := dec (b :: l)
    let y := decMany dec n x.2
    (x.1 :: y.1, y.2)

def Codec.list {α : Type} (c : Codec α) : Codec (List α) :=
  { enc := fun l => Codec.nat.enc l.length ++ l.flatMap c.enc
    dec := fun l => decMany c.dec (Codec.nat.dec l).1 (Codec.nat.dec l).2 }

def Codec.bool : Codec Bool := Codec.nat.conv (fun n => n = 1) (fun b => if b then 1 else 0)

def Codec.opt {α : Type} (c : Codec α) : Codec (Option α) := c.list.conv List.head? Option.toList

/-- A value that mostly is z. -/
def Codec.orZero {α : Type} [DecidableEq α] (z : α) (c : Codec α) : Codec α :=
  c.opt.conv (fun o => o.getD z) (fun x => if x = z then none else some x)

def Codec.map {α : Type} (c : Codec α) : Codec (Map α) := (Codec.nat.pair c).list

/-- Integers: the even numbers for those from 0 up. -/
def Codec.int : Codec Int :=
  Codec.nat.conv (fun n => if n % 2 = 0 then ((n / 2 : Nat) : Int) else -((n / 2 + 1 : Nat) : Int))
    (fun i => if 0 ≤ i then 2 * i.toNat else 2 * (-i).toNat - 1)

def Codec.bytes : Codec (List Byte) := (Codec.bv 8).list
def Codec.word : Codec Word := Codec.bv 64
def Codec.two : Codec (Nat × Nat) := Codec.nat.pair Codec.nat
def Codec.flags : Codec Flags := Codec.bv 7

/-- One byte says which of two codecs wrote a value: the first, for the values that it can hold, or the second. -/
def Codec.either {α : Type} (p : α → Bool) (a b : Codec α) : Codec α :=
  { enc := fun x => if p x then 0#8 :: a.enc x else 1#8 :: b.enc x
    dec := fun l => match l with
      | [] => a.dec []
      | h :: t => if h = 0 then a.dec t else b.dec t }

/-- Numbers that fit into k bytes each, or any others. -/
def Codec.words (k : Nat) : Codec (List Nat) :=
  Codec.either (fun l => l.all fun n => decide (n < 2 ^ (8 * k)))
    ((Codec.bv (8 * k)).list.conv (List.map BitVec.toNat) (List.map (BitVec.ofNat (8 * k)))) Codec.nat.list

/-- The map of a list's values at the keys from 0 up. -/
def mapOfList {α : Type} [DecidableEq α] (z : α) (l : List α) : Map α :=
  (numbered l).foldl (fun m x => mapSet z m x.1 x.2) []

/-- A map with keys below n, value by value, or any other map. -/
def Codec.table {α : Type} [DecidableEq α] (n : Nat) (z : α) (c : Codec α) : Codec (Map α) :=
  let values (m : Map α) : List α := (upTo n).map (mapGet z m)
  Codec.either (fun m => mapOfList z (values m) = m)
    { enc := fun m => (values m).flatMap c.enc
      dec := fun l => (mapOfList z (decMany c.dec n l).1, (decMany c.dec n l).2) } c.map

/-- Numbers as the differences from the ones before, and back. -/
def deltas : Nat → List Nat → List Int
  | _, [] => []
  | p, n :: l => ((n : Int) - p) :: deltas n l

def undeltas : Nat → List Int → List Nat
  | _, [] => []
  | p, d :: l => ((p : Int) + d).toNat :: undeltas ((p : Int) + d).toNat l

/-- Numbers that lie close to each other. -/
def Codec.close : Codec (List Nat) := Codec.int.list.conv (undeltas 0) (deltas 0)

/-! ### Streams and queues -/

def Codec.sword : Codec SWord :=
  ((Codec.bv 512).pair ((Codec.bv 16).pair Codec.bool)).conv (fun x => ⟨x.1, x.2.1, x.2.2⟩)
    (fun w => (w.data, w.valid, w.last))

def Codec.qentry : Codec QEntry :=
  (Codec.bytes.pair ((Codec.bv 16).pair (Codec.nat.pair (Codec.nat.opt.pair (Codec.bool.pair (Codec.two.opt.pair
    (Codec.nat.pair (Codec.nat.pair Codec.bool)))))))).conv
    (fun (a, b, c, d, e, f, g, h, i) => ⟨a, b, c, d, e, f, g, h, i⟩)
    (fun q => (q.bytes, q.token, q.index, q.addr, q.landed, q.block, q.size, q.born, q.closed))

def Codec.agFault : Codec AgFault :=
  (Codec.two.pair Codec.two).conv (fun ((a, b), c, d) => ⟨a, b, c, d⟩)
    (fun f => ((f.kind, f.code), f.word, f.addr))

/-- What a queue word's first byte says: landed, closed, an address, a block, 64 bytes, every lane valid; and its
size. -/
def QEntry.head (q : QEntry) : Nat :=
  let bit (b : Bool) (k : Nat) : Nat := if b then 2 ^ k else 0
  bit q.landed 0 + bit q.closed 1 + bit q.addr.isSome 2 + bit q.block.isSome 3 + bit (q.bytes.length = 64) 4 +
    bit (q.token = -1) 5 + 2 ^ 6 * q.size

/-- A queue word after another: the numbers that mostly follow on from it as differences. -/
def queueWordEnc (p q : QEntry) : List Byte :=
  Codec.nat.enc q.head ++ (match q.addr with
    | none => []
    | some a => Codec.int.enc ((a : Int) - p.addr.getD 0)) ++ (match q.block with
    | none => []
    | some b => Codec.two.enc b) ++ (if q.bytes.length = 64 then q.bytes.flatMap (Codec.bv 8).enc else Codec.bytes.enc q.bytes) ++
    (if q.token = -1 then [] else (Codec.bv 16).enc q.token) ++ Codec.int.enc ((q.index : Int) - p.index) ++
    Codec.int.enc ((q.born : Int) - p.born)

def queueWordDec (p : QEntry) (l : List Byte) : QEntry × List Byte :=
  let h := Codec.nat.dec l
  let a := if nbit h.1 2 then decAs Codec.int (fun d => some ((p.addr.getD 0 : Int) + d).toNat) h.2 else (none, h.2)
  let b := if nbit h.1 3 then decAs Codec.two some a.2 else (none, a.2)
  let d := if nbit h.1 4 then decMany (Codec.bv 8).dec 64 b.2 else Codec.bytes.dec b.2
  let t := if nbit h.1 5 then (-1, d.2) else (Codec.bv 16).dec d.2
  let i := decAs Codec.int (fun x => ((p.index : Int) + x).toNat) t.2
  let n := decAs Codec.int (fun x => ((p.born : Int) + x).toNat) i.2
  ({ bytes := d.1, token := t.1, index := i.1, addr := a.1, landed := nbit h.1 0, block := b.1, size := h.1 / 2 ^ 6
     born := n.1, closed := nbit h.1 1 }, n.2)

def queueEnc : QEntry → List QEntry → List Byte
  | _, [] => []
  | p, q :: l => queueWordEnc p q ++ queueEnc q l

def queueDec : QEntry → Nat → List Byte → List QEntry × List Byte
  | _, 0, l => ([], l)
  | p, n + 1, l =>
    let x := queueWordDec p l
    let y := queueDec x.1 n x.2
    (x.1 :: y.1, y.2)

/-- R35: a decoupling queue. -/
def Codec.queue : Codec (List QEntry) :=
  { enc := fun l => Codec.nat.enc l.length ++ queueEnc QEntry.zero l
    dec := fun l => queueDec QEntry.zero (Codec.nat.dec l).1 (Codec.nat.dec l).2 }

/-- A port: its configuration, its loop and its queue. -/
def Codec.agPort : Codec AgPort :=
  ((Codec.nat.pair (Codec.nat.pair (Codec.nat.list.pair (Codec.int.list.pair (Codec.nat.pair (Codec.bool.pair
    Codec.nat)))))).pair
   ((Codec.nat.pair (Codec.bool.pair (Codec.bool.pair ((Codec.nat.pair Codec.bool).opt.pair
     (Codec.two.pair Codec.close))))).pair
    (Codec.queue.pair (Codec.two.opt.pair (Codec.agFault.opt.pair Codec.nat))))).conv
    (fun ((a, b, c, d, e, f, g), (h, i, j, k, l, q), (m, n, o, p)) =>
      ⟨a, b, c, d, e, f, g, h, i, j, k, l.1, l.2, q, m, n, o, p⟩)
    (fun a => ((a.kind, a.counters, a.extents, a.strides, a.lead, a.rsm, a.base),
      (a.count, a.running, a.fin, a.armed, (a.next, a.moved), a.asked), (a.queue, a.dirty, a.fault, a.act)))

/-! ### Elements -/

def Codec.grant : Codec Grant :=
  (Codec.two.pair (Codec.two.pair Codec.two)).conv (fun ((a, b), (c, d), (e, f)) => ⟨a, b, c, d, e, f⟩)
    (fun g => ((g.width, g.h), (g.ne, g.kb), (g.part, g.status)))

def Codec.run : Codec Run :=
  ((Codec.two.pair Codec.two).pair (Codec.nat.pair (Codec.bool.pair (Codec.bool.pair Codec.nat)))).conv
    (fun (((a, b), (c, d)), (e, f, g, h)) => ⟨a, b, c, d, e, f, g, h⟩)
    (fun r => (((r.k0, r.nk), (r.set, r.mask)), (r.port, r.acc, r.running, r.clock)))

def Codec.cells : Codec (List (Nat × Byte)) := (Codec.nat.pair (Codec.bv 8)).list

/-- Kind of a result in flight, and its bytes. -/
def effectEnc : Effect → List Byte
  | .v r x => Codec.nat.enc 0 ++ (Codec.nat.pair (Codec.bv 512)).enc (r, x)
  | .q r x => Codec.nat.enc 1 ++ (Codec.nat.pair (Codec.bv 16)).enc (r, x)
  | .elm l => Codec.nat.enc 2 ++ Codec.cells.enc l
  | .lps l => Codec.nat.enc 3 ++ Codec.cells.enc l
  | .flags f => Codec.nat.enc 4 ++ Codec.flags.enc f
  | .acc r l b => Codec.nat.enc 5 ++ (Codec.nat.pair (Codec.nat.list.pair Codec.bool)).enc (r, l, b)
  | .grant g => Codec.nat.enc 6 ++ Codec.grant.opt.enc g
  | .arm r => Codec.nat.enc 7 ++ Codec.run.enc r
  | .runStart => Codec.nat.enc 8
  | .cfg p a => Codec.nat.enc 9 ++ (Codec.nat.pair Codec.agPort).enc (p, a)
  | .base p a => Codec.nat.enc 10 ++ Codec.two.enc (p, a)
  | .loop p n b => Codec.nat.enc 11 ++ (Codec.two.pair Codec.bool).enc ((p, n), b)
  | .armLoop p n b => Codec.nat.enc 12 ++ (Codec.two.pair Codec.bool).enc ((p, n), b)
  | .agStart => Codec.nat.enc 13
  | .token n => Codec.nat.enc 14 ++ Codec.nat.enc n

def effectDec (l : List Byte) : Effect × List Byte :=
  let r := (Codec.nat.dec l).2
  match (Codec.nat.dec l).1 with
  | 0 => decAs (Codec.nat.pair (Codec.bv 512)) (fun x => .v x.1 x.2) r
  | 1 => decAs (Codec.nat.pair (Codec.bv 16)) (fun x => .q x.1 x.2) r
  | 2 => decAs Codec.cells .elm r
  | 3 => decAs Codec.cells .lps r
  | 4 => decAs Codec.flags .flags r
  | 5 => decAs (Codec.nat.pair (Codec.nat.list.pair Codec.bool)) (fun x => .acc x.1 x.2.1 x.2.2) r
  | 6 => decAs Codec.grant.opt .grant r
  | 7 => decAs Codec.run .arm r
  | 8 => (.runStart, r)
  | 9 => decAs (Codec.nat.pair Codec.agPort) (fun x => .cfg x.1 x.2) r
  | 10 => decAs Codec.two (fun x => .base x.1 x.2) r
  | 11 => decAs (Codec.two.pair Codec.bool) (fun x => .loop x.1.1 x.1.2 x.2) r
  | 12 => decAs (Codec.two.pair Codec.bool) (fun x => .armLoop x.1.1 x.1.2 x.2) r
  | 13 => (.agStart, r)
  | _ => decAs Codec.nat .token r

def Codec.effect : Codec Effect := { enc := effectEnc, dec := effectDec }

/-- An element but for its memory, its bank tags and its slices, which stand elsewhere: the ELM banks stay in
place (R34) and the slices have records of their own (R35). Registers and latches stand at fixed places, and what
R35 does not name comes last. -/
def Codec.element : Codec Element :=
  (((Codec.words 3).pair ((Codec.words 2).pair (Codec.words 2))).pair
   (((Codec.table 32 0 (Codec.bv 512)).pair ((Codec.table 8 0 (Codec.bv 16)).pair
     (Codec.sword.opt.map.pair (Codec.bv 9)))).pair
   ((Codec.agPort.pair Codec.agPort).pair ((Codec.grant.opt.pair (Codec.run.opt.pair
     (Codec.nat.pair Codec.effect).list)).pair (Codec.nat.map.pair Codec.qentry.opt.map))))).conv
    (fun ((a, b, c), (d, e, f, g), (i, j), (k, l, h), (m, n)) =>
      { v := d, q := e, lps := [], elm := [], tags := [], ops := a, routes := b, regs := c, latches := f, tokens := g
        flight := h, ag0 := i, ag1 := j, grant := k, run := l, absorbed := m, feed := n })
    (fun x => ((x.ops, x.routes, x.regs), (x.v, x.q, x.latches, x.tokens), (x.ag0, x.ag1),
      (x.grant, x.run, x.flight), (x.absorbed, x.feed)))

/-- What `Codec.element` carries of an element. -/
def Element.bare (e : Element) : Element := { e with lps := [], elm := [], tags := [] }

/-! ### Islands, turnstiles, declarations -/

def Codec.charges : Codec Charges :=
  ((Codec.nat.pair (Codec.two.pair Codec.two)).pair (Codec.two.pair Codec.two)).conv
    (fun ((a, (b, c), (d, e)), (f, g), (h, i)) => ⟨a, b, c, d, e, f, g, h, i⟩)
    (fun x => ((x.busy, (x.idle, x.late), (x.tsfull, x.tsempty)), (x.token, x.stopped), (x.spill, x.quiet)))

def Stall.num : Stall → Nat
  | .late => 1
  | .tsfull => 2
  | .tsempty => 3
  | .token => 4
  | .stopped => 5
  | .spill => 6
  | .quiet => 7

def Stall.ofNum : Nat → Stall
  | 1 => .late
  | 2 => .tsfull
  | 3 => .tsempty
  | 4 => .token
  | 5 => .stopped
  | 6 => .spill
  | _ => .quiet

def Codec.stall : Codec Stall := Codec.nat.conv Stall.ofNum Stall.num

/-- An island but for its counter, its flag word and its watchdog count, which stand in its elements' records. -/
def Codec.island : Codec Island :=
  (((Codec.two.pair Codec.two).pair (Codec.nat.pair Codec.two)).pair
   ((Codec.nat.opt.pair (Codec.nat.pair (Codec.stall.opt.pair (Codec.bool.pair Codec.nat)))).pair
    (Codec.charges.pair Codec.charges))).conv
    (fun ((((a, b), (c, d)), (e, (f, g))), (h, i, j, k, l), (m, n)) =>
      { row0 := a, col0 := b, nrow := c, ncol := d, lop := e, lrt := f, lra := g, counter := 0, unit := h, trips := i
        flags := 0, held := j, watch := 0, stalled := k, charges := m, phase := n, hit := l })
    (fun x => ((((x.row0, x.col0), (x.nrow, x.ncol)), (x.lop, (x.lrt, x.lra))),
      (x.unit, x.trips, x.held, x.stalled, x.hit), (x.charges, x.phase)))

/-- The words that a turnstile holds: its entries, those of its send half, those on their way across regions. -/
def Turnstile.words (t : Turnstile) : List SWord := t.entries ++ t.send ++ t.crossing.map (·.2)

/-- A turnstile without its words. -/
def Turnstile.bare (t : Turnstile) : Turnstile := { t with entries := [], send := [], crossing := [] }

/-- How a turnstile's words are shared out: the entries, the words of the send half, and the ticks of those on their
way; and the words past the 32 for which the turnstile data has places (R35). -/
abbrev Share := (Nat × Nat) × List Nat × List SWord

def Turnstile.share (t : Turnstile) : Share :=
  ((t.entries.length, t.send.length), t.crossing.map (·.1), t.words.drop 32)

/-- The number of the words in the turnstile data. -/
def Share.placed (h : Share) : Nat := min 32 (h.1.1 + h.1.2 + h.2.1.length)

/-- A turnstile with the words in the turnstile data, and the others. -/
def Turnstile.shared (t : Turnstile) (h : Share) (placed : List SWord) : Turnstile :=
  let l := placed ++ h.2.2
  { t with entries := l.take h.1.1, send := (l.drop h.1.1).take h.1.2
           crossing := h.2.1.zip (l.drop (h.1.1 + h.1.2)) }

/-- A turnstile without the words whose data and marks stand elsewhere (R35). -/
def Codec.turnstile : Codec (Share × Turnstile) :=
  ((Codec.two.pair (Codec.nat.list.pair Codec.sword.list)).pair
   (((Codec.two.pair Codec.two).pair (Codec.two.pair Codec.two)).pair (Codec.two.pair Codec.two))).conv
    (fun (n, (((a, b), (c, d)), ((e, f), (g, h))), (j, k), (l, m)) =>
      (n, { capacity := a, element := b, port := c, initial := d, entries := [], tokens := e, line := f, tokenLine := g
            edge := h, send := [], sent := j, sendSeq := k, recvSeq := l, unreported := m, crossing := [] }))
    (fun (n, t) => (n, (((t.capacity, t.element), (t.port, t.initial)), ((t.tokens, t.line), (t.tokenLine, t.edge))),
      (t.sent, t.sendSeq), (t.recvSeq, t.unreported)))

def Codec.islandRec : Codec IslandRec :=
  (((Codec.two.pair Codec.two).pair (Codec.two.pair Codec.two)).pair
   (Codec.two.pair Codec.nat.opt)).conv
    (fun ((((a, b), (c, d)), ((e, f), (g, h))), (i, j), k) => ⟨a, b, c, d, e, f, g, h, i, j, k⟩)
    (fun x => ((((x.row0, x.col0), (x.nrow, x.ncol)), ((x.lop, x.lrt), (x.lra, x.stage))),
      (x.inputs, x.maskClass), x.theta))

def Codec.turnRec : Codec TurnRec :=
  ((Codec.nat.pair Codec.bool).pair (Codec.two.pair Codec.two)).conv
    (fun ((a, b), (c, d), (e, f)) => ⟨a, b, c, d, e, f⟩)
    (fun x => ((x.number, x.big), (x.port, x.element), (x.initial, x.edge)))

def Codec.point : Codec PointRec :=
  (Codec.two.pair Codec.nat).conv (fun x => ⟨x.1.1, x.1.2, x.2⟩) (fun p => ((p.island, p.slot), p.mask))

/-- The declarations of the resident configuration: its islands, turnstiles and pre-emption points; its rings stand
in the elements' records. -/
def Codec.declarations : Codec Image :=
  (Codec.islandRec.list.pair (Codec.turnRec.list.pair Codec.point.list)).conv
    (fun x => { kind := 0, islands := x.1, elements := [], edges := [], turns := x.2.1, points := x.2.2, consts := [] })
    (fun im => (im.islands, im.turns, im.points))

/-! ### Tasks, messages, commands -/

/-- An instruction of the S-form by its word. -/
def Codec.instr : Codec Instr := Codec.nat.conv instrOfWord encode

def holdEnc : Hold → List Byte
  | .free => Codec.nat.enc 0
  | .ready => Codec.nat.enc 1
  | .wait i => Codec.nat.enc 2 ++ Codec.instr.enc i
  | .changed i => Codec.nat.enc 3 ++ Codec.instr.enc i
  | .fence i a c l t => Codec.nat.enc 4 ++ (Codec.instr.pair ((Codec.nat.pair Codec.bool).pair Codec.two)).enc (i, (a, c), (l, t))
  | .strel d a c l t =>
    Codec.nat.enc 5 ++ ((Codec.bv 5).pair ((Codec.nat.pair Codec.bool).pair Codec.two)).enc (d, (a, c), (l, t))
  | .doubled => Codec.nat.enc 6
  | .stopped => Codec.nat.enc 7
  | .counted i b => Codec.nat.enc 8 ++ (Codec.instr.pair Codec.bool).enc (i, b)

def holdDec (l : List Byte) : Hold × List Byte :=
  let r := (Codec.nat.dec l).2
  match (Codec.nat.dec l).1 with
  | 0 => (.free, r)
  | 1 => (.ready, r)
  | 2 => decAs Codec.instr .wait r
  | 3 => decAs Codec.instr .changed r
  | 4 => decAs (Codec.instr.pair ((Codec.nat.pair Codec.bool).pair Codec.two))
      (fun x => .fence x.1 x.2.1.1 x.2.1.2 x.2.2.1 x.2.2.2) r
  | 5 => decAs ((Codec.bv 5).pair ((Codec.nat.pair Codec.bool).pair Codec.two))
      (fun x => .strel x.1 x.2.1.1 x.2.1.2 x.2.2.1 x.2.2.2) r
  | 6 => (.doubled, r)
  | 7 => (.stopped, r)
  | _ => decAs (Codec.instr.pair Codec.bool) (fun x => .counted x.1 x.2) r

def Codec.hold : Codec Hold := { enc := holdEnc, dec := holdDec }

/-- A task slot (R35): registers, slot state, the K record, the engine-fault record, tags and counts. -/
def Codec.task : Codec Task :=
  (((Codec.hold.pair (Codec.nat.pair Codec.word)).pair
    ((Codec.word.map.pair Codec.word.map).pair ((Codec.two.pair Codec.nat).pair (Codec.bv 54)))).pair
   ((((Codec.bv 3).pair (Codec.bool.pair Codec.flags)).pair
     ((Codec.word.pair Codec.word).pair (Codec.nat.map.pair Codec.flags.map))).pair
    (((Codec.word.pair (Codec.word.pair Codec.word)).pair
      ((Codec.word.pair Codec.word).pair (Codec.word.pair Codec.word))).pair
     ((Codec.two.pair Codec.nat).pair ((Codec.nat.pair Codec.two).opt.pair
       (Codec.nat.pair (Codec.bool.pair Codec.bool))))))).conv
    (fun (((h, lv, pc), ((sr, rg), ((ba, lo), b0), wsp)), (((se, ca, ff), ((ta, tc), (co, tf))),
        (((oo, ef, ea), ((kc, kp), (kv, ks))), ((cn, ep), gn), pr, nf, rf, dl))) =>
      { hold := h, level := Level.ofNum lv, pc := pc, sregs := sr, ring := rg, base := ba, low := lo, base0 := b0
        wsp := wsp, sendst := se, capped := ca, fflags := ff, tags := ta, tagc := tc, counts := co, tagflags := tf
        oor := oo, efault := ef, efaddr := ea, kcause := kc, kpc := kp, kval := kv, kscr := ks, counter := cn
        endpoint := ep, gen := gn, pair := pr, nfail := nf, refused := rf, deadlink := dl })
    (fun t => (((t.hold, t.level.num, t.pc), ((t.sregs, t.ring), ((t.base, t.low), t.base0), t.wsp)),
      (((t.sendst, t.capped, t.fflags), ((t.tags, t.tagc), (t.counts, t.tagflags))),
       (((t.oor, t.efault, t.efaddr), ((t.kcause, t.kpc), (t.kval, t.kscr))),
        ((t.counter, t.endpoint), t.gen), t.pair, t.nfail, t.refused, t.deadlink))))

def Codec.message : Codec Message :=
  (Codec.nat.pair (Codec.word.list.pair Codec.word)).conv (fun x => ⟨x.1, x.2.1, x.2.2⟩)
    (fun m => (m.slot, m.payload, m.sender))

def Codec.owner : Codec Owner :=
  Codec.two.conv (fun x => match x.1 with
    | 0 => .slot x.2
    | 1 => .tracker x.2
    | _ => .none) (fun o => match o with
    | .slot n => (0, n)
    | .tracker n => (1, n)
    | .none => (2, 0))

def Codec.command : Codec Command :=
  ((Codec.instr.pair (Codec.word.list.pair Codec.owner)).pair
   (Codec.two.pair (Codec.bytes.pair (Codec.nat.pair Codec.bytes).list.opt))).conv
    (fun ((a, b, c), ((d, e), f, g)) => ⟨a, b, c, d, e, f, g⟩)
    (fun c => ((c.instr, c.list, c.owner), ((c.tag, c.counter), c.desc, c.rest)))

def Codec.tracker : Codec Tracker := Codec.two.conv (fun x => ⟨x.1, x.2⟩) (fun t => (t.counter, t.slot))

/-! ### Codebooks and registers -/

/-- R36: a codebook copy with its width and generation. -/
def Codec.codebook : Codec Codebook :=
  (Codec.two.pair Codec.int.list).conv (fun x => ⟨x.1.1, x.2, x.1.2⟩) (fun b => ((b.width, b.gen), b.levels))

/-- R36: the registers of a region that hold tenant state, and the phase with its token. -/
def Codec.registers : Codec Region :=
  ((Codec.nat.pair Codec.two.opt).pair
   ((Codec.word.pair (Codec.word.pair (Codec.word.pair Codec.word))).pair
    (((Codec.bv 32).pair ((Codec.bv 32).pair ((Codec.bv 32).pair (Codec.bv 32)))).pair
     (((Codec.bv 32).pair ((Codec.bv 32).pair (Codec.word.pair (Codec.bv 12)))).pair
      ((Codec.bv 3).pair ((Codec.bv 8).pair ((Codec.bv 8).pair Codec.nat))))))).conv
    (fun ((ph, tk), (cx, cs, bm, dl), ((bp, dp, tc, pc), ((sw, ol, oo, ev), (cb, ff, ag, ns)))) =>
      { Region.zero with
        phase := ph, token := tk, ctx := cx, costsel := cs, busymap := bm, dirtylog := dl, busypos := bp, dirtypos := dp
        tokcnt := tc, pfxcoll := pc, stallwd := sw, oorloc := ol, oor := oo, evep := ev, cbslot := cb, fflSel := ff
        agSel := ag, nextSlot := ns })
    (fun g => ((g.phase, g.token), (g.ctx, g.costsel, g.busymap, g.dirtylog), ((g.busypos, g.dirtypos, g.tokcnt,
      g.pfxcoll), ((g.stallwd, g.oorloc, g.oor, g.evep), (g.cbslot, g.fflSel, g.agSel, g.nextSlot)))))

end Sys2Proof.Machine
end

