-- ==== Sys2Proof/Machine/Work.lean ====
section
/-! DEFINITION. The work hierarchy (R23 to R30, R268 to R274): launches, tasks, graphs, jobs, phases and
their reconfiguration tokens, waiting on counters, cancellation, and the end of a task. -/

namespace Sys2Proof.Machine

/-- A status goes to d and the held or issuing task goes on. -/
def State.answer (s : State) (d : BitVec 5) (code value : Nat) : State :=
  (s.setMe { s.me with hold := .ready }).status d code value

/-! ### Launch (R268) -/

/-- Operands of a launch. -/
structure LaunchArgs where
  l : Nat
  p : Nat
  u0 : Nat
  mask : Nat
  trips : Nat
  count : Nat
  deriving DecidableEq, Repr

def launchArgs (l : List Word) : LaunchArgs :=
  let a := (l.getD 0 0).toNat
  let c := (l.getD 2 0).toNat
  { l := nbits a 11 0, p := nbits a 23 12, u0 := nbits a 35 24, mask := (l.getD 1 0).toNat
    trips := nbits c 31 0, count := nbits c 47 32 }

/-- The islands of a mask with their unit handles, ascending. -/
def LaunchArgs.units (x : LaunchArgs) : List (Nat × Nat) :=
  let ks := (upTo 64).filter fun k => nbit x.mask k
  (numbered ks).map fun p => (p.2, x.u0 + p.1)

/-- R268: a parent: a graph or job with OPEN = 1. -/
def openParent (s : State) (part p : Nat) : Bool :=
  !ctrBad s part p && (let w := ctrGet s part p; (ctrLevel w = 2 || ctrLevel w = 4) && ctrOpen w)

/-- R268: an island that a launch may take: installed, without a unit. -/
def islandFree (g : Region) (k : Nat) : Bool :=
  match g.island k with
  | some i => i.unit = none
  | none => false

/-- A preload record: element, register, lanes (R268). -/
structure Preload where
  elem : Nat
  reg : Nat
  data : BitVec 512
  deriving DecidableEq, Repr

/-- The records of a list of bytes. -/
def preloadsOf : Nat → List Byte → List Preload
  | 0, _ => []
  | n + 1, bs =>
    let h := leToNat (bs.take 8)
    { elem := 16 * nbits h 3 0 + nbits h 7 4, reg := nbits h 12 8, data := ofBytes ((bs.drop 8).take 64) } ::
      preloadsOf n (bs.drop 72)

/-- R268: whether an element lies in an island of the mask. -/
def inMask (g : Region) (x : LaunchArgs) (e : Nat) : Bool :=
  x.units.any fun p => match g.island p.1 with
    | some i => i.covers e
    | none => false

/-- R268: the checks that need no memory but the counter table, in order: the refusal, if one applies. -/
def launchRefusal (s : State) (g : Region) (x : LaunchArgs) (listLen : Nat) : Option Nat :=
  let us := x.units
  if ctrBad s g.part x.l || !openParent s g.part x.p || us.any (fun u => ctrBad s g.part u.2) then some stBADHANDLE
  else if ctrCount (ctrGet s g.part x.l) ≠ 0 || us.any (fun u => ctrCount (ctrGet s g.part u.2) ≠ 0) then some stBUSY
  else if us.any fun u => !islandFree g u.1 then some stNOISLAND
  else if x.trips = 0 || (decide (x.count > 0) && (decide (listLen < 4) || us = [])) then some stBADDESC
  else none

/-- R25: whether the parent or the phase would pass its limit. -/
def launchFull (s : State) (g : Region) (x : LaunchArgs) : Bool :=
  ctrFull s g.part x.p 1 || (g.phase ≠ 0 && ctrFull s g.part g.phase 1)

/-- R268 step 3, R60, R33: an island starts a unit. -/
def Island.start (i : Island) (h trips : Nat) : Island :=
  { i with unit := some h, trips := trips, counter := 0, flags := 0, held := none, watch := 0, stalled := false
           charges := Charges.zero, hit := 0 }

/-- R268 step 2: the preload records written to their elements. -/
def writePreloads (g : Region) (l : List Preload) : Region :=
  l.foldl (fun g p =>
    let e := g.element p.elem
    g.setElement p.elem { e with v := mapSet 0 e.v p.reg p.data }) g

/-- R268: an accepted launch. -/
def startLaunch (s : State) (r : Nat) (x : LaunchArgs) (pre : List Preload) : State :=
  let g := s.region r
  let us := x.units
  let s1 := us.foldl (fun t u => ctrPut t g.part u.2 (ctrMake 0 false false x.l 0 x.trips)) s
  let s2 := ctrPut s1 g.part x.l (ctrMake 1 false false x.p g.phase us.length)
  if us = [] then s2
  else
    let s3 := ctrAdd (ctrAdd s2 g.part x.p 1) g.part g.phase 1
    let g1 := writePreloads (s3.region r) pre
    s3.setRegion r (us.foldl (fun h u => match h.island u.1 with
      | some i => h.setIsland u.1 (some (i.start u.2 x.trips))
      | none => h) g1)

/-- R268: the checks on the preload records, the limit of R25, and the start. -/
def launchGo (d : BitVec 5) (r : Nat) (x : LaunchArgs) (pre : List Preload) (s : State) : State :=
  let g := s.region r
  if pre.any fun p => !inMask g x p.elem then s.answer d stBADDESC 0
  else if launchFull s g x then s.answer d stOVF 0
  else (startLaunch s r x pre).answer d stOK 0

/-- R268: a launch by a sequencer of region r, at the tick at which it takes effect. -/
def launchAt (d a : BitVec 5) (n : BitVec 3) (r : Nat) (s : State) : State :=
  let i := Instr.launch d a n
  let g := s.region r
  let l := s.me.listFrom a n.toNat
  let x := launchArgs l
  if g.token ≠ none then s.holdMe (.wait i)
  else match launchRefusal s g x l.length with
    | some c => s.answer d c 0
    | none =>
      if x.count = 0 then launchGo d r x [] s
      else match coreRead s (l.getD 3 0).toNat (72 * x.count) .read with
        | (.ok bs, t) => launchGo d r x (preloadsOf x.count bs) t
        | (e, t) => t.fail i e

def launchRun (d a : BitVec 5) (n : BitVec 3) (s : State) : State :=
  onSequencer s (.launch d a n) fun r _ => launchAt d a n r s

/-- R268, R337: a launch that nothing refuses is a release at LAYER, capped by R17. -/
def execLaunch (d a : BitVec 5) (n : BitVec 3) (s : State) : Out :=
  let i := Instr.launch d a n
  .next (onSequencer s i fun r _ =>
    let l := s.me.listFrom a n.toNat
    if (s.region r).token = none && launchRefusal s (s.region r) (launchArgs l) l.length = none then
      let cap := capMe s 2
      releaseWait s i cap.1 cap.2 (launchAt d a n r)
    else launchAt d a n r s)

/-- A held instruction of a kind is ready again; it goes on in its next turn. -/
def holdEnd (s : State) (c : CoreId) (kind : Instr → Bool) (ended : Bool) : State :=
  match (s.task c).hold with
  | .wait i => if kind i && ended then s.ready c else s
  | _ => s

/-- The region of a core's sequencer has no token under way. -/
def tokenGone (s : State) : CoreId → Bool
  | .seq r _ => (s.region r).token = none
  | .stew _ => false

def execLaunchHoldEnd (c : CoreId) (s : State) : Out :=
  .next (holdEnd s c (fun i => match i with
    | .launch _ _ _ => true
    | _ => false) (tokenGone s c))

/-! ### Spawn (R28, R269) -/

/-- R269: the task of a slot as spawn leaves it; the slot's K record stays. -/
def Task.spawned (t : Task) (entry wsp : Word) (args : List Word) (counter endpoint gen : Nat) : Task :=
  { Task.zero with
    hold := .ready, pc := entry, wsp := BitVec.ofNat 54 (nbits wsp.toNat 56 3)
    ring := (numbered args).foldl (fun m p => mapSet 0 m p.1 p.2) []
    counter := counter, endpoint := endpoint, gen := gen
    kcause := t.kcause, kpc := t.kpc, kval := t.kval, kscr := t.kscr }

/-- R28: the lowest free slot of a region. -/
def freeSlot (g : Region) : Option Nat := (upTo 8).find? fun n => (g.task n).hold = .free

/-- R269: the counter of a spawn: a launch or a job that is not complete. -/
def spawnCounter (s : State) (part c : Nat) : Bool :=
  !ctrBad s part c && (let w := ctrGet s part c; (ctrLevel w = 1 || ctrLevel w = 4) && ctrCount w ≠ 0)

/-- The region that a spawn names; none where a steward core names its own. -/
def spawnRegion (s : State) (f : Nat) : Option Nat :=
  if f ≠ 0x3FF then some f
  else match s.cur with
    | .seq r _ => some r
    | .stew _ => none

/-- R269: the new task in slot n of region q, and its endpoint entry; an entry that cannot be read keeps its content
(R31). -/
def placeTask (s : State) (q n : Nat) (l : List Word) (c e : Nat) : State :=
  let (w, s1) := if e = 0 then (none, s) else endpointGet s (coreKctx s s.cur) e
  let gen := (epGen (w.getD 0) + 1) % 2 ^ 32
  let low := 2 ^ 62 + q * 2 ^ 52 + n * 2 ^ 49 + gen
  let s2 := if e = 0 || w = none then s1 else endpointPut s1 (coreKctx s1 s1.cur) e low
  let g := s2.region q
  let t := (g.task n).spawned (l.getD 0 0) (l.getD 2 0) (l.drop 3) c e gen
  mailboxMove (ctrAdd (s2.setRegion q (g.setTask n t)) g.part c 1) q n

/-- R269: the refusal of a spawn with its VALUE, or the region and the slot it takes. Bits of a + 1 above [33:24] are
ignored (DESIGN CHOICE: the spec gives nonzero ones no fate, notes/assumptions/51.md). -/
def spawnTarget (s : State) (l : List Word) : Except (Nat × Nat) (Nat × Nat) × State :=
  let w := (l.getD 1 0).toNat
  let c := nbits w 11 0
  let e := nbits w 23 12
  let part := s.partOf s.cur
  match spawnCounter s part c, spawnRegion s (nbits w 33 24) with
  | true, some q =>
    if q > 639 || (s.region q).part ≠ part then (.error (stNOTGRANTED, 0), s)
    else if (s.region q).saved ≠ none then (.error (stBUSY, 1), s)
    else
      let (x, t) := if e = 0 then (none, s) else endpointGet s (coreKctx s s.cur) e
      let st := epState (x.getD 0)
      if st = 1 || st = 2 then (.error (stBUSY, 0), t)
      else match freeSlot (t.region q) with
        | none => (.error (stNOSLOT, 0), t)
        | some k => (if ctrFull t part c 1 then .error (stOVF, 0) else .ok (q, k), t)
  | _, _ => (.error (stBADHANDLE, 0), s)

/-- R269: a spawn at the tick at which it takes effect. -/
def spawnRun (d a : BitVec 5) (n : BitVec 3) (s : State) : State :=
  let l := s.me.listFrom a n.toNat
  let w := (l.getD 1 0).toNat
  match spawnTarget s l with
  | (.error x, t) => t.answer d x.1 x.2
  | (.ok (q, k), t) => (placeTask t q k l (nbits w 11 0) (nbits w 23 12)).answer d stOK k

/-- R269, R337: a spawn that nothing refuses is a release at the lowest scope of the issuing agent and the new
task's sequencer, capped by R17. -/
def execSpawn (d a : BitVec 5) (n : BitVec 3) (s : State) : Out :=
  match (spawnTarget s (s.me.listFrom a n.toNat)).1 with
  | .error _ => .next (spawnRun d a n s)
  | .ok (q, _) =>
    let cap := capMe s (lca (s.agent s.cur) (regionCoord s q 3))
    .next (releaseWait s (.spawn d a n) cap.1 cap.2 (spawnRun d a n))

/-! ### The end of a task (R29, R270) -/

/-- Whether a command of a region belongs to an owner. -/
def hasCommands (g : Region) (o : Owner) : Bool := (g.copyq ++ g.mergeq ++ g.pipeq).any fun c => c.owner = o

/-- Whether a store of an issuer has not performed. -/
def hasStores (s : State) (w : Issuer) : Bool := s.stores.any fun p => p.issuer = w

/-- Commands of an owner given to another. -/
def moveOwner (old new : Owner) (q : List Command) : List Command :=
  q.map fun c => if c.owner = old then { c with owner := new } else c

/-- A slot after its task: free, its K record kept. -/
def Task.freed (t : Task) : Task :=
  { Task.zero with kcause := t.kcause, kpc := t.kpc, kval := t.kval, kscr := t.kscr }

/-- R29: the slot is freed, the endpoint exits, messages are discarded; what is outstanding goes to a new
owner. -/
def releaseTask (s : State) (r n : Nat) (o : Owner) (w : Issuer) : State :=
  let s1 := endpointState s (regionKctx s r) ((s.region r).task n).endpoint 3
  let g := s1.region r
  let g1 : Region := { g with
    copyq := moveOwner (.slot n) o g.copyq, mergeq := moveOwner (.slot n) o g.mergeq
    pipeq := moveOwner (.slot n) o g.pipeq, queue := g.queue.filter fun m => m.slot ≠ n }
  let s2 := s1.setRegion r (g1.setTask n (g.task n).freed)
  { s2 with stores := s2.stores.map fun p => if p.issuer = .core (.seq r n) then { p with issuer := w } else p }

def freeTracker (g : Region) : Option Nat := (upTo 16).find? fun k => mapGet none g.trackers k = none

/-- R29: whether accesses of a slot's task are outstanding. -/
def taskBusy (s : State) (r n : Nat) : Bool :=
  hasCommands (s.region r) (.slot n) || hasStores s (.core (.seq r n))

/-- R29: `tail` on a sequencer. -/
def tailTask (r n : Nat) (s : State) : State :=
  let g := s.region r
  let c := (g.task n).counter
  if !taskBusy s r n then ctrDone (releaseTask s r n .none .none) g.part c
  else match freeTracker g with
    | none => s.holdMe (.wait .tail)
    | some k =>
      let t := releaseTask s r n (.tracker k) (.tracker r k)
      let h := t.region r
      t.setRegion r { h with trackers := mapSet none h.trackers k (some { counter := c, slot := n }) }

/-- R270: on a steward core the task ends and the core traps to K with TAIL. -/
def execTail (s : State) : Out :=
  match s.cur with
  | .seq r n => .next (tailTask r n s)
  | .stew _ => .next (s.take { code := tcTAIL, info := 0, pc := s.me.pc + 4, val := 0 } false)

/-- Whether a held `tail` may complete. -/
def tailReady (s : State) : CoreId → Bool
  | .seq r n => !taskBusy s r n || freeTracker (s.region r) ≠ none
  | .stew _ => false

def execTailHoldEnd (c : CoreId) (s : State) : Out :=
  .next (holdEnd s c (fun i => match i with
    | .tail => true
    | _ => false) (tailReady s c))

/-- R29: the last outstanding access of a tracker entry has performed. -/
def execRetirementTrackerDrain (r k : Nat) (s : State) : Out :=
  let g := s.region r
  match mapGet none g.trackers k with
  | none => .next s
  | some t =>
    if hasCommands g (.tracker k) || hasStores s (.tracker r k) then .next s
    else .next (ctrDone (s.setRegion r { g with trackers := mapSet none g.trackers k none }) g.part t.counter)

/-! ### Graphs, jobs and phases (R272, R273) -/

def execGopen (d a : BitVec 5) (h : BitVec 12) (s : State) : Out :=
  let part := s.partOf s.cur
  let p := (s.reg a).toNat % 4096
  let w := ctrGet s part p
  if ctrBad s part h.toNat || ctrBad s part p || ctrLevel w ≠ 4 || !ctrOpen w then .next (s.status d stBADHANDLE 0)
  else if ctrCount (ctrGet s part h.toNat) ≠ 0 then .next (s.status d stBUSY 0)
  else if ctrFull s part p 1 then .next (s.status d stOVF 0)
  else .next ((ctrAdd (ctrPut s part h.toNat (ctrMake 2 false true p 0 1)) part p 1).status d stOK 0)

def execGclose (d : BitVec 5) (h : BitVec 12) (s : State) : Out :=
  let part := s.partOf s.cur
  let w := ctrGet s part h.toNat
  if ctrBad s part h.toNat then .next (s.status d stBADHANDLE 0)
  else if ctrLevel w ≠ 2 && ctrLevel w ≠ 4 then .next (s.status d stLEVEL 0)
  else if !ctrOpen w then .next (s.status d stALREADY 0)
  else .next ((ctrDone (ctrPut s part h.toNat (setBits w 59 59 0)) part h.toNat).status d stOK 0)

def execJopen (d : BitVec 5) (h : BitVec 12) (s : State) : Out :=
  let part := s.partOf s.cur
  if ctrBad s part h.toNat then .next (s.status d stBADHANDLE 0)
  else if ctrCount (ctrGet s part h.toNat) ≠ 0 then .next (s.status d stBUSY 0)
  else .next ((ctrPut s part h.toNat (ctrMake 4 false true 0 0 1)).status d stOK 0)

/-- R273 step 1: OPEN of the current phase is cleared and the token starts toward phase h. -/
def startToken (s : State) (r h : Nat) : State :=
  let g := s.region r
  let s1 := if g.phase = 0 then s else ctrPut s g.part g.phase (setBits (ctrGet s g.part g.phase) 59 59 0)
  s1.setRegion r { s1.region r with token := some (h, ctrRoot s g.part 5 s.me.counter) }

def execReconf (d : BitVec 5) (h : BitVec 12) (s : State) : Out :=
  let i := Instr.reconf d h
  .next (onSequencer s i fun r _ =>
    let g := s.region r
    if ctrBad s g.part h.toNat then s.answer d stBADHANDLE 0
    else if ctrCount (ctrGet s g.part h.toNat) ≠ 0 then s.answer d stBUSY 0
    else if s.me.counter ≠ 0 && ctrFull s g.part (ctrRoot s g.part 5 s.me.counter) 1 then s.answer d stOVF 0
    else if g.token ≠ none then s.holdMe (.wait i)
    else (startToken s r h.toNat).answer d stOK 0)

def execReconfHoldEnd (c : CoreId) (s : State) : Out :=
  .next (holdEnd s c (fun i => match i with
    | .reconf _ _ => true
    | _ => false) (tokenGone s c))

/-! ### The token passes (R273, R121, R71, R91, R387) -/

/-- R121: nothing of the ending phase is under way. -/
def phaseDrained (s : State) (g : Region) : Bool :=
  (g.phase = 0 || decide (ctrCount (ctrGet s g.part g.phase) ≤ 1)) &&
    g.copyq = [] && g.mergeq = [] && g.pipeq = [] &&
    (g.islands.all fun p => match p.2 with
      | some i => i.unit = none
      | none => true) &&
    g.elements.all fun p => (upTo 2).all fun k =>
      let a := p.2.ag k
      a.kind ≠ 2 || a.queue.all fun q => q.addr = none

/-- R104: the store streams of a region close at reconf. -/
def closeAll (s : State) (r : Nat) : State :=
  (s.region r).elements.foldl (fun t p => closeElement t r p.1 1) s

/-- R33: a phase record for each island. -/
def phaseRecords (s : State) (r : Nat) : State :=
  let g := s.region r
  if g.phase = 0 then s
  else
    let end_ := if ctrCanc (ctrGet s g.part g.phase) then 1 else 0
    g.islands.foldl (fun t p => match p.2 with
      | some i => logBusy t r (busyRecord i.phase i.phase.idle 1 end_ g.phase r i)
      | none => t) s

/-- A list of numbers in rising order: each goes before the first that is greater. -/
def rising : List Nat → List Nat
  | [] => []
  | x :: r =>
    let l := rising r
    l.takeWhile (· < x) ++ x :: l.dropWhile (· < x)

/-- The lowest number of a list. -/
def lowest : List Nat → Option Nat
  | [] => none
  | x :: r => match lowest r with
    | none => some x
    | some y => some (min x y)

/-- R387: one element retired at the token: its bit clears, the lowest spare takes its place, the record
and the maps are written. -/
def retireElement (r e : Nat) (s : State) : State :=
  let g := s.region r
  if !g.enabled.contains e then s.setRegion r { g with retiring := g.retiring.erase e, lasting := g.lasting.erase e }
  else
    let sp := lowest g.spares
    let en := g.enabled.erase e
    let g1 : Region := { g with
      retiring := g.retiring.erase e, suspect := g.suspect.erase e, lasting := g.lasting.erase e
      enabled := en ++ sp.toList
      spares := match sp with
        | some x => g.spares.erase x
        | none => [] }
    let s1 := retireRecord (s.setRegion r g1) 2
      (r * 2 ^ 8 + e / 16 * 2 ^ 18 + e % 16 * 2 ^ 22 + (if sp = none then 2 ^ 45 else 2 ^ 44)) 0 (g1.spares = [])
    writeMaps s1 r

/-- R71: codebooks whose pending generation differs become current. -/
def installBooks (pending current : Map Codebook) : Map Codebook :=
  (upTo 8).foldl (fun m k =>
    let p := mapGet Codebook.none pending k
    if p.gen ≠ (mapGet Codebook.none current k).gen then mapSet Codebook.none m k p else m) current

/-- An island of a record, without a unit. -/
def IslandRec.install (i : IslandRec) : Island :=
  { row0 := i.row0, col0 := i.col0, nrow := i.nrow, ncol := i.ncol, lop := i.lop, lrt := i.lrt, lra := i.lra
    counter := 0, unit := none, trips := 0, flags := 0, held := none, watch := 0, stalled := false
    charges := Charges.zero, phase := Charges.zero, hit := 0 }

/-- R387: whether every element that a record covers is enabled. -/
def IslandRec.wholly (i : IslandRec) (enabled : List Nat) : Bool :=
  (upTo (i.nrow * i.ncol)).all fun k => enabled.contains (16 * (i.row0 + k / i.ncol) + i.col0 + k % i.ncol)

/-- R142: a turnstile of a record, with its initial entries. -/
def TurnRec.install (im : Image) (t : TurnRec) : Turnstile :=
  let at_ := match im.elements[t.element]? with
    | some e => 16 * e.row + e.col
    | none => 0
  { capacity := if t.big then 32 else 8, element := at_, port := t.port, initial := t.initial
    entries := List.replicate t.initial { data := 0, valid := 0, last := true }
    tokens := 0, line := t.initial, tokenLine := 0, edge := t.edge, send := [], sent := 0, sendSeq := 0
    recvSeq := 0, unreported := t.initial, crossing := [] }

/-- What an element keeps across a token: its registers, slices, memory and tags. -/
def Element.keep (e : Element) : Element :=
  { Element.zero with v := e.v, q := e.q, lps := e.lps, elm := e.elm, tags := e.tags }

/-- R273: a configuration becomes resident: its rings in its elements, its islands, its turnstiles, and what else it
declares. -/
def Region.install (g : Region) (im : Image) : Region :=
  let old := g.elements.foldl (fun h p => h.setElement p.1 (h.element p.1).keep) g
  let g1 := im.elements.foldl (fun h e =>
    let k := 16 * e.row + e.col
    h.setElement k { h.element k with ops := e.ops, routes := e.routes, regs := e.regs }) old
  { g1 with
    resident := { im with elements := [] }
    islands := (numbered im.islands).foldl (fun m p =>
      if p.2.wholly g.enabled then mapSet none m p.1 (some p.2.install) else m) []
    turnstiles := im.turns.foldl (fun m t => mapSet none m t.number (some (t.install im))) [] }

/-- R273 step 3: what the token makes current in its region. -/
def Region.renew (g : Region) (books : Map Codebook) : Region :=
  { g.install (g.pending.getD Image.empty) with
    ctx := g.ctxNext.getD g.ctx, ctxNext := none, token := none, oor := 0, oorloc := 0
    books := installBooks books g.books }

/-- R71, R273: the token of a region passes, in one step: a configuration loaded between `reconf` and the end of the drain
is installed by it (DESIGN CHOICE, notes/assumptions/51.md). -/
def passToken (r : Nat) (s : State) : State :=
  let g := s.region r
  match g.token with
  | none => s
  | some (h, job) =>
    if g.saved ≠ none || g.frozen || !phaseDrained s g then s
    else
      let s1 := phaseRecords (closeAll s r) r
      let s2 := (rising g.retiring).foldl (fun t e => retireElement r e t) s1
      let s3 := s2.setRegion r ((s2.region r).renew (s2.part g.part).books)
      let s4 := if g.phase = 0 then s3 else ctrDone s3 g.part g.phase
      let s5 := ctrAdd (ctrPut s4 g.part h (ctrMake 3 false true job 0 1)) g.part job 1
      s5.setRegion r { s5.region r with phase := h }

def execReconfTokenPass (r : Nat) (s : State) : Out := .next (passToken r s)

/-! ### Waiting on a counter (R274) -/

def waitcStep (d : BitVec 5) (h : BitVec 12) (s : State) : State :=
  let w := ctrGet s (s.partOf s.cur) h.toNat
  if ctrCount w ≠ 0 then s.holdMe (.wait (.waitc d h))
  else s.answer d (if ctrCanc w then stCANCELLED else stOK) 0

def execWaitc (d : BitVec 5) (h : BitVec 12) (s : State) : Out :=
  if ctrBad s (s.partOf s.cur) h.toNat then .next (s.answer d stBADHANDLE 0) else .next (waitcStep d h s)

def execWaitcRelease (c : CoreId) (s : State) : Out :=
  match (s.task c).hold with
  | .wait (.waitc d h) => .next (waitcStep d h { s with cur := c })
  | .counted (.waitc d _) canc => .next ({ s with cur := c }.answer d (if canc then stCANCELLED else stOK) 0)
  | _ => .next s

/-! ### Cancellation (R26, R27) -/

/-- The regions of a partition. -/
def regionsOf (s : State) (part : Nat) : List Nat :=
  (s.regions.map fun r => r.1).filter fun r => (s.region r).part = part

/-- R27: units whose last trip ended on the tick before complete normally. -/
def endingUnits (s : State) (part : Nat) : List Nat :=
  (regionsOf s part).flatMap fun r => (s.region r).islands.filterMap fun p => match p.2 with
    | some i => if i.trips = 0 && i.held = none then i.unit else none
    | none => none

/-- R26: the live counters at or under a handle. -/
def cancelSet (s : State) (part h : Nat) : List Nat :=
  let ending := endingUnits s part
  (upTo 4096).filter fun x =>
    ctrCount (ctrGet s part x) ≠ 0 && ctrUnder s part h 6 x && !ending.contains x

/-- R26: the units of a region under cancelled counters stop. -/
def cancelUnits (set : List Nat) (s : State) (r : Nat) : State :=
  (s.region r).islands.foldl (fun t p => match p.2 with
    | some i => match i.unit with
      | some u => if set.contains u then stopUnit t r p.1 1 2 else t
      | none => t
    | none => t) s

/-- R26: how much of its work a cancelled command has written: a prefix at a beat boundary, whose length
the spec leaves open; of a batch, a number of whole queries. -/
def prefixWork (s : State) (r : Nat) (c : Command) : Emitted :=
  let (n, s0) := s.takeFree
  let cut (j : Job) : Emitted :=
    let l := j.writes.reverse
    emitGo j.x j.r (n % (l.length + 1)) l j.s
  match c.instr with
  | .copy _ _ _ rnd v _ =>
    cut (copyJob { rnd := rnd.toNat, ovf := v.toNat, salt := c.list.getD 6 0 } c.list (Job.start s0 r 4))
  | .gather _ _ _ rnd v _ =>
    cut (gatherJob false { rnd := rnd.toNat, ovf := v.toNat, salt := c.list.getD 5 0 } c.list (Job.start s0 r 4))
  | .scatter _ _ _ rnd v _ =>
    cut (gatherJob true { rnd := rnd.toNat, ovf := v.toNat, salt := c.list.getD 5 0 } c.list (Job.start s0 r 4))
  | .merge _ _ y rnd k _ =>
    let m := mergeArgs y rnd k c.list
    cut (mergeGo m (m.na + m.nb) 0 0 0 none none (Job.start s0 r 5)).2
  | .mscan _ _ _ => cut (scanJob c.list (Job.start s0 r 5))
  | .tseal _ _ h _ => cut (sealJob true (isSet h) c (Job.start s0 r 6))
  | .hullw _ _ _ => cut (sealJob false true c (Job.start s0 r 6))
  | .topk _ _ _ => cut (topkJob c (Job.start s0 r 6))
  | .tfork _ _ _ => cut (forkJob c (Job.start s0 r 6))
  | .tevict _ _ _ => cut (evictPlan s0 r c)
  | .abatch _ _ _ =>
    let b := Batch.of (leToNat c.desc)
    let j := match mapGet none (s.region r).sets b.bindh with
      | none => Job.start s0 r 6
      | some im => batchGo im b (n % (b.nq + 1)) 0 (Job.start s0 r 6)
    { s := j.s, done := 0, flags := j.flags, oor := j.oor.reverse, fault := none, held := false }
  | _ => { s := s0, done := 0, flags := 0, oor := [], fault := none, held := false }

/-- R26: one cancelled command: the prefix is written, the command counts as complete on its tag with its
bit in TAGC, and nothing is recorded. -/
def cancelCommand (s : State) (r : Nat) (e : Engine) (idx : Nat) (c : Command) : State :=
  let w := prefixWork s r c
  finishCommand (recordOor w.s r c w) r e idx c w.flags true

/-- The first command of a queue under cancelled counters. -/
def cancelFirst (set : List Nat) (r : Nat) (e : Engine) (s : State) : State :=
  let q := (s.region r).queueOf e
  match q.findIdx? fun c => set.contains c.counter with
  | none => s
  | some k => match q[k]? with
    | none => s
    | some c => cancelCommand s r e k c

/-- Every command of a queue under cancelled counters; a queue holds 16. -/
def cancelQueue (set : List Nat) (r : Nat) (e : Engine) : Nat → State → State
  | 0, s => s
  | n + 1, s => cancelQueue set r e n (cancelFirst set r e s)

/-- R26: the tasks of a region under cancelled counters end without a tracker entry, and tracker entries
of cancelled counters count nothing. -/
def cancelTasks (set : List Nat) (s : State) (r : Nat) : State :=
  let t := (upTo 8).foldl (fun u n =>
    let m := (s.region r).task n
    if m.hold ≠ .free && set.contains m.counter then releaseTask u r n .none .none else u) s
  let g := t.region r
  t.setRegion r { g with trackers := g.trackers.map fun p => (p.1, p.2.map fun x =>
    if set.contains x.counter then { x with counter := 0 } else x) }

/-- R26: COUNT = 0, CANC = 1, OPEN = 0. -/
def cancelCounters (part : Nat) (set : List Nat) (s : State) : State :=
  set.foldl (fun t h => ctrPut t part h (setBits (setBits (setBits (ctrGet t part h) 31 0 0) 60 60 1) 59 59 0)) s

/-- R23, R26: each counter outside the set loses the children that were cancelled. -/
def cancelParents (part : Nat) (set : List Nat) (s : State) : State :=
  set.foldl (fun t h =>
    let w := ctrGet t part h
    let up (u : State) (p : Nat) : State := if set.contains p then u else ctrDone u part p
    let u := up t (ctrParent w)
    if ctrLevel w = 1 then up u (ctrPhase w) else u) s

/-- R26: the effects of a cancellation. -/
def cancelAll (s : State) (part h : Nat) : State :=
  let set := cancelSet s part h
  let rs := regionsOf s part
  let s1 := cancelParents part set (cancelCounters part set s)
  let s2 := rs.foldl (cancelUnits set) s1
  let s3 := rs.foldl (fun t r => cancelQueue set r .attention 16 (cancelQueue set r .merge 16
    (cancelQueue set r .copy 16 t))) s2
  let s4 := rs.foldl (cancelTasks set) s3
  { s4 with saves := s4.saves.map fun x =>
      if x.part = part && x.live then { x with cancelled := x.cancelled ++ set } else x }

/-- R27: the status of a cancellation that does nothing, if it does nothing. -/
def cancelRefusal (s : State) (part level h : Nat) : Option Nat :=
  if ctrBad s part h then some stBADHANDLE
  else if ctrCount (ctrGet s part h) = 0 then some stALREADY
  else if ctrLevel (ctrGet s part h) ≠ level then some stLEVEL
  else none

def execCancel (d : BitVec 5) (l : BitVec 3) (h : BitVec 12) (s : State) : Out :=
  let part := s.partOf s.cur
  match cancelRefusal s part l.toNat h.toNat with
  | some c => .next (s.status d c 0)
  | none => .next (cancelAll (s.status d stOK 0) part h.toNat)

/-! ### Ends of the waits of a fence, a release, a releasing atomic, arrival, send, launch or spawn (R117 to R119) -/

/-- What the current task does once the wait of an instruction ends. -/
def endHold (s : State) (i : Instr) (scope : Nat) (capped timeout : Bool) (limit since : Nat) : State :=
  match i with
  | .fence d _ => s.endFence d scope capped timeout
  | .fenceLca d _ => s.endFence d scope capped timeout
  | .strel d a b w _ =>
    if timeout then
      (s.setMe { s.me with nfail := satInc s.me.nfail 255 }).endRelease d scope capped true
    else issueRelease i d b (s.reg a).toNat (acqBytes w) scope capped limit since s
  | .bararr d _ h => arrive d h scope capped s
  | .sendm d a => placeMessage d a capped s
  | .launch d a n => launchRun d a n (s.ready s.cur)
  | .spawn d a n => spawnRun d a n (s.ready s.cur)
  | _ => match amoFields i with
    | some (d, a, w) => performAmo i d (s.reg a).toNat (amoBytes w) capped scope (amoFun s i) s
    | none => s

/-- The wait of a core, if it is one of R117. -/
def storeWait (t : Task) : Option (Nat × Nat × Nat) :=
  match t.hold with
  | .fence _ scope _ limit since => some (scope, limit, since)
  | .strel _ scope _ limit since => some (scope, limit, since)
  | _ => none

/-- The wait of a core ends. -/
def finishWait (s : State) (c : CoreId) (timeout : Bool) : State :=
  let s0 := { s with cur := c }
  match s0.me.hold with
  | .fence i scope capped limit since => endHold s0 i scope capped timeout limit since
  | .strel d scope capped _ _ => s0.endRelease d scope capped timeout
  | _ => s

def execFenceComplete (c : CoreId) (s : State) : Out :=
  match storeWait (s.task c) with
  | none => .next s
  | some (scope, _, _) => if fenceOver s c scope then .next (finishWait s c false) else .next s

/-- R119: LIMIT ticks have passed since the issue. -/
def execFenceTimeout (c : CoreId) (s : State) : Out :=
  match storeWait (s.task c) with
  | none => .next s
  | some (scope, limit, since) =>
    if limit = 0 || decide (s.tick - since < limit) || fenceOver s c scope then .next s
    else .next (finishWait s c true)

end Sys2Proof.Machine
end

