-- ==== Sys2Proof/Machine/SaveArea.lean ====
section
/-! DEFINITION. The save area of a region (R35, R36, R285): what the state-save chain writes into each part of it,
and the region that a save area holds. -/

namespace Sys2Proof.Machine

/-! ### Images in the layout of R253, without the edge table (R36) -/

def renderIsland (i : IslandRec) : List Byte :=
  natToLe (i.row0 + i.col0 * 2 ^ 4 + (i.nrow - 1) * 2 ^ 8 + (i.ncol - 1) * 2 ^ 12 + i.lop * 2 ^ 16 + i.lrt * 2 ^ 22 +
    i.lra * 2 ^ 28 + i.stage * 2 ^ 64 + i.inputs * 2 ^ 68 + i.maskClass * 2 ^ 78 +
    (match i.theta with
      | none => 0
      | some t => 2 ^ 80 + t * 2 ^ 96)) 16

def renderElement (e : ElementRec) : List Byte :=
  natToLe (e.row + 16 * e.col) 1 ++ natToLe e.island 1 ++ ((upTo 32).flatMap fun k => natToLe (e.ops.getD k 0) 3) ++
    ((upTo 32).flatMap fun k => natToLe (e.routes.getD k 0) 2) ++ ((upTo 32).flatMap fun k => natToLe (e.regs.getD k 0) 2) ++
    natToLe e.shape.1 4 ++ natToLe e.shape.2.1 4 ++ natToLe e.shape.2.2 4 ++ List.replicate 18 0

def renderTurn (t : TurnRec) : List Byte :=
  natToLe (t.number + (if t.big then 2 ^ 6 else 0) + t.port * 2 ^ 7 + t.element * 2 ^ 16 + t.initial * 2 ^ 24 +
    t.edge * 2 ^ 32) 8

def renderPoint (p : PointRec) : List Byte := natToLe (p.island + p.slot * 2 ^ 6) 16 ++ natToLe p.mask 16

def renderImage (im : Image) : List Byte :=
  natToLe im.islands.length 2 ++ natToLe im.elements.length 2 ++ natToLe 0 2 ++ natToLe im.turns.length 1 ++
    natToLe im.points.length 1 ++ natToLe im.kind 1 ++ List.replicate 55 0 ++ im.islands.flatMap renderIsland ++
    im.elements.flatMap renderElement ++ im.turns.flatMap renderTurn ++ im.points.flatMap renderPoint ++
    (if im.kind = 1 then (upTo 64).flatMap fun k => natToLe (im.consts.getD k 0) 4 else [])

/-- The image that bytes begin with; zeros hold none. -/
def readImage (l : List Byte) : Option Image :=
  if fieldAt l 0 2 = 0 then none else parseImage (l.take (impliedSize l))

/-! ### The records of an area -/

/-- What an element's record holds (R35): the counter, the flag word and the watchdog count of its island, and the
element. -/
def Codec.elementRecord : Codec ((Nat × Flags × Nat) × Element) :=
  ((Codec.nat.pair (Codec.flags.pair Codec.nat)).pair Codec.element).orZero ((0, 0, 0), Element.zero)

/-- The rest of the sequencer's record: the number of the save and its tick (R33), islands, receive queue, retirement
tracker and declarations. -/
def Codec.sequencer : Codec ((Word × Nat) × Map (Option Island) × List Message × Map (Option Tracker) × Image) :=
  (Codec.word.pair Codec.nat).pair
    (Codec.island.opt.map.pair (Codec.message.list.pair (Codec.tracker.opt.map.pair Codec.declarations)))

def Codec.queues : Codec (List Command × List Command × List Command) :=
  Codec.command.list.pair (Codec.command.list.pair Codec.command.list)

def Codec.slot : Codec Task := Codec.task.orZero Task.zero
def Codec.stage : Codec Element := Codec.element.orZero Element.zero
def Codec.book : Codec Codebook := Codec.codebook.orZero Codebook.none

/-- A part of a save area: its offset, its size and its bytes, of which those past the size do not fit. -/
structure Part where
  off : Nat
  size : Nat
  bytes : List Byte
  deriving DecidableEq, Repr

def elementPart (e : Nat) : Nat × Nat := (0x1000 * e, 0x1000)
def slotPart (n : Nat) : Nat × Nat := (0x100010 + 0x1000 * n, 0x1000)
def sequencerPart : Nat × Nat := (0x108010, 0x7FF0)
def turnPart (n : Nat) : Nat × Nat := (0x130000 + 0x400 * n + 0x80, 0x380)
def queuesPart : Nat × Nat := (0x140000, 0x10000)
def pendingPart : Nat × Nat := (0x150000, 0x17FF0)
def ctxPart : Nat × Nat := (0x167FF0, 0x10)
def setPart (h : Nat) : Nat × Nat := (0x168000 + 0x1000 * h, 0x1000)
def stagePart (n : Nat) : Nat × Nat := (0x178000 + 0x4000 * n, 0x2000)

/-- R36: where a byte of the slices of a stage element stands in a save area. -/
def stagePlace (n off : Nat) : Nat := 0x17A000 + 0x4000 * n + off

def bookPart (n : Nat) : Nat × Nat := (0x184000 + 0x400 * n, 0x400)
def registersPart : Nat × Nat := (0x186000, 0x1000)

def Part.of (p : Nat × Nat) (bs : List Byte) : Part := { off := p.1, size := p.2, bytes := bs }

/-- The counter, flag word and watchdog count of an element's island. -/
def Region.counters (g : Region) (e : Nat) : Nat × Flags × Nat :=
  match g.islandOf e with
  | none => (0, 0, 0)
  | some (_, i) => (i.counter, i.flags, i.watch)

/-- R35, R36: the parts that the chain writes at a tick, but for what stands byte by byte in the layout. -/
def Region.parts (g : Region) (serial : Word) (now : Nat) : List Part :=
  (g.enabled.map fun e => Part.of (elementPart e) (Codec.elementRecord.enc (g.counters e, (g.element e).bare))) ++
    ((upTo 8).map fun n => Part.of (slotPart n) (Codec.slot.enc (g.task n))) ++
    [Part.of sequencerPart (Codec.sequencer.enc ((serial, now), g.islands.map fun p => (p.1, p.2.map fun i =>
        { i with counter := 0, flags := 0, watch := 0 }), g.queue, g.trackers, g.resident))] ++
    ((upTo 64).map fun n => Part.of (turnPart n) (Codec.turnstile.opt.enc ((g.turn n).map fun t =>
        (t.share, t.bare)))) ++
    [Part.of queuesPart (Codec.queues.enc (g.copyq, g.mergeq, g.pipeq)),
     Part.of pendingPart (match g.pending with
       | none => []
       | some im => renderImage im),
     Part.of ctxPart (Codec.word.opt.enc g.ctxNext)] ++
    ((upTo 16).map fun h => Part.of (setPart h) (match mapGet none g.sets h with
       | none => []
       | some im => renderImage im)) ++
    ((upTo 3).map fun n => Part.of (stagePart n) (Codec.stage.enc (mapGet Element.zero g.stages n).bare)) ++
    ((upTo 8).map fun n => Part.of (bookPart n) (Codec.book.enc (mapGet Codebook.none g.books n))) ++
    [Part.of registersPart (Codec.registers.enc g)]

/-- R35: the turnstile data of a region, 64 × 32 words of 64 bytes, and the sideband words of these. -/
def turnCells (g : Region) : List (Nat × Byte) :=
  g.turnstiles.flatMap fun p => match p.2 with
    | none => []
    | some t => (numbered (t.words.take 32)).flatMap fun e =>
        ((numbered (natToLe e.2.data.toNat 64)).map fun b => (0x110000 + 64 * (32 * p.1 + e.1) + b.1, b.2)) ++
          (numbered (natToLe (e.2.valid.toNat + (if e.2.last then 2 ^ 16 else 0)) 4)).map fun b =>
            (0x130000 + 0x400 * p.1 + 4 * e.1 + b.1, b.2)

/-- R35, R36: the lane-private slices of the enabled elements and of the stage elements. -/
def sliceCells (g : Region) : List (Nat × Byte) :=
  ((g.elements.filter fun p => g.enabled.contains p.1).flatMap fun p =>
    p.2.lps.map fun c => (0x200000 + 0x2000 * p.1 + c.1, c.2)) ++
  g.stages.flatMap fun p => p.2.lps.map fun c => (stagePlace p.1 c.1, c.2)

/-- The bytes of the parts that fit, by their offsets, and what does not fit. -/
def partCells (l : List Part) : List (Nat × Byte) :=
  l.flatMap fun p => (numbered (p.bytes.take p.size)).map fun b => (p.off + b.1, b.2)

def partsBeyond (l : List Part) : Map (List Byte) :=
  l.foldl (fun m p => mapSet [] m p.off (p.bytes.drop p.size)) []

/-- R35, R285: the offsets of a save area that `rsave` writes: not the address of the bank save area, which the
hypervisor writes, nor what is reserved, nor the records of elements that are not enabled. -/
def Region.savedAt (g : Region) (off : Nat) : Bool :=
  if off < 0x100000 then g.enabled.contains (off / 0x1000)
  else if off < 0x187000 then !(decide (0x100008 ≤ off) && decide (off < 0x100010))
  else decide (0x200000 ≤ off) && decide (off < 0x400000) && g.enabled.contains ((off - 0x200000) / 0x2000)

/-- R285: the first word of the save-area header. -/
def headerWord (g : Region) (r : Nat) : Nat := r + ctxCid g.ctx * 2 ^ 12 + g.part % 64 * 2 ^ 24

/-- The bytes at chosen offsets of an area of 4 MiB, zero but for some cells, performed at their home. -/
def writeArea (s : State) (a0 : Nat) (at_ : Nat → Bool) (cells : List (Nat × Byte)) : State :=
  let a := canonPa s.pkg.toNat a0
  let hit (x : Nat) : Bool := decide (a ≤ x) && decide (x < a + 2 ^ 22) && at_ (x - a)
  -- the frame table alone does not read as zero where nothing is written
  let zeros := if frametabSize ≤ a then [] else ((upTo (2 ^ 22)).filter at_).map fun o => (o, (0 : Byte))
  { s with
    mem := (zeros ++ cells).foldl (fun m c => memSet m (a + c.1) c.2) (s.mem.filter fun c => !hit c.1)
    stores := s.stores.map fun p => { p with cells := p.cells.filter fun c => !hit c.1 }
    poison := s.poison.filter fun u => match unitRange s u.1 with
      | none => true
      | some x => !((upTo x.2).all fun k => hit (x.1 + k)) }

/-- A unit of a region's slices by its key: its element and its offset there; a stage element's offsets begin at
0x2000 (`stageUnit`). -/
def sliceUnit (r key : Nat) : Option (Nat × Nat) :=
  let x := key - elmUnit r 0 0
  if elmUnit r 0 0 ≤ key && key < elmUnit (r + 1) 0 0 && decide (2 ^ 19 ≤ x % 2 ^ 20) then
    some (x / 2 ^ 20, x % 2 ^ 20 - 2 ^ 19)
  else none

/-- The word of a save area that holds a unit of a region's slices. -/
def sliceWord (g : Region) (e off : Nat) : Option Nat :=
  if 0x2000 ≤ off then (if e < 3 then some (stagePlace e (off - 0x2000)) else none)
  else if g.enabled.contains e then some (0x200000 + 0x2000 * e + off)
  else none

/-- R35, R359: the poison marks of a region's slices go to the words of the save area (R352), and the slices, now
zero (R36), have none. -/
def saveSliceMarks (s : State) (r a : Nat) : State :=
  s.poison.foldl (fun t p => match sliceUnit r p.1 with
    | none => t
    | some (e, off) =>
      let m := mapSet false t.poison p.1 false
      { t with poison := match sliceWord (s.region r) e off with
          | some w => mapSet false m (cacheUnit (canonPa s.pkg.toNat a + w)) true
          | none => m }) s

/-- R359: the chain reads the units of a region's slices that hold an error. -/
def readSlices (s : State) (r : Nat) : State :=
  s.bad.foldl (fun t b => match sliceUnit r b.1 with
    | none => t
    | some (e, off) => if 0x2000 ≤ off then (readSlice b.1 id t).2 else (readLpsUnit t r e off).2) s

/-- R34 step 4: what the state-save chain writes, with the number of the save. -/
def writeSaveArea (s0 : State) (r a : Nat) (serial : Word) : State :=
  let s := readSlices s0 r
  let g := s.region r
  let header := (numbered (natToLe (headerWord g r) 8)).map fun b => (0x100000 + b.1, b.2)
  saveSliceMarks (writeArea s a g.savedAt (header ++ partCells (g.parts serial s.tick) ++ turnCells g ++ sliceCells g)) r a

/-! ### The region that a save area holds -/

/-- The number of the save that an area holds. -/
def savedSerial (s : State) (a : Nat) : Word := (Codec.word.dec (s.bytes (a + sequencerPart.1) 8)).1

/-- What an `rsave` left beside an area, wherever the area stands now: the area holds the number of the save. -/
def savedEntry (s : State) (r a : Nat) : Option Saved :=
  s.saves.find? fun x => x.region = r && x.serial = savedSerial s a

/-- The bytes of a part, with what did not fit into it. -/
def partBytes (s : State) (x : Option Saved) (a : Nat) (p : Nat × Nat) : List Byte :=
  s.bytes (a + p.1) p.2 ++ (match x with
    | none => []
    | some y => mapGet [] y.beyond p.1)

/-- The bytes of n places of an area that do not read as zero, by their offset from the first place. -/
def areaSlices (s : State) (a0 first n : Nat) : List (Nat × Byte) :=
  let a := canonPa s.pkg.toNat a0 + first
  let places := if frametabSize ≤ a then
      ((s.mem.map (·.1) ++ s.stores.flatMap fun p => p.cells.map (·.1)).filter fun x =>
        decide (a ≤ x) && decide (x < a + n)).map fun x => x - a
    else upTo n
  places.map fun o => (o, s.byte (a + o))

/-- R35: word k of turnstile n. -/
def areaEntry (s : State) (a n k : Nat) : SWord :=
  let side := leToNat (s.bytes (a + 0x130000 + 0x400 * n + 4 * k) 4)
  { data := BitVec.ofNat 512 (leToNat (s.bytes (a + 0x110000 + 64 * (32 * n + k)) 64))
    valid := BitVec.ofNat 16 side, last := nbit side 16 }

/-- A table of the values at the first n keys. -/
def tableOfN {α : Type} [DecidableEq α] (z : α) (n : Nat) (f : Nat → α) : Map α :=
  (upTo n).foldl (fun m k => mapSet z m k (f k)) []

/-- R34: the region as a save area holds it, for the elements that are enabled. -/
def savedRegion (s : State) (r a : Nat) : Region :=
  let x := savedEntry s r a
  let get {α : Type} (c : Codec α) (p : Nat × Nat) : α := (c.dec (partBytes s x a p)).1
  let element (e : Nat) : (Nat × Flags × Nat) × Element := get Codec.elementRecord (elementPart e)
  let q := get Codec.sequencer sequencerPart
  let w := get Codec.queues queuesPart
  let g : Region :=
    { get Codec.registers registersPart with
      part := nbits (s.word (a + 0x100000)) 29 24
      ctxNext := get Codec.word.opt ctxPart
      pending := readImage (partBytes s x a pendingPart)
      resident := q.2.2.2.2
      islands := q.2.1.map fun p => (p.1, p.2.map fun i =>
        let n := (element (16 * i.row0 + i.col0)).1
        { i with counter := n.1, flags := n.2.1, watch := n.2.2 })
      turnstiles := tableOfN none 64 fun n => (get Codec.turnstile.opt (turnPart n)).map fun t =>
        t.2.shared t.1 ((upTo t.1.placed).map (areaEntry s a n))
      elements := tableOfN Element.zero 256 fun e =>
        if (s.region r).enabled.contains e then (element e).2 else Element.zero
      tasks := tableOfN Task.zero 8 fun n => get Codec.slot (slotPart n)
      queue := q.2.2.1, trackers := q.2.2.2.1, copyq := w.1, mergeq := w.2.1, pipeq := w.2.2
      sets := tableOfN none 16 fun h => readImage (partBytes s x a (setPart h))
      stages := tableOfN Element.zero 3 fun n => { get Codec.stage (stagePart n) with
        lps := (areaSlices s a (stagePlace n 0) 0x2000).foldl (fun m c => mapSet 0 m c.1 c.2) [] }
      books := tableOfN Codebook.none 8 fun n => get Codec.book (bookPart n) }
  (areaSlices s a 0x200000 0x200000).foldl (fun h c =>
    let e := c.1 / 0x2000
    if (s.region r).enabled.contains e then
      h.setElement e { h.element e with lps := mapSet 0 (h.element e).lps (c.1 % 0x2000) c.2 }
    else h) g

/-- R33: the tick at which a save area was written. -/
def savedTick (s : State) (r a : Nat) : Nat :=
  (Codec.sequencer.dec (partBytes s (savedEntry s r a) a sequencerPart)).1.1.2

/-! ### The units of a save area (R359) -/

/-- The 8-byte words of a save area that a key of a protection unit stands for, by their offsets. -/
def unitOffsets (s : State) (a0 key : Nat) : List Nat :=
  let a := canonPa s.pkg.toNat a0
  match unitRange s key with
  | none => []
  | some x => (((upTo ((x.2 + 7) / 8)).map fun k => x.1 + 8 * k).filter fun p =>
      decide (a ≤ p) && decide (p < a + 2 ^ 22)).map fun p => p - a

/-- A read of a word of a save area by the chain of a region. -/
def readAreaWord (r a : Nat) (s : State) (off : Nat) : Bool × State :=
  readUnit s (regionChiplet r) (canonPa s.pkg.toNat a + off)

/-- R359: the chain reads the words of a save area that hold an error. -/
def readArea (s : State) (r a : Nat) : State :=
  s.bad.foldl (fun t b => (unitOffsets s a b.1).foldl (fun u o => (readAreaWord r a u o).2) t) s

/-- R359: the words of a save area that fail, by their offsets. -/
def areaFails (s : State) (r a : Nat) : List Nat :=
  (s.poison.flatMap fun p => unitOffsets s a p.1).filter fun o => (readAreaWord r a s o).1

/-- The unit of a region's slices that a word of a save area holds: of a stage element, or of an element. -/
def wordUnit (r o : Nat) : Option Nat :=
  let x := o - stagePlace 0 0
  if 0x200000 ≤ o then some (lpsUnit r ((o - 0x200000) / 0x2000) ((o - 0x200000) % 0x2000))
  else if stagePlace 0 0 ≤ o && decide (o < stagePlace 3 0) && decide (x % 0x4000 < 0x2000) then
    some (stageUnit r (x / 0x4000) (x % 0x4000))
  else none

/-- R356: a word outside the slices that fails: no unit of the region could take its mark, and the restore meets the
error (notes/assumptions/9.md). -/
def lostWord (s : State) (r a : Nat) : Option Nat :=
  (areaFails s r a).find? fun o => (wordUnit r o).isNone && ((s.region r).savedAt o || o = 0x100000)

/-- R35, R359: the marks of the slices' words in a save area go to the units of the slices. -/
def loadSliceMarks (s : State) (r a : Nat) : State :=
  ((areaFails s r a).filter (s.region r).savedAt).foldl (fun t x => match wordUnit r x with
    | some u => { t with poison := mapSet false t.poison u true }
    | none => t) s

end Sys2Proof.Machine
end

