-- ==== Sys2Proof/Machine/Preempt.lean ====
section
/-! DEFINITION. Pre-emption (R34 to R40, R285): saving and restoring a region, pre-emption points, and the
release of an ELM bank that belongs to another context. -/

namespace Sys2Proof.Machine

/-! ### Banks and bank save areas (R37, R38, R359) -/

def bankSize : Nat := 0xC00

/-- R38: the place of a bank's image in a bank save area. -/
def bankImage (area e b : Nat) : Nat := area + e * 0x60000 + b * bankSize

/-- R38: the byte of the valid map that holds a bank's bit, and the bit. -/
def bankValid (area e b : Nat) : Nat × Nat := (area + 0x6000000 + (128 * e + b) / 8, (128 * e + b) % 8)

/-- The valid bit of a bank. -/
def isBankValid (s : State) (area e b : Nat) : Bool :=
  nbit (s.byte (bankValid area e b).1).toNat (bankValid area e b).2

/-- R359: the unit of the valid map that holds a bank's bit is read; whether it fails. -/
def readValid (s : State) (r area e b : Nat) : Bool × State :=
  readUnit s (regionChiplet r) (canonPa s.pkg.toNat (bankValid area e b).1)

/-- The valid bit of a bank set or cleared; a unit of the map that fails takes no bit (R361). -/
def setBankValid (s : State) (r area e b : Nat) (v : Bool) : State :=
  let (a, i) := bankValid area e b
  match readValid s r area e b with
  | (true, t) => t
  | (false, t) => t.write a [BitVec.ofNat 8 (setBits (t.byte a).toNat i i (if v then 1 else 0))]

/-- The offsets of a bank's units (R358). -/
def bankUnits (b : Nat) : List Nat := (upTo (bankSize / 8)).map fun i => b * bankSize + 8 * i

/-- R359: the units of a bank that hold an error are read, before its words are written out. -/
def readBank (s : State) (r e b : Nat) : State :=
  if s.bad = [] then s else (bankUnits b).foldl (fun t o => (readElmUnit t r e o).2) s

/-- R359, R352: the words of a bank that are poisoned, by their offsets. -/
def poisonedWords (s : State) (r e b : Nat) : List Nat :=
  if s.poison = [] then [] else (bankUnits b).filter fun o => mapGet false s.poison (elmUnit r e o)

/-- R38, R352, R359: a bank written to a bank save area, the mark of every poisoned word with that word. -/
def spillBank (s0 : State) (r e b area : Nat) : State :=
  let s := readBank s0 r e b
  let a := bankImage area e b
  let t := s.write a (mapGetN 0 ((s.region r).element e).elm (b * bankSize) bankSize)
  setBankValid { t with poison := (poisonedWords s r e b).foldl (fun m o =>
    mapSet false m (cacheUnit (canonPa s.pkg.toNat (a + (o - b * bankSize)))) true) t.poison } r area e b true

/-- R37: a bank's tag set; the tag that every bank has unless it has its own is not listed. -/
def Region.setTag (g : Region) (e b : Nat) (tag : Option (Nat × Nat)) : Region :=
  let x := g.element e
  g.setElement e { x with tags := mapSet none x.tags b (if tag = g.tagBase then none else some tag) }

/-- A bank with given bytes and poisoned words, and a tag. -/
def putBank (s : State) (r e b : Nat) (bs : List Byte) (bad : List Nat) (tag : Option (Nat × Nat)) : State :=
  let g := s.region r
  let x := g.element e
  let t := s.setRegion r ((g.setElement e { x with elm := mapSetN 0 x.elm (b * bankSize) bs }).setTag e b tag)
  if s.poison = [] && s.bad = [] && bad = [] then t
  else { t with
    poison := (bankUnits b).foldl (fun m o => mapSet false m (elmUnit r e o) (bad.contains o)) t.poison
    bad := (bankUnits b).foldl (fun m o => mapSet 0 m (elmUnit r e o) 0) t.bad }

/-- R359: the words of a bank's image in memory are read; with the offsets, in the bank's element, of those that
fail. -/
def readImageWords (s : State) (r b a : Nat) : List Nat × State :=
  if s.poison = [] && s.bad = [] then ([], s)
  else (bankUnits b).foldl (fun x o =>
    let (fails, t) := readUnit x.2 (regionChiplet r) (canonPa s.pkg.toNat (a + (o - b * bankSize)))
    (if fails then x.1 ++ [o] else x.1, t)) ([], s)

/-- R37 step 2: a bank from a bank save area that holds a valid copy, or zeros; where the unit of the valid map fails, a
bank of words that fail (DESIGN CHOICE, notes/assumptions/31.md). -/
def fillBank (s : State) (r e b : Nat) (area : Option Nat) (tag : Option (Nat × Nat)) : State :=
  match area with
  | none => putBank s r e b (List.replicate bankSize 0) [] tag
  | some p =>
    match readValid s r p e b with
    | (true, t) => putBank t r e b (List.replicate bankSize 0) (bankUnits b) tag
    | (false, u) =>
      if !isBankValid u p e b then putBank u r e b (List.replicate bankSize 0) [] tag
      else
        let (bad, t) := readImageWords u r b (bankImage p e b)
        setBankValid (putBank t r e b (t.bytes (bankImage p e b) bankSize) bad tag) r p e b false

/-- R38, R285: the bank save area of a context for a region: the one that the header named at the context's last save
there (DESIGN CHOICE, notes/assumptions/31.md). -/
def bankArea (s : State) (r : Nat) (ctx : Nat × Nat) : Option Nat :=
  match s.saves.find? fun x => x.region = r && (x.part, ctxCid x.ctx) = ctx with
  | none => none
  | some x => x.bank

/-- R37, R38: a bank of a context that has no bank save area: the hypervisor keeps it (notes/assumptions/31.md). -/
def keepBank (s0 : State) (r e b : Nat) (ctx : Nat × Nat) : State :=
  let s := readBank s0 r e b
  { s with kept := { region := r, part := ctx.1, cid := ctx.2, elem := e, bank := b
                     bytes := mapGetN 0 ((s.region r).element e).elm (b * bankSize) bankSize
                     bad := poisonedWords s r e b } :: s.kept }

/-- Whether a kept bank is the one of a context. -/
def Kept.isFor (x : Kept) (r e b : Nat) (ctx : Nat × Nat) : Bool :=
  x.region = r && x.elem = e && x.bank = b && (x.part, x.cid) = ctx

/-- R37: the waits of a region's sequencer are tried again. -/
def retryWaits (s : State) (r : Nat) : State :=
  let g := s.region r
  s.setRegion r { g with tasks := g.tasks.map fun p => match p.2.hold with
    | .wait _ => (p.1, { p.2 with hold := .ready })
    | _ => p }

/-- R37 step 1: what a bank holds goes to the context that its tag names; a bank without a context holds zeros. -/
def releaseBank (s : State) (r e b : Nat) : State :=
  match (s.region r).bankTag e b with
  | none => s
  | some d => match bankArea s r d with
    | some p => spillBank s r e b p
    | none => keepBank s r e b d

/-- R37 steps 2 and 3: the bank of a context: as it was kept, or as its bank save area holds it, or zeros; with its
tag. -/
def claimBank (s : State) (r e b : Nat) (ctx : Nat × Nat) : State :=
  match s.kept.find? fun x => x.isFor r e b ctx with
  | some x => putBank { s with kept := s.kept.filter fun y => !y.isFor r e b ctx } r e b x.bytes x.bad (some ctx)
  | none => fillBank s r e b (bankArea s r ctx) (some ctx)

/-- R37: the three steps for a bank of an enabled element tagged with another context. -/
def execBankAccessRelease (r e b : Nat) (s0 : State) : Out :=
  let s := { s0 with spills := s0.spills.filter (· ≠ (r, e, b)) }
  let g := s.region r
  if bankMine g e b || b ≥ 128 || !g.enabled.contains e then .next s
  else .next (retryWaits (claimBank (releaseBank s r e b) r e b g.context) r)

/-! ### Saving a region (R34, R35, R40) -/

/-- R107, R359: the frame-table bytes of a save area are read by an agent of a chiplet; the first one that fails. -/
def readAreaFrames (s : State) (chip a : Nat) : Option Nat × State :=
  if s.bad = [] && s.poison = [] then (none, s)
  else (upTo 1024).foldl (fun x i =>
    let y := readFrameByte x.2 chip (a + 4096 * i)
    (x.1.or (if y.1 then frameByteAddr x.2 (a + 4096 * i) else none), y.2)) (none, s)

/-- R38, R285: the bank save area that a header names; zero names none. A word that fails is met at the issue of `rsave`;
later it names none (DESIGN CHOICE, notes/assumptions/31.md). -/
def headerBank (s : State) (r a : Nat) : Option Nat × State :=
  let (bad, t) := readAreaWord r a s 0x100008
  (if bad || t.word (a + 0x100008) = 0 then none else some (t.word (a + 0x100008)), t)

/-- R285: whether a save area is 4 MiB of Held frames, aligned. -/
def saveAreaOk (s : State) (a : Nat) : Bool :=
  a % 2 ^ 22 = 0 && (upTo 1024).all fun i => match frameByteAddr s (a + 4096 * i) with
    | some x => frameState (s.byte x) = 3
    | none => false

/-- R40: whether rsave is deferred to pre-emption points. -/
def defersSave (s : State) (g : Region) : Bool := g.resident.points ≠ [] && (s.part g.part).ppwait ≠ 0

/-- R34 step 1, R40: the fabric clock of a region stops, or the stop is deferred. -/
def beginSave (s : State) (r : Nat) : State :=
  let g := s.region r
  s.setRegion r (if defersSave s g then { g with deferred := some s.tick } else { g with frozen := true })

/-- Whether a generator of a region holds a fault (R348). -/
def Region.faulted (g : Region) : Bool := g.elements.any fun p => faultedPort p.2 ≠ none

/-- R34, R348: the save of a region begins, unless it is under way, or the region must first be quiescent. -/
def startSave (s : State) (r : Nat) : State :=
  let g := s.region r
  if g.frozen || g.deferred ≠ none || (g.faulted && !quiescent s r) then s else beginSave s r

def execRsave (d a b : BitVec 5) (s : State) : Out :=
  let i := Instr.rsave d a b
  .next (onSteward s i fun _ => atLevel s i .h (
    let r := (s.reg a).toNat
    if r > 639 then s.status d stBADADDR 0
    else if (s.region r).saved ≠ none then s.status d stALREADY 0
    else if (s.reg b).toNat % 2 ^ 22 ≠ 0 then s.status d stBADADDR 0
    else
      let a := (s.reg b).toNat
      match readAreaFrames s (agentChiplet (s.agent s.cur)) a with
      | (some x, t) => t.fail i (.memerr 0 x : Acc Unit)
      | (none, t) =>
        if !saveAreaOk t a then t.status d stBADADDR 0
        else
          let (bad, u) := readAreaWord r a t 0x100008
          if bad then u.fail i (.memerr 0 (a + 0x100008) : Acc Unit)
          else (startSave u r).holdMe (.wait i)))

/-- R40: every island that runs a unit stands at one of its declared points. -/
def allAtPoints (g : Region) : Bool :=
  g.islands.all fun p => match p.2 with
    | some i => i.unit = none || atPoint g p.1 i
    | none => true

/-- R34 steps 2 and 3, R348: the requested reads landed (a faulted word, and what was not yet requested, are none), the
tracker drained, stores of its tasks performed. -/
def saveDrained (s : State) (r : Nat) : Bool :=
  let g := s.region r
  (g.elements.all fun p => (upTo 2).all fun k =>
      (p.2.ag k).kind ≠ 1 || (p.2.ag k).queue.all fun q => q.landed) &&
    (upTo 16).all (fun k => mapGet none g.trackers k = none) && (upTo 8).all fun n => !hasStores s (.core (.seq r n))

/-- R34: STATE of the endpoints of the placed tasks. -/
def markTasks (s : State) (r st : Nat) : State :=
  (s.region r).tasks.foldl (fun t p =>
    if p.2.hold = .free then t else endpointState t (regionKctx t r) p.2.endpoint st) s

/-- R40: the pre-emption point at which an island that runs a unit is held. Where several name its slot, the first
one's mask counts (DESIGN CHOICE, notes/assumptions/70.md). -/
def heldPoint (g : Region) (k : Nat) (i : Island) : Option PointRec :=
  if i.unit = none then none
  else g.resident.points.find? fun x => x.island = k && i.counter % i.lop = x.slot

/-- R38, R40: a bank of an island held at a point: named in the mask it is written to the bank save area, if there
is one, and else left as it is; unnamed it is released. -/
def eagerBank (r e mask : Nat) (area : Option Nat) (s : State) (b : Nat) : State :=
  let release (t : State) : State := putBank t r e b (List.replicate bankSize 0) [] none
  if !bankMine (s.region r) e b then s
  else if !nbit mask b then release s
  else match area with
    | none => s
    | some p => release (spillBank s r e b p)

/-- R40: the islands held at a point give up their banks. -/
def eagerBanks (s : State) (r : Nat) (area : Option Nat) : State :=
  let g := s.region r
  g.islands.foldl (fun t p => match p.2 with
    | none => t
    | some i => match heldPoint g p.1 i with
      | none => t
      | some x => i.cells.foldl (fun u e => (upTo 128).foldl (eagerBank r e x.mask area) u) t) s

/-- What an element keeps when its region is saved: its memory and tags. -/
def Element.memoryOnly (e : Element) : Element := { Element.zero with elm := e.elm, tags := e.tags }

/-- R34 step 5: every bank is tagged with the outgoing context, in place; a bank that still holds another context's
data keeps that context's tag (R37: a bank never holds data of one context while it is tagged with another). -/
def Region.retag (g : Region) : Region :=
  let mark (t : Option (Nat × Nat)) : Option (Nat × Nat) := t.or (some g.context)
  let base := mark g.tagBase
  { g with
    tagBase := base
    elements := g.elements.map fun p => (p.1, { p.2 with
      tags := p.2.tags.filterMap fun t => (t.2.map mark).bind fun x => if x = base then none else some (t.1, some x) }) }

/-- R36: a region after rsave; what belongs to the physical region stays. -/
def Region.emptied (g : Region) (area : Nat) : Region :=
  g.elements.foldl (fun h p => h.setElement p.1 (g.element p.1).memoryOnly) { Region.zero with
    part := g.part, enabled := g.enabled, spares := g.spares, suspect := g.suspect, retiring := g.retiring
    lasting := g.lasting, tagBase := g.tagBase, saved := some area }

/-- R34 steps 3 to 6. -/
def finishSave (s : State) (r a : Nat) : State :=
  let serial := BitVec.ofNat 64 s.free
  let s0 := markTasks { s with free := s.free + 1 } r 2
  let g := s0.region r
  let s1 := writeSaveArea s0 r a serial
  let (bank, s2) := headerBank (s1.setRegion r (s1.region r).retag) r a
  let s3 := if g.deferred = none then s2 else eagerBanks s2 r bank
  let s4 := s3.setRegion r ((s3.region r).emptied a)
  { s4 with saves := { area := a, region := r, part := g.part, ctx := g.ctx, live := true, cancelled := []
                       beyond := partsBeyond (g.parts serial s0.tick), serial := serial, bank := bank } :: s4.saves }

/-- R34: RSAVE_COMPLETE; a save that has not begun begins once it may (R348). Of two cores that wait to save one region
the second finds it saved (R285). -/
def execRsaveComplete (c : CoreId) (s : State) : Out :=
  match (s.task c).hold with
  | .wait (.rsave d a b) =>
    let r := ((s.task c).get a).toNat
    let g := s.region r
    let ready := g.frozen || (g.deferred ≠ none && allAtPoints g)
    if g.saved ≠ none then .next (s.endWait c d stALREADY 0)
    else if !ready then .next (startSave s r)
    else if !saveDrained s r then .next s
    else
      let t := finishSave (s.setRegion r { g with frozen := true }) r ((s.task c).get b).toNat
      .next (t.endWait c d stOK 0)
  | _ => .next s

/-- R40: PT_PPWAIT ticks have passed since the save was deferred: step 1 of R34 proceeds. -/
def execPpwaitExpiry (r : Nat) (s : State) : Out :=
  let g := s.region r
  match g.deferred with
  | none => .next s
  | some t =>
    if s.tick - t < (s.part g.part).ppwait.toNat then .next s
    else .next (s.setRegion r { g with frozen := true })

/-! ### Restoring a region (R34, R36, R39) -/

def execRrest (d a b : BitVec 5) (s : State) : Out :=
  let i := Instr.rrest d a b
  .next (onSteward s i fun _ => atLevel s i .h (
    let r := (s.reg a).toNat
    if r > 639 || (s.region r).saved = none then s.status d stBUSY 0
    else
      let (bad, t) := readAreaWord r (s.reg b).toNat s 0x100000
      if bad then t.fail i (.memerr 0 ((s.reg b).toNat + 0x100000) : Acc Unit)
      else if t.word ((s.reg b).toNat + 0x100000) % 2 ^ 10 ≠ r then t.status d stMISMATCH 0
      else t.holdMe (.wait i)))

/-- An element as restored: the saved record over the memory that stayed. -/
def Element.restored (saved now : Element) : Element := { saved with elm := now.elm, tags := now.tags }

/-- R34, R36: the region as its save area holds it, with what belongs to the physical region. -/
def Region.restored (g : Region) (x : Region) : Region :=
  (g.elements ++ x.elements).foldl (fun h p => h.setElement p.1 ((x.element p.1).restored (g.element p.1))) { x with
    enabled := g.enabled, spares := g.spares, suspect := g.suspect, retiring := g.retiring
    lasting := g.lasting, tagBase := g.tagBase, elements := [], saved := none, frozen := false, deferred := none }

/-- R39: the saved commands of a queue under cancelled counters are discarded: nothing more of them is written (R26: no
beat after the cancellation), their tags complete, and their counters, which the cancellation updated at once and which
may be open anew, lose no child (DEDUCED, notes/assumptions/52.md). -/
def discardQueue (set : List Nat) (r : Nat) (e : Engine) : Nat → State → State
  | 0, s => s
  | n + 1, s =>
    let q := (s.region r).queueOf e
    match q.findIdx? fun c => set.contains c.counter with
    | none => s
    | some k => match q[k]? with
      | none => s
      | some c => discardQueue set r e n (finishCommand s r e k { c with counter := 0 } 0 true)

/-- R39: what a cancellation reached while the region was saved is discarded. -/
def discardCancelled (s : State) (r : Nat) (set : List Nat) : State :=
  let s1 := cancelUnits set s r
  cancelTasks set (discardQueue set r .attention 16 (discardQueue set r .merge 16 (discardQueue set r .copy 16 s1))) r

/-- R39: the counters cancelled since the save that an area holds, whose units are no longer marked once it is
restored. -/
def cancelledWhile (s : State) (r a : Nat) : List Nat × State :=
  match savedEntry s r a with
  | none => ([], s)
  | some x => (x.cancelled, { s with saves := s.saves.map fun y =>
      if y.serial = x.serial then { y with live := false, cancelled := [] } else y })

/-- R33: the ticks for which a region was saved, charged to its islands: STOPPED, or IDLE without a unit. -/
def Island.stoppedFor (i : Island) (n : Nat) : Island :=
  if i.unit = none then { i with phase := { i.phase with idle := i.phase.idle + n } }
  else { i with charges := { i.charges with stopped := i.charges.stopped + n }
                phase := { i.phase with stopped := i.phase.stopped + n } }

/-- R34: the region as a save area holds it, its islands charged up to now. -/
def resumedRegion (s : State) (r a : Nat) : Region :=
  let x := savedRegion s r a
  { x with islands := x.islands.map fun p => (p.1, p.2.map fun i => i.stoppedFor (s.tick - savedTick s r a)) }

/-- R34: the region runs again. -/
def finishRestore (s0 : State) (r a : Nat) : State :=
  let (gone, s) := cancelledWhile s0 r a
  let s1 := s.setRegion r ((s.region r).restored (resumedRegion s r a))
  let s2 := markTasks (loadSliceMarks s1 r a) r 1
  let s3 := (s2.region r).tasks.foldl (fun t p => if p.2.hold = .free then t else mailboxMove t r p.1) s2
  if gone = [] then s3 else discardCancelled s3 r gone

/-- R34, R359: RREST_COMPLETE; an area of which a record cannot be read restores nothing. Of two cores that wait to
restore one region the second finds it restored (R285). -/
def execRrestComplete (c : CoreId) (s0 : State) : Out :=
  match (s0.task c).hold with
  | .wait (.rrest d a b) =>
    let r := ((s0.task c).get a).toNat
    let area := ((s0.task c).get b).toNat
    if (s0.region r).saved = none then .next (s0.endWait c d stBUSY 0)
    else
      let s := readArea s0 r area
      match lostWord s r area with
      | some o => .next (State.fail { s with cur := c } (.rrest d a b) (.memerr 0 (area + o) : Acc Unit))
      | none => .next ((finishRestore s r area).endWait c d stOK 0)
  | _ => .next s0

/-! ### A region given to a partition (R36) -/

/-- R36: a region in the reset state, but for what its banks hold. -/
def Region.blank (g : Region) : Bool := { g.emptied 0 with saved := none } = g

/-- R37 step 1: every bank of a region goes to the context that its tag names. -/
def releaseBanks (s : State) (r : Nat) : State :=
  (s.region r).enabled.foldl (fun t e => (upTo 128).foldl (fun u b => releaseBank u r e b) t) s

/-- R36: a partition receives a region without a save area of its own: the region is in the reset state, and its banks
hold zeros and are tagged with no context. A region that still runs is first saved (notes/assumptions/43.md). -/
def grantRegion (s : State) (r part : Nat) : State :=
  if (s.region r).saved = none && !(s.region r).blank then s
  else
    let t := releaseBanks s r
    let g := t.region r
    let own (u : Nat) : Bool := decide (elmUnit r 0 0 ≤ u) && decide (u < elmUnit (r + 1) 0 0)
    { t.setRegion r { Region.zero with
        part := part, enabled := g.enabled, spares := g.spares, suspect := g.suspect, retiring := g.retiring
        lasting := g.lasting } with
      poison := t.poison.filter fun u => !own u.1
      bad := t.bad.filter fun u => !own u.1 }

end Sys2Proof.Machine
end

