-- ==== Sys2Proof/Machine/Service.lean ====
section
/-! DEFINITION. Health, links, the host and boot (R185 to R199, R366, R367, R374, R382 to R395): parity,
alarms, snapshots, Lanika ports, mailboxes, resets, attestation and power-on. -/

namespace Sys2Proof.Machine

/-! ### Parity and alarms (R383, R199) -/

/-- R383: the unit of an island ends with END = 2 and CANC = 1, at the boundary after the tick that the hit held. -/
def parityEnd (s : State) (r k h : Nat) : State :=
  let part := (s.region r).part
  cancelParents part [h] (stopUnit (cancelCounters part [h] s) r k 2 2)

/-- R383, R392: the units whose parity hit has held its tick end; a cancellation before this boundary has taken its
unit. -/
def parityEnds (s : State) (r : Nat) : State :=
  (s.region r).islands.foldl (fun t p => match p.2.bind fun i => if i.hit = 2 then i.unit else none with
    | none => t
    | some h => parityEnd t r p.1 h) s

/-- R383: the suspect bit is set, or, where it was set, the element awaits its retirement. -/
def Region.suspectAt (g : Region) (e : Nat) : Region :=
  if g.suspect.contains e then
    { g with retiring := e :: g.retiring.filter (· ≠ e), lasting := e :: g.lasting.filter (· ≠ e) }
  else { g with suspect := g.suspect ++ [e] }

/-- R383: a parity hit in an element: its suspect bit, and its unit, whose island holds its next tick. -/
def execParityHit (r e : Nat) (s : State) : Out :=
  let g := (s.region r).suspectAt e
  match g.islandOf e with
  | none => .next (s.setRegion r g)
  | some (k, i) => match i.unit with
    | none => .next (s.setRegion r g)
    | some h =>
      let t := s.setRegion r (g.setIsland k (some { i with hit := max 1 i.hit }))
      .next (sendEvent t r (4 + r * 2 ^ 8 + e / 16 * 2 ^ 18 + e % 16 * 2 ^ 22) h 0)

/-- R199, R340: an alarm rises: HEALTH, vector 1, and the cause ALARM at the hypervisor's core. -/
def execThermalAlarm (current : Bool) (s : State) : Out :=
  if (if current then s.health.ialarm else s.health.talarm) then .next s
  else
    let h := if current then { s.health with ialarm := true } else { s.health with talarm := true }
    .next (raiseH (s.setHealth h) 0 tcALARM 0)

/-- R199: the level falls back below the alarm level. -/
def execAlarmLevelClear (current : Bool) (s : State) : Out :=
  .next (s.setHealth (if current then { s.health with ialarm := false } else { s.health with talarm := false }))

/-- R199: at the critical level every region's fabric clock stops. -/
def execCriticalStop (s : State) : Out := .next (s.setHealth { s.health with crit := true })

/-! ### Lanika: the ends of an edge (R191, R194, R374) -/

/-- The halves of turnstiles whose edges leave their regions: region, number, turnstile. -/
def edgeHalves (s : State) : List (Nat × Nat × Turnstile) :=
  s.regions.flatMap fun g => g.2.turnstiles.filterMap fun x => match x.2 with
    | some t => if t.edge = 0 then none else some (g.1, x.1, t)
    | none => none

/-- Whether a half's edge leads to another package. -/
def leavesPackage (h : Nat × Nat × Turnstile) : Bool := farEnd h.1 h.2.2.element h.2.2.port = none

/-- Whether a half sends: of two at one port the first (notes/assumptions/73.md), a single one if its element's rings
send. -/
def isSender (s : State) (h : Nat × Nat × Turnstile) : Bool :=
  let g := s.region h.1
  match g.turnsAt h.2.2.element h.2.2.port with
  | a :: _ :: _ => a.1 = h.2.1
  | _ => sendsThrough (g.element h.2.2.element) h.2.2.port

/-- The send half of a Lanika edge. -/
def sendHalf (s : State) (edge : Nat) : Option (Nat × Nat × Turnstile) :=
  (edgeHalves s).find? fun h => h.2.2.edge = edge && leavesPackage h && isSender s h

/-- The receive half of a Lanika edge, when the edge ends in this package (notes/assumptions/20.md). -/
def receiveHalf (s : State) (edge : Nat) : Option (Nat × Nat × Turnstile) :=
  (edgeHalves s).find? fun h => h.2.2.edge = edge && leavesPackage h && !isSender s h

/-- R192: the slot map at an address, as the port reads it: its entries, 14 to a tick of the frame; an idle slot of
kind 0 and edge 0 is not listed. -/
def slotMap (s : State) (base : Nat) : Map Nat :=
  (upTo 57344).filterMap fun k =>
    let v := leToNat (s.bytes (base + 2 * k) 2)
    if v = 0 then none else some (k, v)

/-- R192: the entry of a slot map for a tick of the frame and a slot. -/
def slotEntry (m : Map Nat) (f slot : Nat) : Nat := mapGet 0 m (f * 14 + slot)

/-! ### Slots, arrivals and control flits -/

/-- R194: the edge's slot: the next word not yet sent, and a token if one waits. -/
def sendSlot (s : State) (p edge : Nat) : State :=
  match sendHalf s edge with
  | none => s
  | some (r, n, t) =>
    let x := s.port p
    let word := t.send[t.sent]?
    if word = none && t.tokens = 0 then s
    else
      let seq := (t.sendSeq + t.sent) % 256
      let resent := word ≠ none && x.naks.any fun k => k.edge = edge && k.seq = seq && k.told && !k.lasting
      let w : WireWord := { edge := edge, seq := seq, word := word, token := decide (t.tokens > 0), resent := resent
                            due := s.tick + x.hop.toNat, fails := none }
      let t' : Turnstile := { t with sent := if word = none then t.sent else t.sent + 1, tokens := t.tokens - 1 }
      (s.setTurnstile r n t').setPort p { x with wire := x.wire ++ [w] }

/-- R192, R194: one word slot of a port at the current tick; EDGE of an entry of kind 0 or 2 is ignored (DESIGN CHOICE,
notes/assumptions/71.md). -/
def lanikaSlot (p slot : Nat) (s : State) : State :=
  let x := s.port p
  match x.active with
  | none => s
  | some m =>
    if x.dead || x.hop = 0 || slot ≥ 14 then s
    else
      let w := slotEntry m (s.tick % 4096) slot
      if w / 4096 > 2 then s.setPort p { x with bad := true }
      else if w / 4096 = 1 then sendSlot s p (w % 4096)
      else s

def execLanikaSlot (p slot : Nat) (s : State) : Out := .next (lanikaSlot p slot s)

/-- Tokens that go back to, or come to, a half. -/
def addTokens (s : State) (h : Option (Nat × Nat × Turnstile)) (token : Bool) : State :=
  match h with
  | some (r, n, _) => if token then onTurn s r n fun t => { t with tokens := t.tokens + 1 } else s
  | none => s

/-- R374: a good word is accepted once, by its sequence number. -/
def acceptWord (s : State) (p : Nat) (w : WireWord) : State :=
  match w.word, receiveHalf s w.edge with
  | some d, some (r, n, t) =>
    if w.seq ≠ t.recvSeq then s
    else
      let s1 := s.setTurnstile r n { t with entries := t.entries ++ [d], recvSeq := (t.recvSeq + 1) % 256 }
      let x := s1.port p
      let s2 := s1.setPort p { x with naks := x.naks.filter fun k => !(k.edge = w.edge && k.seq = w.seq) }
      if w.resent then countTransient s2 4 none else s2
  | _, _ => s

/-- R390: whether a lane of a port is being retired. -/
def Port.moves (x : Port) : Bool := x.notice ≠ none || x.moving ≠ none

/-- R390: whether a word that a lane fails was sent while a lane is being retired: until both ends have moved, and of
what the retired lane still carried afterwards. -/
def Port.retires (x : Port) (lane : Nat) : Bool := x.moves || x.retired.contains lane

/-- R390: a word that fails its check: the first failure asks for its re-sending, the failure of the
re-sent word names the lane; a word sent while a lane is being retired is asked for again and no more counted. -/
def failWord (x : Port) (w : WireWord) (lane : Nat) : Port :=
  if w.word = none then x
  else if w.resent then
    if x.retires lane then
      { x with naks := x.naks.map fun k =>
          if k.edge = w.edge && k.seq = w.seq then { k with told := false, lasting := true } else k }
    else
      { x with
        notice := some lane
        naks := x.naks.map fun k =>
          if k.edge = w.edge && k.seq = w.seq then { k with told := false, lasting := true } else k }
  else if x.naks.any fun k => k.edge = w.edge && k.seq = w.seq then
    { x with naks := x.naks.map fun k =>
        if k.edge = w.edge && k.seq = w.seq then { k with told := false, lasting := k.lasting || x.retires lane } else k }
  else { x with naks := x.naks ++ [{ edge := w.edge, seq := w.seq, told := false, lasting := x.retires lane }] }

/-- R374: whether the receive half of a word's edge has accepted the word before: it discards the duplicate. -/
def duplicate (s : State) (w : WireWord) : Bool :=
  match receiveHalf s w.edge with
  | none => false
  | some (_, _, t) => decide ((w.seq + 256 - t.recvSeq % 256) % 256 ≥ 128)

/-- R194, R390: the oldest word on the wire enters the receive half, or fails its check. -/
def wordArrive (p : Nat) (good : Bool) (lane : Nat) (s : State) : State :=
  let x := s.port p
  match x.wire with
  | [] => s
  | w :: rest =>
    if x.dead || decide (s.tick < w.due) then s
    else
      let s1 := s.setPort p { x with wire := rest }
      if good then addTokens (acceptWord s1 p w) (receiveHalf s1 w.edge) w.token
      else addTokens (if duplicate s1 w then s1 else s1.setPort p (failWord (s1.port p) w lane)) (sendHalf s1 w.edge) w.token

def execLanikaWordArrive (p : Nat) (good : Bool) (lane : Nat) (s : State) : Out := .next (wordArrive p good lane s)

/-- R390: the edge's sender goes back to a word. -/
def goBack (s : State) (k : Nak) : State :=
  if k.told then s
  else match sendHalf s k.edge with
    | none => s
    | some (r, n, _) => onTurn s r n fun t => { t with sent := min t.sent ((k.seq + 256 - t.sendSeq % 256) % 256) }

/-- R191, R194, R374: acknowledgements and pop counts of one edge. -/
def ackEdge (s : State) (h : Nat × Nat × Turnstile) : State :=
  match receiveHalf s h.2.2.edge with
  | none => s
  | some (_, _, q) => onTurn s h.1 h.2.1 fun t =>
    let k := min t.sent ((q.recvSeq + 256 - t.sendSeq % 256) % 256)
    { t with send := t.send.drop k, sent := t.sent - k, sendSeq := (t.sendSeq + k) % 256
             unreported := (t.send.drop k).length + q.entries.length }

/-- R390, R386: the traffic of a lane whose notice the sender received on the tick before moves to a spare lane;
without one the port has a lasting failure and no spare. -/
def moveLane (s : State) (p : Nat) : State :=
  let x := s.port p
  match x.moving with
  | none => s
  | some lane =>
    let t := s.setPort p { x with moving := none, retired := x.retired ++ [lane], spares := x.spares - 1 }
    retireRecord t 3 (p * 2 ^ 33 + lane % 64 * 2 ^ 38 + (if x.spares = 0 then 2 ^ 45 else 2 ^ 44)) 0 false

/-- R191: the control flits of a port; what they tell the sender of a lane acts on the next tick. -/
def controlFlits (p : Nat) (s0 : State) : State :=
  if (s0.port p).dead then s0
  else
    let s := moveLane s0 p
    let x := s.port p
    let s1 := ((edgeHalves s).filter fun h => leavesPackage h && isSender s h).foldl ackEdge s
    let s2 := x.naks.foldl goBack s1
    let y := s2.port p
    s2.setPort p { y with naks := y.naks.map fun k => { k with told := true }, moving := y.moving.or y.notice
                          notice := if y.moving = none then none else y.notice }

def execLanikaControlFlits (p : Nat) (s : State) : Out := .next (controlFlits p s)

/-! ### Frame boundaries and dead ports (R192, R193, R391) -/

/-- General slots of one tick of a map. -/
def generalAt (m : Map Nat) (f : Nat) : Nat :=
  ((upTo 14).filter fun k => slotEntry m f k / 4096 = 2).length

/-- Sums of n consecutive counts from the front, each next window one further. -/
def windowsOk : Nat → List Nat → List Nat → Nat → Bool
  | 0, _, _, _ => true
  | n + 1, front, back, sum =>
    decide (sum ≥ 8) && windowsOk n (front.drop 1) (back.drop 1) (sum - front.headD 0 + back.headD 0)

/-- R193: at least 8 general word slots in every 64 consecutive ticks, across the frame boundary too. -/
def mapServes (m : Map Nat) : Bool :=
  let g := (upTo 4096).map (generalAt m)
  windowsOk 4096 g (g.drop 64 ++ g.take 64) ((g.take 64).foldl (· + ·) 0)

/-- R359: the units of a long stretch are read, if any unit at all holds an error; whether one fails. -/
def readSpan (s : State) (chip pa n : Nat) : Bool × State :=
  if s.bad = [] && s.poison = [] then (false, s) else readUnits s chip pa n

/-- R192, R193, R208: the port reads the map at its base, checks it, and runs what it has read from this boundary; a map
of which a unit fails is refused like one that fails the check (DESIGN CHOICE, notes/assumptions/42.md). -/
def takeMap (s : State) (p : Nat) : State :=
  let x := s.port p
  if !x.pend then s
  else if !x.en then s.setPort p { x with pend := false, active := none }
  else
    let (lost, s) := readSpan s (portChiplet p) (x.mapBase.toNat * 2 ^ 17) 114688
    let m := slotMap s (x.mapBase.toNat * 2 ^ 17)
    if mapServes m && !lost then s.setPort p { x with pend := false, active := some m }
    else s.setPort p { x with pend := false, bad := true }

/-- R192, R391: a frame boundary, with the frame alignment of the frame that ends. -/
def frameBoundary (p : Nat) (aligned : Bool) (s : State) : State :=
  if s.tick % 4096 ≠ 0 then s
  else
    let x := s.port p
    takeMap (s.setPort p { x with skewed := false, misaligned := if aligned then 0 else x.misaligned + 1 }) p

def execLanikaFrameBoundary (p : Nat) (aligned : Bool) (s : State) : Out := .next (frameBoundary p aligned s)

/-- R391: a port has a reason to be declared dead: a lasting lane failure without a spare lane, or two
frames out of alignment. -/
def Port.failing (x : Port) : Bool := !x.dead && (decide (x.retired.length > 2) || decide (x.misaligned ≥ 2))

/-- R367: the stores whose route is dead fail, from the newest at index n on. -/
def failStores (pkgs : List Nat) : Nat → Nat → State → State
  | 0, _, s => s
  | n + 1, k, s => match storeAt s k with
    | none => s
    | some p => match s.place p.addr with
      | .remote q => if pkgs.contains q then failStores pkgs n k (withdraw s k p true) else failStores pkgs n (k + 1) s
      | _ => failStores pkgs n (k + 1) s

/-- R374: what was on the wire of a dead port is sent again over another. -/
def dropWire (s : State) (w : WireWord) : State :=
  match sendHalf s w.edge with
  | none => s
  | some (r, n, _) => onTurn s r n fun t => { t with sent := 0, tokens := if w.token then t.tokens + 1 else t.tokens }

/-- R391, R367: a port is declared dead; the packages are those left without a live route. -/
def portDead (p : Nat) (pkgs : List Nat) (s : State) : State :=
  let x := s.port p
  if x.dead then s
  else
    let s1 := x.wire.foldl dropWire s
    let s2 := s1.setPort p { x with dead := true, wire := [], naks := [], notice := none, moving := none, hop := 0 }
    let s3 := retireRecord s2 4 (p * 2 ^ 33) 0 false
    let s4 := fireSnapshot (s3.setHealth { s3.health with rtbusy := true, rtsince := s3.tick }) 5
    let s5 := { s4 with deadPkgs := s4.deadPkgs ++ pkgs.filter fun q => !s4.deadPkgs.contains q }
    failStores pkgs s5.stores.length 0 s5

def execPortDeclaredDead (p : Nat) (pkgs : List Nat) (s : State) : Out := .next (portDead p pkgs s)

/-- R391: general routes are recomputed; which packages have a live route again is left open. -/
def routesDone (s : State) : State :=
  if !s.health.rtbusy then s
  else
    let (n, t) := s.takeFree
    let u := t.setHealth { t.health with rtbusy := false }
    { u with deadPkgs := u.deadPkgs.filter fun q => nbit n q }

def execRouteRecomputeDone (s : State) : Out := .next (routesDone s)

/-- R194: link training fixes LK_HOP. -/
def execLinkTraining (p : Nat) (hop : BitVec 8) (s : State) : Out :=
  let x := s.port p
  if x.dead || x.hop ≠ 0 || hop < 40 || hop > 200 then .next s else .next (s.setPort p { x with hop := hop })

/-! ### The host (R185 to R190, R198) -/

/-- R186: whether a virtual function takes host accesses: boot has not entered recovery. -/
def hostReady (s : State) (p : Nat) : Bool := s.boot = .up && decide (p < 64)

/-- The bytes of a write at an offset that fall into a window of the BAR. -/
def barWindow (lo hi off : Nat) (bs : List Byte) : Nat × List Byte :=
  let a := max lo off
  (a, (bs.drop (a - off)).take (hi - a))

/-- R361: bytes of a host write at a page behind a BAR; one that would be merged into a poisoned unit is refused. -/
def hostStore (s : State) (a : Nat) (bs : List Byte) : State :=
  if bs = [] || mergesPoison s (canonPa s.pkg.toNat a) bs.length then s else s.busWrite a bs

/-- R197: the physical address of the frame that holds the measurement of the hypervisor: a frame of chiplet 0 past
the frame table of reset, which one is not given (notes/assumptions/4.md). -/
def measurementAt : Nat := 4096 * (frametabSize / 4096 + Config.measurementFrame % 2 ^ 16)

/-- A measurement as 64 bytes; what has not been measured is zero. -/
def pad64 (l : List Byte) : List Byte := (l ++ List.replicate 64 0).take 64

/-- R198: the bytes that the signature of a quote covers, offsets 0x100 to 0x1BF: format 1 and the partition number,
four bytes each; the ROM version and the security counter, four bytes each; the nonce; the two measurements;
zeros (DESIGN CHOICE for the widths inside the two fields of 8 bytes, notes/assumptions/67.md). -/
def quoteBody (s : State) (p : Nat) (nonce : List Byte) : List Byte :=
  natToLe 1 4 ++ natToLe p 4 ++ natToLe Config.romVersion 4 ++ natToLe s.fuses.counter 4 ++ nonce ++
    s.bytes measurementAt 64 ++ pad64 (s.part p).measure ++ natToLe 0 16

/-- R198: the quote: its body and its signature under the device's identity key. -/
def quoteBytes (s : State) (p : Nat) (nonce : List Byte) : List Byte :=
  let body := quoteBody s p nonce
  body ++ (upTo 3309).map fun k => Config.signature body k

/-- The nonce as 32 bytes. -/
def nonceOf (l : List Byte) : List Byte := (l ++ List.replicate 32 0).take 32

/-- R198: the hypervisor answers the request on a quote page: the quote, and then 2. -/
def answerQuote (s : State) (p b : Nat) : State :=
  (s.write (b + 0x3100) (quoteBytes s p (s.bytes (b + 0x3020) 32))).writeWord (b + 0x3000) 2

/-- R198: a write of the quote page: while its word reads 1 a request is ignored; a request is answered. -/
def quoteWrite (s : State) (p b off : Nat) (bs : List Byte) : State :=
  if s.word (b + 0x3000) = 1 then s
  else
    let t := hostStore s (b + off) bs
    if t.word (b + 0x3000) = 1 then answerQuote t p b else t

/-- R186, R188: a host write: the mailbox pages and the first 64 bytes of the quote page take it, in the
order of arrival; every other offset drops it. -/
def hostWrite (p off : Nat) (bs : List Byte) (s : State) : State :=
  match boxBase s p with
  | none => s
  | some b =>
    let m := barWindow 0 0x2000 off bs
    let q := barWindow 0x3000 0x3040 off bs
    let s1 := hostStore s (b + m.1) m.2
    if q.2 = [] then s1 else quoteWrite s1 p b q.1 q.2

def execHostMailboxWrite (p off : Nat) (bs : List Byte) (s : State) : Out :=
  if hostReady s p then .next (hostWrite p off bs s) else .next s

/-- R186, R359: the byte at an offset of the BAR as a host port's read finds it: zero at a reserved offset, and at every
offset while no pages are named; of a unit that fails the host gets what the spec leaves open
(notes/assumptions/42.md). -/
def barByte (s : State) (chip : Nat) (base : Option Nat) (off : Nat) : Byte × State :=
  match base with
  | none => (0, s)
  | some b =>
    if off ≥ 0x4000 then (0, s)
    else
      let (bad, t) := readUnits s chip (b + off) 1
      if bad then (BitVec.ofNat 8 t.takeFree.1, t.takeFree.2) else (t.busByte (b + off), t)

/-- Consecutive bytes of a BAR. -/
def barBytes (s : State) (chip : Nat) (base : Option Nat) (off : Nat) : Nat → List Byte × State
  | 0 => ([], s)
  | n + 1 =>
    let (l, t) := barBytes s chip base off n
    let (x, u) := barByte t chip base (off + n)
    (l ++ [x], u)

/-- R188: the host's read of the status page clears the pending vectors. -/
def clearVectors (s : State) (p : Nat) : State := s.setPart p { s.part p with vectors := 0 }

def execHostStatusRead (p : Nat) (s : State) : Out :=
  if hostReady s p then .next (clearVectors s p) else .next s

/-- R186, R188: a host read of n bytes of a BAR; what it returns is kept. -/
def hostRead (p off n : Nat) (s : State) : State :=
  if !hostReady s p then s
  else
    let (l, u) := barBytes s (hostChiplet (s.part p).hostPort) (boxBase s p) off n
    let t := { u with hostReads := u.hostReads ++ [(p, off, l)] }
    if off < 0x3000 && 0x2000 < off + n then clearVectors t p else t

/-- R198: a quote request: the nonce, and then 1 in the first 8 bytes of the quote page (DESIGN CHOICE for the width
of that word, notes/assumptions/67.md). -/
def execQuoteRequest (p : Nat) (nonce : List Byte) (s : State) : Out :=
  if hostReady s p then .next (hostWrite p 0x3000 (natToLe 1 8) (hostWrite p 0x3020 (nonceOf nonce) s)) else .next s

/-- R366: bus mastering of a partition's virtual function. -/
def execBusMasteringDisabled (p : Nat) (enabled : Bool) (s : State) : Out :=
  .next (s.setPart p { s.part p with busMaster := enabled })

/-! ### Resets (R190) -/

/-- R190: every counter of a partition is cancelled. -/
def cancelPartition (s : State) (p : Nat) : State :=
  (upTo 4096).foldl (fun t h => if ctrCount (ctrGet t p h) = 0 || ctrBad t p h then t else cancelAll t p h) s

/-- R190: the tasks of a partition's regions end. -/
def stopRegions (s : State) (p : Nat) : State :=
  (regionsOf s p).foldl (fun t r => (t.region r).tasks.foldl (fun u x =>
    if x.2.hold = .free then u else releaseTask u r x.1 .none .none) t) s

/-- R190: a function-level reset of a Booting or Running partition leads to Stopping, and the hypervisor
takes FLR. -/
def execFunctionLevelReset (p : Nat) (s : State) : Out :=
  if p ≥ 64 || (partState s p ≠ 1 && partState s p ≠ 2) then .next s
  else
    let s1 := setPartState (s.setPart p { s.part p with flr := true }) p 3 0
    .next (raiseH (stopRegions (cancelPartition s1 p) p) 0 tcFLR (BitVec.ofNat 64 p))

/-- R105, R190: whether a frame-table byte shows a frame that a partition holds or that is being scrubbed
after it. -/
def frameHeldBy (p : Nat) (b : Byte) : Bool := (frameState b = 1 || frameState b = 2) && b.toNat % 64 = p

/-- The addresses of bytes that differ from what an unlisted byte reads, or that a store is on its way
to. -/
def listedAddrs (s : State) : List Nat := s.mem.map (·.1) ++ s.stores.flatMap fun p => p.cells.map (·.1)

/-- R190: every frame of a partition is Free. -/
def framesFree (s : State) (p : Nat) : Bool :=
  let base := frametabBase s
  (listedAddrs s).all fun a =>
    !(decide (base ≤ a) && decide (a < base + frametabSize)) || !frameHeldBy p (s.byte a)

/-- R190: Stopping becomes Off. -/
def execPartitionOff (p : Nat) (s : State) : Out :=
  if p < 64 && partState s p = 3 && framesFree s p then
    .next (setPartState (s.setPart p { s.part p with flr := false }) p 0 0)
  else .next s

/-- What a region keeps over a reset of the device: what belongs to its silicon. -/
def Region.silicon (g : Region) : Region :=
  { Region.zero with
    enabled := g.enabled, spares := g.spares, suspect := g.suspect, retiring := g.retiring, lasting := g.lasting }

/-- R190: a reset of the whole device: every architectural state as after reset, with boot to come, the frame table of
reset among it (R105); the other bytes at their homes, their marks, retirements and the alarm levels are those of the silicon and its surroundings. -/
def deviceReset (s : State) : State :=
  { State.reset with
    sched := s.sched, free := s.free, pkg := s.pkg, tick := s.tick
    mem := s.mem.filter fun c => decide (frametabSize ≤ c.1)
    poison := (unpoison s (coversRange 0 frametabSize)).filter fun p => decide (p.1 < 2 ^ 56), bad := s.bad
    deadPkgs := s.deadPkgs, refusing := s.refusing
    waysOff := s.waysOff, rowWork := s.rowWork, spareRows := s.spareRows, epSent := s.epSent, hostReads := s.hostReads
    flash := s.flash, fuses := s.fuses
    health := { s.health with hbase := 0, rtbusy := false, crit := false }
    regions := s.regions.map fun g => (g.1, g.2.silicon)
    ports := s.ports.map fun p => (p.1, { Port.zero with
      retired := p.2.retired, spares := p.2.spares, dead := p.2.dead })
    sent := s.sent, answers := s.answers }

def execDeviceReset (s : State) : Out := .next (deviceReset s)

/-- The ASCII codes of a string (R197). -/
def ascii (s : String) : List Byte := s.toList.map fun c => BitVec.ofNat 8 c.toNat

/-- R197: the measurement of the hypervisor image, without a byte for a partition's number (DESIGN CHOICE,
notes/assumptions/88.md). -/
def hvMeasurement (image : List Byte) : List Byte := shake256 (ascii "CML9160-HV" ++ image) 8
/-- R197: the measurement of a partition's image. -/
def imageMeasurement (p : Nat) (image : List Byte) : List Byte :=
  shake256 (ascii "CML9160-IMG" ++ natToLe p 1 ++ image) 8

/-- R196 steps 2 to 4: the key hash of the image header against the fused one, its security version against
the fused counter, and the ML-DSA-65 signature of the image under that key. -/
def headerAccepted (s : State) : Bool :=
  (shake256 s.flash.key 4).take 32 = s.fuses.keyHash && decide (s.fuses.counter ≤ s.flash.version) &&
    Config.verifies s.flash.key s.flash.image s.flash.signature

/-- R196: in recovery the physical function of port 0 presents only its recovery mailbox, and no virtual function is
enabled (`hostReady`). -/
def recoveryMailbox (s : State) (port : Nat) : Bool := s.boot = .recovery && port = 0

/-- R197: the measurement of the hypervisor kept in its frame, which the frame table gives as Held. -/
def keepMeasurement (s : State) : State :=
  (s.write measurementAt (hvMeasurement s.flash.image)).write
    (nbits s.frametab.toNat 51 12 * 4096 + measurementAt / 4096) [0xC0]

/-- R196, R197: the ROM reads the header (`headerRead` says whether the flash gives it, step 1), checks it, verifies
the signature of the image, measures the image and starts the hypervisor on the steward core of chiplet 0; a step
that fails leads to recovery. -/
def execPowerOnBoot (headerRead : Bool) (s : State) : Out :=
  if s.boot ≠ .rom then .next s
  else if !headerRead || !headerAccepted s then .next { s with boot := .recovery }
  else
    let t : Task := { Task.zero with hold := .ready, level := .h, pc := Config.hypervisorEntry.setWidth 64 }
    .next { (keepMeasurement s).setStew 0 { Steward.zero with task := t } with boot := .up }

/-! ### Snapshots (R393 to R395) -/

/-- Little-endian cells of a field that differ from zero. -/
def field (off v n : Nat) : List (Nat × Byte) :=
  ((numbered (natToLe v n)).map fun p => (off + p.1, p.2)).filter fun c => c.2 ≠ 0

/-- R395: the cause codes of a dump. -/
def dumpCause : Option Stall → Nat
  | none => 0
  | some .late => 1
  | some .tsfull => 2
  | some .tsempty => 3
  | some .token => 4
  | some .stopped => 5
  | some .spill => 6
  | some .quiet => 7

/-- R395: byte 8 of a task slot. -/
def dumpTask (t : Task) : Nat :=
  if t.hold = .free then 0
  else if t.level = .k && isLive t.kcause then 3
  else if t.hold = .ready then 1
  else 2

/-- R395: the record of region r; of a saved region as its save area holds it. The occupancy of the send half of an
edge is the words that wait to leave it. -/
def dumpRegion (s : State) (r : Nat) (g0 : Region) : List (Nat × Byte) :=
  let base := 0x1000 + 0x400 * r
  let g : Region := match g0.saved with
    | none => g0
    | some a => savedRegion s r a
  let isl := g.islands.filterMap fun p => p.2.map fun i => (p.1, i)
  let cause (i : Island) : Nat := if g0.saved = none then dumpCause i.held else 5
  let causes := isl.foldl (fun n p => n + cause p.2 * 16 ^ p.1) 0
  let faults := g.elements.foldl (fun n p =>
    if p.2.ag0.fault ≠ none || p.2.ag1.fault ≠ none then n + 2 ^ (p.1 % 256) else n) 0
  (isl.flatMap fun p => field (base + 2 * p.1) (p.2.counter % 2 ^ 15 + (if p.2.unit = none then 0 else 2 ^ 15)) 2) ++
    field (base + 0x080) causes 32 ++
    (g.turnstiles.flatMap fun x => match x.2 with
      | some t => field (base + 0x0A0 + x.1) (t.entries.length + t.send.length) 1
      | none => []) ++
    (g.tasks.flatMap fun x =>
      field (base + 0x0E0 + 16 * x.1) x.2.pc.toNat 8 ++ field (base + 0x0E8 + 16 * x.1) (dumpTask x.2) 1) ++
    field (base + 0x160) faults 32 ++
    isl.flatMap fun p => field (base + 0x200 + 8 * p.1) p.2.flags.toNat 8

/-- R395: the record of chiplet c. -/
def dumpChiplet (s : State) (c : Nat) : List (Nat × Byte) :=
  let base := 0xA1000 + 0x400 * c
  let used := (s.barriers.filter fun b => b.1 / 1024 = c && b.2 ≠ none).length
  field base (mapGet 0 s.health.chipCorrected c) 8 ++ field (base + 8) (mapGet 0 s.health.chipTransient c) 8 ++
    field (base + 16) used 8

/-- R390: the lanes of a port that carry traffic. -/
def Port.lanes (x : Port) : Nat :=
  (upTo (32 + min 2 x.retired.length)).foldl (fun n k => if x.retired.contains k then n else n + 2 ^ k) 0

/-- R395: whether a port's map gives an edge a slot. -/
def ownsSlot (x : Port) (edge : Nat) : Bool :=
  match x.active with
  | none => false
  | some m => m.any fun k => k.2 = 0x1000 + edge % 4096

/-- R395: the record of Lanika port p: its lanes, and per owned edge in ascending order the last sequence
numbers sent and accepted (notes/assumptions/21.md). -/
def dumpPort (s : State) (p : Nat) : List (Nat × Byte) :=
  let x := s.port p
  let base := 0xAB000 + 0x100 * p
  let edges := (upTo 4096).filter fun e =>
    ((edgeHalves s).any fun h => h.2.2.edge = e && leavesPackage h) && ownsSlot x e
  field base x.lanes 8 ++ ((numbered (edges.take 120)).flatMap fun q =>
    let sent := match sendHalf s q.2 with
      | some (_, _, t) => (t.sendSeq + t.sent + 255) % 256
      | none => 0
    let got := match receiveHalf s q.2 with
      | some (_, _, t) => (t.recvSeq + 255) % 256
      | none => 0
    field (base + 0x10 + 2 * q.1) (sent + 256 * got) 2)

/-- R395: the dump, as the cells that differ from zero. -/
def dumpCells (s : State) (boundary source : Nat) : List (Nat × Byte) :=
  field 0 boundary 8 ++ field 8 source 1 ++ field 9 s.pkg.toNat 1 ++
    (s.regions.flatMap fun g => dumpRegion s g.1 g.2) ++ (upTo 40).flatMap (dumpChiplet s) ++
    (upTo 24).flatMap (dumpPort s)

/-- R394: the latch at boundary T: LAST, TLATCH, ARM, and every block's registers. -/
def snapshotLatch (s : State) : State :=
  match s.snapAt with
  | none => s
  | some (t, src) =>
    if s.tick ≠ t then s
    else
      let s1 := { s with snapAt := none, dump := some (dumpCells s t src) }
      match healthBase s1 with
      | none => s1
      | some b =>
        let w := controlWord s1 b
        (s1.writeWord (b + 0x100) (setBits (setBits w 15 8 src) 0 0 0)).writeWord (b + 0x120) t

def execSnapshotLatch (s : State) : Out := .next (snapshotLatch s)

/-! ### What comes from outside, or from the hypervisor by means that the spec does not give -/

/-- R191, R194: control flits of another package at the send half of an edge: words that it has accepted leave the
half, and popped words no longer count. -/
def farFlits (s : State) (p edge expected popped : Nat) : State :=
  match sendHalf s edge with
  | none => s
  | some (r, n, _) =>
    let s1 := onTurn s r n fun t =>
      let k := min t.sent ((expected + 256 - t.sendSeq % 256) % 256)
      { t with send := t.send.drop k, sent := t.sent - k, sendSeq := (t.sendSeq + k) % 256
               unreported := t.unreported - popped }
    let x := s1.port p
    s1.setPort p { x with naks := x.naks.filter fun k =>
      k.edge ≠ edge || decide ((k.seq + 256 - expected % 256) % 256 < 128) }

/-- R390: a negative acknowledgement of another package, and a notice of its receiver; a word that was asked for while a
lane was being retired stays such a word. -/
def farNak (x : Port) (edge seq : Nat) : Port :=
  let same (k : Nak) : Bool := k.edge = edge && k.seq = seq
  { x with naks := (x.naks.filter fun k => !same k) ++
    [{ edge := edge, seq := seq, told := false, lasting := x.moves || x.naks.any fun k => same k && k.lasting }] }

def farNotice (x : Port) (lane : Nat) : Port :=
  { x with moving := some lane, naks := x.naks.map fun k => { k with told := false, lasting := true } }

/-- R390: the word at an index of a wire is corrupted by a lane. -/
def corruptAt (x : Port) (index lane : Nat) : Port :=
  match x.wire[index]? with
  | none => x
  | some w => { x with wire := setAt x.wire index { w with fails := some lane } }

/-- R197: the measurement of an image of a partition that is Off. -/
def measureImage (s : State) (p : Nat) (image : List Byte) : State :=
  if s.boot = .up && partState s p = 0 then
    s.setPart p { s.part p with image := image, measure := imageMeasurement p image }
  else s

/-- What an input does. -/
def inputTurn (x : Input) (s : State) : State :=
  match x with
  | .hostRead p off n => hostRead p off n s
  | .present p port => if s.boot = .up && decide (port < 2) then s.setPart p { s.part p with hostPort := port } else s
  | .shareCore c p => if s.boot = .up && decide (p < 64) then s.setStew c { s.stew c with part := p } else s
  | .grantRegion r p => if s.boot = .up && decide (p < 64) && decide (r < 640) then grantRegion s r p else s
  | .upset u k => { s with bad := mapSet 0 s.bad u (k % 4) }
  | .measure p image => measureImage s p image
  | .farWord p w =>
    let y := s.port p
    if y.dead || y.hop = 0 then s
    else s.setPort p { y with wire := y.wire ++ [{ w with due := s.tick + y.hop.toNat }] }
  | .farFlits p edge expected popped => if (s.port p).dead then s else farFlits s p edge expected popped
  | .farNak p edge seq => if (s.port p).dead then s else s.setPort p (farNak (s.port p) edge seq)
  | .farNotice p lane => if (s.port p).dead then s else s.setPort p (farNotice (s.port p) lane)
  | .corrupt p index lane => s.setPort p (corruptAt (s.port p) index lane)
  | .misalign p => s.setPort p { s.port p with skewed := true }

/-- Bytes of a dump from an offset on. -/
def dumpBytes (cells : List (Nat × Byte)) (off : Nat) : Nat → List Byte
  | 0 => []
  | n + 1 => (findCell cells off).getD 0 :: dumpBytes cells (off + 1) n

/-- R393, R394: whether DUMP names a whole 1 MiB of this package's DRAM or CSP. -/
def dumpAreaOk (s : State) (a : Nat) : Bool :=
  decide (a < 2 ^ 52) && (upTo 256).all fun k => match s.place (a + 4096 * k), s.place (a + 4096 * k + 4095) with
    | .dram _, .dram _ => true
    | .csp _, .csp _ => true
    | _, _ => false

/-- R394: the dump has been written whole, and DONE is set. -/
def execSnapshotDumpDone (s : State) : Out :=
  match s.dump, healthBase s with
  | some cells, some b =>
    let a := s.word (b + 0x110) / 2 ^ 20 * 2 ^ 20
    let t := { s with dump := none }
    if !dumpAreaOk s a then .next t
    else
      let u := t.write a (dumpBytes cells 0 (2 ^ 20))
      .next (u.writeWord (b + 0x100) (setBits (controlWord u b) 63 63 1))
  | _, _ => .next { s with dump := none }

end Sys2Proof.Machine
end

