-- ==== Sys2Proof/Machine/Dispatch.lean ====
section
/-! DEFINITION. One arm per instruction: the meaning that executes it. -/

namespace Sys2Proof.Machine

def exec (i : Instr) (s : State) : Host.Outcome State Fault Refusal :=
  match i with
  | .add d a b u w sc => Sys2Proof.Machine.execAdd d a b u w sc s
  | .sub d a b u w sc => Sys2Proof.Machine.execSub d a b u w sc s
  | .mul d a b u w sc => Sys2Proof.Machine.execMul d a b u w sc s
  | .mulh d a b u w => Sys2Proof.Machine.execMulh d a b u w s
  | .div d a b u w sc => Sys2Proof.Machine.execDiv d a b u w sc s
  | .rem d a b u w => Sys2Proof.Machine.execRem d a b u w s
  | .and_ d a b u w => Sys2Proof.Machine.execAnd d a b u w s
  | .or_ d a b u w => Sys2Proof.Machine.execOr d a b u w s
  | .xor_ d a b u w => Sys2Proof.Machine.execXor d a b u w s
  | .sll d a b u w => Sys2Proof.Machine.execSll d a b u w s
  | .srl d a b u w => Sys2Proof.Machine.execSrl d a b u w s
  | .sra d a b w => Sys2Proof.Machine.execSra d a b w s
  | .slt d a b w => Sys2Proof.Machine.execSlt d a b w s
  | .sltu d a b w => Sys2Proof.Machine.execSltu d a b w s
  | .min_ d a b u w => Sys2Proof.Machine.execMin d a b u w s
  | .max_ d a b u w => Sys2Proof.Machine.execMax d a b u w s
  | .addi d a im => Sys2Proof.Machine.execAddi d a im s
  | .andi d a im => Sys2Proof.Machine.execAndi d a im s
  | .ori d a im => Sys2Proof.Machine.execOri d a im s
  | .xori d a im => Sys2Proof.Machine.execXori d a im s
  | .slli d a c => Sys2Proof.Machine.execSlli d a c s
  | .srli d a c => Sys2Proof.Machine.execSrli d a c s
  | .srai d a c => Sys2Proof.Machine.execSrai d a c s
  | .slti d a im => Sys2Proof.Machine.execSlti d a im s
  | .sltiu d a im => Sys2Proof.Machine.execSltiu d a im s
  | .li d imm => Sys2Proof.Machine.execLi d imm s
  | .lih d imm => Sys2Proof.Machine.execLih d imm s
  | .addil d a imm => Sys2Proof.Machine.execAddil d a imm s
  | .csrr d r => Sys2Proof.Machine.execCsrr d r s
  | .csrw d a r => Sys2Proof.Machine.execCsrw d a r s
  | .csrs d a r => Sys2Proof.Machine.execCsrs d a r s
  | .csrc d a r => Sys2Proof.Machine.execCsrc d a r s
  | .b_ o => Sys2Proof.Machine.execB o s
  | .beqz a o => Sys2Proof.Machine.execBeqz a o s
  | .bnez a o => Sys2Proof.Machine.execBnez a o s
  | .bltz a o => Sys2Proof.Machine.execBltz a o s
  | .bgez a o => Sys2Proof.Machine.execBgez a o s
  | .bgtz a o => Sys2Proof.Machine.execBgtz a o s
  | .blez a o => Sys2Proof.Machine.execBlez a o s
  | .call f o => Sys2Proof.Machine.execCall f o s
  | .callr f a => Sys2Proof.Machine.execCallr f a s
  | .ret => Sys2Proof.Machine.execRet s
  | .jr a => Sys2Proof.Machine.execJr a s
  | .ldI8 d a im sc => Sys2Proof.Machine.execLdI8 d a im sc s
  | .ldN8 d a im sc => Sys2Proof.Machine.execLdN8 d a im sc s
  | .ldI16 d a im sc => Sys2Proof.Machine.execLdI16 d a im sc s
  | .ldN16 d a im sc => Sys2Proof.Machine.execLdN16 d a im sc s
  | .ldI32 d a im sc => Sys2Proof.Machine.execLdI32 d a im sc s
  | .ldN32 d a im sc => Sys2Proof.Machine.execLdN32 d a im sc s
  | .ldI64 d a im sc => Sys2Proof.Machine.execLdI64 d a im sc s
  | .stI8 d a im sc => Sys2Proof.Machine.execStI8 d a im sc s
  | .stI16 d a im sc => Sys2Proof.Machine.execStI16 d a im sc s
  | .stI32 d a im sc => Sys2Proof.Machine.execStI32 d a im sc s
  | .stI64 d a im sc => Sys2Proof.Machine.execStI64 d a im sc s
  | .ldacq d a w u sc => Sys2Proof.Machine.execLdacq d a w u sc s
  | .strel d a b w sc => Sys2Proof.Machine.execStrel d a b w sc s
  | .fence d sc => Sys2Proof.Machine.execFence d sc s
  | .fenceLca d a => Sys2Proof.Machine.execFenceLca d a s
  | .fenceComplete c => Sys2Proof.Machine.execFenceComplete c s
  | .fenceTimeout c => Sys2Proof.Machine.execFenceTimeout c s
  | .amoadd d a b w o sc => Sys2Proof.Machine.execAmoadd d a b w o sc s
  | .amoand d a b w o sc => Sys2Proof.Machine.execAmoand d a b w o sc s
  | .amoor d a b w o sc => Sys2Proof.Machine.execAmoor d a b w o sc s
  | .amoxor d a b w o sc => Sys2Proof.Machine.execAmoxor d a b w o sc s
  | .amomin d a b w o sc => Sys2Proof.Machine.execAmomin d a b w o sc s
  | .amomax d a b w o sc => Sys2Proof.Machine.execAmomax d a b w o sc s
  | .amominu d a b w o sc => Sys2Proof.Machine.execAmominu d a b w o sc s
  | .amomaxu d a b w o sc => Sys2Proof.Machine.execAmomaxu d a b w o sc s
  | .amoswap d a b w o sc => Sys2Proof.Machine.execAmoswap d a b w o sc s
  | .cas d a b w o sc => Sys2Proof.Machine.execCas d a b w o sc s
  | .copy d a n r v t => Sys2Proof.Machine.execCopy d a n r v t s
  | .copyCfg d a t => Sys2Proof.Machine.execCopyCfg d a t s
  | .gather d a n r v t => Sys2Proof.Machine.execGather d a n r v t s
  | .scatter d a n r v t => Sys2Proof.Machine.execScatter d a n r v t s
  | .merge d a y r k t => Sys2Proof.Machine.execMerge d a y r k t s
  | .mscan d a t => Sys2Proof.Machine.execMscan d a t s
  | .waitt d a m => Sys2Proof.Machine.execWaitt d a m s
  | .waittRelease c => Sys2Proof.Machine.execWaittRelease c s
  | .ffr d a => Sys2Proof.Machine.execFfr d a s
  | .cbload d a sc w => Sys2Proof.Machine.execCbload d a sc w s
  | .abatch d a t => Sys2Proof.Machine.execAbatch d a t s
  | .bind d a h => Sys2Proof.Machine.execBind d a h s
  | .unbind d a h => Sys2Proof.Machine.execUnbind d a h s
  | .bindHoldEnd c => Sys2Proof.Machine.execBindHoldEnd c s
  | .tseal d a h t => Sys2Proof.Machine.execTseal d a h t s
  | .pfxfind d a => Sys2Proof.Machine.execPfxfind d a s
  | .topk d a t => Sys2Proof.Machine.execTopk d a t s
  | .hullw d a t => Sys2Proof.Machine.execHullw d a t s
  | .tfork d a t => Sys2Proof.Machine.execTfork d a t s
  | .tevict d a t => Sys2Proof.Machine.execTevict d a t s
  | .engineQueueHoldEnd c => Sys2Proof.Machine.execEngineQueueHoldEnd c s
  | .tagCountHoldEnd c => Sys2Proof.Machine.execTagCountHoldEnd c s
  | .engineCommandComplete region e index => Sys2Proof.Machine.execEngineCommandComplete region e index s
  | .engineCommandAbandon region e index => Sys2Proof.Machine.execEngineCommandAbandon region e index s
  | .attentionBatchComplete region index => Sys2Proof.Machine.execAttentionBatchComplete region index s
  | .attentionBatchAbandon region index => Sys2Proof.Machine.execAttentionBatchAbandon region index s
  | .launch d a n => Sys2Proof.Machine.execLaunch d a n s
  | .launchHoldEnd c => Sys2Proof.Machine.execLaunchHoldEnd c s
  | .spawn d a n => Sys2Proof.Machine.execSpawn d a n s
  | .tail => Sys2Proof.Machine.execTail s
  | .tailHoldEnd c => Sys2Proof.Machine.execTailHoldEnd c s
  | .retirementTrackerDrain region index => Sys2Proof.Machine.execRetirementTrackerDrain region index s
  | .gopen d a h => Sys2Proof.Machine.execGopen d a h s
  | .gclose d h => Sys2Proof.Machine.execGclose d h s
  | .jopen d h => Sys2Proof.Machine.execJopen d h s
  | .reconf d h => Sys2Proof.Machine.execReconf d h s
  | .reconfHoldEnd c => Sys2Proof.Machine.execReconfHoldEnd c s
  | .reconfTokenPass region => Sys2Proof.Machine.execReconfTokenPass region s
  | .waitc d h => Sys2Proof.Machine.execWaitc d h s
  | .waitcRelease c => Sys2Proof.Machine.execWaitcRelease c s
  | .cancel d l h => Sys2Proof.Machine.execCancel d l h s
  | .unitComplete region island => Sys2Proof.Machine.execUnitComplete region island s
  | .sendm d a => Sys2Proof.Machine.execSendm d a s
  | .recvm d => Sys2Proof.Machine.execRecvm d s
  | .recvmRelease c => Sys2Proof.Machine.execRecvmRelease c s
  | .barinit d a h => Sys2Proof.Machine.execBarinit d a h s
  | .bararr d sc h => Sys2Proof.Machine.execBararr d sc h s
  | .barwait d h => Sys2Proof.Machine.execBarwait d h s
  | .barwaitRelease c => Sys2Proof.Machine.execBarwaitRelease c s
  | .waita d a b => Sys2Proof.Machine.execWaita d a b s
  | .waitaRelease c => Sys2Proof.Machine.execWaitaRelease c s
  | .snap => Sys2Proof.Machine.execSnap s
  | .tret => Sys2Proof.Machine.execTret s
  | .trap n => Sys2Proof.Machine.execTrap n s
  | .hcall n => Sys2Proof.Machine.execHcall n s
  | .asyncTrapTake chiplet => Sys2Proof.Machine.execAsyncTrapTake chiplet s
  | .tlbiPage a b => Sys2Proof.Machine.execTlbiPage a b s
  | .tlbiPageall a b => Sys2Proof.Machine.execTlbiPageall a b s
  | .tlbiCid a b => Sys2Proof.Machine.execTlbiCid a b s
  | .tlbiAll a b => Sys2Proof.Machine.execTlbiAll a b s
  | .icinv a => Sys2Proof.Machine.execIcinv a s
  | .icinvAll a => Sys2Proof.Machine.execIcinvAll a s
  | .framemap d a b => Sys2Proof.Machine.execFramemap d a b s
  | .framefree d a b => Sys2Proof.Machine.execFramefree d a b s
  | .scrubComplete pa lasting => Sys2Proof.Machine.execScrubComplete pa lasting s
  | .rsave d a b => Sys2Proof.Machine.execRsave d a b s
  | .rsaveComplete c => Sys2Proof.Machine.execRsaveComplete c s
  | .rrest d a b => Sys2Proof.Machine.execRrest d a b s
  | .rrestComplete c => Sys2Proof.Machine.execRrestComplete c s
  | .ppwaitExpiry region => Sys2Proof.Machine.execPpwaitExpiry region s
  | .bankAccessRelease region elem bank => Sys2Proof.Machine.execBankAccessRelease region elem bank s
  | .islandTick region island => Sys2Proof.Machine.execIslandTick region island s
  | .loadRequestIssue region elem port => Sys2Proof.Machine.execLoadRequestIssue region elem port s
  | .loadReplyLand region elem port => Sys2Proof.Machine.execLoadReplyLand region elem port s
  | .storeQueueDrain region elem port => Sys2Proof.Machine.execStoreQueueDrain region elem port s
  | .storePerform index scope => Sys2Proof.Machine.execStorePerform index scope s
  | .storeRefused index => Sys2Proof.Machine.execStoreRefused index s
  | .remoteAccessRequest pa part write data => Sys2Proof.Machine.execRemoteAccessRequest pa part write data s
  | .agFault region elem port => Sys2Proof.Machine.execAgFault region elem port s
  | .agfaultResume region elem => Sys2Proof.Machine.execAgfaultResume region elem s
  | .agfaultDiscard region elem => Sys2Proof.Machine.execAgfaultDiscard region elem s
  | .stallWatchdog region island => Sys2Proof.Machine.execStallWatchdog region island s
  | .parityHit region elem => Sys2Proof.Machine.execParityHit region elem s
  | .dramRowRemap pa spare => Sys2Proof.Machine.execDramRowRemap pa spare s
  | .ptScopeMaxWrite part cap => Sys2Proof.Machine.execPtScopeMaxWrite part cap s
  | .ptCtxWrite c v => Sys2Proof.Machine.execPtCtxWrite c v s
  | .elFflagsWrite region v => Sys2Proof.Machine.execElFflagsWrite region v s
  | .stWinFlush chiplet => Sys2Proof.Machine.execStWinFlush chiplet s
  | .stWinDepth chiplet depth => Sys2Proof.Machine.execStWinDepth chiplet depth s
  | .ptUpWrite part v => Sys2Proof.Machine.execPtUpWrite part v s
  | .lkSlotselWrite port v => Sys2Proof.Machine.execLkSlotselWrite port v s
  | .healthCritRestart => Sys2Proof.Machine.execHealthCritRestart s
  | .thermalAlarm current => Sys2Proof.Machine.execThermalAlarm current s
  | .criticalStop => Sys2Proof.Machine.execCriticalStop s
  | .lanikaFrameBoundary port aligned => Sys2Proof.Machine.execLanikaFrameBoundary port aligned s
  | .lanikaSlot port slot => Sys2Proof.Machine.execLanikaSlot port slot s
  | .lanikaWordArrive port good lane => Sys2Proof.Machine.execLanikaWordArrive port good lane s
  | .lanikaControlFlits port => Sys2Proof.Machine.execLanikaControlFlits port s
  | .portDeclaredDead port packages => Sys2Proof.Machine.execPortDeclaredDead port packages s
  | .routeRecomputeDone => Sys2Proof.Machine.execRouteRecomputeDone s
  | .hostMailboxWrite part offset data => Sys2Proof.Machine.execHostMailboxWrite part offset data s
  | .hostStatusRead part => Sys2Proof.Machine.execHostStatusRead part s
  | .quoteRequest part nonce => Sys2Proof.Machine.execQuoteRequest part nonce s
  | .functionLevelReset part => Sys2Proof.Machine.execFunctionLevelReset part s
  | .partitionOff part => Sys2Proof.Machine.execPartitionOff part s
  | .deviceReset => Sys2Proof.Machine.execDeviceReset s
  | .powerOnBoot headerRead => Sys2Proof.Machine.execPowerOnBoot headerRead s
  | .snapshotTickMatch => Sys2Proof.Machine.execSnapshotTickMatch s
  | .snapshotPin => Sys2Proof.Machine.execSnapshotPin s
  | .snapshotLatch => Sys2Proof.Machine.execSnapshotLatch s
  | .snapshotDumpDone => Sys2Proof.Machine.execSnapshotDumpDone s
  | .vnop => Sys2Proof.Machine.execVnop s
  | .vnopUnguarded => Sys2Proof.Machine.execVnopUnguarded s
  | .vadd t u sc => Sys2Proof.Machine.execVadd t u sc s
  | .vsub t u sc => Sys2Proof.Machine.execVsub t u sc s
  | .vmul t u sc => Sys2Proof.Machine.execVmul t u sc s
  | .vmad t u sc => Sys2Proof.Machine.execVmad t u sc s
  | .vmin t u => Sys2Proof.Machine.execVmin t u s
  | .vmax t u => Sys2Proof.Machine.execVmax t u s
  | .vlogic f => Sys2Proof.Machine.execVlogic f s
  | .vshl t u sc => Sys2Proof.Machine.execVshl t u sc s
  | .vshr t u => Sys2Proof.Machine.execVshr t u s
  | .vshi f t c => Sys2Proof.Machine.execVshi f t c s
  | .vcmp f t u => Sys2Proof.Machine.execVcmp f t u s
  | .vsel q => Sys2Proof.Machine.execVsel q s
  | .vmov f m => Sys2Proof.Machine.execVmov f m s
  | .vmovi p im => Sys2Proof.Machine.execVmovi p im s
  | .vgop f => Sys2Proof.Machine.execVgop f s
  | .vfadd t sc r => Sys2Proof.Machine.execVfadd t sc r s
  | .vfsub t sc r => Sys2Proof.Machine.execVfsub t sc r s
  | .vfmul t sc r => Sys2Proof.Machine.execVfmul t sc r s
  | .vfma t sc r => Sys2Proof.Machine.execVfma t sc r s
  | .vfmin t => Sys2Proof.Machine.execVfmin t s
  | .vfmax t => Sys2Proof.Machine.execVfmax t s
  | .vfsgn f t => Sys2Proof.Machine.execVfsgn f t s
  | .vfrcp t r => Sys2Proof.Machine.execVfrcp t r s
  | .vfrsq t r => Sys2Proof.Machine.execVfrsq t r s
  | .vfexp2 t r => Sys2Proof.Machine.execVfexp2 t r s
  | .vred f t u l sc r => Sys2Proof.Machine.execVred f t u l sc r s
  | .vnarrow o r t x => Sys2Proof.Machine.execVnarrow o r t x s
  | .vwiden o r t x => Sys2Proof.Machine.execVwiden o r t x s
  | .vpermb => Sys2Proof.Machine.execVpermb s
  | .vnib f h => Sys2Proof.Machine.execVnib f h s
  | .vpack f t u sc => Sys2Proof.Machine.execVpack f t u sc s
  | .vshuf f l c => Sys2Proof.Machine.execVshuf f l c s
  | .vldm t o => Sys2Proof.Machine.execVldm t o s
  | .vstm g t o => Sys2Proof.Machine.execVstm g t o s
  | .vldl t o => Sys2Proof.Machine.execVldl t o s
  | .vstl g t o => Sys2Proof.Machine.execVstl g t o s
  | .vpop p => Sys2Proof.Machine.execVpop p s
  | .vpush p g => Sys2Proof.Machine.execVpush p g s
  | .vsend g => Sys2Proof.Machine.execVsend g s
  | .tksend g k => Sys2Proof.Machine.execTksend g k s
  | .tkwait k => Sys2Proof.Machine.execTkwait k s
  | .vatom f g t u => Sys2Proof.Machine.execVatom f g t u s
  | .shape e w => Sys2Proof.Machine.execShape e w s
  | .mbloadQueue p => Sys2Proof.Machine.execMbloadQueue p s
  | .mbloadRegister w x => Sys2Proof.Machine.execMbloadRegister w x s
  | .mrun sc c p m => Sys2Proof.Machine.execMrun sc c p m s
  | .mrdacc => Sys2Proof.Machine.execMrdacc s
  | .mfma64 sc r => Sys2Proof.Machine.execMfma64 sc r s
  | .qst n w p g t sc m => Sys2Proof.Machine.execQst n w p g t sc m s
  | .vcld n p t sc r => Sys2Proof.Machine.execVcld n p t sc r s
  | .agcfg p x c k => Sys2Proof.Machine.execAgcfg p x c k s
  | .agbase p => Sys2Proof.Machine.execAgbase p s
  | .agrun f n p => Sys2Proof.Machine.execAgrun f n p s
  | .mzero r => Sys2Proof.Machine.execMzero r s
  | .alarmLevelClear current => Sys2Proof.Machine.execAlarmLevelClear current s
  | .linkTraining port hop => Sys2Proof.Machine.execLinkTraining port hop s
  | .illegalEncoding word => Sys2Proof.Machine.execIllegalEncoding word s
  | .fetchFault va => Sys2Proof.Machine.execFetchFault va s
  | .busMasteringDisabled part enabled => Sys2Proof.Machine.execBusMasteringDisabled part enabled s

end Sys2Proof.Machine
end

