-- ==== Sys2Proof/Machine/Turns.lean ====
section
/-! DEFINITION. Whose turn it is, and the tick of the fabric clock (notes/assumptions/1.md): what the agents
of the package may do next, and what happens at a tick boundary. -/

namespace Sys2Proof.Machine

/-! ### What may happen next -/

/-- R34: a region's agents move unless its clock is stopped for pre-emption or it is saved. -/
def Region.awake (g : Region) : Bool := !g.frozen && g.saved = none

/-- Whether a control core issues an instruction. -/
def coreMoves (s : State) (c : CoreId) : Bool :=
  (s.task c).hold = .ready && match c with
    | .seq r _ => (s.region r).awake
    | .stew _ => true

/-- R30: the slot of a sequencer whose turn comes next: the first ready one in rotation. -/
def readySlot (g : Region) : Option Nat :=
  ((upTo 8).map fun k => (g.nextSlot + k) % 8).find? fun n => (g.task n).hold = .ready

/-- The control cores that may issue: every steward core that is ready, and of each sequencer the task whose turn it
is (R30). -/
def issuers (s : State) : List CoreId :=
  ((s.stews.map fun c => CoreId.stew c.1).filter (coreMoves s)) ++ s.regions.filterMap fun g =>
    if g.2.awake then (readySlot g.2).map (CoreId.seq g.1) else none

/-- R30: after the turn of a slot the rotation goes on with the next one. -/
def rotate (t : Turn) (s : State) : State :=
  match t with
  | .core (.seq r n) => s.setRegion r { s.region r with nextSlot := (n + 1) % 8 }
  | _ => s

/-- The control cores that hold a task, stewards first. -/
def taskCores (s : State) : List CoreId :=
  (s.stews.map fun c => CoreId.stew c.1) ++ s.regions.flatMap fun g => g.2.tasks.map fun t => CoreId.seq g.1 t.1

/-- The events that may end the wait of a core. -/
def waitEvents (c : CoreId) : Hold → List Instr
  | .fence _ _ _ _ _ => [.fenceComplete c, .fenceTimeout c]
  | .strel _ _ _ _ _ => [.fenceComplete c, .fenceTimeout c]
  | .wait (.waitt _ _ _) => [.waittRelease c]
  | .wait (.bind _ _ _) => [.bindHoldEnd c]
  | .wait (.unbind _ _ _) => [.bindHoldEnd c]
  | .wait (.launch _ _ _) => [.launchHoldEnd c]
  | .wait .tail => [.tailHoldEnd c]
  | .wait (.reconf _ _) => [.reconfHoldEnd c]
  | .wait (.waitc _ _) => [.waitcRelease c]
  | .wait (.recvm _) => [.recvmRelease c]
  | .wait (.barwait _ _) => [.barwaitRelease c]
  | .wait (.waita _ _ _) => [.waitaRelease c]
  | .changed (.waita _ _ _) => [.waitaRelease c]
  | .counted (.waitc _ _) _ => [.waitcRelease c]
  | .wait (.rsave _ _ _) => [.rsaveComplete c]
  | .wait (.rrest _ _ _) => [.rrestComplete c]
  | .wait _ => [.engineQueueHoldEnd c, .tagCountHoldEnd c]
  | _ => []

/-- The events of one engine's queue. -/
def queueEvents (r : Nat) (e : Engine) (q : List Command) : List Instr :=
  (numbered q).flatMap fun c =>
    if isBatch c.2.instr then [.attentionBatchComplete r c.1, .attentionBatchAbandon r c.1]
    else [.engineCommandComplete r e c.1, .engineCommandAbandon r e c.1]

/-- The events of an address-generator port. -/
def portEvents (r e p : Nat) (a : AgPort) : List Instr :=
  if a.kind = 1 then
    (if a.fault = none && decide (a.next < a.count) then [.loadRequestIssue r e p, .agFault r e p] else []) ++
      if a.queue.any fun q => !q.landed then [.loadReplyLand r e p] else []
  else if drainHead a = none then [] else [.storeQueueDrain r e p, .agFault r e p]

/-- The events of an island. -/
def islandEvents (r k : Nat) (i : Island) : List Instr :=
  if i.unit = none then []
  else (if i.trips = 0 then [.unitComplete r k] else []) ++ if i.held = none then [] else [.stallWatchdog r k]

/-- The events inside a region. -/
def regionEvents (r : Nat) (g : Region) : List Instr :=
  if g.saved ≠ none then []
  else
    queueEvents r .copy g.copyq ++ queueEvents r .merge g.mergeq ++ queueEvents r .attention g.pipeq ++
      (g.trackers.filterMap fun t => t.2.map fun _ => Instr.retirementTrackerDrain r t.1) ++
      (if g.token = none then [] else [.reconfTokenPass r]) ++
      (if g.deferred = none then [] else [.ppwaitExpiry r]) ++
      (g.islands.flatMap fun i => match i.2 with
        | some x => islandEvents r i.1 x
        | none => []) ++
      g.elements.flatMap fun e => portEvents r e.1 0 e.2.ag0 ++ portEvents r e.1 1 e.2.ag1

/-- The events of pending stores: each reaches its next scope, or its refusal returns. -/
def storeEvents (s : State) : List Instr :=
  (numbered s.stores).flatMap fun p =>
    .storePerform p.1 (BitVec.ofNat 3 (min 7 (p.2.reached + 1))) ::
      if storeRefusedAt s p.1 p.2 then [.storeRefused p.1] else []

/-- R391: packages that a port's death leaves without a live route: left open. -/
def lostPackages (s : State) : List Nat := (upTo 64).filter fun q => nbit (Config.freeNat s.free) q

/-- The frame of a byte at an offset of the frame table (R105). -/
def frameOf (o : Nat) : Nat :=
  if o < 0x8000000 then o * 4096
  else 0x10000000000 + (o - 0x8000000) / 0x8000 * 0x8000000 + (o - 0x8000000) % 0x8000 * 4096

/-- R107, R108: the frames that the scrub engine works on: those of `framefree`, and those whose byte level H has
written to Scrubbing. -/
def scrubbing (s : State) : List Nat :=
  let base := frametabBase s
  s.scrubs ++ ((listedAddrs s).filter fun a => decide (base ≤ a) && decide (a < base + frametabSize) &&
    frameState (s.byte a) = 2).map fun a => frameOf (a - base)

/-- The events of links, memory and service. -/
def packageEvents (s : State) : List Instr :=
  (s.ports.filterMap fun p => if p.2.failing then some (.portDeclaredDead p.1 (lostPackages s)) else none) ++
    (if s.health.rtbusy then [.routeRecomputeDone] else []) ++
    ((scrubbing s).map fun pa => .scrubComplete pa false) ++
    (s.rowWork.flatMap fun u => [.dramRowRemap u true, .dramRowRemap u false]) ++
    (s.spills.map fun x => .bankAccessRelease x.1 x.2.1 x.2.2) ++
    (if s.dump = none then [] else [.snapshotDumpDone]) ++
    (s.stews.filterMap fun c => if c.2.pending = [] then none else some (.asyncTrapTake c.1)) ++
    s.parts.filterMap fun p => if partState s p.1 = 3 then some (.partitionOff p.1) else none

/-- Everything that may happen next; a tick always may. -/
def candidates (s : State) : List Turn :=
  (issuers s).map Turn.core ++
    ((taskCores s).flatMap fun c => waitEvents c (s.task c).hold).map Turn.event ++
    (s.regions.flatMap fun g => regionEvents g.1 g.2).map Turn.event ++
    (storeEvents s).map Turn.event ++ (packageEvents s).map Turn.event ++ [.tick]

/-- The turn to take, and the state once it is chosen: the head of the agenda, else a candidate. -/
def pickTurn (s : State) : Turn × State :=
  match s.agenda with
  | t :: rest => (t, { s with agenda := rest })
  | [] =>
    let l := candidates s
    let t := l.getD (s.sched % l.length) .tick
    (t, rotate t { s with sched := s.sched + 1, free := s.free + 1 })

/-! ### A tick boundary -/

/-- R142: the turnstile at the far end of an edge that crosses regions in the package. -/
def farHalf (s : State) (r : Nat) (t : Turnstile) : Option (Nat × Nat × Turnstile) :=
  match farEnd r t.element t.port with
  | none => none
  | some (q, e) =>
    match (s.region q).turnstiles.find? fun x => match x.2 with
      | some u => u.edge = t.edge && u.element = e && u.port = oppPort t.port
      | none => false with
    | some (n, some u) => some (q, n, u)
    | _ => none

/-- R142: words and tokens of a send half that stay in the package: the words go onto the stream network, and those
that its fixed latency has brought across enter the far half. Until then they count toward the producer's full line alone,
as R194 has it of edges across packages (DEDUCED, notes/assumptions/73.md). -/
def crossEdge (s : State) (h : Nat × Nat × Turnstile) : State :=
  match (s.region h.1).turn h.2.1 with
  | none => s
  | some t =>
    if leavesPackage h || !isSender s h then s
    else match farHalf s h.1 t with
      | none => s
      | some (q, n, u) =>
        let under := t.crossing ++ t.send.map fun w => (s.tick + Config.edgeLag t.edge, w)
        let arrived := under.filter fun w => decide (w.1 ≤ s.tick)
        let left := under.filter fun w => decide (s.tick < w.1)
        let k := min t.tokens (8 - u.tokens)
        let v := { u with entries := u.entries ++ arrived.map (·.2), tokens := u.tokens + k }
        (s.setTurnstile q n v).setTurnstile h.1 h.2.1
          { t with send := [], crossing := left, unreported := v.entries.length + left.length, tokens := t.tokens - k }

/-- R145: the tokens of a send half's lane that have left the half and are not yet popped: at the far half and, towards
another package, on the wire. -/
def tokensAhead (s : State) (r : Nat) (t : Turnstile) : Nat :=
  let far := match farEnd r t.element t.port with
    | some _ => farHalf s r t
    | none => receiveHalf s t.edge
  let wired (x : Port) : Nat := (x.wire.filter fun w => w.edge = t.edge && w.token).length
  (match far with
    | some (_, _, u) => u.tokens
    | none => 0) + (if farEnd r t.element t.port = none then (s.ports.map fun p => wired p.2).sum else 0)

/-- R145, R194: the token line of a send half counts every token sent through its edge and not yet popped. -/
def laneLine (s : State) (h : Nat × Nat × Turnstile) : State :=
  if isSender s h then onTurn s h.1 h.2.1 fun t => { t with tokenLine := t.tokens + tokensAhead s h.1 t } else s

/-- R142, R145: the lines follow the occupancies at the boundary. -/
def Turnstile.latchLines (t : Turnstile) : Turnstile := { t with line := t.entries.length, tokenLine := t.tokens }

def Region.latchLines (g : Region) : Region :=
  { g with turnstiles := g.turnstiles.map fun x => (x.1, x.2.map Turnstile.latchLines) }

/-- R191 to R194, R390, R391: what a Lanika port does at a tick. -/
def portTick (s : State) (p : Nat) : State :=
  let s1 := frameBoundary p (!(s.port p).skewed) s
  let s2 := (s1.port p).wire.foldl (fun t w =>
    if w.due ≤ t.tick then wordArrive p (w.fails = none) (w.fails.getD 0) t else t) s1
  let s3 := controlFlits p s2
  (upTo 14).foldl (fun t k => lanikaSlot p k t) s3

/-- R387: an element of an island with a unit whose lasting fault gives a parity hit again. -/
def parityAgain (g : Region) (i : Island) : Option Nat :=
  if i.unit = none || i.hit ≠ 0 then none else g.lasting.find? fun e => i.covers e

/-- The islands whose ticks follow a tick boundary. A unit in an island that covers an element with a lasting
fault takes its parity hit at its first tick, which performs nothing (R383, R387); no clock runs at the critical
level (R199). -/
def tickAgenda (s : State) : List Turn :=
  s.regions.flatMap fun g =>
    if g.2.saved ≠ none then []
    else g.2.islands.flatMap fun i => match i.2 with
      | none => []
      | some x =>
        let again := if s.health.crit || g.2.frozen then none else parityAgain g.2 x
        (again.toList.map fun e => Turn.event (.parityHit g.1 e)) ++ [Turn.event (.islandTick g.1 i.1)]

/-- R137, R33: the units that are over once the islands have moved complete at the same boundary. -/
def overAgenda (s : State) : List Turn :=
  s.regions.flatMap fun g => g.2.islands.filterMap fun i => match i.2 with
    | some x => if x.unit = none then none else some (Turn.event (.unitComplete g.1 i.1))
    | none => none

/-- R119: a wait of a core that has lasted LIMIT ticks ends. -/
def fenceLimitTick (s : State) (c : CoreId) : State :=
  match storeWait (s.task c) with
  | none => s
  | some (scope, limit, since) =>
    if limit = 0 || decide (s.tick - since < limit) then s else finishWait s c (!fenceOver s c scope)

/-- R391: the routes are recomputed within 4,096 ticks. -/
def routesTick (s : State) : State :=
  if s.health.rtbusy && decide (s.tick - s.health.rtsince ≥ 4096) then routesDone s else s

/-- R394: source 6. -/
def matchTick (s : State) : State :=
  match healthBase s with
  | none => s
  | some b => if s.word (b + 0x108) = s.tick then fireSnapshot s 6 else s

/-- R383, R349: what a boundary of its clock ends or begins in a region whose clock runs. -/
def regionTick (s : State) (r : Nat) : State :=
  if (s.region r).awake && !s.health.crit then parityEnds (agActs s r) r else s

/-- One boundary of the fabric clock: the tick count, what the links bring, what crosses regions, the lines, what
ends, the latch, and then the ticks of the islands. -/
def tickTurn (s : State) : State :=
  let s1 : State := { s with tick := s.tick + 1 }
  let s2 : State := s1.ports.foldl (fun t p => portTick t p.1) s1
  let s3 : State := (edgeHalves s2).foldl crossEdge s2
  let s4 : State := { s3 with regions := s3.regions.map fun g => (g.1, g.2.latchLines) }
  let s4 : State := (edgeHalves s4).foldl laneLine s4
  let s5 : State := s4.regions.foldl (fun t g => regionTick t g.1) s4
  let s6 : State := (taskCores s5).foldl fenceLimitTick (routesTick s5)
  let s7 : State := matchTick (snapshotLatch s6)
  { s7 with agenda := tickAgenda s7 ++ overAgenda s7 ++ s7.agenda }

/-- R280, R25, R27: the tasks that hold on a word which a store has changed, or on a counter that has reached zero:
their hold ends, whatever the word or the counter holds by the time they go on. -/
def noteWait (s : State) (c : CoreId) : State :=
  match (s.task c).hold with
  | .wait (.waita d a b) =>
    let t := { s with cur := c }
    match (coreRead t (t.reg a).toNat 8 .read (scopeCode (capMe t 7).1)).1 with
    | .ok bs => if BitVec.ofNat 64 (leToNat bs) = t.reg b then s
        else s.setTask c { s.task c with hold := .changed (.waita d a b) }
    | _ => s
  | .wait (.waitc d h) =>
    let w := ctrGet s (s.partOf c) h.toNat
    if ctrCount w = 0 then s.setTask c { s.task c with hold := .counted (.waitc d h) (ctrCanc w) } else s
  | _ => s

def noteWaits (s : State) : State := (taskCores s).foldl noteWait s

/-! ### What a turn executes -/

/-- The instruction of an op turn: the op word at the element's counter. -/
def opTurnWord (s : State) (r e : Nat) : Instr :=
  let g := s.region r
  match g.islandOf e with
  | none => instrOf ((g.element e).ops.getD 0 0)
  | some (_, i) => instrOf (opWord i (g.element e) i.counter)

/-- The state in which a control core moves. -/
def State.asCore (s : State) (c : CoreId) : State := { s with cur := c }

/-- The state in which an element moves. -/
def State.asElement (s : State) (r e : Nat) : State := { s with focus := (r, e) }

/-- Little-endian bytes of a word that a loader places. -/
def programBytes (w : Nat) : List Byte := natToLe w 8

/-- The address at which `withFetchWord` places a word. -/
def programBase : Nat := 0x10000000

/-- The steward core of chiplet 0 about to fetch at an address, at level H. -/
def Steward.startAt (x : Steward) (pc : Nat) : Steward :=
  { x with task := { x.task with hold := .ready, level := .h, pc := BitVec.ofNat 64 pc } }

end Sys2Proof.Machine
end

