-- ==== Sys2Proof/Machine/Step.lean ====
section
/-! DEFINITION. One step of the machine: the turn that comes next. -/

namespace Sys2Proof.Machine

/-- What a turn does: a control core fetches and executes one instruction, an event happens, an element
issues one op where its clock runs (R34, R199), the fabric clock ticks, or something comes from outside. -/
def turn (t : Turn) (s : State) : Host.Outcome State Fault Refusal :=
  match t with
  | .core c =>
    if coreMoves s c then exec (fetchInstr (s.asCore c)).1 (fetchInstr (s.asCore c)).2 else .next s
  | .event i => exec i s
  | .op r e => if (s.region r).awake && !s.health.crit then exec (opTurnWord s r e) (s.asElement r e) else .next s
  | .tick => .next (tickTurn s)
  | .input x => .next (inputTurn x s)

/-- What follows a turn: the tasks that a store or a counter at zero has released (R280, R25). -/
def afterTurn : Host.Outcome State Fault Refusal → Host.Outcome State Fault Refusal
  | .next t => .next (noteWaits t)
  | o => o

/-- One step: the head of the agenda, or, while it is empty, one of the things that may happen next. -/
def step (s : State) : Host.Outcome State Fault Refusal := afterTurn (turn (pickTurn s).1 (pickTurn s).2)

/-- The state with an instruction of the opcode table where the next step finds it: an op word in the
rings of element 0 of region 0, whose turn it is, or a word in memory where the started steward core of
chiplet 0 fetches (notes/assumptions/3.md). -/
def State.withFetchWord (s : State) (nbits w : Nat) : State :=
  if nbits = 24 then
    let g := s.region 0
    { s.setRegion 0 (g.setElement 0 { g.element 0 with ops := List.replicate 32 w }) with agenda := [.op 0 0] }
  else
    { (s.write programBase (programBytes w)).setStew 0 ((s.stew 0).startAt programBase) with
      boot := .up, agenda := [.core (.stew 0)] }

end Sys2Proof.Machine
end

