-- ==== Sys2Proof/Safety.lean ====
section
/-! DEFINITION. What a safe run is, in the terms that the statements use: the invariant of memory, what a
turn may leave alone, and how a result is read. -/

namespace Sys2Proof.Machine

/-- The invariant of every step: memory stands in its canonical form, so that equal contents are equal
data. -/
def State.Inv (s : State) : Prop := Memory.wf s.mem = true

/-- Every byte of memory reads the same in two states. -/
def sameMemory (s t : State) : Prop := ∀ a, t.byte a = s.byte a

/-- Every byte of memory reads the same in two states, but for n bytes from an address. -/
def sameBut (s t : State) (a n : Nat) : Prop :=
  ∀ x, (∀ k, k < n → canonPa s.pkg.toNat x ≠ canonPa s.pkg.toNat (a + k)) → t.byte x = s.byte x

/-- Every part of the machine but its regions and steward cores is the same. -/
def sameMachine (s t : State) : Prop := { t with regions := s.regions, stews := s.stews } = s

/-- Two states that differ in the task of the current core alone: all of memory, every other task, every
other part of every region and steward core and every special register of the machine is the same. -/
def onlyMe (s t : State) : Prop :=
  sameMachine s t ∧ (∀ c, c ≠ s.cur → t.task c = s.task c) ∧
    (∀ r, { t.region r with tasks := [] } = { s.region r with tasks := [] }) ∧
    (∀ c, { t.stew c with task := Task.zero } = { s.stew c with task := Task.zero })

/-- Two states that differ in one region alone. -/
def onlyRegion (r : Nat) (s t : State) : Prop :=
  { t with regions := s.regions } = s ∧ ∀ q, q ≠ r → t.region q = s.region q

/-- Two states that differ in one steward core alone. -/
def onlyStew (c : Nat) (s t : State) : Prop :=
  { t with stews := s.stews } = s ∧ ∀ d, d ≠ c → t.stew d = s.stew d

/-! ### How one instruction of a control core ends -/

/-- The task of the current core became `m`, and nothing else changed. -/
def ends (s t : State) (m : Task) : Prop := t.me = m ∧ onlyMe s t ∧ sameMemory s t

/-- The instruction wrote the value `v` to register `d` (s0 discards it, R202), moved the pc past its `n`
bytes, ORed `f` into the task's flags (R59), and changed nothing else: every other register of the window
ring, every other register of the task, every other part of the machine and every byte of memory. -/
def retires (s t : State) (n : Nat) (d : BitVec 5) (v : Word) (f : Flags) : Prop :=
  t.reg d = (if d = 0 then 0 else v) ∧ (∀ r, r ≠ d → t.reg r = s.reg r) ∧
    ends s t { s.me.set d v with pc := s.me.pc + BitVec.ofNat 64 n, fflags := s.me.fflags ||| f }

/-- The instruction moved the pc to `pc` and changed nothing else. -/
def jumps (s t : State) (pc : Word) : Prop := ends s t { s.me with pc := pc }

/-! ### Integers (R41, R225) -/

/-- The low w bits of a register as an integer of the type. -/
def lowInt (w : Nat) (uns : Bool) (x : Word) : Int :=
  if uns then (x.toNat : Int) % 2 ^ w else Int.bmod (x.toNat : Int) (2 ^ w)

/-- Whether an integer lies in the range of a type. -/
def inType (w : Nat) (uns : Bool) (z : Int) : Prop :=
  if uns then 0 ≤ z ∧ z < 2 ^ w else - 2 ^ (w - 1) ≤ z ∧ z < 2 ^ (w - 1)

/-- `z` is the integer of the type that agrees with `r` in its low w bits. -/
def wrapsTo (w : Nat) (uns : Bool) (r z : Int) : Prop := inType w uns z ∧ (2 ^ w : Int) ∣ z - r

/-- `z` is the integer of the type that is nearest to `r`. -/
def clampsTo (w : Nat) (uns : Bool) (r z : Int) : Prop :=
  inType w uns z ∧ ∀ y, inType w uns y → (z - r).natAbs ≤ (y - r).natAbs

/-- R41: the value and the flags of an exact result with and without the `sat` key. -/
def narrows (w : Nat) (uns sat : Bool) (r z : Int) (f : Flags) : Prop :=
  if sat then clampsTo w uns r z ∧ f = (if z = r then 0 else fSAT) else wrapsTo w uns r z ∧ f = 0

/-- R205: the width that the field fn[8:7] names. -/
def bitsOf (w : BitVec 2) : Nat := 64 / 2 ^ w.toNat

/-! ### Memory -/

/-- The integer that little-endian bytes hold, read as the type says (R2, R234). -/
def bytesInt (uns : Bool) (bs : List Byte) : Int :=
  if uns then (leToNat bs : Int) else Int.bmod (leToNat bs : Int) (2 ^ (8 * bs.length))

/-- n bytes of DRAM or scratchpad in one page, outside the snapshot control words (R393), with no poisoned and no
failing unit in the machine. -/
def plainAt (s : State) (a n : Nat) : Prop :=
  a < 2 ^ 52 ∧ a % 4096 + n ≤ 4096 ∧ ((∃ k, s.place a = .dram k) ∨ ∃ k, s.place a = .csp k) ∧
    (∀ k, k < n → controlOff s (canonPa s.pkg.toNat (a + k)) = none) ∧
    (∀ u, mapGet false s.poison u = false) ∧ ∀ u, mapGet 0 s.bad u = 0

/-- n bytes of region-shared memory that a sequencer reaches: in range, in enabled elements, in banks of
the region's context, with no poisoned and no failing unit in the machine (R37, R84, R86). -/
def windowAt (s : State) (r a n : Nat) : Prop :=
  (∀ k, k < n → elmReach (s.region r) (rsmElem ((a + k) % 2 ^ 27)) (rsmOff ((a + k) % 2 ^ 27)) = true ∧
    bankMine (s.region r) (rsmElem ((a + k) % 2 ^ 27)) (rsmOff ((a + k) % 2 ^ 27) / 0xC00) = true) ∧
    (∀ u, mapGet false s.poison u = false) ∧ ∀ u, mapGet 0 s.bad u = 0

/-- n bytes of region-shared memory by their virtual address (R235), which an agent of the region reaches. -/
def sharedAt (s : State) (r a n : Nat) : Prop := 2 ^ 64 - 2 ^ 27 ≤ a ∧ a + n ≤ 2 ^ 64 ∧ windowAt s r a n

/-- The byte of an element's memory. -/
def State.elmByte (s : State) (r e off : Nat) : Byte := mapGet 0 ((s.region r).element e).elm off

/-- The byte of region-shared memory at a virtual address (R84, R235), and the little-endian number in n of them. -/
def State.sharedByte (s : State) (r a : Nat) : Byte := s.elmByte r (a % 2 ^ 27 / 2 ^ 19) (a % 2 ^ 19)
def State.sharedNum (s : State) (r a n : Nat) : Nat := leToNat ((List.range n).map fun k => s.sharedByte r (a + k))

/-- A state that differs from another in bytes of a region's element memories, in the marks of units, of which none is
set, and in the count of free values alone. -/
def sharedOnly (r : Nat) (s t : State) : Prop :=
  { t with regions := s.regions, poison := s.poison, free := s.free } = s ∧ (∀ u, mapGet false t.poison u = false) ∧
    (∀ q, q ≠ r → t.region q = s.region q) ∧ { t.region r with elements := [] } = { s.region r with elements := [] } ∧
    ∀ e, { (t.region r).element e with elm := [] } = { (s.region r).element e with elm := [] }

/-- Every byte of region-shared memory but those of a set reads the same. -/
def sharedKept (r : Nat) (s t : State) (written : Nat → Prop) : Prop :=
  ∀ a, 2 ^ 64 - 2 ^ 27 ≤ a → a < 2 ^ 64 → ¬ written a → t.sharedByte r a = s.sharedByte r a

/-! ### Control registers (R207, R229) -/

/-- The fields of a control register whose write is the plain one of R229: the bits that are RW, the bits
that are W1C, and the RO bits that a write keeps (R3). The registers with a write of their own (EL_FFLAGS,
EL_AGFAULT, SQ_CBSTAT, ST_WIN, PT_UP, HEALTH, LK_SLOTSEL) and the RO ones are not listed. -/
def csrFields (n : Nat) : Option (Word × Word × Word) :=
  let bits := fun hi lo : Nat => BitVec.ofNat 64 (2 ^ (hi + 1) - 2 ^ lo)
  match n with
  | 0x010 => some (bits 10 0, 0, 0)
  | 0x020 => some (bits 6 0, 0, 0)
  | 0x021 => some (bits 6 0, 0, 0)
  | 0x022 => some (bits 63 10, bits 0 0, bits 7 5)
  | 0x023 => some (bits 63 10, bits 0 0, bits 7 5)
  | 0x025 => some (0, bits 63 0, 0)
  | 0x026 => some (0, bits 63 63, bits 62 0)
  | 0x027 => some (0, bits 63 63, bits 62 0)
  | 0x031 => some (0, bits 63 63, bits 62 0)
  | 0x035 => some (bits 31 0, 0, 0)
  | 0x050 => some (bits 63 60 ||| bits 56 12 ||| bits 0 0, bits 11 11, 0)
  | 0x051 => some (bits 31 0, 0, 0)
  | 0x052 => some (bits 63 60 ||| bits 56 12 ||| bits 0 0, bits 11 11, 0)
  | 0x053 => some (bits 31 0, 0, 0)
  | 0x055 => some (bits 31 0, 0, 0)
  | 0x056 => some (bits 31 0, 0, 0)
  | 0x057 => some (bits 11 0, 0, 0)
  | 0x100 => some (bits 63 52 ||| bits 39 0, 0, 0)
  | 0x101 => some (bits 2 0, 0, 0)
  | 0x102 => some (bits 31 0, 0, 0)
  | 0x103 => some (bits 31 0, 0, 0)
  | 0x104 => some (bits 51 15, 0, 0)
  | 0x105 => some (bits 56 16, 0, 0)
  | 0x106 => some (bits 51 14, 0, 0)
  | 0x107 => some (bits 56 12, 0, 0)
  | 0x110 => some (bits 56 2, 0, 0)
  | 0x111 => some (bits 63 52 ||| bits 39 0, 0, 0)
  | 0x120 => some (bits 63 61 ||| bits 47 32 ||| bits 7 0, 0, 0)
  | 0x121 => some (bits 63 0, 0, 0)
  | 0x122 => some (bits 63 0, 0, 0)
  | 0x123 => some (bits 63 0, 0, 0)
  | 0x124 => some (bits 63 61 ||| bits 47 32 ||| bits 7 0, 0, 0)
  | 0x125 => some (bits 63 0, 0, 0)
  | 0x126 => some (bits 63 0, 0, 0)
  | 0x127 => some (bits 63 0, 0, 0)
  | 0x200 => some (bits 51 12, 0, 0)
  | 0x220 => some (bits 63 61 ||| bits 47 32 ||| bits 7 0, 0, 0)
  | 0x221 => some (bits 63 0, 0, 0)
  | 0x222 => some (bits 63 0, 0, 0)
  | 0x223 => some (bits 63 0, 0, 0)
  | 0x224 => some (bits 51 2, 0, 0)
  | _ => none

/-! ### Exceptions (R340 to R344) -/

/-- The first word of a trap record: LIVE, the level entered from, INFO and CODE (R341). -/
def recordWord (l : Level) (info code : Nat) : Word :=
  BitVec.ofNat 64 (2 ^ 63 + l.num * 2 ^ 61 + info % 2 ^ 16 * 2 ^ 32 + code)

/-- The current task took a precise trap to K: its record holds the cause, the pc and the value, its level
is K, its pc is the handler that PT_KVEC names (a 57-bit address, sign-extended), and nothing else changed. -/
def entersK (s t : State) (code info : Nat) (pc val : Word) : Prop :=
  ends s t { s.me with
    kcause := recordWord s.me.level info code, kpc := pc, kval := val, level := .k
    pc := BitVec.ofInt 64 (Int.bmod ((s.part (s.partOf s.cur)).kvec.toNat % 2 ^ 57 / 4 * 4 : Nat) (2 ^ 57)), hold := .ready }

/-- A steward core took a trap to H: its record holds the cause, the pc and the value, its level is H, its
pc is the handler that ST_HVEC names, and nothing else changed. -/
def entersH (s t : State) (c code info : Nat) (pc val : Word) : Prop :=
  onlyStew c s t ∧ sameMemory s t ∧
    t.stew c = { s.stew c with
      hcause := recordWord (s.stew c).task.level info code, hpc := pc, hval := val
      task := { (s.stew c).task with
        level := .h, pc := BitVec.ofNat 64 ((s.stew c).hvec.toNat % 2 ^ 52 / 4 * 4), hold := .ready } }

/-! ### Ops of an element (R136, R138, R143, R286) -/

/-- R286: value n of width w of a v register, as a number and as an integer of the type. -/
def valueOf (w : Nat) (x : BitVec 512) (n : Nat) : Nat :=
  x.toNat / 2 ^ ((if w = 64 then 128 else w) * n) % 2 ^ w
def valueInt (w : Nat) (uns : Bool) (x : BitVec 512) (n : Nat) : Int :=
  if uns then (valueOf w x n : Int) else Int.bmod (valueOf w x n : Int) (2 ^ w)

/-- The union of the flags of n results (R288). -/
def flagUnion (n : Nat) (fl : Nat → Flags) : Flags := (List.range n).foldl (fun f k => f ||| fl k) 0

/-- R143, R37: nothing holds an op of the element in focus: the load queues that it pops have heads, the store
queue that it pushes has room, the turnstile of its stream operand is not empty, the token lane it sends on is not
full, the token it consumes is there, the ELM banks it touches are the region's, and no RSM store of its island that
it must follow is still queued (R112, R123). -/
def opFree (i : Instr) (s : State) : Prop :=
  let g := s.region s.focus.1
  let u := turnUses i s
  (∀ p ∈ u.pops, (s.elem.ag p).head ≠ none) ∧ (∀ p n, opPush i = some (p, n) → n ≤ (s.elem.ag p).free) ∧
    (∀ n ∈ u.tpops, ∀ x, g.turn n = some x → x.line ≠ 0) ∧
    (∀ q k, i = .tksend q k → ∀ n x, laneOut g (turnIsland s) s.focus.2 k.toNat = some (n, x) → x.tokenLine < 8) ∧
    (∀ k, i = .tkwait k → match laneIn g (turnIsland s) s.focus.2 k.toNat with
      | some (_, x) => x.tokenLine ≠ 0
      | none => s.elem.tokens.getLsbD k.toNat = true) ∧
    (∀ b ∈ opBanks i (plainIn g s.focus.2 (turnInput s).reg), bankMine g s.focus.2 b = true) ∧
    (sendsOut g (turnIsland s) s.focus.2 u = true ∨ touchesElm g s.focus.2 u = true → rsmPorts s s.focus.1 (turnIsland s) = [])

/-- The protection units that an op of the element in focus reads: those of its slices with true (R358). -/
def turnUnits (i : Instr) (s : State) : List (Bool × Nat) :=
  opUnits i (plainIn (s.region s.focus.1) s.focus.2 (turnInput s).reg)

/-- The key of a unit of the element in focus. -/
def unitKey (s : State) (p : Bool × Nat) : Nat :=
  if p.1 then lpsUnit s.focus.1 s.focus.2 p.2 else elmUnit s.focus.1 s.focus.2 p.2

/-- Nothing holds an op of the element in focus, and no unit it reads is poisoned or about to fail (R359). -/
def opReady (i : Instr) (s : State) : Prop :=
  opFree i s ∧ ∀ p ∈ turnUnits i s, mapGet false s.poison (unitKey s p) = false ∧ mapGet 0 s.bad (unitKey s p) = 0

/-- An element after an op: results `effs` entered its latches behind those in flight; a load queue that the op
names lost its head, one that its stream operand takes a beat of (R141). -/
def Element.after (x : Element) (u : Uses) (effs : List (Nat × Effect)) : Element :=
  let popped := fun (p : Nat) (a : AgPort) => if p ∈ u.whole then a.pop else if p ∈ u.pops then a.popBeat else a
  { x with flight := x.flight ++ effs, ag0 := popped 0 x.ag0, ag1 := popped 1 x.ag1 }

/-- The element in focus became `x`; the turnstile of its stream operand lost its head; its island's flags gained
`f` (R60); EL_OOR recorded the first of the out-of-range addresses (level, write, address) unless it held one (R87).
Every other element, island and turnstile, every other part of the region and the machine and every byte of memory
is unchanged. -/
def elementEnds (i : Instr) (s t : State) (x : Element) (f : Flags) (oor : List (Nat × Bool × Nat)) : Prop :=
  let r := s.focus.1
  let g := s.region r
  let h := t.region r
  { t with regions := s.regions } = s ∧ sameMemory s t ∧ (∀ q, q ≠ r → t.region q = s.region q) ∧
    h.element s.focus.2 = x ∧ (∀ y, y ≠ s.focus.2 → h.element y = g.element y) ∧
    (∀ k, h.island k = if k = ((turnWords s).1.map (·.1)).getD 64 then
      (g.island k).map fun y => { y with flags := y.flags ||| f } else g.island k) ∧
    (∀ n, h.turn n = if n ∈ (turnUses i s).tpops then
      (g.turn n).map fun y => { y with entries := y.entries.drop 1 } else g.turn n) ∧
    { h with elements := [], islands := [], turnstiles := [], oor := 0, oorloc := 0 } =
      { g with elements := [], islands := [], turnstiles := [], oor := 0, oorloc := 0 } ∧
    (h.oor, h.oorloc) = (match oor with
      | [] => (g.oor, g.oorloc)
      | (l, wr, a) :: _ => if g.oor.getLsbD 63 then (g.oor, g.oorloc)
        else (oorWord l wr a, BitVec.ofNat 32 s.focus.2))

/-- The op issued and its results are on their way. -/
def issues (i : Instr) (s t : State) (effs : List (Nat × Effect)) (oor : List (Nat × Bool × Nat)) : Prop :=
  elementEnds i s t (s.elem.after (turnUses i s) effs) 0 oor

/-- The op issued, and after `lat` ticks writes `v` to the register vd and raises `f` (R122, R146, R288). -/
def writesV (i : Instr) (s t : State) (lat : Nat) (v : BitVec 512) (f : Flags) : Prop :=
  issues i s t ((lat, .v (turnInput s).vd v) :: (if f = 0 then [] else [(lat, .flags f)])) []

/-- The op issued, and after `lat` ticks writes the guard register that vd names and raises `f`. -/
def writesQ (i : Instr) (s t : State) (lat : Nat) (q : BitVec 16) (f : Flags) : Prop :=
  issues i s t ((lat, .q ((turnInput s).vd % 8) q) :: (if f = 0 then [] else [(lat, .flags f)])) []

/-- A result that writes bytes of element memory: `w` gives the byte it writes at an offset. -/
def storesElm (e : Effect) (w : Nat → Option Byte) : Prop :=
  ∀ y : Element, (y.apply e).2 = 0 ∧ { (y.apply e).1 with elm := y.elm } = y ∧
    ∀ a, mapGet 0 (y.apply e).1.elm a = (w a).getD (mapGet 0 y.elm a)

/-- A result that writes bytes of the lane-private slices. -/
def storesLps (e : Effect) (w : Nat → Option Byte) : Prop :=
  ∀ y : Element, (y.apply e).2 = 0 ∧ { (y.apply e).1 with lps := y.lps } = y ∧
    ∀ a, mapGet 0 (y.apply e).1.lps a = (w a).getD (mapGet 0 y.lps a)

/-- Bit n of an element's memory. -/
def elmBit (x : Element) (n : Nat) : Bool := (mapGet 0 x.elm (n / 8)).getLsbD (n % 8)

/-- R317: a result that writes one column of a K block: the `wd` low bits of value k go to cell k from bit `cell k`
on, the 16 bits of each of the values `entries` to its offset, and every other bit of the memory is kept. -/
def storesColumn (x : Element) (e : Effect) (wd : Nat) (cell : Nat → Nat) (val : Nat → Nat)
    (entries : List (Nat × Nat)) : Prop :=
  (x.apply e).2 = 0 ∧ { (x.apply e).1 with elm := x.elm } = x ∧
    (∀ k m, k < 32 → m < wd → elmBit (x.apply e).1 (cell k + m) = (val k).testBit m) ∧
    (∀ p ∈ entries, ∀ m, m < 16 → elmBit (x.apply e).1 (8 * p.1 + m) = p.2.testBit m) ∧
    ∀ n, (∀ k, k < 32 → n < cell k ∨ cell k + wd ≤ n) → (∀ p ∈ entries, n < 8 * p.1 ∨ 8 * p.1 + 16 ≤ n) →
      elmBit (x.apply e).1 n = elmBit x n

/-- R57: the tree of a reduction: node n of level l combines nodes 2n and 2n + 1 of the level below, the
lower-numbered side operand a; its code and the flags of the nodes under it. -/
def redTree (node : Nat → Nat → Nat × Flags) (leaf : Nat → Nat) : Nat → Nat → Nat × Flags
  | 0, n => (leaf n, 0)
  | l + 1, n =>
    let a := redTree node leaf l (2 * n)
    let b := redTree node leaf l (2 * n + 1)
    ((node a.1 b.1).1, a.2 ||| b.2 ||| (node a.1 b.1).2)

/-- The number that a finite value stands for (R5). -/
def Val.number : Val → ℚ
  | .fin neg m e => (if neg then -1 else 1) * m * (2 : ℚ) ^ e
  | _ => 0
def Val.isFinite : Val → Bool
  | .fin _ _ _ => true
  | _ => false

end Sys2Proof.Machine
end

