-- ==== Sys2Proof/Certificates/Slice0/Obligations.lean ====
section
/-! DEFINITION. The statements of this model for its provers, one `def` each; OBLIGATIONS.json lists them
with the rules that they rest on. -/

open Sys2Proof Sys2Proof.Machine

/-- For every state, registers, type, width and sat key, add, sub and mul answer a next state. Its
register d holds the 64-bit word of the integer z of the type that the exact sum, difference or product
r of the two operands narrows to: without sat, z agrees with r in its low W bits and no flag is set;
with sat, z is the nearest integer of the type and SAT is set exactly when z is not r. The pc moves 4
bytes. Nothing else changes, in registers, flags, special registers or memory; a write of s0 is
discarded. -/
def Obligations.IntegerArithmeticResult : Prop :=
  ∀ (s : State) (d a b : BitVec 5) (u st : BitVec 1) (w : BitVec 2) (i : Instr) (r : Int),
    let x := lowInt (bitsOf w) (u = 1) (s.reg a)
    let y := lowInt (bitsOf w) (u = 1) (s.reg b)
    (i = .add d a b u w st ∧ r = x + y) ∨ (i = .sub d a b u w st ∧ r = x - y) ∨
      (i = .mul d a b u w st ∧ r = x * y) →
    ∃ (t : State) (z : Int) (f : Flags), exec i s = .next t ∧ narrows (bitsOf w) (u = 1) (st = 1) r z f ∧
      retires s t 4 d (BitVec.ofInt 64 z) f

/-- For every state, registers, type and width, mulh, div and rem answer a next state that differs from
the old one in register d, the flags and the pc alone. mulh writes floor(x * y / 2^W). div writes x / y
truncated toward zero, narrowed with or without sat; with y = 0 it writes the value with all W bits set
and sets DZ alone. rem writes x - y * trunc(x / y); with y = 0 it writes x and sets DZ. -/
def Obligations.DivisionAndHighProductResult : Prop :=
  ∀ (s : State) (d a b : BitVec 5) (u st : BitVec 1) (w : BitVec 2),
    let n := bitsOf w
    let x := lowInt n (u = 1) (s.reg a)
    let y := lowInt n (u = 1) (s.reg b)
    (∃ (t : State) (z : Int), exec (.mulh d a b u w) s = .next t ∧
      wrapsTo n (u = 1) (Int.fdiv (x * y) (2 ^ n)) z ∧ retires s t 4 d (BitVec.ofInt 64 z) 0) ∧
    (y ≠ 0 → ∃ (t : State) (z : Int) (f : Flags), exec (.div d a b u w st) s = .next t ∧
      narrows n (u = 1) (st = 1) (Int.tdiv x y) z f ∧ retires s t 4 d (BitVec.ofInt 64 z) f) ∧
    (y = 0 → ∃ t : State, exec (.div d a b u w st) s = .next t ∧
      retires s t 4 d (if u = 1 then BitVec.ofInt 64 (2 ^ n - 1) else BitVec.ofInt 64 (-1)) fDZ) ∧
    (y ≠ 0 → ∃ (t : State) (z : Int), exec (.rem d a b u w) s = .next t ∧
      wrapsTo n (u = 1) (x - y * Int.tdiv x y) z ∧ retires s t 4 d (BitVec.ofInt 64 z) 0) ∧
    (y = 0 → ∃ t : State, exec (.rem d a b u w) s = .next t ∧ retires s t 4 d (BitVec.ofInt 64 x) fDZ)

/-- For every state, registers, type and width, these instructions answer a next state that differs from
the old one in register d and the pc alone, and set no flag. and, or and xor write the bitwise result,
sll x times 2^(y mod W), srl the W bits of a shifted right logically, sra x shifted right
arithmetically, min and max the smaller or larger operand, each wrapped to W bits of the type; slt and
sltu write 1 when x is less than y as signed or unsigned W-bit values, else 0. -/
def Obligations.LogicShiftAndCompareResult : Prop :=
  ∀ (s : State) (d a b : BitVec 5) (u : BitVec 1) (w : BitVec 2) (i : Instr) (r : Int) (uns : Bool),
    let n := bitsOf w
    let x := lowInt n (u = 1) (s.reg a)
    let y := lowInt n (u = 1) (s.reg b)
    let k := (s.reg b).toNat % n
    (i = .and_ d a b u w ∧ uns = (u = 1) ∧ r = (s.reg a &&& s.reg b).toNat) ∨
      (i = .or_ d a b u w ∧ uns = (u = 1) ∧ r = (s.reg a ||| s.reg b).toNat) ∨
      (i = .xor_ d a b u w ∧ uns = (u = 1) ∧ r = (s.reg a ^^^ s.reg b).toNat) ∨
      (i = .sll d a b u w ∧ uns = (u = 1) ∧ r = x * 2 ^ k) ∨
      (i = .srl d a b u w ∧ uns = (u = 1) ∧ r = lowInt n true (s.reg a) / 2 ^ k) ∨
      (i = .sra d a b w ∧ uns = false ∧ r = Int.fdiv (lowInt n false (s.reg a)) (2 ^ k)) ∨
      (i = .slt d a b w ∧ uns = false ∧
        r = if lowInt n false (s.reg a) < lowInt n false (s.reg b) then 1 else 0) ∨
      (i = .sltu d a b w ∧ uns = false ∧
        r = if lowInt n true (s.reg a) < lowInt n true (s.reg b) then 1 else 0) ∨
      (i = .min_ d a b u w ∧ uns = (u = 1) ∧ r = min x y) ∨
      (i = .max_ d a b u w ∧ uns = (u = 1) ∧ r = max x y) →
    ∃ (t : State) (z : Int), exec i s = .next t ∧ wrapsTo n uns r z ∧ retires s t 4 d (BitVec.ofInt 64 z) 0

/-- For every state, registers and immediate, addi, andi, ori, xori, slli, srli, srai, slti, sltiu, li,
lih and addil answer a next state that differs from the old one in register d and the pc alone. The
immediate of addi, slti and sltiu is sign-extended, that of andi, ori and xori zero-extended; li and
addil sign-extend 32 bits, and lih replaces the upper half of d, so with d = s0 it leaves s0 reading
zero. The two-word instructions move the pc 8 bytes, the others 4. No flag changes. Their words are
those of opcodes 0x10 to 0x1B with d, a and the immediate in their fields; a shift word whose bits 14:6
are not zero is an instruction of no kind, so that a step takes the illegal trap
(StepRunsDecodedInstruction); and the two words that the rules print decode as they say. -/
def Obligations.ImmediateResult : Prop :=
  (∀ (s : State) (d a : BitVec 5) (m : BitVec 15) (c : BitVec 6) (l : BitVec 32) (i : Instr) (n op low : Nat) (v : Word),
    let x := s.reg a
    (i = .addi d a m ∧ n = 4 ∧ op = 0x10 ∧ low = m.toNat ∧ v = BitVec.ofInt 64 (x.toInt + m.toInt)) ∨
      (i = .andi d a m ∧ n = 4 ∧ op = 0x11 ∧ low = m.toNat ∧ v = BitVec.ofNat 64 (x.toNat &&& m.toNat)) ∨
      (i = .ori d a m ∧ n = 4 ∧ op = 0x12 ∧ low = m.toNat ∧ v = BitVec.ofNat 64 (x.toNat ||| m.toNat)) ∨
      (i = .xori d a m ∧ n = 4 ∧ op = 0x13 ∧ low = m.toNat ∧ v = BitVec.ofNat 64 (x.toNat ^^^ m.toNat)) ∨
      (i = .slli d a c ∧ n = 4 ∧ op = 0x14 ∧ low = c.toNat ∧ v = BitVec.ofNat 64 (x.toNat * 2 ^ c.toNat)) ∨
      (i = .srli d a c ∧ n = 4 ∧ op = 0x15 ∧ low = c.toNat ∧ v = BitVec.ofNat 64 (x.toNat / 2 ^ c.toNat)) ∨
      (i = .srai d a c ∧ n = 4 ∧ op = 0x16 ∧ low = c.toNat ∧ v = BitVec.ofInt 64 (Int.fdiv x.toInt (2 ^ c.toNat))) ∨
      (i = .slti d a m ∧ n = 4 ∧ op = 0x17 ∧ low = m.toNat ∧ v = if x.toInt < m.toInt then 1 else 0) ∨
      (i = .sltiu d a m ∧ n = 4 ∧ op = 0x18 ∧ low = m.toNat ∧
        v = if x.toNat < (BitVec.ofInt 64 m.toInt).toNat then 1 else 0) ∨
      (i = .li d l ∧ a = 0 ∧ n = 8 ∧ op = 0x19 ∧ low = 2 ^ 32 * l.toNat ∧ v = BitVec.ofInt 64 l.toInt) ∨
      (i = .lih d l ∧ a = 0 ∧ n = 8 ∧ op = 0x1A ∧ low = 2 ^ 32 * l.toNat ∧
        v = BitVec.ofNat 64 (l.toNat * 2 ^ 32 + (s.reg d).toNat % 2 ^ 32)) ∨
      (i = .addil d a l ∧ n = 8 ∧ op = 0x1B ∧ low = 2 ^ 32 * l.toNat ∧ v = BitVec.ofInt 64 (x.toInt + l.toInt)) →
    (∃ t : State, exec i s = .next t ∧ retires s t n d v 0) ∧
      encode i = 2 ^ 25 * op + 2 ^ 20 * d.toNat + 2 ^ 15 * a.toNat + low) ∧
  (∀ (op : Nat) (d a : BitVec 5) (m : BitVec 15), 0x14 ≤ op → op ≤ 0x16 → m.toNat / 64 ≠ 0 →
    decodeTableWord 32 (2 ^ 25 * op + 2 ^ 20 * d.toNat + 2 ^ 15 * a.toNat + m.toNat) = none) ∧
  decodeTableWord 32 0x2CB50007 = some (.srai 11 10 7) ∧
  decodeTableWord 64 0x0010000032900000 = some (.li 9 0x100000)

/-- For every state, register and offset, b, beqz, bnez, bltz, bgez, bgtz, blez and jr answer a next
state in which the pc alone has changed: to the branch address plus four times the sign-extended offset
when the 64-bit register, read as a signed value, meets the condition, else to the following word; jr
goes to the register's value. -/
def Obligations.BranchOutcome : Prop :=
  ∀ (s : State) (a : BitVec 5) (o : BitVec 20) (i : Instr) (pc : Word),
    let x := (s.reg a).toInt
    let target := BitVec.ofInt 64 (s.me.pc.toInt + 4 * o.toInt)
    let next := s.me.pc + 4
    (i = .b_ o ∧ pc = target) ∨ (i = .beqz a o ∧ pc = if x = 0 then target else next) ∨
      (i = .bnez a o ∧ pc = if x = 0 then next else target) ∨
      (i = .bltz a o ∧ pc = if x < 0 then target else next) ∨
      (i = .bgez a o ∧ pc = if 0 ≤ x then target else next) ∨
      (i = .bgtz a o ∧ pc = if 0 < x then target else next) ∨
      (i = .blez a o ∧ pc = if x ≤ 0 then target else next) ∨ (i = .jr a ∧ pc = s.reg a) →
    ∃ t : State, exec i s = .next t ∧ jumps s t pc

/-- For every state, frame size f of 0 to 24 and target, when the spills that the new window needs
succeed (they are none, and the state is unchanged by them, when BASE + f + 24 - LOW is at most 56),
call and callr answer a next state with BASE + f, the pc at the target, w(24-f) to w22 zero, w23 the
link word (the address after the call in bits 56:2, f in bits 61:57, zero above), the caller's w(f) to
w23 as w0 to w(23-f), and s1 to s7 kept. Every other register that the ring still holds keeps its value;
nothing else changes after the spills. For every state whose w23 holds a link word with bits 63:62 zero
and a frame size f of at most 24 that leaves BASE - f at BASE0 or above, when the fills that the old
window needs succeed (they are none, and the state is unchanged by them, when LOW is at most BASE - f),
ret answers a next state with BASE - f and the pc at the sign-extended link address; nothing else
changes after the fills, so without fills the callee's w0 to w(23-f) are w(f) to w23 again. -/
def Obligations.CallAndReturnSlideWindow : Prop :=
  (∀ (s u : State) (f : BitVec 5) (i : Instr) (target : Word),
    (∃ o, i = .call f o ∧ target = BitVec.ofInt 64 (s.me.pc.toInt + 4 * o.toInt)) ∨
      (∃ a, i = .callr f a ∧ target = s.reg a) →
    f.toNat ≤ 24 → spill (s.me.base + f.toNat) 64 s = (.ok (), u) →
    (s.me.base + f.toNat + 24 - s.me.low ≤ 56 → u = s) ∧
    ∃ t : State, exec i s = .next t ∧
      ends u t { u.me with base := s.me.base + f.toNat, ring := t.me.ring, pc := target } ∧
      t.reg 31 = BitVec.ofNat 64 ((s.me.pc + 4).toNat % 2 ^ 57 / 4 * 4 + f.toNat * 2 ^ 57) ∧
      (∀ k : Nat, k + f.toNat < 24 → k ≠ 23 → t.reg (BitVec.ofNat 5 (8 + k)) = s.reg (BitVec.ofNat 5 (8 + k + f.toNat))) ∧
      (∀ k : Nat, 24 ≤ k + f.toNat → k < 23 → t.reg (BitVec.ofNat 5 (8 + k)) = 0) ∧
      (∀ k : Nat, k < 8 → t.reg (BitVec.ofNat 5 k) = s.reg (BitVec.ofNat 5 k)) ∧
      (∀ m : Nat, s.me.base + f.toNat ≤ m + 32 → m < s.me.base + 23 → t.me.abs m = s.me.abs m)) ∧
  ∀ (s u : State) (f : Nat),
    let link := s.reg 31
    f = link.toNat / 2 ^ 57 % 32 → link.toNat / 2 ^ 62 = 0 → f ≤ 24 → s.me.base0 + f ≤ s.me.base →
    fill (s.me.base - f) 64 s = (.ok (), u) →
    (s.me.low ≤ s.me.base - f → u = s) ∧
    ∃ t : State, exec .ret s = .next t ∧
      ends u t { u.me with base := s.me.base - f,
                           pc := BitVec.ofInt 64 (Int.bmod (link.toNat % 2 ^ 57 / 4 * 4 : Nat) (2 ^ 57)) } ∧
      (s.me.low ≤ s.me.base - f → ∀ k : Nat, k + f < 24 →
        t.reg (BitVec.ofNat 5 (8 + k + f)) = s.reg (BitVec.ofNat 5 (8 + k)))

/-- For every state whose current core is a steward core at level H, and n bytes of DRAM or scratchpad
in one page with no poisoned or failing unit and no snapshot control word: a read answers the bytes that
stand there and leaves the state as it was; a write of bytes is accepted, and afterwards those addresses
read as the bytes written, every other home address as before, and nothing but the list of stores on
their way has changed: it has the new store in front, issued by this core and not yet performed at any
scope that encloses the core; an atomic answers the old value and writes f of it, or nothing where f
answers none. -/
def Obligations.PhysicalAccess : Prop :=
  ∀ (s : State) (c va n : Nat), s.cur = .stew c → s.me.level = .h → 0 < n → plainAt s va n →
    (∀ (k : Access) (code : Nat), coreRead s va n k code = (.ok (s.bytes va n), s)) ∧
    (∀ (bs : List Byte) (code : Nat), bs.length = n → ∃ t : State, ∃ p : PStore, coreWrite s va bs code = (.ok (), t) ∧
      t = { s with stores := p :: s.stores } ∧ p.issuer = .core s.cur ∧ p.reached = 2 ∧
      (∀ k, k < n → t.byte (va + k) = bs.getD k 0) ∧
      ∀ b, (∀ k, k < n → canonPa s.pkg.toNat b ≠ canonPa s.pkg.toNat (va + k)) → t.byte b = s.byte b) ∧
    ∀ (f : Nat → Option Nat) (code : Nat), ∃ t : State, coreAtomic s va n f code = (.ok (leToNat (s.bytes va n)), t) ∧
      { t with stores := s.stores } = s ∧
      (f (leToNat (s.bytes va n)) = none → t = s) ∧
      ∀ v, f (leToNat (s.bytes va n)) = some v →
        (∀ k, k < n → t.byte (va + k) = (natToLe v n).getD k 0) ∧
        ∀ b, (∀ k, k < n → canonPa s.pkg.toNat b ≠ canonPa s.pkg.toNat (va + k)) → t.byte b = s.byte b

/-- For every state whose current core is a sequencer, and n bytes of the region-shared window (address
bits 63:27 all one) that it reaches: a read answers the bytes of the element memories, element and
offset taken from the address, and leaves the state as it was; a write puts exactly those bytes there
and changes no other byte of any element memory, no byte of memory and no other part of the machine. -/
def Obligations.WindowAccess : Prop :=
  ∀ (s : State) (r m va n : Nat), s.cur = .seq r m → isRsm va = true → 0 < n → n ≤ 8 → windowAt s r va n →
    (∀ code : Nat, coreRead s va n .read code = (.ok ((upTo n).map fun k =>
      s.elmByte r ((va + k) % 2 ^ 27 / 2 ^ 19) ((va + k) % 2 ^ 19)), s)) ∧
    ∀ (bs : List Byte) (code : Nat), bs.length = n → ∃ t : State, coreWrite s va bs code = (.ok (), t) ∧
      (∀ k, k < n → t.elmByte r ((va + k) % 2 ^ 27 / 2 ^ 19) ((va + k) % 2 ^ 19) = bs.getD k 0) ∧
      (∀ e off, (∀ k, k < n → (e, off) ≠ ((va + k) % 2 ^ 27 / 2 ^ 19, (va + k) % 2 ^ 19)) →
        t.elmByte r e off = s.elmByte r e off) ∧
      (∀ e, { (t.region r).element e with elm := [] } = { (s.region r).element e with elm := [] }) ∧
      { t.region r with elements := [] } = { s.region r with elements := [] } ∧
      (∀ u, mapGet false t.poison u = false) ∧ onlyRegion r { s with poison := t.poison } t ∧ sameMemory s t

/-- For every state and operands with register a a multiple of the width: when the read of the width
succeeds at the scope, named or automatic, that the cap of the partition leaves, leaving state u, ldacq
answers a next state that differs from u in register d, the pc and the flag CAPPED alone; d holds the
sign- or zero-extended value, and CAPPED is set when the scope is wider than the cap. (A read at scope 0
goes by the code of scope 1, which names the same point: the model's code 0 stands for auto.) -/
def Obligations.AcquireResult : Prop :=
  ∀ (s u : State) (d a : BitVec 5) (w : BitVec 2) (uns : BitVec 1) (sc : BitVec 3) (bs : List Byte),
    let va := (s.reg a).toNat
    let n := 2 ^ w.toNat
    let scope := scopeAt s sc.toNat va .read
    let cap := (s.part (s.partOf s.cur)).cap.toNat
    va % n = 0 → bs.length = n → coreRead s va n .read (max 1 (min scope cap)) = (.ok bs, u) →
    ∃ t : State, exec (.ldacq d a w uns sc) s = .next t ∧
      ends u t { u.me.set d (BitVec.ofInt 64 (bytesInt (uns = 1) bs)) with
        pc := u.me.pc + 4, capped := u.me.capped || decide (cap < scope) }

/-- For every issuing task, type, order and scope with register a a multiple of the width: when no store
must be waited for (the order does not release, or the pages are reached and every earlier store has
performed at the capped scope) and the read-modify-write with the instruction's own function g of the
old value succeeds, leaving state u, the atomic answers a next state that differs from u in register d,
the pc and CAPPED alone. g is the sum modulo 2^W, and, or, xor, the signed or unsigned minimum or
maximum, the operand (amoswap), or for cas the operand when the old value is d's low W bits and no write
otherwise. d holds the sign-extended old value. -/
def Obligations.AtomicResult : Prop :=
  ∀ (s v u : State) (d a b : BitVec 5) (w : BitVec 1) (o : BitVec 2) (sc : BitVec 3) (old : Nat) (i : Instr)
    (g : Nat → Option Nat),
    let va := (s.reg a).toNat
    let n := if w = 0 then 4 else 8
    let y := (s.reg b).toNat % 2 ^ (8 * n)
    let sg := fun x : Nat => Int.bmod (x : Int) (2 ^ (8 * n))
    let scope := scopeAt s sc.toNat va .atomic
    let cap := (s.part (s.partOf s.cur)).cap.toNat
    (i = .amoadd d a b w o sc ∧ g = fun x => some ((x + y) % 2 ^ (8 * n))) ∨
      (i = .amoand d a b w o sc ∧ g = fun x => some (x &&& y)) ∨
      (i = .amoor d a b w o sc ∧ g = fun x => some (x ||| y)) ∨
      (i = .amoxor d a b w o sc ∧ g = fun x => some (x ^^^ y)) ∨
      (i = .amomin d a b w o sc ∧ g = fun x => some (if sg y < sg x then y else x)) ∨
      (i = .amomax d a b w o sc ∧ g = fun x => some (if sg x < sg y then y else x)) ∨
      (i = .amominu d a b w o sc ∧ g = fun x => some (if y < x % 2 ^ (8 * n) then y else x)) ∨
      (i = .amomaxu d a b w o sc ∧ g = fun x => some (if x % 2 ^ (8 * n) < y then y else x)) ∨
      (i = .amoswap d a b w o sc ∧ g = fun _ => some y) ∨
      (i = .cas d a b w o sc ∧ g = fun x => if x = (s.reg d).toNat % 2 ^ (8 * n) then some y else none) →
    va % n = 0 → s.me.hold = .ready →
    (o.getLsbD 1 = false ∧ v = s) ∨
      (o.getLsbD 1 = true ∧ fenceOver v s.cur (min scope cap) = true ∧
        ((∃ r k, s.cur = .seq r k ∧ isRsm va = true ∧ v = s) ∨
          ((∀ r k, s.cur = .seq r k → isRsm va = false) ∧
            ∃ l, pieces s (coreCtx s s.cur) va n .atomic true = (.ok l, v)))) →
    coreAtomic v va n g (max 1 (min scope cap)) = (.ok old, u) →
    ∃ t : State, exec i s = .next t ∧
      ends u t { u.me.set d (BitVec.ofInt 64 (sg old)) with
        pc := u.me.pc + 4, hold := .ready, capped := u.me.capped || decide (cap < scope) }

/-- For every state and operands, with the scope named (fence) or computed from the two coordinates
(fence.lca) and capped by the partition: below the core's own level at once, and otherwise when every
earlier store of the core has performed there, the fence completes with the capped scope, the number of
failed stores, CAPPED, REFUSED, DEADLINK and OK (set when no store was refused or lost), and the failure
counts start again (that a fence below the level reports the failures too is the model's reading, log
39); otherwise the task waits at the fence, keeping the limit in force. Register d and the pc change,
and nothing else but the order of stores to unordered pages: the core's that have performed at the
scope, and those of others that it has read, keep their places from then on, which places of its own the
model leaves open (log 8); without such stores nothing changes there. -/
def Obligations.FenceWord : Prop :=
  ∀ (s : State) (d a : BitVec 5) (sc : BitVec 3) (i : Instr) (named : Nat),
    (i = .fence d sc ∧ named = sc.toNat) ∨
      (i = .fenceLca d a ∧ named = lca (s.agent s.cur) ((s.reg a).toNat % 2 ^ 32)) →
    let cap := (s.part (s.partOf s.cur)).cap.toNat
    let scope := min named cap
    let limit := (s.part (s.partOf s.cur)).fenceto.toNat
    let bit := fun (c : Bool) (n : Nat) => if c then 2 ^ n else 0
    let m := s.me
    ∃ t : State, exec i s = .next t ∧
      ((∀ p ∈ s.stores, p.unordered = false ∨ (p.issuer ≠ .core s.cur ∧ s.agent s.cur ∉ p.readers)) →
        ∀ n, s.settle s.cur n = s) ∧
      (scope < coreLevel s.cur ∨ (∀ p ∈ s.stores, p.issuer = .core s.cur → scope ≤ p.reached) →
        ends (s.settle s.cur (if scope < coreLevel s.cur then 0 else scope)) t { m.set d (BitVec.ofNat 64 (scope * 2 ^ 16 + min m.nfail 255 * 2 ^ 8 +
            bit (decide (cap < named)) 3 + bit m.refused 2 + bit m.deadlink 1 +
            bit (!m.refused && !m.deadlink) 0)) with
          pc := m.pc + 4, hold := .ready, nfail := 0, refused := false, deadlink := false }) ∧
      (coreLevel s.cur ≤ scope → (∃ p ∈ s.stores, p.issuer = .core s.cur ∧ p.reached < scope) →
        ends s t { m with hold := .fence i scope (decide (cap < named)) limit s.tick })

/-- For every core whose task waits at a fence, or at a release whose store is on its way, at a scope at
or above the core's own level: when every store of the core has performed at that scope, the event
FENCE_COMPLETE completes the instruction with the status word of that scope; when some store has not and
the captured limit, not 0, has passed since the issue, FENCE_TIMEOUT completes it with TIMEOUT and the
lowest scope that every store has reached. Register d, the pc and the failure counts of that task
change, and nothing else but which core the turn moved and, at a fence, the order of the stores to
unordered pages that the core made or has read, which the model leaves open (log 8). -/
def Obligations.FenceWaitEnds : Prop :=
  ∀ (s v : State) (c : CoreId) (d a : BitVec 5) (sc : BitVec 3) (scope limit since : Nat) (capped timeout : Bool),
    let m := s.task c
    let bit := fun (c : Bool) (n : Nat) => if c then 2 ^ n else 0
    let reached := if timeout then
        v.stores.foldl (fun k p => if p.issuer = .core c then min k p.reached else k) scope else scope
    ((m.hold = .fence (.fence d sc) scope capped limit since ∨
          m.hold = .fence (.fenceLca d a) scope capped limit since) ∧ v = State.settle { s with cur := c } c scope) ∨
      (m.hold = .strel d scope capped limit since ∧ v = { s with cur := c }) →
    coreLevel c ≤ scope →
    (timeout = false ∧ ∀ p ∈ s.stores, p.issuer = .core c → scope ≤ p.reached) ∨
      (timeout = true ∧ limit ≠ 0 ∧ limit ≤ s.tick - since ∧
        ∃ p ∈ s.stores, p.issuer = .core c ∧ p.reached < scope) →
    ∃ t : State, exec (if timeout then .fenceTimeout c else .fenceComplete c) s = .next t ∧
      ends v t { m.set d (BitVec.ofNat 64 (reached * 2 ^ 16 + min m.nfail 255 * 2 ^ 8 +
          bit timeout 4 + bit capped 3 + bit m.refused 2 + bit m.deadlink 1 +
          bit (!m.refused && !m.deadlink && !timeout) 0)) with
        pc := m.pc + 4, hold := .ready, nfail := 0, refused := false, deadlink := false }

/-- For every issuing task, registers and width, with the address a multiple of the width: on n bytes of
a sequencer's shared window, or of DRAM or scratchpad from a steward core at level H, when every earlier
store of the core has performed at the capped scope, strel stores the low bytes of register b, which
read back at once, and no other byte changes. In the window, and from a steward core when the capped
scope lies below its own level, strel COMPLETES in this step: register d holds the fence word of the
capped scope (failures, CAPPED, REFUSED, DEADLINK, OK) and the failure counts start again. Otherwise the
store is on its way to memory and the task waits at the release, keeping its scope, its cap and its
limit, until FENCE_COMPLETE or FENCE_TIMEOUT completes it; nothing else changes. At every level outside
the window, when the translation, leaving state u, and the store under the capped scope, leaving state
v, are accepted, the same happens from v. When an earlier store has not performed, the task waits before
its store; FENCE_COMPLETE of that wait stores and completes or waits at the release in the same way, and
FENCE_TIMEOUT withdraws the store: it counts one failure more and completes with TIMEOUT and the scope
reached, and no byte changes. -/
def Obligations.ReleaseStoreResult : Prop :=
  ∀ (s : State) (d a b : BitVec 5) (w : BitVec 2) (sc : BitVec 3),
    let va := (s.reg a).toNat
    let n := 2 ^ w.toNat
    let named := scopeAt s sc.toNat va .write
    let cap := (s.part (s.partOf s.cur)).cap.toNat
    let scope := min named cap
    let limit := (s.part (s.partOf s.cur)).fenceto.toNat
    let bit := fun (c : Bool) (k : Nat) => if c then 2 ^ k else 0
    let ended := fun (m : Task) (at_ : Nat) (capped timeout : Bool) => { m.set d (BitVec.ofNat 64 (at_ * 2 ^ 16 +
        min m.nfail 255 * 2 ^ 8 + bit timeout 4 + bit capped 3 + bit m.refused 2 + bit m.deadlink 1 +
        bit (!m.refused && !m.deadlink && !timeout) 0)) with
      pc := m.pc + 4, hold := .ready, nfail := 0, refused := false, deadlink := false }
    let performed := fun (u : State) (c : CoreId) (at_ : Nat) => at_ < coreLevel c ∨
      ∀ p ∈ u.stores, p.issuer = .core c → at_ ≤ p.reached
    let stored := fun (v t : State) (at_ : Nat) (capped : Bool) (lim since : Nat) =>
      (performed v v.cur at_ → ends v t (ended v.me at_ capped false)) ∧
      (¬ performed v v.cur at_ → ends v t { v.me with hold := .strel d at_ capped lim since })
    let m := s.me
    let i := Instr.strel d a b w sc
    (va % n = 0 → (∀ p ∈ s.stores, p.issuer = .core s.cur → scope ≤ p.reached) →
      (∀ r k, s.cur = .seq r k → isRsm va = true → windowAt s r va n →
        ∃ t : State, exec i s = .next t ∧ t.me = ended m scope (decide (cap < named)) false ∧
          (∀ j, j < n → t.elmByte r ((va + j) % 2 ^ 27 / 2 ^ 19) ((va + j) % 2 ^ 19) =
            (natToLe (s.reg b).toNat n).getD j 0) ∧
          (∀ e off, (∀ j, j < n → (e, off) ≠ ((va + j) % 2 ^ 27 / 2 ^ 19, (va + j) % 2 ^ 19)) →
            t.elmByte r e off = s.elmByte r e off) ∧
          (∀ e, { (t.region r).element e with elm := [] } = { (s.region r).element e with elm := [] }) ∧
          { t.region r with elements := [], tasks := [] } = { s.region r with elements := [], tasks := [] } ∧
          (∀ j, j ≠ k → (t.region r).task j = (s.region r).task j) ∧
          (∀ u, mapGet false t.poison u = false) ∧ onlyRegion r { s with poison := t.poison } t ∧ sameMemory s t) ∧
      ∀ c, s.cur = .stew c → m.level = .h → plainAt s va n →
        ∃ (t : State) (p : PStore), exec i s = .next t ∧
          t.stores = p :: s.stores ∧ p.issuer = .core s.cur ∧ p.reached = 2 ∧
          (∀ j, j < n → t.byte (va + j) = (natToLe (s.reg b).toNat n).getD j 0) ∧
          sameBut s t va n ∧ onlyMe { s with stores := t.stores } t ∧
          t.me = if scope < 3 then ended m scope (decide (cap < named)) false
            else { m with hold := .strel d scope (decide (cap < named)) limit s.tick }) ∧
    (∀ (x : Acc (List Piece)) (u : State), va % n = 0 →
      ((∃ r k, s.cur = .seq r k) ∧ isRsm va = true ∧ u = s) ∨
        (¬ ((∃ r k, s.cur = .seq r k) ∧ isRsm va = true) ∧ pieces s (coreCtx s s.cur) va n .write true = (x, u) ∧
          (∀ c y, x ≠ .xlate c y) ∧ ∀ l y, x ≠ .memerr l y) →
      let lim := (u.part (u.partOf u.cur)).fenceto.toNat
      (performed u u.cur scope → ∀ v, coreWrite u va (natToLe (u.reg b).toNat n) (max 1 scope) = (.ok (), v) →
        ∃ t : State, exec i s = .next t ∧ stored v t scope (decide (cap < named)) lim u.tick) ∧
      (¬ performed u u.cur scope →
        ∃ t : State, exec i s = .next t ∧ ends u t { u.me with hold := .fence i scope (decide (cap < named)) lim u.tick })) ∧
    ∀ (c : CoreId) (at_ lim since : Nat) (capped : Bool), (s.task c).hold = .fence i at_ capped lim since →
      let u := { s with cur := c }
      (performed s c at_ → ∀ v, coreWrite u (u.reg a).toNat (natToLe (u.reg b).toNat n) (max 1 at_) = (.ok (), v) →
        ∃ t : State, exec (.fenceComplete c) s = .next t ∧ stored v t at_ capped lim since) ∧
      (¬ performed s c at_ → lim ≠ 0 → lim ≤ s.tick - since →
        ∃ t : State, exec (.fenceTimeout c) s = .next t ∧ ends u t
          (ended { u.me with nfail := min (u.me.nfail + 1) 255 }
            (s.stores.foldl (fun k p => if p.issuer = .core c then min k p.reached else k) at_) capped true))

/-- For every state, registers, offset and scope: when the read of the form's 1, 2, 4 or 8 bytes at a +
sext(imm12) succeeds, leaving state u, the load answers a next state that differs from u in register d
and the pc alone, and d holds the bytes' little-endian value, sign-extended for the i forms and zero-
extended for the n forms; a load into s0 discards it. For every state, registers, offset and scope: when
the write of the form's 1, 2, 4 or 8 low bytes of register d at a + sext(imm12) is accepted, leaving
state u, the store answers a next state that differs from u in the pc alone. No register is written. -/
def Obligations.LoadAndStoreResult : Prop :=
  (∀ (s u : State) (d a : BitVec 5) (m : BitVec 12) (sc : BitVec 3) (bs : List Byte) (i : Instr) (n : Nat) (uns : Bool),
    (i = .ldI8 d a m sc ∧ n = 1 ∧ uns = false) ∨ (i = .ldN8 d a m sc ∧ n = 1 ∧ uns = true) ∨
      (i = .ldI16 d a m sc ∧ n = 2 ∧ uns = false) ∨ (i = .ldN16 d a m sc ∧ n = 2 ∧ uns = true) ∨
      (i = .ldI32 d a m sc ∧ n = 4 ∧ uns = false) ∨ (i = .ldN32 d a m sc ∧ n = 4 ∧ uns = true) ∨
      (i = .ldI64 d a m sc ∧ n = 8 ∧ uns = false) →
    bs.length = n → coreRead s (BitVec.ofInt 64 ((s.reg a).toInt + m.toInt)).toNat n .read sc.toNat = (.ok bs, u) →
    ∃ t : State, exec i s = .next t ∧ retires u t 4 d (BitVec.ofInt 64 (bytesInt uns bs)) 0) ∧
  ∀ (s u : State) (d a : BitVec 5) (m : BitVec 12) (sc : BitVec 3) (i : Instr) (n : Nat),
    (i = .stI8 d a m sc ∧ n = 1) ∨ (i = .stI16 d a m sc ∧ n = 2) ∨ (i = .stI32 d a m sc ∧ n = 4) ∨
      (i = .stI64 d a m sc ∧ n = 8) →
    coreWrite s (BitVec.ofInt 64 ((s.reg a).toInt + m.toInt)).toNat (natToLe (s.reg d).toNat n) sc.toNat = (.ok (), u) →
    ∃ t : State, exec i s = .next t ∧ jumps u t (u.me.pc + 4)

/-- For every listed register that the current core has, at its read level or above: csrr answers a next
state that differs from the old one in register d and the pc alone, and d holds the register's value:
the agent coordinate for AGENT, the task's flags for SQ_FFLAGS or ST_FFLAGS, WSP, SENDST and CAPPED in
their places for the task status register, TAGS, the record registers of K and H, the policy registers
of the partition, and the latency table for SQ_LATn. A csrw, csrs or csrc of a read-only register, at
its read level or above, does the same. -/
def Obligations.ControlRegisterRead : Prop :=
  ∀ (s : State) (d a : BitVec 5) (r : BitVec 12) (x : CsrSpec) (i : Instr),
    csrSpec r.toNat = some x → csrHere s x = true →
    x.rd.num ≤ s.me.level.num →
    i = .csrr d r ∨ (x.wr = none ∧ (i = .csrw d a r ∨ i = .csrs d a r ∨ i = .csrc d a r)) →
    ∃ (t : State) (v : Word), exec i s = .next t ∧ retires s t 4 d v 0 ∧ v = csrGet s r.toNat ∧
      (r = 0 → v = BitVec.ofNat 64 (s.agent s.cur)) ∧
      (r = 0x020 ∨ r = 0x021 → v = s.me.fflags.setWidth 64) ∧
      (r = 0x022 ∨ r = 0x023 → v = BitVec.ofNat 64 (s.me.wsp.toNat * 2 ^ 10 + s.me.sendst.toNat * 2 ^ 5 +
        if s.me.capped then 1 else 0)) ∧
      (r = 0x024 → v = s.me.tags) ∧ (r = 0x025 → v = s.me.tagc) ∧ (r = 0x026 → v = s.me.oor) ∧
      (r = 0x027 → v = s.me.efault) ∧ (r = 0x028 → v = s.me.efaddr) ∧
      (r = 0x120 ∨ r = 0x124 → v = s.me.kcause) ∧ (r = 0x121 ∨ r = 0x125 → v = s.me.kpc) ∧
      (r = 0x122 ∨ r = 0x126 → v = s.me.kval) ∧ (r = 0x123 ∨ r = 0x127 → v = s.me.kscr) ∧
      (r = 0x101 → v = (s.part (s.partOf s.cur)).cap.setWidth 64) ∧
      (r = 0x110 → v = (s.part (s.partOf s.cur)).kvec) ∧
      (∀ c, s.cur = .stew c → (r = 0x220 → v = (s.stew c).hcause) ∧ (r = 0x221 → v = (s.stew c).hpc) ∧
        (r = 0x222 → v = (s.stew c).hval) ∧ (r = 0x224 → v = (s.stew c).hvec)) ∧
      (0x040 ≤ r.toNat ∧ r.toNat ≤ 0x04F →
        v = BitVec.ofNat 64 ([1, 2, 1, 2, 4, 8, 3, 6, 6, 3, 1, 2, 1, 1, 0, 2].getD (r.toNat - 0x040) 0 + 256))

/-- For every register with plain fields (those that Safety.lean lists from the register tables) that
the current core has, at its read and write levels or above: csrw, csrs and csrc answer a next state in
which d holds the old value; the register reads as the RW bits of the value written (a; old OR a; old
AND NOT a), its W1C bits cleared where a is 1 (csrw and csrs) or kept (csrc), its RO bits kept and every
other bit 0; every other such register of this core, every other general register, every other task,
steward core and region and every byte of memory is unchanged, and the pc moves 4 bytes. -/
def Obligations.ControlRegisterWrite : Prop :=
  ∀ (s : State) (d a : BitVec 5) (r : BitVec 12) (x : CsrSpec) (i : Instr) (v clr rw w1c ro : Word),
    csrSpec r.toNat = some x → csrHere s x = true →
    x.rd.num ≤ s.me.level.num → (∃ l, x.wr = some l ∧ l.num ≤ s.me.level.num) →
    csrFields r.toNat = some (rw, w1c, ro) →
    let old := csrGet s r.toNat
    (i = .csrw d a r ∧ v = s.reg a ∧ clr = s.reg a) ∨ (i = .csrs d a r ∧ v = old ||| s.reg a ∧ clr = s.reg a) ∨
      (i = .csrc d a r ∧ v = old &&& ~~~ s.reg a ∧ clr = 0) →
    ∃ t : State, exec i s = .next t ∧ t.reg d = (if d = 0 then 0 else old) ∧ (∀ q, q ≠ d → t.reg q = s.reg q) ∧
      t.me.pc = s.me.pc + 4 ∧
      csrGet t r.toNat = (v &&& rw) ||| (old &&& w1c &&& ~~~ clr) ||| (old &&& ro) ∧
      (∀ n y, csrSpec n = some y → csrHere s y = true →
        n ≠ r.toNat → csrFields n ≠ none → csrGet t n = csrGet s n) ∧
      { t with regions := s.regions, stews := s.stews, parts := s.parts, frametab := s.frametab } = s ∧
      (∀ c, c ≠ s.cur → t.task c = s.task c) ∧
      (∀ q, s.cur ≠ .stew q → t.stew q = s.stew q) ∧
      (∀ q, (∀ n, s.cur ≠ .seq q n) → t.region q = s.region q) ∧
      (∀ q, q ≠ s.partOf s.cur → t.part q = s.part q) ∧ sameMemory s t ∧
      (∀ q, let clear := fun g : Region => { g with
          tasks := [], costsel := 0, oor := 0, stallwd := 0, busymap := 0, busypos := 0, dirtylog := 0, dirtypos := 0
          tokcnt := 0, pfxcoll := 0, evep := 0, ctxNext := none }
        clear (t.region q) = clear (s.region q)) ∧
      let clear := fun m : Task => { m with
        pc := 0, sregs := [], ring := [], fflags := 0, wsp := 0, capped := false, tagc := 0, oor := 0, efault := 0
        kcause := 0, kpc := 0, kval := 0, kscr := 0 }
      clear t.me = clear s.me

/-- For every state: PT_SCOPE_MAX_WRITE sets the cap of one partition; PT_CTX_WRITE leaves a region's
new context pending and changes a steward core's at once; EL_FFLAGS_WRITE selects an element and clears
the flags written as 1 in its island; ST_WIN_DEPTH moves BASE and LOW to BASE0 + DEPTH and keeps w0 to
w23; ST_WIN_FLUSH, when its spills succeed from a window of at most 56 registers, ends with LOW = BASE
and WSP moved past them; PT_UP_WRITE of 1 moves a Booting partition to Running; LK_SLOTSEL_WRITE takes
BASE and EN, clears BAD where written 1 and sets PEND on a change; HEALTH_CRIT_RESTART restarts the
clocks when no alarm holds. Each answers a next state. -/
def Obligations.RegisterWriteEvents : Prop :=
  ∀ (s : State),
    (∀ p cap, ∃ t : State, exec (.ptScopeMaxWrite p cap) s = .next t ∧ { t with parts := s.parts } = s ∧
      t.part p = { s.part p with cap := cap } ∧ ∀ q, q ≠ p → t.part q = s.part q) ∧
    (∀ r n v, ∃ t : State, exec (.ptCtxWrite (.seq r n) v) s = .next t ∧ onlyRegion r s t ∧
      t.region r = { s.region r with ctxNext := some (v &&& 0xFFF000FFFFFFFFFF#64) }) ∧
    (∀ c v, ∃ t : State, exec (.ptCtxWrite (.stew c) v) s = .next t ∧ onlyStew c s t ∧
      t.stew c = { s.stew c with ctx := v &&& 0xFFF000FFFFFFFFFF#64 }) ∧
    (∀ r v, ∃ t : State, exec (.elFflagsWrite r v) s = .next t ∧ onlyRegion r s t ∧
      { t.region r with islands := (s.region r).islands } = { s.region r with fflSel := v.extractLsb' 18 8 } ∧
      (∀ k x, (s.region r).islandOf (v.extractLsb' 18 8).toNat = some (k, x) →
        (t.region r).island k = some { x with flags := x.flags &&& ~~~ (v.setWidth 7) } ∧
        ∀ j, j ≠ k → (t.region r).island j = (s.region r).island j) ∧
      ((s.region r).islandOf (v.extractLsb' 18 8).toNat = none → (t.region r).islands = (s.region r).islands)) ∧
    (∀ c (n : BitVec 32), ∃ t : State, exec (.stWinDepth c n) s = .next t ∧
      ends { s with cur := .stew c } t { (s.stew c).task with
        base := (s.stew c).task.base0 + n.toNat, low := (s.stew c).task.base0 + n.toNat, ring := t.me.ring } ∧
      ∀ q, t.me.get q = (s.stew c).task.get q) ∧
    (∀ c u, flushWindow 64 { s with cur := .stew c } = (.ok (), u) →
      (s.stew c).task.low ≤ (s.stew c).task.base → (s.stew c).task.base ≤ (s.stew c).task.low + 56 →
      exec (.stWinFlush c) s = .next u ∧ u.me.low = (s.stew c).task.base ∧ u.me.base = (s.stew c).task.base ∧
      u.me.wsp = (s.stew c).task.wsp + BitVec.ofNat 54 ((s.stew c).task.base - (s.stew c).task.low)) ∧
    (∀ p (v : Word), v.getLsbD 0 = true → partState s p = 1 → ∃ t : State, exec (.ptUpWrite p v) s = .next t ∧
      partState t p = 2) ∧
    (∀ p v, ∃ t : State, exec (.lkSlotselWrite p v) s = .next t ∧ { t with ports := s.ports } = s ∧
      (∀ q, q ≠ p → t.port q = s.port q) ∧
      t.port p = { s.port p with
        bad := (s.port p).bad && !v.getLsbD 63, en := v.getLsbD 61, mapBase := v.extractLsb' 17 35
        pend := (s.port p).pend || v.getLsbD 61 ≠ (s.port p).en || v.extractLsb' 17 35 ≠ (s.port p).mapBase }) ∧
    (s.health.talarm = false → s.health.ialarm = false → ∃ t : State, exec .healthCritRestart s = .next t ∧
      t.health = { s.health with crit := false })

/-- For every task below level H whose K record is not LIVE or which runs at level U: trap n (code 8,
INFO n, the next instruction's address), a word that is no instruction (code 1, the word), a fetch at an
address that is not a multiple of 4 (code 3, the address), a control-register access of an unlisted
number or of a register of the other kind of core (code 1), one below its level (code 2), a misaligned
ldacq, strel or atomic, any of the ten (code 3, the address), ret with a bad link (code 5, the link),
tret at U (code 2) or at K with no LIVE record (code 1), an instruction of level K (the four tlbi, snap,
a sequencer's copy.cfg, a steward core's hcall) at U and one of level H (framemap, framefree, rsave,
rrest on a steward core) below H (code 2, the word), the sequencer's hcall (code 1) and a tseal, hullw
or topk whose key or query descriptor is invalid (code 1) answer a next state that entered K: the record
holds LIVE, the old level, INFO, the code, the pc (the instruction's own, but for trap) and VAL; the
level is K and the pc the handler of PT_KVEC. Nothing else changes: the instruction has no effect of its
own. -/
def Obligations.TrapEntryToK : Prop :=
  ∀ (s : State) (i : Instr) (code info : Nat) (pc val : Word),
    let m := s.me
    let word := BitVec.ofNat 64 (encode i % 2 ^ 32)
    m.level = .u ∨ (m.level = .k ∧ m.kcause.getLsbD 63 = false) →
    (∃ n, i = .trap n ∧ code = 8 ∧ info = n.toNat ∧ pc = m.pc + 4 ∧ val = 0) ∨
      (info = 0 ∧ pc = m.pc ∧
        ((∃ w, i = .illegalEncoding w ∧ code = 1 ∧ val = w.setWidth 64) ∨
          (∃ va, i = .fetchFault va ∧ va.toNat % 4 ≠ 0 ∧ code = 3 ∧ val = va) ∨
          (∃ d a r, (i = .csrr d r ∨ i = .csrw d a r ∨ i = .csrs d a r ∨ i = .csrc d a r) ∧ val = word ∧
            ((code = 1 ∧ ∀ x, csrSpec r.toNat = some x → csrHere s x = false) ∨
              (code = 2 ∧ ∃ x, csrSpec r.toNat = some x ∧ csrHere s x = true ∧
                (m.level.num < x.rd.num ∨ (i ≠ .csrr d r ∧ ∃ l, x.wr = some l ∧ m.level.num < l.num))))) ∨
          (∃ d a w u sc, i = .ldacq d a w u sc ∧ (s.reg a).toNat % 2 ^ w.toNat ≠ 0 ∧ code = 3 ∧ val = s.reg a) ∨
          (∃ d a b w sc, i = .strel d a b w sc ∧ (s.reg a).toNat % 2 ^ w.toNat ≠ 0 ∧ code = 3 ∧ val = s.reg a) ∨
          (∃ d a b w o sc, (i = .amoadd d a b w o sc ∨ i = .amoand d a b w o sc ∨ i = .amoor d a b w o sc ∨
              i = .amoxor d a b w o sc ∨ i = .amomin d a b w o sc ∨ i = .amomax d a b w o sc ∨
              i = .amominu d a b w o sc ∨ i = .amomaxu d a b w o sc ∨ i = .amoswap d a b w o sc ∨
              i = .cas d a b w o sc) ∧
            (s.reg a).toNat % (if w = 0 then 4 else 8) ≠ 0 ∧ code = 3 ∧ val = s.reg a) ∨
          (i = .ret ∧ code = 5 ∧ val = s.reg 31 ∧ ((s.reg 31).toNat / 2 ^ 62 ≠ 0 ∨
            (s.reg 31).toNat / 2 ^ 57 % 32 > 24 ∨ m.base < m.base0 + (s.reg 31).toNat / 2 ^ 57 % 32)) ∨
          (i = .tret ∧ val = word ∧ ((m.level = .u ∧ code = 2) ∨ (m.level = .k ∧ code = 1))) ∨
          (∃ d a b tg n, code = 2 ∧ val = word ∧
            ((m.level = .u ∧ (i = .tlbiPage a b ∨ i = .tlbiPageall a b ∨ i = .tlbiCid a b ∨ i = .tlbiAll a b ∨
                i = .snap ∨ (i = .copyCfg d a tg ∧ ∃ r k, s.cur = .seq r k) ∨
                (i = .hcall n ∧ ∃ c, s.cur = .stew c))) ∨
              ((i = .framemap d a b ∨ i = .framefree d a b ∨ i = .rsave d a b ∨ i = .rrest d a b) ∧
                ∃ c, s.cur = .stew c))) ∨
          (∃ n r k, i = .hcall n ∧ s.cur = .seq r k ∧ code = 1 ∧ val = word) ∨
          (∃ d a tg h r k, s.cur = .seq r k ∧ code = 1 ∧ val = word ∧
            (((i = .tseal d a h tg ∨ i = .hullw d a tg) ∧ Legal.descValid (keyDesc (m.listFrom a 1)) = false) ∨
              (i = .topk d a tg ∧ Legal.descValid (topkDesc (m.listFrom a 4)) = false))))) →
    ∃ t : State, exec i s = .next t ∧ entersK s t code info pc val

/-- For every state: hcall n on a steward core at level K, or at H while the H record is not LIVE,
answers a next state that entered H with code 9, INFO n, the next instruction's address and VAL 0.
ASYNC_TRAP_TAKE on a steward core whose H record is not LIVE and whose task is between two instructions
takes the pending cause of the lowest code: the record holds that code and value and the task's pc, and
the cause is pending no more. -/
def Obligations.TrapEntryToH : Prop :=
  ∀ (s : State) (c : Nat),
    (∀ n : BitVec 15, s.cur = .stew c →
      s.me.level = .k ∨ (s.me.level = .h ∧ (s.stew c).hcause.getLsbD 63 = false) →
      ∃ t : State, exec (.hcall n) s = .next t ∧ entersH s t c 9 n.toNat (s.me.pc + 4) 0) ∧
    (∀ code val, (s.stew c).hcause.getLsbD 63 = false → (code, val) ∈ (s.stew c).pending →
      (∀ x ∈ (s.stew c).pending, code < x.1 ∨ x = (code, val)) → code < 256 →
      ((s.stew c).task.hold = .ready ∨ ∃ i, (s.stew c).task.hold = .wait i) →
      ∃ t u : State, exec (.asyncTrapTake c) s = .next t ∧ entersH u t c code 0 (s.stew c).task.pc val ∧
        onlyStew c s u ∧ u.stew c = { s.stew c with pending := (s.stew c).pending.erase (code, val) })

/-- For every state: tret at level K with a LIVE K record entered from U or K, and tret at level H on a
steward core with a LIVE H record, answer a next state in which LIVE is clear, the level is the one the
record holds and the pc is the saved one; nothing else changes. With no snapshot area, a trap n at level
K while the K record is LIVE: on a steward core the core takes DOUBLE (code 11) to H with the K record's
first word in VAL; on a sequencer with no event endpoint the task is held in its slot without issue
slots and nothing else changes. A trap at H on a steward core while the H record is LIVE stops the core,
and every virtual function without a status page shows Failed with reason 3. -/
def Obligations.TrapReturnAndDoubleTrap : Prop :=
  ∀ (s : State),
    (s.me.level = .k → s.me.kcause.getLsbD 63 = true → s.me.kcause.toNat / 2 ^ 61 % 4 ≤ 1 →
      ∃ t : State, exec .tret s = .next t ∧
        ends s t { s.me with
          kcause := s.me.kcause &&& 0x7FFFFFFFFFFFFFFF#64, pc := s.me.kpc
          level := if s.me.kcause.toNat / 2 ^ 61 % 4 = 0 then .u else .k }) ∧
    (∀ c, s.cur = .stew c → s.me.level = .h → (s.stew c).hcause.getLsbD 63 = true →
      (s.stew c).hcause.toNat / 2 ^ 61 % 4 ≤ 2 →
      ∃ t : State, exec .tret s = .next t ∧ onlyStew c s t ∧ sameMemory s t ∧
        t.stew c = { s.stew c with
          hcause := (s.stew c).hcause &&& 0x7FFFFFFFFFFFFFFF#64
          task := { s.me with
            pc := (s.stew c).hpc
            level := if (s.stew c).hcause.toNat / 2 ^ 61 % 4 = 0 then .u
              else if (s.stew c).hcause.toNat / 2 ^ 61 % 4 = 1 then .k else .h } }) ∧
    ∀ n : BitVec 15, s.health.hbase = 0 →
      (∀ c, s.cur = .stew c → s.me.level = .k → s.me.kcause.getLsbD 63 = true →
        ∃ t : State, exec (.trap n) s = .next t ∧ entersH s t c 11 0 s.me.pc s.me.kcause) ∧
      (∀ r k, s.cur = .seq r k → s.me.level = .k → s.me.kcause.getLsbD 63 = true → (s.region r).evep = 0 →
        ∃ t : State, exec (.trap n) s = .next t ∧ ends s t { s.me with hold := .doubled }) ∧
      (∀ c, s.cur = .stew c → s.me.level = .h → (s.stew c).hcause.getLsbD 63 = true →
        (∀ p, (s.part p).hmbx = 0) →
        ∃ t : State, exec (.trap n) s = .next t ∧ t.task (.stew c) = { s.me with hold := .stopped } ∧
          (∀ p, p < 64 → (t.part p).state = 4 ∧ (t.part p).reason = 3) ∧ sameMemory s t)

/-- For every state and operands: trap n (code 8, INFO n, the next instruction's address, VAL 0), a word
that is no instruction (code 1, the instruction's address, the word), a fetch at an address that is no
multiple of 4 (code 3, the address), a fetch whose translation faults (code 4, INFO the fault code, the
address that failed) and one whose home cannot be reached (code 6) COMPLETE by taking that exception. At
level U, and at level K while the K record is not LIVE, the answer is the next state that entered K
through PT_KVEC; at level H on a steward core, while the H record is not LIVE, the one that entered H
through ST_HVEC (the model's choice, log 13: R340 gives H no precise trap but hcall and DOUBLE). The
record holds LIVE, the old level, INFO, the code, the pc and VAL, and nothing else changes, but for what
the accesses of a failed fetch left (state u). -/
def Obligations.ExceptionEntryCompletes : Prop :=
  ∀ (s u : State) (i : Instr) (code info : Nat) (pc val : Word),
    (∃ n, i = .trap n ∧ u = s ∧ code = 8 ∧ info = n.toNat ∧ pc = s.me.pc + 4 ∧ val = 0) ∨
      (∃ w, i = .illegalEncoding w ∧ u = s ∧ code = 1 ∧ info = 0 ∧ pc = s.me.pc ∧ val = w.setWidth 64) ∨
      (∃ va, i = .fetchFault va ∧ va.toNat % 4 ≠ 0 ∧ u = s ∧ code = 3 ∧ info = 0 ∧ pc = s.me.pc ∧ val = va) ∨
      (∃ va x, i = .fetchFault va ∧ va.toNat % 4 = 0 ∧ pc = u.me.pc ∧ val = BitVec.ofNat 64 x ∧
        ((fetchWord s va.toNat = (.xlate info x, u) ∧ code = 4) ∨
          ((∃ dead, fetchWord s va.toNat = (.unreach dead x, u)) ∧ code = 6 ∧ info = 0))) →
    (u.me.level = .u ∨ (u.me.level = .k ∧ u.me.kcause.getLsbD 63 = false) →
      ∃ t : State, exec i s = .next t ∧ entersK u t code info pc val) ∧
    ∀ c, u.cur = .stew c → u.me.level = .h → (u.stew c).hcause.getLsbD 63 = false →
      ∃ t : State, exec i s = .next t ∧ entersH u t c code info pc val

/-- For every state at level K or above: tlbi.page drops from every TLB and walk cache exactly the
entries of this partition and of the CID in b (or global ones) that cover the page of a; tlbi.pageall
those of every CID; tlbi.cid those of the CID in b that are not global; tlbi.all all of the partition;
no other entry and no other state but the pc changes. icinv and icinv.all drop, at any level, exactly
the instruction-cache lines of this partition that hold the address of a, by its virtual or its physical
address, or all of them, and move the pc alone. snap with no health area, or with source 1 disabled,
moves the pc alone; with source 1 enabled and ARM set and no trigger under way it sets the boundary
eight ticks on; with ARM clear it counts a missed trigger in the snapshot control word alone. -/
def Obligations.MaintenanceResult : Prop :=
  ∀ (s : State) (a b : BitVec 5),
    let p := s.partOf s.cur
    let page := (s.reg a).toNat % 2 ^ 57 / 4096
    let cid := (s.reg b).toNat % 4096
    (1 ≤ s.me.level.num → ∀ (i : Instr) (hit : Tlb → Bool) (hitw : WalkEntry → Bool),
      (i = .tlbiPage a b ∧
          (hit = fun e => decide (e.part = p ∧ (e.cid = none ∨ e.cid = some cid) ∧ e.vpn ≤ page ∧
            page < e.vpn + e.pages)) ∧
          hitw = fun w => decide (w.part = p ∧ w.cid = cid ∧ w.vpre = page / 512 ^ (w.level - 1))) ∨
        (i = .tlbiPageall a b ∧ (hit = fun e => decide (e.part = p ∧ e.vpn ≤ page ∧ page < e.vpn + e.pages)) ∧
          hitw = fun w => decide (w.part = p ∧ w.vpre = page / 512 ^ (w.level - 1))) ∨
        (i = .tlbiCid a b ∧ (hit = fun e => decide (e.part = p ∧ e.cid = some cid)) ∧
          hitw = fun w => decide (w.part = p ∧ w.cid = cid)) ∨
        (i = .tlbiAll a b ∧ (hit = fun e => decide (e.part = p)) ∧ hitw = fun w => decide (w.part = p)) →
      ∃ t : State, exec i s = .next t ∧ jumps { s with tlbs := t.tlbs, walks := t.walks } t (s.me.pc + 4) ∧
        (∀ k l, (k, l) ∈ t.tlbs ↔ l ≠ [] ∧ ∃ l0, (k, l0) ∈ s.tlbs ∧ l = l0.filter fun e => !hit e) ∧
        ∀ k l, (k, l) ∈ t.walks ↔ l ≠ [] ∧ ∃ l0, (k, l0) ∈ s.walks ∧ l = l0.filter fun e => !hitw e) ∧
    (∀ (i : Instr) (hit : ILine → Bool),
      (i = .icinv a ∧ hit = fun x => decide (x.part = p ∧
          (x.va = (s.reg a).toNat / 64 * 64 ∨ some x.pa = lineBase s (s.reg a).toNat))) ∨
        (i = .icinvAll a ∧ hit = fun x => decide (x.part = p)) →
      ∃ t : State, exec i s = .next t ∧ jumps { s with icaches := t.icaches } t (s.me.pc + 4) ∧
        ∀ k l, (k, l) ∈ t.icaches ↔ l ≠ [] ∧ ∃ l0, (k, l0) ∈ s.icaches ∧ l = l0.filter fun x => !hit x) ∧
    (1 ≤ s.me.level.num →
      let word := s.health.hbase.toNat * 2 ^ 16 + 0x100
      let w := controlWord s (s.health.hbase.toNat * 2 ^ 16)
      ∃ t : State, exec .snap s = .next t ∧
        (s.health.hbase = 0 ∨ nbit w 1 = false → jumps s t (s.me.pc + 4)) ∧
        (s.health.hbase ≠ 0 → nbit w 1 = true → nbit w 0 = true → s.snapAt = none →
          jumps { s with snapAt := some (s.tick + 8, 1) } t (s.me.pc + 4)) ∧
        (s.health.hbase ≠ 0 → nbit w 1 = true → nbit w 0 = false →
          jumps { s with mem := t.mem, stores := t.stores, poison := t.poison } t (s.me.pc + 4) ∧
          t.word word = (if nbits w 31 16 = 0xFFFF then w else w + 2 ^ 16) ∧ sameBut s t word 8))

/-- For every state: on a steward core at level H, with no poisoned or failing unit in the machine,
framemap and framefree return the status code that their operands and the frame's state select, in the
order BADADDR, BADHANDLE, NOTFREE (framemap) or BADADDR, NOTMAPPED (framefree), with value 0; with OK
framemap writes Mapped and the owner, framefree writes Scrubbing, keeps the owner and starts the scrub;
no other byte changes. SCRUB_COMPLETE of a frame whose byte is Scrubbing waits, changing nothing, while
a store to it is on its way; else it clears the frame and its byte becomes Free (the owner is kept: the
model's choice), every cached translation to the frame, through whichever window, is dropped and no
other byte changes. DRAM_ROW_REMAP of a row that waits for it, with no error in the machine, serves all
its failing units at once (which addresses share a row is left open, log 4), counts a retirement, takes
a spare row of the bank while one of the 8 is left, and writes its log record. -/
def Obligations.FrameResult : Prop :=
  ∀ (s : State),
    (∀ (c : Nat) (d a b : BitVec 5), s.cur = .stew c → s.me.level = .h →
      (∀ u, mapGet false s.poison u = false) → (∀ u, mapGet 0 s.bad u = 0) →
      let pa := (s.reg a).toNat
      let found := pa % 4096 = 0 ∧ pa < 2 ^ 48 ∧ ∃ x, frameByteAddr s pa = some x
      (∃ (t : State) (code : Nat), exec (.framemap d a b) s = .next t ∧
        retires { s with mem := t.mem, stores := t.stores, poison := t.poison } t 4 d (BitVec.ofNat 64 code) 0 ∧
        (¬ found → code = 19 ∧ sameMemory s t) ∧
        ∀ x, pa % 4096 = 0 → pa < 2 ^ 48 → frameByteAddr s pa = some x →
          ((s.reg b).toNat > 63 → code = 5 ∧ sameMemory s t) ∧
          ((s.reg b).toNat ≤ 63 → (s.byte x).toNat / 64 ≠ 0 → code = 10 ∧ sameMemory s t) ∧
          ((s.reg b).toNat ≤ 63 → (s.byte x).toNat / 64 = 0 → code = 0 ∧ sameBut s t x 1 ∧
            t.byte x = BitVec.ofNat 8 (64 + (s.reg b).toNat))) ∧
      ∃ (t : State) (code : Nat), exec (.framefree d a b) s = .next t ∧
        retires { s with mem := t.mem, stores := t.stores, poison := t.poison, scrubs := t.scrubs } t 4 d
          (BitVec.ofNat 64 code) 0 ∧
        (¬ found → code = 19 ∧ sameMemory s t ∧ t.scrubs = s.scrubs) ∧
        ∀ x, pa % 4096 = 0 → pa < 2 ^ 48 → frameByteAddr s pa = some x →
          ((s.byte x).toNat / 64 ≠ 1 → code = 11 ∧ sameMemory s t ∧ t.scrubs = s.scrubs) ∧
          ((s.byte x).toNat / 64 = 1 → code = 0 ∧ sameBut s t x 1 ∧
            t.byte x = BitVec.ofNat 8 (128 + (s.byte x).toNat % 64) ∧ t.scrubs = s.scrubs ++ [pa])) ∧
    (∀ (pa x : Nat), pa % 4096 = 0 → pa < 2 ^ 48 → frameByteAddr s pa = some x → (s.byte x).toNat / 64 = 2 →
      let own := s.pkg.toNat
      let busy := ∃ p ∈ s.stores, ∃ c ∈ p.cells, c.1 / 4096 = canonPa own pa / 4096
      ∃ t : State, exec (.scrubComplete pa false) s = .next t ∧ (busy → t = s) ∧
        (¬ busy → t.scrubs = s.scrubs.erase pa ∧
          t.byte x = BitVec.ofNat 8 ((s.byte x).toNat % 64) ∧
          (∀ k, k < 4096 → canonPa own (pa + k) ≠ canonPa own x → t.byte (pa + k) = 0) ∧
          (∀ y, (∀ k, k < 4096 → canonPa own y ≠ canonPa own (pa + k)) →
            canonPa own y ≠ canonPa own x → t.byte y = s.byte y) ∧
          (∀ k l e, (k, l) ∈ t.tlbs → e ∈ l → ¬ (canonPa own (e.pfn * 4096) / 4096 ≤ canonPa own pa / 4096 ∧
            canonPa own pa / 4096 < canonPa own (e.pfn * 4096) / 4096 + e.pages)) ∧
          (∀ k l w, (k, l) ∈ t.walks → w ∈ l → canonPa own (w.pfn * 4096) / 4096 ≠ canonPa own pa / 4096) ∧
          { t with mem := s.mem, stores := s.stores, poison := s.poison, tlbs := s.tlbs, walks := s.walks
                   icaches := s.icaches, scrubs := s.scrubs } = s)) ∧
    ∀ (pa : Nat),
      let u := canonPa s.pkg.toNat pa / 64 * 64
      let bank := Config.dramBank u
      let spare := decide (mapGet 0 s.spareRows bank < 8)
      u ∈ s.rowWork → (∀ x, mapGet 0 s.bad x = 0) →
      ∃ t : State, exec (.dramRowRemap pa spare) s = .next t ∧
        (∀ v, v ∈ t.rowWork ↔ v ∈ s.rowWork ∧ ∀ k, s.place v = .dram k → Config.dramRow v ≠ Config.dramRow u) ∧
        (∀ k, mapGet 0 t.spareRows k = mapGet 0 s.spareRows k + if k = bank ∧ spare = true then 1 else 0) ∧
        t.health.degraded = true ∧
        t.health.retired = (if s.health.retired ≥ 255 then s.health.retired else s.health.retired + 1) ∧
        mapGet 0 t.health.classes 5 = (mapGet 0 s.health.classes 5 + 1) % 2 ^ 32 ∧
        t.regions = s.regions ∧ t.stews = s.stews ∧ (s.health.hbase = 0 → sameMemory s t) ∧
        (s.health.hbase ≠ 0 → s.health.lastTick ≠ s.tick ∨ s.health.onTick = [] →
          let base := s.health.hbase.toNat * 2 ^ 16
          let at_ := base + 0x200 + s.word (base + 0x1F8) % 112 * 32
          t.word at_ = 5 + (if spare then 2 ^ 44 else 2 ^ 45) ∧ t.word (at_ + 16) = u % 2 ^ 64 ∧
          t.word (at_ + 24) = s.tick % 2 ^ 64 ∧ t.word (base + 0x1F8) = (s.word (base + 0x1F8) + 1) % 2 ^ 64)

/-- For every state of a sequencer task and every engine instruction (copy, copy.cfg, gather, scatter,
merge, mscan, abatch, tseal, hullw, topk, tfork, tevict) whose operands and descriptor are accepted,
reads leaving state u: with a free queue entry, the tag's count below 15 and no counter or a counter
below its limit, the instruction queues one command at the end of its engine's queue, holding the
operand registers as they were at issue and the descriptor read; d receives OK; the tag bit and its TAGC
bit clear and its count rises by one; the counter's word rises by one; nothing else changes. A full
queue or a tag at 15 makes the task wait at the instruction; a counter at its limit makes it return OVF
and queue nothing. -/
def Obligations.EngineIssue : Prop :=
  ∀ (s u : State) (r k n : Nat) (d a : BitVec 5) (tag : BitVec 6) (i : Instr) (e : Engine) (desc : List Byte),
    let l := (List.range (n + 1)).map fun j => s.reg (BitVec.ofNat 5 (a.toNat + j))
    s.cur = .seq r k →
    (u = s ∧ desc = [] ∧
        ((∃ (n' rnd : BitVec 3) (v : BitVec 2), i = .copy d a n' rnd v tag ∧ n = n'.toNat ∧ e = .copy ∧
            descsOk (optReg l 5) = true ∧ copyN0 l ≠ 0) ∨
          (i = .copyCfg d a tag ∧ n = 2 ∧ e = .copy ∧ 1 ≤ s.me.level.num) ∨
          (∃ (n' rnd : BitVec 3) (v : BitVec 2), (i = .gather d a n' rnd v tag ∨ i = .scatter d a n' rnd v tag) ∧
            n = n'.toNat ∧ e = .copy ∧ indexedBad l = false) ∨
          (∃ y rnd z, i = .merge d a y rnd z tag ∧ n = 7 ∧ e = .merge) ∨
          (i = .mscan d a tag ∧ n = 3 ∧ e = .merge) ∨
          (i = .topk d a tag ∧ n = 4 ∧ e = .attention ∧ Legal.descValid (topkDesc l) = true ∧ topkOk l = true) ∨
          (i = .tfork d a tag ∧ n = 4 ∧ e = .attention) ∨ (i = .tevict d a tag ∧ n = 3 ∧ e = .attention))) ∨
      (coreRead s (s.reg a).toNat 64 .read = (.ok desc, u) ∧ e = .attention ∧
        ((i = .abatch d a tag ∧ n = 0 ∧ batchOk (leToNat desc) = true ∧
            mapGet none (u.region r).sets (Batch.of (leToNat desc)).bindh ≠ none) ∨
          (∃ h, i = .tseal d a h tag ∧ n = 1 ∧ Legal.descValid (keyDesc l) = true ∧
            tsealRefusal (decide (h = 1)) l (leToNat desc) = none) ∨
          (i = .hullw d a tag ∧ n = 1 ∧ Legal.descValid (keyDesc l) = true ∧ hullwRefusal l (leToNat desc) = none))) →
    let m := u.me
    let p := (u.region r).part
    let count := mapGet 0 m.counts tag.toNat
    let bit := BitVec.ofNat 64 (2 ^ tag.toNat)
    let queued := (u.region r).queueOf e
    let word := ctrAddr u p m.counter
    let c : Command :=
      { instr := i, list := l, owner := .slot k, tag := tag.toNat, counter := m.counter, desc := desc, rest := none }
    ∃ t : State, exec i s = .next t ∧
      (queued.length < 16 → count < 15 → (m.counter = 0 ∨ u.word word % 2 ^ 32 < 0xFFFFFFFF) →
        t.me = { m.set d 0 with
          pc := m.pc + 4, hold := .ready, counts := mapSet 0 m.counts tag.toNat (count + 1)
          tags := m.tags &&& ~~~ bit, tagc := m.tagc &&& ~~~ bit } ∧
        t.region r = { (u.region r).setQueue e (queued ++ [c]) with tasks := (t.region r).tasks } ∧
        (∀ j, j ≠ k → (t.region r).task j = (u.region r).task j) ∧
        onlyRegion r { u with mem := t.mem, stores := t.stores, poison := t.poison } t ∧
        (m.counter = 0 → sameMemory u t) ∧
        (m.counter ≠ 0 → t.word word = u.word word + 1 ∧ sameBut u t word 8)) ∧
      (queued.length ≥ 16 ∨ count ≥ 15 → ends u t { m with hold := .wait i }) ∧
      (queued.length < 16 → count < 15 → m.counter ≠ 0 → u.word word % 2 ^ 32 = 0xFFFFFFFF →
        ends u t { m.set d (BitVec.ofNat 64 2) with pc := m.pc + 4, hold := .ready })

/-- For every command of a region's queue (not saved) whose whole work is w, leaving state u, and waits
for no bank: with no fault it completes, with a fault it is abandoned. Either way it leaves its queue;
its owning task counts one command fewer on the tag, and on the last one the tag bit sets and the tag's
conversion flags join the task's; an abandoned one sets its TAGC bit and, if no fault record is valid,
writes tag, kind, engine and code and the address to SQ_EFAULT and SQ_EFADDR; a completed configuration
copy leaves its accepted image pending; its counter counts one child fewer. No other task, region or
state changes. An eviction that has not begun makes a first part of its writes instead, and keeps the
rest of them in its queue entry for a later step: the spec says that it reads its slots in order (R267);
the two steps with their cut at a free beat, and the completion of a queue's entries in any order, are
the model's choice (notes/assumptions/47.md). -/
def Obligations.EngineCompletion : Prop :=
  ∀ (s : State) (r idx : Nat) (e : Engine) (c : Command) (w : Emitted) (im : Option Image),
    let g := s.region r
    (g.queueOf e)[idx]? = some c → g.saved = none → commandWork s r c = some (w, im) → w.held = false →
    let u := w.s
    let batch := isBatch c.instr
    let failed := w.fault ≠ none
    let word := ctrAddr u (u.region r).part c.counter
    (batch = true → e = .attention) → (u.region r).part = g.part → (w.fault = none → c.parted = false) →
    (∃ t : State,
      exec (match batch, w.fault with
        | true, none => .attentionBatchComplete r idx
        | true, some _ => .attentionBatchAbandon r idx
        | false, none => .engineCommandComplete r e idx
        | false, some _ => .engineCommandAbandon r e idx) s = .next t ∧
      (t.region r).queueOf e = dropAt ((u.region r).queueOf e) idx ∧
      onlyRegion r { u with mem := t.mem, stores := t.stores, poison := t.poison } t ∧
      { t.region r with
        tasks := [], pending := none, copyq := [], mergeq := [], pipeq := [] } =
        { u.region r with tasks := [], pending := none, copyq := [], mergeq := [], pipeq := [] } ∧
      (∀ e', e' ≠ e → (t.region r).queueOf e' = (u.region r).queueOf e') ∧
      (t.region r).pending = (if w.fault = none then im.or (u.region r).pending else (u.region r).pending) ∧
      (∀ j, c.owner ≠ .slot j → (t.region r).task j = (u.region r).task j) ∧
      (c.counter = 0 → sameMemory u t) ∧
      (c.counter ≠ 0 → u.word word % 2 ^ 32 ≥ 2 → t.word word = u.word word - 1 ∧ sameBut u t word 8) ∧
      ∀ j, c.owner = .slot j →
        let m := (u.region r).task j
        let x := (t.region r).task j
        let bit := BitVec.ofNat 64 (2 ^ c.tag)
        let left := mapGet 0 m.counts c.tag - 1
        let flags := mapGet 0 m.tagflags c.tag ||| w.flags
        mapGet 0 x.counts c.tag = left ∧
        (∀ q, q ≠ c.tag → mapGet 0 x.counts q = mapGet 0 m.counts q ∧
          mapGet 0 x.tagflags q = mapGet 0 m.tagflags q) ∧
        (left = 0 → x.tags = m.tags ||| bit ∧ x.fflags = m.fflags ||| flags ∧ mapGet 0 x.tagflags c.tag = 0) ∧
        (left ≠ 0 → x.tags = m.tags ∧ x.fflags = m.fflags ∧ mapGet 0 x.tagflags c.tag = flags) ∧
        (¬ failed → x.tagc = m.tagc ∧ x.efault = m.efault ∧ x.efaddr = m.efaddr) ∧
        (∀ f, w.fault = some f → x.tagc = m.tagc ||| bit ∧
          (m.efault.getLsbD 63 = true → x.efault = m.efault ∧ x.efaddr = m.efaddr) ∧
          (m.efault.getLsbD 63 = false →
            x.efault = BitVec.ofNat 64 (2 ^ 63 + c.tag % 64 * 2 ^ 57 + f.kind % 16 * 2 ^ 53 +
              faultEngine c.instr * 2 ^ 50 + f.code % 2 ^ 16) ∧
            x.efaddr = BitVec.ofNat 64 (f.addr % 2 ^ 57))) ∧
        (w.oor = [] ∨ m.oor.getLsbD 63 = true → x.oor = m.oor) ∧
        { x with counts := m.counts, tagflags := m.tagflags, tags := m.tags, fflags := m.fflags, tagc := m.tagc
                 efault := m.efault, efaddr := m.efaddr, oor := m.oor } = m) ∧
    ∀ (v : Emitted) (rest : List (Nat × List Byte)), c.parted = true → batch = false → evictFirst s r c = (v, rest) →
      v.held = false → v.fault = none →
      ∃ t : State, exec (.engineCommandComplete r e idx) s = .next t ∧
        (t.region r).queueOf e = ((v.s.region r).queueOf e).set idx { c with rest := some rest } ∧
        (∀ e', e' ≠ e → (t.region r).queueOf e' = (v.s.region r).queueOf e') ∧
        onlyRegion r v.s t ∧ sameMemory v.s t ∧
        ∀ j, { (t.region r).task j with oor := 0 } = { (v.s.region r).task j with oor := 0 }

/-- For every region: a copy of one element between pages of the unsigned byte format (no conversion),
or that give none, before and after the read, whose read and write succeed, has no fault and no flags
and leaves the write of exactly the byte read. The others in region-shared memory that the region
reaches, with no unit in error: a gather of bytes puts source element idx[i] at destination i; a scatter
puts source element i at destination idx[i], which of its writers where several name one place being
open (both where they write nothing that they read as a source); mscan leaves the n + 1 sums modulo
2^32; a merge of two rows with strictly rising indices leaves the count, and so many rising indices with
their values: an index of one row with its value unchanged, one of both with the rounded sum, unless
that is a zero and keepz is off, and the flags of those sums; an attention batch, of which every
sequence is empty or breaks the checks of LEN or NT, leaves zero results and the side records with EMPTY
(and L zero) or BADSEQ, when it writes nothing that it reads (that BADSEQ stands alone is the model's
choice, log 80). No byte but these changes. And for every query whose sequence passes: the first write
of its work is its result row: zeros, or each accumulator over l rounded in FP32 and then into OFMT; its
side record holds m, l, the tesserae presented and the flags. -/
def Obligations.EngineResultBytes : Prop :=
  (∀ (s s1 s2 s3 : State) (r src dst : Nat) (bs : List Byte) (o : Option (Nat × Bool × Nat)) (l : List Word)
    (d a : BitVec 5) (n rnd : BitVec 3) (v : BitVec 2) (tg : BitVec 6),
    let j := Job.start s r 4
    l = [BitVec.ofNat 64 dst, BitVec.ofNat 64 src, 1] → dst < 2 ^ 64 → src < 2 ^ 64 →
    j.sides src dst none = (.fmt (.int 8 true), .fmt (.int 8 true), { j with s := s1 }) →
    Job.read { j with s := s1 } src 1 = (bs, { j with s := s2 }) → bs.length = 1 →
    (∀ t, t = s1 ∨ t = s2 → ∀ b k, (b = src ∧ k = Access.read) ∨ (b = dst ∧ k = Access.write) →
      Job.peekSide { j with s := t } b k = none ∨ Job.peekSide { j with s := t } b k = some (.fmt (.int 8 true))) →
    engineStore j.x r s2 dst bs = (.ok o, s3) →
    let c : Command :=
      { instr := .copy d a n rnd v tg, list := l, owner := .none, tag := 0, counter := 0, desc := [], rest := none }
    ∃ w, commandWork s r c = some (w, none) ∧ w.fault = none ∧ w.held = false ∧ w.flags = 0 ∧ w.s = s3) ∧
  ∀ (s : State) (r : Nat) (c : Command),
    let arg := fun k : Nat => (c.list.getD k 0).toNat
    let leaves := fun (flags : Option Flags) (written : Nat → Prop) (ok : State → Prop) => ∃ w : Emitted,
      commandWork s r c = some (w, none) ∧ w.fault = none ∧ w.held = false ∧ w.oor = [] ∧
        (∀ f, flags = some f → w.flags = f) ∧ sharedOnly r s w.s ∧ sharedKept r s w.s written ∧ ok w.s
    let within := fun a b n : Nat => b ≤ a ∧ a < b + n
    (∀ d a n rnd v tg,
      let dst := arg 0
      let src := arg 1
      let idx := fun i => s.sharedNum r (arg 2 + 4 * i) 4
      let cnt := arg 3
      c.list.length = 4 → cnt < 2 ^ 24 → sharedAt s r (arg 2) (4 * cnt) →
      (c.instr = .gather d a n rnd v tg → sharedAt s r dst cnt →
        (∀ i, i < cnt → sharedAt s r (src + idx i) 1 ∧ ¬ within (src + idx i) dst cnt) →
        leaves (some 0) (fun x => within x dst cnt) fun t =>
          ∀ i, i < cnt → t.sharedByte r (dst + i) = s.sharedByte r (src + idx i)) ∧
      (c.instr = .scatter d a n rnd v tg → sharedAt s r src cnt →
        (∀ i, i < cnt → sharedAt s r (dst + idx i) 1 ∧ ¬ within (dst + idx i) src cnt) →
        leaves (some 0) (fun x => ∃ i, i < cnt ∧ x = dst + idx i) fun t =>
          ∀ i, i < cnt → ∃ k, k < cnt ∧ idx k = idx i ∧ t.sharedByte r (dst + idx i) = s.sharedByte r (src + k))) ∧
    (∀ d a tg, c.instr = .mscan d a tg → arg 2 < 2 ^ 24 → sharedAt s r (arg 0) (4 * arg 2) →
      sharedAt s r (arg 1) (4 * (arg 2 + 1)) →
      leaves (some 0) (fun x => within x (arg 1) (4 * (arg 2 + 1))) fun t => ∀ k, k ≤ arg 2 →
        t.sharedNum r (arg 1 + 4 * k) 4 =
          (arg 3 + ((List.range k).map fun i => s.sharedNum r (arg 0 + 4 * i) 4).sum) % 2 ^ 32) ∧
    (∀ d a y rnd keepz tg, c.instr = .merge d a y rnd keepz tg →
      let f := mergeFmt y
      let wd := fmtWidth f / 8
      let na := arg 4 % 2 ^ 32
      let nb := arg 4 / 2 ^ 32
      let xa := fun i => s.sharedNum r (arg 0 + 4 * i) 4
      let va := fun i => s.sharedNum r (arg 1 + wd * i) wd
      let xb := fun i => s.sharedNum r (arg 2 + 4 * i) 4
      let vb := fun i => s.sharedNum r (arg 3 + wd * i) wd
      let sum := fun i k => if f = .int 32 false ∨ f = .int 64 false then ((va i + vb k) % 2 ^ (8 * wd), 0)
        else fAdd f (modeOf rnd.toNat 0) true (decodeFmt f (va i)) (decodeFmt f (vb k))
      let kept := fun v : Nat => keepz = 1 ∨ (if f = fmtF32 ∨ f = fmtF64 then v % 2 ^ (8 * wd - 1) else v) ≠ 0
      let sums := (List.range na).flatMap fun i => ((List.range nb).filter fun k => decide (xb k = xa i)).map fun k => sum i k
      sharedAt s r (arg 0) (4 * na) → sharedAt s r (arg 1) (wd * na) → sharedAt s r (arg 2) (4 * nb) →
      sharedAt s r (arg 3) (wd * nb) → sharedAt s r (arg 5) (4 * (na + nb)) → sharedAt s r (arg 6) (wd * (na + nb)) →
      sharedAt s r (arg 7) 4 →
      (∀ x, ¬ (within x (arg 5) (4 * (na + nb)) ∧ within x (arg 6) (wd * (na + nb))) ∧
        ¬ (within x (arg 7) 4 ∧ (within x (arg 5) (4 * (na + nb)) ∨ within x (arg 6) (wd * (na + nb))))) →
      (∀ i, i + 1 < na → xa i < xa (i + 1)) → (∀ i, i + 1 < nb → xb i < xb (i + 1)) →
      ∃ k, k ≤ na + nb ∧ leaves (some (flagUnion sums.length fun i => (sums.getD i (0, 0)).2))
        (fun x => within x (arg 5) (4 * k) ∨ within x (arg 6) (wd * k) ∨ within x (arg 7) 4) fun t =>
          let X := fun i => t.sharedNum r (arg 5 + 4 * i) 4
          let V := fun i => t.sharedNum r (arg 6 + wd * i) wd
          t.sharedNum r (arg 7) 4 = k % 2 ^ 32 ∧ (∀ i, i + 1 < k → X i < X (i + 1)) ∧
          ∀ x v, (∃ i, i < k ∧ X i = x ∧ V i = v) ↔
            (∃ i, i < na ∧ xa i = x ∧ va i = v ∧ ∀ m, m < nb → xb m ≠ x) ∨
            (∃ m, m < nb ∧ xb m = x ∧ vb m = v ∧ ∀ i, i < na → xa i ≠ x) ∨
            ∃ i m, i < na ∧ m < nb ∧ xa i = x ∧ xb m = x ∧ (sum i m).1 % 2 ^ (8 * wd) = v ∧ kept v) ∧
    (∀ d a tg, c.instr = .abatch d a tg →
      let b := Batch.of (leToNat c.desc)
      let row := b.dim * fmtWidth (fmtOfDesc b.ofmt) / 8
      let side := va64 b.xva
      let entry := fun i => b.sva + 32 * (s.sharedNum r (b.qmva + 32 * i) 32 / 2 ^ 96 % 2 ^ 32)
      let len := fun i => s.sharedNum r (entry i) 32 / 2 ^ 64 % 2 ^ 32
      let nt := fun i => s.sharedNum r (entry i) 32 / 2 ^ 32 % 2 ^ 15
      let rows := (b.nq * b.dim * fmtWidth (fmtOfDesc b.qfmt) + 7) / 8
      let written := fun x => within x b.ova (b.nq * row) ∨ (b.xva ≠ 0 ∧ within x side (16 * b.nq))
      mapGet none (s.region r).sets b.bindh ≠ none → 8 ∣ fmtWidth (fmtOfDesc b.ofmt) →
      sharedAt s r b.qmva (32 * b.nq) → sharedAt s r b.qva rows → sharedAt s r b.ova (b.nq * row) →
      (b.xva ≠ 0 → sharedAt s r side (16 * b.nq)) →
      (∀ x, ¬ (within x b.ova (b.nq * row) ∧ b.xva ≠ 0 ∧ within x side (16 * b.nq)) ∧
        (written x → ¬ within x b.qmva (32 * b.nq) ∧ ¬ within x b.qva rows ∧
          ∀ i, i < b.nq → ¬ within x (entry i) 32)) →
      (∀ i, i < b.nq → sharedAt s r (entry i) 32 ∧
        (len i = 0 ∨ 2 ^ 20 < len i ∨ nt i ≠ (len i + 63) / 64)) →
      leaves none written fun t => ∀ i, i < b.nq →
        (∀ k, k < row → t.sharedByte r (b.ova + i * row + k) = 0) ∧
        (b.xva ≠ 0 → len i = 0 ∧ nt i = 0 → t.sharedNum r (side + 16 * i) 12 = 1) ∧
        (b.xva ≠ 0 → ¬ (len i = 0 ∧ nt i = 0) → t.sharedNum r (side + 16 * i) 8 = 4)) ∧
    ∀ (j : Job) (im : Image) (b : Batch) (i : Nat) (l : List Tess),
      let q := (j.queryOf b i).1
      let y := (j.queryOf b i).2.walk (b.sva + 32 * q.seq) b.ttab
      y.2.1 = some l → y.1.len ≠ 0 →
      let u := y.2.2.maskCull im q y.1 l
      let x := Job.bounds im b q u.1 u.2
      let z := x.2.blend im b q y.1 (topkKeep b.topk x.1)
      let f := fmtOfDesc b.ofmt
      let none_ := (decodeFmt fmtF32 z.1.l).isZero = true
      (j.query im b i).1.head? = some ((b.ova + i * b.dim * fmtWidth f / 8) % 2 ^ 64,
        packCodes f ((List.range b.dim).map fun k => if none_ then 0
          else (convertCode fmtF32 f .rne (defaultOvf f) (divF32 (z.1.acc k) z.1.l)).1)) ∧
      (b.xva ≠ 0 → (j.query im b i).1[1]? = some ((va64 b.xva + 16 * i) % 2 ^ 64,
        natToLe ((if none_ then 2 else 0) + (if z.2.1.nanin = true then 8 else 0) + (if z.2.1.theta = true then 16 else 0) +
          z.2.1.tess % 2 ^ 24 * 2 ^ 40 + z.1.l % 2 ^ 32 * 2 ^ 64 + z.1.m % 2 ^ 32 * 2 ^ 96) 16))

/-- For every state of a sequencer task: waitt.all completes when every tag of the mask in a is set,
waitt.any when one is or the mask is 0, with the set tags of the mask in d; otherwise the task waits at
the instruction; WAITT_RELEASE does the same for a task that waits. ffr returns the number of the lowest
tag that is set and in the mask, or 64. Register d and the pc change, and nothing else but the end of
the wait. -/
def Obligations.TagWaitResult : Prop :=
  ∀ (s : State) (r k : Nat) (d a : BitVec 5),
    (∀ (c : CoreId) (m : BitVec 1) (i : Instr) (u : State),
      (c = .seq r k ∧ s.cur = c ∧ i = .waitt d a m ∧ u = s) ∨
        ((s.task c).hold = .wait (.waitt d a m) ∧ i = .waittRelease c ∧ u = { s with cur := c }) →
      let x := s.task c
      let mask := x.get a
      let met := if m = 1 then x.tags &&& mask = mask else mask = 0 ∨ x.tags &&& mask ≠ 0
      ∃ t : State, exec i s = .next t ∧
        (met → ends u t { x.set d (x.tags &&& mask) with pc := x.pc + 4, hold := .ready }) ∧
        (¬ met → ends u t { x with hold := .wait (.waitt d a m) })) ∧
    (s.cur = .seq r k → ∃ (t : State) (v : Nat), exec (.ffr d a) s = .next t ∧
      retires s t 4 d (BitVec.ofNat 64 v) 0 ∧ v ≤ 64 ∧
      (v < 64 → (s.me.tags &&& s.reg a).getLsbD v = true) ∧
      ∀ j, j < v → (s.me.tags &&& s.reg a).getLsbD j = false)

/-- For every state of a sequencer task: when its reads succeed, leaving state u, cbload with strictly
increasing levels (codes as two's complement, the NaN code left out) makes the table the slot's pending
copy under the next generation and returns OK with it; with the first code c that breaks the order it
returns NOTINC with c and changes no table. pfxfind with S from 1 to 24 returns HIT with the tessera
number, or MISS with the cause, and puts the hash of the previous hash and the 64 token IDs in a + 2;
the collisions met are added to SQ_PFXCOLL. -/
def Obligations.CodebookAndLookupResult : Prop :=
  ∀ (s : State) (r k : Nat) (d a : BitVec 5), s.cur = .seq r k →
    (∀ (u : State) (slot : BitVec 3) (w : BitVec 1) (bs : List Byte),
      let bits := if w = 1 then 8 else 4
      let level := fun c : Int => Int.bmod (leToNat ((bs.drop (2 * (c % 2 ^ bits).toNat)).take 2) : Int) (2 ^ 16)
      let first := - (2 ^ (bits - 1) : Int) + 1
      let last := (2 ^ (bits - 1) : Int) - 1
      let p := (u.region r).part
      let gen := ((mapGet Codebook.none (u.part p).books slot.toNat).gen + 1) % 2 ^ 24
      coreRead s (s.reg a).toNat (2 * 2 ^ bits) .read = (.ok bs, u) → bs.length = 2 * 2 ^ bits →
      ((∀ c, first ≤ c → c < last → level c < level (c + 1)) →
        ∃ t : State, exec (.cbload d a slot w) s = .next t ∧
          retires { u with parts := t.parts } t 4 d (BitVec.ofNat 64 (gen * 2 ^ 32)) 0 ∧
          (∀ q, q ≠ p → t.part q = u.part q) ∧ { t.part p with books := (u.part p).books } = u.part p ∧
          (∀ j, j ≠ slot.toNat → mapGet Codebook.none (t.part p).books j = mapGet Codebook.none (u.part p).books j) ∧
          let b := mapGet Codebook.none (t.part p).books slot.toNat
          b.width = bits ∧ b.gen = gen ∧
            ∀ c, - (2 ^ (bits - 1) : Int) ≤ c → c ≤ last → b.level (c % 2 ^ bits).toNat = level c) ∧
      ∀ c, first < c → c ≤ last → (∀ x, first ≤ x → x + 1 < c → level x < level (x + 1)) → level c ≤ level (c - 1) →
        ∃ t : State, exec (.cbload d a slot w) s = .next t ∧
          retires u t 4 d (BitVec.ofNat 64 (8 + (c % 2 ^ bits).toNat * 2 ^ 32)) 0) ∧
    ∀ (u v : State) (ids : List Byte) (ans : Found) (coll : Nat),
      let n := fun j : Nat => (s.reg (BitVec.ofNat 5 (a.toNat + j))).toNat
      let hash := leToNat (shake256 (natToLe (n 2) 8 ++ ids) 1)
      n 1 % 32 ≠ 0 → n 1 % 32 ≤ 24 → coreRead s (n 4) 256 .read = (.ok ids, u) →
      let q : Lookup := { base := n 0, size := n 1 % 32, hash := hash, prev := n 3 % 2 ^ 24, ids := leToNat ids
                          ttab := n 5 }
      lookupGo q 8 0 0 none u = (ans, coll, none, v) → v.cur = .seq r k →
      ∀ code value, (ans = .hit value ∧ code = 16) ∨ (ans = .miss value ∧ code = 17) → value < 2 ^ 24 →
        ∃ t : State, exec (.pfxfind d a) s = .next t ∧
          t.me = { (v.me.set (BitVec.ofNat 5 (a.toNat + 2)) (BitVec.ofNat 64 hash)).set d
              (BitVec.ofNat 64 (code + value * 2 ^ 32)) with pc := v.me.pc + 4 } ∧
          { t.region r with tasks := [] } = { v.region r with
            tasks := [], pfxcoll := BitVec.ofNat 32 (min ((v.region r).pfxcoll.toNat + coll) 0xFFFFFFFF) } ∧
          onlyRegion r v t ∧ sameMemory v t

/-- For every state of a sequencer task: bind of an image that is read whole and accepted installs the
set under the handle named, or under the lowest free one when 0 is named, returns CODE 0 in d and the
handle in a + 1, and the slices of the stage elements are zero again, with no unit of them poisoned; a
refused image returns its record and binds nothing; unbind of handle h from 1 to 15 releases it and
returns 0. While an issued batch uses the handle, bind and unbind of it hold, and BIND_HOLD_END makes
the task ready when none does. A task held by a full queue or tag is ready once both have room. -/
def Obligations.BindResult : Prop :=
  ∀ (s : State) (r k : Nat) (d a : BitVec 5),
    (s.cur = .seq r k →
      (∀ (u v : State) (h : BitVec 4) (hd bs : List Byte) (record : Nat) (im : Option Image),
        (h = 0 ∨ handleInUse (s.region r) h.toNat = false) →
        coreRead s (s.reg a).toNat 64 .read = (.ok hd, u) → impliedSize hd ≤ maxImage →
        coreRead u (s.reg a).toNat (impliedSize hd) .read = (.ok bs, v) →
        loadStages (regionLayer r) (v.region r).enabled bs = (record, im) → v.cur = s.cur →
        ∃ t : State, exec (.bind d a h) s = .next t ∧
          (im = none → retires v t 4 d (BitVec.ofNat 64 record) 0) ∧
          ∀ m handle, im = some m →
            (h ≠ 0 ∧ handle = h.toNat) ∨ (h = 0 ∧ 1 ≤ handle ∧ handle ≤ 15 ∧
              mapGet none (v.region r).sets handle = none ∧
              ∀ j, 1 ≤ j → j < handle → mapGet none (v.region r).sets j ≠ none) →
            t.me = { (v.me.set d 0).set (BitVec.ofNat 5 (a.toNat + 1)) (BitVec.ofNat 64 handle) with
              pc := v.me.pc + 4 } ∧
            mapGet none (t.region r).sets handle = some m ∧
            (∀ j, j ≠ handle → mapGet none (t.region r).sets j = mapGet none (v.region r).sets j) ∧
            { t.region r with tasks := [], sets := [] } = { v.region r with tasks := [], sets := [], stages := [] } ∧
            onlyRegion r { v with poison := t.poison } t ∧ sameMemory v t ∧
            ∀ u, let staged := ∃ n, n < 3 ∧ stageUnit r n 0 ≤ u ∧ u < stageUnit r n 0x2000;
              (staged → mapGet false t.poison u = false) ∧ (¬ staged → mapGet false t.poison u = mapGet false v.poison u)) ∧
      (∀ h : BitVec 4, h ≠ 0 → handleInUse (s.region r) h.toNat = false →
        ∃ t : State, exec (.unbind d a h) s = .next t ∧
          t.me = { s.me.set d 0 with pc := s.me.pc + 4 } ∧ mapGet none (t.region r).sets h.toNat = none ∧
          (∀ j, j ≠ h.toNat → mapGet none (t.region r).sets j = mapGet none (s.region r).sets j) ∧
          { t.region r with tasks := [], sets := [] } = { s.region r with tasks := [], sets := [] } ∧
          onlyRegion r s t ∧ sameMemory s t) ∧
      ∀ (h : BitVec 4) (i : Instr), h ≠ 0 → handleInUse (s.region r) h.toNat = true →
        (i = .bind d a h ∨ i = .unbind d a h) →
        ∃ t : State, exec i s = .next t ∧ ends s t { s.me with hold := .wait i }) ∧
    ∀ (i e : Instr), ((s.region r).task k).hold = .wait i →
      (∃ h, (i = .bind d a h ∨ i = .unbind d a h) ∧ e = .bindHoldEnd (.seq r k) ∧
        handleInUse (s.region r) h.toNat = false) ∨
      (∃ en tag, engineOf i = some (en, tag) ∧ (e = .engineQueueHoldEnd (.seq r k) ∨ e = .tagCountHoldEnd (.seq r k)) ∧
        ((s.region r).queueOf en).length < 16 ∧ mapGet 0 ((s.region r).task k).counts tag < 15) →
      ∃ t : State, exec e s = .next t ∧ ends { s with cur := .seq r k } { t with cur := .seq r k }
        { (s.region r).task k with hold := .ready }

/-- For every state of a sequencer task with no reconfiguration under way and operands that pass the
checks of R268 (with the preload records read, if any, leaving state u), launch returns OK. With islands
in the mask (their counters, the launch's, the parent's and the phase's being different handles): the
island of the j-th mask bit runs unit U0 + j with the trips asked for, its counter word holding them
under the launch; the launch counter holds the number of islands, its parent and the phase; the parent's
and phase's counts rise by one; every preload record stands in its register; the islands outside the
mask are unchanged. An accepted launch is a release at LAYER, capped: while an earlier store of the core
has not performed there the task waits, and FENCE_COMPLETE then does what the launch does: with the cap
unchanged it answers what exec of the launch answers for the same task made ready. A refused launch
returns its code alone. LAUNCH_HOLD_END makes a task held by the token ready when the token has passed. -/
def Obligations.LaunchResult : Prop :=
  ∀ (s : State) (r k : Nat) (d a : BitVec 5) (n : BitVec 3), s.cur = .seq r k →
    let l := s.me.listFrom a n.toNat
    let x := launchArgs l
    let scope := min 2 (s.part (s.partOf s.cur)).cap.toNat
    let limit := (s.part (s.partOf s.cur)).fenceto.toNat
    (∀ code, (s.region r).token = none → launchRefusal s (s.region r) x l.length = some code → code < 256 →
      ∃ t : State, exec (.launch d a n) s = .next t ∧
        ends s t { s.me.set d (BitVec.ofNat 64 code) with pc := s.me.pc + 4, hold := .ready }) ∧
    ((s.region r).token ≠ none →
      ∃ t : State, exec (.launch d a n) s = .next t ∧ ends s t { s.me with hold := .wait (.launch d a n) }) ∧
    (∀ j, (s.region r).token = none → ((s.region r).task j).hold = .wait (.launch d a n) →
      ∃ t : State, exec (.launchHoldEnd (.seq r j)) s = .next t ∧
        ends { s with cur := .seq r j } { t with cur := .seq r j } { (s.region r).task j with hold := .ready }) ∧
    ((s.region r).token = none → launchRefusal s (s.region r) x l.length = none → 2 ≤ scope →
      (∃ p ∈ s.stores, p.issuer = .core s.cur ∧ p.reached < scope) →
      ∃ (t : State) (capped : Bool), exec (.launch d a n) s = .next t ∧
        ends s t { s.me with hold := .fence (.launch d a n) scope capped limit s.tick }) ∧
    (∀ c at_ capped since lim, (s.task c).hold = .fence (.launch d a n) at_ capped lim since →
      (∀ p ∈ s.stores, p.issuer = .core c → at_ ≤ p.reached) →
      exec (.fenceComplete c) s = .next (launchRun d a n (({ s with cur := c } : State).ready c)) ∧
        (at_ = min 2 (s.part (s.partOf c)).cap.toNat →
          exec (.fenceComplete c) s = exec (.launch d a n) (({ s with cur := c } : State).ready c))) ∧
    ∀ (u : State) (pre : List Preload) (bs : List Byte),
      let g := u.region r
      let handles := (upTo 64).filter fun j => nbit x.mask j
      (s.region r).token = none → launchRefusal s (s.region r) x l.length = none →
      (∀ p ∈ s.stores, p.issuer = .core s.cur → scope ≤ p.reached) →
      (x.count = 0 ∧ u = s ∧ pre = []) ∨
        (0 < x.count ∧ coreRead s (l.getD 3 0).toNat (72 * x.count) .read = (.ok bs, u) ∧ pre = preloadsOf x.count bs) →
      (∀ p ∈ pre, inMask g x p.elem = true) → launchFull u g x = false → g.phase < 4096 → u.cur = s.cur →
      (x.l :: x.p :: g.phase :: (upTo handles.length).map fun j => x.u0 + j).Nodup →
      ∃ t : State, exec (.launch d a n) s = .next t ∧
        t.me = { u.me.set d 0 with pc := u.me.pc + 4, hold := .ready } ∧
        (∀ c, c ≠ s.cur → t.task c = u.task c) ∧
        (∀ q, q ≠ r → t.region q = u.region q) ∧
        t.word (ctrAddr u g.part x.l) = ctrMake 1 false false x.p g.phase handles.length ∧
        (handles ≠ [] →
          t.word (ctrAddr u g.part x.p) = u.word (ctrAddr u g.part x.p) + 1 ∧
          (g.phase ≠ 0 → t.word (ctrAddr u g.part g.phase) = u.word (ctrAddr u g.part g.phase) + 1)) ∧
        (∀ j i, handles[j]? = some i →
          t.word (ctrAddr u g.part (x.u0 + j)) = ctrMake 0 false false x.l 0 x.trips ∧
          ∀ y, g.island i = some y → (t.region r).island i = some { y with
            unit := some (x.u0 + j), trips := x.trips, counter := 0, flags := 0, held := none, watch := 0
            stalled := false, charges := Charges.zero, hit := 0 }) ∧
        (∀ i, nbit x.mask i = false ∨ 64 ≤ i → (t.region r).island i = g.island i) ∧
        (handles ≠ [] → ∀ p ∈ pre, (∀ q ∈ pre, q.elem = p.elem → q.reg = p.reg → q.data = p.data) →
          mapGet 0 ((t.region r).element p.elem).v p.reg = p.data) ∧
        ∀ e, { (t.region r).element e with v := [] } = { g.element e with v := [] } ∧
          ∀ v, (∀ p ∈ pre, p.elem = e → p.reg ≠ v) →
            mapGet 0 ((t.region r).element e).v v = mapGet 0 (g.element e).v v

/-- For every running task and operands that pass the checks of R269, spawn answers OK with the slot's
number, and the lowest free slot of the region named (or the issuer's own) holds a fresh task: ready at
level U at the entry, WSP, arguments from w0 on, counter, endpoint and generation as given, its K record
as the slot had it and everything else as after reset. No other task changes but the issuer, which
receives the status. Without an endpoint the counter's word rises by one and no other byte changes. With
an endpoint whose entry can be read, the entry's low word becomes PLACED with region, slot and the next
generation, and memory is then what the rise of the counter and the move of the messages that wait in
the endpoint's mailbox leave. The spawn is a release at the lowest scope of issuer and new sequencer,
capped: this holds when every earlier store of the core has performed there; else the task waits, and
FENCE_COMPLETE then does what the spawn does. -/
def Obligations.SpawnResult : Prop :=
  ∀ (s u v w : State) (d a : BitVec 5) (n : BitVec 3) (q slot : Nat) (x y : Option Nat),
    let l := s.me.listFrom a n.toNat
    let o := (l.getD 1 0).toNat
    let c := o % 4096
    let e := o / 2 ^ 12 % 4096
    let f := o / 2 ^ 24 % 1024
    let part := s.partOf s.cur
    let count := ctrAddr s part c
    let scope := min (lca (s.agent s.cur) (regionCoord s q 3)) (s.part part).cap.toNat
    let limit := (s.part part).fenceto.toNat
    s.me.hold ≠ .free →
    (c ≠ 0 ∧ (ctrLevel (s.word count) = 1 ∨ ctrLevel (s.word count) = 4) ∧ s.word count % 2 ^ 32 ≠ 0) →
    ((f ≠ 0x3FF ∧ q = f) ∨ (f = 0x3FF ∧ ∃ k, s.cur = .seq q k)) → q ≤ 639 → (s.region q).part = part →
    (s.region q).saved = none →
    (e = 0 ∧ x = none ∧ y = none ∧ u = s ∧ v = s ∧ w = s) ∨
      (e ≠ 0 ∧ endpointGet s (coreKctx s s.cur) e = (x, u) ∧ epState (x.getD 0) ≠ 1 ∧ epState (x.getD 0) ≠ 2 ∧
        endpointGet u (coreKctx u u.cur) e = (y, v) ∧ u.cur = s.cur ∧
        w = if y = none then v else endpointPut v (coreKctx v v.cur) e
          (2 ^ 62 + q * 2 ^ 52 + slot * 2 ^ 49 + (epGen (y.getD 0) + 1) % 2 ^ 32)) →
    (slot < 8 ∧ ((u.region q).task slot).hold = .free ∧ ∀ j, j < slot → ((u.region q).task j).hold ≠ .free) →
    u.word (ctrAddr u part c) % 2 ^ 32 < 0xFFFFFFFF →
    ((∃ p ∈ s.stores, p.issuer = .core s.cur ∧ p.reached < scope) → coreLevel s.cur ≤ scope →
      ∃ (t : State) (capped : Bool), exec (.spawn d a n) s = .next t ∧
        ends s t { s.me with hold := .fence (.spawn d a n) scope capped limit s.tick }) ∧
    ((∀ p ∈ s.stores, p.issuer = .core s.cur → scope ≤ p.reached) →
      exec (.spawn d a n) s = .next (spawnRun d a n s)) ∧
    (∀ (s' : State) (at_ lim since : Nat) (capped : Bool), s'.me.hold = .fence (.spawn d a n) at_ capped lim since →
      (∀ p ∈ s'.stores, p.issuer = .core s'.cur → at_ ≤ p.reached) →
      exec (.fenceComplete s'.cur) s' = .next (spawnRun d a n (s'.ready s'.cur))) ∧
    ∃ t : State, spawnRun d a n s = t ∧
      t.me = { u.me.set d (BitVec.ofNat 64 (slot * 2 ^ 32)) with pc := u.me.pc + 4, hold := .ready } ∧
      (∀ j, j ≠ s.cur → j ≠ .seq q slot → t.task j = u.task j) ∧
      (let old := (u.region q).task slot;
        (t.region q).task slot = { Task.zero with
          hold := .ready, pc := l.getD 0 0, wsp := (l.getD 2 0).extractLsb' 3 54, counter := c, endpoint := e
          gen := (epGen (y.getD 0) + 1) % 2 ^ 32, ring := ((t.region q).task slot).ring
          kcause := old.kcause, kpc := old.kpc, kval := old.kval, kscr := old.kscr }) ∧
      (∀ j, j < 56 → mapGet 0 ((t.region q).task slot).ring j = (l.drop 3).getD j 0) ∧
      (e = 0 → t.word count = s.word count + 1 ∧ sameBut s t count 8) ∧
      (e ≠ 0 → y ≠ none →
        sameMemory (mailboxMove (ctrAdd (w.setRegion q ((w.region q).setTask slot ((t.region q).task slot))) part c 1)
          q slot) t ∧
        ∀ p z, pieces v (coreKctx v v.cur) (endpointVa v (coreKctx v v.cur).part e) 8 .write true = (.ok [p], z) →
          plainAt z p.pa 8 → ∀ k, k < 8 → w.byte (p.pa + k) =
            (natToLe (2 ^ 62 + q * 2 ^ 52 + slot * 2 ^ 49 + (epGen (y.getD 0) + 1) % 2 ^ 32) 8).getD k 0)

/-- For every sequencer task, with s1 the state after its endpoint was marked exited: with nothing
outstanding, tail frees the slot (its K record is kept), discards its messages, and its counter counts
one child fewer; with commands or stores outstanding and a free tracker entry, the slot is freed, the
lowest entry keeps the counter, and the commands and stores belong to that entry; with none free the
task waits at tail, and TAIL_HOLD_END makes it ready once it can go. RETIREMENT_TRACKER_DRAIN frees an
entry whose last access has performed, and its counter counts one child fewer. On a steward core tail
takes the trap TAIL to K. -/
def Obligations.TailResult : Prop :=
  ∀ (s : State) (r k : Nat),
    let g := s.region r
    let m := g.task k
    let busy := (∃ c ∈ g.copyq ++ g.mergeq ++ g.pipeq, c.owner = .slot k) ∨
      ∃ p ∈ s.stores, p.issuer = .core (.seq r k)
    let s1 := endpointState s (regionKctx s r) m.endpoint 3
    let freed := { Task.zero with kcause := m.kcause, kpc := m.kpc, kval := m.kval, kscr := m.kscr }
    let word := ctrAddr s1 g.part m.counter
    let give := fun (o : Owner) (c : Command) => if c.owner = .slot k then { c with owner := o } else c
    (s.cur = .seq r k → ¬ busy → (s1.region r).part = g.part → (s1.region r).task k = m →
      ∃ t : State, exec .tail s = .next t ∧ (t.region r).task k = freed ∧ (∀ c, c ≠ .seq r k → t.task c = s1.task c) ∧
        (t.region r).queue = (s1.region r).queue.filter (fun x => decide (x.slot ≠ k)) ∧
        (∀ q, q ≠ r → t.region q = s1.region q) ∧
        (m.counter = 0 → sameMemory s1 t) ∧
        (m.counter ≠ 0 → s1.word word % 2 ^ 32 ≥ 2 → t.word word = s1.word word - 1 ∧ sameBut s1 t word 8)) ∧
    (∀ n, s.cur = .seq r k → busy → n < 16 → mapGet none g.trackers n = none →
      (∀ j, j < n → mapGet none g.trackers j ≠ none) → (s1.region r).task k = m →
      ∃ t : State, exec .tail s = .next t ∧ (t.region r).task k = freed ∧ (∀ c, c ≠ .seq r k → t.task c = s1.task c) ∧
        mapGet none (t.region r).trackers n = some { counter := m.counter, slot := k } ∧
        (t.region r).queue = (s1.region r).queue.filter (fun x => decide (x.slot ≠ k)) ∧
        (t.region r).copyq = (s1.region r).copyq.map (give (.tracker n)) ∧
        (t.region r).mergeq = (s1.region r).mergeq.map (give (.tracker n)) ∧
        (t.region r).pipeq = (s1.region r).pipeq.map (give (.tracker n)) ∧
        t.stores = s1.stores.map (fun p =>
          if p.issuer = .core (.seq r k) then { p with issuer := .tracker r n } else p) ∧
        (∀ q, q ≠ r → t.region q = s1.region q) ∧ sameMemory s1 t) ∧
    (s.cur = .seq r k → busy → (∀ j, j < 16 → mapGet none g.trackers j ≠ none) →
      ∃ t : State, exec .tail s = .next t ∧ ends s t { m with hold := .wait .tail }) ∧
    (m.hold = .wait .tail → (¬ busy ∨ ∃ j, j < 16 ∧ mapGet none g.trackers j = none) →
      ∃ t : State, exec (.tailHoldEnd (.seq r k)) s = .next t ∧
        ends { s with cur := .seq r k } { t with cur := .seq r k } { m with hold := .ready }) ∧
    (∀ n x, mapGet none g.trackers n = some x → (∀ c ∈ g.copyq ++ g.mergeq ++ g.pipeq, c.owner ≠ .tracker n) →
      (∀ p ∈ s.stores, p.issuer ≠ .tracker r n) →
      let word := ctrAddr s g.part x.counter
      ∃ t : State, exec (.retirementTrackerDrain r n) s = .next t ∧
        { t.region r with trackers := g.trackers } = g ∧ mapGet none (t.region r).trackers n = none ∧
        (∀ j, j ≠ n → mapGet none (t.region r).trackers j = mapGet none g.trackers j) ∧
        onlyRegion r { s with mem := t.mem, stores := t.stores, poison := t.poison } t ∧
        (x.counter = 0 → sameMemory s t) ∧
        (x.counter ≠ 0 → s.word word % 2 ^ 32 ≥ 2 → t.word word = s.word word - 1 ∧ sameBut s t word 8)) ∧
    ∀ c, s.cur = .stew c → s.me.level = .u ∨ (s.me.level = .k ∧ s.me.kcause.getLsbD 63 = false) →
      ∃ t : State, exec .tail s = .next t ∧ entersK s t 10 0 (s.me.pc + 4) 0

/-- For every state and operands, with the counter words of the task's partition: gopen of a free-
running handle under an open job makes it a graph, open, of count one, under that job, and the job's
count rises by one; jopen makes a handle that is not running an open job of count one; gclose of an open
graph or job clears OPEN and counts one child fewer, and when that was its last child its parent counts
one fewer too. Each returns OK in d. A handle that names no counter returns BADHANDLE; one that is
running, BUSY (gopen, jopen); one of another level, LEVEL; one already closed, ALREADY (gclose). Nothing
else changes. -/
def Obligations.CounterOpenResult : Prop :=
  ∀ (s : State) (d a : BitVec 5) (h : BitVec 12),
    let part := s.partOf s.cur
    let at_ := fun n => ctrAddr s part n
    let w := s.word (at_ h.toNat)
    let p := (s.reg a).toNat % 4096
    let v := s.word (at_ p)
    let bad := h = 0 ∨ w / 2 ^ 61 % 8 ≥ 5
    let badParent := p = 0 ∨ v / 2 ^ 61 % 8 ≠ 4 ∨ v / 2 ^ 59 % 2 = 0
    let stored := fun t : State => { s with mem := t.mem, stores := t.stores, poison := t.poison }
    (∃ (t : State) (code : Nat), exec (.gopen d a h) s = .next t ∧ retires (stored t) t 4 d (BitVec.ofNat 64 code) 0 ∧
      (bad ∨ badParent → code = 5 ∧ sameMemory s t) ∧
      (¬ bad → ¬ badParent → w % 2 ^ 32 ≠ 0 → code = 1 ∧ sameMemory s t) ∧
      (¬ bad → ¬ badParent → w % 2 ^ 32 = 0 → v % 2 ^ 32 = 0xFFFFFFFF → code = 2 ∧ sameMemory s t) ∧
      (¬ bad → ¬ badParent → w % 2 ^ 32 = 0 → v % 2 ^ 32 < 0xFFFFFFFF → p ≠ h.toNat → code = 0 ∧
        t.word (at_ h.toNat) = 2 * 2 ^ 61 + 2 ^ 59 + p * 2 ^ 44 + 1 ∧ t.word (at_ p) = v + 1 ∧
        ∀ x, (∀ j, j < 8 → canonPa s.pkg.toNat x ≠ canonPa s.pkg.toNat (at_ h.toNat + j) ∧
          canonPa s.pkg.toNat x ≠ canonPa s.pkg.toNat (at_ p + j)) → t.byte x = s.byte x)) ∧
    (∃ (t : State) (code : Nat), exec (.jopen d h) s = .next t ∧ retires (stored t) t 4 d (BitVec.ofNat 64 code) 0 ∧
      (bad → code = 5 ∧ sameMemory s t) ∧ (¬ bad → w % 2 ^ 32 ≠ 0 → code = 1 ∧ sameMemory s t) ∧
      (¬ bad → w % 2 ^ 32 = 0 → code = 0 ∧ t.word (at_ h.toNat) = 4 * 2 ^ 61 + 2 ^ 59 + 1 ∧
        sameBut s t (at_ h.toNat) 8)) ∧
    ∃ (t : State) (code : Nat), exec (.gclose d h) s = .next t ∧ retires (stored t) t 4 d (BitVec.ofNat 64 code) 0 ∧
      (bad → code = 5 ∧ sameMemory s t) ∧
      (¬ bad → w / 2 ^ 61 % 8 ≠ 2 → w / 2 ^ 61 % 8 ≠ 4 → code = 4 ∧ sameMemory s t) ∧
      (¬ bad → (w / 2 ^ 61 % 8 = 2 ∨ w / 2 ^ 61 % 8 = 4) → w / 2 ^ 59 % 2 = 0 → code = 3 ∧ sameMemory s t) ∧
      (¬ bad → (w / 2 ^ 61 % 8 = 2 ∨ w / 2 ^ 61 % 8 = 4) → w / 2 ^ 59 % 2 = 1 → code = 0 ∧
        (w % 2 ^ 32 ≥ 2 ∨ (w % 2 ^ 32 = 1 ∧ w / 2 ^ 44 % 2 ^ 12 = 0) →
          t.word (at_ h.toNat) = w - 2 ^ 59 - 1 ∧ sameBut s t (at_ h.toNat) 8) ∧
        let q := w / 2 ^ 44 % 2 ^ 12
        (w % 2 ^ 32 = 1 → q ≠ 0 → q ≠ h.toNat → s.word (at_ q) % 2 ^ 32 ≥ 2 →
          t.word (at_ h.toNat) = w - 2 ^ 59 - 1 ∧ t.word (at_ q) = s.word (at_ q) - 1))

/-- For every state: reconf to a handle that names an idle counter, with no token under way and no full
job, returns OK, the token of its region is under way toward that phase, and the current phase counter's
OPEN bit clears; of a handle that names no counter it returns BADHANDLE, of one that is running BUSY,
and with the job at its limit OVF, changing nothing else; with a token under way it waits.
RECONF_HOLD_END makes a held one ready when the token has passed. RECONF_TOKEN_PASS, with the ending
phase drained: the phase handle is the next one, its counter an open phase of count one under the job
(when no other counter shares its word), the pending image (or the empty one) is resident, the pending
context is in force, the islands wholly on enabled elements are installed without a unit, and every
element keeps its registers, slices, memory and tags and nothing else (the model's choice, log 51: the
spec does not say what becomes of its generators, grant and latches). No other region changes. -/
def Obligations.ReconfigurationResult : Prop :=
  ∀ (s : State) (r k : Nat) (d : BitVec 5) (h : BitVec 12),
    let g := s.region r
    let at_ := fun n => ctrAddr s g.part n
    (s.cur = .seq r k → h ≠ 0 → s.word (at_ h.toNat) / 2 ^ 61 % 8 < 5 → s.word (at_ h.toNat) % 2 ^ 32 = 0 →
      (s.me.counter = 0 ∨ s.word (at_ (ctrRoot s g.part 5 s.me.counter)) % 2 ^ 32 < 0xFFFFFFFF) → g.token = none →
      ∃ t : State, exec (.reconf d h) s = .next t ∧
        t.me = { s.me.set d 0 with pc := s.me.pc + 4, hold := .ready } ∧
        { t.region r with tasks := [] } = { g with tasks := [], token := (t.region r).token } ∧
        (t.region r).token.map (·.1) = some h.toNat ∧
        (∀ c, c ≠ s.cur → t.task c = s.task c) ∧
        onlyRegion r { s with mem := t.mem, stores := t.stores, poison := t.poison } t ∧
        (g.phase = 0 → sameMemory s t) ∧
        (g.phase ≠ 0 → t.word (at_ g.phase) = s.word (at_ g.phase) - s.word (at_ g.phase) / 2 ^ 59 % 2 * 2 ^ 59 ∧
          sameBut s t (at_ g.phase) 8)) ∧
    (s.cur = .seq r k →
      let bad := h = 0 ∨ s.word (at_ h.toNat) / 2 ^ 61 % 8 ≥ 5
      let busy := s.word (at_ h.toNat) % 2 ^ 32 ≠ 0
      let full := s.me.counter ≠ 0 ∧ s.word (at_ (ctrRoot s g.part 5 s.me.counter)) % 2 ^ 32 = 0xFFFFFFFF
      ∃ t : State, exec (.reconf d h) s = .next t ∧
        (∀ code : Word, (bad ∧ code = 5) ∨ (¬ bad ∧ busy ∧ code = 1) ∨ (¬ bad ∧ ¬ busy ∧ full ∧ code = 2) →
          ends s t { s.me.set d code with pc := s.me.pc + 4, hold := .ready }) ∧
        (¬ bad → ¬ busy → ¬ full → g.token ≠ none → ends s t { s.me with hold := .wait (.reconf d h) })) ∧
    (g.token = none → (g.task k).hold = .wait (.reconf d h) →
      ∃ t : State, exec (.reconfHoldEnd (.seq r k)) s = .next t ∧
        ends { s with cur := .seq r k } { t with cur := .seq r k } { g.task k with hold := .ready }) ∧
    ∀ next job, g.token = some (next, job) → g.saved = none → g.frozen = false → phaseDrained s g = true →
      ∃ t : State, exec (.reconfTokenPass r) s = .next t ∧
        (∀ q, q ≠ r → t.region q = s.region q) ∧ t.stews = s.stews ∧
        (let u := t.region r;
          u.phase = next ∧ u.token = none ∧ u.ctx = g.ctxNext.getD g.ctx ∧ u.ctxNext = none ∧ u.oor = 0 ∧
          u.resident = { g.pending.getD Image.empty with elements := [] } ∧ u.tasks = g.tasks ∧ u.queue = g.queue ∧
          (g.retiring = [] → u.enabled = g.enabled ∧ u.spares = g.spares ∧
            (∀ j x, u.resident.islands[j]? = some x → u.island j = if x.wholly g.enabled then some x.install else none) ∧
            ∀ e, { u.element e with ops := [], routes := [], regs := [] } = { Element.zero with
              v := (g.element e).v, q := (g.element e).q, lps := (g.element e).lps, elm := (g.element e).elm
              tags := (g.element e).tags }) ∧
          (∀ e x, g.retiring = [e] → e ∈ g.enabled → g.enabled.Nodup → x ∈ g.spares → (∀ y ∈ g.spares, x ≤ y) →
            u.enabled = g.enabled.erase e ++ [x] ∧ u.spares = g.spares.erase x ∧ u.retiring = [])) ∧
        (next ≠ 0 → job ≠ next → job < 4096 → next < 4096 →
          t.word (at_ next) = 3 * 2 ^ 61 + 2 ^ 59 + job * 2 ^ 44 + 1)

/-- For every state: waitc of a counter at zero returns OK, or CANCELLED when it was cancelled,
otherwise the task waits; WAITC_RELEASE does the same for a waiting task, and of one whose counter has
been seen at zero it completes with what was seen, whatever the counter holds by then; a handle that
names no counter returns BADHANDLE. cancel refuses a handle that names no counter with BADHANDLE, a
counter at zero with ALREADY and a counter of another level with LEVEL, and changes nothing else. cancel
of a running counter of the level named returns OK; every task whose counter stands at or under the
handle ends, every island of the partition that runs a unit at or under it is left without a unit, the
commands issued under such counters leave the three queues, while the others keep their order, and, in a
partition whose regions hold no commands, islands or tasks of those counters, and when no counter
outside is a parent, the words of those counters show count zero, CANC and not OPEN and no other counter
of the partition changes (that OPEN clears, and each parent counts one down once, is the model's
reading, log 52). UNIT_COMPLETE of an island whose last trip and results are over leaves it without a
unit, its counter in place (the model's choice, log 23). -/
def Obligations.WaitAndCancelResult : Prop :=
  ∀ (s : State) (d : BitVec 5) (h : BitVec 12),
    let part := s.partOf s.cur
    let at_ := fun n => ctrAddr s part n
    (∀ (c : CoreId) (i : Instr) (u : State), (i = .waitc d h ∧ c = s.cur ∧ u = s) ∨
        ((s.task c).hold = .wait (.waitc d h) ∧ i = .waitcRelease c ∧ u = { s with cur := c }) →
      let m := s.task c
      let w := s.word (ctrAddr s (s.partOf c) h.toNat)
      h ≠ 0 → w / 2 ^ 61 % 8 < 5 →
      ∃ t : State, exec i s = .next t ∧
        (w % 2 ^ 32 = 0 → ends u t { m.set d (if w / 2 ^ 60 % 2 = 1 then 7 else 0) with
          pc := m.pc + 4, hold := .ready }) ∧
        (w % 2 ^ 32 ≠ 0 → ends u t { m with hold := .wait (.waitc d h) })) ∧
    (∀ (c : CoreId) (seen : Bool), (s.task c).hold = .counted (.waitc d h) seen →
      ∃ t : State, exec (.waitcRelease c) s = .next t ∧
        ends { s with cur := c } t { (s.task c).set d (if seen then 7 else 0) with
          pc := (s.task c).pc + 4, hold := .ready }) ∧
    (h = 0 ∨ s.word (at_ h.toNat) / 2 ^ 61 % 8 ≥ 5 →
      ∃ t : State, exec (.waitc d h) s = .next t ∧
        ends s t { s.me.set d 5 with pc := s.me.pc + 4, hold := .ready }) ∧
    (∀ level : BitVec 3, let w := s.word (at_ h.toNat)
      let refused := fun code : Word => ∃ t : State, exec (.cancel d level h) s = .next t ∧ retires s t 4 d code 0
      (h = 0 ∨ w / 2 ^ 61 % 8 ≥ 5 → refused 5) ∧
      (h ≠ 0 → w / 2 ^ 61 % 8 < 5 → w % 2 ^ 32 = 0 → refused 3) ∧
      (h ≠ 0 → w / 2 ^ 61 % 8 < 5 → w % 2 ^ 32 ≠ 0 → w / 2 ^ 61 % 8 ≠ level.toNat → refused 4)) ∧
    (∀ level : BitVec 3, h ≠ 0 → s.word (at_ h.toNat) % 2 ^ 32 ≠ 0 →
      s.word (at_ h.toNat) / 2 ^ 61 % 8 = level.toNat → level.toNat < 5 →
      let set := cancelSet s part h.toNat
      ∃ t : State, exec (.cancel d level h) s = .next t ∧
        (∀ r n, n < 8 → (s.region r).part = part → ((s.region r).task n).hold ≠ .free →
          ((s.region r).task n).counter ∈ set → ((t.region r).task n).hold = .free) ∧
        (∀ r k x u, (s.region r).part = part → (s.region r).island k = some x → x.unit = some u → u ∈ set →
          ∃ y, (t.region r).island k = some y ∧ y.unit = none) ∧
        (∀ r, (s.region r).part = part →
          let left := fun (q : List Command) => (q.map fun x => x.counter).filter fun x => !set.contains x
          let g := s.region r
          let h := t.region r
          g.copyq.length ≤ 16 → g.mergeq.length ≤ 16 → g.pipeq.length ≤ 16 →
            h.copyq.map (fun x => x.counter) = left g.copyq ∧ h.mergeq.map (fun x => x.counter) = left g.mergeq ∧
            h.pipeq.map (fun x => x.counter) = left g.pipeq) ∧
        (∀ r, (s.region r).part ≠ part → t.region r = s.region r) ∧
        (∀ c, s.cur = .stew c → t.me = { s.me.set d 0 with pc := s.me.pc + 4 }) ∧
        (s.me.counter ∉ set → t.me.pc = s.me.pc + 4 ∧ ∀ q, t.reg q = (s.me.set d 0).get q) ∧
        ((∀ r, (s.region r).part = part → (s.region r).copyq = [] ∧ (s.region r).mergeq = [] ∧
            (s.region r).pipeq = [] ∧ (s.region r).islands = [] ∧
            ∀ n, n < 8 → ((s.region r).task n).hold ≠ .free → ((s.region r).task n).counter ∉ set) →
          (∀ y ∈ set, (ctrParent (s.word (at_ y)) = 0 ∨ ctrParent (s.word (at_ y)) ∈ set) ∧
            (ctrLevel (s.word (at_ y)) = 1 → ctrPhase (s.word (at_ y)) = 0 ∨ ctrPhase (s.word (at_ y)) ∈ set)) →
          (∀ y ∈ set, t.word (at_ y) % 2 ^ 32 = 0 ∧ t.word (at_ y) / 2 ^ 60 % 2 = 1 ∧
            t.word (at_ y) / 2 ^ 59 % 2 = 0 ∧ t.word (at_ y) / 2 ^ 61 = s.word (at_ y) / 2 ^ 61) ∧
          ∀ y, y < 4096 → y ∉ set → t.word (at_ y) = s.word (at_ y))) ∧
    ∀ r k x u, (s.region r).island k = some x → x.unit = some u → unitOver (s.region r) x = true →
      ∃ t : State, exec (.unitComplete r k) s = .next t ∧
        (t.region r).island k = some { x with
          unit := none, trips := 0, held := none, watch := 0, stalled := false, charges := Charges.zero } ∧
        (∀ j, j ≠ k → (t.region r).island j = (s.region r).island j) ∧
        (∀ q, q ≠ r → t.region q = s.region q) ∧ (t.region r).tasks = (s.region r).tasks

/-- For every state: a sendm that has no store to wait for returns the status of placing the message in
d and records its outcome in SENDST, and CAPPED when the scope was capped; otherwise it waits as a
release. Placing a message for handle 0 gives BADHANDLE; for an endpoint that exited, DEADDEST; for a
placed task with an empty mailbox page and room in its receive queue, OK, and the message stands at the
end of that queue; for a saved task with room in its mailbox page, SPILL, and the message and then the
write index stand in the page, under the context that was saved. recvm on a sequencer, and RECVM_RELEASE
of a waiting one, moves the oldest message of its slot to d to d + 3 (bit 63 of the sender word 0), or
waits without one; on a steward core it completes with 0, 0, 0 and bit 63 alone. The one queue of 16
that the slots share, the slot's oldest message, a page that cannot be read and the saved context are
the model's reading (DEDUCED, log 38). -/
def Obligations.MessageResult : Prop :=
  ∀ (s : State) (d a : BitVec 5),
    (∀ (u : State) (code st scope : Nat),
      let l := s.me.listFrom a 3
      let h := (s.reg a).toNat % 4096
      let cap := (s.part (s.partOf s.cur)).cap.toNat
      (sendScope s h = none ∧ scope = 0) ∨ (sendScope s h = some scope ∧ fenceOver s s.cur (min scope cap) = true) →
      sendMessage s (coreKctx s s.cur) h (l.drop 1) (senderWord s) = (code, st, u) → code < 256 → u.cur = s.cur →
      ∃ t : State, exec (.sendm d a) s = .next t ∧
        ends u t { u.me.set d (BitVec.ofNat 64 code) with
          pc := u.me.pc + 4, hold := .ready, sendst := BitVec.ofNat 3 st
          capped := u.me.capped || decide (cap < scope) }) ∧
    (∀ scope, sendScope s ((s.reg a).toNat % 4096) = some scope →
      let cap := (s.part (s.partOf s.cur)).cap.toNat
      fenceOver s s.cur (min scope cap) = false →
      ∃ t : State, exec (.sendm d a) s = .next t ∧ ends s t { s.me with
        hold := .fence (.sendm d a) (min scope cap) (decide (cap < scope))
          (s.part (s.partOf s.cur)).fenceto.toNat s.tick }) ∧
    (∀ (x : XCtx) (p : List Word) (w : Word),
      sendMessage s x 0 p w = (5, 4, s) ∧
      ∀ h e u, h ≠ 0 → endpointGet s x h = (some e, u) → epRegion e ≤ 639 →
        (epState e = 0 → sendMessage s x h p w = (5, 4, u)) ∧
        (epState e = 3 → sendMessage s x h p w = (23, 3, u)) ∧
        (∀ v0 v1 v2 i j o1 o2, epState e = 2 →
          let y := mailCtx u (epRegion e) x.part 2
          mboxIndices u y (epMbox e) = (some (i, j), v0) → (i + 2 ^ 64 - j) % 2 ^ 64 < 126 →
          writeVirt (noteBox v0 x.part h (some (i, j))) y (epMbox e + 0x40 + 32 * (i % 126))
            ((p ++ [w]).flatMap fun z => natToLe z.toNat 8) true = (.ok o1, v1) →
          writeVirt v1 y (epMbox e) (natToLe ((i + 1) % 2 ^ 64) 8) true = (.ok o2, v2) →
          sendMessage s x h p w = (22, 1, noteBox v2 x.part h (some (1, 0)))) ∧
        ∀ v0 v ix, epState e = 1 →
          let r := epRegion e
          let y := mailCtx u r x.part 1
          mboxIndices (mboxMove y r (epSlot e) (epMbox e) 17 u) y (epMbox e) = (ix, v0) → v = noteBox v0 x.part h ix →
          (ix = none → boxHolds v x.part h = false) → (∀ i j, ix = some (i, j) → i = j) →
          (v.region r).queue.length < 16 →
          ∃ t : State, sendMessage s x h p w = (0, 0, t) ∧
            t.region r = { v.region r with
              queue := (v.region r).queue ++ [{ slot := epSlot e, payload := p, sender := w }] } ∧
            onlyRegion r v t) ∧
    (∀ (r n : Nat) (i : Instr) (u : State), (i = .recvm d ∧ s.cur = .seq r n ∧ u = mailboxMove s r n) ∨
        (i = .recvmRelease (.seq r n) ∧ ((s.region r).task n).hold = .wait (.recvm d) ∧
          u = { s with cur := .seq r n }) →
      u.cur = .seq r n →
      ((∀ x ∈ (u.region r).queue, x.slot ≠ n) →
        ∃ t : State, exec i s = .next t ∧ ends u t { u.me with hold := .wait (.recvm d) }) ∧
      ∀ before x after, (u.region r).queue = before ++ x :: after → x.slot = n → (∀ y ∈ before, y.slot ≠ n) →
        ∃ t : State, exec i s = .next t ∧
          t.me = { (((u.me.set d (x.payload.getD 0 0)).set (d + 1) (x.payload.getD 1 0)).set (d + 2)
              (x.payload.getD 2 0)).set (d + 3) (x.sender &&& 0x7FFFFFFFFFFFFFFF#64) with
            pc := u.me.pc + 4, hold := .ready } ∧
          { t.region r with tasks := [] } = { u.region r with tasks := [], queue := before ++ after } ∧
          (∀ j, j ≠ n → (t.region r).task j = (u.region r).task j) ∧ onlyRegion r u t ∧ sameMemory u t) ∧
    ∀ c, s.cur = .stew c → ∃ t : State, exec (.recvm d) s = .next t ∧
      ends s t { (((s.me.set d 0).set (d + 1) 0).set (d + 2) 0).set (d + 3) 0x8000000000000000#64 with
        pc := s.me.pc + 4 }

/-- For every state: barinit of an unbound handle with N from 1 to 65535 binds the lowest free entry of
the core's chiplet with count N, no arrivals, generation 0, and returns OK; with N 0 it releases a bound
one, whose waiting tasks return BADHANDLE; N above 65535 gives BADDESC, a bound handle with N not 0
BUSY, an unbound one with N 0 ALREADY. bararr that has no store to wait for adds one arrival, the last
one of N clearing them and stepping the generation modulo 2^32; d receives the generation it belongs to
and the task records handle, generation and scope. barwait (and its release) answers OK when the
generation has moved on, NOARRIVE when the pair recorded is of another handle, and else waits. -/
def Obligations.BarrierResult : Prop :=
  ∀ (s : State) (d a : BitVec 5) (h : BitVec 8),
    let p := s.partOf s.cur
    let n := (s.reg a).toNat
    let home := match s.cur with
      | .seq r _ => r / 16
      | .stew c => c
    let bound := fun t : State => mapGet none (t.part p).barriers h.toNat
    let entry := fun (t : State) (c e : Nat) => mapGet none t.barriers (c * 1024 + e)
    (n > 65535 → ∃ t : State, exec (.barinit d a h) s = .next t ∧ retires s t 4 d 9 0) ∧
    (bound s ≠ none → 0 < n → n ≤ 65535 → ∃ t : State, exec (.barinit d a h) s = .next t ∧ retires s t 4 d 1 0) ∧
    (bound s = none → n = 0 → ∃ t : State, exec (.barinit d a h) s = .next t ∧ retires s t 4 d 3 0) ∧
    (∀ e, bound s = none → 0 < n → n ≤ 65535 → e < 1024 → entry s home e = none →
      (∀ j, j < e → entry s home j ≠ none) →
      ∃ t : State, exec (.barinit d a h) s = .next t ∧ bound t = some (home, e) ∧
        entry t home e = some { count := n, arrivals := 0, gen := 0 } ∧
        (∀ k, k ≠ home * 1024 + e → mapGet none t.barriers k = mapGet none s.barriers k) ∧
        retires { s with barriers := t.barriers, parts := t.parts } t 4 d 0 0) ∧
    (∀ c e, bound s = some (c, e) → n = 0 →
      ∃ t : State, exec (.barinit d a h) s = .next t ∧ bound t = none ∧ entry t c e = none ∧
        (s.me.hold = .ready → t.me = { s.me.set d 0 with pc := s.me.pc + 4 }) ∧
        ∀ core x, core ≠ s.cur → s.partOf core = p → (s.task core).hold = .wait (.barwait x h) →
          (∀ r k, core = .seq r k → k < 8) →
          t.task core = { (s.task core).set x 5 with pc := (s.task core).pc + 4, hold := .ready }) ∧
    (∀ (sc : BitVec 3) (c e : Nat) (b : Barrier), bound s = some (c, e) → entry s c e = some b →
      let cap := (s.part p).cap.toNat
      let scope := min sc.toNat cap
      (fenceOver s s.cur scope = true → ∃ t : State, exec (.bararr d sc h) s = .next t ∧
        entry t c e = some (if b.arrivals + 1 ≥ b.count then { b with arrivals := 0, gen := (b.gen + 1) % 2 ^ 32 }
          else { b with arrivals := b.arrivals + 1 }) ∧
        (∀ k, k ≠ c * 1024 + e → mapGet none t.barriers k = mapGet none s.barriers k) ∧
        ends { s with barriers := t.barriers } t { s.me.set d (BitVec.ofNat 64 (b.gen % 2 ^ 32 * 2 ^ 32)) with
          pc := s.me.pc + 4, hold := .ready, pair := some (h.toNat, b.gen, scope)
          capped := s.me.capped || decide (cap < sc.toNat) }) ∧
      (fenceOver s s.cur scope = false → ∃ t : State, exec (.bararr d sc h) s = .next t ∧ ends s t { s.me with
        hold := .fence (.bararr d sc h) scope (decide (cap < sc.toNat)) (s.part p).fenceto.toNat s.tick })) ∧
    (∀ sc, bound s = none → ∃ t : State, exec (.bararr d sc h) s = .next t ∧ retires s t 4 d 5 0) ∧
    ∀ (c : CoreId) (i : Instr) (u : State), (i = .barwait d h ∧ c = s.cur ∧ u = s) ∨
        ((s.task c).hold = .wait (.barwait d h) ∧ i = .barwaitRelease c ∧ u = { s with cur := c }) →
      let m := s.task c
      let done := fun (t : State) (code : Word) =>
        ends u t { m.set d code with pc := m.pc + 4, hold := .ready }
      ∃ t : State, exec i s = .next t ∧
        ((∀ gen sc, m.pair ≠ some (h.toNat, gen, sc)) → done t 18) ∧
        ∀ gen sc, m.pair = some (h.toNat, gen, sc) →
          ∀ v e b, mapGet none (s.part (s.partOf c)).barriers h.toNat = some (v, e) → entry s v e = some b →
            (b.gen = gen → ends u t { m with hold := .wait (.barwait d h) }) ∧ (b.gen ≠ gen → done t 0)

/-- For every state and operands with the address a multiple of 8 and a read that succeeds, leaving
state u: waita, and WAITA_RELEASE of a waiting task, waits at the instruction while the 8 bytes equal b;
otherwise, and whatever they hold for a task whose word a store has changed while it waited, it returns
OK with bits 31:0 of the word in d. Each reading is an acquire at SYS, capped, and sets CAPPED when the
partition's cap lies below SYS. A misaligned address traps to K with ALIGN (for a task whose K record is
free). -/
def Obligations.WaitOnWordResult : Prop :=
  ∀ (s : State) (d a b : BitVec 5),
    (∀ (c : CoreId) (i : Instr) (s0 u : State) (bs : List Byte) (changed : Bool),
      (i = .waita d a b ∧ c = s.cur ∧ s0 = s ∧ changed = false ∧ (s.reg a).toNat % 8 = 0) ∨
        ((s.task c).hold = (if changed then .changed (.waita d a b) else .wait (.waita d a b)) ∧
          i = .waitaRelease c ∧ s0 = { s with cur := c }) →
      coreRead s0 (s0.reg a).toNat 8 .read (max 1 (min 7 (s0.part (s0.partOf s0.cur)).cap.toNat)) = (.ok bs, u) →
      bs.length = 8 → u.cur = c →
      let capped := u.me.capped || decide ((u.part (u.partOf u.cur)).cap.toNat < 7)
      ∃ t : State, exec i s = .next t ∧
        (changed = false → leToNat bs = (u.reg b).toNat →
          ends u t { u.me with hold := .wait (.waita d a b), capped := capped }) ∧
        (changed = true ∨ leToNat bs ≠ (u.reg b).toNat →
          ends u t { u.me.set d (BitVec.ofNat 64 (leToNat bs % 2 ^ 32 * 2 ^ 32)) with
            pc := u.me.pc + 4, hold := .ready, capped := capped })) ∧
    ((s.reg a).toNat % 8 ≠ 0 → s.me.level = .u ∨ (s.me.level = .k ∧ s.me.kcause.getLsbD 63 = false) →
      ∃ t : State, exec (.waita d a b) s = .next t ∧ entersK s t 3 0 s.me.pc (s.reg a))

/-- For every state of a steward core at level H: rsave and rrest refuse with the codes of R285 (a
region above 639 gives BADADDR or BUSY: the model's choice, log 54); an accepted rsave stops the
region's clock, or defers the stop to its declared pre-emption points, or leaves it running while a
faulted generator is not quiescent, and waits; an accepted rrest waits. PPWAIT_EXPIRY stops a deferred
region after its limit. RSAVE_COMPLETE of a stopped, drained region returns OK: the header of the area
names region, CID and partition, no byte outside the area and what the chain writes changes but for the
endpoints marked, the region is in its reset state but for what belongs to the physical region (elements
enabled, spare, suspect, their memory and tags), every bank without a tag has the outgoing context's,
while a bank with another context's tag keeps it (the model's choice, log 31, against the plain words of
R34 step 5), and the save is noted with its number and the bank save area that the header names. The
tables of tags are in canonical form there, which mapSet keeps. RREST_COMPLETE returns OK and the region
is the one that the area's bytes hold (how they are laid out within a record and found is the model's
choice, logs 9 and 31). Of two cores that wait for one region the second ends with ALREADY for a save,
BUSY for a restore. No unit that these read holds an error. -/
def Obligations.RegionSaveResult : Prop :=
  ∀ (s : State) (c : Nat) (d a b : BitVec 5),
    let good := fun u : State => (∀ x, mapGet false u.poison x = false) ∧ ∀ x, mapGet 0 u.bad x = 0
    (s.cur = .stew c → s.me.level = .h →
      let r := (s.reg a).toNat
      let g := s.region r
      let area := (s.reg b).toNat
      let answers := fun (i : Instr) (code : Word) => ∃ t : State, exec i s = .next t ∧ retires s t 4 d code 0
      (r > 639 → answers (.rsave d a b) 19 ∧ answers (.rrest d a b) 1) ∧
      (r ≤ 639 → g.saved ≠ none → answers (.rsave d a b) 3) ∧
      (r ≤ 639 → g.saved = none → good s → saveAreaOk s area = false → answers (.rsave d a b) 19) ∧
      (r ≤ 639 → g.saved = none → good s → saveAreaOk s area = true → g.frozen = false → g.deferred = none →
        ∃ t : State, exec (.rsave d a b) s = .next t ∧ t.me = { s.me with hold := .wait (.rsave d a b) } ∧
          t.region r = (if g.faulted = true ∧ quiescent s r = false then g
            else if g.resident.points ≠ [] ∧ (s.part g.part).ppwait ≠ 0 then { g with deferred := some s.tick }
            else { g with frozen := true }) ∧
          (∀ q, q ≠ r → t.region q = s.region q) ∧ (∀ q, q ≠ c → t.stew q = s.stew q) ∧
          { t with regions := s.regions, stews := s.stews } = s) ∧
      (r ≤ 639 → g.saved = none → answers (.rrest d a b) 1) ∧
      (r ≤ 639 → g.saved ≠ none → good s → s.word (area + 0x100000) % 2 ^ 10 ≠ r → answers (.rrest d a b) 20) ∧
      (r ≤ 639 → g.saved ≠ none → good s → s.word (area + 0x100000) % 2 ^ 10 = r →
        ∃ t : State, exec (.rrest d a b) s = .next t ∧ ends s t { s.me with hold := .wait (.rrest d a b) })) ∧
    (∀ r t0, (s.region r).deferred = some t0 → s.tick - t0 ≥ (s.part (s.region r).part).ppwait.toNat →
      ∃ t : State, exec (.ppwaitExpiry r) s = .next t ∧ onlyRegion r s t ∧
        t.region r = { s.region r with frozen := true }) ∧
    (∀ (m : Map (Option (Nat × Nat))) k x, mapWf none 0 m = true → mapWf none 0 (mapSet none m k x) = true) ∧
    (let m := s.task (.stew c)
      let r := (m.get a).toNat
      let area := (m.get b).toNat
      let g := s.region r
      let serial := BitVec.ofNat 64 s.free
      let chain := partCells (g.parts serial s.tick) ++ turnCells g ++ sliceCells g
      let done := fun (i : Instr) (code : Word) => ∃ t : State, exec i s = .next t ∧
        ends { s with cur := .stew c } { t with cur := .stew c } { m.set d code with pc := m.pc + 4, hold := .ready }
      (m.hold = .wait (.rsave d a b) → g.saved ≠ none → done (.rsaveComplete (.stew c)) 3) ∧
      (m.hold = .wait (.rrest d a b) → g.saved = none → done (.rrestComplete (.stew c)) 1) ∧
      (r ≤ 639 → m.hold = .wait (.rsave d a b) → g.saved = none → g.frozen = true → g.deferred = none →
        saveDrained s r = true → good s → area + 2 ^ 22 ≤ 2 ^ 48 → (∀ e ∈ g.enabled, e < 256) →
        (∀ e, mapWf none 0 (g.element e).tags = true) →
        ∃ t : State, exec (.rsaveComplete (.stew c)) s = .next t ∧
          t.task (.stew c) = { m.set d 0 with pc := m.pc + 4, hold := .ready } ∧
          { t.region r with elements := [] } = { Region.zero with
            part := g.part, enabled := g.enabled, spares := g.spares, suspect := g.suspect, retiring := g.retiring
            lasting := g.lasting, tagBase := g.tagBase.or (some (g.part, g.ctx.toNat / 2 ^ 52)), saved := some area } ∧
          (∀ e, { (t.region r).element e with tags := [] } = { Element.zero with elm := (g.element e).elm } ∧
            ∀ k, (t.region r).bankTag e k = (g.bankTag e k).or (some (g.part, g.ctx.toNat / 2 ^ 52))) ∧
          t.saves.head? = some { area := area, region := r, part := g.part, ctx := g.ctx, live := true, cancelled := []
                                 beyond := partsBeyond (g.parts serial s.tick), serial := serial
                                 bank := if t.word (area + 0x100008) = 0 then none
                                   else some (t.word (area + 0x100008)) } ∧
          t.word (area + 0x100000) = r + g.ctx.toNat / 2 ^ 52 * 2 ^ 12 + g.part % 64 * 2 ^ 24 ∧
          (∀ x, (canonPa s.pkg.toNat x < area ∨ area + 2 ^ 22 ≤ canonPa s.pkg.toNat x) →
            (∀ p ∈ chain, canonPa s.pkg.toNat x ≠ area + p.1) → t.byte x = (markTasks { s with free := s.free + 1 } r 2).byte x) ∧
          (∀ q, q ≠ r → t.region q = s.region q) ∧ ∀ q, q ≠ c → t.stew q = s.stew q) ∧
      (m.hold = .wait (.rrest d a b) → g.saved ≠ none → good s → (cancelledWhile s r area).1 = [] →
        let x := resumedRegion (cancelledWhile s r area).2 r area
        ∃ t : State, exec (.rrestComplete (.stew c)) s = .next t ∧
          t.task (.stew c) = { m.set d 0 with pc := m.pc + 4, hold := .ready } ∧
          { t.region r with elements := [], queue := [] } = { x with
            enabled := g.enabled, spares := g.spares, suspect := g.suspect, retiring := g.retiring
            lasting := g.lasting, tagBase := g.tagBase, saved := none, frozen := false, deferred := none
            elements := [], queue := [] } ∧
          (∀ e, (t.region r).element e = { x.element e with
            elm := (g.element e).elm, tags := (g.element e).tags }) ∧
          (∀ q, q ≠ r → t.region q = s.region q) ∧ ∀ q, q ≠ c → t.stew q = s.stew q))

/-- For every region and bank (element below 256, bank below 128, element enabled) that is not its own,
with no poisoned or failing unit: BANK_ACCESS_RELEASE tags the bank with the region's context, zeroed
when no save area or kept copy is that context's. What it held goes first, for a context whose bank save
area (below 2^48) is named, there byte by byte with its valid bit set, and else to the copies that the
hypervisor keeps (log 31). A bank that no context owned gets the valid copy of the region's bank save
area, whose bit clears. Every other byte of the element's memory, every other element and region is
unchanged, and the region's waiting tasks are ready to try again. -/
def Obligations.BankReleaseResult : Prop :=
  ∀ (s : State) (r e b : Nat) (old : Option (Nat × Nat)) (p : Nat),
    let g := s.region r
    let ctx := (g.part, g.ctx.toNat / 2 ^ 52)
    let image := fun q k : Nat => q + e * 0x60000 + b * 0xC00 + k
    let mark := fun q : Nat => q + 0x6000000 + (128 * e + b) / 8
    let passes := fun t : State =>
      (t.region r).bankTag e b = some ctx ∧ (∀ k, k ≠ b → (t.region r).bankTag e k = g.bankTag e k) ∧
      (∀ k, k / 0xC00 ≠ b → t.elmByte r e k = s.elmByte r e k) ∧
      (∀ q, q ≠ e → (t.region r).element q = g.element q) ∧ (∀ q, q ≠ r → t.region q = s.region q) ∧
      t.stews = s.stews ∧ (r, e, b) ∉ t.spills ∧
      (∀ n i, (g.task n).hold = .wait i → (t.region r).task n = { g.task n with hold := .ready }) ∧
      ∀ n, (∀ i, (g.task n).hold ≠ .wait i) → (t.region r).task n = g.task n
    g.bankTag e b = old → old ≠ some ctx → e < 256 → b < 128 → e ∈ g.enabled →
    (∀ u, mapGet false s.poison u = false) → (∀ u, mapGet 0 s.bad u = 0) →
    (∀ x ∈ s.kept, x.isFor r e b ctx = false) →
    ((∀ x ∈ s.saves, x.region ≠ r ∨ (x.part, x.ctx.toNat / 2 ^ 52) ≠ ctx) →
      ∃ t : State, exec (.bankAccessRelease r e b) s = .next t ∧ passes t ∧
        (∀ k, k / 0xC00 = b → t.elmByte r e k = 0) ∧
        (old = none → sameMemory s t ∧ t.kept = s.kept) ∧
        (∀ x, old = some x → bankArea s r x = none → sameMemory s t ∧
          t.kept = { region := r, part := x.1, cid := x.2, elem := e, bank := b, bad := []
                     bytes := (upTo 0xC00).map fun k => s.elmByte r e (b * 0xC00 + k) } :: s.kept) ∧
        ∀ x, old = some x → bankArea s r x = some p → p + 0x7000000 ≤ 2 ^ 48 → t.kept = s.kept ∧
          (∀ k, k < 0xC00 → t.byte (image p k) = s.elmByte r e (b * 0xC00 + k)) ∧
          (t.byte (mark p)).getLsbD (b % 8) = true ∧
          ∀ y, (∀ k, k < 0xC00 → canonPa s.pkg.toNat y ≠ image p k) → canonPa s.pkg.toNat y ≠ mark p →
            t.byte y = s.byte y) ∧
    (old = none → bankArea s r ctx = some p → p + 0x7000000 ≤ 2 ^ 48 → (s.byte (mark p)).getLsbD (b % 8) = true →
      ∃ t : State, exec (.bankAccessRelease r e b) s = .next t ∧ passes t ∧
        (∀ k, k < 0xC00 → t.elmByte r e (b * 0xC00 + k) = s.byte (image p k)) ∧
        (t.byte (mark p)).getLsbD (b % 8) = false ∧ sameBut s t (mark p) 1)

/-- For every installed island: with no unit, the tick counts as idle in the phase; while the clock is
stopped (pre-emption, the critical level) the tick is charged STOPPED, after a parity hit QUIET, and
else to the first cause of R33 that holds (one other than a bank of another context; a declared point of
a deferred save is a cause), for the unit and the phase, and nothing else of the machine changes but the
watchdog, whose event is sent once, when its count reaches the limit; with no cause, the counter
advances by one modulo the period, the last slot of the period ends a trip, and one tick is charged as
busy; once no trip is left the tick waits for results and stores and is charged LATE, or QUIET for a
faulted one (the model's reading, log 53; so is the tick held after a parity hit, log 24). The unit
stays, every other island and region is unchanged, and no byte of memory changes unless a trip but the
last ends or a unit's error is met; in an element whose words are nops, each result in flight comes one
tick nearer, and those due write their registers, the last one prevailing. The array of such an element,
while its run goes on and no unit holds an error: an interval that starts, unless it is a bubble, takes
the block at the head of the run's port and puts on its way the row's products with every column of the
grant, each the exact sum of 32 products scaled by both exponents and rounded to binary32 (NaN without a
flag for a NaN block or entry, NaN with NV for a block wider than the run; that NaN comes first is the
model's choice, log 68), due two ticks after the interval ends; the run's clock advances and ends with
its finish token; and an update that is due takes effect as ElementMatrixResult says. -/
def Obligations.IslandTickResult : Prop :=
  ∀ (s : State) (r k : Nat) (i : Island), (s.region r).island k = some i →
    let g := s.region r
    let charge := fun (c : Charges) (x : Stall) => match x with
      | .late => { c with late := c.late + 1 }
      | .tsfull => { c with tsfull := c.tsfull + 1 }
      | .tsempty => { c with tsempty := c.tsempty + 1 }
      | .token => { c with token := c.token + 1 }
      | .stopped => { c with stopped := c.stopped + 1 }
      | .spill => { c with spill := c.spill + 1 }
      | .quiet => { c with quiet := c.quiet + 1 }
    let becomes := fun (t : State) (x : Island) => onlyRegion r s t ∧
      { t.region r with islands := g.islands } = g ∧ (t.region r).island k = some x ∧
      ∀ j, j ≠ k → (t.region r).island j = g.island j
    let event := fun (u : State) (c : Stall) => if g.evep = 0 then u else
      (sendMessage u (regionKctx u r) g.evep.toNat
        [BitVec.ofNat 64 (2 + r * 2 ^ 8 + i.row0 * 2 ^ 18 + i.col0 * 2 ^ 22),
          BitVec.ofNat 64 (i.counter % 2 ^ 15 + (match c with
            | .late => 0
            | .tsfull => 1
            | .tsempty => 2
            | .token => 3
            | _ => 4) * 2 ^ 16),
          BitVec.ofNat 64 g.stallwd.toNat]
        0x4000000000000000#64).2.2
    let alarm := fun (n : Nat) (c : Stall) =>
      g.stallwd ≠ 0 ∧ i.stalled = false ∧ n = g.stallwd.toNat ∧ c ≠ .stopped ∧ c ≠ .spill
    let holds := fun (t : State) (hit : Nat) (c : Stall) => ∃ u : State,
      let n := if c = .stopped ∨ c = .spill then i.watch else i.watch + 1
      let x := { i with hit := hit, charges := charge i.charges c, phase := charge i.phase c, held := some c, watch := n }
      (¬ alarm n c → t = u ∧ becomes u x) ∧ (alarm n c → t = event u c ∧ becomes u { x with stalled := true })
    let stop := g.frozen = true ∨ s.health.crit = true
    let causes := (i.cells.flatMap fun e => causesOf g i e (tickUses g i e) true) ++
      if g.deferred ≠ none ∧ atPoint g k i = true then [Stall.stopped] else []
    let drain := drainCause g i
    (∃ t : State, exec (.islandTick r k) s = .next t ∧
      (i.unit = none → becomes t { i with phase := { i.phase with idle := i.phase.idle + 1 } }) ∧
      (i.unit ≠ none → stop → holds t i.hit .stopped) ∧
      (i.unit ≠ none → ¬ stop → i.hit ≠ 0 → holds t 2 .quiet) ∧
      (∀ c, i.unit ≠ none → ¬ stop → i.hit = 0 → firstStall causes = some c → c ≠ .spill → holds t 0 c) ∧
      (i.unit ≠ none → ¬ stop → i.hit = 0 → firstStall causes = none →
        (rsmPorts s r i = [] ∨ ∀ e ∈ i.cells, sendsOut g i e (tickUses g i e) = false ∧
          touchesElm g e (tickUses g i e) = false) →
        (i.trips = 0 → ¬ alarm (i.watch + 1) drain) →
        let last := i.trips ≠ 0 ∧ i.counter + 1 = i.period
        let busy := fun c : Charges => if i.trips = 0 then charge c drain else { c with busy := c.busy + 1 }
        (t.region r).island k = some { i with
          flags := (((t.region r).island k).map (·.flags)).getD 0, charges := busy i.charges, phase := busy i.phase
          held := if i.trips = 0 then some drain else none, watch := if i.trips = 0 then i.watch + 1 else 0
          stalled := if i.trips = 0 then i.stalled else false
          counter := if i.trips = 0 then i.counter else if i.counter + 1 = i.period then 0 else i.counter + 1
          trips := if last then i.trips - 1 else i.trips } ∧
        (∀ j, j ≠ k → (t.region r).island j = g.island j) ∧ (∀ q, q ≠ r → t.region q = s.region q) ∧
        t.stews = s.stews ∧ (t.region r).tasks = g.tasks ∧
        (¬ last ∨ i.trips = 1 → (∀ u, mapGet 0 s.bad u = 0) → sameMemory s t) ∧
        (¬ last ∨ i.trips = 1 → i.cells.Nodup → ∀ e ∈ i.cells,
          tickUses g i e = usesOf g e .vnop 0 0 true → (g.element e).run = none →
          let x := g.element e
          let y := (t.region r).element e
          y.flight = (x.flight.filter fun p => decide (1 < p.1)).map (fun p => (p.1 - 1, p.2)) ∧
          (∀ q, (∀ p ∈ x.flight, p.1 ≤ 1 → ∀ v, p.2 ≠ .v q v) → mapGet 0 y.v q = mapGet 0 x.v q) ∧
          (∀ q v before after, x.flight = before ++ (1, .v q v) :: after →
            (∀ p ∈ after, p.1 ≤ 1 → ∀ v', p.2 ≠ .v q v') → mapGet 0 y.v q = v) ∧
          (∀ q, (∀ p ∈ x.flight, p.1 ≤ 1 → ∀ v, p.2 ≠ .q q v) → mapGet 0 y.q q = mapGet 0 x.q q) ∧
          ∀ q v before after, x.flight = before ++ (1, .q q v) :: after →
            (∀ p ∈ after, p.1 ≤ 1 → ∀ v', p.2 ≠ .q q v') → mapGet 0 y.q q = v) ∧
        (¬ last ∨ i.trips = 1 → i.cells.Nodup → (∀ u, mapGet 0 s.bad u = 0) → (∀ u, mapGet false s.poison u = false) →
          ∀ e ∈ i.cells, tickUses g i e = usesOf g e .vnop 0 0 true →
          let x := g.element e
          let y := (t.region r).element e
          let old := (x.flight.filter fun p => decide (1 < p.1)).map fun p => (p.1 - 1, p.2)
          (∀ row vs fresh before after, x.flight = before ++ (1, .acc row vs fresh) :: after →
            (∀ gr, x.grant = some gr → 0 < gr.width) → (∀ p ∈ before ++ after, 1 < p.1) → y.elm = (x.apply (.acc row vs fresh)).1.elm ∧
              y.absorbed = (x.apply (.acc row vs fresh)).1.absorbed) ∧
          ∀ (ru : Run) (gr : Grant), x.run = some ru → ru.running = true → x.grant = some gr →
            gr.width = 4 ∨ gr.width = 8 ∨ gr.width = 12 →
            let q := ru.clock / gr.width
            let total := (gr.h + 7) / 8 * ru.nk * 8
            let row := 8 * (q / (8 * ru.nk)) + q % 8
            let kb := ru.k0 + q / 8 % ru.nk
            let starts := ru.clock % gr.width = 0 ∧ q < total
            let bubble := ru.set = 3 ∨ (0 < ru.set ∧ gr.width ≠ 4) ∨ gr.h ≤ row ∨ ru.mask.testBit (q % 8) = false ∨
              gr.kb ≤ kb
            (¬ starts ∨ bubble → y.flight = old) ∧
            (∀ a, starts → ¬ bubble → (x.ag ru.port).head = some a →
              let blk := (matrixBlock g.books (some a)).1
              let two := fun n : Nat => (mapGet 0 x.elm n).toNat + 256 * (mapGet 0 x.elm (n + 1)).toNat
              let entry := fun j : Nat => two (gr.kb * gr.ne / 64 * 0xC00 + 2 * ((ru.set * gr.kb + kb) * gr.ne + j))
              let cell := fun j c : Nat =>
                let n := 8 * 0xC00 * (kb * (gr.ne / 64) + j / 64) + 12 * (c * 64 + j % 64)
                two (n / 8) / 2 ^ (n % 8) % 4096
              let weight := fun j c : Nat => if gr.width = 4 then Int.bmod (cell j c / 16 ^ ru.set % 16 : Nat) 16
                else Int.bmod (cell j c : Nat) 4096
              let sum := fun j : Nat => ((List.range 32).map fun c => blk.vals.getD c 0 * weight j c).sum
              let product := fun j : Nat => if blk.isNan = true ∨ entry j / 2 ^ 15 = 1 then (0x7FC00000, 0)
                else if gr.width < blk.width then (0x7FC00000, fNV)
                else roundTo fmtF32 .rne true (.fin (decide (sum j < 0)) (sum j).natAbs
                  (blk.exp + Int.bmod (entry j % 1024 : Nat) 1024))
              let fl := flagUnion gr.ne fun j => (product j).2
              y.flight = old ++ (gr.width, .acc row ((List.range gr.ne).map fun j => (product j).1)
                (!ru.acc && decide (q / 8 % ru.nk = 0))) :: if fl = 0 then [] else [(gr.width, .flags fl)]) ∧
            ((∀ p ∈ x.flight, 1 < p.1) →
              y.run = (if gr.width * total + 1 ≤ ru.clock then none else some { ru with clock := ru.clock + 1 }) ∧
              (gr.width * total + 1 ≤ ru.clock → y.tokens.getLsbD 8 = true))))) ∧
    ∀ c, i.held = some c → alarm i.watch c →
      ∃ u : State, becomes u { i with stalled := true } ∧ exec (.stallWatchdog r k) s = .next (event u c)

/-- For every element port: a load port whose request is due and whose word reads well, leaving state u,
appends the word unlanded and moves on by one (the word is read when it is requested and lands as it was
read: the model's choice, log 18, where R152 leaves the time open); a reply lands the oldest unlanded
word; a store port whose oldest entry is the one that drains next, and which waits for no earlier access
of the island (R112, R115), drops that entry once it is written, leaving state u; a word that faults
stops the port with KIND, CODE, word and address in its record (event 1 follows), and the dirty range of
a store port takes in what the word wrote before it failed; RESUME clears the record of a faulted port,
and DISCARD clears it and gives the word up: the entry of a store port goes, a load port lands 64 zero
bytes with every lane-valid bit clear, or the zero block on a page of blocks (where no walk reaches a
leaf, and in region-shared memory, the beat). A region-shared load word is the 64 bytes at its aligned
address. The element's other port, its registers and memory and every other region are unchanged. -/
def Obligations.GeneratorStep : Prop :=
  ∀ (s : State) (r e p : Nat), p < 2 →
    let a := s.agPort r e p
    let el := (s.region r).element e
    let onPort := fun (u t : State) (x : AgPort) =>
      (∀ q, q ≠ r → t.region q = u.region q) ∧ t.stews = u.stews ∧
        (t.region r).element e = ((u.region r).element e).setAg p x ∧
        (∀ f, f ≠ e → (t.region r).element f = (u.region r).element f) ∧
        { t.region r with elements := [], oor := 0, oorloc := 0 } =
          { u.region r with elements := [], oor := 0, oorloc := 0 }
    (∀ u q oor, portDue s r e p = true → agRead s r e a a.next = (.ok q oor, u) → queueUsed a.queue + q.size ≤ 8 →
      u.agPort r e p = a →
      ∃ t : State, exec (.loadRequestIssue r e p) s = .next t ∧ sameMemory u t ∧
        onPort u t { a with queue := a.queue ++ [q], next := a.next + 1, asked := a.asked.drop 1 }) ∧
    (a.kind = 1 → ∃ t : State, exec (.loadReplyLand r e p) s = .next t ∧ sameMemory s t ∧
      ∀ before x after, a.queue = before ++ x :: after → (∀ y ∈ before, y.landed = true) → x.landed = false →
        onPort s t { a with queue := before ++ { x with landed := true } :: after }) ∧
    (∀ u q rest runs oor, a.kind = 2 → a.fault = none → a.queue = q :: rest → q.addr ≠ none →
      drainPicks s r e a = [0] → drainWaits s r e p q = false →
      agWrite s r e a q = (.ok runs oor, u) → u.agPort r e p = a →
      ∃ (t : State) (x : AgPort), exec (.storeQueueDrain r e p) s = .next t ∧ sameMemory u t ∧
        onPort u t { a with queue := rest, dirty := x.dirty }) ∧
    (∀ u kind code, (a.kind = 1 → portDue s r e p = true ∧ agRead s r e a a.next = (.fault kind code, u)) →
      (a.kind ≠ 1 → ∃ q, drainHead a = some q ∧ drainWaits s r e p q = false ∧
        agWrite s r e a q = (.fault kind code, u)) →
      u.agPort r e p = a → ∃ t : State, exec (.agFault r e p) s = .next t ∧
        ∃ f, (t.agPort r e p).fault = some f ∧ f.kind = kind ∧ f.code = code ∧
          (a.kind = 1 → f.word = a.next ∧ f.addr = a.addrOf a.next) ∧
          let b := if a.kind = 1 then a else match drainHead a with
            | some q => { a with dirty := (a.dirtied q (landedRuns s r e a q)).dirty }
            | none => a
          t.agPort r e p = { b with fault := some f } ∧
          ((u.region r).evep = 0 → onPort u t { b with fault := some f })) ∧
    (faultedPort el = some p →
      (∃ t : State, exec (.agfaultResume r e) s = .next t ∧ sameMemory s t ∧ onPort s t { a with fault := none, act := 0 }) ∧
      ∃ t : State, exec (.agfaultDiscard r e) s = .next t ∧ sameMemory s t ∧
        (a.kind = 2 → onPort s t { a with fault := none, act := 0, queue := a.queue.drop 1 }) ∧
        (a.kind ≠ 2 → ∃ q, onPort s t { a with
            fault := none, act := 0, next := a.next + 1, queue := a.queue ++ [q], asked := a.asked.drop 1 } ∧
          q.token = 0 ∧ q.landed = true ∧ q.index = a.next ∧
          q.block = (if a.rsm = true then none
            else (leafAt s (regionCtx s r (elemCoord s r e 2)) (va64 (a.addrOf a.next))).bind leafBlock) ∧
          q.bytes = (match q.block with
            | some (w, n) => zeroBlock w n
            | none => List.replicate 64 0) ∧ q.size = if q.bytes.length > 64 then 2 else 1)) ∧
    ∀ j, a.rsm = true →
      let va := a.addrOf j / 64 * 64
      windowAt s r va 64 → ∃ q, agRead s r e a j = (.ok q [], s) ∧ q.index = j ∧ q.landed = false ∧
        q.bytes = (upTo 64).map fun n => s.elmByte r ((va + n) % 2 ^ 27 / 2 ^ 19) ((va + n) % 2 ^ 19)

/-- For every pending store with distinct addresses that no earlier strongly ordered store holds back,
nor one that clears the mark of its unit: performing at its home's scope or wider (and not refused) puts
its bytes in memory (in the snapshot control words what R393 lets it write), takes it from the stores on
their way, takes the same bytes from the older ones that have an order against it, and, outside those
words and with no older one without order, changes no byte as read by any agent (the model's choice, log
8: every agent reads the newest issued value); performing at a narrower scope only raises the scope it
has reached. A store to an unordered page takes its place, the newest, when it first performs outside
its core, and may change there what is read. A refused store is withdrawn and counted at its issuer. A
remote request to frames that are not all Mapped to its partition, or whose frame-table bytes cannot be
read, is answered with a refusal; a write to frames that are, with no poison to merge into, stores its
bytes; a read of good units answers them (both outside the snapshot control words). -/
def Obligations.StorePerformance : Prop :=
  ∀ (s : State),
    (∀ (n : Nat) (scope : BitVec 3) (p : PStore), s.stores[n]? = some p → (p.cells.map (·.1)).Nodup →
      strongBefore s n scope.toNat p = false →
      (sameScope (homeScope s p.addr) scope.toNat = 7 → storeRefusedAt s n p = false → storeWaits s n p = false →
        let rest := if p.floating = true then s.stores.eraseIdx n else s.stores.drop (n + 1)
        let before := rest.filter fun q => !noOrder p q
        ∃ t : State, exec (.storePerform n scope) s = .next t ∧
          (p.floating = false → (∀ x ∈ p.cells, controlOff s x.1 = none) →
            (∀ q ∈ s.stores.drop (n + 1), noOrder p q = false) → sameMemory s t) ∧
          (∀ x ∈ p.cells, memGet t.mem x.1 = storedByte s before x.1 x.2) ∧
          (∀ a, a ∉ p.cells.map (·.1) → memGet t.mem a = memGet s.mem a) ∧
          t.stores = (if p.floating = true then [] else s.stores.take n) ++ rest.map (fun q => if noOrder p q then q else
            { q with cells := q.cells.filter fun c => !(p.cells.any fun d => d.1 = c.1) }) ∧
          { t with mem := s.mem, stores := s.stores, poison := s.poison, parts := s.parts, sent := s.sent
                   epSent := s.epSent } = s) ∧
      (sameScope (homeScope s p.addr) scope.toNat ≠ 7 →
        let at_ := sameScope (homeScope s p.addr) scope.toNat
        let first := p.floating = true ∧ 3 ≤ at_
        ∃ t : State, exec (.storePerform n scope) s = .next t ∧ (¬ first → sameMemory s t) ∧
          t.stores = (if first then { p with reached := max p.reached at_ } :: s.stores.eraseIdx n
            else s.stores.set n { p with reached := max p.reached at_ }) ∧
          { t with stores := s.stores, parts := s.parts, sent := s.sent } = s)) ∧
    (∀ (n : Nat) (p : PStore), s.stores[n]? = some p → storeRefusedAt s n p = true →
      ∃ t : State, exec (.storeRefused n) s = .next t ∧ t.stores = s.stores.eraseIdx n ∧
        ∀ c, p.issuer = .core c → t.task c = { s.task c with
          nfail := if (s.task c).nfail ≥ 255 then (s.task c).nfail else (s.task c).nfail + 1, refused := true } ∧
          ∀ q, q ≠ c → t.task q = s.task q) ∧
    ∀ (pa part : Nat) (data : List Byte),
      let mine := ∀ k, k < data.length → ((∃ j, s.place (pa + k) = .dram j) ∨ ∃ j, s.place (pa + k) = .csp j) ∧
        ownerOk s part (pa + k) = true
      let known := readFrames s pa data.length = (false, s)
      (∀ wr, known → ¬ mine → exec (.remoteAccessRequest pa part wr data) s =
        .next { s with answers := s.answers ++ [(pa, none)] }) ∧
      (∀ wr u, readFrames s pa data.length = (true, u) → exec (.remoteAccessRequest pa part wr data) s =
        .next { u with answers := u.answers ++ [(pa, none)] }) ∧
      let plain := ∀ k, k < data.length → controlOff s (canonPa s.pkg.toNat (pa + k)) = none
      (known → mine → plain → pa + data.length ≤ 2 ^ 48 → mergesPoison s pa data.length = false →
        ∃ t : State, exec (.remoteAccessRequest pa part true data) s = .next t ∧
          (∀ k, k < data.length → t.byte (pa + k) = data.getD k 0) ∧ sameBut s t pa data.length ∧
          { t with mem := s.mem, stores := s.stores, poison := s.poison, answers := s.answers, parts := s.parts
                   sent := s.sent } = s ∧
          t.answers = s.answers ++ [(pa, some [])]) ∧
      (known → mine → plain → (∀ u, mapGet false s.poison u = false) → (∀ u, mapGet 0 s.bad u = 0) →
        exec (.remoteAccessRequest pa part false data) s =
          .next { s with answers := s.answers ++ [(pa, some (s.bytes pa data.length))] })

/-- For every state: a parity hit in an element that no running island holds sets its suspect bit, or,
where it was set, puts it among the elements awaiting retirement, and changes nothing else. In an island
with a unit, the same, and that island is marked, so that its next tick holds and its unit ends at the
boundary after it (the model's choice, log 24); with an event endpoint the event of the hit is sent; no
other island, task or steward core changes. At that boundary (parityEnd) the island has no unit any
more, with END 2, and its tasks and the other islands are unchanged. For every state: THERMAL_ALARM of a
level that is not raised sets its bit in HEALTH, sends vector 1, once boot is up, to every virtual
function whose vector is not pending, and makes the cause ALARM pending once for H on the steward core
of chiplet 0 (which core is the model's choice, log 26); ALARM_LEVEL_CLEAR clears the bit; CRITICAL_STOP
sets CRIT, under which every island holds. Nothing else changes. -/
def Obligations.ParityAndAlarmResult : Prop :=
  (∀ (s : State) (r e : Nat),
    let g := s.region r
    let marked := if e ∈ g.suspect then
        { g with retiring := e :: g.retiring.filter (fun x => decide (x ≠ e))
                 lasting := e :: g.lasting.filter (fun x => decide (x ≠ e)) }
      else { g with suspect := g.suspect ++ [e] }
    (∃ t : State, exec (.parityHit r e) s = .next t ∧
      ((∀ k i, g.islandOf e = some (k, i) → i.unit = none) → onlyRegion r s t ∧ t.region r = marked) ∧
      ∀ k i h, g.islandOf e = some (k, i) → i.unit = some h → g.island k = some i →
        ∃ u : State, onlyRegion r s u ∧ { u.region r with islands := g.islands } = marked ∧
          (u.region r).island k = some { i with hit := max 1 i.hit } ∧
          (∀ j, j ≠ k → (u.region r).island j = g.island j) ∧
          t = if g.evep = 0 then u else (sendMessage u (regionKctx u r) g.evep.toNat
            [BitVec.ofNat 64 (4 + r * 2 ^ 8 + e / 16 * 2 ^ 18 + e % 16 * 2 ^ 22), BitVec.ofNat 64 h, 0]
            0x4000000000000000#64).2.2) ∧
    ∀ k i h, g.island k = some i → i.unit = some h →
      let t := parityEnd s r k h
      (∃ x, (t.region r).island k = some x ∧ x.unit = none ∧ x.trips = 0 ∧ x.hit = 0) ∧
        (t.region r).tasks = g.tasks ∧ (∀ j, j ≠ k → (t.region r).island j = g.island j) ∧ t.stews = s.stews) ∧
  ∀ (s : State) (current : Bool),
    let shown := fun t : State => { s with health := t.health, parts := t.parts, sent := t.sent }
    let vector := fun t : State => (s.boot ≠ .up → t.parts = s.parts ∧ t.sent = s.sent) ∧
      (s.boot = .up → healthLow s.health ≠ healthLow t.health → ∀ p, p < 64 → (t.part p).vectors.getLsbD 1 = true ∧ { t.part p with vectors := (s.part p).vectors } = s.part p)
    ((if current then s.health.ialarm else s.health.talarm) = false →
      ∃ t : State, exec (.thermalAlarm current) s = .next t ∧
        t.health = (if current then { s.health with ialarm := true } else { s.health with talarm := true }) ∧
        vector t ∧ onlyStew 0 (shown t) t ∧
        t.stew 0 = { s.stew 0 with
          pending := if (18, 0) ∈ (s.stew 0).pending then (s.stew 0).pending else (s.stew 0).pending ++ [(18, 0)] }) ∧
    (∃ t : State, exec (.alarmLevelClear current) s = .next t ∧ t = shown t ∧ vector t ∧
      t.health = if current then { s.health with ialarm := false } else { s.health with talarm := false }) ∧
    ∃ t : State, exec .criticalStop s = .next t ∧ t = shown t ∧ vector t ∧ t.health = { s.health with crit := true }

/-- For every port and state: in an edge slot of the map in use the next unsent word of the edge's send
half goes on the wire with the next sequence number and the arrival tick that LK_HOP gives, a waiting
token with it; a good word that has arrived with the expected sequence number enters its receive half
once, one with another number does not; a bad one is marked for re-sending, its failure lasting at once
while a lane is being retired and on a retired lane; control flits drop the words that the receive half
has accepted and report the words waiting there; an invalid map entry sets BAD. Training sets LK_HOP
once, from 40 to 200. At a frame boundary a pending map of good units is read and taken as it stands
then when it serves general traffic, and refused with BAD otherwise. Acknowledgements and counts without
the delay of LK_HOP, and BAD set when the slot is reached, are the model's choice
(notes/assumptions/20.md). -/
def Obligations.LanikaTraffic : Prop :=
  ∀ (s : State) (p : Nat),
    let x := s.port p
    (∀ m slot r n t e, x.active = some m → x.dead = false → x.hop ≠ 0 → slot < 14 →
      slotEntry m (s.tick % 4096) slot = 4096 + e → e < 4096 → sendHalf s e = some (r, n, t) →
      t.sent < t.send.length →
      ∃ u : State, exec (.lanikaSlot p slot) s = .next u ∧
        (∃ w, (u.port p).wire = x.wire ++ [w] ∧ w.edge = e ∧ w.word = t.send[t.sent]? ∧
          w.seq = (t.sendSeq + t.sent) % 256 ∧ w.token = decide (0 < t.tokens) ∧ w.due = s.tick + x.hop.toNat ∧
          w.fails = none ∧
          w.resent = x.naks.any fun k => k.edge = e && k.seq = (t.sendSeq + t.sent) % 256 && k.told && !k.lasting) ∧
        { u.port p with wire := x.wire } = x ∧
        (u.region r).turn n = some { t with sent := t.sent + 1, tokens := t.tokens - 1 } ∧
        (∀ q, q ≠ r → u.region q = s.region q) ∧ sameMemory s u) ∧
    (∀ m slot, x.active = some m → x.dead = false → x.hop ≠ 0 → slot < 14 →
      slotEntry m (s.tick % 4096) slot / 4096 > 2 →
      ∃ u : State, exec (.lanikaSlot p slot) s = .next u ∧ u.port p = { x with bad := true } ∧
        { u with ports := s.ports } = s) ∧
    (∀ w rest d r n t, x.wire = w :: rest → x.dead = false → w.due ≤ s.tick → w.word = some d → w.token = false →
      receiveHalf s w.edge = some (r, n, t) →
      (∀ lane, ∃ u : State, exec (.lanikaWordArrive p true lane) s = .next u ∧ (u.port p).wire = rest ∧
        (w.seq = t.recvSeq → (u.region r).turn n = some { t with
          entries := t.entries ++ [d], recvSeq := (t.recvSeq + 1) % 256 }) ∧
        (w.seq ≠ t.recvSeq → ∀ q, u.region q = s.region q)) ∧
      ∀ lane, w.resent = false → duplicate s w = false → (∀ k ∈ x.naks, k.edge ≠ w.edge) →
        ∃ u : State, exec (.lanikaWordArrive p false lane) s = .next u ∧
          u.port p = { x with wire := rest, naks := x.naks ++ [{ edge := w.edge, seq := w.seq, told := false
                                                                 lasting := x.retires lane }] } ∧
          { u with ports := s.ports } = s) ∧
    (∀ r n t q m v, x.dead = false → x.naks = [] → x.notice = none → x.moving = none →
      (edgeHalves s).filter (fun h => leavesPackage h && isSender s h) = [(r, n, t)] → (s.region r).turn n = some t →
      receiveHalf s t.edge = some (q, m, v) →
      let k := min t.sent ((v.recvSeq + 256 - t.sendSeq % 256) % 256)
      ∃ u : State, exec (.lanikaControlFlits p) s = .next u ∧ (u.region r).turn n = some { t with
        send := t.send.drop k, sent := t.sent - k, sendSeq := (t.sendSeq + k) % 256
        unreported := (t.send.drop k).length + v.entries.length }) ∧
    (∀ hop : BitVec 8, x.dead = false → x.hop = 0 → 40 ≤ hop.toNat → hop.toNat ≤ 200 →
      ∃ u : State, exec (.linkTraining p hop) s = .next u ∧ u.port p = { x with hop := hop } ∧
        { u with ports := s.ports } = s) ∧
    (s.tick % 4096 = 0 → x.pend = true → s.poison = [] → s.bad = [] → ∀ aligned,
      let m := slotMap s (x.mapBase.toNat * 2 ^ 17)
      ∃ u : State, exec (.lanikaFrameBoundary p aligned) s = .next u ∧ { u with ports := s.ports } = s ∧
        u.port p = { x with
          pend := false, skewed := false, misaligned := if aligned then 0 else x.misaligned + 1
          active := if x.en = false then none else if mapServes m = true then some m else x.active
          bad := x.bad || (x.en && !mapServes m) })

/-- For every live port: when it is declared dead, with the packages left without a live route, the port
is dead with an empty wire and LK_HOP 0, the route table is busy from this tick on, those packages have
no live route, every pending store to one of them is withdrawn, and no region's task or steward core
changes but by counting its lost stores. ROUTE_RECOMPUTE_DONE ends the recomputation: HEALTH shows it no
more, no package loses its route, and which of the dead packages get one again is free. -/
def Obligations.PortDeathResult : Prop :=
  ∀ (s : State) (p : Nat),
    ((s.port p).dead = false → ∀ pkgs, ∃ t : State, exec (.portDeclaredDead p pkgs) s = .next t ∧
      (t.port p).dead = true ∧ (t.port p).wire = [] ∧ (t.port p).naks = [] ∧ (t.port p).hop = 0 ∧
      (∀ q, q ≠ p → t.port q = s.port q) ∧ t.health.rtbusy = true ∧ t.health.rtsince = s.tick ∧
      (∀ q, q ∈ t.deadPkgs ↔ q ∈ s.deadPkgs ∨ q ∈ pkgs) ∧
      (∀ x ∈ t.stores, ∀ q, s.place x.addr = .remote q → q ∉ pkgs) ∧
      (∀ c, { t.task c with nfail := 0, deadlink := false } = { s.task c with nfail := 0, deadlink := false }) ∧
      (s.health.hbase = 0 → (∀ x ∈ t.stores, x ∈ s.stores) ∧
        ∀ c, (∀ x ∈ s.stores, x.issuer = .core c → ∀ q, s.place x.addr = .remote q → q ∉ pkgs) →
          t.task c = s.task c)) ∧
    (s.health.rtbusy = true → ∃ t : State, exec .routeRecomputeDone s = .next t ∧
      t.health = { s.health with rtbusy := false } ∧ (∀ q, q ∈ t.deadPkgs → q ∈ s.deadPkgs) ∧
      { t with health := s.health, deadPkgs := s.deadPkgs, free := s.free, parts := s.parts, sent := s.sent } = s)

/-- For every state and partition below 64 whose pages PT_HMBX names (below the remote windows, apart
from the snapshot control words, no unit of them poisoned): a host write puts its bytes into the mailbox
pages, or into the first 64 bytes of the quote page unless its word reads 1, and nowhere else; one that
would be merged into a poisoned unit changes nothing; a read of the status page clears the pending
vectors; a quote request that finds none under way is answered: state 2, the nonce, the measurements
(the hypervisor's from its Held frame) and the signature over them at offset 0x100 of the quote page,
where the signature's bytes are free; the bus-master enable is what was written. None changes a core or
a region. The answer in the same step and the write that is ignored while the word reads 1
(notes/assumptions/28.md) and the widths inside the quote's fields of 8 bytes (notes/assumptions/67.md)
are the model's choices. -/
def Obligations.HostResult : Prop :=
  ∀ (s : State) (p : Nat), p < 64 → s.boot = .up →
    let b := (s.part p).hmbx.toNat / 2 ^ 14 % 2 ^ 38 * 2 ^ 14
    (b ≠ 0 → b + 0x4000 ≤ 2 ^ 48 → (∀ k, k < 0x4000 → controlOff s (b + k) = none) →
      (∀ (off : Nat) (bs : List Byte), bs ≠ [] → off + bs.length ≤ 0x2000 → mergesPoison s (b + off) bs.length = true →
        exec (.hostMailboxWrite p off bs) s = .next s) ∧
      ((∀ a n, b ≤ a → a + n ≤ b + 0x4000 → mergesPoison s a n = false) →
        (∀ (off : Nat) (bs : List Byte),
          off + bs.length ≤ 0x3000 ∨ (0x3008 ≤ off ∧ off + bs.length ≤ 0x4000 ∧ s.word (b + 0x3000) ≠ 1) →
          ∃ t : State, exec (.hostMailboxWrite p off bs) s = .next t ∧
            (∀ k, k < bs.length → off + k < 0x2000 ∨ (0x3000 ≤ off + k ∧ off + k < 0x3040) →
              t.byte (b + off + k) = bs.getD k 0) ∧
            (∀ a, (∀ k, k < bs.length → off + k < 0x2000 ∨ (0x3000 ≤ off + k ∧ off + k < 0x3040) →
              canonPa s.pkg.toNat a ≠ b + off + k) → t.byte a = s.byte a) ∧
            (∀ q, { t.part q with vectors := 0 } = { s.part q with vectors := 0 }) ∧
            { t with mem := s.mem, stores := s.stores, poison := s.poison, parts := s.parts, sent := s.sent } = s) ∧
        (s.word (b + 0x3000) = 1 → ∀ (off : Nat) (bs : List Byte), 0x3000 ≤ off →
          exec (.hostMailboxWrite p off bs) s = .next s) ∧
        (s.word (b + 0x3000) ≠ 1 → measurementAt + 64 ≤ b ∨ b + 0x4000 ≤ measurementAt →
          ∀ nonce : List Byte, nonce.length = 32 →
          ∃ t : State, exec (.quoteRequest p nonce) s = .next t ∧ t.word (b + 0x3000) = 2 ∧
            t.bytes (b + 0x3020) 32 = nonce ∧
            t.bytes (b + 0x3100) 192 = natToLe 1 4 ++ natToLe p 4 ++ natToLe Config.romVersion 4 ++
              natToLe s.fuses.counter 4 ++ nonce ++ s.bytes measurementAt 64 ++ pad64 (s.part p).measure ++ natToLe 0 16 ∧
            t.bytes (b + 0x31C0) 3309 = (upTo 3309).map (Config.signature (t.bytes (b + 0x3100) 192)) ∧
            (∀ a, (canonPa s.pkg.toNat a < b + 0x3000 ∨ b + 0x4000 ≤ canonPa s.pkg.toNat a) → t.byte a = s.byte a) ∧
            (∀ q, { t.part q with vectors := 0 } = { s.part q with vectors := 0 }) ∧
            { t with mem := s.mem, stores := s.stores, poison := s.poison, parts := s.parts, sent := s.sent } = s))) ∧
    (∃ t : State, exec (.hostStatusRead p) s = .next t ∧ { t with parts := s.parts } = s ∧
      t.part p = { s.part p with vectors := 0 } ∧ ∀ q, q ≠ p → t.part q = s.part q) ∧
    ∀ on, ∃ t : State, exec (.busMasteringDisabled p on) s = .next t ∧ { t with parts := s.parts } = s ∧
      t.part p = { s.part p with busMaster := on } ∧ ∀ q, q ≠ p → t.part q = s.part q

/-- For every state: POWER_ON_BOOT with a header that the flash gives, a key hash that is the fused one,
a security version not below the fused counter and a signature that verifies (whether it does is free)
writes SHAKE256 of "CML9160-HV" and the image, as the hypervisor's measurement, to a frame of memory
that the frame table then gives as Held, and starts the steward core of chiplet 0 at level H and the
entry of the image, with every other part as reset left it; with any of the checks failing it enters
recovery. A function-level reset of a Booting or Running partition makes it Stopping, ends every task of
its regions, and leaves the cause FLR pending for H; PARTITION_OFF of a Stopping one with every frame
free makes it Off. A device reset leaves no task, no region with a phase, island or queue, no
translation and no store on its way, gives the bytes of the frame table their reset values, keeps the
other bytes of memory, the flash and the fuses, and has boot to come. The cause on the steward core of
chiplet 0 (notes/assumptions/26.md) and what a device reset keeps (notes/assumptions/29.md) are the
model's choices. -/
def Obligations.ResetResult : Prop :=
  ∀ (s : State),
    (s.boot = .rom →
      let accepted := (shake256 s.flash.key 4).take 32 = s.fuses.keyHash ∧ s.fuses.counter ≤ s.flash.version ∧
        Config.verifies s.flash.key s.flash.image s.flash.signature = true
      exec (.powerOnBoot false) s = .next { s with boot := .recovery } ∧
      ∃ t : State, exec (.powerOnBoot true) s = .next t ∧ (¬ accepted → t = { s with boot := .recovery }) ∧
        (accepted → s.frametab = 0 → t.boot = .up ∧
          t.bytes measurementAt 64 = shake256 (ascii "CML9160-HV" ++ s.flash.image) 8 ∧
          t.byte (measurementAt / 4096) = 0xC0 ∧
          (∀ a, canonPa s.pkg.toNat a ≠ measurementAt / 4096 →
            (canonPa s.pkg.toNat a < measurementAt ∨ measurementAt + 64 ≤ canonPa s.pkg.toNat a) → t.byte a = s.byte a) ∧
          { t with stews := s.stews, boot := .rom, mem := s.mem, stores := s.stores, poison := s.poison } = s ∧
          (∀ c, c ≠ 0 → t.stew c = s.stew c) ∧
          t.stew 0 = { Steward.zero with task := { Task.zero with
            hold := .ready, level := .h, pc := Config.hypervisorEntry.setWidth 64 } })) ∧
    (∀ p, p < 64 → partState s p = 1 ∨ partState s p = 2 →
      ∃ t : State, exec (.functionLevelReset p) s = .next t ∧ (t.part p).flr = true ∧
        (∀ r n, n < 8 → (s.region r).part = p → ((t.region r).task n).hold = .free) ∧
        (17, BitVec.ofNat 64 p) ∈ (t.stew 0).pending ∧ (t.part p).state = 3 ∧
        (t.part p).reason = (s.part p).reason) ∧
    (∀ p, p < 64 → partState s p = 3 → framesFree s p = true →
      ∃ t : State, exec (.partitionOff p) s = .next t ∧ partState t p = 0 ∧ (t.part p).flr = false ∧
        t.regions = s.regions ∧ t.stews = s.stews) ∧
    ∃ t : State, exec .deviceReset s = .next t ∧ t.boot = .rom ∧
      (∀ a, memGet t.mem a = if a < frametabSize then memGet State.reset.mem a else memGet s.mem a) ∧ t.stores = [] ∧ t.tlbs = [] ∧
      t.walks = [] ∧ t.icaches = [] ∧ t.parts = [] ∧ t.saves = [] ∧ t.flash = s.flash ∧ t.fuses = s.fuses ∧
      (∀ c, t.task c = Task.zero) ∧ t.frametab = 0 ∧ t.health.hbase = 0 ∧
      ∀ r, let g := t.region r
        g.phase = 0 ∧ g.islands = [] ∧ g.elements = [] ∧ g.queue = [] ∧ g.copyq = [] ∧ g.saved = none ∧
          g.enabled = (s.region r).enabled ∧ g.spares = (s.region r).spares

/-- For every state with a health area below the remote windows: source 7 (the pin), and source 6 when
the package tick is MATCH, with its enable and ARM set and no trigger under way, set the boundary eight
ticks on; with ARM clear the missed count rises (up to its limit); with the enable clear nothing
changes. At the boundary the dump is latched, ARM clears, the source and the boundary are recorded.
SNAPSHOT_DUMP_DONE writes the 1 MiB dump to the area named, if it is whole memory of the package, and
sets DONE. -/
def Obligations.SnapshotResult : Prop :=
  ∀ (s : State), s.health.hbase ≠ 0 →
    let base := s.health.hbase.toNat * 2 ^ 16
    base + 2 ^ 16 ≤ 2 ^ 48 →
    let w := controlWord s base
    (∀ i source, (i = .snapshotPin ∧ source = 7) ∨
        (i = .snapshotTickMatch ∧ source = 6 ∧ s.word (base + 0x108) = s.tick) →
      ∃ t : State, exec i s = .next t ∧
        (nbit w source = false → t = s) ∧
        (nbit w source = true → nbit w 0 = true → s.snapAt = none → t = { s with snapAt := some (s.tick + 8, source) }) ∧
        (nbit w source = true → nbit w 0 = false →
          { t with mem := s.mem, stores := s.stores, poison := s.poison } = s ∧ sameBut s t (base + 0x100) 8 ∧
          t.word (base + 0x100) = if nbits w 31 16 = 0xFFFF then w else w + 2 ^ 16)) ∧
    (∀ source, s.snapAt = some (s.tick, source) → source < 256 → s.tick < 2 ^ 64 →
      ∃ t : State, exec .snapshotLatch s = .next t ∧ t.snapAt = none ∧ t.dump ≠ none ∧
        nbit (t.word (base + 0x100)) 0 = false ∧ nbits (t.word (base + 0x100)) 15 8 = source ∧
        t.word (base + 0x120) = s.tick ∧
        { t with mem := s.mem, stores := s.stores, poison := s.poison, snapAt := s.snapAt, dump := s.dump } = s) ∧
    ∀ cells, s.dump = some cells →
      let a := s.word (base + 0x110) / 2 ^ 20 * 2 ^ 20
      (dumpAreaOk s a = false → exec .snapshotDumpDone s = .next { s with dump := none }) ∧
      (dumpAreaOk s a = true → a + 2 ^ 20 ≤ base ∨ base + 2 ^ 16 ≤ a → a + 2 ^ 20 ≤ 2 ^ 48 →
        ∃ t : State, exec .snapshotDumpDone s = .next t ∧ t.dump = none ∧
          nbit (t.word (base + 0x100)) 63 = true ∧
          (∀ k, k < 2 ^ 20 → t.byte (a + k) = (findCell cells k).getD 0) ∧
          { t with mem := s.mem, stores := s.stores, poison := s.poison, dump := s.dump } = s)

/-- For every element whose op nothing holds, and every integer type with U and sat: vadd, vsub, vmul,
vmad, vmin, vmax, vshl, vshr, vshi and vpack issue, and after the latency of their class vd takes a
register each of whose values is the exact result narrowed to the type (SAT when sat clamps one); vcmp
writes the guard register whose bit j says that the comparison holds for every value of lane j. Nothing
else of the element, the region, the machine or memory changes, but that a turnstile named as operand b
loses its head and a load queue so named a beat. -/
def Obligations.ElementIntegerResult : Prop :=
  ∀ (s : State) (t : BitVec 3) (u k : BitVec 1) (c : BitVec 8) (f : BitVec 4), Legal.intType t = true →
    let w := Legal.typeWidth t
    let x := turnInput s
    let uns : Bool := u = 1
    let sat : Bool := k = 1
    let A := valueInt w uns x.a
    let B := valueInt w uns x.b
    let C := valueInt w uns x.c
    let Y := fun n => valueOf w x.b n % w
    (∀ (i : Instr) (lat : Nat) (un st : Bool) (r : Nat → Int), opReady i s →
      (i = .vadd t u k ∧ lat = 1 ∧ un = uns ∧ st = sat ∧ (∀ n, r n = A n + B n)) ∨
      (i = .vsub t u k ∧ lat = 1 ∧ un = uns ∧ st = sat ∧ (∀ n, r n = A n - B n)) ∨
      (i = .vmul t u k ∧ lat = 2 ∧ un = uns ∧ st = sat ∧ (∀ n, r n = A n * B n)) ∨
      (i = .vmad t u k ∧ lat = 2 ∧ un = uns ∧ st = sat ∧ (∀ n, r n = A n * B n + C n)) ∨
      (i = .vmin t u ∧ lat = 1 ∧ un = uns ∧ st = false ∧ (∀ n, r n = min (A n) (B n))) ∨
      (i = .vmax t u ∧ lat = 1 ∧ un = uns ∧ st = false ∧ (∀ n, r n = max (A n) (B n))) ∨
      (i = .vshl t u k ∧ lat = 1 ∧ un = uns ∧ st = sat ∧ (∀ n, r n = A n * 2 ^ Y n)) ∨
      (i = .vshr t u ∧ lat = 1 ∧ un = uns ∧ st = false ∧ (∀ n, r n = Int.fdiv (A n) (2 ^ Y n))) ∨
      (c.toNat < w ∧ i = .vshi 0 t c ∧ lat = 1 ∧ un = false ∧ st = false ∧
        (∀ n, r n = valueInt w false x.a n * 2 ^ c.toNat)) ∨
      (c.toNat < w ∧ i = .vshi 1 t c ∧ lat = 1 ∧ un = true ∧ st = false ∧
        (∀ n, r n = Int.fdiv (valueInt w true x.a n) (2 ^ c.toNat))) ∨
      (c.toNat < w ∧ i = .vshi 2 t c ∧ lat = 1 ∧ un = false ∧ st = false ∧
        (∀ n, r n = Int.fdiv (valueInt w false x.a n) (2 ^ c.toNat))) →
      ∃ (s' : State) (v : BitVec 512) (fl : Nat → Flags), exec i s = .next s' ∧
        writesV i s s' lat v (flagUnion (512 / w) fl) ∧
        ∀ n, n < 512 / w → narrows w un st (r n) (valueInt w un v n) (fl n)) ∧
    (f.toNat = t.toNat → opReady (.vpack f t u k) s →
      ∃ (s' : State) (v : BitVec 512) (fl : Nat → Flags), exec (.vpack f t u k) s = .next s' ∧
        writesV (.vpack f t u k) s s' 1 v (flagUnion (1024 / w) fl) ∧
        ∀ n, n < 1024 / w → narrows (w / 2) uns sat (if n < 512 / w then A n else B (n - 512 / w))
          (valueInt (w / 2) uns v n) (fl n)) ∧
    (f.toNat < 6 → opReady (.vcmp f t u) s →
      ∃ (s' : State) (q : BitVec 16), exec (.vcmp f t u) s = .next s' ∧ writesQ (.vcmp f t u) s s' 1 q 0 ∧
        ∀ j, j < 16 → (q.getLsbD j = true ↔ ∀ m, m < 32 / w →
          let a := A (32 / w * j + m)
          let b := B (32 / w * j + m)
          match f.toNat with
          | 0 => a = b
          | 1 => a ≠ b
          | 2 => a < b
          | 3 => a ≤ b
          | 4 => a > b
          | _ => a ≥ b))

/-- For every element whose op nothing holds: vnop does nothing; vlogic and vgop write the bitwise
function of their operands; vmov and vmovi write a copy, a broadcast lane, the lane numbers or an
immediate byte; vsel takes each lane of a or b by a guard bit; vfsgn flips, clears or copies sign bits
and changes no other bit, with a well-formed word for fn 0 to 2 and the types f32, f16 and bf16 alone;
vpermb sets byte b of vd to zero when index byte b has bit 7 and else to byte x[5:0] of va; vnib extends
64 nibbles to bytes; vshuf moves lanes within groups. Each completes after its latency with no flag, and
operand b is the register vb or the stream word with its invalid lanes zero. -/
def Obligations.ElementMoveResult : Prop :=
  ∀ (s : State) (t : BitVec 3) (c : BitVec 8) (f : BitVec 4) (p : BitVec 2) (q : BitVec 3) (h : BitVec 1)
      (l : BitVec 2) (m : BitVec 4),
    let x := turnInput s
    let w := Legal.typeWidth t
    let word := portWord (s.region s.focus.1) s.focus.2 (rtInb (turnWords s).2.1)
    let writes := fun (i : Instr) (ok : BitVec 512 → Prop) =>
      opReady i s → ∃ (s' : State) (v : BitVec 512), exec i s = .next s' ∧ writesV i s s' 1 v 0 ∧ ok v
    (x.a = mapGet 0 s.elem.v (regVa x.reg) ∧ x.c = mapGet 0 s.elem.v (regVd x.reg) ∧
      (regStream x.reg = false → x.b = mapGet 0 s.elem.v (regVb x.reg)) ∧
      (regStream x.reg = true → ∀ j, j < 16 →
        valueOf 32 x.b j = if word.valid.getLsbD j then valueOf 32 word.data j else 0)) ∧
    (∃ s' : State, exec .vnop s = .next s' ∧ (opReady .vnop s → issues .vnop s s' [] [])) ∧
    (∃ s' : State, exec .vnopUnguarded s = .next s' ∧
      (opReady .vnopUnguarded s → issues .vnopUnguarded s s' [] [])) ∧
    (f.toNat < 7 → writes (.vlogic f) fun v => v = match f.toNat with
      | 0 => x.a &&& x.b
      | 1 => x.a ||| x.b
      | 2 => x.a ^^^ x.b
      | 3 => x.a &&& ~~~ x.b
      | 4 => x.a ||| ~~~ x.b
      | 5 => ~~~ (x.a ^^^ x.b)
      | _ => ~~~ x.a) ∧
    (f.toNat < 7 → opReady (.vgop f) s → ∃ s' : State, exec (.vgop f) s = .next s' ∧
      let a := mapGet 0 s.elem.q (x.va % 8)
      let b := mapGet 0 s.elem.q (x.vb % 8)
      writesQ (.vgop f) s s' 1 (match f.toNat with
        | 0 => a &&& b
        | 1 => a ||| b
        | 2 => a ^^^ b
        | 3 => a &&& ~~~ b
        | 4 => ~~~ a
        | 5 => 0xFFFF#16
        | _ => 0) 0) ∧
    writes (.vmov 0 0) (fun v => v = x.a) ∧
    (c.toNat < 16 → writes (.vmov 1 c) fun v => ∀ j, j < 16 → valueOf 32 v j = valueOf 32 x.a c.toNat) ∧
    writes (.vmov 2 0) (fun v => ∀ j, j < 16 → valueOf 32 v j = j) ∧
    writes (.vmovi p c) (fun v => ∀ n, n < 64 → valueOf 8 v n =
      if n % 4 = p.toNat then c.toNat else if p = 0 then 0 else valueOf 8 x.c n) ∧
    writes (.vsel q) (fun v => ∀ j, j < 16 → valueOf 32 v j =
      if (mapGet 0 s.elem.q q.toNat).getLsbD j then valueOf 32 x.a j else valueOf 32 x.b j) ∧
    (Instr.wf (.vfsgn f t) = true ↔ f.toNat < 3 ∧ (t = 4 ∨ t = 5 ∨ t = 6)) ∧
    (Instr.wf (.vfsgn f t) = true → writes (.vfsgn f t) fun v => ∀ n, n < 512 / w →
      valueOf w v n % 2 ^ (w - 1) = valueOf w x.a n % 2 ^ (w - 1) ∧
        (2 ^ (w - 1) ≤ valueOf w v n ↔ (match f.toNat with
          | 0 => ¬ 2 ^ (w - 1) ≤ valueOf w x.a n
          | 1 => False
          | _ => 2 ^ (w - 1) ≤ valueOf w x.b n))) ∧
    writes .vpermb (fun v => ∀ n, n < 64 → valueOf 8 v n =
      if 128 ≤ valueOf 8 x.b n then 0 else valueOf 8 x.a (valueOf 8 x.b n % 64)) ∧
    (∀ g : BitVec 1, writes (.vnib g h) fun v => ∀ n, n < 64 →
      let a := valueOf 4 x.a (64 * h.toNat + n)
      valueOf 8 v n = if g = 0 ∧ 8 ≤ a then a + 0xF0 else a) ∧
    (Legal.vshufOk f l m = true → writes (.vshuf f l m) fun v => ∀ j, j < 16 → valueOf 32 v j =
      valueOf 32 x.a (
        let g := if l = 0 then 16 else if l = 1 then 4 else 8
        let base := j / g * g
        if (l = 2 ∧ 8 ≤ j) ∨ (l = 3 ∧ j < 8) then j
        else match f.toNat with
          | 0 => base + (j - base + m.toNat) % g
          | 1 => base + ((j - base) ^^^ m.toNat)
          | _ => base + m.toNat))

/-- For every element whose op nothing holds, every floating type, rounding and overflow choice: vfadd,
vfsub, vfmul, vfma, vfmin, vfmax, vfrcp, vfrsq, vfexp2, vnarrow and vwiden issue, and after their
latency every value of vd is its function of the operands' values; vcmp compares value by value; vred
combines lanes (or lane groups) in the fixed tree and writes the result to every lane; mfma64 forms the
2 by 2 outer product step. Flags are the union over the values or nodes. The sum, product and fused
product of finite operands are the exact number rounded once, and a code rounds to itself with no flag. -/
def Obligations.ElementFloatResult : Prop :=
  ∀ (s : State) (t r : BitVec 3) (k u o : BitVec 1) (d : BitVec 8) (f : BitVec 4) (l : BitVec 2),
    let x := turnInput s
    let w := Legal.typeWidth t
    let count := if w = 64 then 4 else 512 / w
    let fm := fmtOfType t
    let mode := modeOf r.toNat 0
    let inf : Bool := k = 0
    let A := fun n => decodeFmt fm (valueOf w x.a n)
    let B := fun n => decodeFmt fm (valueOf w x.b n)
    let C := fun n => decodeFmt fm (valueOf w x.c n)
    let src := fmtOfDesc d.toNat
    (Legal.rndOk r = true → ∀ (i : Instr) (lat : Nat) (R : Nat → Nat × Flags), opReady i s →
      (Legal.floatType t = true ∧
        ((i = .vfadd t k r ∧ lat = 4 ∧ ∀ n, R n = fAdd fm mode inf (A n) (B n)) ∨
        (i = .vfsub t k r ∧ lat = 4 ∧ ∀ n, R n = fAdd fm mode inf (A n) (B n).neg) ∨
        (i = .vfmul t k r ∧ lat = 4 ∧ ∀ n, R n = fMul fm mode inf (A n) (B n)) ∨
        (i = .vfma t k r ∧ lat = 4 ∧ ∀ n, R n = fFma fm mode inf (A n) (B n) (C n)) ∨
        (i = .vfmin t ∧ lat = 4 ∧ ∀ n, R n = fMinMax fm false (valueOf w x.a n) (valueOf w x.b n)) ∨
        (i = .vfmax t ∧ lat = 4 ∧ ∀ n, R n = fMinMax fm true (valueOf w x.a n) (valueOf w x.b n)) ∨
        (i = .vfrcp t r ∧ lat = 8 ∧ ∀ n, R n = fUnary fm mode exactRcp (valueOf w x.a n)) ∨
        (i = .vfrsq t r ∧ lat = 8 ∧ ∀ n, R n = fUnary fm mode exactRsqrt (valueOf w x.a n)) ∨
        (i = .vfexp2 t r ∧ lat = 8 ∧ ∀ n, R n = fUnary fm mode exactExp2 (valueOf w x.a n)))) ∨
      (Legal.vnarrowOk o r t d = true ∧ i = .vnarrow o r t d ∧ lat = 2 ∧
        ∀ n, R n = convertCode fm src mode (o = 1) (valueOf w x.a n)) ∨
      (Legal.vwidenOk o r t d = true ∧ i = .vwiden o r t d ∧ lat = 2 ∧
        ∀ n, R n = convertCode src fm mode (o = 1) (valueOf w x.a n % 2 ^ fmtWidth src)) ∨
      (t = 3 ∧ i = .mfma64 k r ∧ lat = 6 ∧ ∀ n, R n = fFma fm mode inf (A (n / 2)) (B (n % 2)) (C n)) →
      ∃ (s' : State) (v : BitVec 512), exec i s = .next s' ∧
        writesV i s s' lat v (flagUnion count fun n => (R n).2) ∧
        (∀ n, n < count → valueOf w v n = (R n).1) ∧
        (w = 64 → ∀ g, g < 4 → valueOf 32 v (4 * g + 2) = 0 ∧ valueOf 32 v (4 * g + 3) = 0)) ∧
    (Legal.floatType t = true → f.toNat < 6 → opReady (.vcmp f t 0) s →
      ∃ (s' : State) (q : BitVec 16), exec (.vcmp f t 0) s = .next s' ∧
        writesQ (.vcmp f t 0) s s' 1 q (flagUnion count fun n => (fCompare f.toNat (A n) (B n)).2) ∧
        ∀ j, j < 16 → (q.getLsbD j = true ↔ ∀ m, m < 32 / w →
          (fCompare f.toNat (A (32 / w * j + m)) (B (32 / w * j + m))).1 = true)) ∧
    (Legal.vredOk f t u l r = true → opReady (.vred f t u l k r) s →
      let per := 32 / w
      let node := redNode f.toNat t u k r
      let leaf := fun m j => if (l = 2 ∧ 8 ≤ j) ∨ (l = 3 ∧ j < 8) then redIdentity f.toNat t u
        else valueOf w x.a (per * j + m)
      ∃ (s' : State) (v : BitVec 512) (fl : Flags), exec (.vred f t u l k r) s = .next s' ∧
        writesV (.vred f t u l k r) s s' (if l = 1 then 3 else 6) v fl ∧
        (w = 64 → fl = (redTree node (valueOf 64 x.a) 2 0).2 ∧
          ∀ g, g < 4 → valueOf 64 v g = (redTree node (valueOf 64 x.a) 2 0).1) ∧
        (w ≠ 64 → l ≠ 1 → fl = flagUnion per (fun m => (redTree node (leaf m) 4 0).2) ∧
          ∀ j m, j < 16 → m < per → valueOf w v (per * j + m) = (redTree node (leaf m) 4 0).1) ∧
        (w ≠ 64 → l = 1 →
          fl = flagUnion (4 * per) (fun n => (redTree node (leaf (n % per)) 2 (n / per)).2) ∧
          ∀ j m, j < 16 → m < per → valueOf w v (per * j + m) = (redTree node (leaf m) 2 (j / 4)).1)) ∧
    (∀ X Y Z : Val, X.isFinite = true → Y.isFinite = true → Z.isFinite = true →
      (∃ e : Val, e.isFinite = true ∧ e.number = X.number + Y.number ∧ fAdd fm mode inf X Y = roundTo fm mode inf e) ∧
      (∃ e : Val, e.isFinite = true ∧ e.number = X.number * Y.number ∧ fMul fm mode inf X Y = roundTo fm mode inf e) ∧
      (∃ e : Val, e.isFinite = true ∧ e.number = X.number * Y.number + Z.number ∧
        fFma fm mode inf X Y Z = roundTo fm mode inf e)) ∧
    ∀ c, 3 ≤ t.toNat → t.toNat < 7 → c < 2 ^ w → (decodeFmt fm c).isFinite = true →
      roundTo fm mode inf (decodeFmt fm c) = (c, 0)

/-- For every element whose op nothing holds: vldm and vldl read bytes of the element's memory and
slices, vstm and vstl write the bytes of the lanes that the guard turns on, vatom does both in one row,
with out-of-range addresses reading zero, writing nothing and recorded, of a row whatever the guard (the
model's choice, notes/assumptions/14.md); vpop moves the head of a load queue to vd, vpush appends va
with the guard as its token, vsend gives the driven word the guard as its valid bits; tksend counts a
token, starts the generator or the array, or sends it to a turnstile lane or a neighbour's latch, and
tkwait consumes one. Nothing else changes. These and mrdacc run on failing units too: each unit that the
op reads is poisoned exactly when it was poisoned or its error is uncorrectable and lasting, every other
one keeps its bytes, and an error that is met is gone; that the read then goes on is the model's choice
(notes/assumptions/40.md). -/
def Obligations.ElementMemoryResult : Prop :=
  ∀ (s : State) (g t : BitVec 3) (o : BitVec 8) (p u : BitVec 1) (f : BitVec 4) (k : BitVec 8),
    let x := turnInput s
    let r := s.focus.1
    let e := s.focus.2
    let guard : BitVec 16 := if g = 7 then 0xFFFF#16 else mapGet 0 s.elem.q g.toNat
    let row := if t = 3 then 32 else 64
    let a := (valueOf 32 x.a 0 + 64 * o.toNat) % 2 ^ 32 / row * row
    let slice := fun j => (valueOf 32 x.a j + 4 * o.toNat) % 2 ^ 32 / 4 * 4
    let byteAt := fun (v : BitVec 512) (n : Nat) => BitVec.ofNat 8 (valueOf 8 v n)
    let pops := fun (i : Instr) => (turnUses i s).pops
    (Legal.anyType t = true → opReady (.vldm t o) s → ∃ (s' : State) (v : BitVec 512), exec (.vldm t o) s = .next s' ∧
      (a < 0x60000 → writesV (.vldm t o) s s' 3 v 0 ∧
        ∀ n, n < 64 → byteAt v n = if t ≠ 3 then s.elmByte r e (a + n)
          else if n % 16 < 8 then s.elmByte r e (a + 8 * (n / 16) + n % 16) else 0) ∧
      (0x60000 ≤ a → issues (.vldm t o) s s' [(3, .v x.vd 0)] [(1, false, a)])) ∧
    (Legal.anyType t = true → opReady (.vstm g t o) s → ∃ s' : State, exec (.vstm g t o) s = .next s' ∧
      (a < 0x60000 → ∃ z : Effect, issues (.vstm g t o) s s' [(1, z)] [] ∧ storesElm z fun n =>
        if a ≤ n ∧ n < a + row then
          if t ≠ 3 then (if guard.getLsbD ((n - a) / 4) then some (byteAt x.c (n - a)) else none)
          else if guard.getLsbD (4 * ((n - a) / 8)) then some (byteAt x.c (16 * ((n - a) / 8) + (n - a) % 8)) else none
        else none) ∧
      (0x60000 ≤ a → issues (.vstm g t o) s s' [] [(1, true, a)])) ∧
    (opReady (.vldl t o) s → ∃ (s' : State) (v : BitVec 512), exec (.vldl t o) s = .next s' ∧
      issues (.vldl t o) s s' [(2, .v x.vd v)] (((List.range 16).filter fun j => decide (0x1FC < slice j)).map
        fun j => (0, false, slice j)) ∧
      ∀ j n, j < 16 → n < 4 → byteAt v (4 * j + n) =
        if slice j ≤ 0x1FC then mapGet 0 s.elem.lps (512 * j + slice j + n) else 0) ∧
    (opReady (.vstl g t o) s → ∃ (s' : State) (z : Effect), exec (.vstl g t o) s = .next s' ∧
      issues (.vstl g t o) s s' [(1, z)] (((List.range 16).filter fun j =>
        guard.getLsbD j && decide (0x1FC < slice j)).map fun j => (0, true, slice j)) ∧
      storesLps z fun n =>
        let j := n / 512
        if j < 16 ∧ guard.getLsbD j = true ∧ slice j ≤ 0x1FC ∧ slice j ≤ n % 512 ∧ n % 512 < slice j + 4 then
          some (byteAt x.c (4 * j + (n % 512 - slice j))) else none) ∧
    (Legal.intType t = true → f.toNat < 4 → opReady (.vatom f g t u) s →
      let w := Legal.typeWidth t
      let b := valueOf 32 x.a 0 / 64 * 64
      let m := fun n => leToNat ((List.range (w / 8)).map fun q => s.elmByte r e (b + w / 8 * n + q))
      let y := valueOf w x.b
      let int := fun (c : Nat) => if u = 1 then (c : Int) else Int.bmod c (2 ^ w)
      let new := fun n => match f.toNat with
        | 0 => (m n + y n) % 2 ^ w
        | 1 => if int (y n) < int (m n) then y n else m n
        | 2 => if int (m n) < int (y n) then y n else m n
        | _ => y n
      ∃ s' : State, exec (.vatom f g t u) s = .next s' ∧
        (b < 0x60000 → ∃ (z : Effect) (v : BitVec 512),
          issues (.vatom f g t u) s s' [(1, z), (3, .v x.vd v)] [] ∧
          (∀ n, n < 512 / w → valueOf w v n = if guard.getLsbD (n * w / 32) then m n else 0) ∧
          storesElm z fun n => if b ≤ n ∧ n < b + 64 ∧ guard.getLsbD ((n - b) / 4) = true then
            some (BitVec.ofNat 8 (new ((n - b) / (w / 8)) / 2 ^ (8 * ((n - b) % (w / 8))))) else none) ∧
        (0x60000 ≤ b → issues (.vatom f g t u) s s' [(3, .v x.vd 0)] [(1, true, b)])) ∧
    (opReady (.vpop p) s → ∃ (s' : State) (y : Element) (q : QEntry), exec (.vpop p) s = .next s' ∧
      elementEnds (.vpop p) s s' y 0 [] ∧ { y with v := s.elem.v } = s.elem.after (turnUses (.vpop p) s) [] ∧
      (s.elem.ag p.toNat).queue.head? = some q ∧ p.toNat ∈ pops (.vpop p) ∧
      (∀ n, n ≠ x.vd → mapGet 0 y.v n = mapGet 0 s.elem.v n) ∧
      ∀ n, n < 64 → byteAt (mapGet 0 y.v x.vd) n =
        if q.token.getLsbD (n / 4) then q.bytes.getD n 0 else 0) ∧
    (opReady (.vpush p g) s → ∃ (s' : State) (q : QEntry), exec (.vpush p g) s = .next s' ∧
      let y := s.elem.after (turnUses (.vpush p g) s) []
      elementEnds (.vpush p g) s s' (y.setAg p.toNat ((y.ag p.toNat).push q)) 0 [] ∧ q.born = s.tick ∧
      q.token = guard ∧ q.bytes.length = 64 ∧ (∀ n, n < 64 → q.bytes.getD n 0 = byteAt x.a n) ∧
      q.addr = none ∧ q.block = none ∧ q.size = 1) ∧
    (∀ (b : AgPort) (q : QEntry), (∀ y ∈ b.queue, y.addr ≠ none) → q.addr = none →
      b.push q = if b.kind ≠ 2 then { b with queue := b.queue ++ [q] }
        else if b.running = true ∧ b.next < b.count then
          { b with queue := b.queue ++ [{ q with index := b.next, addr := some (b.addrOf b.next) }]
                   next := b.next + 1, moved := b.next + 1 }
        else { b with queue := b.queue ++ [q], moved := b.next }) ∧
    (∃ s' : State, exec (.vsend g) s = .next s' ∧ (opReady (.vsend g) s → issues (.vsend g) s s' [] [])) ∧
    (∀ (h : Region) (b : Nat) (w : Uses) (run : Bool), w.instr = .vsend g → rtOsrc w.route = 1 →
      (planOf h b w run).word.data = mapGet 0 (h.element b).v (regVd w.reg) ∧
      (planOf h b w run).word.valid = if g = 7 then 0xFFFF#16 else mapGet 0 (h.element b).q g.toNat) ∧
    (k.toNat < 9 → opReady (.tksend g k) s → ∃ s' : State, exec (.tksend g k) s = .next s' ∧
      let y := s.elem.after (turnUses (.tksend g k) s) []
      let ends := fun (z : State) => elementEnds (.tksend g k) s z y 0 []
      let lane := laneOut (s.region r) (turnIsland s) e k.toNat
      (k = 0 → ends (s'.setRegion r { s'.region r with tokcnt := (s.region r).tokcnt }) ∧
        (s'.region r).tokcnt = (s.region r).tokcnt + (if guard.getLsbD 0 then 1 else 0)) ∧
      (k = 7 → issues (.tksend g k) s s' [(1, .agStart)] []) ∧
      (k = 8 → issues (.tksend g k) s s' [(1, .runStart)] []) ∧
      (1 ≤ k.toNat → k.toNat ≤ 6 → (turnUses (.tksend g k) s).tpops = [] →
        (∀ n z c, lane = some (n, z) → (s.region r).turn n = some c → ∃ d, (s'.region r).turn n = some d ∧
          d.tokens = c.tokens + 1 ∧ ends (s'.setTurnstile r n { d with tokens := c.tokens })) ∧
        (lane = none → nbrOf e k.toNat = none → ends s') ∧
        ∀ b, lane = none → nbrOf e k.toNat = some b →
          let old := (s.region r).element b
          (s'.region r).element b = { old with flight := old.flight ++ [(1, .token (oppPort k.toNat))] } ∧
            ends (s'.putElem r b old))) ∧
    (1 ≤ k.toNat → k.toNat < 9 → opReady (.tkwait k) s → (turnUses (.tkwait k) s).tpops = [] → ∃ s' : State, exec (.tkwait k) s = .next s' ∧
      let y := s.elem.after (turnUses (.tkwait k) s) []
      let lane := laneIn (s.region r) (turnIsland s) e k.toNat
      (lane = none → elementEnds (.tkwait k) s s'
        { y with tokens := y.tokens &&& ~~~ (BitVec.ofNat 9 (2 ^ k.toNat)) } 0 []) ∧
      ∀ n z c, lane = some (n, z) → (s.region r).turn n = some c → ∃ d, (s'.region r).turn n = some d ∧
        d.tokens = c.tokens - 1 ∧ elementEnds (.tkwait k) s (s'.setTurnstile r n { d with tokens := c.tokens }) y 0 []) ∧
    ∀ i, i = .vldm t o ∨ i = .vldl t o ∨ i = .vatom f g t u ∨ i = .mrdacc → opFree i s →
      ∃ s' : State, exec i s = .next s' ∧ ∀ q ∈ turnUnits i s,
        let y := unitKey s q
        let error := mapGet 0 s.bad y
        let lost := mapGet false s.poison y = true ∨ (error ≠ 0 ∧ error ≠ 1 ∧ error ≠ 3)
        (mapGet false s'.poison y = true ↔ lost) ∧ (mapGet false s.poison y = false → mapGet 0 s'.bad y = 0) ∧
        (¬ lost → ∀ n, n < 8 → if q.1 then mapGet 0 s'.elem.lps (q.2 + n) = mapGet 0 s.elem.lps (q.2 + n)
          else s'.elmByte r e (q.2 + n) = s.elmByte r e (q.2 + n))

/-- For every element whose op nothing holds: shape forms the largest grant that fits and writes its
lanes; mbload writes one column of a K block, from a popped block or from registers, with its exponent
entries, and nothing out of grant; mrun arms a run; mrdacc reads 16 accumulators and the run's progress;
mzero zeroes accumulators; qst pushes the quantised block with its guard token and raises its flags;
vcld decodes a popped block into registers; agcfg, agbase and agrun set a port, its base and its loop
one tick later. An update of the array adds to each of the row's accumulators the rounded product of its
column (a fresh start adds it to +0), rounded again, and counts one block absorbed by the row (which
blocks a run takes and when an update is due: IslandTickResult). Nothing else changes. The model's
choices are the zero block of width 4 (notes/assumptions/15.md), a form or a missing grant taken as out
of grant (notes/assumptions/16.md), the queue that agcfg with the kind unchanged keeps
(notes/assumptions/17.md) and the zeros in the rest of vcld's registers (notes/assumptions/56.md). -/
def Obligations.ElementMatrixResult : Prop :=
  ∀ (s : State) (e t r g slot : BitVec 3) (w n kind ctrs set : BitVec 2) (p b k acc : BitVec 1) (m : BitVec 8)
      (cand : BitVec 5),
    let x := turnInput s
    let lane := valueOf 32 x.a
    let up := fun (a c : Nat) => (a + c - 1) / c
    let out := fun (i : Instr) (lat : Nat) (effs : List Effect) (oor : List (Nat × Bool × Nat)) =>
      ∃ s' : State, exec i s = .next s' ∧ issues i s s' (effs.map fun z => (lat, z)) oor
    (w.toNat < 3 → opReady (.shape e w) s →
      let wd := 4 * (w.toNat + 1)
      let sets := if wd = 4 then 3 else 1
      let nr := min (64 * up (lane 1) 64) 1024
      let n0 := min nr 128
      let ne := min (nr - 128 * e.toNat) 128
      let h := min (lane 0) 128
      let fits := fun kb => kb * (n0 / 64) + up (kb * n0 * sets * 2) 3072 + up (h * n0 * 4) 3072 ≤ 128
      let empty := lane 0 = 0 ∨ lane 1 = 0 ∨ lane 2 = 0
      ∃ (v : BitVec 512) (gr : Option Grant), out (.shape e w) 2 [.v x.vd v, .grant gr] [] ∧
        (empty ∨ ne = 0 → gr = none ∧
          ∀ j, j < 16 → valueOf 32 v j = if j = 9 then (if empty then 2 else 3) else 0) ∧
        (¬ empty → ne ≠ 0 → ∃ kb, kb ≤ up (lane 2) 32 ∧ fits kb ∧
          (∀ q, kb < q → q ≤ up (lane 2) 32 → ¬ fits q) ∧
          let st := if h < lane 0 ∨ 32 * kb < lane 2 ∨ nr < 64 * up (lane 1) 64 then 1 else 0
          gr = some { width := wd, h := h, ne := ne, kb := kb, part := e.toNat, status := st } ∧
          ∀ j, j < 16 → valueOf 32 v j =
            [h, ne, 32 * kb, 128 * e.toNat, kb * ne / 64, kb * ne / 64, up (kb * ne * sets * 2) 3072,
              128 - up (h * ne * 4) 3072, up (h * ne * 4) 3072, st].getD j 0)) ∧
    (let j := lane 0 % 2 ^ 10
     let kb := lane 0 / 2 ^ 10 % 2 ^ 11
     let st := lane 0 / 2 ^ 21 % 4
     let within := fun (gr : Grant) => s.elem.grant = some gr ∧ j < gr.ne ∧ kb < gr.kb ∧ st < 3 ∧
       (gr.width = 4 ∨ st = 0)
     let cell := fun (gr : Grant) (lo i : Nat) =>
       8 * 0xC00 * (kb * (gr.ne / 64) + j / 64) + 12 * (i * 64 + j % 64) + lo
     let entryAt := fun (gr : Grant) (c : Nat) => gr.kb * gr.ne / 64 * 0xC00 + 2 * ((c * gr.kb + kb) * gr.ne + j)
     let entry := fun (nan : Bool) (eb : Int) => (if nan then 2 ^ 15 else 0) + (eb % 1024).toNat
     (opReady (.mbloadQueue p) s → ∀ q, (s.elem.ag p.toNat).queue.head? = some q →
       let good := ∃ bw, q.block = some (bw, 32)
       let blk := matrixBlock x.books (some q)
       let bad := if blk.2 = none then [] else [(5, false, q.addr.getD 0)]
       (good ↔ blk.2 = none) ∧
       ((∀ gr, ¬ within gr) → out (.mbloadQueue p) 1 [] (bad ++ [(5, true, lane 0)])) ∧
       ∀ gr, within gr → 64 ∣ gr.ne →
         let clash := gr.width = 4 ∧ blk.1.width ≠ 4
         ∃ z : Effect, out (.mbloadQueue p) 1 (z :: if clash then [.flags fNV] else []) bad ∧
           storesColumn s.elem z (if gr.width = 4 then 4 else 12)
             (cell gr (if gr.width = 4 then 4 * st else 0))
             (fun i => if clash then 0 else ((blk.1.vals.getD i 0) % 4096).toNat)
             [(entryAt gr st, entry (blk.1.isNan || decide clash) blk.1.exp)]) ∧
     (opReady (.mbloadRegister b m) s →
       (((∀ gr, ¬ within gr) ∨ ∃ gr, s.elem.grant = some gr ∧ (b = 1) ≠ (gr.width = 4)) →
         out (.mbloadRegister b m) 1 [] [(5, true, lane 0)]) ∧
       ∀ gr, within gr → 64 ∣ gr.ne → ((b = 1) ↔ (gr.width = 4)) → ∃ z : Effect,
         out (.mbloadRegister b m) 1 [z] [] ∧ storesColumn s.elem z 12 (cell gr 0)
           (fun i => if b = 1 then valueOf 4 x.b i + 16 * valueOf 4 x.b (32 + i) + 256 * valueOf 4 x.b (64 + i)
             else (valueInt 8 false x.b i % 4096).toNat)
           ((if b = 1 then [0, 1, 2] else [0]).map fun c =>
             (entryAt gr c, entry (m = 0xFF#8) ((m.toNat : Int) - 127))))) ∧
    (set.toNat < 3 → opReady (.mrun set acc p m) s → out (.mrun set acc p m) 1
      [.arm { k0 := lane 0, nk := lane 1, set := set.toNat, mask := m.toNat, port := p.toNat, acc := acc = 1
              running := false, clock := 0 }] []) ∧
    (opReady .mrdacc s →
      let ok := fun (gr : Grant) => s.elem.grant = some gr ∧ lane 0 < gr.h ∧ lane 1 < gr.ne / 16
      ((∀ gr, ¬ ok gr) → out .mrdacc 3 [.v x.vd 0, .v (x.vd + 1) 0] [(5, false, lane 0)]) ∧
      ∀ gr, ok gr → ∃ v y, out .mrdacc 3 [.v x.vd v, .v (x.vd + 1) y] [] ∧
        (∀ i, i < 64 → BitVec.ofNat 8 (valueOf 8 v i) = mapGet 0 s.elem.elm
          ((128 - up (gr.h * gr.ne * 4) 3072) * 0xC00 + 4 * (lane 0 * gr.ne + 16 * lane 1) + i)) ∧
        ∀ i, i < 16 → valueOf 32 y i = match i with
          | 0 => mapGet 0 s.elem.absorbed (lane 0) % 2 ^ 32
          | 1 => if (s.elem.run.map (·.running)) = some true then 1 else 0
          | _ => 0) ∧
    (opReady (.mzero p) s →
      let bad := s.elem.grant = none ∨ ∃ gr, s.elem.grant = some gr ∧ p = 1 ∧ gr.h ≤ lane 0
      (bad → out (.mzero p) 1 [] [(5, true, if p = 1 then lane 0 else 0)]) ∧
      ∀ gr, s.elem.grant = some gr → ¬ bad → ∃ z : Effect, out (.mzero p) 1 [z] [] ∧
        storesElm z fun a =>
          let base := (128 - up (gr.h * gr.ne * 4) 3072) * 0xC00 + (if p = 1 then 4 * lane 0 * gr.ne else 0)
          if base ≤ a ∧ a < base + (if p = 1 then 4 * gr.ne else 4 * gr.h * gr.ne) then some 0 else none) ∧
    (Legal.qstOk n t = true → opReady (.qst n b p g t slot cand) s →
      let i := Instr.qst n b p g t slot cand
      let size := 16 * 2 ^ n.toNat
      let wd := Legal.typeWidth t
      let per := 512 / wd
      let y := s.elem.after (turnUses i s) []
      let vals := (List.range size).map fun c =>
        decodeFmt (fmtOfType t) (valueOf wd (mapGet 0 s.elem.v ((x.va + c / per) % 32)) (c % per))
      let block := quantise (if b = 1 then 8 else 4) size cand.toNat slot.toNat (x.book slot.toNat)
        (fun _ => .rne) vals
      ∃ (s' : State) (q : QEntry) (fl : Flags), exec i s = .next s' ∧
        elementEnds i s s' (y.setAg p.toNat ((y.ag p.toNat).push q)) fl [] ∧
        q.bytes = block.1 ∧ fl = (block.2 ||| if vals.any Val.isSnan then fNV else 0) ∧
        q.block = some (if b = 1 then 8 else 4, size) ∧ q.addr = none ∧ (64 < q.bytes.length ↔ q.size = 2) ∧
        q.token = if g = 7 ∨ (mapGet 0 s.elem.q g.toNat).getLsbD 0 = true then 0xFFFF#16 else 0) ∧
    (Legal.vcldOk n t r = true → opReady (.vcld n p t k r) s → ∀ q, (s.elem.ag p.toNat).queue.head? = some q →
      let i := Instr.vcld n p t k r
      let size := 16 * 2 ^ n.toNat
      let wd := Legal.typeWidth t
      let per := 512 / wd
      ∃ (vs : Nat → BitVec 512) (fl : Flags) (oor : List (Nat × Bool × Nat)),
        out i 2 (((List.range (up size per)).map fun c => Effect.v (x.vd + c) (vs c)) ++
          if fl = 0 then [] else [.flags fl]) oor ∧
        ((∀ bw, q.block ≠ some (bw, size)) → oor = [(4, false, q.addr.getD 0)] ∧ fl = 0 ∧ ∀ c, c < up size per → vs c = 0) ∧
        ∀ bw, q.block = some (bw, size) → oor = [] ∧
          let R := fun c => deliver (fmtOfType t) (modeOf r.toNat 0) (k = 0)
            ((blockValues bw size x.book q.bytes).getD c (.fin false 0 0))
          fl = flagUnion size (fun c => (R c).2) ∧
          ∀ c, c < up size per * per → valueOf wd (vs (c / per)) (c % per) = if c < size then (R c).1 else 0) ∧
    (kind.toNat < 3 → opReady (.agcfg p k ctrs kind) s → ∃ cfg : AgPort,
      out (.agcfg p k ctrs kind) 1 [.cfg p.toNat cfg] [] ∧
      ∀ y : Element,
        let old := y.ag p.toNat
        let z := (y.apply (.cfg p.toNat cfg)).1
        let new := z.ag p.toNat
        z = y.setAg p.toNat new ∧ new.kind = kind.toNat ∧ new.counters = ctrs.toNat + 1 ∧ new.rsm = decide (k = 1) ∧
          new.base = old.base ∧ new.lead = lane 8 % 256 ∧ new.running = false ∧
          new.queue = (if old.kind = kind.toNat then old.queue else []) ∧
          (∀ c, c ≤ ctrs.toNat →
            new.extents[c]? = some (if lane (2 * c) % 2 ^ 24 = 0 then 1 else lane (2 * c) % 2 ^ 24) ∧
            new.strides[c]? = some (valueInt 32 false x.a (2 * c + 1))) ∧
          new.extents.length = ctrs.toNat + 1 ∧ new.strides.length = ctrs.toNat + 1) ∧
    (opReady (.agbase p) s → out (.agbase p) 1 [.base p.toNat (lane 0 + lane 1 * 2 ^ 32)] []) ∧
    (opReady (.agrun k acc p) s → out (.agrun k acc p) 1
      [if acc = 1 then .loop p.toNat (lane 0) (k = 1) else .armLoop p.toNat (lane 0) (k = 1)] []) ∧
    ∀ (y : Element) (q c : Nat) (fin : Bool),
      (y.apply (.base q c)).1 = y.setAg q { y.ag q with base := c } ∧
      (y.apply (.loop q c fin)).1 = y.setAg q { y.ag q with
        count := c, running := true, fin := fin, armed := none, next := 0, moved := 0, asked := [] } ∧
      (y.apply (.armLoop q c fin)).1 = y.setAg q { y.ag q with armed := some (c, fin) } ∧
      (y.apply .agStart).1 = ({ y with ag0 := (y.apply .agStart).1.ag0, ag1 := (y.apply .agStart).1.ag1 }) ∧
      (∀ d : Nat × Bool, (y.ag q).armed = some d → (y.apply .agStart).1.ag q = { y.ag q with
        count := d.1, running := true, fin := d.2, armed := none, next := 0, moved := 0, asked := [] }) ∧
      (∀ d, y.run = some d → (y.apply .runStart).1 =
        { y with run := some { d with running := true, clock := 0 }, absorbed := [] }) ∧
      ∀ (row : Nat) (vs : List Nat) (fresh : Bool) (gr : Grant), y.grant = some gr → vs.length = gr.ne →
        let z := (y.apply (.acc row vs fresh)).1
        let place := fun j : Nat => (128 - up (gr.h * gr.ne * 4) 3072) * 0xC00 + 4 * (row * gr.ne + j)
        let held := fun (w : Element) (j : Nat) => leToNat (mapGetN 0 w.elm (place j) 4)
        let R := fun j : Nat => fAdd fmtF32 .rne true (decodeFmt fmtF32 (if fresh = true then 0 else held y j))
          (decodeFmt fmtF32 (vs.getD j 0))
        (∀ j, j < gr.ne → held z j = (R j).1 % 2 ^ 32) ∧
        (∀ n, n < place 0 ∨ place gr.ne ≤ n → mapGet 0 z.elm n = mapGet 0 y.elm n) ∧
        (y.apply (.acc row vs fresh)).2 = flagUnion gr.ne (fun j => (R j).2) ∧
        (∀ m, mapGet 0 z.absorbed m = mapGet 0 y.absorbed m + if m = row then 1 else 0) ∧
        { z with elm := y.elm, absorbed := y.absorbed } = y

/-- For every task, register code and value: code 0 reads as zero and a write of it changes nothing; any
other code reads back what is written to it, a write changes no other code, and codes 1 to 7 do not move
with the window. -/
def Obligations.RegisterCodes : Prop :=
  ∀ (m : Task) (a b : BitVec 5) (v : Word) (n : Nat),
    m.get 0 = 0 ∧ m.set 0 v = m ∧ (a ≠ 0 → (m.set a v).get a = v) ∧ (b ≠ a → (m.set a v).get b = m.get b) ∧
      (a.toNat < 8 → { m with base := n }.get a = m.get a)

/-- Turns come from the agenda (the model's own choice of order, notes/assumptions/1.md). When it is a
ready core's turn, its pc is a multiple of 4 and the bytes fetched there (4, or 8 for a two-word opcode)
decode to an instruction, the step is exec of that instruction in the state after the fetch; bytes that
decode to none give the illegal-word trap, a misaligned pc the fetch trap. When it is an element's turn,
its clock runs and its op word decodes, the step is exec of that op; an event's turn is exec of that
event. With an empty agenda the turn is one of the candidates. After the turn (`afterTurn`) nothing has
changed but the holds of tasks in waita whose word a store has changed (R280) and of tasks in waitc
whose counter has reached zero (R25). -/
def Obligations.StepRunsDecodedInstruction : Prop :=
  ∀ (s : State) (rest : List Turn),
    let u := { s with agenda := rest }
    (∀ c, s.agenda = .core c :: rest → coreMoves u c = true →
      let w := { u with cur := c }
      let pc := w.me.pc
      (pc.toNat % 4 ≠ 0 → step s = afterTurn (exec (.fetchFault pc) w)) ∧
      (pc.toNat % 4 = 0 →
        (∀ bs t i, fetchWord w pc.toNat = (.ok bs, t) → isLong (leToNat bs) = false →
          decode bs = .ok (i, []) → step s = afterTurn (exec i t)) ∧
        (∀ bs t e, fetchWord w pc.toNat = (.ok bs, t) → bs.length = 4 → isLong (leToNat bs) = false →
          decode bs = .error e → step s = afterTurn (exec (.illegalEncoding (BitVec.ofNat 32 (leToNat bs))) t)) ∧
        ∀ bs cs t t' i, fetchWord w pc.toNat = (.ok bs, t) → bs.length = 4 → isLong (leToNat bs) = true →
          fetchWord t (pc + 4).toNat = (.ok cs, t') → decode (bs ++ cs) = .ok (i, []) →
          step s = afterTurn (exec i t'))) ∧
    (∀ r e k x i, s.agenda = .op r e :: rest → (s.region r).awake = true → s.health.crit = false →
      (s.region r).islandOf e = some (k, x) →
      decodeOp (leBytes 3 (opWord x ((s.region r).element e) x.counter)) = .ok (i, []) →
      opWord x ((s.region r).element e) x.counter < 2 ^ 24 → step s = afterTurn (exec i { u with focus := (r, e) })) ∧
    (∀ i, s.agenda = .event i :: rest → step s = afterTurn (exec i u)) ∧
    (s.agenda = .tick :: rest → step s = afterTurn (.next (tickTurn u))) ∧
    (s.agenda = [] → ∃ x ∈ candidates s,
      step s = afterTurn (turn x (rotate x { s with sched := s.sched + 1, free := s.free + 1 }))) ∧
    ∀ t : State, ∃ v : State, afterTurn (.next t) = .next v ∧ v.mem = t.mem ∧ v.stores = t.stores ∧
      ∀ c, { v.task c with hold := .free } = { t.task c with hold := .free } ∧
        ((v.task c).hold = (t.task c).hold ∨
          (∃ d a b, (t.task c).hold = .wait (.waita d a b) ∧ (v.task c).hold = .changed (.waita d a b)) ∨
          ∃ d h b, (t.task c).hold = .wait (.waitc d h) ∧ (v.task c).hold = .counted (.waitc d h) b)

/-- The words that the spec writes out for instructions of every family decode to those instructions:
integer, immediate, branch, memory, atomic, fence, engine, work, message, system and element ops. -/
def Obligations.DecodeWords : Prop :=
  decodeTableWord 32 0x02B4A8C0 = some (.add 11 9 10 0 1 1) ∧
    decodeTableWord 32 0x2CB50007 = some (.srai 11 10 7) ∧
    decodeTableWord 64 0x0010000032900000 = some (.li 9 0x100000) ∧
    decodeTableWord 32 0x38900020 = some (.csrr 9 0x020) ∧
    decodeTableWord 32 0x44DFFFF4 = some (.bnez 13 0xFFFF4) ∧
    decodeTableWord 32 0x66A4FFC0 = some (.ldN16 10 9 0xFF8 0) ∧
    decodeTableWord 32 0x92C4AF03 = some (.cas 12 9 11 1 0 3) ∧
    decodeTableWord 32 0x7AB00005 = some (.fence 11 5) ∧
    decodeTableWord 32 0xA6A87043 = some (.merge 10 16 0 0 1 3) ∧
    decodeTableWord 32 0xC0A83000 = some (.launch 10 16 3) ∧
    decodeTableWord 32 0xD2AA3000 = some (.sendm 10 20) ∧
    decodeTableWord 32 0xE2000001 = some (.trap 1) ∧
    decodeTableWord 24 0x043808 = some (.vadd 0 0 1) ∧
    decodeTableWord 24 0x4C3C01 = some (.vfma 4 0 1) ∧
    decodeTableWord 24 0x940810 = some (.vstm 1 0 16) ∧
    decodeTableWord 24 0xC8B8FF = some (.mrun 0 1 0 0xFF)

/-- For every well-formed instruction that has a word, at every value of its operands: the bytes of its
encoding, followed by any bytes, decode to it and leave those bytes; a guarded token send toward
anything but the sequencer is refused by the name of the guard check instead. Conversely a word that
decodes to an instruction is that instruction's encoding, so no word has two meanings and no bit of a
word is ignored. -/
def Obligations.EncodeDecodeRoundTrip : Prop :=
  (∀ (i : Instr) (rest : List Byte), Instr.wf i = true →
    (i.form = .sForm → decode (leBytes i.size (encode i) ++ rest) = .ok (i, rest)) ∧
    (i.form = .eForm → (∀ g k, i = .tksend g k → g = 7 ∨ k = 0) →
      decodeOp (leBytes 3 (encode i) ++ rest) = .ok (i, rest)) ∧
    ∀ g k, i = .tksend g k → g ≠ 7 → k ≠ 0 → decodeOp (leBytes 3 (encode i) ++ rest) = .error .guard) ∧
    (∀ w i, w < 2 ^ 64 → (isLong w = false → w < 2 ^ 32) → decodeS w = .ok i → encode i = w ∧ Instr.wf i = true) ∧
    ∀ w i, w < 2 ^ 24 → decodeE w = .ok i → encode i = w ∧ Instr.wf i = true

/-- For every state whose memory stands in its canonical form (addresses strictly rising, no entry equal
to what an unlisted address reads as): every state that a step answers has its memory in that form,
whatever turn is taken. The form is the model's own (notes/assumptions/5.md); with it equal contents of
memory are equal data. -/
def Obligations.InvariantKept : Prop :=
  ∀ s t : State, State.Inv s → step s = .next t → State.Inv t

/-- The invariant that every step keeps holds of the state right after reset, and of that state with any
word placed for the next step to run. What an unlisted byte reads as is the model's choice
(notes/assumptions/5.md). -/
def Obligations.ResetMemoryCanonical : Prop :=
  State.Inv State.reset ∧ ∀ (s : State) (nbits w : Nat), State.Inv s → State.Inv (s.withFetchWord nbits w)
end

