-- ==== Sys2Proof/Laws/Codec.lean ====
section
/-! SUPPORT. Reading back what a codec of the save area wrote gives the value written (R34: an incoming owner
finds the state that its own rsave left): the laws of the codecs' building blocks, and those of the parts that are
plain data throughout. -/

namespace Sys2Proof.Machine

/-- Whatever bytes follow, the value read is the one written and the bytes after it are the ones that followed; every
value takes at least one byte. -/
structure Codec.Lawful {α : Type} (c : Codec α) : Prop where
  reads : ∀ x r, c.dec (c.enc x ++ r) = (x, r)
  long : ∀ x, c.enc x ≠ []

theorem unvarint_varint : ∀ (f n : Nat) (r : List Byte), n < 2 ^ (f + 1) → unvarint (varint f n ++ r) = (n, r)
  | 0, n, r, h => by
    have h2 : n < 2 := by simpa using h
    have : (BitVec.ofNat 8 n).toNat = n := by simp [BitVec.toNat_ofNat]; omega
    simp only [varint, List.cons_append, List.nil_append, unvarint, this]
    rw [if_pos (by omega)]
  | f + 1, n, r, h => by
    by_cases hn : n < 128
    · have : (BitVec.ofNat 8 n).toNat = n := by simp [BitVec.toNat_ofNat]; omega
      simp only [varint, if_pos hn, List.cons_append, List.nil_append, unvarint, this]
    · have hd : n / 128 < 2 ^ (f + 1) := by
        rw [Nat.pow_succ] at h
        omega
      have : (BitVec.ofNat 8 (n % 128 + 128)).toNat = n % 128 + 128 := by simp [BitVec.toNat_ofNat]; omega
      simp only [varint, if_neg hn, List.cons_append, unvarint, this, unvarint_varint f (n / 128) r hd]
      rw [if_neg (by omega)]
      simp only [Prod.mk.injEq, and_true]
      omega

theorem varint_ne_nil (f n : Nat) : varint f n ≠ [] := by
  cases f with
  | zero => simp [varint]
  | succ f => simp only [varint]; split <;> simp

theorem Codec.nat_lawful : Codec.nat.Lawful :=
  ⟨fun n r => unvarint_varint n.log2 n r Nat.lt_log2_self, fun n => varint_ne_nil _ n⟩

theorem Codec.Lawful.pair {α β : Type} {a : Codec α} {b : Codec β} (ha : a.Lawful) (hb : b.Lawful) :
    (a.pair b).Lawful :=
  ⟨fun x r => by simp [Codec.pair, ha.reads, hb.reads], fun x => by simp [Codec.pair, ha.long]⟩

/-- What a codec through a pair of functions reads back, also where the pair forgets a part of the value. -/
theorem Codec.Lawful.reads_conv {α β : Type} {c : Codec α} (hc : c.Lawful) (f : α → β) (g : β → α) (y : β)
    (r : List Byte) : (c.conv f g).dec ((c.conv f g).enc y ++ r) = (f (g y), r) := by
  simp [Codec.conv, hc.reads]

theorem Codec.Lawful.conv {α β : Type} {c : Codec α} (hc : c.Lawful) {f : α → β} {g : β → α} (h : ∀ y, f (g y) = y) :
    (c.conv f g).Lawful :=
  ⟨fun y r => by simp [Codec.conv, hc.reads, h], fun y => hc.long _⟩

theorem decMany_flatMap {α : Type} {c : Codec α} (hc : c.Lawful) (r : List Byte) :
    ∀ l : List α, decMany c.dec l.length (l.flatMap c.enc ++ r) = (l, r)
  | [] => rfl
  | x :: l => by
    have hx := hc.reads x (l.flatMap c.enc ++ r)
    rw [List.flatMap_cons, List.append_assoc, List.length_cons]
    cases he : c.enc x with
    | nil => exact absurd he (hc.long x)
    | cons b m =>
      rw [he] at hx
      simp only [List.cons_append] at hx ⊢
      simp only [decMany, hx, decMany_flatMap hc r l]

theorem Codec.Lawful.list {α : Type} {c : Codec α} (hc : c.Lawful) : c.list.Lawful :=
  ⟨fun l r => by
    simp only [Codec.list, List.append_assoc, Codec.nat_lawful.reads, decMany_flatMap hc r l],
   fun l => by simp [Codec.list, Codec.nat_lawful.long]⟩

theorem Codec.Lawful.opt {α : Type} {c : Codec α} (hc : c.Lawful) : c.opt.Lawful :=
  hc.list.conv fun x => by cases x <;> rfl

theorem Codec.Lawful.map {α : Type} {c : Codec α} (hc : c.Lawful) : c.map.Lawful := (Codec.nat_lawful.pair hc).list

theorem Codec.Lawful.orZero {α : Type} [DecidableEq α] {c : Codec α} (hc : c.Lawful) (z : α) : (c.orZero z).Lawful :=
  hc.opt.conv fun x => by by_cases h : x = z <;> simp [h]

theorem Codec.bool_lawful : Codec.bool.Lawful := Codec.nat_lawful.conv fun b => by cases b <;> rfl

theorem Codec.two_lawful : Codec.two.Lawful := Codec.nat_lawful.pair Codec.nat_lawful

theorem Codec.int_lawful : Codec.int.Lawful := Codec.nat_lawful.conv fun i => by
  by_cases h : 0 ≤ i
  · simp [h]
  · simp only [h, if_false]
    rw [if_neg (by omega)]
    omega

theorem natToLe_length : ∀ n x : Nat, (natToLe x n).length = n
  | 0, _ => rfl
  | n + 1, x => by simp [natToLe, natToLe_length n]

theorem leToNat_natToLe : ∀ n x : Nat, leToNat (natToLe x n) = x % 256 ^ n
  | 0, x => by simp [natToLe, leToNat, Nat.mod_one]
  | n + 1, x => by
    simp only [natToLe, leToNat, leToNat_natToLe n, BitVec.toNat_ofNat]
    rw [show 256 ^ (n + 1) = 256 * 256 ^ n from by rw [Nat.pow_succ, Nat.mul_comm], Nat.mod_mul]
    simp

theorem Codec.bv_lawful {n : Nat} (hn : 0 < n) : (Codec.bv n).Lawful := by
  refine ⟨fun x r => ?_, fun x h => ?_⟩
  · have hlen : (natToLe x.toNat ((n + 7) / 8)).length = (n + 7) / 8 := natToLe_length _ _
    have hx : x.toNat % 256 ^ ((n + 7) / 8) = x.toNat := by
      apply Nat.mod_eq_of_lt
      refine Nat.lt_of_lt_of_le x.isLt ?_
      rw [show (256 : Nat) = 2 ^ 8 from rfl, ← Nat.pow_mul]
      exact Nat.pow_le_pow_right (by decide) (by omega)
    simp only [Codec.bv]
    rw [List.take_append_of_le_length (by omega), List.drop_append_of_le_length (by omega),
      List.take_of_length_le (by omega), List.drop_of_length_le (by omega), leToNat_natToLe, hx]
    simp
  · have := natToLe_length ((n + 7) / 8) x.toNat
    simp only [Codec.bv] at h
    rw [h, List.length_nil] at this
    omega

theorem Codec.word_lawful : Codec.word.Lawful := Codec.bv_lawful (by decide)

theorem Codec.sword_lawful : Codec.sword.Lawful :=
  ((Codec.bv_lawful (by decide)).pair ((Codec.bv_lawful (by decide)).pair Codec.bool_lawful)).conv fun _ => rfl

/-- R35: a queue word comes back as it was saved. -/
theorem Codec.qentry_lawful : Codec.qentry.Lawful :=
  ((Codec.bv_lawful (by decide)).list.pair ((Codec.bv_lawful (by decide)).pair (Codec.nat_lawful.pair
    (Codec.nat_lawful.opt.pair (Codec.bool_lawful.pair (Codec.two_lawful.opt.pair (Codec.nat_lawful.pair
      (Codec.nat_lawful.pair Codec.bool_lawful)))))))).conv fun _ => rfl

theorem Codec.agFault_lawful : Codec.agFault.Lawful :=
  (Codec.two_lawful.pair Codec.two_lawful).conv fun _ => rfl

/-! ### The codecs that hold the common values in less room -/

/-- Of the first codec only the values that it is given count. -/
theorem Codec.either_lawful {α : Type} {p : α → Bool} {a b : Codec α}
    (ha : ∀ x r, p x = true → a.dec (a.enc x ++ r) = (x, r)) (hb : b.Lawful) : (Codec.either p a b).Lawful := by
  refine ⟨fun x r => ?_, fun x => ?_⟩ <;> by_cases h : p x = true
  · simp [Codec.either, h, ha x r h]
  · simp [Codec.either, h, hb.reads]
  · simp [Codec.either, h]
  · simp [Codec.either, h]

theorem Codec.words_lawful {k : Nat} (hk : 0 < k) : (Codec.words k).Lawful := by
  refine Codec.either_lawful (fun x r h => ?_) Codec.nat_lawful.list
  rw [(Codec.bv_lawful (n := 8 * k) (by omega)).list.reads_conv, List.map_map]
  congr 1
  conv => rhs; rw [← List.map_id x]
  refine List.map_congr_left fun n hn => ?_
  have h1 : n < 2 ^ (8 * k) := by simpa using List.all_eq_true.mp h n hn
  simp [Nat.mod_eq_of_lt h1]

theorem upTo_length (n : Nat) : (upTo n).length = n := by simp [upTo]

theorem Codec.table_lawful {α : Type} [DecidableEq α] (n : Nat) (z : α) {c : Codec α} (hc : c.Lawful) :
    (Codec.table n z c).Lawful := by
  refine Codec.either_lawful (fun m r h => ?_) hc.map
  have hd := decMany_flatMap hc r ((upTo n).map (mapGet z m))
  rw [List.length_map, upTo_length] at hd
  simpa [hd] using h

theorem undeltas_deltas : ∀ (l : List Nat) (p : Nat), undeltas p (deltas p l) = l
  | [], _ => rfl
  | n :: l, p => by
    have h : ((p : Int) + ((n : Int) - p)).toNat = n := by omega
    simp only [deltas, undeltas, h, undeltas_deltas l n]

theorem Codec.close_lawful : Codec.close.Lawful := Codec.int_lawful.list.conv fun l => undeltas_deltas l 0

theorem bits_of_sum (a b c d e f : Bool) (n : Nat) :
    let bit (x : Bool) (k : Nat) : Nat := if x then 2 ^ k else 0
    let h := bit a 0 + bit b 1 + bit c 2 + bit d 3 + bit e 4 + bit f 5 + 2 ^ 6 * n
    nbit h 0 = a ∧ nbit h 1 = b ∧ nbit h 2 = c ∧ nbit h 3 = d ∧ nbit h 4 = e ∧ nbit h 5 = f ∧ h / 2 ^ 6 = n := by
  cases a <;> cases b <;> cases c <;> cases d <;> cases e <;> cases f <;> simp [nbit] <;> omega

/-- What the head of a queue word's bytes says. -/
theorem QEntry.head_bits (q : QEntry) :
    nbit q.head 0 = q.landed ∧ nbit q.head 1 = q.closed ∧ nbit q.head 2 = q.addr.isSome ∧
      nbit q.head 3 = q.block.isSome ∧ nbit q.head 4 = decide (q.bytes.length = 64) ∧
      nbit q.head 5 = decide (q.token = -1) ∧ q.head / 2 ^ 6 = q.size :=
  bits_of_sum _ _ _ _ _ _ q.size

/-- A queue word comes back after the word before it. -/
theorem queueWordDec_queueWordEnc (p q : QEntry) (r : List Byte) :
    queueWordDec p (queueWordEnc p q ++ r) = (q, r) := by
  obtain ⟨h0, h1, h2, h3, h4, h5, h6⟩ := q.head_bits
  have hb : ∀ l : List Byte, q.bytes.length = 64 →
      decMany (Codec.bv 8).dec 64 (q.bytes.flatMap (Codec.bv 8).enc ++ l) = (q.bytes, l) := fun l h => by
    have := decMany_flatMap (Codec.bv_lawful (n := 8) (by decide)) l q.bytes
    rwa [h] at this
  have hbytes := (Codec.bv_lawful (n := 8) (by decide)).list.reads
  have h16 := (Codec.bv_lawful (n := 16) (by decide)).reads
  unfold queueWordEnc queueWordDec
  simp only [List.append_assoc, Codec.nat_lawful.reads, h0, h1, h2, h3, h4, h5, h6]
  obtain ⟨bytes, token, index, addr, landed, block, size, born, closed⟩ := q
  simp only at hb ⊢
  rcases addr with _ | a <;> rcases block with _ | b <;> by_cases hl : bytes.length = 64 <;>
    by_cases ht : token = 65535#16 <;> simp [decAs, Codec.int_lawful.reads, Codec.two_lawful.reads, Codec.bytes, hbytes, h16, hl, ht, hb]

theorem queueDec_queueEnc (r : List Byte) :
    ∀ (l : List QEntry) (p : QEntry), queueDec p l.length (queueEnc p l ++ r) = (l, r)
  | [], _ => rfl
  | q :: l, p => by
    simp only [queueEnc, List.length_cons, queueDec, List.append_assoc, queueWordDec_queueWordEnc,
      queueDec_queueEnc r l q]

/-- R35: a decoupling queue comes back as it was saved. -/
theorem Codec.queue_lawful : Codec.queue.Lawful :=
  ⟨fun l r => by simp only [Codec.queue, List.append_assoc, Codec.nat_lawful.reads, queueDec_queueEnc],
   fun l => by simp [Codec.queue, Codec.nat_lawful.long]⟩

/-- R35: an address-generator port comes back as it was saved. -/
theorem Codec.agPort_lawful : Codec.agPort.Lawful :=
  ((Codec.nat_lawful.pair (Codec.nat_lawful.pair (Codec.nat_lawful.list.pair (Codec.int_lawful.list.pair
      (Codec.nat_lawful.pair (Codec.bool_lawful.pair Codec.nat_lawful)))))).pair
    ((Codec.nat_lawful.pair (Codec.bool_lawful.pair (Codec.bool_lawful.pair
      ((Codec.nat_lawful.pair Codec.bool_lawful).opt.pair (Codec.two_lawful.pair Codec.close_lawful))))).pair
     (Codec.queue_lawful.pair (Codec.two_lawful.opt.pair (Codec.agFault_lawful.opt.pair
       Codec.nat_lawful))))).conv fun _ => rfl

theorem Codec.message_lawful : Codec.message.Lawful :=
  (Codec.nat_lawful.pair (Codec.word_lawful.list.pair Codec.word_lawful)).conv fun _ => rfl

theorem Codec.tracker_lawful : Codec.tracker.Lawful := Codec.two_lawful.conv fun _ => rfl

theorem Codec.charges_lawful : Codec.charges.Lawful :=
  ((Codec.nat_lawful.pair (Codec.two_lawful.pair Codec.two_lawful)).pair
    (Codec.two_lawful.pair Codec.two_lawful)).conv fun _ => rfl

/-- R36: a codebook copy comes back as it was saved. -/
theorem Codec.codebook_lawful : Codec.codebook.Lawful :=
  (Codec.two_lawful.pair Codec.int_lawful.list).conv fun _ => rfl

theorem Codec.grant_lawful : Codec.grant.Lawful :=
  (Codec.two_lawful.pair (Codec.two_lawful.pair Codec.two_lawful)).conv fun _ => rfl

theorem Codec.run_lawful : Codec.run.Lawful :=
  ((Codec.two_lawful.pair Codec.two_lawful).pair
    (Codec.nat_lawful.pair (Codec.bool_lawful.pair (Codec.bool_lawful.pair Codec.nat_lawful)))).conv fun _ => rfl

theorem Codec.cells_lawful : Codec.cells.Lawful := (Codec.bv_lawful (by decide)).map

/-- R35: a result in flight comes back as it was saved. -/
theorem Codec.effect_lawful : Codec.effect.Lawful := by
  have hn := Codec.nat_lawful.reads
  refine ⟨fun x r => ?_, fun x => by cases x <;> simp [Codec.effect, effectEnc, Codec.nat_lawful.long]⟩
  have h16 := (Codec.nat_lawful.pair (Codec.bv_lawful (n := 16) (by decide))).reads
  have h512 := (Codec.nat_lawful.pair (Codec.bv_lawful (n := 512) (by decide))).reads
  have hf := (Codec.bv_lawful (n := 7) (by decide)).reads
  have ha := (Codec.nat_lawful.pair (Codec.nat_lawful.list.pair Codec.bool_lawful)).reads
  have hl := (Codec.two_lawful.pair Codec.bool_lawful).reads
  cases x <;> simp [Codec.effect, Codec.flags, effectEnc, effectDec, decAs, hn, h16, h512, hf, ha, hl,
    Codec.cells_lawful.reads, Codec.grant_lawful.opt.reads, Codec.run_lawful.reads, Codec.two_lawful.reads,
    (Codec.nat_lawful.pair Codec.agPort_lawful).reads]

/-- R34, R35: an element's record gives back everything but its memory, its tags and its slices, which stand
elsewhere. -/
theorem Codec.element_reads (e : Element) (r : List Byte) :
    Codec.element.dec (Codec.element.enc e ++ r) = (e.bare, r) :=
  Codec.Lawful.reads_conv
    (((Codec.words_lawful (by decide)).pair ((Codec.words_lawful (by decide)).pair
        (Codec.words_lawful (by decide)))).pair
      ((((Codec.table_lawful _ _ (Codec.bv_lawful (by decide))).pair
         ((Codec.table_lawful _ _ (Codec.bv_lawful (by decide))).pair
          (Codec.sword_lawful.opt.map.pair (Codec.bv_lawful (by decide)))))).pair
       ((Codec.agPort_lawful.pair Codec.agPort_lawful).pair
        ((Codec.grant_lawful.opt.pair (Codec.run_lawful.opt.pair
          (Codec.nat_lawful.pair Codec.effect_lawful).list)).pair
         (Codec.nat_lawful.map.pair Codec.qentry_lawful.opt.map))))) _ _ e r

theorem Codec.stall_lawful : Codec.stall.Lawful := Codec.nat_lawful.conv fun x => by cases x <;> rfl

/-- R35: an island's part of the sequencer record gives back everything but what its elements' records hold. -/
theorem Codec.island_reads (i : Island) (r : List Byte) :
    Codec.island.dec (Codec.island.enc i ++ r) = ({ i with counter := 0, flags := 0, watch := 0 }, r) :=
  Codec.Lawful.reads_conv
    (((Codec.two_lawful.pair Codec.two_lawful).pair (Codec.nat_lawful.pair Codec.two_lawful)).pair
      ((Codec.nat_lawful.opt.pair (Codec.nat_lawful.pair (Codec.stall_lawful.opt.pair (Codec.bool_lawful.pair
        Codec.nat_lawful)))).pair (Codec.charges_lawful.pair Codec.charges_lawful))) _ _ i r

/-- R35: a turnstile's record gives back everything but its words, and how they are shared out. -/
theorem Codec.turnstile_reads (n : Share) (t : Turnstile) (r : List Byte) :
    Codec.turnstile.dec (Codec.turnstile.enc (n, t) ++ r) = ((n, t.bare), r) :=
  Codec.Lawful.reads_conv
    ((Codec.two_lawful.pair (Codec.nat_lawful.list.pair Codec.sword_lawful.list)).pair
      (((Codec.two_lawful.pair Codec.two_lawful).pair (Codec.two_lawful.pair Codec.two_lawful)).pair
        (Codec.two_lawful.pair Codec.two_lawful))) _ _ (n, t) r

/-- R35: with the words of the turnstile data, its record gives a turnstile back whole. -/
theorem Turnstile.shared_share (t : Turnstile) : t.bare.shared t.share (t.words.take 32) = t := by
  have hz (l : List (Nat × SWord)) : (l.map (·.1)).zip (l.map (·.2)) = l := by
    induction l with
    | nil => rfl
    | cons x l ih => simp [ih]
  simp [Turnstile.shared, Turnstile.bare, Turnstile.share, Turnstile.words, List.take_append_drop, hz]

end Sys2Proof.Machine
end

