-- ==== Sys2Proof/Laws/Maps.lean ====
section
/-! SUPPORT. The laws of the sparse table and of memory: read after write, and the canonical form, which
every write keeps. -/

namespace Sys2Proof.Machine

variable {α : Type}

/-! ### Read after write -/

theorem mapGet_mapErase_same (z : α) (m : Map α) (a : Nat) : mapGet z (mapErase m a) a = z := by
  induction m with
  | nil => rfl
  | cons p m ih =>
    obtain ⟨k, v⟩ := p
    by_cases h : a = k
    · simpa [mapErase, h] using h ▸ ih
    · simp [mapErase, mapGet, h, ih]

theorem mapGet_mapErase_ne (z : α) (m : Map α) {a b : Nat} (hb : b ≠ a) :
    mapGet z (mapErase m a) b = mapGet z m b := by
  induction m with
  | nil => rfl
  | cons p m ih =>
    obtain ⟨k, v⟩ := p
    by_cases h : a = k
    · subst h; simp [mapErase, mapGet, hb, ih]
    · by_cases h' : b = k <;> simp [mapErase, mapGet, h, h', ih]

theorem mapGet_mapPut_same (z : α) (m : Map α) (a : Nat) (x : α) : mapGet z (mapPut m a x) a = x := by
  induction m with
  | nil => simp [mapPut, mapGet]
  | cons p m ih =>
    obtain ⟨k, v⟩ := p
    by_cases h : a = k
    · simp [mapPut, mapGet, h]
    · by_cases h' : a < k <;> simp [mapPut, mapGet, h, h', ih]

theorem mapGet_mapPut_ne (z : α) (m : Map α) {a b : Nat} (x : α) (hb : b ≠ a) :
    mapGet z (mapPut m a x) b = mapGet z m b := by
  induction m with
  | nil => simp [mapPut, mapGet, hb]
  | cons p m ih =>
    obtain ⟨k, v⟩ := p
    by_cases h : a = k
    · subst h; simp [mapPut, mapGet, hb]
    · by_cases h' : a < k
      · simp [mapPut, mapGet, h, h', hb]
      · by_cases h'' : b = k <;> simp [mapPut, mapGet, h, h', h'', ih]

variable [DecidableEq α]

@[simp] theorem mapGet_mapSet_same (z : α) (m : Map α) (a : Nat) (x : α) : mapGet z (mapSet z m a x) a = x := by
  unfold mapSet
  split
  · rename_i h; rw [h]; exact mapGet_mapErase_same z m a
  · exact mapGet_mapPut_same z m a x

theorem mapGet_mapSet_ne (z : α) (m : Map α) {a b : Nat} (x : α) (hb : b ≠ a) :
    mapGet z (mapSet z m a x) b = mapGet z m b := by
  unfold mapSet
  split
  · exact mapGet_mapErase_ne z m hb
  · exact mapGet_mapPut_ne z m x hb

theorem mapGet_mapSet (z : α) (m : Map α) (a b : Nat) (x : α) :
    mapGet z (mapSet z m a x) b = if b = a then x else mapGet z m b := by
  split
  · rename_i h; rw [h]; exact mapGet_mapSet_same z m a x
  · rename_i h; exact mapGet_mapSet_ne z m x h

/-! ### The canonical form of a table -/

theorem mapWf_mono {z : α} {lo lo' : Nat} (h : lo' ≤ lo) {m : Map α} (hm : mapWf z lo m = true) :
    mapWf z lo' m = true := by
  cases m with
  | nil => rfl
  | cons p m =>
    simp only [mapWf, Bool.and_eq_true, decide_eq_true_eq] at hm ⊢
    exact ⟨⟨by omega, hm.1.2⟩, hm.2⟩

theorem mapWf_mapErase {z : α} {lo : Nat} {m : Map α} (a : Nat) (hm : mapWf z lo m = true) :
    mapWf z lo (mapErase m a) = true := by
  induction m generalizing lo with
  | nil => rfl
  | cons p m ih =>
    obtain ⟨k, v⟩ := p
    simp only [mapWf, Bool.and_eq_true, decide_eq_true_eq] at hm
    by_cases h : a = k
    · simp only [mapErase, h, if_true]
      exact h ▸ ih (mapWf_mono (by omega) hm.2)
    · simp only [mapErase, h, if_false, mapWf, Bool.and_eq_true, decide_eq_true_eq]
      exact ⟨hm.1, ih hm.2⟩

theorem mapWf_mapPut {z : α} {lo : Nat} {m : Map α} (a : Nat) (x : α) (ha : lo ≤ a) (hx : x ≠ z)
    (hm : mapWf z lo m = true) : mapWf z lo (mapPut m a x) = true := by
  induction m generalizing lo with
  | nil => simp [mapPut, mapWf, ha, hx]
  | cons p m ih =>
    obtain ⟨k, v⟩ := p
    simp only [mapWf, Bool.and_eq_true, decide_eq_true_eq] at hm
    by_cases h : a = k
    · subst h; simp [mapPut, mapWf, ha, hx, hm.2]
    · by_cases h' : a < k
      · simp [mapPut, h, h', mapWf, ha, hx, hm.1.2, hm.2]
      · simp [mapPut, h, h', mapWf, hm.1.1, hm.1.2, ih (lo := k + 1) (by omega) hm.2]

/-- A write keeps the canonical form. -/
theorem mapWf_mapSet {z : α} {m : Map α} (a : Nat) (x : α) (hm : mapWf z 0 m = true) :
    mapWf z 0 (mapSet z m a x) = true := by
  unfold mapSet
  split
  · exact mapWf_mapErase a hm
  · rename_i h; exact mapWf_mapPut a x (Nat.zero_le a) h hm

/-! ### Memory -/

@[simp] theorem memGet_memSet_same (m : Map Byte) (a : Nat) (b : Byte) : memGet (memSet m a b) a = b := by
  unfold memGet memSet
  split
  · rename_i h; rw [h]; exact mapGet_mapErase_same _ m a
  · exact mapGet_mapPut_same _ m a b

theorem memGet_memSet_ne (m : Map Byte) {a c : Nat} (b : Byte) (h : c ≠ a) :
    memGet (memSet m a b) c = memGet m c := by
  unfold memGet memSet
  split
  · exact mapGet_mapErase_ne _ m h
  · exact mapGet_mapPut_ne _ m b h

/-- A byte after a write of consecutive bytes. -/
theorem memGet_memSetN (bs : List Byte) (m : Map Byte) (a c : Nat) :
    memGet (memSetN m a bs) c = if a ≤ c ∧ c < a + bs.length then bs.getD (c - a) 0 else memGet m c := by
  induction bs generalizing m a with
  | nil => simp [memSetN]
  | cons b bs ih =>
    rw [memSetN, ih]
    by_cases h : c = a
    · subst h
      have : ¬ (c + 1 ≤ c) := by omega
      simp [this]
    · rw [memGet_memSet_ne m b h]
      by_cases h1 : a + 1 ≤ c ∧ c < a + 1 + bs.length
      · have h2 : a ≤ c ∧ c < a + (b :: bs).length := by simp; omega
        rw [if_pos h1, if_pos h2, show c - a = (c - (a + 1)) + 1 by omega]
        simp
      · have h2 : ¬ (a ≤ c ∧ c < a + (b :: bs).length) := by simp; omega
        rw [if_neg h1, if_neg h2]

/-! ### The canonical form of memory -/

theorem memWfFrom_mono {lo lo' : Nat} (h : lo' ≤ lo) {m : Map Byte} (hm : memWfFrom lo m = true) :
    memWfFrom lo' m = true := by
  cases m with
  | nil => rfl
  | cons p m =>
    obtain ⟨k, v⟩ := p
    simp [memWfFrom] at hm ⊢
    exact ⟨⟨by omega, hm.1.2⟩, hm.2⟩

theorem memWfFrom_mapErase {lo : Nat} {m : Map Byte} (a : Nat) (hm : memWfFrom lo m = true) :
    memWfFrom lo (mapErase m a) = true := by
  induction m generalizing lo with
  | nil => rfl
  | cons p m ih =>
    obtain ⟨k, v⟩ := p
    simp [memWfFrom] at hm
    by_cases h : a = k
    · simp only [mapErase, h, if_true]
      exact h ▸ ih (memWfFrom_mono (by omega) hm.2)
    · simp [mapErase, h, memWfFrom, hm.1.1, hm.1.2, ih hm.2]

theorem memWfFrom_mapPut {lo : Nat} {m : Map Byte} (a : Nat) (b : Byte) (ha : lo ≤ a) (hb : b ≠ memDefault a)
    (hm : memWfFrom lo m = true) : memWfFrom lo (mapPut m a b) = true := by
  induction m generalizing lo with
  | nil => simp [mapPut, memWfFrom, ha, hb]
  | cons p m ih =>
    obtain ⟨k, v⟩ := p
    simp [memWfFrom] at hm
    by_cases h : a = k
    · subst h; simp [mapPut, memWfFrom, ha, hb, hm.2]
    · by_cases h' : a < k
      · simp [mapPut, h, h', memWfFrom, ha, hb, hm.1.2, hm.2]
      · simp [mapPut, h, h', memWfFrom, hm.1.1, hm.1.2, ih (lo := k + 1) (by omega) hm.2]

theorem memWfFrom_filter {lo : Nat} {m : Map Byte} (p : Nat × Byte → Bool) (hm : memWfFrom lo m = true) :
    memWfFrom lo (m.filter p) = true := by
  induction m generalizing lo with
  | nil => rfl
  | cons c m ih =>
    obtain ⟨k, v⟩ := c
    simp [memWfFrom] at hm
    by_cases h : p (k, v) = true
    · simp [h, memWfFrom, hm.1.1, hm.1.2, ih hm.2]
    · simp only [List.filter_cons, h]
      exact ih (memWfFrom_mono (by omega) hm.2)

theorem Memory.wf_memSet {m : Map Byte} (a : Nat) (b : Byte) (hm : Memory.wf m = true) :
    Memory.wf (memSet m a b) = true := by
  unfold memSet
  split
  · exact memWfFrom_mapErase a hm
  · rename_i h; exact memWfFrom_mapPut a b (Nat.zero_le a) h hm

theorem Memory.wf_memSetN {m : Map Byte} (bs : List Byte) (a : Nat) (hm : Memory.wf m = true) :
    Memory.wf (memSetN m a bs) = true := by
  induction bs generalizing m a with
  | nil => exact hm
  | cons b bs ih => exact ih (a + 1) (Memory.wf_memSet a b hm)

theorem Memory.wf_filter {m : Map Byte} (p : Nat × Byte → Bool) (hm : Memory.wf m = true) :
    Memory.wf (m.filter p) = true := memWfFrom_filter p hm

/-- A fold of single writes keeps the canonical form. -/
theorem Memory.wf_foldl {β : Type} (f : β → Nat) (g : β → Byte) (l : List β) {m : Map Byte}
    (hm : Memory.wf m = true) : Memory.wf (l.foldl (fun m c => memSet m (f c) (g c)) m) = true := by
  induction l generalizing m with
  | nil => exact hm
  | cons c l ih => exact ih (Memory.wf_memSet (f c) (g c) hm)

end Sys2Proof.Machine
end

