-- ==== Sys2Proof/Laws/State.lean ====
section
/-! SUPPORT. What each update of State does to each of its parts: read after write and frames. No proof
needs to unfold a record update. -/

namespace Sys2Proof.Machine

/-! ### Fields of State after an update -/

@[simp] theorem State.setPart_agenda (s : State) (p : Nat) (x : Partition) : (s.setPart p x).agenda = s.agenda := rfl
@[simp] theorem State.setPart_sched (s : State) (p : Nat) (x : Partition) : (s.setPart p x).sched = s.sched := rfl
@[simp] theorem State.setPart_cur (s : State) (p : Nat) (x : Partition) : (s.setPart p x).cur = s.cur := rfl
@[simp] theorem State.setPart_focus (s : State) (p : Nat) (x : Partition) : (s.setPart p x).focus = s.focus := rfl
@[simp] theorem State.setPart_free (s : State) (p : Nat) (x : Partition) : (s.setPart p x).free = s.free := rfl
@[simp] theorem State.setPart_pkg (s : State) (p : Nat) (x : Partition) : (s.setPart p x).pkg = s.pkg := rfl
@[simp] theorem State.setPart_tick (s : State) (p : Nat) (x : Partition) : (s.setPart p x).tick = s.tick := rfl
@[simp] theorem State.setPart_boot (s : State) (p : Nat) (x : Partition) : (s.setPart p x).boot = s.boot := rfl
@[simp] theorem State.setPart_mem (s : State) (p : Nat) (x : Partition) : (s.setPart p x).mem = s.mem := rfl
@[simp] theorem State.setPart_stores (s : State) (p : Nat) (x : Partition) : (s.setPart p x).stores = s.stores := rfl
@[simp] theorem State.setPart_poison (s : State) (p : Nat) (x : Partition) : (s.setPart p x).poison = s.poison := rfl
@[simp] theorem State.setPart_bad (s : State) (p : Nat) (x : Partition) : (s.setPart p x).bad = s.bad := rfl
@[simp] theorem State.setPart_waysOff (s : State) (p : Nat) (x : Partition) : (s.setPart p x).waysOff = s.waysOff := rfl
@[simp] theorem State.setPart_rowWork (s : State) (p : Nat) (x : Partition) : (s.setPart p x).rowWork = s.rowWork := rfl
@[simp] theorem State.setPart_spareRows (s : State) (p : Nat) (x : Partition) : (s.setPart p x).spareRows = s.spareRows := rfl
@[simp] theorem State.setPart_epSent (s : State) (p : Nat) (x : Partition) : (s.setPart p x).epSent = s.epSent := rfl
@[simp] theorem State.setPart_deadPkgs (s : State) (p : Nat) (x : Partition) : (s.setPart p x).deadPkgs = s.deadPkgs := rfl
@[simp] theorem State.setPart_refusing (s : State) (p : Nat) (x : Partition) : (s.setPart p x).refusing = s.refusing := rfl
@[simp] theorem State.setPart_frametab (s : State) (p : Nat) (x : Partition) : (s.setPart p x).frametab = s.frametab := rfl
@[simp] theorem State.setPart_health (s : State) (p : Nat) (x : Partition) : (s.setPart p x).health = s.health := rfl
@[simp] theorem State.setPart_snapAt (s : State) (p : Nat) (x : Partition) : (s.setPart p x).snapAt = s.snapAt := rfl
@[simp] theorem State.setPart_dump (s : State) (p : Nat) (x : Partition) : (s.setPart p x).dump = s.dump := rfl
@[simp] theorem State.setPart_stews (s : State) (p : Nat) (x : Partition) : (s.setPart p x).stews = s.stews := rfl
@[simp] theorem State.setPart_regions (s : State) (p : Nat) (x : Partition) : (s.setPart p x).regions = s.regions := rfl
@[simp] theorem State.setPart_ports (s : State) (p : Nat) (x : Partition) : (s.setPart p x).ports = s.ports := rfl
@[simp] theorem State.setPart_barriers (s : State) (p : Nat) (x : Partition) : (s.setPart p x).barriers = s.barriers := rfl
@[simp] theorem State.setPart_tlbs (s : State) (p : Nat) (x : Partition) : (s.setPart p x).tlbs = s.tlbs := rfl
@[simp] theorem State.setPart_walks (s : State) (p : Nat) (x : Partition) : (s.setPart p x).walks = s.walks := rfl
@[simp] theorem State.setPart_scrubs (s : State) (p : Nat) (x : Partition) : (s.setPart p x).scrubs = s.scrubs := rfl
@[simp] theorem State.setPart_spills (s : State) (p : Nat) (x : Partition) : (s.setPart p x).spills = s.spills := rfl
@[simp] theorem State.setPart_saves (s : State) (p : Nat) (x : Partition) : (s.setPart p x).saves = s.saves := rfl
@[simp] theorem State.setPart_kept (s : State) (p : Nat) (x : Partition) : (s.setPart p x).kept = s.kept := rfl
@[simp] theorem State.setPart_sent (s : State) (p : Nat) (x : Partition) : (s.setPart p x).sent = s.sent := rfl
@[simp] theorem State.setPart_boxes (s : State) (p : Nat) (x : Partition) : (s.setPart p x).boxes = s.boxes := rfl
@[simp] theorem State.setPart_icaches (s : State) (p : Nat) (x : Partition) : (s.setPart p x).icaches = s.icaches := rfl
@[simp] theorem State.setPart_flash (s : State) (p : Nat) (x : Partition) : (s.setPart p x).flash = s.flash := rfl
@[simp] theorem State.setPart_fuses (s : State) (p : Nat) (x : Partition) : (s.setPart p x).fuses = s.fuses := rfl
@[simp] theorem State.setPart_hostReads (s : State) (p : Nat) (x : Partition) : (s.setPart p x).hostReads = s.hostReads := rfl
@[simp] theorem State.setPart_answers (s : State) (p : Nat) (x : Partition) : (s.setPart p x).answers = s.answers := rfl

@[simp] theorem State.setStew_agenda (s : State) (p : Nat) (x : Steward) : (s.setStew p x).agenda = s.agenda := rfl
@[simp] theorem State.setStew_sched (s : State) (p : Nat) (x : Steward) : (s.setStew p x).sched = s.sched := rfl
@[simp] theorem State.setStew_cur (s : State) (p : Nat) (x : Steward) : (s.setStew p x).cur = s.cur := rfl
@[simp] theorem State.setStew_focus (s : State) (p : Nat) (x : Steward) : (s.setStew p x).focus = s.focus := rfl
@[simp] theorem State.setStew_free (s : State) (p : Nat) (x : Steward) : (s.setStew p x).free = s.free := rfl
@[simp] theorem State.setStew_pkg (s : State) (p : Nat) (x : Steward) : (s.setStew p x).pkg = s.pkg := rfl
@[simp] theorem State.setStew_tick (s : State) (p : Nat) (x : Steward) : (s.setStew p x).tick = s.tick := rfl
@[simp] theorem State.setStew_boot (s : State) (p : Nat) (x : Steward) : (s.setStew p x).boot = s.boot := rfl
@[simp] theorem State.setStew_mem (s : State) (p : Nat) (x : Steward) : (s.setStew p x).mem = s.mem := rfl
@[simp] theorem State.setStew_stores (s : State) (p : Nat) (x : Steward) : (s.setStew p x).stores = s.stores := rfl
@[simp] theorem State.setStew_poison (s : State) (p : Nat) (x : Steward) : (s.setStew p x).poison = s.poison := rfl
@[simp] theorem State.setStew_bad (s : State) (p : Nat) (x : Steward) : (s.setStew p x).bad = s.bad := rfl
@[simp] theorem State.setStew_waysOff (s : State) (p : Nat) (x : Steward) : (s.setStew p x).waysOff = s.waysOff := rfl
@[simp] theorem State.setStew_rowWork (s : State) (p : Nat) (x : Steward) : (s.setStew p x).rowWork = s.rowWork := rfl
@[simp] theorem State.setStew_spareRows (s : State) (p : Nat) (x : Steward) : (s.setStew p x).spareRows = s.spareRows := rfl
@[simp] theorem State.setStew_epSent (s : State) (p : Nat) (x : Steward) : (s.setStew p x).epSent = s.epSent := rfl
@[simp] theorem State.setStew_deadPkgs (s : State) (p : Nat) (x : Steward) : (s.setStew p x).deadPkgs = s.deadPkgs := rfl
@[simp] theorem State.setStew_refusing (s : State) (p : Nat) (x : Steward) : (s.setStew p x).refusing = s.refusing := rfl
@[simp] theorem State.setStew_frametab (s : State) (p : Nat) (x : Steward) : (s.setStew p x).frametab = s.frametab := rfl
@[simp] theorem State.setStew_health (s : State) (p : Nat) (x : Steward) : (s.setStew p x).health = s.health := rfl
@[simp] theorem State.setStew_snapAt (s : State) (p : Nat) (x : Steward) : (s.setStew p x).snapAt = s.snapAt := rfl
@[simp] theorem State.setStew_dump (s : State) (p : Nat) (x : Steward) : (s.setStew p x).dump = s.dump := rfl
@[simp] theorem State.setStew_parts (s : State) (p : Nat) (x : Steward) : (s.setStew p x).parts = s.parts := rfl
@[simp] theorem State.setStew_regions (s : State) (p : Nat) (x : Steward) : (s.setStew p x).regions = s.regions := rfl
@[simp] theorem State.setStew_ports (s : State) (p : Nat) (x : Steward) : (s.setStew p x).ports = s.ports := rfl
@[simp] theorem State.setStew_barriers (s : State) (p : Nat) (x : Steward) : (s.setStew p x).barriers = s.barriers := rfl
@[simp] theorem State.setStew_tlbs (s : State) (p : Nat) (x : Steward) : (s.setStew p x).tlbs = s.tlbs := rfl
@[simp] theorem State.setStew_walks (s : State) (p : Nat) (x : Steward) : (s.setStew p x).walks = s.walks := rfl
@[simp] theorem State.setStew_scrubs (s : State) (p : Nat) (x : Steward) : (s.setStew p x).scrubs = s.scrubs := rfl
@[simp] theorem State.setStew_spills (s : State) (p : Nat) (x : Steward) : (s.setStew p x).spills = s.spills := rfl
@[simp] theorem State.setStew_saves (s : State) (p : Nat) (x : Steward) : (s.setStew p x).saves = s.saves := rfl
@[simp] theorem State.setStew_kept (s : State) (p : Nat) (x : Steward) : (s.setStew p x).kept = s.kept := rfl
@[simp] theorem State.setStew_sent (s : State) (p : Nat) (x : Steward) : (s.setStew p x).sent = s.sent := rfl
@[simp] theorem State.setStew_boxes (s : State) (p : Nat) (x : Steward) : (s.setStew p x).boxes = s.boxes := rfl
@[simp] theorem State.setStew_icaches (s : State) (p : Nat) (x : Steward) : (s.setStew p x).icaches = s.icaches := rfl
@[simp] theorem State.setStew_flash (s : State) (p : Nat) (x : Steward) : (s.setStew p x).flash = s.flash := rfl
@[simp] theorem State.setStew_fuses (s : State) (p : Nat) (x : Steward) : (s.setStew p x).fuses = s.fuses := rfl
@[simp] theorem State.setStew_hostReads (s : State) (p : Nat) (x : Steward) : (s.setStew p x).hostReads = s.hostReads := rfl
@[simp] theorem State.setStew_answers (s : State) (p : Nat) (x : Steward) : (s.setStew p x).answers = s.answers := rfl

@[simp] theorem State.setRegion_agenda (s : State) (p : Nat) (x : Region) : (s.setRegion p x).agenda = s.agenda := rfl
@[simp] theorem State.setRegion_sched (s : State) (p : Nat) (x : Region) : (s.setRegion p x).sched = s.sched := rfl
@[simp] theorem State.setRegion_cur (s : State) (p : Nat) (x : Region) : (s.setRegion p x).cur = s.cur := rfl
@[simp] theorem State.setRegion_focus (s : State) (p : Nat) (x : Region) : (s.setRegion p x).focus = s.focus := rfl
@[simp] theorem State.setRegion_free (s : State) (p : Nat) (x : Region) : (s.setRegion p x).free = s.free := rfl
@[simp] theorem State.setRegion_pkg (s : State) (p : Nat) (x : Region) : (s.setRegion p x).pkg = s.pkg := rfl
@[simp] theorem State.setRegion_tick (s : State) (p : Nat) (x : Region) : (s.setRegion p x).tick = s.tick := rfl
@[simp] theorem State.setRegion_boot (s : State) (p : Nat) (x : Region) : (s.setRegion p x).boot = s.boot := rfl
@[simp] theorem State.setRegion_mem (s : State) (p : Nat) (x : Region) : (s.setRegion p x).mem = s.mem := rfl
@[simp] theorem State.setRegion_stores (s : State) (p : Nat) (x : Region) : (s.setRegion p x).stores = s.stores := rfl
@[simp] theorem State.setRegion_poison (s : State) (p : Nat) (x : Region) : (s.setRegion p x).poison = s.poison := rfl
@[simp] theorem State.setRegion_bad (s : State) (p : Nat) (x : Region) : (s.setRegion p x).bad = s.bad := rfl
@[simp] theorem State.setRegion_waysOff (s : State) (p : Nat) (x : Region) : (s.setRegion p x).waysOff = s.waysOff := rfl
@[simp] theorem State.setRegion_rowWork (s : State) (p : Nat) (x : Region) : (s.setRegion p x).rowWork = s.rowWork := rfl
@[simp] theorem State.setRegion_spareRows (s : State) (p : Nat) (x : Region) : (s.setRegion p x).spareRows = s.spareRows := rfl
@[simp] theorem State.setRegion_epSent (s : State) (p : Nat) (x : Region) : (s.setRegion p x).epSent = s.epSent := rfl
@[simp] theorem State.setRegion_deadPkgs (s : State) (p : Nat) (x : Region) : (s.setRegion p x).deadPkgs = s.deadPkgs := rfl
@[simp] theorem State.setRegion_refusing (s : State) (p : Nat) (x : Region) : (s.setRegion p x).refusing = s.refusing := rfl
@[simp] theorem State.setRegion_frametab (s : State) (p : Nat) (x : Region) : (s.setRegion p x).frametab = s.frametab := rfl
@[simp] theorem State.setRegion_health (s : State) (p : Nat) (x : Region) : (s.setRegion p x).health = s.health := rfl
@[simp] theorem State.setRegion_snapAt (s : State) (p : Nat) (x : Region) : (s.setRegion p x).snapAt = s.snapAt := rfl
@[simp] theorem State.setRegion_dump (s : State) (p : Nat) (x : Region) : (s.setRegion p x).dump = s.dump := rfl
@[simp] theorem State.setRegion_parts (s : State) (p : Nat) (x : Region) : (s.setRegion p x).parts = s.parts := rfl
@[simp] theorem State.setRegion_stews (s : State) (p : Nat) (x : Region) : (s.setRegion p x).stews = s.stews := rfl
@[simp] theorem State.setRegion_ports (s : State) (p : Nat) (x : Region) : (s.setRegion p x).ports = s.ports := rfl
@[simp] theorem State.setRegion_barriers (s : State) (p : Nat) (x : Region) : (s.setRegion p x).barriers = s.barriers := rfl
@[simp] theorem State.setRegion_tlbs (s : State) (p : Nat) (x : Region) : (s.setRegion p x).tlbs = s.tlbs := rfl
@[simp] theorem State.setRegion_walks (s : State) (p : Nat) (x : Region) : (s.setRegion p x).walks = s.walks := rfl
@[simp] theorem State.setRegion_scrubs (s : State) (p : Nat) (x : Region) : (s.setRegion p x).scrubs = s.scrubs := rfl
@[simp] theorem State.setRegion_spills (s : State) (p : Nat) (x : Region) : (s.setRegion p x).spills = s.spills := rfl
@[simp] theorem State.setRegion_saves (s : State) (p : Nat) (x : Region) : (s.setRegion p x).saves = s.saves := rfl
@[simp] theorem State.setRegion_kept (s : State) (p : Nat) (x : Region) : (s.setRegion p x).kept = s.kept := rfl
@[simp] theorem State.setRegion_sent (s : State) (p : Nat) (x : Region) : (s.setRegion p x).sent = s.sent := rfl
@[simp] theorem State.setRegion_boxes (s : State) (p : Nat) (x : Region) : (s.setRegion p x).boxes = s.boxes := rfl
@[simp] theorem State.setRegion_icaches (s : State) (p : Nat) (x : Region) : (s.setRegion p x).icaches = s.icaches := rfl
@[simp] theorem State.setRegion_flash (s : State) (p : Nat) (x : Region) : (s.setRegion p x).flash = s.flash := rfl
@[simp] theorem State.setRegion_fuses (s : State) (p : Nat) (x : Region) : (s.setRegion p x).fuses = s.fuses := rfl
@[simp] theorem State.setRegion_hostReads (s : State) (p : Nat) (x : Region) : (s.setRegion p x).hostReads = s.hostReads := rfl
@[simp] theorem State.setRegion_answers (s : State) (p : Nat) (x : Region) : (s.setRegion p x).answers = s.answers := rfl

@[simp] theorem State.setPort_agenda (s : State) (p : Nat) (x : Port) : (s.setPort p x).agenda = s.agenda := rfl
@[simp] theorem State.setPort_sched (s : State) (p : Nat) (x : Port) : (s.setPort p x).sched = s.sched := rfl
@[simp] theorem State.setPort_cur (s : State) (p : Nat) (x : Port) : (s.setPort p x).cur = s.cur := rfl
@[simp] theorem State.setPort_focus (s : State) (p : Nat) (x : Port) : (s.setPort p x).focus = s.focus := rfl
@[simp] theorem State.setPort_free (s : State) (p : Nat) (x : Port) : (s.setPort p x).free = s.free := rfl
@[simp] theorem State.setPort_pkg (s : State) (p : Nat) (x : Port) : (s.setPort p x).pkg = s.pkg := rfl
@[simp] theorem State.setPort_tick (s : State) (p : Nat) (x : Port) : (s.setPort p x).tick = s.tick := rfl
@[simp] theorem State.setPort_boot (s : State) (p : Nat) (x : Port) : (s.setPort p x).boot = s.boot := rfl
@[simp] theorem State.setPort_mem (s : State) (p : Nat) (x : Port) : (s.setPort p x).mem = s.mem := rfl
@[simp] theorem State.setPort_stores (s : State) (p : Nat) (x : Port) : (s.setPort p x).stores = s.stores := rfl
@[simp] theorem State.setPort_poison (s : State) (p : Nat) (x : Port) : (s.setPort p x).poison = s.poison := rfl
@[simp] theorem State.setPort_bad (s : State) (p : Nat) (x : Port) : (s.setPort p x).bad = s.bad := rfl
@[simp] theorem State.setPort_waysOff (s : State) (p : Nat) (x : Port) : (s.setPort p x).waysOff = s.waysOff := rfl
@[simp] theorem State.setPort_rowWork (s : State) (p : Nat) (x : Port) : (s.setPort p x).rowWork = s.rowWork := rfl
@[simp] theorem State.setPort_spareRows (s : State) (p : Nat) (x : Port) : (s.setPort p x).spareRows = s.spareRows := rfl
@[simp] theorem State.setPort_epSent (s : State) (p : Nat) (x : Port) : (s.setPort p x).epSent = s.epSent := rfl
@[simp] theorem State.setPort_deadPkgs (s : State) (p : Nat) (x : Port) : (s.setPort p x).deadPkgs = s.deadPkgs := rfl
@[simp] theorem State.setPort_refusing (s : State) (p : Nat) (x : Port) : (s.setPort p x).refusing = s.refusing := rfl
@[simp] theorem State.setPort_frametab (s : State) (p : Nat) (x : Port) : (s.setPort p x).frametab = s.frametab := rfl
@[simp] theorem State.setPort_health (s : State) (p : Nat) (x : Port) : (s.setPort p x).health = s.health := rfl
@[simp] theorem State.setPort_snapAt (s : State) (p : Nat) (x : Port) : (s.setPort p x).snapAt = s.snapAt := rfl
@[simp] theorem State.setPort_dump (s : State) (p : Nat) (x : Port) : (s.setPort p x).dump = s.dump := rfl
@[simp] theorem State.setPort_parts (s : State) (p : Nat) (x : Port) : (s.setPort p x).parts = s.parts := rfl
@[simp] theorem State.setPort_stews (s : State) (p : Nat) (x : Port) : (s.setPort p x).stews = s.stews := rfl
@[simp] theorem State.setPort_regions (s : State) (p : Nat) (x : Port) : (s.setPort p x).regions = s.regions := rfl
@[simp] theorem State.setPort_barriers (s : State) (p : Nat) (x : Port) : (s.setPort p x).barriers = s.barriers := rfl
@[simp] theorem State.setPort_tlbs (s : State) (p : Nat) (x : Port) : (s.setPort p x).tlbs = s.tlbs := rfl
@[simp] theorem State.setPort_walks (s : State) (p : Nat) (x : Port) : (s.setPort p x).walks = s.walks := rfl
@[simp] theorem State.setPort_scrubs (s : State) (p : Nat) (x : Port) : (s.setPort p x).scrubs = s.scrubs := rfl
@[simp] theorem State.setPort_spills (s : State) (p : Nat) (x : Port) : (s.setPort p x).spills = s.spills := rfl
@[simp] theorem State.setPort_saves (s : State) (p : Nat) (x : Port) : (s.setPort p x).saves = s.saves := rfl
@[simp] theorem State.setPort_kept (s : State) (p : Nat) (x : Port) : (s.setPort p x).kept = s.kept := rfl
@[simp] theorem State.setPort_sent (s : State) (p : Nat) (x : Port) : (s.setPort p x).sent = s.sent := rfl
@[simp] theorem State.setPort_boxes (s : State) (p : Nat) (x : Port) : (s.setPort p x).boxes = s.boxes := rfl
@[simp] theorem State.setPort_icaches (s : State) (p : Nat) (x : Port) : (s.setPort p x).icaches = s.icaches := rfl
@[simp] theorem State.setPort_flash (s : State) (p : Nat) (x : Port) : (s.setPort p x).flash = s.flash := rfl
@[simp] theorem State.setPort_fuses (s : State) (p : Nat) (x : Port) : (s.setPort p x).fuses = s.fuses := rfl
@[simp] theorem State.setPort_hostReads (s : State) (p : Nat) (x : Port) : (s.setPort p x).hostReads = s.hostReads := rfl
@[simp] theorem State.setPort_answers (s : State) (p : Nat) (x : Port) : (s.setPort p x).answers = s.answers := rfl

@[simp] theorem State.setBarrier_agenda (s : State) (p : Nat × Nat) (x : Option Barrier) : (s.setBarrier p x).agenda = s.agenda := rfl
@[simp] theorem State.setBarrier_sched (s : State) (p : Nat × Nat) (x : Option Barrier) : (s.setBarrier p x).sched = s.sched := rfl
@[simp] theorem State.setBarrier_cur (s : State) (p : Nat × Nat) (x : Option Barrier) : (s.setBarrier p x).cur = s.cur := rfl
@[simp] theorem State.setBarrier_focus (s : State) (p : Nat × Nat) (x : Option Barrier) : (s.setBarrier p x).focus = s.focus := rfl
@[simp] theorem State.setBarrier_free (s : State) (p : Nat × Nat) (x : Option Barrier) : (s.setBarrier p x).free = s.free := rfl
@[simp] theorem State.setBarrier_pkg (s : State) (p : Nat × Nat) (x : Option Barrier) : (s.setBarrier p x).pkg = s.pkg := rfl
@[simp] theorem State.setBarrier_tick (s : State) (p : Nat × Nat) (x : Option Barrier) : (s.setBarrier p x).tick = s.tick := rfl
@[simp] theorem State.setBarrier_boot (s : State) (p : Nat × Nat) (x : Option Barrier) : (s.setBarrier p x).boot = s.boot := rfl
@[simp] theorem State.setBarrier_mem (s : State) (p : Nat × Nat) (x : Option Barrier) : (s.setBarrier p x).mem = s.mem := rfl
@[simp] theorem State.setBarrier_stores (s : State) (p : Nat × Nat) (x : Option Barrier) : (s.setBarrier p x).stores = s.stores := rfl
@[simp] theorem State.setBarrier_poison (s : State) (p : Nat × Nat) (x : Option Barrier) : (s.setBarrier p x).poison = s.poison := rfl
@[simp] theorem State.setBarrier_bad (s : State) (p : Nat × Nat) (x : Option Barrier) : (s.setBarrier p x).bad = s.bad := rfl
@[simp] theorem State.setBarrier_waysOff (s : State) (p : Nat × Nat) (x : Option Barrier) : (s.setBarrier p x).waysOff = s.waysOff := rfl
@[simp] theorem State.setBarrier_rowWork (s : State) (p : Nat × Nat) (x : Option Barrier) : (s.setBarrier p x).rowWork = s.rowWork := rfl
@[simp] theorem State.setBarrier_spareRows (s : State) (p : Nat × Nat) (x : Option Barrier) : (s.setBarrier p x).spareRows = s.spareRows := rfl
@[simp] theorem State.setBarrier_epSent (s : State) (p : Nat × Nat) (x : Option Barrier) : (s.setBarrier p x).epSent = s.epSent := rfl
@[simp] theorem State.setBarrier_deadPkgs (s : State) (p : Nat × Nat) (x : Option Barrier) : (s.setBarrier p x).deadPkgs = s.deadPkgs := rfl
@[simp] theorem State.setBarrier_refusing (s : State) (p : Nat × Nat) (x : Option Barrier) : (s.setBarrier p x).refusing = s.refusing := rfl
@[simp] theorem State.setBarrier_frametab (s : State) (p : Nat × Nat) (x : Option Barrier) : (s.setBarrier p x).frametab = s.frametab := rfl
@[simp] theorem State.setBarrier_health (s : State) (p : Nat × Nat) (x : Option Barrier) : (s.setBarrier p x).health = s.health := rfl
@[simp] theorem State.setBarrier_snapAt (s : State) (p : Nat × Nat) (x : Option Barrier) : (s.setBarrier p x).snapAt = s.snapAt := rfl
@[simp] theorem State.setBarrier_dump (s : State) (p : Nat × Nat) (x : Option Barrier) : (s.setBarrier p x).dump = s.dump := rfl
@[simp] theorem State.setBarrier_parts (s : State) (p : Nat × Nat) (x : Option Barrier) : (s.setBarrier p x).parts = s.parts := rfl
@[simp] theorem State.setBarrier_stews (s : State) (p : Nat × Nat) (x : Option Barrier) : (s.setBarrier p x).stews = s.stews := rfl
@[simp] theorem State.setBarrier_regions (s : State) (p : Nat × Nat) (x : Option Barrier) : (s.setBarrier p x).regions = s.regions := rfl
@[simp] theorem State.setBarrier_ports (s : State) (p : Nat × Nat) (x : Option Barrier) : (s.setBarrier p x).ports = s.ports := rfl
@[simp] theorem State.setBarrier_tlbs (s : State) (p : Nat × Nat) (x : Option Barrier) : (s.setBarrier p x).tlbs = s.tlbs := rfl
@[simp] theorem State.setBarrier_walks (s : State) (p : Nat × Nat) (x : Option Barrier) : (s.setBarrier p x).walks = s.walks := rfl
@[simp] theorem State.setBarrier_scrubs (s : State) (p : Nat × Nat) (x : Option Barrier) : (s.setBarrier p x).scrubs = s.scrubs := rfl
@[simp] theorem State.setBarrier_spills (s : State) (p : Nat × Nat) (x : Option Barrier) : (s.setBarrier p x).spills = s.spills := rfl
@[simp] theorem State.setBarrier_saves (s : State) (p : Nat × Nat) (x : Option Barrier) : (s.setBarrier p x).saves = s.saves := rfl
@[simp] theorem State.setBarrier_kept (s : State) (p : Nat × Nat) (x : Option Barrier) : (s.setBarrier p x).kept = s.kept := rfl
@[simp] theorem State.setBarrier_sent (s : State) (p : Nat × Nat) (x : Option Barrier) : (s.setBarrier p x).sent = s.sent := rfl
@[simp] theorem State.setBarrier_boxes (s : State) (p : Nat × Nat) (x : Option Barrier) : (s.setBarrier p x).boxes = s.boxes := rfl
@[simp] theorem State.setBarrier_icaches (s : State) (p : Nat × Nat) (x : Option Barrier) : (s.setBarrier p x).icaches = s.icaches := rfl
@[simp] theorem State.setBarrier_flash (s : State) (p : Nat × Nat) (x : Option Barrier) : (s.setBarrier p x).flash = s.flash := rfl
@[simp] theorem State.setBarrier_fuses (s : State) (p : Nat × Nat) (x : Option Barrier) : (s.setBarrier p x).fuses = s.fuses := rfl
@[simp] theorem State.setBarrier_hostReads (s : State) (p : Nat × Nat) (x : Option Barrier) : (s.setBarrier p x).hostReads = s.hostReads := rfl
@[simp] theorem State.setBarrier_answers (s : State) (p : Nat × Nat) (x : Option Barrier) : (s.setBarrier p x).answers = s.answers := rfl

@[simp] theorem State.setTlb_agenda (s : State) (p : Nat) (x : List Tlb) : (s.setTlb p x).agenda = s.agenda := rfl
@[simp] theorem State.setTlb_sched (s : State) (p : Nat) (x : List Tlb) : (s.setTlb p x).sched = s.sched := rfl
@[simp] theorem State.setTlb_cur (s : State) (p : Nat) (x : List Tlb) : (s.setTlb p x).cur = s.cur := rfl
@[simp] theorem State.setTlb_focus (s : State) (p : Nat) (x : List Tlb) : (s.setTlb p x).focus = s.focus := rfl
@[simp] theorem State.setTlb_free (s : State) (p : Nat) (x : List Tlb) : (s.setTlb p x).free = s.free := rfl
@[simp] theorem State.setTlb_pkg (s : State) (p : Nat) (x : List Tlb) : (s.setTlb p x).pkg = s.pkg := rfl
@[simp] theorem State.setTlb_tick (s : State) (p : Nat) (x : List Tlb) : (s.setTlb p x).tick = s.tick := rfl
@[simp] theorem State.setTlb_boot (s : State) (p : Nat) (x : List Tlb) : (s.setTlb p x).boot = s.boot := rfl
@[simp] theorem State.setTlb_mem (s : State) (p : Nat) (x : List Tlb) : (s.setTlb p x).mem = s.mem := rfl
@[simp] theorem State.setTlb_stores (s : State) (p : Nat) (x : List Tlb) : (s.setTlb p x).stores = s.stores := rfl
@[simp] theorem State.setTlb_poison (s : State) (p : Nat) (x : List Tlb) : (s.setTlb p x).poison = s.poison := rfl
@[simp] theorem State.setTlb_bad (s : State) (p : Nat) (x : List Tlb) : (s.setTlb p x).bad = s.bad := rfl
@[simp] theorem State.setTlb_waysOff (s : State) (p : Nat) (x : List Tlb) : (s.setTlb p x).waysOff = s.waysOff := rfl
@[simp] theorem State.setTlb_rowWork (s : State) (p : Nat) (x : List Tlb) : (s.setTlb p x).rowWork = s.rowWork := rfl
@[simp] theorem State.setTlb_spareRows (s : State) (p : Nat) (x : List Tlb) : (s.setTlb p x).spareRows = s.spareRows := rfl
@[simp] theorem State.setTlb_epSent (s : State) (p : Nat) (x : List Tlb) : (s.setTlb p x).epSent = s.epSent := rfl
@[simp] theorem State.setTlb_deadPkgs (s : State) (p : Nat) (x : List Tlb) : (s.setTlb p x).deadPkgs = s.deadPkgs := rfl
@[simp] theorem State.setTlb_refusing (s : State) (p : Nat) (x : List Tlb) : (s.setTlb p x).refusing = s.refusing := rfl
@[simp] theorem State.setTlb_frametab (s : State) (p : Nat) (x : List Tlb) : (s.setTlb p x).frametab = s.frametab := rfl
@[simp] theorem State.setTlb_health (s : State) (p : Nat) (x : List Tlb) : (s.setTlb p x).health = s.health := rfl
@[simp] theorem State.setTlb_snapAt (s : State) (p : Nat) (x : List Tlb) : (s.setTlb p x).snapAt = s.snapAt := rfl
@[simp] theorem State.setTlb_dump (s : State) (p : Nat) (x : List Tlb) : (s.setTlb p x).dump = s.dump := rfl
@[simp] theorem State.setTlb_parts (s : State) (p : Nat) (x : List Tlb) : (s.setTlb p x).parts = s.parts := rfl
@[simp] theorem State.setTlb_stews (s : State) (p : Nat) (x : List Tlb) : (s.setTlb p x).stews = s.stews := rfl
@[simp] theorem State.setTlb_regions (s : State) (p : Nat) (x : List Tlb) : (s.setTlb p x).regions = s.regions := rfl
@[simp] theorem State.setTlb_ports (s : State) (p : Nat) (x : List Tlb) : (s.setTlb p x).ports = s.ports := rfl
@[simp] theorem State.setTlb_barriers (s : State) (p : Nat) (x : List Tlb) : (s.setTlb p x).barriers = s.barriers := rfl
@[simp] theorem State.setTlb_walks (s : State) (p : Nat) (x : List Tlb) : (s.setTlb p x).walks = s.walks := rfl
@[simp] theorem State.setTlb_scrubs (s : State) (p : Nat) (x : List Tlb) : (s.setTlb p x).scrubs = s.scrubs := rfl
@[simp] theorem State.setTlb_spills (s : State) (p : Nat) (x : List Tlb) : (s.setTlb p x).spills = s.spills := rfl
@[simp] theorem State.setTlb_saves (s : State) (p : Nat) (x : List Tlb) : (s.setTlb p x).saves = s.saves := rfl
@[simp] theorem State.setTlb_kept (s : State) (p : Nat) (x : List Tlb) : (s.setTlb p x).kept = s.kept := rfl
@[simp] theorem State.setTlb_sent (s : State) (p : Nat) (x : List Tlb) : (s.setTlb p x).sent = s.sent := rfl
@[simp] theorem State.setTlb_boxes (s : State) (p : Nat) (x : List Tlb) : (s.setTlb p x).boxes = s.boxes := rfl
@[simp] theorem State.setTlb_icaches (s : State) (p : Nat) (x : List Tlb) : (s.setTlb p x).icaches = s.icaches := rfl
@[simp] theorem State.setTlb_flash (s : State) (p : Nat) (x : List Tlb) : (s.setTlb p x).flash = s.flash := rfl
@[simp] theorem State.setTlb_fuses (s : State) (p : Nat) (x : List Tlb) : (s.setTlb p x).fuses = s.fuses := rfl
@[simp] theorem State.setTlb_hostReads (s : State) (p : Nat) (x : List Tlb) : (s.setTlb p x).hostReads = s.hostReads := rfl
@[simp] theorem State.setTlb_answers (s : State) (p : Nat) (x : List Tlb) : (s.setTlb p x).answers = s.answers := rfl

@[simp] theorem State.setTask_agenda (s : State) (c : CoreId) (t : Task) : (s.setTask c t).agenda = s.agenda := by
  cases c <;> rfl
@[simp] theorem State.setMe_agenda (s : State) (t : Task) : (s.setMe t).agenda = s.agenda := State.setTask_agenda s s.cur t
@[simp] theorem State.setTask_sched (s : State) (c : CoreId) (t : Task) : (s.setTask c t).sched = s.sched := by
  cases c <;> rfl
@[simp] theorem State.setMe_sched (s : State) (t : Task) : (s.setMe t).sched = s.sched := State.setTask_sched s s.cur t
@[simp] theorem State.setTask_cur (s : State) (c : CoreId) (t : Task) : (s.setTask c t).cur = s.cur := by
  cases c <;> rfl
@[simp] theorem State.setMe_cur (s : State) (t : Task) : (s.setMe t).cur = s.cur := State.setTask_cur s s.cur t
@[simp] theorem State.setTask_focus (s : State) (c : CoreId) (t : Task) : (s.setTask c t).focus = s.focus := by
  cases c <;> rfl
@[simp] theorem State.setMe_focus (s : State) (t : Task) : (s.setMe t).focus = s.focus := State.setTask_focus s s.cur t
@[simp] theorem State.setTask_free (s : State) (c : CoreId) (t : Task) : (s.setTask c t).free = s.free := by
  cases c <;> rfl
@[simp] theorem State.setMe_free (s : State) (t : Task) : (s.setMe t).free = s.free := State.setTask_free s s.cur t
@[simp] theorem State.setTask_pkg (s : State) (c : CoreId) (t : Task) : (s.setTask c t).pkg = s.pkg := by
  cases c <;> rfl
@[simp] theorem State.setMe_pkg (s : State) (t : Task) : (s.setMe t).pkg = s.pkg := State.setTask_pkg s s.cur t
@[simp] theorem State.setTask_tick (s : State) (c : CoreId) (t : Task) : (s.setTask c t).tick = s.tick := by
  cases c <;> rfl
@[simp] theorem State.setMe_tick (s : State) (t : Task) : (s.setMe t).tick = s.tick := State.setTask_tick s s.cur t
@[simp] theorem State.setTask_boot (s : State) (c : CoreId) (t : Task) : (s.setTask c t).boot = s.boot := by
  cases c <;> rfl
@[simp] theorem State.setMe_boot (s : State) (t : Task) : (s.setMe t).boot = s.boot := State.setTask_boot s s.cur t
@[simp] theorem State.setTask_mem (s : State) (c : CoreId) (t : Task) : (s.setTask c t).mem = s.mem := by
  cases c <;> rfl
@[simp] theorem State.setMe_mem (s : State) (t : Task) : (s.setMe t).mem = s.mem := State.setTask_mem s s.cur t
@[simp] theorem State.setTask_stores (s : State) (c : CoreId) (t : Task) : (s.setTask c t).stores = s.stores := by
  cases c <;> rfl
@[simp] theorem State.setMe_stores (s : State) (t : Task) : (s.setMe t).stores = s.stores := State.setTask_stores s s.cur t
@[simp] theorem State.setTask_poison (s : State) (c : CoreId) (t : Task) : (s.setTask c t).poison = s.poison := by
  cases c <;> rfl
@[simp] theorem State.setMe_poison (s : State) (t : Task) : (s.setMe t).poison = s.poison := State.setTask_poison s s.cur t
@[simp] theorem State.setTask_bad (s : State) (c : CoreId) (t : Task) : (s.setTask c t).bad = s.bad := by
  cases c <;> rfl
@[simp] theorem State.setMe_bad (s : State) (t : Task) : (s.setMe t).bad = s.bad := State.setTask_bad s s.cur t
@[simp] theorem State.setTask_waysOff (s : State) (c : CoreId) (t : Task) : (s.setTask c t).waysOff = s.waysOff := by
  cases c <;> rfl
@[simp] theorem State.setMe_waysOff (s : State) (t : Task) : (s.setMe t).waysOff = s.waysOff := State.setTask_waysOff s s.cur t
@[simp] theorem State.setTask_rowWork (s : State) (c : CoreId) (t : Task) : (s.setTask c t).rowWork = s.rowWork := by
  cases c <;> rfl
@[simp] theorem State.setMe_rowWork (s : State) (t : Task) : (s.setMe t).rowWork = s.rowWork := State.setTask_rowWork s s.cur t
@[simp] theorem State.setTask_spareRows (s : State) (c : CoreId) (t : Task) : (s.setTask c t).spareRows = s.spareRows := by
  cases c <;> rfl
@[simp] theorem State.setMe_spareRows (s : State) (t : Task) : (s.setMe t).spareRows = s.spareRows := State.setTask_spareRows s s.cur t
@[simp] theorem State.setTask_epSent (s : State) (c : CoreId) (t : Task) : (s.setTask c t).epSent = s.epSent := by
  cases c <;> rfl
@[simp] theorem State.setMe_epSent (s : State) (t : Task) : (s.setMe t).epSent = s.epSent := State.setTask_epSent s s.cur t
@[simp] theorem State.setTask_deadPkgs (s : State) (c : CoreId) (t : Task) : (s.setTask c t).deadPkgs = s.deadPkgs := by
  cases c <;> rfl
@[simp] theorem State.setMe_deadPkgs (s : State) (t : Task) : (s.setMe t).deadPkgs = s.deadPkgs := State.setTask_deadPkgs s s.cur t
@[simp] theorem State.setTask_refusing (s : State) (c : CoreId) (t : Task) : (s.setTask c t).refusing = s.refusing := by
  cases c <;> rfl
@[simp] theorem State.setMe_refusing (s : State) (t : Task) : (s.setMe t).refusing = s.refusing := State.setTask_refusing s s.cur t
@[simp] theorem State.setTask_frametab (s : State) (c : CoreId) (t : Task) : (s.setTask c t).frametab = s.frametab := by
  cases c <;> rfl
@[simp] theorem State.setMe_frametab (s : State) (t : Task) : (s.setMe t).frametab = s.frametab := State.setTask_frametab s s.cur t
@[simp] theorem State.setTask_health (s : State) (c : CoreId) (t : Task) : (s.setTask c t).health = s.health := by
  cases c <;> rfl
@[simp] theorem State.setMe_health (s : State) (t : Task) : (s.setMe t).health = s.health := State.setTask_health s s.cur t
@[simp] theorem State.setTask_snapAt (s : State) (c : CoreId) (t : Task) : (s.setTask c t).snapAt = s.snapAt := by
  cases c <;> rfl
@[simp] theorem State.setMe_snapAt (s : State) (t : Task) : (s.setMe t).snapAt = s.snapAt := State.setTask_snapAt s s.cur t
@[simp] theorem State.setTask_dump (s : State) (c : CoreId) (t : Task) : (s.setTask c t).dump = s.dump := by
  cases c <;> rfl
@[simp] theorem State.setMe_dump (s : State) (t : Task) : (s.setMe t).dump = s.dump := State.setTask_dump s s.cur t
@[simp] theorem State.setTask_parts (s : State) (c : CoreId) (t : Task) : (s.setTask c t).parts = s.parts := by
  cases c <;> rfl
@[simp] theorem State.setMe_parts (s : State) (t : Task) : (s.setMe t).parts = s.parts := State.setTask_parts s s.cur t
@[simp] theorem State.setTask_ports (s : State) (c : CoreId) (t : Task) : (s.setTask c t).ports = s.ports := by
  cases c <;> rfl
@[simp] theorem State.setMe_ports (s : State) (t : Task) : (s.setMe t).ports = s.ports := State.setTask_ports s s.cur t
@[simp] theorem State.setTask_barriers (s : State) (c : CoreId) (t : Task) : (s.setTask c t).barriers = s.barriers := by
  cases c <;> rfl
@[simp] theorem State.setMe_barriers (s : State) (t : Task) : (s.setMe t).barriers = s.barriers := State.setTask_barriers s s.cur t
@[simp] theorem State.setTask_tlbs (s : State) (c : CoreId) (t : Task) : (s.setTask c t).tlbs = s.tlbs := by
  cases c <;> rfl
@[simp] theorem State.setMe_tlbs (s : State) (t : Task) : (s.setMe t).tlbs = s.tlbs := State.setTask_tlbs s s.cur t
@[simp] theorem State.setTask_walks (s : State) (c : CoreId) (t : Task) : (s.setTask c t).walks = s.walks := by
  cases c <;> rfl
@[simp] theorem State.setMe_walks (s : State) (t : Task) : (s.setMe t).walks = s.walks := State.setTask_walks s s.cur t
@[simp] theorem State.setTask_scrubs (s : State) (c : CoreId) (t : Task) : (s.setTask c t).scrubs = s.scrubs := by
  cases c <;> rfl
@[simp] theorem State.setMe_scrubs (s : State) (t : Task) : (s.setMe t).scrubs = s.scrubs := State.setTask_scrubs s s.cur t
@[simp] theorem State.setTask_spills (s : State) (c : CoreId) (t : Task) : (s.setTask c t).spills = s.spills := by
  cases c <;> rfl
@[simp] theorem State.setMe_spills (s : State) (t : Task) : (s.setMe t).spills = s.spills := State.setTask_spills s s.cur t
@[simp] theorem State.setTask_saves (s : State) (c : CoreId) (t : Task) : (s.setTask c t).saves = s.saves := by
  cases c <;> rfl
@[simp] theorem State.setMe_saves (s : State) (t : Task) : (s.setMe t).saves = s.saves := State.setTask_saves s s.cur t
@[simp] theorem State.setTask_kept (s : State) (c : CoreId) (t : Task) : (s.setTask c t).kept = s.kept := by
  cases c <;> rfl
@[simp] theorem State.setMe_kept (s : State) (t : Task) : (s.setMe t).kept = s.kept := State.setTask_kept s s.cur t
@[simp] theorem State.setTask_sent (s : State) (c : CoreId) (t : Task) : (s.setTask c t).sent = s.sent := by
  cases c <;> rfl
@[simp] theorem State.setMe_sent (s : State) (t : Task) : (s.setMe t).sent = s.sent := State.setTask_sent s s.cur t
@[simp] theorem State.setTask_boxes (s : State) (c : CoreId) (t : Task) : (s.setTask c t).boxes = s.boxes := by
  cases c <;> rfl
@[simp] theorem State.setMe_boxes (s : State) (t : Task) : (s.setMe t).boxes = s.boxes := State.setTask_boxes s s.cur t
@[simp] theorem State.setTask_icaches (s : State) (c : CoreId) (t : Task) : (s.setTask c t).icaches = s.icaches := by
  cases c <;> rfl
@[simp] theorem State.setMe_icaches (s : State) (t : Task) : (s.setMe t).icaches = s.icaches := State.setTask_icaches s s.cur t
@[simp] theorem State.setTask_flash (s : State) (c : CoreId) (t : Task) : (s.setTask c t).flash = s.flash := by
  cases c <;> rfl
@[simp] theorem State.setMe_flash (s : State) (t : Task) : (s.setMe t).flash = s.flash := State.setTask_flash s s.cur t
@[simp] theorem State.setTask_fuses (s : State) (c : CoreId) (t : Task) : (s.setTask c t).fuses = s.fuses := by
  cases c <;> rfl
@[simp] theorem State.setMe_fuses (s : State) (t : Task) : (s.setMe t).fuses = s.fuses := State.setTask_fuses s s.cur t
@[simp] theorem State.setTask_hostReads (s : State) (c : CoreId) (t : Task) : (s.setTask c t).hostReads = s.hostReads := by
  cases c <;> rfl
@[simp] theorem State.setMe_hostReads (s : State) (t : Task) : (s.setMe t).hostReads = s.hostReads := State.setTask_hostReads s s.cur t
@[simp] theorem State.setTask_answers (s : State) (c : CoreId) (t : Task) : (s.setTask c t).answers = s.answers := by
  cases c <;> rfl
@[simp] theorem State.setMe_answers (s : State) (t : Task) : (s.setMe t).answers = s.answers := State.setTask_answers s s.cur t

/-! ### Parts after an update -/

@[simp] theorem State.part_setPart (s : State) (p : Nat) (x : Partition) : (s.setPart p x).part p = x :=
  mapGet_mapSet_same _ _ _ _
theorem State.part_setPart_ne (s : State) {p q : Nat} (x : Partition) (h : q ≠ p) : (s.setPart p x).part q = s.part q :=
  mapGet_mapSet_ne _ _ _ h
@[simp] theorem State.stew_setStew (s : State) (p : Nat) (x : Steward) : (s.setStew p x).stew p = x :=
  mapGet_mapSet_same _ _ _ _
theorem State.stew_setStew_ne (s : State) {p q : Nat} (x : Steward) (h : q ≠ p) : (s.setStew p x).stew q = s.stew q :=
  mapGet_mapSet_ne _ _ _ h
@[simp] theorem State.region_setRegion (s : State) (p : Nat) (x : Region) : (s.setRegion p x).region p = x :=
  mapGet_mapSet_same _ _ _ _
theorem State.region_setRegion_ne (s : State) {p q : Nat} (x : Region) (h : q ≠ p) : (s.setRegion p x).region q = s.region q :=
  mapGet_mapSet_ne _ _ _ h
@[simp] theorem State.port_setPort (s : State) (p : Nat) (x : Port) : (s.setPort p x).port p = x :=
  mapGet_mapSet_same _ _ _ _
theorem State.port_setPort_ne (s : State) {p q : Nat} (x : Port) (h : q ≠ p) : (s.setPort p x).port q = s.port q :=
  mapGet_mapSet_ne _ _ _ h
@[simp] theorem State.stew_setPart (s : State) (p : Nat) (x : Partition) (r : Nat) : (s.setPart p x).stew r = s.stew r := rfl
@[simp] theorem State.region_setPart (s : State) (p : Nat) (x : Partition) (r : Nat) : (s.setPart p x).region r = s.region r := rfl
@[simp] theorem State.port_setPart (s : State) (p : Nat) (x : Partition) (r : Nat) : (s.setPart p x).port r = s.port r := rfl
@[simp] theorem State.byte_setPart (s : State) (p : Nat) (x : Partition) (a : Nat) : (s.setPart p x).byte a = s.byte a := rfl
@[simp] theorem State.place_setPart (s : State) (p : Nat) (x : Partition) (a : Nat) : (s.setPart p x).place a = s.place a := rfl
@[simp] theorem State.part_setStew (s : State) (p : Nat) (x : Steward) (r : Nat) : (s.setStew p x).part r = s.part r := rfl
@[simp] theorem State.region_setStew (s : State) (p : Nat) (x : Steward) (r : Nat) : (s.setStew p x).region r = s.region r := rfl
@[simp] theorem State.port_setStew (s : State) (p : Nat) (x : Steward) (r : Nat) : (s.setStew p x).port r = s.port r := rfl
@[simp] theorem State.byte_setStew (s : State) (p : Nat) (x : Steward) (a : Nat) : (s.setStew p x).byte a = s.byte a := rfl
@[simp] theorem State.place_setStew (s : State) (p : Nat) (x : Steward) (a : Nat) : (s.setStew p x).place a = s.place a := rfl
@[simp] theorem State.part_setRegion (s : State) (p : Nat) (x : Region) (r : Nat) : (s.setRegion p x).part r = s.part r := rfl
@[simp] theorem State.stew_setRegion (s : State) (p : Nat) (x : Region) (r : Nat) : (s.setRegion p x).stew r = s.stew r := rfl
@[simp] theorem State.port_setRegion (s : State) (p : Nat) (x : Region) (r : Nat) : (s.setRegion p x).port r = s.port r := rfl
@[simp] theorem State.byte_setRegion (s : State) (p : Nat) (x : Region) (a : Nat) : (s.setRegion p x).byte a = s.byte a := rfl
@[simp] theorem State.place_setRegion (s : State) (p : Nat) (x : Region) (a : Nat) : (s.setRegion p x).place a = s.place a := rfl
@[simp] theorem State.part_setPort (s : State) (p : Nat) (x : Port) (r : Nat) : (s.setPort p x).part r = s.part r := rfl
@[simp] theorem State.stew_setPort (s : State) (p : Nat) (x : Port) (r : Nat) : (s.setPort p x).stew r = s.stew r := rfl
@[simp] theorem State.region_setPort (s : State) (p : Nat) (x : Port) (r : Nat) : (s.setPort p x).region r = s.region r := rfl
@[simp] theorem State.byte_setPort (s : State) (p : Nat) (x : Port) (a : Nat) : (s.setPort p x).byte a = s.byte a := rfl
@[simp] theorem State.place_setPort (s : State) (p : Nat) (x : Port) (a : Nat) : (s.setPort p x).place a = s.place a := rfl
@[simp] theorem State.part_setBarrier (s : State) (p : Nat × Nat) (x : Option Barrier) (r : Nat) : (s.setBarrier p x).part r = s.part r := rfl
@[simp] theorem State.stew_setBarrier (s : State) (p : Nat × Nat) (x : Option Barrier) (r : Nat) : (s.setBarrier p x).stew r = s.stew r := rfl
@[simp] theorem State.region_setBarrier (s : State) (p : Nat × Nat) (x : Option Barrier) (r : Nat) : (s.setBarrier p x).region r = s.region r := rfl
@[simp] theorem State.port_setBarrier (s : State) (p : Nat × Nat) (x : Option Barrier) (r : Nat) : (s.setBarrier p x).port r = s.port r := rfl
@[simp] theorem State.byte_setBarrier (s : State) (p : Nat × Nat) (x : Option Barrier) (a : Nat) : (s.setBarrier p x).byte a = s.byte a := rfl
@[simp] theorem State.place_setBarrier (s : State) (p : Nat × Nat) (x : Option Barrier) (a : Nat) : (s.setBarrier p x).place a = s.place a := rfl
@[simp] theorem State.part_setTlb (s : State) (p : Nat) (x : List Tlb) (r : Nat) : (s.setTlb p x).part r = s.part r := rfl
@[simp] theorem State.stew_setTlb (s : State) (p : Nat) (x : List Tlb) (r : Nat) : (s.setTlb p x).stew r = s.stew r := rfl
@[simp] theorem State.region_setTlb (s : State) (p : Nat) (x : List Tlb) (r : Nat) : (s.setTlb p x).region r = s.region r := rfl
@[simp] theorem State.port_setTlb (s : State) (p : Nat) (x : List Tlb) (r : Nat) : (s.setTlb p x).port r = s.port r := rfl
@[simp] theorem State.byte_setTlb (s : State) (p : Nat) (x : List Tlb) (a : Nat) : (s.setTlb p x).byte a = s.byte a := rfl
@[simp] theorem State.place_setTlb (s : State) (p : Nat) (x : List Tlb) (a : Nat) : (s.setTlb p x).place a = s.place a := rfl
@[simp] theorem State.part_setTask (s : State) (c : CoreId) (t : Task) (q : Nat) : (s.setTask c t).part q = s.part q := by
  cases c <;> rfl
@[simp] theorem State.part_setMe (s : State) (t : Task) (q : Nat) : (s.setMe t).part q = s.part q := State.part_setTask s s.cur t q
@[simp] theorem State.port_setTask (s : State) (c : CoreId) (t : Task) (q : Nat) : (s.setTask c t).port q = s.port q := by
  cases c <;> rfl
@[simp] theorem State.port_setMe (s : State) (t : Task) (q : Nat) : (s.setMe t).port q = s.port q := State.port_setTask s s.cur t q
@[simp] theorem State.byte_setTask (s : State) (c : CoreId) (t : Task) (a : Nat) : (s.setTask c t).byte a = s.byte a := by
  cases c <;> rfl
@[simp] theorem State.byte_setMe (s : State) (t : Task) (a : Nat) : (s.setMe t).byte a = s.byte a := State.byte_setTask s s.cur t a
@[simp] theorem State.place_setTask (s : State) (c : CoreId) (t : Task) (a : Nat) : (s.setTask c t).place a = s.place a := by
  cases c <;> rfl
@[simp] theorem State.place_setMe (s : State) (t : Task) (a : Nat) : (s.setMe t).place a = s.place a := State.place_setTask s s.cur t a

/-! ### Tasks -/

@[simp] theorem Region.task_setTask (g : Region) (n : Nat) (t : Task) : (g.setTask n t).task n = t :=
  mapGet_mapSet_same _ _ _ _

theorem Region.task_setTask_ne (g : Region) {n k : Nat} (t : Task) (h : k ≠ n) : (g.setTask n t).task k = g.task k :=
  mapGet_mapSet_ne _ _ _ h

@[simp] theorem Region.part_setTask (g : Region) (n : Nat) (t : Task) : (g.setTask n t).part = g.part := rfl

@[simp] theorem State.task_setTask (s : State) (c : CoreId) (t : Task) : (s.setTask c t).task c = t := by
  cases c <;> simp [State.task, State.setTask]

theorem State.task_setTask_ne (s : State) {c d : CoreId} (t : Task) (h : d ≠ c) :
    (s.setTask c t).task d = s.task d := by
  cases c with
  | stew c => cases d with
    | seq r n => rfl
    | stew d =>
      have : d ≠ c := fun e => h (by rw [e])
      simp [State.task, State.setTask, State.stew_setStew_ne _ _ this]
  | seq r n => cases d with
    | stew d => rfl
    | seq q k =>
      simp only [State.task, State.setTask]
      by_cases hq : q = r
      · subst hq
        have : k ≠ n := fun e => h (by rw [e])
        simp [Region.task_setTask_ne _ _ this]
      · rw [State.region_setRegion_ne _ _ hq]

@[simp] theorem State.me_setMe (s : State) (t : Task) : (s.setMe t).me = t := by
  simp [State.me, State.setMe]

@[simp] theorem State.partOf_setTask (s : State) (c d : CoreId) (t : Task) : (s.setTask c t).partOf d = s.partOf d := by
  cases c <;> cases d <;> simp only [State.partOf, State.setTask] <;> first
    | rfl
    | (rename_i a b; by_cases h : b = a
       · subst h; simp
       · simp [State.stew_setStew_ne _ _ h])
    | (rename_i a _ b _; by_cases h : b = a
       · subst h; simp
       · simp [State.region_setRegion_ne _ _ h])

@[simp] theorem State.partOf_setMe (s : State) (d : CoreId) (t : Task) : (s.setMe t).partOf d = s.partOf d :=
  State.partOf_setTask s s.cur d t

/-- A write of a part over an earlier write of it. -/
theorem mapPut_mapPut {α : Type} (m : Map α) (a : Nat) (x y : α) : mapPut (mapPut m a x) a y = mapPut m a y := by
  induction m with
  | nil => simp [mapPut]
  | cons p m ih =>
    obtain ⟨k, v⟩ := p
    by_cases h : a = k
    · simp [mapPut, h]
    · by_cases h' : a < k <;> simp [mapPut, h, h', ih]

/-! ### Registers (R202, R223) -/

theorem Task.get_zero (t : Task) : t.get 0 = 0 := rfl

theorem Task.set_zero (t : Task) (v : Word) : t.set 0 v = t := rfl

@[simp] theorem Task.get_set_same (t : Task) {d : BitVec 5} (v : Word) (h : d ≠ 0) : (t.set d v).get d = v := by
  have h0 : d.toNat ≠ 0 := fun e => h (BitVec.eq_of_toNat_eq (by simpa using e))
  unfold Task.set Task.get
  by_cases h1 : d.toNat < 8 <;> simp [h0, h1]

theorem Task.get_set_ne (t : Task) {d r : BitVec 5} (v : Word) (h : r ≠ d) : (t.set d v).get r = t.get r := by
  have hn : r.toNat ≠ d.toNat := fun e => h (BitVec.eq_of_toNat_eq e)
  have hr := r.isLt
  have hd := d.isLt
  unfold Task.set Task.get
  by_cases d0 : d.toNat = 0
  · simp [d0]
  · by_cases d1 : d.toNat < 8
    · by_cases r0 : r.toNat = 0
      · simp [r0]
      · by_cases r1 : r.toNat < 8
        · simp [d0, d1, r0, r1, mapGet_mapSet_ne _ _ _ hn]
        · simp [d0, d1, r0, r1]
    · by_cases r0 : r.toNat = 0
      · simp [r0]
      · by_cases r1 : r.toNat < 8
        · simp [d0, d1, r0, r1]
        · have hm : (t.base + (r.toNat - 8)) % 56 ≠ (t.base + (d.toNat - 8)) % 56 := by omega
          simp [d0, d1, r0, r1, mapGet_mapSet_ne _ _ _ hm]

/-- A write of a register read back: s0 stays zero (R202). -/
theorem Task.get_set (t : Task) (d : BitVec 5) (v : Word) : (t.set d v).get d = if d = 0 then 0 else v := by
  split
  · rename_i h; subst h; rfl
  · rename_i h; exact Task.get_set_same t v h

@[simp] theorem Task.set_hold (t : Task) (d : BitVec 5) (v : Word) : (t.set d v).hold = t.hold := by
  unfold Task.set; dsimp only; split
  · rfl
  · split <;> rfl
@[simp] theorem Task.set_level (t : Task) (d : BitVec 5) (v : Word) : (t.set d v).level = t.level := by
  unfold Task.set; dsimp only; split
  · rfl
  · split <;> rfl
@[simp] theorem Task.set_pc (t : Task) (d : BitVec 5) (v : Word) : (t.set d v).pc = t.pc := by
  unfold Task.set; dsimp only; split
  · rfl
  · split <;> rfl
@[simp] theorem Task.set_base (t : Task) (d : BitVec 5) (v : Word) : (t.set d v).base = t.base := by
  unfold Task.set; dsimp only; split
  · rfl
  · split <;> rfl
@[simp] theorem Task.set_low (t : Task) (d : BitVec 5) (v : Word) : (t.set d v).low = t.low := by
  unfold Task.set; dsimp only; split
  · rfl
  · split <;> rfl
@[simp] theorem Task.set_base0 (t : Task) (d : BitVec 5) (v : Word) : (t.set d v).base0 = t.base0 := by
  unfold Task.set; dsimp only; split
  · rfl
  · split <;> rfl
@[simp] theorem Task.set_wsp (t : Task) (d : BitVec 5) (v : Word) : (t.set d v).wsp = t.wsp := by
  unfold Task.set; dsimp only; split
  · rfl
  · split <;> rfl
@[simp] theorem Task.set_sendst (t : Task) (d : BitVec 5) (v : Word) : (t.set d v).sendst = t.sendst := by
  unfold Task.set; dsimp only; split
  · rfl
  · split <;> rfl
@[simp] theorem Task.set_capped (t : Task) (d : BitVec 5) (v : Word) : (t.set d v).capped = t.capped := by
  unfold Task.set; dsimp only; split
  · rfl
  · split <;> rfl
@[simp] theorem Task.set_fflags (t : Task) (d : BitVec 5) (v : Word) : (t.set d v).fflags = t.fflags := by
  unfold Task.set; dsimp only; split
  · rfl
  · split <;> rfl
@[simp] theorem Task.set_tags (t : Task) (d : BitVec 5) (v : Word) : (t.set d v).tags = t.tags := by
  unfold Task.set; dsimp only; split
  · rfl
  · split <;> rfl
@[simp] theorem Task.set_tagc (t : Task) (d : BitVec 5) (v : Word) : (t.set d v).tagc = t.tagc := by
  unfold Task.set; dsimp only; split
  · rfl
  · split <;> rfl
@[simp] theorem Task.set_counts (t : Task) (d : BitVec 5) (v : Word) : (t.set d v).counts = t.counts := by
  unfold Task.set; dsimp only; split
  · rfl
  · split <;> rfl
@[simp] theorem Task.set_tagflags (t : Task) (d : BitVec 5) (v : Word) : (t.set d v).tagflags = t.tagflags := by
  unfold Task.set; dsimp only; split
  · rfl
  · split <;> rfl
@[simp] theorem Task.set_oor (t : Task) (d : BitVec 5) (v : Word) : (t.set d v).oor = t.oor := by
  unfold Task.set; dsimp only; split
  · rfl
  · split <;> rfl
@[simp] theorem Task.set_efault (t : Task) (d : BitVec 5) (v : Word) : (t.set d v).efault = t.efault := by
  unfold Task.set; dsimp only; split
  · rfl
  · split <;> rfl
@[simp] theorem Task.set_efaddr (t : Task) (d : BitVec 5) (v : Word) : (t.set d v).efaddr = t.efaddr := by
  unfold Task.set; dsimp only; split
  · rfl
  · split <;> rfl
@[simp] theorem Task.set_kcause (t : Task) (d : BitVec 5) (v : Word) : (t.set d v).kcause = t.kcause := by
  unfold Task.set; dsimp only; split
  · rfl
  · split <;> rfl
@[simp] theorem Task.set_kpc (t : Task) (d : BitVec 5) (v : Word) : (t.set d v).kpc = t.kpc := by
  unfold Task.set; dsimp only; split
  · rfl
  · split <;> rfl
@[simp] theorem Task.set_kval (t : Task) (d : BitVec 5) (v : Word) : (t.set d v).kval = t.kval := by
  unfold Task.set; dsimp only; split
  · rfl
  · split <;> rfl
@[simp] theorem Task.set_kscr (t : Task) (d : BitVec 5) (v : Word) : (t.set d v).kscr = t.kscr := by
  unfold Task.set; dsimp only; split
  · rfl
  · split <;> rfl
@[simp] theorem Task.set_counter (t : Task) (d : BitVec 5) (v : Word) : (t.set d v).counter = t.counter := by
  unfold Task.set; dsimp only; split
  · rfl
  · split <;> rfl
@[simp] theorem Task.set_endpoint (t : Task) (d : BitVec 5) (v : Word) : (t.set d v).endpoint = t.endpoint := by
  unfold Task.set; dsimp only; split
  · rfl
  · split <;> rfl
@[simp] theorem Task.set_gen (t : Task) (d : BitVec 5) (v : Word) : (t.set d v).gen = t.gen := by
  unfold Task.set; dsimp only; split
  · rfl
  · split <;> rfl
@[simp] theorem Task.set_pair (t : Task) (d : BitVec 5) (v : Word) : (t.set d v).pair = t.pair := by
  unfold Task.set; dsimp only; split
  · rfl
  · split <;> rfl
@[simp] theorem Task.set_nfail (t : Task) (d : BitVec 5) (v : Word) : (t.set d v).nfail = t.nfail := by
  unfold Task.set; dsimp only; split
  · rfl
  · split <;> rfl
@[simp] theorem Task.set_refused (t : Task) (d : BitVec 5) (v : Word) : (t.set d v).refused = t.refused := by
  unfold Task.set; dsimp only; split
  · rfl
  · split <;> rfl
@[simp] theorem Task.set_deadlink (t : Task) (d : BitVec 5) (v : Word) : (t.set d v).deadlink = t.deadlink := by
  unfold Task.set; dsimp only; split
  · rfl
  · split <;> rfl

/-- What `retire` does to the current task. -/
@[simp] theorem State.me_retire (s : State) (n : Nat) (d : BitVec 5) (v : Word) (f : Flags) :
    (s.retire n d v f).me = { (s.me.set d v) with pc := s.me.pc + BitVec.ofNat 64 n, fflags := s.me.fflags ||| f } :=
  State.me_setMe s _

@[simp] theorem State.me_advance (s : State) (n : Nat) :
    (s.advance n).me = { s.me with pc := s.me.pc + BitVec.ofNat 64 n } := State.me_setMe s _

@[simp] theorem State.me_goto (s : State) (pc : Word) : (s.goto pc).me = { s.me with pc := pc } := State.me_setMe s _

@[simp] theorem State.me_holdMe (s : State) (h : Hold) : (s.holdMe h).me = { s.me with hold := h } := State.me_setMe s _

@[simp] theorem State.byte_retire (s : State) (n : Nat) (d : BitVec 5) (v : Word) (f : Flags) (a : Nat) :
    (s.retire n d v f).byte a = s.byte a := State.byte_setMe s _ a

@[simp] theorem State.byte_advance (s : State) (n a : Nat) : (s.advance n).byte a = s.byte a := State.byte_setMe s _ a

@[simp] theorem State.byte_goto (s : State) (pc : Word) (a : Nat) : (s.goto pc).byte a = s.byte a := State.byte_setMe s _ a

@[simp] theorem State.byte_holdMe (s : State) (h : Hold) (a : Nat) : (s.holdMe h).byte a = s.byte a := State.byte_setMe s _ a

/-! ### The bytes of memory -/

/-- A byte after a write of consecutive bytes at their home (R2, R85). -/
theorem State.write_mem (s : State) (a : Nat) (bs : List Byte) :
    (s.write a bs).mem = memSetN s.mem (canonPa s.pkg.toNat a) bs := rfl

@[simp] theorem State.write_regions (s : State) (a : Nat) (bs : List Byte) : (s.write a bs).regions = s.regions := rfl
@[simp] theorem State.write_stews (s : State) (a : Nat) (bs : List Byte) : (s.write a bs).stews = s.stews := rfl
@[simp] theorem State.write_parts (s : State) (a : Nat) (bs : List Byte) : (s.write a bs).parts = s.parts := rfl
@[simp] theorem State.write_cur (s : State) (a : Nat) (bs : List Byte) : (s.write a bs).cur = s.cur := rfl
@[simp] theorem State.write_pkg (s : State) (a : Nat) (bs : List Byte) : (s.write a bs).pkg = s.pkg := rfl

end Sys2Proof.Machine
end

