-- ==== Sys2Proof/Laws/Ends.lean ====
section
/-! SUPPORT. What the shared ends of an instruction do, once each: `retire`, `advance`, `goto` and
`status`, in the terms of Safety.lean. -/

namespace Sys2Proof.Machine

theorem sameMachine.trans {s t u : State} (h : sameMachine s t) (k : sameMachine t u) : sameMachine s u := by
  unfold sameMachine at *
  rw [← h, ← k]

theorem onlyMe.refl (s : State) : onlyMe s s := ⟨rfl, fun _ _ => rfl, fun _ => rfl, fun _ => rfl⟩

theorem onlyMe.cur {s t : State} (h : onlyMe s t) : t.cur = s.cur := by
  have := congrArg State.cur h.1; exact this

theorem onlyMe.trans {s t u : State} (h : onlyMe s t) (k : onlyMe t u) : onlyMe s u :=
  ⟨h.1.trans k.1, fun c hc => (k.2.1 c (by rwa [h.cur])).trans (h.2.1 c hc),
    fun r => (k.2.2.1 r).trans (h.2.2.1 r), fun c => (k.2.2.2 c).trans (h.2.2.2 c)⟩

theorem sameMemory.trans {s t u : State} (h : sameMemory s t) (k : sameMemory t u) : sameMemory s u :=
  fun a => (k a).trans (h a)

/-- A write of the current task changes nothing else. -/
theorem State.setMe_onlyMe (s : State) (t : Task) : onlyMe s (s.setMe t) := by
  unfold State.setMe
  refine ⟨?_, fun c hc => State.task_setTask_ne s t hc, fun r => ?_, fun c => ?_⟩
  · unfold sameMachine; cases s.cur <;> rfl
  · cases h : s.cur with
    | stew x => rfl
    | seq q n =>
      simp only [State.setTask]
      by_cases e : r = q
      · subst e; simp [Region.setTask]
      · rw [State.region_setRegion_ne _ _ e]
  · cases h : s.cur with
    | seq q n => rfl
    | stew x =>
      simp only [State.setTask]
      by_cases e : c = x
      · subst e; simp
      · rw [State.stew_setStew_ne _ _ e]

/-- A write of the current task ends an instruction with that task. -/
theorem State.setMe_ends (s : State) (t : Task) : ends s (s.setMe t) t :=
  ⟨State.me_setMe s t, State.setMe_onlyMe s t, fun a => State.byte_setMe s t a⟩

/-- A second write of the current task. -/
theorem ends.setMe {s t : State} {m : Task} (h : ends s t m) (n : Task) : ends s (t.setMe n) n :=
  ⟨State.me_setMe t n, h.2.1.trans (State.setMe_onlyMe t n), h.2.2.trans fun a => State.byte_setMe t n a⟩

/-- The registers of a task do not depend on its pc, flags or hold. -/
theorem Task.get_congr {m n : Task} (h1 : m.sregs = n.sregs) (h2 : m.ring = n.ring) (h3 : m.base = n.base)
    (r : BitVec 5) : m.get r = n.get r := by
  unfold Task.get; rw [h1, h2, h3]

/-- A register written with the value it then reads as. -/
theorem Task.set_get_set (t : Task) (d : BitVec 5) (v : Word) : t.set d ((t.set d v).get d) = t.set d v := by
  by_cases h : d = 0
  · subst h; rfl
  · rw [Task.get_set_same t v h]

/-- `retire` ends an instruction as `retires` says (R59, R202). -/
theorem State.retire_retires (s : State) (n : Nat) (d : BitVec 5) (v : Word) (f : Flags) :
    retires s (s.retire n d v f) n d v f := by
  have hg : ∀ r, (s.retire n d v f).reg r = (s.me.set d v).get r := fun r => by
    unfold State.reg; rw [State.me_retire]; exact Task.get_congr rfl rfl rfl r
  refine ⟨?_, ?_, State.setMe_ends s _⟩
  · rw [hg, Task.get_set]
  · intro r hr; rw [hg, Task.get_set_ne _ _ hr]; rfl

/-- `goto` moves the pc and nothing else (R230). -/
theorem State.goto_jumps (s : State) (pc : Word) : jumps s (s.goto pc) pc := State.setMe_ends s _

/-- `advance` moves the pc past the instruction and does nothing else. -/
theorem State.advance_jumps (s : State) (n : Nat) : jumps s (s.advance n) (s.me.pc + BitVec.ofNat 64 n) :=
  State.setMe_ends s _

/-- A status word is a write of d (R245). -/
theorem State.status_retires (s : State) (d : BitVec 5) (code value : Nat) :
    retires s (s.status d code value) 4 d (statusWord code value) 0 := State.retire_retires s 4 d _ 0

end Sys2Proof.Machine
end

