-- ==== Sys2Proof/Laws/Integer.lean ====
section
/-! SUPPORT. The integer results of R41 and R225 in the terms of Safety.lean: what a width, an operand, a
wrapped and a clamped result are. -/

namespace Sys2Proof.Machine

/-- The width that fn[8:7] names (R205). -/
theorem intWidth_eq (w : BitVec 2) : intWidth w = bitsOf w := by
  revert w; decide
/-- The four widths (R205). -/
theorem bitsOf_cases (w : BitVec 2) : bitsOf w = 64 ∨ bitsOf w = 32 ∨ bitsOf w = 16 ∨ bitsOf w = 8 := by
  revert w; decide
/-- An operand as an integer of its type (R225). -/
theorem regInt_eq (w : BitVec 2) (u : Bool) (x : Word) : regInt x (bitsOf w) u = lowInt (bitsOf w) u x := by
  unfold regInt intRead lowInt Int.bmod
  rcases bitsOf_cases w with h | h | h | h <;> rw [h] <;> cases u <;> simp <;> (try split) <;> (try split) <;> omega
/-- The word of a wrapped result (R41, R225). -/
theorem extendTo64_wrap (w : BitVec 2) (u : Bool) (r : Int) :
    ∃ z, wrapsTo (bitsOf w) u r z ∧ extendTo64 (bitsOf w) u (intWrap (bitsOf w) r) = BitVec.ofInt 64 z := by
  refine ⟨intRead (bitsOf w) u (intWrap (bitsOf w) r), ⟨?_, ?_⟩, ?_⟩
  · unfold inType intRead intWrap
    rcases bitsOf_cases w with h | h | h | h <;> rw [h] <;> cases u <;> norm_num <;> (try split) <;> omega
  · unfold intRead intWrap
    rcases bitsOf_cases w with h | h | h | h <;> rw [h] <;> cases u <;> norm_num <;> (try split) <;> omega
  · unfold extendTo64
    cases u
    · simp
    · apply BitVec.eq_of_toNat_eq
      simp only [if_true, intRead, Bool.true_or, BitVec.toNat_ofNat, BitVec.toNat_ofInt]
      omega
/-- The word and flags of a clamped result (R41). -/
theorem intResult_clamp (w : BitVec 2) (u : Bool) (r : Int) :
    ∃ z f, narrows (bitsOf w) u true r z f ∧ (intResult (bitsOf w) u true r) = (BitVec.ofInt 64 z, f) := by
  obtain ⟨z, hz, e⟩ := extendTo64_wrap w u (intClamp (bitsOf w) u r)
  have hz' : z = intClamp (bitsOf w) u r := by
    obtain ⟨h1, k, h2⟩ := hz
    revert h1 h2
    unfold inType intClamp intMin intMax
    rcases bitsOf_cases w with h | h | h | h <;> rw [h] <;> cases u <;> norm_num <;> intros <;> (repeat' split) <;> (repeat' split at *)<;> omega
  subst hz'
  refine ⟨_, _, ⟨⟨hz.1, ?_⟩, rfl⟩, ?_⟩
  · unfold inType intClamp intMin intMax
    rcases bitsOf_cases w with h | h | h | h <;> rw [h] <;> cases u <;> norm_num <;> intros <;> (repeat' split) <;>  omega
  · unfold intResult satResult
    simp only [if_true]
    rw [e]
    congr 1
    unfold flagIf intFits intClamp intMin intMax
    rcases bitsOf_cases w with h | h | h | h <;> rw [h] <;> cases u <;> norm_num <;> (repeat' split) <;> first | rfl | omega
/-- The word and flags of an exact result with and without `sat` (R41, R225). -/
theorem intResult_narrows (w : BitVec 2) (u st : Bool) (r : Int) :
    ∃ z f, narrows (bitsOf w) u st r z f ∧ (intResult (bitsOf w) u st r) = (BitVec.ofInt 64 z, f) := by
  cases st
  · obtain ⟨z, hz, e⟩ := extendTo64_wrap w u r
    exact ⟨z, 0, ⟨hz, rfl⟩, by unfold intResult satResult; simp [e]⟩
  · exact intResult_clamp w u r

end Sys2Proof.Machine
end

