-- ==== Sys2Proof/Laws/Lanes.lean ====
section
/-! SUPPORT. The values of a v register (R286): what a register built from values holds, and what the
value-by-value ops compute. -/

namespace Sys2Proof.Machine

/-- The digits of a number built from values narrower than their stride. -/
theorem packVals_digit {s w : Nat} (h : w ≤ s) (l : List Nat) (n : Nat) :
    packVals s w l / 2 ^ (s * n) % 2 ^ w = l.getD n 0 % 2 ^ w := by
  induction l generalizing n with
  | nil => simp [packVals]
  | cons v l ih =>
    have h1 : v % 2 ^ w < 2 ^ s := lt_of_lt_of_le (Nat.mod_lt _ (by positivity)) (Nat.pow_le_pow_right (by omega) h)
    cases n with
    | zero =>
      obtain ⟨d, rfl⟩ := Nat.exists_eq_add_of_le h
      simp only [packVals, Nat.mul_zero, pow_zero, Nat.div_one, List.getD_cons_zero]
      rw [show 2 ^ (w + d) * packVals (w + d) w l = 2 ^ w * (2 ^ d * packVals (w + d) w l) by ring,
        Nat.add_mul_mod_self_left, Nat.mod_mod]
    | succ n =>
      rw [List.getD_cons_succ, ← ih n]
      congr 1
      rw [Nat.mul_succ, Nat.add_comm, pow_add, ← Nat.div_div_eq_div_mul, packVals,
        Nat.add_mul_div_left _ _ (by positivity), Nat.div_eq_of_lt h1, Nat.zero_add]

/-- The values of a register in terms of Safety.lean (R286). -/
theorem valsOf_getD (w : Nat) (x : BitVec 512) {n : Nat} (h : n < 512 / stride w) :
    (valsOf w x).getD n 0 = valueOf w x n := by
  rw [valsOf, upTo, List.getD_eq_getElem?_getD, List.getElem?_map, List.getElem?_range h]
  rfl

/-- Lane j as a value (R286). -/
theorem laneOf_eq (x : BitVec 512) (j : Nat) : laneOf x j = valueOf 32 x j := rfl

/-- Results one by one. -/
theorem collect_length (l : List (Nat × Flags)) : (collect l).1.length = l.length := by
  induction l with
  | nil => rfl
  | cons p l ih => simp [collect, ih]

theorem collect_getD (l : List (Nat × Flags)) (n : Nat) : (collect l).1.getD n 0 = (l.getD n (0, 0)).1 := by
  induction l generalizing n with
  | nil => simp [collect]
  | cons p l ih => cases n with
    | zero => simp [collect]
    | succ n => simpa [collect] using ih n

end Sys2Proof.Machine
end

