-- ==== Sys2Proof/Laws/Memory.lean ====
section
/-! SUPPORT. Every operation that writes memory keeps its canonical form, and what a write leaves alone. -/

namespace Sys2Proof.Machine

/-- A write at its home keeps the canonical form. -/
theorem State.inv_write {s : State} (a : Nat) (bs : List Byte) (h : s.Inv) : (s.write a bs).Inv :=
  Memory.wf_memSetN bs _ h

/-- What a store to host memory sends along changes no byte. -/
@[simp] theorem State.writeBack_mem (s : State) (a : Nat) : (writeBack s a).mem = s.mem := by
  unfold writeBack
  split <;> rfl

/-- A pending store that performs at its home keeps the canonical form. -/
theorem State.inv_performHome {s : State} (i : Nat) (p : PStore) (h : s.Inv) : (performHome s i p).Inv := by
  unfold State.Inv performHome
  rw [State.writeBack_mem]
  exact Memory.wf_foldl (fun c : Nat × Byte => c.1) (fun c => storedByte s _ c.1 c.2) p.cells h

/-- A store that performs at a scope keeps the canonical form. -/
theorem State.inv_performAt {s : State} (i scope : Nat) (p : PStore) (h : s.Inv) : (performAt s i scope p).Inv := by
  unfold performAt
  have key : ∀ x : State × Nat, x.1.Inv → (if sameScope (homeScope s p.addr) scope = 7 then performHome x.1 x.2 p
      else { x.1 with stores := (setAt x.1.stores x.2
        { p with reached := max p.reached (sameScope (homeScope s p.addr) scope) }) }).Inv := by
    intro x hx
    split
    · exact State.inv_performHome x.2 p hx
    · exact hx
  have front : ∀ c : Bool, (if c = true then ({ s with stores := p :: dropAt s.stores i }, 0)
      else (s, i) : State × Nat).1.Inv := by
    intro c
    cases c <;> exact h
  exact key _ (front _)

/-- A save area written to memory keeps the canonical form. -/
theorem State.inv_writeArea {s : State} (a : Nat) (at_ : Nat → Bool) (cells : List (Nat × Byte)) (h : s.Inv) :
    (writeArea s a at_ cells).Inv :=
  Memory.wf_foldl (fun c : Nat × Byte => canonPa s.pkg.toNat a + c.1) (fun c => c.2) _ (Memory.wf_filter _ h)

/-- Two states with the same memory keep or break the canonical form together. -/
theorem State.inv_congr {s t : State} (h : t.mem = s.mem) : t.Inv ↔ s.Inv := by
  unfold State.Inv
  rw [h]

/-- A region, a steward core, a partition, a port or a task written leaves memory alone. -/
theorem State.inv_setRegion {s : State} (r : Nat) (x : Region) : (s.setRegion r x).Inv ↔ s.Inv := Iff.rfl
theorem State.inv_setStew {s : State} (c : Nat) (x : Steward) : (s.setStew c x).Inv ↔ s.Inv := Iff.rfl
theorem State.inv_setPart {s : State} (p : Nat) (x : Partition) : (s.setPart p x).Inv ↔ s.Inv := Iff.rfl
theorem State.inv_setPort {s : State} (p : Nat) (x : Port) : (s.setPort p x).Inv ↔ s.Inv := Iff.rfl
theorem State.inv_setTask {s : State} (c : CoreId) (x : Task) : (s.setTask c x).Inv ↔ s.Inv := by
  cases c <;> exact Iff.rfl
theorem State.inv_setMe {s : State} (x : Task) : (s.setMe x).Inv ↔ s.Inv := State.inv_setTask s.cur x

/-- A vector of a function sent changes no byte. -/
@[simp] theorem sendVector_mem (s : State) (p v : Nat) : (sendVector s p v).mem = s.mem := by
  unfold sendVector
  dsimp only
  split <;> rfl

/-- Steps of a fold that change no byte change none together. -/
theorem foldl_mem {α : Type} {f : State → α → State} (h : ∀ t x, (f t x).mem = t.mem) :
    ∀ (l : List α) (t : State), (l.foldl f t).mem = t.mem
  | [], _ => rfl
  | x :: l, t => (foldl_mem h l (f t x)).trans (h t x)

/-- Vectors that a write of pages sends change no byte. -/
theorem pageVectors_mem (s t : State) : (pageVectors s t).mem = t.mem := by
  refine foldl_mem (fun u p => ?_) _ t
  dsimp only
  repeat' split
  all_goals simp

/-- A store of an agent at its home keeps the canonical form. -/
theorem State.inv_busWrite {s : State} (a : Nat) (bs : List Byte) (h : s.Inv) : (s.busWrite a bs).Inv := by
  refine (State.inv_congr (pageVectors_mem _ _)).2 ?_
  exact State.inv_write _ _ h

/-- R280: what follows a turn changes holds and nothing else: no byte. -/
theorem noteWaits_mem (s : State) : (noteWaits s).mem = s.mem := by
  have one (t : State) (c : CoreId) : (noteWait t c).mem = t.mem := by
    unfold noteWait
    repeat' split
    all_goals dsimp only
    all_goals repeat' split
    all_goals first
      | rfl
      | exact State.setTask_mem ..
  exact foldl_mem one _ s

/-- R30: the rotation of a sequencer's turns changes no byte. -/
theorem rotate_mem (t : Turn) (s : State) : (rotate t s).mem = s.mem := by
  unfold rotate
  split <;> rfl

/-- The choice of a turn changes no byte. -/
theorem pickTurn_mem (s : State) : (pickTurn s).2.mem = s.mem := by
  unfold pickTurn
  split
  · rfl
  · exact rotate_mem _ _

end Sys2Proof.Machine
end

