-- ==== Sys2Proof/Laws/Order.lean ====
section
/-! SUPPORT. What the operations on stores of unordered pages can do (R116): they reorder stores and take a free value,
and leave everything else alone. -/

namespace Sys2Proof.Machine

theorem mem_putAt {α : Type} {x p : α} {n : Nat} {l : List α} : x ∈ putAt n p l ↔ x = p ∨ x ∈ l := by
  induction l generalizing n with
  | nil => cases n <;> simp [putAt]
  | cons y l ih =>
    cases n with
    | zero => simp [putAt]
    | succ n => simp [putAt, ih, or_left_comm]

/-- A shuffle loses no store and adds none. -/
theorem mem_shuffle {sel : PStore → Bool} {x : Nat} {q : PStore} {l : List PStore} :
    q ∈ (shuffle sel x l).1 ↔ q ∈ l := by
  induction l with
  | nil => simp [shuffle]
  | cons p l ih =>
    simp only [shuffle]
    split <;> simp [mem_putAt, ih]

/-- A fence's settling changes the places and the order marks of stores alone. -/
theorem State.settle_frame (s : State) (c : CoreId) (scope : Nat) :
    { s.settle c scope with stores := s.stores, free := s.free } = s := by
  unfold State.settle State.takeFree
  dsimp only
  split <;> rfl

/-- A read of an unordered page changes no state but the marks of what it has read and the count of free values. -/
theorem readUnordered_frame (s : State) (agent pa n : Nat) :
    { (readUnordered s agent pa n).2 with stores := s.stores, free := s.free } = s := by
  unfold readUnordered State.takeFree
  dsimp only
  split <;> rfl

/-- An atomic's view of an unordered page changes the places of stores alone. -/
theorem holdBack_frame (agent : Nat) (s : State) (p : Piece) :
    { (holdBack agent s p).2 with stores := s.stores, free := s.free } = s := by
  unfold holdBack State.takeFree
  dsimp only
  split <;> rfl

/-- A unit of slices without a mark and without an error reads well, and nothing changes. -/
theorem readSlice_clean {u : Nat} {lost : State → State} {s : State} (h : mapGet false s.poison u = false)
    (k : mapGet 0 s.bad u = 0) : readSlice u lost s = (false, s) := by
  simp [readSlice, h, k]

end Sys2Proof.Machine
end

