-- ==== Sys2Proof/Laws/PerInstr.lean ====
section
/-! SUPPORT. Per instruction: its word fits the bytes that it has in memory (R200, R203, R253). -/

namespace Sys2Proof.Laws.Encoding

set_option Elab.async false

/-- The bits of an instruction fit its bytes in memory; an event has neither. -/
def Statement (i : Instr) : Prop := encode i < 256 ^ i.size

/-- A field of n bits is less than 2^n. -/
theorem field_lt {n : Nat} (x : BitVec n) : x.toNat < 2 ^ n := x.isLt

theorem add (d a b : BitVec 5) (u : BitVec 1) (w : BitVec 2) (s : BitVec 1) : Statement (.add d a b u w s) := by
  simp only [Statement, encode, wordOf, Instr.size, Instr.form]
  have f_d := field_lt d
  have f_a := field_lt a
  have f_b := field_lt b
  have f_u := field_lt u
  have f_w := field_lt w
  have f_s := field_lt s
  omega

theorem sub (d a b : BitVec 5) (u : BitVec 1) (w : BitVec 2) (s : BitVec 1) : Statement (.sub d a b u w s) := by
  simp only [Statement, encode, wordOf, Instr.size, Instr.form]
  have f_d := field_lt d
  have f_a := field_lt a
  have f_b := field_lt b
  have f_u := field_lt u
  have f_w := field_lt w
  have f_s := field_lt s
  omega

theorem mul (d a b : BitVec 5) (u : BitVec 1) (w : BitVec 2) (s : BitVec 1) : Statement (.mul d a b u w s) := by
  simp only [Statement, encode, wordOf, Instr.size, Instr.form]
  have f_d := field_lt d
  have f_a := field_lt a
  have f_b := field_lt b
  have f_u := field_lt u
  have f_w := field_lt w
  have f_s := field_lt s
  omega

theorem mulh (d a b : BitVec 5) (u : BitVec 1) (w : BitVec 2) : Statement (.mulh d a b u w) := by
  simp only [Statement, encode, wordOf, Instr.size, Instr.form]
  have f_d := field_lt d
  have f_a := field_lt a
  have f_b := field_lt b
  have f_u := field_lt u
  have f_w := field_lt w
  omega

theorem div (d a b : BitVec 5) (u : BitVec 1) (w : BitVec 2) (s : BitVec 1) : Statement (.div d a b u w s) := by
  simp only [Statement, encode, wordOf, Instr.size, Instr.form]
  have f_d := field_lt d
  have f_a := field_lt a
  have f_b := field_lt b
  have f_u := field_lt u
  have f_w := field_lt w
  have f_s := field_lt s
  omega

theorem rem (d a b : BitVec 5) (u : BitVec 1) (w : BitVec 2) : Statement (.rem d a b u w) := by
  simp only [Statement, encode, wordOf, Instr.size, Instr.form]
  have f_d := field_lt d
  have f_a := field_lt a
  have f_b := field_lt b
  have f_u := field_lt u
  have f_w := field_lt w
  omega

theorem and_ (d a b : BitVec 5) (u : BitVec 1) (w : BitVec 2) : Statement (.and_ d a b u w) := by
  simp only [Statement, encode, wordOf, Instr.size, Instr.form]
  have f_d := field_lt d
  have f_a := field_lt a
  have f_b := field_lt b
  have f_u := field_lt u
  have f_w := field_lt w
  omega

theorem or_ (d a b : BitVec 5) (u : BitVec 1) (w : BitVec 2) : Statement (.or_ d a b u w) := by
  simp only [Statement, encode, wordOf, Instr.size, Instr.form]
  have f_d := field_lt d
  have f_a := field_lt a
  have f_b := field_lt b
  have f_u := field_lt u
  have f_w := field_lt w
  omega

theorem xor_ (d a b : BitVec 5) (u : BitVec 1) (w : BitVec 2) : Statement (.xor_ d a b u w) := by
  simp only [Statement, encode, wordOf, Instr.size, Instr.form]
  have f_d := field_lt d
  have f_a := field_lt a
  have f_b := field_lt b
  have f_u := field_lt u
  have f_w := field_lt w
  omega

theorem sll (d a b : BitVec 5) (u : BitVec 1) (w : BitVec 2) : Statement (.sll d a b u w) := by
  simp only [Statement, encode, wordOf, Instr.size, Instr.form]
  have f_d := field_lt d
  have f_a := field_lt a
  have f_b := field_lt b
  have f_u := field_lt u
  have f_w := field_lt w
  omega

theorem srl (d a b : BitVec 5) (u : BitVec 1) (w : BitVec 2) : Statement (.srl d a b u w) := by
  simp only [Statement, encode, wordOf, Instr.size, Instr.form]
  have f_d := field_lt d
  have f_a := field_lt a
  have f_b := field_lt b
  have f_u := field_lt u
  have f_w := field_lt w
  omega

theorem sra (d a b : BitVec 5) (w : BitVec 2) : Statement (.sra d a b w) := by
  simp only [Statement, encode, wordOf, Instr.size, Instr.form]
  have f_d := field_lt d
  have f_a := field_lt a
  have f_b := field_lt b
  have f_w := field_lt w
  omega

theorem slt (d a b : BitVec 5) (w : BitVec 2) : Statement (.slt d a b w) := by
  simp only [Statement, encode, wordOf, Instr.size, Instr.form]
  have f_d := field_lt d
  have f_a := field_lt a
  have f_b := field_lt b
  have f_w := field_lt w
  omega

theorem sltu (d a b : BitVec 5) (w : BitVec 2) : Statement (.sltu d a b w) := by
  simp only [Statement, encode, wordOf, Instr.size, Instr.form]
  have f_d := field_lt d
  have f_a := field_lt a
  have f_b := field_lt b
  have f_w := field_lt w
  omega

theorem min_ (d a b : BitVec 5) (u : BitVec 1) (w : BitVec 2) : Statement (.min_ d a b u w) := by
  simp only [Statement, encode, wordOf, Instr.size, Instr.form]
  have f_d := field_lt d
  have f_a := field_lt a
  have f_b := field_lt b
  have f_u := field_lt u
  have f_w := field_lt w
  omega

theorem max_ (d a b : BitVec 5) (u : BitVec 1) (w : BitVec 2) : Statement (.max_ d a b u w) := by
  simp only [Statement, encode, wordOf, Instr.size, Instr.form]
  have f_d := field_lt d
  have f_a := field_lt a
  have f_b := field_lt b
  have f_u := field_lt u
  have f_w := field_lt w
  omega

theorem addi (d a : BitVec 5) (i : BitVec 15) : Statement (.addi d a i) := by
  simp only [Statement, encode, wordOf, Instr.size, Instr.form]
  have f_d := field_lt d
  have f_a := field_lt a
  have f_i := field_lt i
  omega

theorem andi (d a : BitVec 5) (i : BitVec 15) : Statement (.andi d a i) := by
  simp only [Statement, encode, wordOf, Instr.size, Instr.form]
  have f_d := field_lt d
  have f_a := field_lt a
  have f_i := field_lt i
  omega

theorem ori (d a : BitVec 5) (i : BitVec 15) : Statement (.ori d a i) := by
  simp only [Statement, encode, wordOf, Instr.size, Instr.form]
  have f_d := field_lt d
  have f_a := field_lt a
  have f_i := field_lt i
  omega

theorem xori (d a : BitVec 5) (i : BitVec 15) : Statement (.xori d a i) := by
  simp only [Statement, encode, wordOf, Instr.size, Instr.form]
  have f_d := field_lt d
  have f_a := field_lt a
  have f_i := field_lt i
  omega

theorem slli (d a : BitVec 5) (c : BitVec 6) : Statement (.slli d a c) := by
  simp only [Statement, encode, wordOf, Instr.size, Instr.form]
  have f_d := field_lt d
  have f_a := field_lt a
  have f_c := field_lt c
  omega

theorem srli (d a : BitVec 5) (c : BitVec 6) : Statement (.srli d a c) := by
  simp only [Statement, encode, wordOf, Instr.size, Instr.form]
  have f_d := field_lt d
  have f_a := field_lt a
  have f_c := field_lt c
  omega

theorem srai (d a : BitVec 5) (c : BitVec 6) : Statement (.srai d a c) := by
  simp only [Statement, encode, wordOf, Instr.size, Instr.form]
  have f_d := field_lt d
  have f_a := field_lt a
  have f_c := field_lt c
  omega

theorem slti (d a : BitVec 5) (i : BitVec 15) : Statement (.slti d a i) := by
  simp only [Statement, encode, wordOf, Instr.size, Instr.form]
  have f_d := field_lt d
  have f_a := field_lt a
  have f_i := field_lt i
  omega

theorem sltiu (d a : BitVec 5) (i : BitVec 15) : Statement (.sltiu d a i) := by
  simp only [Statement, encode, wordOf, Instr.size, Instr.form]
  have f_d := field_lt d
  have f_a := field_lt a
  have f_i := field_lt i
  omega

theorem li (d : BitVec 5) (imm : BitVec 32) : Statement (.li d imm) := by
  simp only [Statement, encode, wordOf, Instr.size]
  have f_d := field_lt d
  have f_imm := field_lt imm
  omega

theorem lih (d : BitVec 5) (imm : BitVec 32) : Statement (.lih d imm) := by
  simp only [Statement, encode, wordOf, Instr.size]
  have f_d := field_lt d
  have f_imm := field_lt imm
  omega

theorem addil (d a : BitVec 5) (imm : BitVec 32) : Statement (.addil d a imm) := by
  simp only [Statement, encode, wordOf, Instr.size]
  have f_d := field_lt d
  have f_a := field_lt a
  have f_imm := field_lt imm
  omega

theorem csrr (d : BitVec 5) (r : BitVec 12) : Statement (.csrr d r) := by
  simp only [Statement, encode, wordOf, Instr.size, Instr.form]
  have f_d := field_lt d
  have f_r := field_lt r
  omega

theorem csrw (d a : BitVec 5) (r : BitVec 12) : Statement (.csrw d a r) := by
  simp only [Statement, encode, wordOf, Instr.size, Instr.form]
  have f_d := field_lt d
  have f_a := field_lt a
  have f_r := field_lt r
  omega

theorem csrs (d a : BitVec 5) (r : BitVec 12) : Statement (.csrs d a r) := by
  simp only [Statement, encode, wordOf, Instr.size, Instr.form]
  have f_d := field_lt d
  have f_a := field_lt a
  have f_r := field_lt r
  omega

theorem csrc (d a : BitVec 5) (r : BitVec 12) : Statement (.csrc d a r) := by
  simp only [Statement, encode, wordOf, Instr.size, Instr.form]
  have f_d := field_lt d
  have f_a := field_lt a
  have f_r := field_lt r
  omega

theorem b_ (o : BitVec 20) : Statement (.b_ o) := by
  simp only [Statement, encode, wordOf, Instr.size, Instr.form]
  have f_o := field_lt o
  omega

theorem beqz (a : BitVec 5) (o : BitVec 20) : Statement (.beqz a o) := by
  simp only [Statement, encode, wordOf, Instr.size, Instr.form]
  have f_a := field_lt a
  have f_o := field_lt o
  omega

theorem bnez (a : BitVec 5) (o : BitVec 20) : Statement (.bnez a o) := by
  simp only [Statement, encode, wordOf, Instr.size, Instr.form]
  have f_a := field_lt a
  have f_o := field_lt o
  omega

theorem bltz (a : BitVec 5) (o : BitVec 20) : Statement (.bltz a o) := by
  simp only [Statement, encode, wordOf, Instr.size, Instr.form]
  have f_a := field_lt a
  have f_o := field_lt o
  omega

theorem bgez (a : BitVec 5) (o : BitVec 20) : Statement (.bgez a o) := by
  simp only [Statement, encode, wordOf, Instr.size, Instr.form]
  have f_a := field_lt a
  have f_o := field_lt o
  omega

theorem bgtz (a : BitVec 5) (o : BitVec 20) : Statement (.bgtz a o) := by
  simp only [Statement, encode, wordOf, Instr.size, Instr.form]
  have f_a := field_lt a
  have f_o := field_lt o
  omega

theorem blez (a : BitVec 5) (o : BitVec 20) : Statement (.blez a o) := by
  simp only [Statement, encode, wordOf, Instr.size, Instr.form]
  have f_a := field_lt a
  have f_o := field_lt o
  omega

theorem call (f : BitVec 5) (o : BitVec 20) : Statement (.call f o) := by
  simp only [Statement, encode, wordOf, Instr.size, Instr.form]
  have f_f := field_lt f
  have f_o := field_lt o
  omega

theorem callr (f a : BitVec 5) : Statement (.callr f a) := by
  simp only [Statement, encode, wordOf, Instr.size, Instr.form]
  have f_f := field_lt f
  have f_a := field_lt a
  omega

theorem ret : Statement (.ret) := by
  simp only [Statement, encode, wordOf, Instr.size, Instr.form]
  decide

theorem jr (a : BitVec 5) : Statement (.jr a) := by
  simp only [Statement, encode, wordOf, Instr.size, Instr.form]
  have f_a := field_lt a
  omega

theorem ldI8 (d a : BitVec 5) (i : BitVec 12) (s : BitVec 3) : Statement (.ldI8 d a i s) := by
  simp only [Statement, encode, wordOf, Instr.size, Instr.form]
  have f_d := field_lt d
  have f_a := field_lt a
  have f_i := field_lt i
  have f_s := field_lt s
  omega

theorem ldN8 (d a : BitVec 5) (i : BitVec 12) (s : BitVec 3) : Statement (.ldN8 d a i s) := by
  simp only [Statement, encode, wordOf, Instr.size, Instr.form]
  have f_d := field_lt d
  have f_a := field_lt a
  have f_i := field_lt i
  have f_s := field_lt s
  omega

theorem ldI16 (d a : BitVec 5) (i : BitVec 12) (s : BitVec 3) : Statement (.ldI16 d a i s) := by
  simp only [Statement, encode, wordOf, Instr.size, Instr.form]
  have f_d := field_lt d
  have f_a := field_lt a
  have f_i := field_lt i
  have f_s := field_lt s
  omega

theorem ldN16 (d a : BitVec 5) (i : BitVec 12) (s : BitVec 3) : Statement (.ldN16 d a i s) := by
  simp only [Statement, encode, wordOf, Instr.size, Instr.form]
  have f_d := field_lt d
  have f_a := field_lt a
  have f_i := field_lt i
  have f_s := field_lt s
  omega

theorem ldI32 (d a : BitVec 5) (i : BitVec 12) (s : BitVec 3) : Statement (.ldI32 d a i s) := by
  simp only [Statement, encode, wordOf, Instr.size, Instr.form]
  have f_d := field_lt d
  have f_a := field_lt a
  have f_i := field_lt i
  have f_s := field_lt s
  omega

theorem ldN32 (d a : BitVec 5) (i : BitVec 12) (s : BitVec 3) : Statement (.ldN32 d a i s) := by
  simp only [Statement, encode, wordOf, Instr.size, Instr.form]
  have f_d := field_lt d
  have f_a := field_lt a
  have f_i := field_lt i
  have f_s := field_lt s
  omega

theorem ldI64 (d a : BitVec 5) (i : BitVec 12) (s : BitVec 3) : Statement (.ldI64 d a i s) := by
  simp only [Statement, encode, wordOf, Instr.size, Instr.form]
  have f_d := field_lt d
  have f_a := field_lt a
  have f_i := field_lt i
  have f_s := field_lt s
  omega

theorem stI8 (d a : BitVec 5) (i : BitVec 12) (s : BitVec 3) : Statement (.stI8 d a i s) := by
  simp only [Statement, encode, wordOf, Instr.size, Instr.form]
  have f_d := field_lt d
  have f_a := field_lt a
  have f_i := field_lt i
  have f_s := field_lt s
  omega

theorem stI16 (d a : BitVec 5) (i : BitVec 12) (s : BitVec 3) : Statement (.stI16 d a i s) := by
  simp only [Statement, encode, wordOf, Instr.size, Instr.form]
  have f_d := field_lt d
  have f_a := field_lt a
  have f_i := field_lt i
  have f_s := field_lt s
  omega

theorem stI32 (d a : BitVec 5) (i : BitVec 12) (s : BitVec 3) : Statement (.stI32 d a i s) := by
  simp only [Statement, encode, wordOf, Instr.size, Instr.form]
  have f_d := field_lt d
  have f_a := field_lt a
  have f_i := field_lt i
  have f_s := field_lt s
  omega

theorem stI64 (d a : BitVec 5) (i : BitVec 12) (s : BitVec 3) : Statement (.stI64 d a i s) := by
  simp only [Statement, encode, wordOf, Instr.size, Instr.form]
  have f_d := field_lt d
  have f_a := field_lt a
  have f_i := field_lt i
  have f_s := field_lt s
  omega

theorem ldacq (d a : BitVec 5) (w : BitVec 2) (u : BitVec 1) (s : BitVec 3) : Statement (.ldacq d a w u s) := by
  simp only [Statement, encode, wordOf, Instr.size, Instr.form]
  have f_d := field_lt d
  have f_a := field_lt a
  have f_w := field_lt w
  have f_u := field_lt u
  have f_s := field_lt s
  omega

theorem strel (d a b : BitVec 5) (w : BitVec 2) (s : BitVec 3) : Statement (.strel d a b w s) := by
  simp only [Statement, encode, wordOf, Instr.size, Instr.form]
  have f_d := field_lt d
  have f_a := field_lt a
  have f_b := field_lt b
  have f_w := field_lt w
  have f_s := field_lt s
  omega

theorem fence (d : BitVec 5) (s : BitVec 3) : Statement (.fence d s) := by
  simp only [Statement, encode, wordOf, Instr.size, Instr.form]
  have f_d := field_lt d
  have f_s := field_lt s
  omega

theorem fenceLca (d a : BitVec 5) : Statement (.fenceLca d a) := by
  simp only [Statement, encode, wordOf, Instr.size, Instr.form]
  have f_d := field_lt d
  have f_a := field_lt a
  omega

theorem fenceComplete (c : CoreId) : Statement (.fenceComplete c) := Nat.zero_lt_one

theorem fenceTimeout (c : CoreId) : Statement (.fenceTimeout c) := Nat.zero_lt_one

theorem amoadd (d a b : BitVec 5) (w : BitVec 1) (o : BitVec 2) (s : BitVec 3) : Statement (.amoadd d a b w o s) := by
  simp only [Statement, encode, wordOf, Instr.size, Instr.form]
  have f_d := field_lt d
  have f_a := field_lt a
  have f_b := field_lt b
  have f_w := field_lt w
  have f_o := field_lt o
  have f_s := field_lt s
  omega

theorem amoand (d a b : BitVec 5) (w : BitVec 1) (o : BitVec 2) (s : BitVec 3) : Statement (.amoand d a b w o s) := by
  simp only [Statement, encode, wordOf, Instr.size, Instr.form]
  have f_d := field_lt d
  have f_a := field_lt a
  have f_b := field_lt b
  have f_w := field_lt w
  have f_o := field_lt o
  have f_s := field_lt s
  omega

theorem amoor (d a b : BitVec 5) (w : BitVec 1) (o : BitVec 2) (s : BitVec 3) : Statement (.amoor d a b w o s) := by
  simp only [Statement, encode, wordOf, Instr.size, Instr.form]
  have f_d := field_lt d
  have f_a := field_lt a
  have f_b := field_lt b
  have f_w := field_lt w
  have f_o := field_lt o
  have f_s := field_lt s
  omega

theorem amoxor (d a b : BitVec 5) (w : BitVec 1) (o : BitVec 2) (s : BitVec 3) : Statement (.amoxor d a b w o s) := by
  simp only [Statement, encode, wordOf, Instr.size, Instr.form]
  have f_d := field_lt d
  have f_a := field_lt a
  have f_b := field_lt b
  have f_w := field_lt w
  have f_o := field_lt o
  have f_s := field_lt s
  omega

theorem amomin (d a b : BitVec 5) (w : BitVec 1) (o : BitVec 2) (s : BitVec 3) : Statement (.amomin d a b w o s) := by
  simp only [Statement, encode, wordOf, Instr.size, Instr.form]
  have f_d := field_lt d
  have f_a := field_lt a
  have f_b := field_lt b
  have f_w := field_lt w
  have f_o := field_lt o
  have f_s := field_lt s
  omega

theorem amomax (d a b : BitVec 5) (w : BitVec 1) (o : BitVec 2) (s : BitVec 3) : Statement (.amomax d a b w o s) := by
  simp only [Statement, encode, wordOf, Instr.size, Instr.form]
  have f_d := field_lt d
  have f_a := field_lt a
  have f_b := field_lt b
  have f_w := field_lt w
  have f_o := field_lt o
  have f_s := field_lt s
  omega

theorem amominu (d a b : BitVec 5) (w : BitVec 1) (o : BitVec 2) (s : BitVec 3) : Statement (.amominu d a b w o s) := by
  simp only [Statement, encode, wordOf, Instr.size, Instr.form]
  have f_d := field_lt d
  have f_a := field_lt a
  have f_b := field_lt b
  have f_w := field_lt w
  have f_o := field_lt o
  have f_s := field_lt s
  omega

theorem amomaxu (d a b : BitVec 5) (w : BitVec 1) (o : BitVec 2) (s : BitVec 3) : Statement (.amomaxu d a b w o s) := by
  simp only [Statement, encode, wordOf, Instr.size, Instr.form]
  have f_d := field_lt d
  have f_a := field_lt a
  have f_b := field_lt b
  have f_w := field_lt w
  have f_o := field_lt o
  have f_s := field_lt s
  omega

theorem amoswap (d a b : BitVec 5) (w : BitVec 1) (o : BitVec 2) (s : BitVec 3) : Statement (.amoswap d a b w o s) := by
  simp only [Statement, encode, wordOf, Instr.size, Instr.form]
  have f_d := field_lt d
  have f_a := field_lt a
  have f_b := field_lt b
  have f_w := field_lt w
  have f_o := field_lt o
  have f_s := field_lt s
  omega

theorem cas (d a b : BitVec 5) (w : BitVec 1) (o : BitVec 2) (s : BitVec 3) : Statement (.cas d a b w o s) := by
  simp only [Statement, encode, wordOf, Instr.size, Instr.form]
  have f_d := field_lt d
  have f_a := field_lt a
  have f_b := field_lt b
  have f_w := field_lt w
  have f_o := field_lt o
  have f_s := field_lt s
  omega

theorem copy (d a : BitVec 5) (n r : BitVec 3) (v : BitVec 2) (t : BitVec 6) : Statement (.copy d a n r v t) := by
  simp only [Statement, encode, wordOf, Instr.size, Instr.form]
  have f_d := field_lt d
  have f_a := field_lt a
  have f_n := field_lt n
  have f_r := field_lt r
  have f_v := field_lt v
  have f_t := field_lt t
  omega

theorem copyCfg (d a : BitVec 5) (t : BitVec 6) : Statement (.copyCfg d a t) := by
  simp only [Statement, encode, wordOf, Instr.size, Instr.form]
  have f_d := field_lt d
  have f_a := field_lt a
  have f_t := field_lt t
  omega

theorem gather (d a : BitVec 5) (n r : BitVec 3) (v : BitVec 2) (t : BitVec 6) : Statement (.gather d a n r v t) := by
  simp only [Statement, encode, wordOf, Instr.size, Instr.form]
  have f_d := field_lt d
  have f_a := field_lt a
  have f_n := field_lt n
  have f_r := field_lt r
  have f_v := field_lt v
  have f_t := field_lt t
  omega

theorem scatter (d a : BitVec 5) (n r : BitVec 3) (v : BitVec 2) (t : BitVec 6) : Statement (.scatter d a n r v t) := by
  simp only [Statement, encode, wordOf, Instr.size, Instr.form]
  have f_d := field_lt d
  have f_a := field_lt a
  have f_n := field_lt n
  have f_r := field_lt r
  have f_v := field_lt v
  have f_t := field_lt t
  omega

theorem merge (d a : BitVec 5) (y : BitVec 2) (r : BitVec 3) (k : BitVec 1) (t : BitVec 6) : Statement (.merge d a y r k t) := by
  simp only [Statement, encode, wordOf, Instr.size, Instr.form]
  have f_d := field_lt d
  have f_a := field_lt a
  have f_y := field_lt y
  have f_r := field_lt r
  have f_k := field_lt k
  have f_t := field_lt t
  omega

theorem mscan (d a : BitVec 5) (t : BitVec 6) : Statement (.mscan d a t) := by
  simp only [Statement, encode, wordOf, Instr.size, Instr.form]
  have f_d := field_lt d
  have f_a := field_lt a
  have f_t := field_lt t
  omega

theorem waitt (d a : BitVec 5) (m : BitVec 1) : Statement (.waitt d a m) := by
  simp only [Statement, encode, wordOf, Instr.size, Instr.form]
  have f_d := field_lt d
  have f_a := field_lt a
  have f_m := field_lt m
  omega

theorem waittRelease (c : CoreId) : Statement (.waittRelease c) := Nat.zero_lt_one

theorem ffr (d a : BitVec 5) : Statement (.ffr d a) := by
  simp only [Statement, encode, wordOf, Instr.size, Instr.form]
  have f_d := field_lt d
  have f_a := field_lt a
  omega

theorem cbload (d a : BitVec 5) (s : BitVec 3) (w : BitVec 1) : Statement (.cbload d a s w) := by
  simp only [Statement, encode, wordOf, Instr.size, Instr.form]
  have f_d := field_lt d
  have f_a := field_lt a
  have f_s := field_lt s
  have f_w := field_lt w
  omega

theorem abatch (d a : BitVec 5) (t : BitVec 6) : Statement (.abatch d a t) := by
  simp only [Statement, encode, wordOf, Instr.size, Instr.form]
  have f_d := field_lt d
  have f_a := field_lt a
  have f_t := field_lt t
  omega

theorem bind (d a : BitVec 5) (h : BitVec 4) : Statement (.bind d a h) := by
  simp only [Statement, encode, wordOf, Instr.size, Instr.form]
  have f_d := field_lt d
  have f_a := field_lt a
  have f_h := field_lt h
  omega

theorem unbind (d a : BitVec 5) (h : BitVec 4) : Statement (.unbind d a h) := by
  simp only [Statement, encode, wordOf, Instr.size, Instr.form]
  have f_d := field_lt d
  have f_a := field_lt a
  have f_h := field_lt h
  omega

theorem bindHoldEnd (c : CoreId) : Statement (.bindHoldEnd c) := Nat.zero_lt_one

theorem tseal (d a : BitVec 5) (h : BitVec 1) (t : BitVec 6) : Statement (.tseal d a h t) := by
  simp only [Statement, encode, wordOf, Instr.size, Instr.form]
  have f_d := field_lt d
  have f_a := field_lt a
  have f_h := field_lt h
  have f_t := field_lt t
  omega

theorem pfxfind (d a : BitVec 5) : Statement (.pfxfind d a) := by
  simp only [Statement, encode, wordOf, Instr.size, Instr.form]
  have f_d := field_lt d
  have f_a := field_lt a
  omega

theorem topk (d a : BitVec 5) (t : BitVec 6) : Statement (.topk d a t) := by
  simp only [Statement, encode, wordOf, Instr.size, Instr.form]
  have f_d := field_lt d
  have f_a := field_lt a
  have f_t := field_lt t
  omega

theorem hullw (d a : BitVec 5) (t : BitVec 6) : Statement (.hullw d a t) := by
  simp only [Statement, encode, wordOf, Instr.size, Instr.form]
  have f_d := field_lt d
  have f_a := field_lt a
  have f_t := field_lt t
  omega

theorem tfork (d a : BitVec 5) (t : BitVec 6) : Statement (.tfork d a t) := by
  simp only [Statement, encode, wordOf, Instr.size, Instr.form]
  have f_d := field_lt d
  have f_a := field_lt a
  have f_t := field_lt t
  omega

theorem tevict (d a : BitVec 5) (t : BitVec 6) : Statement (.tevict d a t) := by
  simp only [Statement, encode, wordOf, Instr.size, Instr.form]
  have f_d := field_lt d
  have f_a := field_lt a
  have f_t := field_lt t
  omega

theorem engineQueueHoldEnd (c : CoreId) : Statement (.engineQueueHoldEnd c) := Nat.zero_lt_one

theorem tagCountHoldEnd (c : CoreId) : Statement (.tagCountHoldEnd c) := Nat.zero_lt_one

theorem engineCommandComplete (region : Nat) (e : Engine) (index : Nat) : Statement (.engineCommandComplete region e index) := Nat.zero_lt_one

theorem engineCommandAbandon (region : Nat) (e : Engine) (index : Nat) : Statement (.engineCommandAbandon region e index) := Nat.zero_lt_one

theorem attentionBatchComplete (region index : Nat) : Statement (.attentionBatchComplete region index) := Nat.zero_lt_one

theorem attentionBatchAbandon (region index : Nat) : Statement (.attentionBatchAbandon region index) := Nat.zero_lt_one

theorem launch (d a : BitVec 5) (n : BitVec 3) : Statement (.launch d a n) := by
  simp only [Statement, encode, wordOf, Instr.size, Instr.form]
  have f_d := field_lt d
  have f_a := field_lt a
  have f_n := field_lt n
  omega

theorem launchHoldEnd (c : CoreId) : Statement (.launchHoldEnd c) := Nat.zero_lt_one

theorem spawn (d a : BitVec 5) (n : BitVec 3) : Statement (.spawn d a n) := by
  simp only [Statement, encode, wordOf, Instr.size, Instr.form]
  have f_d := field_lt d
  have f_a := field_lt a
  have f_n := field_lt n
  omega

theorem tail : Statement (.tail) := by
  simp only [Statement, encode, wordOf, Instr.size, Instr.form]
  decide

theorem tailHoldEnd (c : CoreId) : Statement (.tailHoldEnd c) := Nat.zero_lt_one

theorem retirementTrackerDrain (region index : Nat) : Statement (.retirementTrackerDrain region index) := Nat.zero_lt_one

theorem gopen (d a : BitVec 5) (h : BitVec 12) : Statement (.gopen d a h) := by
  simp only [Statement, encode, wordOf, Instr.size, Instr.form]
  have f_d := field_lt d
  have f_a := field_lt a
  have f_h := field_lt h
  omega

theorem gclose (d : BitVec 5) (h : BitVec 12) : Statement (.gclose d h) := by
  simp only [Statement, encode, wordOf, Instr.size, Instr.form]
  have f_d := field_lt d
  have f_h := field_lt h
  omega

theorem jopen (d : BitVec 5) (h : BitVec 12) : Statement (.jopen d h) := by
  simp only [Statement, encode, wordOf, Instr.size, Instr.form]
  have f_d := field_lt d
  have f_h := field_lt h
  omega

theorem reconf (d : BitVec 5) (h : BitVec 12) : Statement (.reconf d h) := by
  simp only [Statement, encode, wordOf, Instr.size, Instr.form]
  have f_d := field_lt d
  have f_h := field_lt h
  omega

theorem reconfHoldEnd (c : CoreId) : Statement (.reconfHoldEnd c) := Nat.zero_lt_one

theorem reconfTokenPass (region : Nat) : Statement (.reconfTokenPass region) := Nat.zero_lt_one

theorem waitc (d : BitVec 5) (h : BitVec 12) : Statement (.waitc d h) := by
  simp only [Statement, encode, wordOf, Instr.size, Instr.form]
  have f_d := field_lt d
  have f_h := field_lt h
  omega

theorem waitcRelease (c : CoreId) : Statement (.waitcRelease c) := Nat.zero_lt_one

theorem cancel (d : BitVec 5) (l : BitVec 3) (h : BitVec 12) : Statement (.cancel d l h) := by
  simp only [Statement, encode, wordOf, Instr.size, Instr.form]
  have f_d := field_lt d
  have f_l := field_lt l
  have f_h := field_lt h
  omega

theorem unitComplete (region island : Nat) : Statement (.unitComplete region island) := Nat.zero_lt_one

theorem sendm (d a : BitVec 5) : Statement (.sendm d a) := by
  simp only [Statement, encode, wordOf, Instr.size, Instr.form]
  have f_d := field_lt d
  have f_a := field_lt a
  omega

theorem recvm (d : BitVec 5) : Statement (.recvm d) := by
  simp only [Statement, encode, wordOf, Instr.size, Instr.form]
  have f_d := field_lt d
  omega

theorem recvmRelease (c : CoreId) : Statement (.recvmRelease c) := Nat.zero_lt_one

theorem barinit (d a : BitVec 5) (h : BitVec 8) : Statement (.barinit d a h) := by
  simp only [Statement, encode, wordOf, Instr.size, Instr.form]
  have f_d := field_lt d
  have f_a := field_lt a
  have f_h := field_lt h
  omega

theorem bararr (d : BitVec 5) (s : BitVec 3) (h : BitVec 8) : Statement (.bararr d s h) := by
  simp only [Statement, encode, wordOf, Instr.size, Instr.form]
  have f_d := field_lt d
  have f_s := field_lt s
  have f_h := field_lt h
  omega

theorem barwait (d : BitVec 5) (h : BitVec 8) : Statement (.barwait d h) := by
  simp only [Statement, encode, wordOf, Instr.size, Instr.form]
  have f_d := field_lt d
  have f_h := field_lt h
  omega

theorem barwaitRelease (c : CoreId) : Statement (.barwaitRelease c) := Nat.zero_lt_one

theorem waita (d a b : BitVec 5) : Statement (.waita d a b) := by
  simp only [Statement, encode, wordOf, Instr.size, Instr.form]
  have f_d := field_lt d
  have f_a := field_lt a
  have f_b := field_lt b
  omega

theorem waitaRelease (c : CoreId) : Statement (.waitaRelease c) := Nat.zero_lt_one

theorem snap : Statement (.snap) := by
  simp only [Statement, encode, wordOf, Instr.size, Instr.form]
  decide

theorem tret : Statement (.tret) := by
  simp only [Statement, encode, wordOf, Instr.size, Instr.form]
  decide

theorem trap (n : BitVec 15) : Statement (.trap n) := by
  simp only [Statement, encode, wordOf, Instr.size, Instr.form]
  have f_n := field_lt n
  omega

theorem hcall (n : BitVec 15) : Statement (.hcall n) := by
  simp only [Statement, encode, wordOf, Instr.size, Instr.form]
  have f_n := field_lt n
  omega

theorem asyncTrapTake (chiplet : Nat) : Statement (.asyncTrapTake chiplet) := Nat.zero_lt_one

theorem tlbiPage (a b : BitVec 5) : Statement (.tlbiPage a b) := by
  simp only [Statement, encode, wordOf, Instr.size, Instr.form]
  have f_a := field_lt a
  have f_b := field_lt b
  omega

theorem tlbiPageall (a b : BitVec 5) : Statement (.tlbiPageall a b) := by
  simp only [Statement, encode, wordOf, Instr.size, Instr.form]
  have f_a := field_lt a
  have f_b := field_lt b
  omega

theorem tlbiCid (a b : BitVec 5) : Statement (.tlbiCid a b) := by
  simp only [Statement, encode, wordOf, Instr.size, Instr.form]
  have f_a := field_lt a
  have f_b := field_lt b
  omega

theorem tlbiAll (a b : BitVec 5) : Statement (.tlbiAll a b) := by
  simp only [Statement, encode, wordOf, Instr.size, Instr.form]
  have f_a := field_lt a
  have f_b := field_lt b
  omega

theorem icinv (a : BitVec 5) : Statement (.icinv a) := by
  simp only [Statement, encode, wordOf, Instr.size, Instr.form]
  have f_a := field_lt a
  omega

theorem icinvAll (a : BitVec 5) : Statement (.icinvAll a) := by
  simp only [Statement, encode, wordOf, Instr.size, Instr.form]
  have f_a := field_lt a
  omega

theorem framemap (d a b : BitVec 5) : Statement (.framemap d a b) := by
  simp only [Statement, encode, wordOf, Instr.size, Instr.form]
  have f_d := field_lt d
  have f_a := field_lt a
  have f_b := field_lt b
  omega

theorem framefree (d a b : BitVec 5) : Statement (.framefree d a b) := by
  simp only [Statement, encode, wordOf, Instr.size, Instr.form]
  have f_d := field_lt d
  have f_a := field_lt a
  have f_b := field_lt b
  omega

theorem scrubComplete (pa : Nat) (lasting : Bool) : Statement (.scrubComplete pa lasting) := Nat.zero_lt_one

theorem rsave (d a b : BitVec 5) : Statement (.rsave d a b) := by
  simp only [Statement, encode, wordOf, Instr.size, Instr.form]
  have f_d := field_lt d
  have f_a := field_lt a
  have f_b := field_lt b
  omega

theorem rsaveComplete (c : CoreId) : Statement (.rsaveComplete c) := Nat.zero_lt_one

theorem rrest (d a b : BitVec 5) : Statement (.rrest d a b) := by
  simp only [Statement, encode, wordOf, Instr.size, Instr.form]
  have f_d := field_lt d
  have f_a := field_lt a
  have f_b := field_lt b
  omega

theorem rrestComplete (c : CoreId) : Statement (.rrestComplete c) := Nat.zero_lt_one

theorem ppwaitExpiry (region : Nat) : Statement (.ppwaitExpiry region) := Nat.zero_lt_one

theorem bankAccessRelease (region elem bank : Nat) : Statement (.bankAccessRelease region elem bank) := Nat.zero_lt_one

theorem islandTick (region island : Nat) : Statement (.islandTick region island) := Nat.zero_lt_one

theorem loadRequestIssue (region elem port : Nat) : Statement (.loadRequestIssue region elem port) := Nat.zero_lt_one

theorem loadReplyLand (region elem port : Nat) : Statement (.loadReplyLand region elem port) := Nat.zero_lt_one

theorem storeQueueDrain (region elem port : Nat) : Statement (.storeQueueDrain region elem port) := Nat.zero_lt_one

theorem storePerform (index : Nat) (scope : BitVec 3) : Statement (.storePerform index scope) := Nat.zero_lt_one

theorem storeRefused (index : Nat) : Statement (.storeRefused index) := Nat.zero_lt_one

theorem remoteAccessRequest (pa part : Nat) (write : Bool) (data : List Byte) : Statement (.remoteAccessRequest pa part write data) := Nat.zero_lt_one

theorem agFault (region elem port : Nat) : Statement (.agFault region elem port) := Nat.zero_lt_one

theorem agfaultResume (region elem : Nat) : Statement (.agfaultResume region elem) := Nat.zero_lt_one

theorem agfaultDiscard (region elem : Nat) : Statement (.agfaultDiscard region elem) := Nat.zero_lt_one

theorem stallWatchdog (region island : Nat) : Statement (.stallWatchdog region island) := Nat.zero_lt_one

theorem parityHit (region elem : Nat) : Statement (.parityHit region elem) := Nat.zero_lt_one

theorem dramRowRemap (pa : Nat) (spare : Bool) : Statement (.dramRowRemap pa spare) := Nat.zero_lt_one

theorem ptScopeMaxWrite (part : Nat) (cap : BitVec 3) : Statement (.ptScopeMaxWrite part cap) := Nat.zero_lt_one

theorem ptCtxWrite (c : CoreId) (v : Word) : Statement (.ptCtxWrite c v) := Nat.zero_lt_one

theorem elFflagsWrite (region : Nat) (v : Word) : Statement (.elFflagsWrite region v) := Nat.zero_lt_one

theorem stWinFlush (chiplet : Nat) : Statement (.stWinFlush chiplet) := Nat.zero_lt_one

theorem stWinDepth (chiplet : Nat) (depth : BitVec 32) : Statement (.stWinDepth chiplet depth) := Nat.zero_lt_one

theorem ptUpWrite (part : Nat) (v : Word) : Statement (.ptUpWrite part v) := Nat.zero_lt_one

theorem lkSlotselWrite (port : Nat) (v : Word) : Statement (.lkSlotselWrite port v) := Nat.zero_lt_one

theorem healthCritRestart : Statement (.healthCritRestart) := Nat.zero_lt_one

theorem thermalAlarm (current : Bool) : Statement (.thermalAlarm current) := Nat.zero_lt_one

theorem criticalStop : Statement (.criticalStop) := Nat.zero_lt_one

theorem lanikaFrameBoundary (port : Nat) (aligned : Bool) : Statement (.lanikaFrameBoundary port aligned) := Nat.zero_lt_one

theorem lanikaSlot (port slot : Nat) : Statement (.lanikaSlot port slot) := Nat.zero_lt_one

theorem lanikaWordArrive (port : Nat) (good : Bool) (lane : Nat) : Statement (.lanikaWordArrive port good lane) := Nat.zero_lt_one

theorem lanikaControlFlits (port : Nat) : Statement (.lanikaControlFlits port) := Nat.zero_lt_one

theorem portDeclaredDead (port : Nat) (packages : List Nat) : Statement (.portDeclaredDead port packages) := Nat.zero_lt_one

theorem routeRecomputeDone : Statement (.routeRecomputeDone) := Nat.zero_lt_one

theorem hostMailboxWrite (part offset : Nat) (data : List Byte) : Statement (.hostMailboxWrite part offset data) := Nat.zero_lt_one

theorem hostStatusRead (part : Nat) : Statement (.hostStatusRead part) := Nat.zero_lt_one

theorem quoteRequest (part : Nat) (nonce : List Byte) : Statement (.quoteRequest part nonce) := Nat.zero_lt_one

theorem functionLevelReset (part : Nat) : Statement (.functionLevelReset part) := Nat.zero_lt_one

theorem partitionOff (part : Nat) : Statement (.partitionOff part) := Nat.zero_lt_one

theorem deviceReset : Statement (.deviceReset) := Nat.zero_lt_one

theorem powerOnBoot (verified : Bool) : Statement (.powerOnBoot verified) := Nat.zero_lt_one

theorem snapshotTickMatch : Statement (.snapshotTickMatch) := Nat.zero_lt_one

theorem snapshotPin : Statement (.snapshotPin) := Nat.zero_lt_one

theorem snapshotLatch : Statement (.snapshotLatch) := Nat.zero_lt_one

theorem snapshotDumpDone : Statement (.snapshotDumpDone) := Nat.zero_lt_one

theorem vnop : Statement (.vnop) := by
  simp only [Statement, encode, wordOf, Instr.size, Instr.form]
  decide

theorem vnopUnguarded : Statement (.vnopUnguarded) := by
  simp only [Statement, encode, wordOf, Instr.size, Instr.form]
  decide

theorem vadd (t : BitVec 3) (u s : BitVec 1) : Statement (.vadd t u s) := by
  simp only [Statement, encode, wordOf, Instr.size, Instr.form]
  have f_t := field_lt t
  have f_u := field_lt u
  have f_s := field_lt s
  omega

theorem vsub (t : BitVec 3) (u s : BitVec 1) : Statement (.vsub t u s) := by
  simp only [Statement, encode, wordOf, Instr.size, Instr.form]
  have f_t := field_lt t
  have f_u := field_lt u
  have f_s := field_lt s
  omega

theorem vmul (t : BitVec 3) (u s : BitVec 1) : Statement (.vmul t u s) := by
  simp only [Statement, encode, wordOf, Instr.size, Instr.form]
  have f_t := field_lt t
  have f_u := field_lt u
  have f_s := field_lt s
  omega

theorem vmad (t : BitVec 3) (u s : BitVec 1) : Statement (.vmad t u s) := by
  simp only [Statement, encode, wordOf, Instr.size, Instr.form]
  have f_t := field_lt t
  have f_u := field_lt u
  have f_s := field_lt s
  omega

theorem vmin (t : BitVec 3) (u : BitVec 1) : Statement (.vmin t u) := by
  simp only [Statement, encode, wordOf, Instr.size, Instr.form]
  have f_t := field_lt t
  have f_u := field_lt u
  omega

theorem vmax (t : BitVec 3) (u : BitVec 1) : Statement (.vmax t u) := by
  simp only [Statement, encode, wordOf, Instr.size, Instr.form]
  have f_t := field_lt t
  have f_u := field_lt u
  omega

theorem vlogic (f : BitVec 4) : Statement (.vlogic f) := by
  simp only [Statement, encode, wordOf, Instr.size, Instr.form]
  have f_f := field_lt f
  omega

theorem vshl (t : BitVec 3) (u s : BitVec 1) : Statement (.vshl t u s) := by
  simp only [Statement, encode, wordOf, Instr.size, Instr.form]
  have f_t := field_lt t
  have f_u := field_lt u
  have f_s := field_lt s
  omega

theorem vshr (t : BitVec 3) (u : BitVec 1) : Statement (.vshr t u) := by
  simp only [Statement, encode, wordOf, Instr.size, Instr.form]
  have f_t := field_lt t
  have f_u := field_lt u
  omega

theorem vshi (f : BitVec 4) (t : BitVec 3) (c : BitVec 8) : Statement (.vshi f t c) := by
  simp only [Statement, encode, wordOf, Instr.size, Instr.form]
  have f_f := field_lt f
  have f_t := field_lt t
  have f_c := field_lt c
  omega

theorem vcmp (f : BitVec 4) (t : BitVec 3) (u : BitVec 1) : Statement (.vcmp f t u) := by
  simp only [Statement, encode, wordOf, Instr.size, Instr.form]
  have f_f := field_lt f
  have f_t := field_lt t
  have f_u := field_lt u
  omega

theorem vsel (q : BitVec 3) : Statement (.vsel q) := by
  simp only [Statement, encode, wordOf, Instr.size, Instr.form]
  have f_q := field_lt q
  omega

theorem vmov (f : BitVec 4) (m : BitVec 8) : Statement (.vmov f m) := by
  simp only [Statement, encode, wordOf, Instr.size, Instr.form]
  have f_f := field_lt f
  have f_m := field_lt m
  omega

theorem vmovi (p : BitVec 2) (i : BitVec 8) : Statement (.vmovi p i) := by
  simp only [Statement, encode, wordOf, Instr.size, Instr.form]
  have f_p := field_lt p
  have f_i := field_lt i
  omega

theorem vgop (f : BitVec 4) : Statement (.vgop f) := by
  simp only [Statement, encode, wordOf, Instr.size, Instr.form]
  have f_f := field_lt f
  omega

theorem vfadd (t : BitVec 3) (s : BitVec 1) (r : BitVec 3) : Statement (.vfadd t s r) := by
  simp only [Statement, encode, wordOf, Instr.size, Instr.form]
  have f_t := field_lt t
  have f_s := field_lt s
  have f_r := field_lt r
  omega

theorem vfsub (t : BitVec 3) (s : BitVec 1) (r : BitVec 3) : Statement (.vfsub t s r) := by
  simp only [Statement, encode, wordOf, Instr.size, Instr.form]
  have f_t := field_lt t
  have f_s := field_lt s
  have f_r := field_lt r
  omega

theorem vfmul (t : BitVec 3) (s : BitVec 1) (r : BitVec 3) : Statement (.vfmul t s r) := by
  simp only [Statement, encode, wordOf, Instr.size, Instr.form]
  have f_t := field_lt t
  have f_s := field_lt s
  have f_r := field_lt r
  omega

theorem vfma (t : BitVec 3) (s : BitVec 1) (r : BitVec 3) : Statement (.vfma t s r) := by
  simp only [Statement, encode, wordOf, Instr.size, Instr.form]
  have f_t := field_lt t
  have f_s := field_lt s
  have f_r := field_lt r
  omega

theorem vfmin (t : BitVec 3) : Statement (.vfmin t) := by
  simp only [Statement, encode, wordOf, Instr.size, Instr.form]
  have f_t := field_lt t
  omega

theorem vfmax (t : BitVec 3) : Statement (.vfmax t) := by
  simp only [Statement, encode, wordOf, Instr.size, Instr.form]
  have f_t := field_lt t
  omega

theorem vfsgn (f : BitVec 4) (t : BitVec 3) : Statement (.vfsgn f t) := by
  simp only [Statement, encode, wordOf, Instr.size, Instr.form]
  have f_f := field_lt f
  have f_t := field_lt t
  omega

theorem vfrcp (t r : BitVec 3) : Statement (.vfrcp t r) := by
  simp only [Statement, encode, wordOf, Instr.size, Instr.form]
  have f_t := field_lt t
  have f_r := field_lt r
  omega

theorem vfrsq (t r : BitVec 3) : Statement (.vfrsq t r) := by
  simp only [Statement, encode, wordOf, Instr.size, Instr.form]
  have f_t := field_lt t
  have f_r := field_lt r
  omega

theorem vfexp2 (t r : BitVec 3) : Statement (.vfexp2 t r) := by
  simp only [Statement, encode, wordOf, Instr.size, Instr.form]
  have f_t := field_lt t
  have f_r := field_lt r
  omega

theorem vred (f : BitVec 4) (t : BitVec 3) (u : BitVec 1) (l : BitVec 2) (s : BitVec 1) (r : BitVec 3) : Statement (.vred f t u l s r) := by
  simp only [Statement, encode, wordOf, Instr.size, Instr.form]
  have f_f := field_lt f
  have f_t := field_lt t
  have f_u := field_lt u
  have f_l := field_lt l
  have f_s := field_lt s
  have f_r := field_lt r
  omega

theorem vnarrow (o : BitVec 1) (r t : BitVec 3) (x : BitVec 8) : Statement (.vnarrow o r t x) := by
  simp only [Statement, encode, wordOf, Instr.size, Instr.form]
  have f_o := field_lt o
  have f_r := field_lt r
  have f_t := field_lt t
  have f_x := field_lt x
  omega

theorem vwiden (o : BitVec 1) (r t : BitVec 3) (x : BitVec 8) : Statement (.vwiden o r t x) := by
  simp only [Statement, encode, wordOf, Instr.size, Instr.form]
  have f_o := field_lt o
  have f_r := field_lt r
  have f_t := field_lt t
  have f_x := field_lt x
  omega

theorem vpermb : Statement (.vpermb) := by
  simp only [Statement, encode, wordOf, Instr.size, Instr.form]
  decide

theorem vnib (f h : BitVec 1) : Statement (.vnib f h) := by
  simp only [Statement, encode, wordOf, Instr.size, Instr.form]
  have f_f := field_lt f
  have f_h := field_lt h
  omega

theorem vpack (f : BitVec 4) (t : BitVec 3) (u s : BitVec 1) : Statement (.vpack f t u s) := by
  simp only [Statement, encode, wordOf, Instr.size, Instr.form]
  have f_f := field_lt f
  have f_t := field_lt t
  have f_u := field_lt u
  have f_s := field_lt s
  omega

theorem vshuf (f : BitVec 4) (l : BitVec 2) (c : BitVec 4) : Statement (.vshuf f l c) := by
  simp only [Statement, encode, wordOf, Instr.size, Instr.form]
  have f_f := field_lt f
  have f_l := field_lt l
  have f_c := field_lt c
  omega

theorem vldm (t : BitVec 3) (o : BitVec 8) : Statement (.vldm t o) := by
  simp only [Statement, encode, wordOf, Instr.size, Instr.form]
  have f_t := field_lt t
  have f_o := field_lt o
  omega

theorem vstm (g t : BitVec 3) (o : BitVec 8) : Statement (.vstm g t o) := by
  simp only [Statement, encode, wordOf, Instr.size, Instr.form]
  have f_g := field_lt g
  have f_t := field_lt t
  have f_o := field_lt o
  omega

theorem vldl (t : BitVec 3) (o : BitVec 8) : Statement (.vldl t o) := by
  simp only [Statement, encode, wordOf, Instr.size, Instr.form]
  have f_t := field_lt t
  have f_o := field_lt o
  omega

theorem vstl (g t : BitVec 3) (o : BitVec 8) : Statement (.vstl g t o) := by
  simp only [Statement, encode, wordOf, Instr.size, Instr.form]
  have f_g := field_lt g
  have f_t := field_lt t
  have f_o := field_lt o
  omega

theorem vpop (p : BitVec 1) : Statement (.vpop p) := by
  simp only [Statement, encode, wordOf, Instr.size, Instr.form]
  have f_p := field_lt p
  omega

theorem vpush (p : BitVec 1) (g : BitVec 3) : Statement (.vpush p g) := by
  simp only [Statement, encode, wordOf, Instr.size, Instr.form]
  have f_p := field_lt p
  have f_g := field_lt g
  omega

theorem vsend (g : BitVec 3) : Statement (.vsend g) := by
  simp only [Statement, encode, wordOf, Instr.size, Instr.form]
  have f_g := field_lt g
  omega

theorem tksend (g : BitVec 3) (k : BitVec 8) : Statement (.tksend g k) := by
  simp only [Statement, encode, wordOf, Instr.size, Instr.form]
  have f_g := field_lt g
  have f_k := field_lt k
  omega

theorem tkwait (k : BitVec 8) : Statement (.tkwait k) := by
  simp only [Statement, encode, wordOf, Instr.size, Instr.form]
  have f_k := field_lt k
  omega

theorem vatom (f : BitVec 4) (g t : BitVec 3) (u : BitVec 1) : Statement (.vatom f g t u) := by
  simp only [Statement, encode, wordOf, Instr.size, Instr.form]
  have f_f := field_lt f
  have f_g := field_lt g
  have f_t := field_lt t
  have f_u := field_lt u
  omega

theorem shape (e : BitVec 3) (w : BitVec 2) : Statement (.shape e w) := by
  simp only [Statement, encode, wordOf, Instr.size, Instr.form]
  have f_e := field_lt e
  have f_w := field_lt w
  omega

theorem mbloadQueue (p : BitVec 1) : Statement (.mbloadQueue p) := by
  simp only [Statement, encode, wordOf, Instr.size, Instr.form]
  have f_p := field_lt p
  omega

theorem mbloadRegister (w : BitVec 1) (x : BitVec 8) : Statement (.mbloadRegister w x) := by
  simp only [Statement, encode, wordOf, Instr.size, Instr.form]
  have f_w := field_lt w
  have f_x := field_lt x
  omega

theorem mrun (s : BitVec 2) (c p : BitVec 1) (m : BitVec 8) : Statement (.mrun s c p m) := by
  simp only [Statement, encode, wordOf, Instr.size, Instr.form]
  have f_s := field_lt s
  have f_c := field_lt c
  have f_p := field_lt p
  have f_m := field_lt m
  omega

theorem mrdacc : Statement (.mrdacc) := by
  simp only [Statement, encode, wordOf, Instr.size, Instr.form]
  decide

theorem mfma64 (s : BitVec 1) (r : BitVec 3) : Statement (.mfma64 s r) := by
  simp only [Statement, encode, wordOf, Instr.size, Instr.form]
  have f_s := field_lt s
  have f_r := field_lt r
  omega

theorem qst (n : BitVec 2) (w p : BitVec 1) (g t s : BitVec 3) (m : BitVec 5) : Statement (.qst n w p g t s m) := by
  simp only [Statement, encode, wordOf, Instr.size, Instr.form]
  have f_n := field_lt n
  have f_w := field_lt w
  have f_p := field_lt p
  have f_g := field_lt g
  have f_t := field_lt t
  have f_s := field_lt s
  have f_m := field_lt m
  omega

theorem vcld (n : BitVec 2) (p : BitVec 1) (t : BitVec 3) (s : BitVec 1) (r : BitVec 3) : Statement (.vcld n p t s r) := by
  simp only [Statement, encode, wordOf, Instr.size, Instr.form]
  have f_n := field_lt n
  have f_p := field_lt p
  have f_t := field_lt t
  have f_s := field_lt s
  have f_r := field_lt r
  omega

theorem agcfg (p x : BitVec 1) (c k : BitVec 2) : Statement (.agcfg p x c k) := by
  simp only [Statement, encode, wordOf, Instr.size, Instr.form]
  have f_p := field_lt p
  have f_x := field_lt x
  have f_c := field_lt c
  have f_k := field_lt k
  omega

theorem agbase (p : BitVec 1) : Statement (.agbase p) := by
  simp only [Statement, encode, wordOf, Instr.size, Instr.form]
  have f_p := field_lt p
  omega

theorem agrun (f n p : BitVec 1) : Statement (.agrun f n p) := by
  simp only [Statement, encode, wordOf, Instr.size, Instr.form]
  have f_f := field_lt f
  have f_n := field_lt n
  have f_p := field_lt p
  omega

theorem mzero (r : BitVec 1) : Statement (.mzero r) := by
  simp only [Statement, encode, wordOf, Instr.size, Instr.form]
  have f_r := field_lt r
  omega

theorem alarmLevelClear (current : Bool) : Statement (.alarmLevelClear current) := Nat.zero_lt_one

theorem linkTraining (port : Nat) (hop : BitVec 8) : Statement (.linkTraining port hop) := Nat.zero_lt_one

theorem illegalEncoding (word : BitVec 32) : Statement (.illegalEncoding word) := Nat.zero_lt_one

theorem fetchFault (va : Word) : Statement (.fetchFault va) := Nat.zero_lt_one

theorem busMasteringDisabled (part : Nat) (enabled : Bool) : Statement (.busMasteringDisabled part enabled) := Nat.zero_lt_one

end Sys2Proof.Laws.Encoding
end

