-- ==== Sys2Proof/Tests/Slice0.lean ====
section
/-! SUPPORT. The model's own tests: terms that are no encoding, words that the spec writes out, single
steps whose results the spec states, and for each statement of Certificates/Slice0/Obligations.lean a
state and operands that meet its hypotheses. -/

namespace Sys2Proof.Tests

open Sys2Proof Sys2Proof.Machine

set_option Elab.async false

/-- Each bit length and word decodes to the instruction beside it. -/
def decodes (l : List (Nat × Nat × Instr)) : Bool :=
  l.all fun x => decide (decodeTableWord x.1 x.2.1 = some x.2.2)

/-- The state after an instruction. -/
def after (i : Instr) (s : State) : State :=
  match exec i s with
  | .next t => t
  | _ => State.reset

/-- A task with general registers. -/
def taskWith (l : List (BitVec 5 × Word)) (m : Task) : Task := l.foldl (fun t x => t.set x.1 x.2) m

/-- The steward core of chiplet 0 at level H, as boot starts it, with general registers. -/
def stewardWith (l : List (BitVec 5 × Word)) : State :=
  let s := { State.reset with boot := .up, agenda := [] }
  s.setStew 0 { s.stew 0 with
    task := taskWith l { Task.zero with hold := .ready, level := .h, pc := 0x1000#64 } }

/-- Slot 0 of the sequencer of region 0 at level U, with general registers. -/
def slotWith (l : List (BitVec 5 × Word)) : State :=
  let s := { State.reset with boot := .up, agenda := [], cur := .seq 0 0 }
  s.setTask (.seq 0 0) (taskWith l { Task.zero with hold := .ready, pc := 0x1000#64, wsp := 0x60000#54 })

/-- A v register from 32-bit lanes, lane 0 first. -/
def lanes : List Nat → Nat
  | [] => 0
  | x :: l => x % 2 ^ 32 + 2 ^ 32 * lanes l

/-- A v register with one value in each lane. -/
def every (x : Nat) : Nat := lanes (List.replicate 16 x)

/-- A one-element island without a unit. -/
def oneCell : Island := { bareIsland 0 with flags := 0 }

/-- Element 0 of region 0 in an island whose register word names vd v3, va v1 and vb v2, its banks in the
region's context (R37), with v registers. -/
def elementWith (l : List (Nat × Nat)) : State :=
  let s := { State.reset with boot := .up, agenda := [], focus := (0, 0) }
  let e := { Element.zero with
    v := l.foldl (fun m x => mapSet 0 m x.1 (BitVec.ofNat 512 x.2)) [], regs := [3 * 2048 + 1 * 64 + 2 * 2]
    tags := (List.range 128).map fun b => (b, some (some (0, 0))) }
  s.setRegion 0 (((s.region 0).setIsland 0 (some oneCell)).setElement 0 e)

/-- The results of one op of element 0 on the registers v1 and v2. -/
def results (i : Instr) (a b : Nat) : List (Nat × Effect) :=
  (after i (elementWith [(1, a), (2, b)])).elem.flight

/-- One 32-bit lane of the result of an op in vd. -/
def laneRes (i : Instr) (a b : Nat) (j : Nat) : Nat :=
  match (results i a b).head? with
  | some (_, .v 3 x) => x.toNat / 2 ^ (32 * j) % 2 ^ 32
  | _ => 2 ^ 32

/-- The flags that an op raises. -/
def flagsOut (i : Instr) (a b : Nat) : Flags :=
  (results i a b).foldl (fun f x => match x.2 with
    | .flags g => f ||| g
    | _ => f) 0

/-! ### Terms that are no encoding -/

/-- R231: a frame size above 24; R201: lists that end past code 31 or hold a wrong count. -/
theorem test_ill_formed_frames_and_lists :
    (Instr.call 25 0).wf = false ∧ (Instr.callr 25 1).wf = false ∧ (Instr.copy 1 30 2 0 0 0).wf = false ∧
      (Instr.copy 1 2 1 0 0 0).wf = false ∧ (Instr.copy 1 2 7 0 0 0).wf = false ∧
      (Instr.copyCfg 1 30 0).wf = false ∧ (Instr.gather 1 2 2 0 0 0).wf = false ∧
      (Instr.scatter 1 2 6 0 0 0).wf = false ∧ (Instr.merge 1 25 0 0 0 0).wf = false ∧
      (Instr.mscan 1 29 0).wf = false ∧ (Instr.launch 1 2 1).wf = false ∧ (Instr.spawn 1 2 1).wf = false ∧
      (Instr.pfxfind 1 27).wf = false ∧ (Instr.topk 1 28 0).wf = false ∧ (Instr.recvm 29).wf = false := by
  decide

/-- R51, R249: rounding 6, overflow 3; R261: handle 0 of unbind; R272: a level above 4. -/
theorem test_ill_formed_keys :
    (Instr.copy 1 2 2 6 0 0).wf = false ∧ (Instr.copy 1 2 2 0 3 0).wf = false ∧ (Instr.merge 1 2 0 5 0 0).wf = false ∧
      (Instr.bind 1 31 0).wf = false ∧ (Instr.unbind 1 2 0).wf = false ∧ (Instr.tseal 1 31 0 0).wf = false ∧
      (Instr.hullw 1 31 0).wf = false ∧ (Instr.tfork 1 28 0).wf = false ∧ (Instr.tevict 1 29 0).wf = false ∧
      (Instr.cancel 1 5 1).wf = false ∧ (Instr.sendm 1 29).wf = false := by
  decide

/-- R209: lane types that an op does not take. -/
theorem test_ill_formed_types :
    (Instr.vadd 3 0 0).wf = false ∧ (Instr.vmad 4 0 0).wf = false ∧ (Instr.vfadd 2 0 0).wf = false ∧
      (Instr.vfma 3 0 0).wf = false ∧ (Instr.vfadd 4 0 5).wf = false ∧ (Instr.vfmax 0).wf = false ∧
      (Instr.vldm 7 0).wf = false ∧ (Instr.vstm 0 7 0).wf = false ∧ (Instr.vfsgn 3 4).wf = false ∧
      (Instr.vlogic 7).wf = false ∧ (Instr.vgop 7).wf = false ∧ (Instr.mfma64 0 5).wf = false := by
  decide

/-- R292 to R294, R299 to R306: values that a field holds and an op does not. -/
theorem test_ill_formed_values :
    (Instr.vshi 0 1 16).wf = false ∧ (Instr.vshi 3 0 0).wf = false ∧ (Instr.vcmp 6 0 0).wf = false ∧
      (Instr.vcmp 0 4 1).wf = false ∧ (Instr.vcmp 0 3 0).wf = false ∧ (Instr.vmov 1 16).wf = false ∧
      (Instr.vmov 0 1).wf = false ∧ (Instr.vmov 3 0).wf = false ∧ (Instr.vred 3 4 0 0 0 0).wf = false ∧
      (Instr.vred 0 3 0 1 0 0).wf = false ∧ (Instr.vred 0 0 0 0 0 1).wf = false ∧
      (Instr.vnarrow 0 0 4 0x08).wf = false ∧ (Instr.vnarrow 1 0 4 0x84).wf = false ∧
      (Instr.vwiden 0 0 0 0x04).wf = false ∧ (Instr.vwiden 1 0 0 0x00).wf = false ∧ (Instr.vpack 1 0 0 0).wf = false ∧
      (Instr.vshuf 0 1 4).wf = false ∧ (Instr.vshuf 2 0 0).wf = false ∧ (Instr.vshuf 3 0 0).wf = false := by
  decide

/-- R310 to R320: destinations, functions and codes out of range. -/
theorem test_ill_formed_memory_and_matrix :
    (Instr.tksend 7 9).wf = false ∧ (Instr.tkwait 0).wf = false ∧ (Instr.tkwait 9).wf = false ∧
      (Instr.vatom 4 7 0 0).wf = false ∧ (Instr.vatom 0 7 4 0).wf = false ∧ (Instr.shape 0 3).wf = false ∧
      (Instr.mrun 3 0 0 0).wf = false ∧ (Instr.qst 3 0 0 7 4 0 1).wf = false ∧ (Instr.qst 0 0 0 7 1 0 1).wf = false ∧
      (Instr.vcld 0 0 0 0 0).wf = false ∧ (Instr.vcld 3 0 4 0 0).wf = false ∧ (Instr.agcfg 0 0 0 3).wf = false := by
  decide

/-! ### Words of the opcode table -/

/-- R228: lih and addil: op 0x1A and 0x1B, d in bits 24 to 20, a in bits 19 to 15, the immediate in the second word. -/
theorem test_decode_long : decodes [
    (64, 0xCAFEBABE34B00000, .lih 11 0xCAFEBABE), (64, 0x0000100036B48000, .addil 11 9 0x1000)] = true := by
  decide +kernel

/-- R205: the fields of each S-form row of the opcode table, laid out bit by bit, with operands that differ from each other. -/
theorem test_decode_s0 : decodes [
    (32, 0x02B4AAC0, .add 0xB 9 0xA 1 1 1), (32, 0x04B4AAC0, .sub 0xB 9 0xA 1 1 1), (32, 0x06B4AAC0, .mul 0xB 9 0xA 1 1 1),
    (32, 0x08B4AA80, .mulh 0xB 9 0xA 1 1), (32, 0x0AB4AAC0, .div 0xB 9 0xA 1 1 1), (32, 0x0CB4AA80, .rem 0xB 9 0xA 1 1),
    (32, 0x0EB4AA80, .and_ 0xB 9 0xA 1 1), (32, 0x10B4AA80, .or_ 0xB 9 0xA 1 1), (32, 0x12B4AA80, .xor_ 0xB 9 0xA 1 1),
    (32, 0x14B4AA80, .sll 0xB 9 0xA 1 1), (32, 0x16B4AA80, .srl 0xB 9 0xA 1 1), (32, 0x18B4A880, .sra 0xB 9 0xA 1),
    (32, 0x1AB4A880, .slt 0xB 9 0xA 1), (32, 0x1CB4A880, .sltu 0xB 9 0xA 1), (32, 0x1EB4AA80, .min_ 0xB 9 0xA 1 1),
    (32, 0x1EB4AA81, .max_ 0xB 9 0xA 1 1), (32, 0x20B49234, .addi 0xB 9 0x1234), (32, 0x22B49234, .andi 0xB 9 0x1234),
    (32, 0x24B49234, .ori 0xB 9 0x1234), (32, 0x26B49234, .xori 0xB 9 0x1234), (32, 0x28B48003, .slli 0xB 9 3),
    (32, 0x2AB48003, .srli 0xB 9 3), (32, 0x2CB48003, .srai 0xB 9 3), (32, 0x2EB49234, .slti 0xB 9 0x1234)] = true := by
  decide +kernel

/-- R205: the fields of each S-form row of the opcode table, laid out bit by bit, with operands that differ from each other. -/
theorem test_decode_s1 : decodes [
    (32, 0x30B49234, .sltiu 0xB 9 0x1234), (32, 0x38B00123, .csrr 0xB 0x123), (32, 0x3AB48123, .csrw 0xB 9 0x123),
    (32, 0x3CB48123, .csrs 0xB 9 0x123), (32, 0x3EB48123, .csrc 0xB 9 0x123), (32, 0x40012345, .b_ 0x12345),
    (32, 0x42912345, .beqz 9 0x12345), (32, 0x44912345, .bnez 9 0x12345), (32, 0x46912345, .bltz 9 0x12345),
    (32, 0x48912345, .bgez 9 0x12345), (32, 0x4A912345, .bgtz 9 0x12345), (32, 0x4C912345, .blez 9 0x12345),
    (32, 0x4E512345, .call 5 0x12345), (32, 0x50548000, .callr 5 9), (32, 0x52000000, .ret),
    (32, 0x54048000, .jr 9), (32, 0x60B4891A, .ldI8 0xB 9 0x123 2), (32, 0x62B4891A, .ldN8 0xB 9 0x123 2),
    (32, 0x64B4891A, .ldI16 0xB 9 0x123 2), (32, 0x66B4891A, .ldN16 0xB 9 0x123 2), (32, 0x68B4891A, .ldI32 0xB 9 0x123 2),
    (32, 0x6AB4891A, .ldN32 0xB 9 0x123 2), (32, 0x6CB4891A, .ldI64 0xB 9 0x123 2), (32, 0x6EB4891A, .stI8 0xB 9 0x123 2)] = true := by
  decide +kernel

/-- R205: the fields of each S-form row of the opcode table, laid out bit by bit, with operands that differ from each other. -/
theorem test_decode_s2 : decodes [
    (32, 0x70B4891A, .stI16 0xB 9 0x123 2), (32, 0x72B4891A, .stI32 0xB 9 0x123 2), (32, 0x74B4891A, .stI64 0xB 9 0x123 2),
    (32, 0x76B48182, .ldacq 0xB 9 1 1 2), (32, 0x78B4A902, .strel 0xB 9 0xA 1 2), (32, 0x7AB00002, .fence 0xB 2),
    (32, 0x7CB48000, .fenceLca 0xB 9), (32, 0x80B4AB42, .amoadd 0xB 9 0xA 1 1 2), (32, 0x82B4AB42, .amoand 0xB 9 0xA 1 1 2),
    (32, 0x84B4AB42, .amoor 0xB 9 0xA 1 1 2), (32, 0x86B4AB42, .amoxor 0xB 9 0xA 1 1 2), (32, 0x88B4AB42, .amomin 0xB 9 0xA 1 1 2),
    (32, 0x8AB4AB42, .amomax 0xB 9 0xA 1 1 2), (32, 0x8CB4AB42, .amominu 0xB 9 0xA 1 1 2), (32, 0x8EB4AB42, .amomaxu 0xB 9 0xA 1 1 2),
    (32, 0x90B4AB42, .amoswap 0xB 9 0xA 1 1 2), (32, 0x92B4AB42, .cas 0xB 9 0xA 1 1 2), (32, 0xA0B4A483, .copy 0xB 9 2 2 1 3),
    (32, 0xA0B4A043, .copyCfg 0xB 9 3), (32, 0xA2B4B483, .gather 0xB 9 3 2 1 3), (32, 0xA4B4B483, .scatter 0xB 9 3 2 1 3),
    (32, 0xA6B4F543, .merge 0xB 9 1 2 1 3), (32, 0xA8B4B003, .mscan 0xB 9 3), (32, 0xAAB48040, .waitt 0xB 9 1)] = true := by
  decide +kernel

/-- R205: the fields of each S-form row of the opcode table, laid out bit by bit, with operands that differ from each other. -/
theorem test_decode_s3 : decodes [
    (32, 0xACB48000, .ffr 0xB 9), (32, 0xAEB48140, .cbload 0xB 9 2 1), (32, 0xB0B48003, .abatch 0xB 9 3),
    (32, 0xB2B49080, .bind 0xB 9 2), (32, 0xB2B49480, .unbind 0xB 9 2), (32, 0xB4B49043, .tseal 0xB 9 1 3),
    (32, 0xB6B4D000, .pfxfind 0xB 9), (32, 0xB8B4C003, .topk 0xB 9 3), (32, 0xBAB49003, .hullw 0xB 9 3),
    (32, 0xBCB4C003, .tfork 0xB 9 3), (32, 0xBEB4B003, .tevict 0xB 9 3), (32, 0xC0B4A000, .launch 0xB 9 2),
    (32, 0xC2B4A000, .spawn 0xB 9 2), (32, 0xC4000000, .tail), (32, 0xC6B48123, .gopen 0xB 9 0x123),
    (32, 0xC8B00123, .gclose 0xB 0x123), (32, 0xCAB00123, .jopen 0xB 0x123), (32, 0xCCB00123, .reconf 0xB 0x123),
    (32, 0xCEB00123, .waitc 0xB 0x123), (32, 0xD0B02123, .cancel 0xB 2 0x123), (32, 0xD2B4B000, .sendm 0xB 9),
    (32, 0xD4B00000, .recvm 0xB), (32, 0xD6B48005, .barinit 0xB 9 5), (32, 0xD8B00205, .bararr 0xB 2 5)] = true := by
  decide +kernel

/-- R205: the fields of each S-form row of the opcode table, laid out bit by bit, with operands that differ from each other. -/
theorem test_decode_s4 : decodes [
    (32, 0xDAB00005, .barwait 0xB 5), (32, 0xDCB4A800, .waita 0xB 9 0xA), (32, 0xDE000000, .snap),
    (32, 0xE0000000, .tret), (32, 0xE2001234, .trap 0x1234), (32, 0xF0001234, .hcall 0x1234),
    (32, 0xE404A800, .tlbiPage 9 0xA), (32, 0xE404A801, .tlbiPageall 9 0xA), (32, 0xE404A802, .tlbiCid 9 0xA),
    (32, 0xE404A803, .tlbiAll 9 0xA), (32, 0xE6048000, .icinv 9), (32, 0xE6048001, .icinvAll 9),
    (32, 0xE8B4A800, .framemap 0xB 9 0xA), (32, 0xEAB4A800, .framefree 0xB 9 0xA), (32, 0xECB4A800, .rsave 0xB 9 0xA),
    (32, 0xEEB4A800, .rrest 0xB 9 0xA)] = true := by
  decide +kernel

/-- R209 to R214: the fields of each E-form row of the opcode table, laid out bit by bit. -/
theorem test_decode_e0 : decodes [
    (24, 0x000000, .vnop), (24, 0x003800, .vnopUnguarded), (24, 0x043A88, .vadd 2 1 1),
    (24, 0x083A88, .vsub 2 1 1), (24, 0x0C3A88, .vmul 2 1 1), (24, 0x103A88, .vmad 2 1 1),
    (24, 0x143A80, .vmin 2 1), (24, 0x183A80, .vmax 2 1), (24, 0x1CB800, .vlogic 2),
    (24, 0x203A88, .vshl 2 1 1), (24, 0x243A80, .vshr 2 1), (24, 0x28BA05, .vshi 2 2 5),
    (24, 0x2CBA80, .vcmp 2 2 1), (24, 0x303802, .vsel 2), (24, 0x347805, .vmov 1 5),
    (24, 0x387805, .vmovi 1 5), (24, 0x3CB800, .vgop 2), (24, 0x403C0A, .vfadd 4 1 2),
    (24, 0x443D0A, .vfsub 5 1 2), (24, 0x483E0A, .vfmul 6 1 2), (24, 0x4C3C0A, .vfma 4 1 2),
    (24, 0x503D00, .vfmin 5), (24, 0x543E00, .vfmax 6), (24, 0x58BC00, .vfsgn 2 4)] = true := by
  decide +kernel

/-- R209 to R214: the fields of each E-form row of the opcode table, laid out bit by bit. -/
theorem test_decode_e1 : decodes [
    (24, 0x5C3C02, .vfrcp 4 2), (24, 0x603D02, .vfrsq 5 2), (24, 0x643E02, .vfexp2 6 2),
    (24, 0x68BC1A, .vred 2 4 0 1 1 2), (24, 0x6CBC84, .vnarrow 0 2 4 0x84), (24, 0x72BCC2, .vwiden 1 2 4 0xC2),
    (24, 0x803800, .vpermb), (24, 0x847801, .vnib 1 1), (24, 0x88BA88, .vpack 2 2 1 1),
    (24, 0x8CB812, .vshuf 2 1 2), (24, 0x903A05, .vldm 2 5), (24, 0x941205, .vstm 2 2 5),
    (24, 0x983A05, .vldl 2 5), (24, 0x9C1205, .vstl 2 2 5), (24, 0xA07800, .vpop 1),
    (24, 0xA45000, .vpush 1 2), (24, 0xA81000, .vsend 2), (24, 0xAC1000, .tksend 2 0),
    (24, 0xB03805, .tkwait 5), (24, 0xB49280, .vatom 2 2 2 1), (24, 0xC03809, .shape 2 1),
    (24, 0xC47800, .mbloadQueue 1), (24, 0xC5B805, .mbloadRegister 1 5), (24, 0xC9F805, .mrun 1 1 1 5)] = true := by
  decide +kernel

/-- R209 to R214: the fields of each E-form row of the opcode table, laid out bit by bit. -/
theorem test_decode_e2 : decodes [
    (24, 0xCC3800, .mrdacc), (24, 0xD03B0A, .mfma64 1 2), (24, 0xD5D445, .qst 1 1 1 2 4 2 5),
    (24, 0xD97D0A, .vcld 1 1 5 1 2), (24, 0xDC7815, .agcfg 1 1 1 1), (24, 0xE07800, .agbase 1),
    (24, 0xE5F800, .agrun 1 1 1), (24, 0xE87800, .mzero 1)] = true := by
  decide +kernel

/-- The words that the spec writes out in its examples. -/
theorem test_decode_worked0 : decodes [
    (32, 0x02B4A8C0, .add 11 9 10 0 1 1), (32, 0x66A4FFC0, .ldN16 10 9 0xFF8 0), (32, 0x44DFFFF4, .bnez 13 0xFFFF4),
    (32, 0x08C52E00, .mulh 12 10 11 1 0), (32, 0x04D62800, .sub 13 12 10 0 0 0), (32, 0x2CB50007, .srai 11 10 7),
    (32, 0x38900020, .csrr 9 0x20), (32, 0x3BFF8123, .csrw 31 31 0x123), (32, 0x4E600028, .call 6 0x28),
    (32, 0x50668000, .callr 6 13), (32, 0x7AB00005, .fence 11 5), (32, 0x7CB68000, .fenceLca 11 13),
    (32, 0x80C6BB43, .amoadd 12 13 14 1 1 3), (32, 0x92C4AF03, .cas 12 9 11 1 0 3), (32, 0x78F83B03, .strel 15 16 14 3 3),
    (32, 0xA0C4A205, .copy 12 9 2 1 0 5), (32, 0xA0C86A00, .copy 12 16 6 5 0 0), (32, 0xA6A87043, .merge 10 16 0 0 1 3),
    (32, 0xAAD70040, .waitt 13 14 1), (32, 0xAAD70000, .waitt 13 14 0), (32, 0xACB88000, .ffr 11 17),
    (32, 0xAEA582C0, .cbload 10 11 5 1), (32, 0xB2A91000, .bind 10 18 0), (32, 0xB0BA0001, .abatch 11 20 1)] = true := by
  decide +kernel

/-- The words that the spec writes out in its examples. -/
theorem test_decode_worked1 : decodes [
    (32, 0xB8BC4001, .topk 11 24 1), (32, 0xC0A83000, .launch 10 16 3), (32, 0xC2A84000, .spawn 10 16 4),
    (32, 0xC4000000, .tail), (32, 0xC6A60020, .gopen 10 12 0x20), (32, 0xC8A00020, .gclose 10 0x20),
    (32, 0xCAA00001, .jopen 10 1), (32, 0xCCA00030, .reconf 10 0x30), (32, 0xCEA00010, .waitc 10 0x10),
    (32, 0xD0A01010, .cancel 10 1 0x10), (32, 0xD2AA3000, .sendm 10 20), (32, 0xD5800000, .recvm 24),
    (32, 0xD6A58007, .barinit 10 11 7), (32, 0xD8A00207, .bararr 10 2 7), (32, 0xDAA00007, .barwait 10 7),
    (32, 0xDCA63400, .waita 10 12 13), (32, 0xDE000000, .snap), (32, 0xE2000001, .trap 1),
    (32, 0xF0000003, .hcall 3), (32, 0xE0000000, .tret), (32, 0xE4063400, .tlbiPage 12 13),
    (32, 0xE6060000, .icinv 12), (32, 0xE6000001, .icinvAll 0), (32, 0xE8A63400, .framemap 10 12 13)] = true := by
  decide +kernel

/-- The words that the spec writes out in its examples. -/
theorem test_decode_worked2 : decodes [
    (64, 0x0010000032900000, .li 9 0x100000), (24, 0x043808, .vadd 0 0 1), (24, 0x103980, .vmad 1 1 0),
    (24, 0x1CB800, .vlogic 2), (24, 0x28B903, .vshi 2 1 3), (24, 0x3878A5, .vmovi 1 0xA5),
    (24, 0x2CBC00, .vcmp 2 4 0), (24, 0x303801, .vsel 1), (24, 0x3CF800, .vgop 3),
    (24, 0x483C00, .vfmul 4 0 0), (24, 0x347800, .vmov 1 0), (24, 0x2CF880, .vcmp 3 0 1),
    (24, 0x4C3C01, .vfma 4 0 1), (24, 0x543E00, .vfmax 6), (24, 0x58BC00, .vfsgn 2 4),
    (24, 0x5C3C02, .vfrcp 4 2), (24, 0x683C10, .vred 0 4 0 1 0 0), (24, 0x68BA80, .vred 2 2 1 0 0 0),
    (24, 0x6C3C84, .vnarrow 0 0 4 0x84), (24, 0x723CC2, .vwiden 1 0 4 0xC2), (24, 0x803800, .vpermb),
    (24, 0x843801, .vnib 0 1), (24, 0x887908, .vpack 1 1 0 1), (24, 0x8C7801, .vshuf 1 0 1)] = true := by
  decide +kernel

/-- The words that the spec writes out in its examples. -/
theorem test_decode_worked3 : decodes [
    (24, 0x903C00, .vldm 4 0), (24, 0x940810, .vstm 1 0 16), (24, 0xA45800, .vpush 1 3),
    (24, 0xA81000, .vsend 2), (24, 0xAC1000, .tksend 2 0), (24, 0xB4B880, .vatom 2 7 0 1),
    (24, 0xC03801, .shape 0 1), (24, 0xC5B87F, .mbloadRegister 1 0x7F), (24, 0xC47800, .mbloadQueue 1),
    (24, 0xC8B8FF, .mrun 0 1 0 0xFF), (24, 0xCC3800, .mrdacc), (24, 0xD03B00, .mfma64 0 0),
    (24, 0xD4140B, .qst 0 0 0 2 4 0 0x0B), (24, 0xD5BC1F, .qst 1 1 0 7 4 0 0x1F), (24, 0xD97C00, .vcld 1 1 4 0 0),
    (24, 0xDC3805, .agcfg 0 0 1 1), (24, 0xE07800, .agbase 1), (24, 0xE5B800, .agrun 1 1 0),
    (24, 0xE87800, .mzero 1)] = true := by
  decide +kernel

/-! ### Integer, immediate, control-register and branch instructions -/

/-- R41, R225: signed addition with sat clamps to the type and sets SAT. -/
theorem test_add_saturates :
    let t := after (.add 11 9 10 0 1 1) (stewardWith [(9, 0x7FFFFFFF#64), (10, 1#64)])
    t.reg 11 = 0x7FFFFFFF#64 ∧ t.me.fflags = fSAT ∧ t.me.pc = 0x1004#64 := by
  decide +kernel

/-- R225: without sat the sum wraps and a signed type sign-extends the result. -/
theorem test_add_wraps :
    (after (.add 11 9 10 0 1 0) (stewardWith [(9, 0x7FFFFFFF#64), (10, 1#64)])).reg 11 = 0xFFFFFFFF80000000#64 := by
  decide +kernel

/-- R225: unsigned subtraction below 0 wraps to the width, or clamps to 0 with sat. -/
theorem test_sub_unsigned :
    let s := stewardWith [(9, 1#64), (10, 2#64)]
    (after (.sub 11 9 10 1 2 0) s).reg 11 = 0xFFFF#64 ∧ (after (.sub 11 9 10 1 2 1) s).reg 11 = 0#64 := by
  decide +kernel

/-- R225: the low and the high half of a product. -/
theorem test_mul_and_mulh :
    let s := stewardWith [(9, 0xFFFFFFFFFFFFFFFF#64), (10, 3#64)]
    (after (.mul 11 9 10 0 0 0) s).reg 11 = 0xFFFFFFFFFFFFFFFD#64 ∧
      (after (.mulh 11 9 10 0 0) s).reg 11 = 0xFFFFFFFFFFFFFFFF#64 ∧ (after (.mulh 11 9 10 1 0) s).reg 11 = 2#64 := by
  decide +kernel

/-- R225: a division by zero gives the value with all bits set and DZ alone; the remainder gives x. -/
theorem test_div_by_zero :
    let s := stewardWith [(9, 7#64)]
    (after (.div 11 9 10 0 1 1) s).reg 11 = 0xFFFFFFFFFFFFFFFF#64 ∧ (after (.div 11 9 10 1 1 0) s).reg 11 = 0xFFFFFFFF#64 ∧
      (after (.div 11 9 10 0 1 1) s).me.fflags = fDZ ∧ (after (.rem 11 9 10 0 0) s).reg 11 = 7#64 := by
  decide +kernel

/-- R225: the most negative value divided by -1 wraps to itself or clamps and sets SAT; its rem is 0. -/
theorem test_div_most_negative :
    let s := stewardWith [(9, 0x80000000#64), (10, 0xFFFFFFFFFFFFFFFF#64)]
    (after (.div 11 9 10 0 1 0) s).reg 11 = 0xFFFFFFFF80000000#64 ∧ (after (.div 11 9 10 0 1 1) s).reg 11 = 0x7FFFFFFF#64 ∧
      (after (.div 11 9 10 0 1 1) s).me.fflags = fSAT ∧ (after (.rem 11 9 10 0 1) s).reg 11 = 0#64 := by
  decide +kernel

/-- R225's example: a logical shift by 0 of a signed type sign-extends its result. -/
theorem test_srl_sign_extends :
    let s := stewardWith [(9, 0x80000000#64)]
    (after (.srl 11 9 10 0 1) s).reg 11 = 0xFFFFFFFF80000000#64 ∧ (after (.srl 11 9 10 1 1) s).reg 11 = 0x80000000#64 := by
  decide +kernel

/-- R225: shift counts are modulo the width; sra shifts in the sign. -/
theorem test_shifts :
    let s := stewardWith [(9, 0x8001#64), (10, 17#64)]
    (after (.sll 11 9 10 1 2) s).reg 11 = 2#64 ∧ (after (.sra 11 9 10 2) s).reg 11 = 0xFFFFFFFFFFFFC000#64 := by
  decide +kernel

/-- R225: comparisons read their operands at the width. -/
theorem test_compare_and_select :
    let s := stewardWith [(9, 0x80#64), (10, 1#64)]
    (after (.slt 11 9 10 3) s).reg 11 = 1#64 ∧ (after (.sltu 11 9 10 3) s).reg 11 = 0#64 ∧
      (after (.min_ 11 9 10 0 3) s).reg 11 = 0xFFFFFFFFFFFFFF80#64 ∧ (after (.max_ 11 9 10 1 3) s).reg 11 = 0x80#64 := by
  decide +kernel

/-- R225: bitwise operations at a width. -/
theorem test_logic :
    let s := stewardWith [(9, 0xF0F#64), (10, 0x8FF#64)]
    (after (.and_ 11 9 10 0 0) s).reg 11 = 0x80F#64 ∧ (after (.or_ 11 9 10 1 3) s).reg 11 = 0xFF#64 ∧
      (after (.xor_ 11 9 10 0 3) s).reg 11 = 0xFFFFFFFFFFFFFFF0#64 := by
  decide +kernel

/-- R227: addi sign-extends its immediate and the logical immediates do not. -/
theorem test_immediates :
    let s := stewardWith [(9, 5#64)]
    (after (.addi 11 9 0x7FFF) s).reg 11 = 4#64 ∧ (after (.ori 11 9 0x7FF8) s).reg 11 = 0x7FFD#64 ∧
      (after (.xori 11 9 0x7FFF) s).reg 11 = 0x7FFA#64 ∧ (after (.andi 11 9 4) s).reg 11 = 4#64 := by
  decide +kernel

/-- R227: shift and compare immediates. -/
theorem test_shift_and_compare_immediates :
    let s := stewardWith [(9, 0x8000000000000000#64)]
    (after (.srai 11 9 63) s).reg 11 = 0xFFFFFFFFFFFFFFFF#64 ∧ (after (.srli 11 9 63) s).reg 11 = 1#64 ∧
      (after (.slli 11 9 1) s).reg 11 = 0#64 ∧ (after (.slti 11 9 0) s).reg 11 = 1#64 ∧
      (after (.sltiu 11 9 0x7FFF) s).reg 11 = 1#64 := by
  decide +kernel

/-- R228: `li w19, 0xF8100800` gives 0xFFFF_FFFF_F810_0800; lih replaces the high half and the pc moves 8. -/
theorem test_li_lih_addil :
    let t := after (.li 27 0xF8100800#32) (stewardWith [])
    t.reg 27 = 0xFFFFFFFFF8100800#64 ∧ t.me.pc = 0x1008#64 ∧ (after (.lih 27 0x12345678#32) t).reg 27 = 0x12345678F8100800#64 ∧
      (after (.addil 11 27 0x07F00000#32) t).reg 11 = 0x800#64 ∧ (after (.lih 0 0x12345678#32) t).reg 0 = 0#64 := by
  decide +kernel

/-- R229: csrw returns the old value and writes RW bits; csrs sets, csrc clears. -/
theorem test_csr_writes :
    let s := slotWith [(9, 0x7F#64), (10, 0x21#64)]
    let t := after (.csrw 11 9 0x020) s
    t.reg 11 = 0#64 ∧ t.me.fflags = 0x7F#7 ∧ (after (.csrc 11 10 0x020) t).me.fflags = 0x5E#7 ∧
      (after (.csrc 11 10 0x020) t).reg 11 = 0x7F#64 ∧ (after (.csrs 11 10 0x020) s).me.fflags = 0x21#7 := by
  decide +kernel

/-- R9, R229: the coordinate of the sequencer of region 0 of chiplet 12 (field 3): file 01's agent D. -/
theorem test_csrr_agent :
    let s := { slotWith [] with cur := .seq 192 0 }
    (after (.csrr 11 0x000) (s.setTask (.seq 192 0) { Task.zero with hold := .ready })).reg 11 = 0x00C0000C#64 := by
  decide +kernel

/-- R10, R12: file 01's worked coordinates and their lowest enclosing scopes. -/
theorem test_lca :
    lca 0x009E000C 0x009E8504 = 2 ∧ lca 0x009E000C 0x00B0100C = 4 ∧ lca 0x009E000C 0x00C0000C = 5 ∧
      lca 0x009E8540 0x009E85C0 = 1 := by
  decide +kernel

/-- R206, R207: a number that is not listed is ILLEGAL, one above the level PRIV. -/
theorem test_csr_traps :
    let s := slotWith []
    let t := after (.csrr 11 0x3FF) s
    let u := after (.csrr 11 0x100) s
    t.me.kcause = 0x8000000000000001#64 ∧ t.me.level = .k ∧ t.me.kpc = 0x1000#64 ∧ t.me.kval = 0x38B003FF#64 ∧
      u.me.kcause = 0x8000000000000002#64 := by
  decide +kernel

/-- R230: branch targets are the branch's address plus four times the offset. -/
theorem test_branches :
    let s := stewardWith [(9, 0xFFFFFFFFFFFFFFFF#64)]
    (after (.bltz 9 0xFFFFE) s).me.pc = 0xFF8#64 ∧ (after (.bgez 9 0xFFFFE) s).me.pc = 0x1004#64 ∧
      (after (.bnez 9 3) s).me.pc = 0x100C#64 ∧ (after (.beqz 10 3) s).me.pc = 0x100C#64 ∧
      (after (.bgtz 10 3) s).me.pc = 0x1004#64 ∧ (after (.blez 10 3) s).me.pc = 0x100C#64 := by
  decide +kernel

/-- R230, R232: unconditional transfers. -/
theorem test_jumps :
    let s := stewardWith [(9, 0x2000#64)]
    (after (.b_ 0x10) s).me.pc = 0x1040#64 ∧ (after (.jr 9) s).me.pc = 0x2000#64 := by
  decide +kernel

/-- File 11, Windows at work: three nested calls with frames of 20. -/
theorem test_call_window :
    let s := stewardWith []
    let u := s.setMe { s.me with wsp := 0x60000#54, ring := [(20, 0xABCD#64)] }
    let t1 := after (.call 20 0x28) u
    let t2 := after (.call 20 0x28) t1
    let t3 := after (.callr 20 31) t2
    (t1.me.base, t1.me.low, t1.me.wsp.toNat * 8) = (20, 0, 0x300000) ∧ t1.reg 8 = 0xABCD#64 ∧
      t1.reg 31 = 0x2800000000001004#64 ∧ t1.me.pc = 0x10A0#64 ∧
      (t2.me.base, t2.me.low, t2.me.wsp.toNat * 8) = (40, 8, 0x300040) ∧
      (t3.me.base, t3.me.low, t3.me.wsp.toNat * 8) = (60, 28, 0x3000E0) := by
  decide +kernel

/-- File 11, Windows at work: the returns; the second and the third fill what was spilled. -/
theorem test_ret_window :
    let s := stewardWith []
    let u := s.setMe { s.me with wsp := 0x60000#54, ring := [(20, 0xABCD#64)] }
    let t3 := after (.call 20 1) (after (.call 20 1) (after (.call 20 1) u))
    let r3 := after .ret t3
    let r2 := after .ret r3
    let r1 := after .ret r2
    (r3.me.base, r3.me.low, r3.me.wsp.toNat * 8) = (40, 28, 0x3000E0) ∧
      (r2.me.base, r2.me.low, r2.me.wsp.toNat * 8) = (20, 20, 0x3000A0) ∧
      (r1.me.base, r1.me.low, r1.me.wsp.toNat * 8) = (0, 0, 0x300000) ∧ r1.reg 28 = 0xABCD#64 ∧ r1.me.pc = 0x1004#64 := by
  decide +kernel

/-- R232: a link whose frame leaves the window stack is BADLINK with w23 in VAL. -/
theorem test_ret_bad_link :
    let t := after .ret (slotWith [(31, 0x2800000000001004#64)])
    t.me.kcause = 0x8000000000000005#64 ∧ t.me.kval = 0x2800000000001004#64 ∧ t.me.base = 0 := by
  decide +kernel

/-! ### Memory, atomics, fences and traps of a control core -/

/-- R234, R235: a store of four bytes is little-endian; loads extend by their form; s0 discards a load. -/
theorem test_store_then_load :
    let t := after (.stI32 9 10 0 0) (stewardWith [(9, 0x11223380F0#64), (10, 0x20000000#64)])
    t.bytes 0x20000000 5 = [0xF0#8, 0x80#8, 0x33#8, 0x22#8, 0#8] ∧ (after (.ldI8 11 10 0 0) t).reg 11 = 0xFFFFFFFFFFFFFFF0#64 ∧
      (after (.ldN16 11 10 0 0) t).reg 11 = 0x80F0#64 ∧ (after (.ldI16 11 10 0 0) t).reg 11 = 0xFFFFFFFFFFFF80F0#64 ∧
      (after (.ldI64 0 10 0 0) t).reg 0 = 0#64 := by
  decide +kernel

/-- R234: the offset is sign-extended. -/
theorem test_load_offset :
    let t := after (.stI64 9 10 0xFF8 0) (stewardWith [(9, 0xFEDCBA9876543210#64), (10, 0x20000000#64)])
    t.word 0x1FFFFFF8 = 0xFEDCBA9876543210 ∧ (after (.ldN32 11 10 0xFFC 0) t).reg 11 = 0xFEDCBA98#64 ∧
      (after (.ldI32 11 10 0xFFC 0) t).reg 11 = 0xFFFFFFFFFEDCBA98#64 ∧ (after (.ldN8 11 10 0xFF9 0) t).reg 11 = 0x32#64 := by
  decide +kernel

/-- R234: a store writes its low bytes alone. -/
theorem test_narrow_stores :
    let s := stewardWith [(9, 0xFFFF#64), (10, 0x20000000#64)]
    (after (.stI8 9 10 1 0) s).word 0x20000000 = 0xFF00 ∧ (after (.stI16 9 10 7 0) s).word 0x20000000 = 0xFF00000000000000 ∧
      (after (.stI16 9 10 7 0) s).word 0x20000008 = 0xFF := by
  decide +kernel

/-- R238, R340: an acquire load of a misaligned address takes ALIGN with the address, before any access. -/
theorem test_ldacq_align :
    let t := after (.ldacq 11 9 2 0 0) (slotWith [(9, 0x102#64)])
    t.me.kcause = 0x8000000000000003#64 ∧ t.me.kval = 0x102#64 ∧ t.me.kpc = 0x1000#64 ∧ t.reg 11 = 0#64 := by
  decide +kernel

/-- R238: an acquire load reads at its width. -/
theorem test_ldacq :
    let t := after (.stI32 9 10 0 0) (stewardWith [(9, 0x80000001#64), (10, 0x20000000#64)])
    (after (.ldacq 11 10 2 0 3) t).reg 11 = 0xFFFFFFFF80000001#64 ∧ (after (.ldacq 11 10 2 1 3) t).reg 11 = 0x80000001#64 := by
  decide +kernel

/-- R241, R242: amoadd answers the old value, sign-extended, and adds modulo 2^32. -/
theorem test_amoadd :
    let t := after (.stI64 9 10 0 0) (stewardWith [(9, 0x1FFFFFFFF#64), (10, 0x20000000#64), (11, 2#64)])
    let u := after (.amoadd 12 10 11 0 0 3) t
    u.reg 12 = 0xFFFFFFFFFFFFFFFF#64 ∧ u.word 0x20000000 = 0x100000001 := by
  decide +kernel

/-- R241: signed and unsigned minimum and maximum, and the bitwise atomics. -/
theorem test_amo_functions :
    let t := after (.stI64 9 10 0 0) (stewardWith [(9, 0xFFFFFFFFFFFFFFF0#64), (10, 0x20000000#64), (11, 0x1F#64)])
    (after (.amomin 12 10 11 1 0 3) t).word 0x20000000 = 0xFFFFFFFFFFFFFFF0 ∧
      (after (.amomax 12 10 11 1 0 3) t).word 0x20000000 = 0x1F ∧ (after (.amominu 12 10 11 1 0 3) t).word 0x20000000 = 0x1F ∧
      (after (.amomaxu 12 10 11 1 0 3) t).word 0x20000000 = 0xFFFFFFFFFFFFFFF0 ∧
      (after (.amoand 12 10 11 1 0 3) t).word 0x20000000 = 0x10 ∧ (after (.amoor 12 10 11 1 0 3) t).word 0x20000000 = 0xFFFFFFFFFFFFFFFF ∧
      (after (.amoxor 12 10 11 1 0 3) t).word 0x20000000 = 0xFFFFFFFFFFFFFFEF ∧
      (after (.amoswap 12 10 11 0 0 3) t).word 0x20000000 = 0xFFFFFFFF0000001F := by
  decide +kernel

/-- R114, R241: cas compares with the old value of d and writes only when they agree. -/
theorem test_cas :
    let t := after (.stI64 9 10 0 0) (stewardWith [(9, 5#64), (10, 0x20000000#64), (11, 7#64), (12, 5#64), (13, 6#64)])
    (after (.cas 12 10 11 1 0 3) t).word 0x20000000 = 7 ∧ (after (.cas 12 10 11 1 0 3) t).reg 12 = 5#64 ∧
      (after (.cas 13 10 11 1 0 3) t).word 0x20000000 = 5 ∧ (after (.cas 13 10 11 1 0 3) t).reg 13 = 5#64 := by
  decide +kernel

/-- R118: the words of a fence at PKG with every store performed, and under a cap of 3. -/
theorem test_fence_words :
    let s := stewardWith []
    (after (.fence 11 5) s).reg 11 = 0x00050001#64 ∧
      (after (.fence 11 5) (s.setPart 0 { s.part 0 with cap := 3 })).reg 11 = 0x00030009#64 := by
  decide +kernel

/-- R118: the word after two stores lost to a dead port. -/
theorem test_fence_word_deadlink :
    let s := stewardWith []
    let t := after (.fence 11 6) (s.setMe { s.me with nfail := 2, deadlink := true })
    t.reg 11 = 0x00060202#64 ∧ (after (.fence 11 6) t).reg 11 = 0x00060001#64 := by
  decide +kernel

/-- R117, R118: a fence waits for a store of its core; the limit ends it with the scope reached. -/
theorem test_fence_waits :
    let s := stewardWith [(9, 1#64), (10, 0x20000000#64)]
    let t := after (.fence 11 5) (after (.stI32 9 10 0 0) (s.setPart 0 { s.part 0 with fenceto := 100 }))
    let u := { t with tick := 100, stores := t.stores.map fun p => { p with reached := 3 } }
    t.me.pc = 0x1004#64 ∧ t.reg 11 = 0#64 ∧ (after (.fenceComplete t.cur) t).reg 11 = 0#64 ∧
      (after (.fenceTimeout u.cur) u).reg 11 = 0x00030010#64 ∧ (after (.fenceTimeout u.cur) u).me.pc = 0x1008#64 := by
  decide +kernel

/-- R239: fence.lca of two coordinates on one layer names LAYER, below a steward core's own level. -/
theorem test_fence_lca :
    let t := after (.fenceLca 11 9) (stewardWith [(9, 0x009E8504#64)])
    t.reg 11 = 0x00050001#64 := by
  decide +kernel

/-- R238: a release store is done in memory at once and its word comes when it has performed. -/
theorem test_strel :
    let t := after (.strel 11 10 9 3 3) (stewardWith [(9, 7#64), (10, 0x20000000#64)])
    t.word 0x20000000 = 7 ∧ t.me.pc = 0x1000#64 ∧
      (after (.fenceComplete t.cur) { t with stores := [] }).reg 11 = 0x00030001#64 := by
  decide +kernel

/-- R111: a store performs at its home and leaves the stores on their way. -/
theorem test_store_performs :
    let t := after (.stI32 9 10 0 0) (stewardWith [(9, 0xAB#64), (10, 0x20000000#64)])
    let u := after (.storePerform 0 7) t
    t.mem = [] ∧ t.stores.length = 1 ∧ u.stores = [] ∧ u.mem = [(0x20000000, 0xAB#8)] := by
  decide +kernel

/-- R340, R343: trap n saves the next pc, code 8 and n, and goes to the handler of PT_KVEC. -/
theorem test_trap :
    let s := slotWith []
    let t := after (.trap 0x1234) (s.setPart 0 { s.part 0 with kvec := 0x8004#64 })
    t.me.kcause = 0x8000123400000008#64 ∧ t.me.kpc = 0x1004#64 ∧ t.me.level = .k ∧ t.me.pc = 0x8004#64 := by
  decide +kernel

/-- R343: tret clears LIVE and restores the level and the pc. -/
theorem test_tret :
    let t := after .tret (after (.trap 1) (slotWith []))
    t.me.level = .u ∧ t.me.pc = 0x1004#64 ∧ t.me.kcause = 0x0000000100000008#64 := by
  decide +kernel

/-- R344: a trap at K while the K record is live holds a sequencer's task in its slot. -/
theorem test_double_trap :
    let t := after (.trap 2) (after (.trap 1) (slotWith []))
    t.me.hold = .doubled ∧ t.me.kcause = 0x8000000100000008#64 := by
  decide +kernel

/-- R282, R343: a hypervisor call at H with a free H record enters H again from H; on a sequencer it is ILLEGAL. -/
theorem test_hcall :
    let s := stewardWith []
    let t := after (.hcall 3) (s.setStew 0 { s.stew 0 with hvec := 0x4000#64 })
    (t.stew 0).hcause = 0xC000000300000009#64 ∧ (t.stew 0).hpc = 0x1004#64 ∧ t.me.pc = 0x4000#64 ∧
      (after (.hcall 3) (slotWith [])).me.kcause = 0x8000000000000001#64 := by
  decide +kernel

/-- R343: an asynchronous cause enters H between two instructions and is pending no more. -/
theorem test_async_trap :
    let s := stewardWith []
    let t := after (.asyncTrapTake 0) (s.setStew 0 { s.stew 0 with pending := [(18, 0#64), (17, 5#64)] })
    (t.stew 0).hcause = 0xC000000000000011#64 ∧ (t.stew 0).hval = 5#64 ∧ (t.stew 0).pending = [(18, 0#64)] := by
  decide +kernel

/-- R340: a word that is no instruction is ILLEGAL with the word in VAL; a fetch at an odd address ALIGN. -/
theorem test_illegal_word_and_fetch :
    (after (.illegalEncoding 0xDEADBEEF#32) (slotWith [])).me.kval = 0xDEADBEEF#64 ∧
      (after (.fetchFault 0x1002#64) (slotWith [])).me.kcause = 0x8000000000000003#64 := by
  decide +kernel

/-- The tables of file 05's worked walk from the root that its entry addresses show (PA 0x1_0000_0000; R91 makes
that ROOT 0x10_0000), its two pages, and their frames Mapped to partition 0 (R106). -/
def walkState : State :=
  let s := slotWith [(9, 0x00010100C0805678#64), (10, 0x00010100C0A00040#64), (11, 0x55#64)]
  let t := ((((((s.write 0x100000008 (natToLe 0x0000000100001001 8)).write 0x100001010
    (natToLe 0x0000000100002001 8)).write 0x100002018 (natToLe 0x0000000100003001 8)).write 0x100003020
    (natToLe 0x0000000100004001 8)).write 0x100004028 (natToLe 0x0000000200405017 8)).write 0x100003028
    (natToLe 0x0000000300000093 8))
  let v := (t.write 0x200405678 (natToLe 0xA5 8)).write 0x300000040 (natToLe 0x5A 8)
  let u := [0x100000, 0x100001, 0x100002, 0x100003, 0x100004, 0x200405, 0x300000].foldl
    (fun x f => x.write f [0x40#8]) v
  u.setRegion 0 { u.region 0 with ctx := 0x100000#64 }

/-- R96, R97: the worked walk of file 05 reads the 4 KiB page, and a 2 MiB leaf after it. -/
theorem test_worked_walk :
    let t := after (.ldI64 12 9 0 0) walkState
    t.me.kcause = 0#64 ∧ t.reg 12 = 0xA5#64 ∧ (after (.ldI64 12 10 0 0) t).reg 12 = 0x5A#64 := by
  decide +kernel

/-- R103: the worked store to that page sets D in its leaf. -/
theorem test_store_sets_dirty :
    let t := after (.stI64 11 9 0 0) walkState
    t.word 0x100004028 = 0x0000000200405037 ∧ t.word 0x200405678 = 0x55 := by
  decide +kernel

/-- R98: bit 59 of a pointer entry ends the walk with RSVD at level 3 for a read: INFO 0x2600. -/
theorem test_walk_reserved_bit :
    let t := after (.ldI64 12 9 0 0) (walkState.write 0x100002018 (natToLe 0x0800000100003001 8))
    t.me.kcause = 0x8000260000000004#64 ∧ t.me.kval = 0x00010100C0805678#64 ∧ t.reg 12 = 0#64 := by
  decide +kernel

/-- R101: a covering tlbi drops the cached leaf, so the next load sees the changed entry. -/
theorem test_tlbi_page :
    let t := after (.ldI64 12 9 0 0) walkState
    let u := t.setMe { t.me with level := .k }
    let v := (u.write 0x100004028 (natToLe 0 8))
    (after (.ldI64 12 9 0 0) v).me.kcause = 0#64 ∧
      (after (.ldI64 12 9 0 0) (after (.tlbiPage 9 0) v)).me.kcause ≠ 0#64 := by
  decide +kernel

/-! ### Ops of an element -/

/-- R290: addition, subtraction and products wrap at the width of their type, value by value. -/
theorem test_vector_integer_wraps :
    laneRes (.vadd 1 0 0) (every 0x7FFF0001) (every 0x00010002) 5 = 0x80000003 ∧
      laneRes (.vsub 2 1 0) (every 0x00010203) (every 0x01010101) 0 = 0xFF000102 ∧
      laneRes (.vmul 0 0 0) (every 0x10000) (every 0x10001) 15 = 0x10000 := by
  decide +kernel

/-- R290: sat clamps each value and sets SAT. -/
theorem test_vector_integer_saturates :
    laneRes (.vadd 1 0 1) (every 0x7FFF0001) (every 0x00010002) 5 = 0x7FFF0003 ∧
      flagsOut (.vadd 1 0 1) (every 0x7FFF0001) (every 0x00010002) = fSAT ∧
      laneRes (.vsub 2 1 1) (every 0x00010203) (every 0x01010101) 0 = 0x00000102 := by
  decide +kernel

/-- R290: vmad adds the old vd (0 here) to the product; vmin and vmax read the type. -/
theorem test_vmad_min_max :
    laneRes (.vmad 0 0 0) (every 7) (every 6) 3 = 42 ∧ laneRes (.vmin 0 0) (every 0xFFFFFFFF) (every 1) 0 = 0xFFFFFFFF ∧
      laneRes (.vmin 0 1) (every 0xFFFFFFFF) (every 1) 0 = 1 ∧ laneRes (.vmax 2 0) (every 0x80) (every 0x7F) 0 = 0x7F := by
  decide +kernel

/-- R291: vlogic functions on lanes. -/
theorem test_vlogic :
    laneRes (.vlogic 2) (every 0xF0F0) (every 0xFF00) 9 = 0x0FF0 ∧ laneRes (.vlogic 3) (every 0xF0F0) (every 0xFF00) 9 = 0xF0 ∧
      laneRes (.vlogic 4) (every 0) (every 1) 0 = 0xFFFFFFFE ∧ laneRes (.vlogic 6) (every 0) (every 1) 0 = 0xFFFFFFFF := by
  decide +kernel

/-- R292: shift counts are modulo the width; immediate shifts take the count of the op. -/
theorem test_vector_shifts :
    laneRes (.vshl 0 0 0) (every 3) (every 33) 0 = 6 ∧ laneRes (.vshr 0 0) (every 0x80000000) (every 31) 0 = 0xFFFFFFFF ∧
      laneRes (.vshr 0 1) (every 0x80000000) (every 31) 0 = 1 ∧ laneRes (.vshi 2 1 3) (every 0x80000010) 0 0 = 0xF0000002 ∧
      laneRes (.vshi 1 1 3) (every 0x80000010) 0 0 = 0x10000002 ∧ laneRes (.vshi 0 1 3) (every 0xFFFF0001) 0 0 = 0xFFF80008 := by
  decide +kernel

/-- R293: broadcast, lane numbers and immediate bytes. -/
theorem test_vmov :
    laneRes (.vmov 1 2) (lanes [10, 11, 12]) 0 14 = 12 ∧ laneRes (.vmov 2 0) 0 0 14 = 14 ∧
      laneRes (.vmov 0 0) (lanes [10, 11, 12]) 0 1 = 11 ∧ laneRes (.vmovi 1 0xA5) 0 0 4 = 0xA500 ∧
      laneRes (.vmovi 0 0xA5) 0 0 4 = 0xA5 := by
  decide +kernel

/-- R294: a packed comparison holds in a lane when it holds for both of its values. -/
theorem test_vcmp :
    (results (.vcmp 2 1 0) (lanes [0xFFFF0001, 0x00020001, 0x00010000]) (lanes [0x00000002, 0x00020002, 0x00020001])).head? =
        some (1, .q 3 0b101#16) ∧
      (results (.vcmp 2 1 1) (lanes [0xFFFF0001]) (lanes [0x00000002])).head? = some (1, .q 3 0#16) := by
  decide +kernel

/-- R294: a quiet NaN makes `ge` false with NV and `ne` true without a flag. -/
theorem test_vcmp_nan :
    (results (.vcmp 5 4 0) (every 0x7FC00000) (every 0)).head? = some (1, .q 3 0#16) ∧
      flagsOut (.vcmp 5 4 0) (every 0x7FC00000) (every 0) = fNV ∧
      (results (.vcmp 1 4 0) (every 0x7FC00000) (every 0)).head? = some (1, .q 3 0xFFFF#16) ∧
      flagsOut (.vcmp 1 4 0) (every 0x7FC00000) (every 0) = 0 ∧
      (results (.vcmp 0 4 0) (every 0x80000000) (every 0)).head? = some (1, .q 3 0xFFFF#16) := by
  decide +kernel

/-- R295, R291: a select by a guard register, and operations on guard registers. -/
theorem test_vsel_vgop :
    let s := elementWith [(1, every 1), (2, every 2)]
    let t := s.setElem { s.elem with q := [(1, 0x0F0F#16), (2, 0x00FF#16)] }
    ((after (.vsel 1) t).elem.flight.map fun x => match x.2 with
      | .v 3 x => (x.toNat % 2 ^ 32, x.toNat / 2 ^ 128 % 2 ^ 32)
      | _ => (0, 0)) = [(1, 2)] ∧
      (after (.vgop 3) t).elem.flight = [(1, .q 3 0x0F00#16)] ∧ (after (.vgop 5) t).elem.flight = [(1, .q 3 0xFFFF#16)] := by
  decide +kernel

/-- R296: sums, differences, products and fused products of binary32 values. -/
theorem test_vector_float :
    laneRes (.vfadd 4 0 0) (every 0x3F800000) (every 0x40000000) 7 = 0x40400000 ∧
      laneRes (.vfsub 4 0 0) (every 0x3F800000) (every 0x40000000) 7 = 0xBF800000 ∧
      laneRes (.vfmul 4 0 0) (every 0x3FC00000) (every 0xC0000000) 7 = 0xC0400000 ∧
      laneRes (.vfma 4 0 0) (every 0x3FC00000) (every 0xC0000000) 7 = 0xC0400000 ∧
      laneRes (.vfadd 5 0 0) (every 0x3C004000) (every 0x3C003C00) 7 = 0x40004200 := by
  decide +kernel

/-- R44, R45, R53: infinity minus infinity is NaN with NV; an overflow is infinity, or the largest value with sat. -/
theorem test_vector_float_flags :
    laneRes (.vfsub 4 0 0) (every 0x7F800000) (every 0x7F800000) 0 = 0x7FC00000 ∧
      flagsOut (.vfsub 4 0 0) (every 0x7F800000) (every 0x7F800000) = fNV ∧
      laneRes (.vfmul 4 0 0) (every 0x7F000000) (every 0x40000000) 0 = 0x7F800000 ∧
      flagsOut (.vfmul 4 0 0) (every 0x7F000000) (every 0x40000000) = fOF ||| fNX ∧
      laneRes (.vfmul 4 1 0) (every 0x7F000000) (every 0x40000000) 0 = 0x7F7FFFFF := by
  decide +kernel

/-- R296, R297: a quiet NaN loses to a number; sign operations change the sign bit alone. -/
theorem test_vfmin_vfmax_vfsgn :
    laneRes (.vfmin 4) (every 0x7FC00000) (every 0x3F800000) 0 = 0x3F800000 ∧ flagsOut (.vfmin 4) (every 0x7FC00000) 0 = 0 ∧
      laneRes (.vfmax 6) (every 0x3F80BF80) (every 0x40003F80) 0 = 0x40003F80 ∧
      laneRes (.vfsgn 0 4) (every 0x7FC00000) 0 0 = 0xFFC00000 ∧ laneRes (.vfsgn 1 5) (every 0xBC00BC00) 0 0 = 0x3C003C00 ∧
      laneRes (.vfsgn 2 4) (every 0x3F800000) (every 0x80000000) 0 = 0xBF800000 := by
  decide +kernel

/-- R56: exact reciprocals, roots and powers set no flag; the reciprocal of +0 is infinity with DZ. -/
theorem test_vector_functions :
    laneRes (.vfrcp 4 0) (every 0x40000000) 0 0 = 0x3F000000 ∧ flagsOut (.vfrcp 4 0) (every 0x40000000) 0 = 0 ∧
      laneRes (.vfrsq 4 0) (every 0x40800000) 0 0 = 0x3F000000 ∧ laneRes (.vfexp2 4 0) (every 0x40400000) 0 0 = 0x41000000 ∧
      laneRes (.vfrcp 4 0) 0 0 0 = 0x7F800000 ∧ flagsOut (.vfrcp 4 0) 0 0 = fDZ := by
  decide +kernel

/-- R56: 1/3 in binary32: nearest 0x3EAAAAAB, toward zero 0x3EAAAAAA, with NX. -/
theorem test_vfrcp_rounds :
    laneRes (.vfrcp 4 0) (every 0x40400000) 0 0 = 0x3EAAAAAB ∧ laneRes (.vfrcp 4 1) (every 0x40400000) 0 0 = 0x3EAAAAAA ∧
      flagsOut (.vfrcp 4 0) (every 0x40400000) 0 = fNX := by
  decide +kernel

/-- R299: a sum over all lanes goes to every lane; lo8 takes the identity for the others; lg stops at lane groups. -/
theorem test_vred :
    laneRes (.vred 0 4 0 0 0 0) (every 0x3F800000) 0 11 = 0x41800000 ∧ laneRes (.vred 0 0 0 2 0 0) (every 3) 0 11 = 24 ∧
      laneRes (.vred 0 0 0 1 0 0) (lanes [1, 2, 3, 4, 5, 6, 7, 8]) 0 6 = 26 ∧
      laneRes (.vred 2 2 1 0 0 0) (lanes [0x01FF0203, 0x02000405]) 0 15 = 0x02FF0405 := by
  decide +kernel

/-- File 03, Worked roundings: 0.296875 and -0.3046875 to binary8p4 in each mode, with NX. -/
theorem test_vnarrow_rounds :
    ([0, 1, 2, 3, 4].map fun r => laneRes (.vnarrow 0 r 4 0x84) (every 0x3E980000) 0 0) = [0x32, 0x31, 0x32, 0x31, 0x31] ∧
      ([0, 1, 2, 3, 4].map fun r => laneRes (.vnarrow 0 r 4 0x84) (every 0xBE9C0000) 0 0) =
        [0xB2, 0xB1, 0xB1, 0xB2, 0xB1] ∧ flagsOut (.vnarrow 0 0 4 0x84) (every 0x3E980000) 0 = fNX := by
  decide +kernel

/-- File 03: 250.0 overflows to 0x7F with OF and NX; as the extended format 230.0 rounds to 0x7E without overflow. -/
theorem test_vnarrow_overflow :
    laneRes (.vnarrow 0 0 4 0x84) (every 0x437A0000) 0 0 = 0x7F ∧ flagsOut (.vnarrow 0 0 4 0x84) (every 0x437A0000) 0 = fOF ||| fNX ∧
      laneRes (.vnarrow 1 0 4 0x94) (every 0x437A0000) 0 0 = 0x7F ∧ laneRes (.vnarrow 1 0 4 0x94) (every 0x43660000) 0 0 = 0x7E ∧
      flagsOut (.vnarrow 1 0 4 0x94) (every 0x43660000) 0 = fNX := by
  decide +kernel

/-- R301: a binary4p2 code widens exactly; a signed byte enters an i32 lane with its sign. -/
theorem test_vwiden :
    laneRes (.vwiden 1 0 4 0xC2) (every 5) 0 0 = 0x3FC00000 ∧ laneRes (.vwiden 0 0 0 0x01) (every 0x80) 0 0 = 0xFFFFFF80 := by
  decide +kernel

/-- File 13, a row converted and packed: the codes and the flags of the conversion. -/
theorem test_row_converted :
    let a := lanes [0x3F800000, 0xC0000000, 0x3E980000, 0xBE9C0000, 0x437A0000, 0x43660000, 0, 0x7FC00000]
    ((List.range 9).map fun j => laneRes (.vnarrow 0 0 4 0x84) a 0 j) = [0x40, 0xC8, 0x32, 0xB2, 0x7F, 0x7E, 0, 0x80, 0] ∧
      flagsOut (.vnarrow 0 0 4 0x84) a 0 = fOF ||| fNX := by
  decide +kernel

/-- File 13: the two packing steps of that row. -/
theorem test_vpack :
    let a := lanes [0x40, 0xC8, 0x32, 0xB2, 0x7F, 0x7E, 0, 0x80]
    ((List.range 5).map fun j => laneRes (.vpack 0 0 0 0) a 0 j) = [0x00C80040, 0x00B20032, 0x007E007F, 0x00800000, 0] ∧
      ((List.range 3).map fun j => laneRes (.vpack 1 1 0 0) (lanes [0x00C80040, 0x00B20032, 0x007E007F, 0x00800000]) 0 j) =
        [0xB232C840, 0x80007E7F, 0] := by
  decide +kernel

/-- R303 to R306: byte permutes, nibbles and lane shuffles. -/
theorem test_permutes :
    laneRes .vpermb (lanes [0x03020100, 0x07060504]) (lanes [0x80040007]) 0 = 0x00040007 ∧
      laneRes (.vnib 0 0) (lanes [0x8F]) 0 0 = 0x0000F8FF ∧ laneRes (.vnib 1 0) (lanes [0x8F]) 0 0 = 0x0000080F ∧
      laneRes (.vshuf 0 0 1) (lanes [10, 11, 12]) 0 0 = 11 ∧ laneRes (.vshuf 1 1 3) (lanes [10, 11, 12, 13]) 0 0 = 13 ∧
      laneRes (.vshuf 2 1 2) (lanes [10, 11, 12, 13]) 0 3 = 12 := by
  decide +kernel

/-- R308: a row load reads 64 bytes at the aligned offset; out of range it reads zero and records the address. -/
theorem test_vldm :
    let s := elementWith [(1, every 0x40)]
    let t := s.setElem { s.elem with elm := [(0x81, 0xAB#8)] }
    (after (.vldm 0 1) t).elem.flight = [(3, .v 3 0xAB00#512)] ∧
      (after (.vldm 0 0) (elementWith [(1, 0x60000)])).elem.flight = [(3, .v 3 0#512)] ∧
      ((after (.vldm 0 0) (elementWith [(1, 0x60000)])).region 0).oor.getLsbD 63 = true := by
  decide +kernel

/-- R307, R308: a row store writes the lanes that its guard turns on. -/
theorem test_vstm :
    let s := elementWith [(1, 0), (3, every 0x11223344)]
    let t := s.setElem { s.elem with q := [(1, 2#16)] }
    (after (.vstm 1 0 0) t).elem.flight =
      [(1, .elm [(4, 0x44#8), (5, 0x33#8), (6, 0x22#8), (7, 0x11#8)])] := by
  decide +kernel

/-- R308: slice loads and stores go to the lane's own 512 bytes. -/
theorem test_vldl_vstl :
    let s := elementWith [(1, lanes [0, 4]), (3, lanes [7, 9])]
    let t := s.setElem { s.elem with lps := [(0, 5#8), (516, 6#8)], q := [(1, 3#16)] }
    (after (.vldl 0 0) t).elem.flight = [(2, .v 3 (BitVec.ofNat 512 (5 + 6 * 2 ^ 32)))] ∧
      (after (.vstl 1 0 0) t).elem.flight = [(1, .lps [(0, 7#8), (1, 0#8), (2, 0#8), (3, 0#8), (516, 9#8), (517, 0#8),
        (518, 0#8), (519, 0#8)])] := by
  decide +kernel

/-- R313: an atomic row answers the old values and adds to the row. -/
theorem test_vatom :
    let s := elementWith [(1, 0), (2, lanes [1, 2])]
    let t := s.setElem { s.elem with elm := [(0, 0xFF#8)], q := [(1, 1#16)] }
    (after (.vatom 0 1 0 0) t).elem.flight =
      [(1, .elm [(0, 0#8), (1, 1#8), (2, 0#8), (3, 0#8)]), (3, .v 3 0xFF#512)] := by
  decide +kernel

/-- R310: vpop moves the head of a load queue to vd, lanes that are not valid as zero, and pops it. -/
theorem test_vpop :
    let s := elementWith []
    let q : QEntry := { bytes := List.replicate 64 0x11#8, token := 1#16, index := 0, addr := some 0, landed := true
                        block := none, size := 1, born := 0, closed := false }
    let t := after (.vpop 0) (s.setElem { s.elem with ag0 := { AgPort.zero with kind := 1, queue := [q] } })
    mapGet 0 t.elem.v 3 = 0x11111111#512 ∧ t.elem.ag0.queue = [] := by
  decide +kernel

/-- R310: vpush appends va to a store queue with the guard as its lane-valid bits. -/
theorem test_vpush :
    let s := elementWith [(1, every 0x01020304)]
    let t := after (.vpush 1 2) (s.setElem { s.elem with q := [(2, 0xF#16)], ag1 := { AgPort.zero with kind := 2 } })
    (t.elem.ag1.queue.map fun q => (q.token, q.bytes.take 4)) = [(0xF#16, [4#8, 3#8, 2#8, 1#8])] := by
  decide +kernel

/-- R312: a token to the sequencer is counted under the guard's lane 0; others reach a latch a tick later. -/
theorem test_tksend :
    let s := elementWith []
    let t := s.setElem { s.elem with q := [(2, 2#16)] }
    ((after (.tksend 7 0) s).region 0).tokcnt = 1#32 ∧ ((after (.tksend 2 0) t).region 0).tokcnt = 0#32 ∧
      ((after (.tksend 7 7) s).elem.flight) = [(1, .agStart)] := by
  decide +kernel

/-- R312: tkwait clears the latch that it names; without a token the element is held. -/
theorem test_tkwait :
    let s := elementWith []
    (after (.tkwait 8) (s.setElem { s.elem with tokens := 0x180#9 })).elem.tokens = 0x80#9 ∧ after (.tkwait 8) s = s := by
  decide +kernel

/-- R293, R311: vnop and vsend change nothing of the element. -/
theorem test_vnop_vsend :
    let s := elementWith []
    after .vnop s = s ∧ after .vnopUnguarded s = s ∧ after (.vsend 2) s = s := by
  decide +kernel

/-- File 14: the 4-bit grant of M = 2, N = 64, K = 64. -/
theorem test_shape :
    let a := lanes [2, 64, 64]
    ((List.range 11).map fun j => laneRes (.shape 0 0) a 0 j) = [2, 64, 64, 0, 2, 2, 1, 127, 1, 0, 0] ∧
      (after (.shape 0 0) (elementWith [(1, a)])).elem.flight.length = 2 := by
  decide +kernel

/-- File 14's grant. -/
def grant4 : Grant := { width := 4, h := 2, ne := 64, kb := 2, part := 0, status := 0 }

/-- File 14: the register form writes the three sets of each cell (0xF21); cells 0 and 1 of column 0 are apart by
64 cells of 12 bits. -/
theorem test_mbload_register :
    let s := elementWith [(1, 0), (2, lanes [0x11111111, 0x11111111, 0x11111111, 0x11111111, 0x22222222, 0x22222222,
      0x22222222, 0x22222222, 0xFFFFFFFF, 0xFFFFFFFF, 0xFFFFFFFF, 0xFFFFFFFF])]
    let t := after (.mbloadRegister 1 0x7F) (s.setElem { s.elem with grant := some grant4 })
    ((t.elem.flight.map fun x => match x.2 with
      | .elm l => (findCell l 0, findCell l 1, findCell l 96, findCell l 97, findCell l 0x1800, findCell l 0x1A01)
      | _ => (none, none, none, none, none, none))) =
      [(some 0x21#8, some 0x0F#8, some 0x21#8, some 0x0F#8, some 0#8, some 0#8)] := by
  decide +kernel

/-- R320: mrun arms a run with the block range of va. -/
theorem test_mrun :
    (after (.mrun 0 0 0 0xFF) (elementWith [(1, lanes [0, 2])])).elem.flight =
      [(1, .arm { k0 := 0, nk := 2, set := 0, mask := 0xFF, port := 0, acc := false, running := false, clock := 0 })] := by
  decide +kernel

/-- File 14: an mrdacc of row 0 reads its accumulators, the blocks absorbed and that the run is under way. -/
theorem test_mrdacc :
    let s := elementWith [(1, 0)]
    let r : Run := { k0 := 0, nk := 2, set := 0, mask := 0xFF, port := 0, acc := false, running := true, clock := 20 }
    let t := s.setElem { s.elem with
      grant := some grant4, run := some r, absorbed := [(0, 1), (1, 1)], elm := [(0x5F402, 0x00#8), (0x5F403, 0x42#8)] }
    (after .mrdacc t).elem.flight = [(3, .v 3 0x42000000#512), (3, .v 4 0x100000001#512)] := by
  decide +kernel

/-- R323: mzero of a row outside the grant writes nothing and records level 5. -/
theorem test_mzero :
    let s := elementWith [(1, 2)]
    let t := s.setElem { s.elem with grant := some grant4 }
    (after (.mzero 1) t).elem.flight = [] ∧ ((after (.mzero 1) t).region 0).oor ≠ 0#64 ∧
      (after (.mzero 0) t).elem.flight.length = 1 := by
  decide +kernel

/-- R324: a = (1.5, 2), b = (4, -1) and vd zero give (6, -1.5, 8, -2). -/
theorem test_mfma64 :
    let pair (x y : Nat) : Nat := lanes [0, x, 0, 0, 0, y]
    ([1, 5, 9, 13].map fun j => laneRes (.mfma64 0 0) (pair 0x3FF80000 0x40000000) (pair 0x40100000 0xBFF00000) j) =
      [0x40180000, 0xBFF80000, 0x40200000, 0xC0000000] := by
  decide +kernel

/-- File 04, a worked selection: the block of the four-bit quantising store and its header. -/
theorem test_qst :
    let s := elementWith [(1, lanes [0x40400000, 0xBFC00000, 0x3F400000, 0x3F000000, 0x40000000, 0xBE800000, 0x3F800000,
      0x3FA00000])]
    let t := s.setElem { s.elem with ag0 := { AgPort.zero with kind := 2 } }
    ((after (.qst 0 0 0 7 4 0 0x0F) t).elem.ag0.queue.map fun q => q.bytes) =
        [[0xD7#8, 0x23#8, 0x96#8, 0x44#8, 0#8, 0#8, 0#8, 0#8, 0x7F#8, 0x48#8]] ∧
      ((after (.qst 0 0 0 7 4 0 0x0B) t).elem.ag0.queue.map fun q => q.bytes) =
        [[0xD6#8, 0x12#8, 0x04#8, 0x22#8, 0#8, 0#8, 0#8, 0#8, 0x7E#8, 0x10#8]] := by
  decide +kernel

/-- R326: that block's values come back as binary32: 3, -1.5, 0.75, 0.5, 2, -0.25, 1, 1. -/
theorem test_vcld :
    let s := elementWith []
    let q : QEntry := { bytes := [0xD7#8, 0x23#8, 0x96#8, 0x44#8, 0#8, 0#8, 0#8, 0#8, 0x7F#8, 0x48#8], token := 0xFFFF#16
                        index := 0, addr := some 0, landed := true, block := some (4, 16), size := 1, born := 0, closed := false }
    let t := after (.vcld 0 0 4 0 0) (s.setElem { s.elem with ag0 := { AgPort.zero with kind := 1, queue := [q] } })
    t.elem.flight = [(2, .v 3 (BitVec.ofNat 512 (lanes [0x40400000, 0xBFC00000, 0x3F400000, 0x3F000000, 0x40000000,
      0xBE800000, 0x3F800000, 0x3F800000])))] ∧ t.elem.ag0.queue = [] := by
  decide +kernel

/-- R319: a queue-form load of a block that is not four bits wide into a four-bit grant stores zero and sets NV. -/
theorem test_mbload_queue :
    let s := elementWith [(1, 0)]
    let q : QEntry := { bytes := List.replicate 32 1#8 ++ [0x7F#8, 0#8], token := 0xFFFF#16
                        index := 0, addr := some 0, landed := true, block := some (8, 32), size := 1, born := 0, closed := false }
    let t := after (.mbloadQueue 0) (s.setElem { s.elem with
      grant := some grant4, ag0 := { AgPort.zero with kind := 1, queue := [q] } })
    (t.elem.flight.any fun x => decide (x.2 = .flags fNV)) = true ∧ t.elem.ag0.queue = [] := by
  decide +kernel

/-- R327, R329: a port's configuration, base and loop take effect a tick later. -/
theorem test_generator_ops :
    let s := elementWith [(1, lanes [3, 64, 5, 0xFFFFFFC0])]
    ((after (.agcfg 0 0 1 1) s).elem.flight.map fun x => match x.2 with
      | .cfg p a => [x.1, p, a.kind, a.counters] ++ a.extents
      | _ => []) = [[1, 0, 1, 2, 3, 5]] ∧
      ((after (.agcfg 0 0 1 1) s).elem.flight.flatMap fun x => match x.2 with
      | .cfg _ a => a.strides
      | _ => []) = [64, -64] ∧
      (after (.agbase 1) s).elem.flight = [(1, .base 1 (3 + 64 * 2 ^ 32))] ∧
      (after (.agrun 1 1 0) s).elem.flight = [(1, .loop 0 3 true)] ∧
      (after (.agrun 0 0 0) s).elem.flight = [(1, .armLoop 0 3 false)] := by
  decide +kernel

/-- A row out of range is recorded whatever the guard; the guard q0 is all off (R307). -/
theorem test_vstm_row_out_of_range :
    (opVstm 0 0 0 (turnInput (elementWith [(1, every 0x60000)]))).oor = [(1, true, 0x60000)] := by
  decide +kernel

/-! ### Engines, work, attention, messages and system instructions -/

/-- A slot of region 0 whose element 0 has its banks in the region's context and some bytes of memory, with the
counter table of its partition at 0x2000_0000. -/
def regionWith (l : List (BitVec 5 × Word)) (elm : Map Byte) : State :=
  let s := slotWith l
  (s.setRegion 0 ((s.region 0).setElement 0 { Element.zero with
    elm := elm, tags := (List.range 128).map fun b => (b, some (some (0, 0))) })).setPart 0
    { s.part 0 with ctrbase := 0x20000000#64, epbase := 0x28000000#64 }

/-- The base of the region-shared window (R86). -/
def window : Word := 0xFFFFFFFFF8000000#64

/-- A header that the flash does not give leads to recovery (R196). -/
theorem test_boot_recovers :
    (match execPowerOnBoot false State.reset with
      | .next t => decide (t.boot = .recovery)
      | _ => false) = true := by
  decide +kernel

/-- An image whose header is accepted starts the steward core of chiplet 0 at level H (R196). -/
theorem test_boot_starts (h : headerAccepted State.reset = true) :
    (match execPowerOnBoot true State.reset with
      | .next t => decide (t.boot = .up ∧ (t.stew 0).task.level = .h ∧ (t.stew 0).task.hold = .ready)
      | _ => false) = true := by
  simp only [execPowerOnBoot, h]
  decide +kernel

/-- A placed word is the next instruction: addi w1, s0, 1 and li w1, 0x100000. -/
theorem test_step_runs_placed_word :
    (match step (State.reset.withFetchWord 32 0x20900001) with
      | .next t => decide (t.reg 9 = 1#64 ∧ t.me.pc = 0x10000004#64)
      | _ => false) = true ∧
      (match step (State.reset.withFetchWord 64 0x0010000032900000) with
      | .next t => decide (t.reg 9 = 0x100000#64 ∧ t.me.pc = 0x10000008#64)
      | _ => false) = true := by
  decide +kernel

/-- A placed op word is the next op of element 0: vmovi.i32.b1 of 0xA5. -/
theorem test_step_runs_placed_op :
    (match step (State.reset.withFetchWord 24 0x3878A5) with
      | .next t => t.elem.flight.map fun x => match x.2 with
        | .v 0 v => v.toNat % 2 ^ 64
        | _ => 0
      | _ => []) = [0xA5000000A500] := by
  decide +kernel

/-- R23, R272: a job, a graph under it, its close and the wait for it. -/
theorem test_counters :
    let s := regionWith [(9, 1#64)] []
    let t := after (.gopen 11 9 2) (after (.jopen 11 1) s)
    let u := after (.gclose 11 2) t
    t.word (ctrAddr t 0 1) = 0x8800000000000002 ∧ t.word (ctrAddr t 0 2) = 0x4800100000000001 ∧
      u.word (ctrAddr t 0 1) = 0x8800000000000001 ∧ u.word (ctrAddr t 0 2) % 2 ^ 32 = 0 ∧
      (after (.gclose 11 2) u).reg 11 = 3#64 ∧ (after (.waitc 11 2) u).reg 11 = 0#64 ∧
      (after (.waitc 11 1) u).me.hold = .wait (.waitc 11 1) := by
  decide +kernel

/-- R272: a handle that is running is BUSY; handle 0 is BADHANDLE; a graph needs an open job. -/
theorem test_counter_refusals :
    let s := after (.jopen 11 1) (regionWith [(9, 2#64)] [])
    (after (.jopen 11 1) s).reg 11 = 1#64 ∧ (after (.jopen 11 0) s).reg 11 = 5#64 ∧ (after (.gopen 11 9 3) s).reg 11 = 5#64 := by
  decide +kernel

/-- R28, R269: spawn takes the lowest free slot, and the task starts at its entry with its arguments in w0 on. -/
theorem test_spawn_and_tail :
    let s := after (.jopen 11 1) (regionWith [(16, 0x4000#64), (17, 0x3FF000001#64), (18, 0x300000#64), (19, 77#64)] [])
    let t := after (.spawn 11 16 3) s
    let u := after .tail { t with cur := .seq 0 1 }
    t.reg 11 = 0x100000000#64 ∧ (t.task (.seq 0 1)).pc = 0x4000#64 ∧ (t.task (.seq 0 1)).get 8 = 77#64 ∧
      (t.task (.seq 0 1)).hold = .ready ∧ t.word (ctrAddr t 0 1) % 2 ^ 32 = 2 ∧
      (u.task (.seq 0 1)).hold = .free ∧ u.word (ctrAddr t 0 1) % 2 ^ 32 = 1 := by
  decide +kernel

/-- R26, R272: cancel of a handle of another level is LEVEL, of handle 0 BADHANDLE. -/
theorem test_cancel_refusals :
    let t := after (.jopen 11 1) (regionWith [] [])
    (after (.cancel 11 2 1) t).reg 11 = 4#64 ∧ (after (.cancel 11 4 0) t).reg 11 = 5#64 := by
  decide +kernel

/-- R89, R255, R256: every tag is set at reset; waits answer the set tags of the mask, ffr the lowest. -/
theorem test_tags :
    let s := regionWith [(9, 6#64)] []
    (after (.waitt 11 9 1) s).reg 11 = 6#64 ∧ (after (.waitt 11 9 0) s).reg 11 = 6#64 ∧ (after (.ffr 11 9) s).reg 11 = 1#64 ∧
      (after (.ffr 11 0) s).reg 11 = 64#64 ∧ (after (.waitt 11 9 1) (s.setMe { s.me with tags := 2#64 })).me.pc = 0x1000#64 := by
  decide +kernel

/-- R246 to R248: a copy between two places of the window is queued on its tag and moves bytes when it is done. -/
theorem test_copy :
    let s := regionWith [(9, window + 0x100), (10, window), (11, 2#64)] [(0, 0xAA#8), (1, 0xBB#8)]
    let t := after (.copy 12 9 2 0 0 5) s
    let u := after (.engineCommandComplete 0 .copy 0) t
    t.reg 12 = 0#64 ∧ t.me.tags = 0xFFFFFFFFFFFFFFDF#64 ∧ (t.region 0).copyq.length = 1 ∧ u.me.tags = 0xFFFFFFFFFFFFFFFF#64 ∧
      (u.region 0).copyq = [] ∧ u.elmByte 0 0 0x100 = 0xAA#8 ∧ u.elmByte 0 0 0x101 = 0xBB#8 ∧ u.elmByte 0 0 0x102 = 0#8 := by
  decide +kernel

/-- R70, R259: a codebook of strictly increasing levels loads under generation 1; one that repeats a level does not. -/
theorem test_cbload :
    let level (c : Nat) : List (Nat × Byte) := [(2 * c, BitVec.ofNat 8 (if c < 8 then c else c + 240)),
      (2 * c + 1, if c < 8 then 0#8 else 0xFF#8)]
    let table (l : List Nat) : Map Byte := (l.flatMap level).foldl (fun m x => mapSet 0#8 m x.1 x.2) []
    (after (.cbload 12 9 3 0) (regionWith [(9, window)] (table (List.range 16)))).reg 12 = 0x100000000#64 ∧
      (after (.cbload 12 9 3 0) (regionWith [(9, window)] (table [1, 2, 3, 9, 10, 11, 12, 13, 14, 15]))).reg 12 =
        0x400000008#64 := by
  decide +kernel

/-- R277 to R279: a barrier of two: the second arrival steps its generation, and the waits before and after it. -/
theorem test_barrier :
    let s := after (.barinit 12 9 7) (regionWith [(9, 2#64)] [])
    let t := after (.bararr 12 2 7) s
    let u := after (.bararr 13 2 7) t
    s.reg 12 = 0#64 ∧ t.reg 12 = 0#64 ∧ (after (.barwait 14 7) t).me.hold = .wait (.barwait 14 7) ∧
      (after (.barwait 14 7) u).reg 14 = 0#64 ∧ (after (.barinit 12 9 7) u).reg 12 = 1#64 ∧
      (after (.barwait 14 6) u).reg 14 = 18#64 := by
  decide +kernel

/-- R275, R276: handle 0 is BADHANDLE; a steward's recvm is empty. -/
theorem test_messages :
    let s := regionWith [] []
    let t := after (.recvm 24) (stewardWith [(24, 5#64)])
    (after (.sendm 12 0) s).reg 12 = 5#64 ∧ t.reg 24 = 0#64 ∧ t.reg 27 = 0x8000000000000000#64 ∧
      (after (.recvm 24) s).me.hold = .wait (.recvm 24) := by
  decide +kernel

/-- R31, R276: a recvm takes the oldest message of its own slot. -/
theorem test_recvm :
    let s := regionWith [] []
    let t := s.setRegion 0 { s.region 0 with queue := [{ slot := 1, payload := [9#64], sender := 0 },
      { slot := 0, payload := [1#64, 2#64, 3#64], sender := 0x4000000000000007#64 }] }
    let u := after (.recvm 24) t
    u.reg 24 = 1#64 ∧ u.reg 26 = 3#64 ∧ u.reg 27 = 0x4000000000000007#64 ∧ (u.region 0).queue.length = 1 := by
  decide +kernel

/-- R280: waita waits while the word equals the operand and answers its low half when it differs. -/
theorem test_waita :
    let s := regionWith [(9, window), (10, 5#64)] [(0, 5#8)]
    (after (.waita 12 9 10) s).me.hold = .wait (.waita 12 9 10) ∧ (after (.waita 12 9 0) s).reg 12 = 0x500000000#64 := by
  decide +kernel

/-- R108, R285: frames of the frame table: framemap takes a free frame, framefree starts its scrub. -/
theorem test_frames :
    let s := (stewardWith [(9, 0x30000000#64), (10, 5#64)]).write 0x30000 [0#8]
    let t := after (.framemap 12 9 10) s
    let u := after (.framefree 12 9 0) t
    t.reg 12 = 0#64 ∧ t.byte 0x30000 = 0x45#8 ∧ (after (.framemap 12 9 10) t).reg 12 = 10#64 ∧ u.byte 0x30000 = 0x85#8 ∧
      u.scrubs = [0x30000000] ∧ (after (.framefree 12 9 0) u).reg 12 = 11#64 := by
  decide +kernel

/-- R206: steward-level instructions are PRIV below H on a steward core and ILLEGAL on a sequencer. -/
theorem test_privilege :
    let s := stewardWith []
    let t := s.setMe { s.me with level := .k }
    (after (.framemap 12 9 10) t).me.kcause = 0xA000000000000002#64 ∧
      (after (.framemap 12 9 10) (slotWith [])).me.kcause = 0x8000000000000001#64 ∧
      (after .tret (slotWith [])).me.kcause = 0x8000000000000002#64 := by
  decide +kernel

/-- R281, R284: the instruction-cache hints, and a snap without a health area, move the pc alone. -/
theorem test_hints :
    let s := stewardWith [(9, 0x2000#64)]
    (after (.icinv 9) s).me.pc = 0x1004#64 ∧ (after (.icinvAll 0) s).me.pc = 0x1004#64 ∧ (after .snap s).me.pc = 0x1004#64 := by
  decide +kernel

/-- R199, R343: an alarm sets its bit and makes ALARM pending on the steward core of chiplet 0; its end clears it. -/
theorem test_alarm :
    let t := after (.thermalAlarm false) (stewardWith [])
    t.health.talarm = true ∧ (t.stew 0).pending = [(18, 0#64)] ∧ (after (.alarmLevelClear false) t).health.talarm = false ∧
      (after .criticalStop t).health.crit = true := by
  decide +kernel

/-- R385, R387: a first parity hit marks an element suspect, a second one puts it up for retirement. -/
theorem test_parity :
    let t := after (.parityHit 0 5) (stewardWith [])
    (t.region 0).suspect = [5] ∧ (t.region 0).retiring = [] ∧ ((after (.parityHit 0 5) t).region 0).retiring = [5] := by
  decide +kernel

/-- R194: training sets LK_HOP within 40 to 200. -/
theorem test_link_training :
    ((after (.linkTraining 3 60) State.reset).port 3).hop = 60#8 := by
  decide +kernel

/-- R142, R137: an island's tick in a unit advances its counter and counts busy. -/
theorem test_island_tick :
    let s := elementWith []
    let i : Island := { oneCell with unit := some 7, trips := 1, lop := 2 }
    let t := after (.islandTick 0 0) (s.setRegion 0 ((s.region 0).setIsland 0 (some i)))
    (((t.region 0).island 0).map fun x => (x.counter, x.trips, x.charges.busy)) = some (1, 1, 1) := by
  decide +kernel

/-- R190: a device reset keeps memory and starts no core. -/
theorem test_device_reset :
    let t := after .deviceReset ((stewardWith [(9, 5#64)]).write 0x20000000 [7#8])
    t.byte 0x20000000 = 7#8 ∧ t.boot = .rom ∧ t.task (.stew 0) = Task.zero := by
  decide +kernel

/-- R8: 24 chiplets on the perimeter; host port 0 at grid row 1, column 0 and host port 1 at row 2, column 9, whose
chiplets R338 numbers 4 × field + chiplet. -/
theorem test_port_places : perimeter.length = 24 ∧ hostChiplet 0 = 2 ∧ hostChiplet 1 = 37 := by
  decide +kernel

/-- R251: a copy of four bytes to one byte further: the first byte is fixed, and each of the other three
takes one free choice. -/
theorem test_copy_overlap :
    let s := regionWith [] [(0, 0xAA#8), (1, 0xBB#8), (2, 0xCC#8), (3, 0xDD#8)]
    let j := copyJob { rnd := 0, ovf := 0, salt := 0 } [window + 1, window, 4#64] (Job.start s 0 4)
    j.s.free = s.free + 3 ∧ (j.writes.getD 3 { va := 0, bytes := [], flags := 0 }).bytes = [0xAA#8] ∧ j.writes.length = 4 := by
  decide +kernel

/-- R254: a scatter that names element 0 twice takes one free choice; one that names two elements takes none. -/
theorem test_scatter_twice :
    let s := regionWith [] [(0, 0xAA#8), (1, 0xBB#8), (0x104, 1#8)]
    let go := fun idx : Nat => gatherJob true { rnd := 0, ovf := 0, salt := 0 }
      [window + 0x200, window, window + BitVec.ofNat 64 idx, 2#64] (Job.start s 0 4)
    (go 0x110).s.free = s.free + 1 ∧ (go 0x100).s.free = s.free ∧
      ((go 0x100).writes.map fun w => w.bytes) = [[0xBB#8], [0xAA#8]] := by
  decide +kernel

/-! ### States and operands that meet the hypotheses of the statements

A hypothesis that an access answers `x` and leaves the state u is met when its first part is `x`: u is then its second
part. -/

/-- The sum of the largest value and one, where sat clamps and wrapping changes the sign. -/
theorem witness_IntegerArithmeticResult :
    ∃ (s : State) (i : Instr) (r : Int), i = .add 11 9 10 0 1 1 ∧
      r = lowInt (bitsOf 1) false (s.reg 9) + lowInt (bitsOf 1) false (s.reg 10) ∧ r = 2 ^ 31 :=
  ⟨stewardWith [(9, 0x7FFFFFFF#64), (10, 1#64)], _, _, rfl, rfl, by decide +kernel⟩

/-- The most negative value over -1, and a division by zero. -/
theorem witness_DivisionAndHighProductResult :
    ∃ s : State, lowInt (bitsOf 1) false (s.reg 9) = - 2 ^ 31 ∧ lowInt (bitsOf 1) false (s.reg 10) = -1 ∧
      lowInt (bitsOf 1) false (s.reg 12) = 0 :=
  ⟨stewardWith [(9, 0x80000000#64), (10, 0xFFFFFFFF#64)], by decide +kernel⟩

/-- A shift by one less than the width, and a comparison that differs by sign. -/
theorem witness_LogicShiftAndCompareResult :
    ∃ (s : State) (i j : Instr) (r q : Int), i = .sll 11 9 10 0 1 ∧
      r = lowInt 32 false (s.reg 9) * 2 ^ ((s.reg 10).toNat % 32) ∧ r = 2 ^ 31 ∧ j = .slt 11 12 9 1 ∧
      q = (if lowInt 32 false (s.reg 12) < lowInt 32 false (s.reg 9) then 1 else 0) ∧ q = 1 :=
  ⟨stewardWith [(9, 1#64), (10, 31#64), (12, 0x80000000#64)], _, _, _, _, rfl, rfl, by decide +kernel, rfl, rfl, by decide +kernel⟩

/-- The most negative immediate of addi. -/
theorem witness_ImmediateResult :
    ∃ (s : State) (i : Instr) (v : Word), i = .addi 11 9 0x4000 ∧
      v = BitVec.ofInt 64 ((s.reg 9).toInt + (0x4000#15).toInt) ∧ v = 0xFFFFFFFFFFFFC001#64 :=
  ⟨stewardWith [(9, 1#64)], _, _, rfl, rfl, by decide +kernel⟩

/-- A shift whose bits 14:6 are not zero, and the word of `srai w3, w2, 7`. -/
theorem witness_ImmediateResult_word :
    (64#15).toNat / 64 ≠ 0 ∧ decodeTableWord 32 (2 ^ 25 * 0x15 + 64) = none ∧ encode (.srai 11 10 7) = 0x2CB50007 := by
  decide +kernel

/-- A taken branch backwards, and one not taken on zero. -/
theorem witness_BranchOutcome :
    ∃ (s : State) (i j : Instr) (p q : Word), i = .bltz 9 0xFFFFF ∧
      p = (if (s.reg 9).toInt < 0 then BitVec.ofInt 64 (s.me.pc.toInt + 4 * (0xFFFFF#20).toInt) else s.me.pc + 4) ∧
      p = 0xFFC#64 ∧ j = .bgtz 10 5 ∧
      q = (if 0 < (s.reg 10).toInt then BitVec.ofInt 64 (s.me.pc.toInt + 4 * (5#20).toInt) else s.me.pc + 4) ∧ q = 0x1004#64 :=
  ⟨stewardWith [(9, 0xFFFFFFFFFFFFFFFF#64)], _, _, _, _, rfl, rfl, by decide +kernel, rfl, rfl, by decide +kernel⟩

/-- A call of the largest frame that spills, one that does not, and a return that fills nothing. -/
theorem witness_CallAndReturnSlideWindow :
    let s := stewardWith []
    let t := after (.call 24 1) s
    let link := t.reg 31
    (spill (t.me.base + (24#5).toNat) 64 t).1 = .ok () ∧ 56 < t.me.base + 24 + 24 - t.me.low ∧
      (spill (s.me.base + (24#5).toNat) 64 s).1 = .ok () ∧ s.me.base + 24 + 24 - s.me.low ≤ 56 ∧
      24 = link.toNat / 2 ^ 57 % 32 ∧ link.toNat / 2 ^ 62 = 0 ∧ t.me.base0 + 24 ≤ t.me.base ∧
      (fill (t.me.base - 24) 64 t).1 = .ok () ∧ t.me.low ≤ t.me.base - 24 := by
  decide +kernel

/-- The last eight bytes of a page. -/
theorem witness_PhysicalAccess :
    ∃ s : State, s.cur = .stew 0 ∧ s.me.level = .h ∧ plainAt s 0x20000FF8 8 :=
  ⟨stewardWith [], by decide +kernel, by decide +kernel, by decide, by decide, .inl ⟨0, by decide +kernel⟩,
    fun _ _ => rfl, fun _ => rfl, fun _ => rfl⟩

/-- Eight bytes at the end of the first element's memory. -/
theorem witness_WindowAccess :
    ∃ s : State, s.cur = .seq 0 0 ∧ isRsm 0xFFFFFFFFF805FFF8 = true ∧ windowAt s 0 0xFFFFFFFFF805FFF8 8 :=
  ⟨regionWith [] [], by decide +kernel, by decide +kernel, by decide +kernel, fun _ => rfl, fun _ => rfl⟩

/-- A read of the window by a sequencer, aligned to its width. -/
theorem witness_AcquireResult :
    let s := regionWith [(9, window + 8)] []
    (s.reg 9).toNat % 2 ^ (3#2).toNat = 0 ∧ (coreRead s (s.reg 9).toNat 8 .read).1 = .ok (List.replicate 8 0#8) := by
  decide +kernel

/-- A releasing amoadd of a sequencer in the window, a relaxed cas that fails, and a releasing swap of a steward core. -/
theorem witness_AtomicResult :
    let s := regionWith [(9, window)] []
    let t := stewardWith [(9, 0x20000008#64)]
    s.me.hold = .ready ∧ (s.reg 9).toNat % 8 = 0 ∧ (2#2).getLsbD 1 = true ∧ (0#2).getLsbD 1 = false ∧
      fenceOver s s.cur (min (scopeAt s 2 (s.reg 9).toNat .atomic) (s.part (s.partOf s.cur)).cap.toNat) = true ∧
      s.cur = .seq 0 0 ∧ isRsm (s.reg 9).toNat = true ∧
      (coreAtomic s (s.reg 9).toNat 8 fun x => some ((x + 5) % 2 ^ 64)).1 = .ok 0 ∧
      (coreAtomic s (s.reg 9).toNat 8 fun x => if x = 6 then some 5 else none).1 = .ok 0 ∧
      t.me.hold = .ready ∧ (t.reg 9).toNat % 8 = 0 ∧ t.cur = .stew 0 ∧
      (match pieces t (coreCtx t t.cur) (t.reg 9).toNat 8 .atomic true with
        | (.ok _, v) => fenceOver v t.cur (min (scopeAt t 6 (t.reg 9).toNat .atomic) (t.part (t.partOf t.cur)).cap.toNat) &&
            decide ((coreAtomic v (t.reg 9).toNat 8 fun _ => some 7).1 = .ok 0)
        | _ => false) = true := by
  decide +kernel

/-- A fence below the core's own level, one with every store performed, one with a store on its way. -/
theorem witness_FenceWord :
    (∃ s : State, min 1 (s.part (s.partOf s.cur)).cap.toNat < coreLevel s.cur) ∧
      (∃ s : State, coreLevel s.cur ≤ min 7 (s.part (s.partOf s.cur)).cap.toNat ∧
        ∀ p ∈ s.stores, p.issuer = .core s.cur → 7 ≤ p.reached) ∧
      ∃ s : State, coreLevel s.cur ≤ min 3 (s.part (s.partOf s.cur)).cap.toNat ∧
        ∃ p ∈ s.stores, p.issuer = .core s.cur ∧ p.reached < 3 :=
  ⟨⟨slotWith [], by decide +kernel⟩, ⟨stewardWith [], by decide +kernel⟩,
    ⟨after (.stI32 9 10 0 0) (stewardWith [(10, 0x20000000#64)]), by decide +kernel, by decide +kernel⟩⟩

/-- A fence whose store has performed, and one whose limit of one tick has just passed. -/
theorem witness_FenceWaitEnds :
    let b := stewardWith [(10, 0x20000000#64)]
    let s := after (.fence 11 5) (after (.stI32 9 10 0 0) (b.setPart 0 { b.part 0 with fenceto := 1 }))
    let u : State := { s with stores := s.stores.map fun p => { p with reached := 5 } }
    let v : State := { s with tick := 1 }
    coreLevel (.stew 0) ≤ 5 ∧ (u.task (.stew 0)).hold = .fence (.fence 11 5) 5 false 1 0 ∧
      (∀ p ∈ u.stores, p.issuer = .core (.stew 0) → 5 ≤ p.reached) ∧
      (v.task (.stew 0)).hold = .fence (.fence 11 5) 5 false 1 0 ∧ 1 ≤ v.tick - 0 ∧
      ∃ p ∈ v.stores, p.issuer = .core (.stew 0) ∧ p.reached < 5 := by
  decide +kernel

/-- A release of an aligned word with no earlier store, at a scope below and at the core's level; one in the window. -/
theorem witness_ReleaseStoreResult :
    (∃ s : State, s.cur = .stew 0 ∧ s.me.level = .h ∧ (s.reg 9).toNat % 2 ^ (3#2).toNat = 0 ∧
      plainAt s (s.reg 9).toNat 8 ∧ s.stores = [] ∧ min 2 (s.part (s.partOf s.cur)).cap.toNat < 3 ∧
      3 ≤ min 3 (s.part (s.partOf s.cur)).cap.toNat) ∧
    ∃ s : State, s.cur = .seq 0 0 ∧ isRsm (s.reg 9).toNat = true ∧ (s.reg 9).toNat % 2 ^ (3#2).toNat = 0 ∧
      windowAt s 0 (s.reg 9).toNat 8 ∧ s.stores = [] :=
  ⟨⟨stewardWith [(9, 0x20000FF8#64)], by decide +kernel, by decide +kernel, by decide +kernel,
    ⟨by decide +kernel, by decide +kernel, .inl ⟨0, by decide +kernel⟩, fun _ _ => rfl, fun _ => rfl, fun _ => rfl⟩,
    by decide +kernel, by decide +kernel, by decide +kernel⟩,
    ⟨regionWith [(9, window + 8)] [], by decide +kernel, by decide +kernel, by decide +kernel,
      ⟨by decide +kernel, fun _ => rfl, fun _ => rfl⟩, by decide +kernel⟩⟩

/-- A release with an earlier store on its way, the wait that it enters, that wait once the store has performed and once
its limit has passed. -/
theorem witness_ReleaseStoreResult_waits :
    let b := stewardWith [(9, 0x20000FF8#64), (10, 0x20000000#64)]
    let s := after (.stI32 9 10 0 0) (b.setPart 0 { b.part 0 with fenceto := 1 })
    let i := Instr.strel 11 9 10 3 7
    let t := after i s
    let u : State := { t with stores := t.stores.map fun p => { p with reached := 7 } }
    let v : State := { t with tick := 1 }
    (s.reg 9).toNat % 8 = 0 ∧ (match pieces s (coreCtx s s.cur) (s.reg 9).toNat 8 .write true with
      | (.ok _, z) => decide (z.cur = s.cur)
      | _ => false) = true ∧ (∃ p ∈ s.stores, p.issuer = .core s.cur ∧ p.reached < 7) ∧ coreLevel s.cur ≤ 7 ∧
      (t.task (.stew 0)).hold = .fence i 7 false 1 0 ∧ (∀ p ∈ u.stores, p.issuer = .core (.stew 0) → 7 ≤ p.reached) ∧
      (match (coreWrite { u with cur := .stew 0 } (u.reg 9).toNat (natToLe (u.reg 10).toNat 8) 7).1 with
        | .ok _ => true
        | _ => false) = true ∧ 1 ≤ v.tick - 0 ∧ (∃ p ∈ v.stores, p.issuer = .core (.stew 0) ∧ p.reached < 7) ∧
      (v.task (.stew 0)).hold = .fence i 7 false 1 0 ∧
      ((after (.fenceTimeout (.stew 0)) v).task (.stew 0)).get 11 = 0x20110#64 := by
  decide +kernel

/-- A load at the lowest offset and a store at the highest that is accepted. -/
theorem witness_LoadAndStoreResult :
    let s := stewardWith [(9, 0x20000800#64)]
    (coreRead s (BitVec.ofInt 64 ((s.reg 9).toInt + (0x800#12).toInt)).toNat 8 .read).1 = .ok (List.replicate 8 0#8) ∧
      (coreWrite s (BitVec.ofInt 64 ((s.reg 9).toInt + (0x7FF#12).toInt)).toNat (natToLe (s.reg 10).toNat 1)).1 = .ok () := by
  decide +kernel

/-- The agent register at level U (read only), and a partition register at level H. -/
theorem witness_ControlRegisterRead :
    ((csrSpec 0x000).any fun x => csrHere (slotWith []) x && decide (x.rd.num ≤ (slotWith []).me.level.num) &&
        decide (x.wr = none)) = true ∧
      ((csrSpec 0x101).any fun x => csrHere (stewardWith []) x && decide (x.rd.num ≤ (stewardWith []).me.level.num)) = true := by
  decide +kernel

/-- A flag word with RW bits, a record with W1C bits and a status register with RO bits, all written at level U. -/
theorem witness_ControlRegisterWrite :
    ∀ r ∈ [0x020, 0x022, 0x026], ((csrSpec r).any fun x => csrHere (slotWith []) x &&
      decide (x.rd.num ≤ (slotWith []).me.level.num) && x.wr.any fun l => decide (l.num ≤ (slotWith []).me.level.num)) = true ∧
      csrFields r ≠ none := by
  decide +kernel

/-- An element in an island and one in none; a window flush; a booting partition; no alarm. -/
theorem witness_RegisterWriteEvents :
    let s := stewardWith []
    ((elementWith []).region 0).islandOf (0#8).toNat = some (0, oneCell) ∧
      ((elementWith []).region 0).islandOf (1#8).toNat = none ∧ (flushWindow 64 { s with cur := .stew 0 }).1 = .ok () ∧
      (s.stew 0).task.low ≤ (s.stew 0).task.base ∧ (s.stew 0).task.base ≤ (s.stew 0).task.low + 56 ∧
      partState (s.setPart 3 { Partition.zero with state := 1 }) 3 = 1 ∧ s.health.talarm = false ∧ s.health.ialarm = false := by
  decide +kernel

/-- A task at U and one at K without a live record; a register of another core, one above the level; a misaligned
acquire, release, atomic; links with a bad top, a frame above 24, a frame above the base; invalid descriptors. -/
theorem witness_TrapEntryToK :
    let s := slotWith [(9, 0x1003#64), (31, 0x2800000000001004#64)]
    let t := s.setMe { s.me with level := .k }
    let v := slotWith [(10, 0xFF00#64), (13, 0x7F800000#64)]
    Legal.descValid (keyDesc (v.me.listFrom 9 1)) = false ∧ Legal.descValid (topkDesc (v.me.listFrom 9 4)) = false ∧
      s.me.level = .u ∧ t.me.level = .k ∧ t.me.kcause.getLsbD 63 = false ∧ (0x1002#64).toNat % 4 ≠ 0 ∧
      (csrSpec 0x3FF = none) ∧ ((csrSpec 0x021).all fun x => !csrHere s x) = true ∧
      ((csrSpec 0x100).any fun x => csrHere s x && decide (s.me.level.num < x.rd.num)) = true ∧
      ((csrSpec 0x101).any fun x => csrHere t x && x.wr.any fun l => decide (t.me.level.num < l.num)) = true ∧
      (s.reg 9).toNat % 2 ^ (1#2).toNat ≠ 0 ∧ (s.reg 9).toNat % 4 ≠ 0 ∧ (s.reg 31).toNat / 2 ^ 62 = 0 ∧
      s.me.base < s.me.base0 + (s.reg 31).toNat / 2 ^ 57 % 32 ∧ (0x4000000000001004#64).toNat / 2 ^ 62 ≠ 0 ∧
      (0x3200000000001004#64).toNat / 2 ^ 57 % 32 > 24 ∧ s.cur = .seq 0 0 := by
  decide +kernel

/-- A sequencer at U with an address that no atomic takes, a steward core at U and one at K. -/
theorem witness_TrapEntryToK_levels :
    let s := slotWith [(9, 0x1003#64)]
    let t := stewardWith []
    let u := t.setMe { t.me with level := .u }
    let v := t.setMe { t.me with level := .k }
    s.cur = .seq 0 0 ∧ s.me.level = .u ∧ (s.reg 9).toNat % 4 ≠ 0 ∧ (s.reg 9).toNat % 8 ≠ 0 ∧ u.cur = .stew 0 ∧ u.me.level = .u ∧
      v.cur = .stew 0 ∧ v.me.level = .k ∧ v.me.kcause.getLsbD 63 = false := by
  decide +kernel

/-- A steward core at H without a live record and one at K; two pending causes of different codes. -/
theorem witness_TrapEntryToH :
    let s := stewardWith []
    let t := s.setMe { s.me with level := .k }
    let u := s.setStew 0 { s.stew 0 with pending := [(18, 0#64), (17, 5#64)] }
    s.cur = .stew 0 ∧ s.me.level = .h ∧ (s.stew 0).hcause.getLsbD 63 = false ∧ t.me.level = .k ∧
      (17, 5#64) ∈ (u.stew 0).pending ∧ (∀ x ∈ (u.stew 0).pending, 17 < x.1 ∨ x = (17, 5#64)) ∧
      (u.stew 0).task.hold = .ready := by
  decide +kernel

/-- A slot after a trap from U, and a steward core after a hypervisor call at H. -/
theorem witness_TrapReturnAndDoubleTrap_return :
    let s := after (.trap 1) (slotWith [])
    let t := after (.hcall 1) (stewardWith [])
    s.me.level = .k ∧ s.me.kcause.getLsbD 63 = true ∧ s.me.kcause.toNat / 2 ^ 61 % 4 ≤ 1 ∧ t.cur = .stew 0 ∧
      t.me.level = .h ∧ (t.stew 0).hcause.getLsbD 63 = true ∧ (t.stew 0).hcause.toNat / 2 ^ 61 % 4 = 2 := by
  decide +kernel

/-- The same two states, the first on a steward core and on a sequencer without an endpoint. -/
theorem witness_TrapReturnAndDoubleTrap :
    let b := stewardWith []
    let s := after (.trap 1) (b.setMe { b.me with level := .u })
    let t := after (.trap 1) (slotWith [])
    let u := after (.hcall 1) b
    s.health.hbase = 0 ∧ s.cur = .stew 0 ∧ s.me.level = .k ∧ s.me.kcause.getLsbD 63 = true ∧ t.health.hbase = 0 ∧
      t.cur = .seq 0 0 ∧ t.me.level = .k ∧ t.me.kcause.getLsbD 63 = true ∧ (t.region 0).evep = 0 ∧ u.health.hbase = 0 ∧
      u.me.level = .h ∧ (u.stew 0).hcause.getLsbD 63 = true ∧ u.parts = [] := by
  decide +kernel

/-- A health area at 0x2000_0000 with source 1 enabled, armed and not. -/
theorem witness_MaintenanceResult :
    let b := stewardWith []
    let h : Health := { b.health with hbase := 0x2000 }
    let s : State := { b.write 0x20000100 [3#8] with health := h }
    let t : State := { b.write 0x20000100 [2#8] with health := h }
    1 ≤ s.me.level.num ∧ s.health.hbase ≠ 0 ∧ nbit (controlWord s (s.health.hbase.toNat * 2 ^ 16)) 1 = true ∧
      nbit (controlWord s (s.health.hbase.toNat * 2 ^ 16)) 0 = true ∧ s.snapAt = none ∧
      nbit (controlWord t (t.health.hbase.toNat * 2 ^ 16)) 1 = true ∧
      nbit (controlWord t (t.health.hbase.toNat * 2 ^ 16)) 0 = false ∧ b.health.hbase = 0 := by
  decide +kernel

/-- A frame found free, one Mapped, one under scrub, with and without a store to it, operands that name none, and a row
that waits for its remap. -/
theorem witness_FrameResult :
    let s := (stewardWith [(9, 0x30000000#64), (10, 63#64), (11, 0x30000001#64), (12, 64#64)]).write 0x30000 [0#8]
    let t := after (.framemap 13 9 10) s
    let u := after (.framefree 13 9 10) t
    let v := after (.stI8 10 9 0 0) u
    let w := { s with rowWork := [0x20000000] }
    s.cur = .stew 0 ∧ s.me.level = .h ∧ (s.reg 9).toNat % 4096 = 0 ∧ (s.reg 9).toNat < 2 ^ 48 ∧
      frameByteAddr s 0x30000000 = some 0x30000 ∧ (s.byte 0x30000).toNat / 64 = 0 ∧ (s.reg 10).toNat = 63 ∧
      (s.reg 11).toNat % 4096 ≠ 0 ∧ (s.reg 12).toNat > 63 ∧ (t.byte 0x30000).toNat / 64 = 1 ∧
      0x30000000 ∈ u.scrubs ∧ (u.byte 0x30000).toNat / 64 = 2 ∧ s.place 0x30000000 = .dram 0 ∧
      s.poison = [] ∧ s.bad = [] ∧ (∀ p ∈ u.stores, ∀ c ∈ p.cells, c.1 / 4096 ≠ 0x30000) ∧
      (∃ p ∈ v.stores, ∃ c ∈ p.cells, c.1 / 4096 = 0x30000) ∧ 0x20000000 ∈ w.rowWork ∧ w.health.hbase = 0 ∧ w.health.onTick = [] ∧
      { w.health with hbase := 0x2000 }.hbase ≠ 0 := by
  decide +kernel

/-- A copy with an empty queue, one with a full queue, one whose counter is at its limit, and an unbound batch. -/
theorem witness_EngineIssue :
    let s := regionWith [(9, window), (10, window), (11, 2#64)] []
    let c : Command := { instr := .copy 12 9 2 0 0 5, list := [], owner := .slot 0, tag := 5, counter := 0, desc := [], rest := none }
    let t := s.setRegion 0 { s.region 0 with copyq := List.replicate 16 c }
    let u := (s.setMe { s.me with counter := 1 }).write 0x20000008 (natToLe 0xFFFFFFFF 8)
    let l := (List.range 3).map fun j => s.reg (BitVec.ofNat 5 (9 + j))
    s.cur = .seq 0 0 ∧ descsOk (optReg l 5) = true ∧ copyN0 l ≠ 0 ∧ ((s.region 0).queueOf .copy).length < 16 ∧
      mapGet 0 s.me.counts 5 < 15 ∧ s.me.counter = 0 ∧ ((t.region 0).queueOf .copy).length ≥ 16 ∧
      u.word (ctrAddr u (u.region 0).part u.me.counter) % 2 ^ 32 = 0xFFFFFFFF ∧ u.me.counter ≠ 0 ∧
      (coreRead s (s.reg 9).toNat 64 .read).1 = .ok (List.replicate 64 0#8) ∧ indexedBad [window, window, window, 2#64] = false ∧
      Legal.descValid (topkDesc [0, 0, 0, 0, 0x00820001#64]) = true ∧ topkOk [0, 0, 0, 0, 0x00820001#64] = true ∧
      Legal.descValid (keyDesc [0, 0x0104#64]) = true := by
  decide +kernel

/-- A queued copy between places of the window whose work has no fault, and one from an address that faults. -/
theorem witness_EngineCompletion :
    let s := after (.copy 12 9 2 0 0 5) (regionWith [(9, window), (10, window + 64), (11, 2#64)] [])
    let t := after (.copy 12 9 2 0 0 5) (regionWith [(9, window), (10, 0x40#64), (11, 2#64)] [])
    let ok := fun (x : State) (bad : Bool) => match ((x.region 0).queueOf .copy)[0]? with
      | some c => match commandWork x 0 c with
        | some (w, none) => !w.held && !c.parted && decide (w.fault.isSome = bad) && decide ((w.s.region 0).part = (x.region 0).part)
        | _ => false
      | none => false
    (s.region 0).saved = none ∧ ok s false = true ∧ ok t true = true := by
  decide +kernel

/-- A byte page of one byte in the window: both sides unsigned bytes, the read and the write succeed. -/
theorem witness_EngineResultBytes :
    let s := regionWith [] [(0x40, 0xAB#8)]
    let j := Job.start s 0 4
    let x := j.sides (window + 0x40).toNat window.toNat none
    let r := Job.read { j with s := x.2.2.s } (window + 0x40).toNat 1
    let bytes := fun (t : State) (b : Nat) (k : Access) => match Job.peekSide { j with s := t } b k with
      | none => true
      | some y => decide (y = .fmt (.int 8 true))
    x.1 = .fmt (.int 8 true) ∧ x.2.1 = .fmt (.int 8 true) ∧ { j with s := x.2.2.s } = x.2.2 ∧ r.1 = [0xAB#8] ∧
      { j with s := r.2.s } = r.2 ∧ (match (engineStore j.x 0 r.2.s window.toNat r.1).1 with
        | .ok _ => true
        | _ => false) = true ∧
      (bytes x.2.2.s (window + 0x40).toNat .read && bytes x.2.2.s window.toNat .write &&
        bytes r.2.s (window + 0x40).toNat .read && bytes r.2.s window.toNat .write) = true := by
  decide +kernel

/-- Little-endian words at offsets of an element's memory. -/
def wordsAt (l : List (Nat × Nat)) : Map Byte :=
  (l.flatMap fun p => ((natToLe p.2 4).zip (upTo 4)).map fun q => (p.1 + q.2, q.1)).foldl (fun m x => mapSet 0#8 m x.1 x.2) []

/-- Four bytes and their indices, counts, and two rows of indices with values. -/
def arrayState : State := regionWith [] (wordsAt [(0, 0xA4A3A2A1), (0x40, 2), (0x44, 0), (0x48, 3), (0x100, 1), (0x104, 3),
  (0x110, 10), (0x114, 5), (0x120, 3), (0x124, 4), (0x130, 0xFFFFFFFB), (0x134, 7)])

/-- An address of the window. -/
def inWindow (n : Nat) : Nat := window.toNat + n

/-- A queued command without an owner. -/
def plainCommand (i : Instr) (l : List Nat) (desc : List Byte) : Command :=
  { instr := i, list := l.map fun x => BitVec.ofNat 64 x, owner := .none, tag := 0, counter := 0, desc := desc, rest := none }

/-- The number that a command leaves at an address of the window, if it ends without a fault or a flag. -/
def leftAt (c : Command) (a n : Nat) : Option Nat :=
  match commandWork arrayState 0 c with
  | some (w, none) =>
    if w.fault = none ∧ w.held = false ∧ w.oor = [] ∧ w.flags = 0 then some (w.s.sharedNum 0 (inWindow a) n) else none
  | _ => none

/-- Region 0 reaches n bytes of the window, and no unit of the machine holds an error. -/
def reaches (s : State) (a n : Nat) : Bool :=
  decide (2 ^ 64 - 2 ^ 27 ≤ a ∧ a + n ≤ 2 ^ 64 ∧ s.poison = [] ∧ s.bad = []) && (upTo n).all fun k =>
    elmReach (s.region 0) (rsmElem ((a + k) % 2 ^ 27)) (rsmOff ((a + k) % 2 ^ 27)) &&
      bankMine (s.region 0) (rsmElem ((a + k) % 2 ^ 27)) (rsmOff ((a + k) % 2 ^ 27) / 0xC00)

/-- R254: a gather and a scatter of three bytes by the indices 2, 0 and 3; R258: sums that wrap. -/
theorem test_indexed_bytes :
    leftAt (plainCommand (.gather 1 1 3 0 0 0) [inWindow 0x80, inWindow 0, inWindow 0x40, 3] []) 0x80 4 = some 0xA4A1A3 ∧
      leftAt (plainCommand (.scatter 1 1 3 0 0 0) [inWindow 0x80, inWindow 0, inWindow 0x40, 3] []) 0x80 4 =
        some 0xA3A100A2 ∧
      leftAt (plainCommand (.mscan 1 1 0) [inWindow 0x40, inWindow 0xC0, 3, 0xFFFFFFFF] []) 0xC0 16 =
        some 0x000000040000000100000001FFFFFFFF := by
  decide +kernel

/-- R257: rows (1: 10, 3: 5) and (3: −5, 4: 7): the sum at 3 is zero and dropped, or kept by `keepz`. -/
theorem test_merge_bytes :
    let l := [inWindow 0x100, inWindow 0x110, inWindow 0x120, inWindow 0x130, 0x200000002, inWindow 0x140, inWindow 0x160,
      inWindow 0x180]
    leftAt (plainCommand (.merge 1 1 2 0 0 0) l []) 0x140 8 = some 0x400000001 ∧
      leftAt (plainCommand (.merge 1 1 2 0 0 0) l []) 0x160 8 = some 0x70000000A ∧
      leftAt (plainCommand (.merge 1 1 2 0 1 0) l []) 0x180 4 = some 3 := by
  decide +kernel

/-- Arrays in the window that do not overlap, with rising indices; and a batch of two queries over an empty sequence. -/
theorem witness_EngineResultBytes_window :
    let s := arrayState
    let n := fun a => s.sharedNum 0 (inWindow a) 4
    let d := inWindow 0x400 % 2 ^ 57 + inWindow 0x600 % 2 ^ 57 * 2 ^ 64 + inWindow 0x700 % 2 ^ 57 * 2 ^ 128 +
      inWindow 0x800 % 2 ^ 57 * 2 ^ 192 + 2 * 2 ^ 321 + 4 * 2 ^ 337 + 0x42 * 2 ^ 345 + 0x42 * 2 ^ 353 + 2 ^ 376 +
      inWindow 0x500 % 2 ^ 57 * 2 ^ 384
    let b := Batch.of (leToNat (natToLe d 64))
    reaches s (inWindow 0) 0x200 = true ∧ (n 0x40, n 0x44, n 0x48) = (2, 0, 3) ∧ n 0x100 < n 0x104 ∧ n 0x120 < n 0x124 ∧
      (b.qva, b.sva, b.ova, va64 b.xva, b.qmva) =
        (inWindow 0x400, inWindow 0x600, inWindow 0x700, inWindow 0x800, inWindow 0x500) ∧
      (b.nq, b.dim, b.bindh, fmtWidth (fmtOfDesc b.ofmt), fmtWidth (fmtOfDesc b.qfmt)) = (2, 4, 1, 32, 32) ∧
      reaches s (inWindow 0x400) 0x500 = true ∧ s.sharedNum 0 (inWindow 0x500) 64 = 0 ∧
      s.sharedNum 0 (inWindow 0x600) 32 = 0 := by
  decide +kernel

/-- A query whose sequence passes the checks: 64 tokens in one sealed tessera. -/
theorem witness_EngineResultBytes_query :
    let bytes := fun (a : Nat) (v n : Nat) => (upTo n).zip (natToLe v n) |>.map fun p => (a + p.1, p.2)
    let m : Map Byte := (bytes 0x600 (2 ^ 32 + 64 * 2 ^ 64 + inWindow 0x900 % 2 ^ 57 * 2 ^ 199) 32 ++
      bytes 0xA00 (64 * 2 ^ 64 + 2 ^ 88) 64).foldl (fun m x => mapSet 0#8 m x.1 x.2) []
    let j := Job.start (regionWith [] m) 0 6
    let b := Batch.of (inWindow 0x400 % 2 ^ 57 + inWindow 0x600 % 2 ^ 57 * 2 ^ 64 + inWindow 0xA00 % 2 ^ 57 * 2 ^ 256 +
      2 ^ 321 + 4 * 2 ^ 337 + 0x42 * 2 ^ 345 + inWindow 0x500 % 2 ^ 57 * 2 ^ 384)
    let q := (j.queryOf b 0).1
    let y := (j.queryOf b 0).2.walk (b.sva + 32 * q.seq) b.ttab
    y.2.1.isSome = true ∧ y.1.len = 64 := by
  decide +kernel

/-- A mask with set tags, one without, and a task that waits at a waitt. -/
theorem witness_TagWaitResult :
    let s := regionWith [(9, 6#64)] []
    let t := s.setMe { s.me with tags := 2#64 }
    let u := after (.waitt 11 9 1) t
    s.cur = .seq 0 0 ∧ s.me.tags &&& s.me.get 9 = s.me.get 9 ∧ t.me.tags &&& t.me.get 9 ≠ t.me.get 9 ∧
      (u.task (.seq 0 0)).hold = .wait (.waitt 11 9 1) := by
  decide +kernel

/-- A rising table, one that breaks the order at the last code, and a lookup of a table of zeros that misses. -/
theorem witness_CodebookAndLookupResult :
    let level := fun c : Nat => [(2 * c, BitVec.ofNat 8 (if c < 8 then c else c + 240)), (2 * c + 1, if c < 8 then 0#8 else 0xFF#8)]
    let table := fun l : List Nat => (l.flatMap level).foldl (fun m x => mapSet 0#8 m x.1 x.2) []
    let good := regionWith [(9, window)] (table (List.range 16))
    let bad := regionWith [(9, window)] (table [1, 2, 3, 4, 5, 6, 9, 10, 11, 12, 13, 14, 15])
    let value := fun (s : State) (c : Int) => match (coreRead s (s.reg 9).toNat 32 .read).1 with
      | .ok bs => Int.bmod (leToNat ((bs.drop (2 * (c % 16).toNat)).take 2) : Int) (2 ^ 16)
      | _ => 0
    (∀ c ∈ (List.range 14).map fun n => (n : Int) - 7, value good c < value good (c + 1)) ∧
      (∀ c ∈ (List.range 13).map fun n => (n : Int) - 7, value bad c < value bad (c + 1)) ∧ value bad 7 ≤ value bad 6 := by
  decide +kernel

/-- A lookup in a window table of one entry: its identifiers read, and it answers. -/
theorem witness_CodebookAndLookupResult_lookup :
    let s := regionWith [(9, window), (10, 1#64), (13, window)] []
    let n := fun j : Nat => (s.reg (BitVec.ofNat 5 (9 + j))).toNat
    let q : Lookup := { base := n 0, size := n 1 % 32, hash := leToNat (shake256 (natToLe (n 2) 8 ++ List.replicate 256 0#8) 1)
                        prev := n 3 % 2 ^ 24, ids := 0, ttab := n 5 }
    n 1 % 32 ≠ 0 ∧ n 1 % 32 ≤ 24 ∧ (coreRead s (n 4) 256 .read).1 = .ok (List.replicate 256 0#8) ∧
      (match lookupGo q 8 0 0 none s with
        | (.hit _, _, none, v) => decide (v.cur = .seq 0 0)
        | (.miss _, _, none, v) => decide (v.cur = .seq 0 0)
        | _ => false) = true := by
  decide +kernel

/-- A counter table with an open job, free handles, a running one and one that is no counter. -/
theorem witness_CounterOpenResult :
    let s := (after (.gopen 11 9 2) (after (.jopen 11 1) (regionWith [(9, 1#64)] []))).write 0x20000018 (natToLe (5 * 2 ^ 61) 8)
    let w := fun h : Nat => s.word (ctrAddr s 0 h)
    w 3 / 2 ^ 61 % 8 ≥ 5 ∧ w 4 % 2 ^ 32 = 0 ∧ w 4 / 2 ^ 61 % 8 < 5 ∧ w 1 / 2 ^ 61 % 8 = 4 ∧ w 1 / 2 ^ 59 % 2 = 1 ∧
      w 1 % 2 ^ 32 < 0xFFFFFFFF ∧ w 2 % 2 ^ 32 = 1 ∧ w 2 / 2 ^ 61 % 8 = 2 ∧ w 2 / 2 ^ 59 % 2 = 1 ∧ w 2 / 2 ^ 44 % 2 ^ 12 = 1 ∧
      w 1 % 2 ^ 32 ≥ 2 ∧ s.partOf s.cur = 0 := by
  decide +kernel

/-- A task whose fetch finds no translation, one at K, and a steward core at H whose fetch has no live route. -/
theorem witness_ExceptionEntryCompletes :
    let s := slotWith []
    let t := { stewardWith [] with deadPkgs := [1] }
    (0x1002#64).toNat % 4 ≠ 0 ∧ s.me.level = .u ∧ (match fetchWord s 0x1000 with
      | (.xlate _ _, u) => decide (u.me.level = .u)
      | _ => false) = true ∧ t.cur = .stew 0 ∧ (match fetchWord t 0x1020000000000 with
      | (.unreach _ _, u) => decide (u.cur = .stew 0 ∧ u.me.level = .h ∧ (u.stew 0).hcause.getLsbD 63 = false)
      | _ => false) = true ∧ t.me.level = .h ∧ (t.stew 0).hcause.getLsbD 63 = false := by
  decide +kernel

/-- An eviction in the window that has not begun, and a sequence of one tessera there. -/
def evictCommand : Command :=
  { instr := .tevict 12 9 5, list := [window, window + 0x200, 0#64, 0#64], owner := .slot 0, tag := 5, counter := 0
    desc := [], rest := none }

def evictState : State :=
  let entry := natToLe ((window + 0x100).toNat % 2 ^ 57 * 2 ^ 199 + 2 ^ 32) 32
  let s := regionWith [] ((entry.zipIdx.filter fun x => decide (x.1 ≠ 0)).map fun x => (x.2, x.1))
  s.setRegion 0 { s.region 0 with pipeq := [evictCommand] }

/-- Its first part, whatever the free choice, has no fault and waits for no bank. -/
theorem witness_EngineCompletion_parted :
    ((evictState.region 0).queueOf .attention)[0]? = some evictCommand ∧ (evictState.region 0).saved = none ∧
      evictCommand.parted = true ∧ isBatch evictCommand.instr = false ∧
      (evictFirst evictState 0 evictCommand).1.held = false ∧ (evictFirst evictState 0 evictCommand).1.fault = none := by
  have first (s : State) (r : Nat) (c : Command) : (evictFirst s r c).1 =
      let j := evictJob c (Job.start s r 6)
      Job.emit { j with
        s := j.s.takeFree.2
        writes := (takeBeats (j.s.takeFree.1 % (j.writes.length + 1)) j.writes.reverse).1.reverse } := rfl
  refine ⟨by decide +kernel, by decide +kernel, by decide +kernel, by decide +kernel, ?_⟩
  have len : (evictJob evictCommand (Job.start evictState 0 6)).writes.length = 1 := by decide +kernel
  rw [first]
  simp only [len]
  have two : (evictJob evictCommand (Job.start evictState 0 6)).s.takeFree.1 % 2 = 0 ∨
      (evictJob evictCommand (Job.start evictState 0 6)).s.takeFree.1 % 2 = 1 := by omega
  rcases two with h | h <;> rw [h] <;> decide +kernel

/-- The image of a stage set of five entries (R253): one element each, rings of one slot, no inputs, ops all vnop; its
kind byte is a parameter. -/
def stageImage (kind : Nat) : List Byte :=
  natToLe (5 + 5 * 2 ^ 16 + kind * 2 ^ 64) 64 ++
    [0, 2, 3, 4, 5].flatMap (fun k => natToLe (2 ^ 16 + 2 ^ 22 + 2 ^ 28 + k * 2 ^ 64) 16) ++
    [0, 1, 2, 3, 4].flatMap (fun k => [0#8, BitVec.ofNat 8 k] ++ List.replicate 254 0#8) ++ List.replicate 256 0#8

/-- The image as bytes of element 0's memory. -/
def imageCells (l : List Byte) : Map Byte := (l.zipIdx.filter fun x => decide (x.1 ≠ 0)).map fun x => (x.2, x.1)

/-- An accepted image of a stage set and a refused one, both read from the window. -/
theorem witness_BindResult_image :
    let s := regionWith [(9, window)] (imageCells (stageImage 1))
    impliedSize (stageImage 1) = 1680 ∧ 1680 ≤ maxImage ∧ (coreRead s (s.reg 9).toNat 64 .read).1 = .ok ((stageImage 1).take 64) ∧
      (coreRead s (s.reg 9).toNat 1680 .read).1 = .ok (stageImage 1) := by
  decide +kernel

/-- That image loads, and as a configuration image it is refused. -/
theorem witness_BindResult_load : (loadStages 1 shippedEnabled (stageImage 1)).2.isSome = true ∧
      (loadStages 1 shippedEnabled (stageImage 0)).2 = none := by
  decide +kernel

/-- A batch that uses handle 15, a task held by its bind, one held by an engine's queue. -/
theorem witness_BindResult :
    let b := regionWith [(9, window)] []
    let c : Command := { instr := .abatch 1 2 0, list := [], owner := .none, tag := 0, counter := 0, rest := none
                         desc := List.replicate 47 0#8 ++ [15#8] ++ List.replicate 16 0#8 }
    let h := (Batch.of (leToNat c.desc)).bindh
    let s := b.setRegion 0 { b.region 0 with pipeq := [c] }
    let t := after (.bind 12 9 (BitVec.ofNat 4 h)) s
    let u := b.setMe { b.me with hold := .wait (.copy 12 9 2 0 0 5) }
    h ≠ 0 ∧ h < 16 ∧ handleInUse (s.region 0) h = true ∧ handleInUse (b.region 0) h = false ∧
      ((t.region 0).task 0).hold = .wait (.bind 12 9 (BitVec.ofNat 4 h)) ∧
      engineOf (.copy 12 9 2 0 0 5) = some (.copy, 5) ∧ ((u.region 0).queueOf .copy).length < 16 ∧
      mapGet 0 ((u.region 0).task 0).counts 5 < 15 := by
  decide +kernel

/-- A region with one island and an open job 1. -/
def launchState : State :=
  let s := after (.jopen 11 1) (regionWith [(16, 0x11001010#64), (17, 1#64), (18, 1#64), (19, window)] [])
  s.setRegion 0 ((s.region 0).setIsland 0 (some oneCell))

/-- An accepted launch without records and one with one record, a refused one, and one held by a token. -/
theorem witness_LaunchResult :
    let s := launchState
    let l := s.me.listFrom 16 2
    let x := launchArgs l
    let t := s.setMe (s.me.set 18 0x100000001#64)
    let m := t.me.listFrom 16 3
    let y := launchArgs m
    let u := s.setRegion 0 { s.region 0 with token := some (2, 0) }
    s.cur = .seq 0 0 ∧ (s.region 0).token = none ∧ launchRefusal s (s.region 0) x l.length = none ∧ x.count = 0 ∧
      ((upTo 64).filter fun j => nbit x.mask j) = [0] ∧ launchFull s (s.region 0) x = false ∧ (s.region 0).phase = 0 ∧
      [x.l, x.p, 0, x.u0] = [16, 1, 0, 17] ∧ launchRefusal t (t.region 0) y m.length = none ∧ y.count = 1 ∧
      (coreRead t (m.getD 3 0).toNat 72 .read).1 = .ok (List.replicate 72 0#8) ∧
      (preloadsOf 1 (List.replicate 72 0#8)).all (fun p => inMask (t.region 0) y p.elem) = true ∧
      launchRefusal s (s.region 0) { x with l := 0 } l.length = some 5 ∧ (u.region 0).token ≠ none ∧
      (after (.launch 11 16 2) u).me.hold = .wait (.launch 11 16 2) ∧ 2 ≤ min 2 (s.part (s.partOf s.cur)).cap.toNat ∧
      s.stores = [] := by
  decide +kernel

/-- A launch and a spawn whose core has a store on its way, and both once they hold and the store has performed. -/
theorem witness_LaunchResult_release :
    let p : PStore := { cells := [(0x20000000, 1#8)], addr := 0x20000000, issuer := .core (.seq 0 0), agent := 0, part := 0
                        reached := 1, strong := false, scope := 7, unordered := false, readers := [] }
    let s := { launchState with stores := [p] }
    let i := Instr.launch 11 16 2
    let t := after i s
    let u := { t with stores := [{ p with reached := 2 }] }
    let a := (after (.jopen 11 1) (regionWith [(16, 0x4000#64), (17, 0x3FF000001#64)] []))
    let b := { a with stores := [p] }
    let c := after (.spawn 11 16 2) b
    (∃ q ∈ s.stores, q.issuer = .core s.cur ∧ q.reached < 2) ∧ t.me.hold = .fence i 2 false 0 0 ∧
      (∀ q ∈ u.stores, q.issuer = .core u.cur → 2 ≤ q.reached) ∧ u.me.hold = .fence i 2 false 0 0 ∧
      min (lca (b.agent b.cur) (regionCoord b 0 3)) (b.part 0).cap.toNat = 2 ∧ coreLevel b.cur ≤ 2 ∧
      (∃ q ∈ b.stores, q.issuer = .core b.cur ∧ q.reached < 2) ∧ c.me.hold = .fence (.spawn 11 16 2) 2 false 0 0 := by
  decide +kernel

/-- A spawn into the issuer's region without an endpoint, slot 1 free; and one with a free endpoint. -/
theorem witness_SpawnResult :
    let s := after (.jopen 11 1) (regionWith [(16, 0x4000#64), (17, 0x3FF000001#64)] [])
    let e := endpointGet s (coreKctx s s.cur) 2
    let f := endpointGet e.2 (coreKctx e.2 e.2.cur) 2
    let w := s.word (ctrAddr s 0 1)
    s.me.hold ≠ .free ∧ ctrLevel w = 4 ∧ w % 2 ^ 32 ≠ 0 ∧ w % 2 ^ 32 < 0xFFFFFFFF ∧ s.cur = .seq 0 0 ∧
      (s.region 0).part = s.partOf s.cur ∧ (s.region 0).saved = none ∧ ((s.region 0).task 1).hold = .free ∧
      ((s.region 0).task 0).hold ≠ .free ∧ epState (e.1.getD 0) ≠ 1 ∧ epState (e.1.getD 0) ≠ 2 ∧ e.2.cur = s.cur ∧
      f.2.cur = s.cur := by
  decide +kernel

/-- A task with nothing outstanding, one with a command and a free tracker entry, one with all entries taken, a
tracker entry of count 2 that has drained, and a steward core at U. -/
theorem witness_TailResult :
    let s := regionWith [(9, window), (10, window + 64), (11, 2#64)] []
    let t := after (.copy 12 9 2 0 0 5) s
    let full := t.setRegion 0 { t.region 0 with trackers := (List.range 16).map fun n => (n, some { counter := 0, slot := 1 }) }
    let g := (s.setRegion 0 { s.region 0 with trackers := [(3, some { counter := 1, slot := 1 })] }).write 0x20000008
      (natToLe (2 ^ 63 + 2) 8)
    let b := stewardWith []
    let u := b.setMe { b.me with level := .u }
    let s1 := endpointState s (regionKctx s 0) ((s.region 0).task 0).endpoint 3
    s.cur = .seq 0 0 ∧ s.stores = [] ∧ (s.region 0).copyq = [] ∧ (s.region 0).mergeq = [] ∧ (s.region 0).pipeq = [] ∧
      (s1.region 0).part = (s.region 0).part ∧ (s1.region 0).task 0 = (s.region 0).task 0 ∧
      (∃ c ∈ (t.region 0).copyq, c.owner = .slot 0) ∧ mapGet none (t.region 0).trackers 0 = none ∧
      (∀ j, j < 16 → mapGet none (full.region 0).trackers j ≠ none) ∧
      ((after .tail full).task (.seq 0 0)).hold = .wait .tail ∧
      mapGet none (g.region 0).trackers 3 = some { counter := 1, slot := 1 } ∧
      g.word (ctrAddr g (g.region 0).part 1) % 2 ^ 32 = 2 ∧ u.cur = .stew 0 ∧ u.me.level = .u := by
  decide +kernel

/-- A reconf to an idle handle with no token, one that waits, and a token whose phase has drained, with a spare for
the element that awaits retirement. -/
theorem witness_ReconfigurationResult :
    let s := regionWith [] []
    let t := after (.reconf 11 2) s
    let h := s.setMe { s.me with hold := .wait (.reconf 11 2) }
    let g := t.region 0
    let r := { g with retiring := [7] }
    s.cur = .seq 0 0 ∧ s.word (ctrAddr s 0 2) / 2 ^ 61 % 8 < 5 ∧ s.word (ctrAddr s 0 2) % 2 ^ 32 = 0 ∧ s.me.counter = 0 ∧
      (s.region 0).token = none ∧ ((h.region 0).task 0).hold = .wait (.reconf 11 2) ∧ g.token = some (2, 0) ∧
      g.saved = none ∧ g.frozen = false ∧ phaseDrained t g = true ∧ 7 ∈ r.enabled ∧ r.enabled.Nodup ∧ 250 ∈ r.spares ∧
      (∀ y ∈ r.spares, 250 ≤ y) := by
  decide +kernel

/-- A counter at zero, one that is running, a running job to cancel whose partition holds nothing of it, and an island
whose last trip is over. -/
theorem witness_WaitAndCancelResult :
    let s := after (.jopen 11 1) (regionWith [] [])
    let i : Island := { oneCell with unit := some 5 }
    let g := (s.region 0).setIsland 0 (some i)
    let w := fun h : Nat => s.word (ctrAddr s 0 h)
    w 2 / 2 ^ 61 % 8 < 5 ∧ w 2 % 2 ^ 32 = 0 ∧ w 1 % 2 ^ 32 ≠ 0 ∧ w 1 / 2 ^ 61 % 8 = 4 ∧ ctrParent (w 1) = 0 ∧
      (after (.waitc 11 1) s).me.hold = .wait (.waitc 11 1) ∧ s.me.counter = 0 ∧ g.island 0 = some i ∧
      unitOver g i = true := by
  decide +kernel

/-- An island that runs a unit under a job: the unit's counter is in the set, and `cancel` leaves the island without it. -/
theorem witness_WaitAndCancelResult_island :
    let s := (after (.jopen 11 1) (regionWith [] [])).write 0x20000028 (natToLe (ctrMake 0 false false 1 0 1) 8)
    let t := s.setRegion 0 ((s.region 0).setIsland 0 (some { oneCell with unit := some 5, trips := 1 }))
    let u := after (.cancel 11 4 1) t
    5 ∈ cancelSet t 0 1 ∧ t.word (ctrAddr t 0 1) / 2 ^ 61 % 8 = 4 ∧ t.word (ctrAddr t 0 1) % 2 ^ 32 ≠ 0 ∧
      ((u.region 0).island 0).map (fun x => x.unit) = some none ∧ (u.reg 11, (after (.cancel 11 1 1) t).reg 11,
        (after (.cancel 11 0 2) t).reg 11, (after (.cancel 11 0 0) t).reg 11) = (0#64, 4#64, 3#64, 5#64) := by
  decide +kernel

/-- A job whose handle cannot be reused, one that is running, a task whose job has no room, and a token under way. -/
theorem witness_ReconfigurationResult_refused :
    let s := after (.jopen 11 1) (regionWith [] [])
    let t := s.write 0x20000018 (natToLe (5 * 2 ^ 61) 8)
    let u := (s.setMe { s.me with counter := 1 }).write 0x20000008 (natToLe (2 ^ 63 + 0xFFFFFFFF) 8)
    let v := s.setRegion 0 { s.region 0 with token := some (3, 0) }
    s.word (ctrAddr s 0 1) % 2 ^ 32 ≠ 0 ∧ s.word (ctrAddr s 0 1) / 2 ^ 61 % 8 < 5 ∧ t.word (ctrAddr t 0 3) / 2 ^ 61 % 8 ≥ 5 ∧
      u.me.counter ≠ 0 ∧ u.word (ctrAddr u 0 (ctrRoot u 0 5 1)) % 2 ^ 32 = 0xFFFFFFFF ∧ v.cur = .seq 0 0 ∧
      (v.region 0).token ≠ none ∧ v.me.counter = 0 ∧ v.word (ctrAddr v 0 2) % 2 ^ 32 = 0 := by
  decide +kernel

/-- A task in `waitc` whose cancelled counter reaches zero. -/
theorem witness_WaitAndCancelResult_counted :
    let s := after (.waitc 11 1) (after (.jopen 11 1) (regionWith [] []))
    let t := noteWaits (s.write 0x20000008 (natToLe (2 ^ 63 + 2 ^ 60) 8))
    (t.task (.seq 0 0)).hold = .counted (.waitc 11 1) true := by
  decide +kernel

/-- A send to no handle with nothing to wait for, endpoints of each state, an empty and a filled receive queue. -/
theorem witness_MessageResult :
    let s := regionWith [(9, 0#64)] []
    let m : Message := { slot := 0, payload := [1#64, 2#64, 3#64], sender := 7 }
    let t := s.setRegion 0 { s.region 0 with queue := [{ m with slot := 1 }, m] }
    let u := mailboxMove t 0 0
    sendScope s 0 = none ∧ (sendMessage s (coreKctx s s.cur) 0 [] (senderWord s)).1 = 5 ∧ (s.region 0).queue = [] ∧
      (mailboxMove s 0 0).cur = .seq 0 0 ∧ u.cur = .seq 0 0 ∧ (u.region 0).queue = [{ m with slot := 1 }, m] ∧
      (after (.recvm 24) s).me.hold = .wait (.recvm 24) := by
  decide +kernel

/-- A partition whose kernel context maps one page for its endpoint table, with endpoint 1 of a placed task and
endpoint 2 of one that exited. -/
def sendState : State :=
  let s := regionWith [(9, 1#64)] []
  let p := s.setPart 0 { s.part 0 with epbase := 0x0000000040000000#64, kctx := 0x100000#64 }
  let t := (((((p.write 0x100000000 (natToLe 0x0000000100001001 8)).write 0x100001000
    (natToLe 0x0000000100002001 8)).write 0x100002008 (natToLe 0x0000000100003001 8)).write 0x100003000
    (natToLe 0x0000000100004001 8)).write 0x100004000 (natToLe 0x0000000200405037 8))
  let u := [0x100000, 0x100001, 0x100002, 0x100003, 0x100004, 0x200405].foldl (fun x f => x.write f [0x40#8]) t
  (u.write 0x200405010 (natToLe (2 ^ 62) 8)).write 0x200405020 (natToLe (3 * 2 ^ 62) 8)

/-- Those endpoints are read, and the queue of the placed one has room. -/
theorem witness_MessageResult_endpoints :
    let s := sendState
    let x := coreKctx s s.cur
    let e := endpointGet s x 1
    let f := endpointGet s x 2
    let y := regionCtx e.2 0 (regionCoord e.2 0 3)
    (match e.1, f.1 with
      | some v, some w => decide (epState v = 1 ∧ epState w = 3 ∧ epRegion v = 0 ∧ epMbox v = 0)
      | _, _ => false) = true ∧ (e.2.region 0).queue.length < 16 ∧
      (match (mboxIndices (mboxMove y 0 0 0 17 e.2) y 0).1 with
        | some (i, j) => decide (i = j)
        | none => true) = true := by
  decide +kernel

/-- A bound and an unbound barrier handle, the largest count, an arrival recorded for one handle and none for another. -/
theorem witness_BarrierResult :
    let s := regionWith [(9, 65535#64), (10, 65536#64)] []
    let t := after (.barinit 11 9 255) s
    let u := after (.bararr 11 7 255) t
    (s.reg 10).toNat > 65535 ∧ 0 < (s.reg 9).toNat ∧ (s.reg 9).toNat ≤ 65535 ∧ mapGet none (s.part 0).barriers 255 = none ∧
      mapGet none s.barriers 0 = none ∧ mapGet none (t.part 0).barriers 255 = some (0, 0) ∧
      mapGet none t.barriers 0 = some { count := 65535, arrivals := 0, gen := 0 } ∧ fenceOver t t.cur 7 = true ∧
      u.me.pair = some (255, 0, 7) ∧ (after (.barwait 11 255) u).me.hold = .wait (.barwait 11 255) ∧ t.me.pair = none := by
  decide +kernel

/-- A task that waits on a word of the window, the same once a store has changed it, and a misaligned address at level
U. -/
theorem witness_WaitOnWordResult :
    let s := regionWith [(9, window), (10, 5#64), (11, window + 4)] [(0, 5#8)]
    let t := after (.waita 12 9 10) s
    let u := noteWaits (after (.stI8 9 9 0 0) { t with cur := .seq 0 0 })
    (s.reg 9).toNat % 8 = 0 ∧ (coreRead s (s.reg 9).toNat 8 .read 7).1 = .ok (natToLe 5 8) ∧
      (t.task (.seq 0 0)).hold = .wait (.waita 12 9 10) ∧ (coreRead t (t.reg 9).toNat 8 .read 7).1 = .ok (natToLe 5 8) ∧
      (coreRead t (t.reg 9).toNat 8 .read 7).2.cur = .seq 0 0 ∧ (s.reg 11).toNat % 8 ≠ 0 ∧ s.me.level = .u ∧
      (u.task (.seq 0 0)).hold = .changed (.waita 12 9 10) := by
  decide +kernel

/-- A spawn whose endpoint has a readable, writable entry that is free. -/
theorem witness_SpawnResult_endpoint :
    let s := after (.jopen 11 1) (sendState.setMe (sendState.me.set 17 0x3FF005001#64))
    let e := endpointGet s (coreKctx s s.cur) 5
    let f := endpointGet e.2 (coreKctx e.2 e.2.cur) 5
    let z := pieces f.2 (coreKctx f.2 f.2.cur) (endpointVa f.2 (coreKctx f.2 f.2.cur).part 5) 8 .write true
    s.me.hold ≠ .free ∧ epState (e.1.getD 0) = 0 ∧ e.2.cur = s.cur ∧ f.1.isSome = true ∧ (match z with
      | (.ok [p], u) => decide (p.pa < 2 ^ 52 ∧ p.pa % 4096 + 8 ≤ 4096 ∧ u.place p.pa = .dram 0 ∧ u.poison = [] ∧ u.bad = []) &&
          (upTo 8).all fun k => (controlOff u (canonPa u.pkg.toNat (p.pa + k))).isNone
      | _ => false) = true := by
  decide +kernel

/-- The same endpoint table with endpoint 3 of a saved task, whose mailbox page is the table's own page. -/
def savedSendState : State :=
  let s := sendState
  let t := s.write 0x200405030 (natToLe (2 ^ 63 + 0x40000 * 2 ^ 76) 16)
  { t.setRegion 0 { t.region 0 with saved := some 0x10000000 } with
    saves := [{ area := 0x10000000, region := 0, part := 0, ctx := 0x100000#64, live := true, cancelled := [], beyond := [], serial := 1, bank := none }] }

/-- A saved task whose mailbox page is empty and can be written. -/
theorem witness_MessageResult_saved :
    let x := coreKctx savedSendState savedSendState.cur
    let e := endpointGet savedSendState x 3
    let y := mailCtx e.2 0 0 2
    let i := mboxIndices e.2 y 0x40000000
    let v := writeVirt (noteBox i.2 0 3 i.1) y 0x40000040 (List.replicate 32 0#8) true
    let w := writeVirt v.2 y 0x40000000 (natToLe 1 8) true
    (match e.1 with
      | some k => decide (epState k = 2 ∧ epRegion k = 0 ∧ epMbox k = 0x40000000)
      | none => false) = true ∧ i.1 = some (0, 0) ∧ (match v.1, w.1 with
      | .ok _, .ok _ => true
      | _, _ => false) = true := by
  decide +kernel

/-- A region that is saved and one that is not, areas that are and are not reserved memory, a stopped region that has
drained, one deferred to its points, one whose copy stands at the area named. -/
theorem witness_RegionSaveResult :
    let s := stewardWith [(9, 639#64), (10, 0x10000000#64), (11, 0x10000001#64), (12, 640#64)]
    let t := after (.rsave 13 9 10) s
    let w := s.setRegion 639 { s.region 639 with deferred := some 0 }
    s.cur = .stew 0 ∧ s.me.level = .h ∧ (s.reg 9).toNat ≤ 639 ∧ (s.reg 12).toNat > 639 ∧ (s.region 639).saved = none ∧
      saveAreaOk s (s.reg 10).toNat = true ∧ saveAreaOk s (s.reg 11).toNat = false ∧ (s.region 639).frozen = false ∧
      (s.region 639).deferred = none ∧ (t.task (.stew 0)).hold = .wait (.rsave 13 9 10) ∧ (t.region 639).frozen = true ∧
      saveDrained t 639 = true ∧ (s.reg 10).toNat + 2 ^ 22 ≤ 2 ^ 48 ∧ (∀ e ∈ (t.region 639).enabled, e < 256) ∧
      s.poison = [] ∧ s.bad = [] ∧ w.tick - 0 ≥ (w.part (w.region 639).part).ppwait.toNat ∧
      (t.region 639).saved = none ∧ (t.region 639).deferred = none ∧ (t.region 639).elements = [] ∧
      mapWf none 0 Element.zero.tags = true := by
  decide +kernel

/-- A core that waits to save a region that is saved by then, and one that waits to restore a region that runs. -/
theorem test_save_twice :
    let s := stewardWith [(9, 639#64), (10, 0x10000000#64)]
    let t := after (.rsave 13 9 10) s
    let u := t.setRegion 639 { t.region 639 with saved := some 0x20000000 }
    let v := s.setTask (.stew 0) { s.task (.stew 0) with hold := .wait (.rrest 13 9 10) }
    (u.task (.stew 0)).hold = .wait (.rsave 13 9 10) ∧ (u.region 639).saved ≠ none ∧
      ((after (.rsaveComplete (.stew 0)) u).task (.stew 0)).get 13 = 3#64 ∧
      ((after (.rsaveComplete (.stew 0)) u).task (.stew 0)).hold = .ready ∧ (v.region 639).saved = none ∧
      ((after (.rrestComplete (.stew 0)) v).task (.stew 0)).get 13 = 1#64 := by
  decide +kernel

/-- A saved region whose area's header names it, and its restore. -/
theorem witness_RegionSaveResult_saved :
    let s := (stewardWith [(9, 639#64), (10, 0x10000000#64), (11, 0x20000000#64)]).write 0x10100000 (natToLe 639 8)
    let u := s.setRegion 639 { s.region 639 with saved := some 0x10000000 }
    let v := after (.rrest 13 9 10) u
    (u.region 639).saved ≠ none ∧ u.word ((s.reg 10).toNat + 0x100000) % 2 ^ 10 = 639 ∧
      u.word ((s.reg 11).toNat + 0x100000) % 2 ^ 10 ≠ 639 ∧ (v.task (.stew 0)).hold = .wait (.rrest 13 9 10) ∧
      (v.region 639).saved ≠ none ∧ (cancelledWhile v 639 0x10000000).1 = [] ∧ s.poison = [] ∧ s.bad = [] ∧ u.poison = [] ∧
      u.bad = [] := by
  decide +kernel

/-- An untagged bank of an enabled element, one of another context whose bank save area is named, and one whose own
context has an area with a valid copy. -/
theorem witness_BankReleaseResult :
    let s := stewardWith []
    let x : Saved := { area := 0x10000000, region := 0, part := 0, ctx := 0x0050000000000000#64, live := true
                       cancelled := [], beyond := [], serial := 1, bank := some 0x30000000 }
    let named := { s with saves := [x] }
    let t := named.setRegion 0 ((s.region 0).setElement 249 { (s.region 0).element 249 with tags := [(127, some (some (0, 5)))] })
    let v := (named.write (0x30000000 + 0x6000000 + (128 * 249 + 127) / 8) [0x80#8]).setRegion 0
      { s.region 0 with ctx := 0x0050000000000000#64 }
    (s.region 0).bankTag 249 127 = none ∧ 249 ∈ (s.region 0).enabled ∧ s.saves = [] ∧ s.kept = [] ∧
      (t.region 0).bankTag 249 127 = some (0, 5) ∧ (t.region 0).ctx = 0 ∧
      (∀ y ∈ t.saves, y.region ≠ 0 ∨ (y.part, y.ctx.toNat / 2 ^ 52) ≠ (0, 0)) ∧
      bankArea t 0 (0, 5) = some 0x30000000 ∧ bankArea t 0 (0, 6) = none ∧ 0x30000000 + 0x7000000 ≤ 2 ^ 48 ∧
      (v.region 0).bankTag 249 127 = none ∧ bankArea v 0 (0, 5) = some 0x30000000 ∧
      (v.byte (0x30000000 + 0x6000000 + (128 * 249 + 127) / 8)).getLsbD 7 = true := by
  decide +kernel

/-- An island without a unit, one that waits at an empty token latch, one whose clock is stopped, one that runs its
last slot with a result due, and a hold that reaches the watchdog's limit. -/
theorem witness_IslandTickResult :
    let s := elementWith []
    let i : Island := { oneCell with unit := some 5, trips := 1 }
    let g := (s.region 0).setIsland 0 (some i)
    let e := g.element 0
    let wait := g.setElement 0 { e with ops := [0xB00001] }
    let run := g.setElement 0 { e with flight := [(1, .v 4 7#512), (2, .v 5 8#512)] }
    let h : Island := { i with held := some .token, watch := 3 }
    let causes := fun g : Region => i.cells.flatMap fun c => causesOf g i c (tickUses g i c) true
    (s.region 0).island 0 = some oneCell ∧ oneCell.unit = none ∧ g.island 0 = some i ∧ i.unit ≠ none ∧ g.frozen = false ∧
      g.deferred = none ∧ s.health.crit = false ∧ { g with frozen := true }.frozen = true ∧
      i.hit = 0 ∧ rsmPorts s 0 i = [] ∧ drainCause g i ≠ .spill ∧ h.watch = { g with stallwd := 3#32 }.stallwd.toNat ∧
      decodeTableWord 24 0xB03801 = some (.tkwait 1) ∧ firstStall (causes (wait.setElement 0 { e with ops := [0xB03801] })) =
        some .token ∧ firstStall (causes run) = none ∧ i.trips ≠ 0 ∧ i.counter + 1 = i.period ∧ i.cells.Nodup ∧
      (run.element 0).run = none ∧ h.held = some .token ∧ { g with stallwd := 3#32 }.stallwd.toNat ≤ h.watch ∧
      h.stalled = false := by
  decide +kernel

/-- A cell whose words are zero uses what a vnop uses. -/
theorem witness_IslandTickResult_nop :
    let s := elementWith []
    let i : Island := { oneCell with unit := some 5, trips := 1 }
    let g := (s.region 0).setElement 0 { s.elem with regs := [] }
    tickUses g i 0 = usesOf g 0 .vnop 0 0 true := by
  decide +kernel

/-- Element 0 in a unit with nops, a run of two K blocks at a tick, a block of ones and an exponent of zero in its port,
and weights 3 and −1 in rows 0 and 1 of column 0. -/
def runState (flight : List (Nat × Effect)) (clock : Nat) : State :=
  let s := elementWith []
  let q : QEntry := { bytes := List.replicate 16 0x11#8 ++ [0x7F#8, 0x10#8], token := 0xFFFF#16, index := 0, addr := some 0
                      landed := true, block := some (4, 32), size := 1, born := 0, closed := false }
  let e := { s.elem with
    regs := [], grant := some grant4, flight := flight, ag0 := { AgPort.zero with kind := 1, queue := [q] }
    elm := [(0, 3#8), (0x60, 0xF#8)]
    run := some { k0 := 0, nk := 2, set := 0, mask := 0xFF, port := 0, acc := false, running := true, clock := clock } }
  s.setRegion 0 (((s.region 0).setIsland 0 (some { oneCell with unit := some 5, trips := 1 })).setElement 0 e)

/-- The element after a tick of its island. -/
def ranElement (s : State) : Element := ((after (.islandTick 0 0) s).region 0).element 0

/-- R320: the first interval puts 3 − 1 = 2.0 on its way, a fresh start, due after 4 more ticks; a tick within an interval and
a row at h put nothing; the second K block adds. The run ends at tick 4 × 16 + 1, with its token; R82: an update of 3.0. -/
theorem test_matrix_run :
    let seen := fun c : Nat => (ranElement (runState [] c)).flight.map fun p => match p.2 with
      | .acc row vs fresh => (p.1, row, vs.getD 0 7, vs.getD 1 7, fresh)
      | _ => (0, 0, 0, 0, false)
    let x := ranElement (runState [(1, .acc 1 (List.replicate 64 0x40400000) true)] 1)
    seen 0 = [(4, 0, 0x40000000, 0, true)] ∧ seen 1 = [] ∧ seen 8 = [] ∧ seen 32 = [(4, 0, 0, 0, false)] ∧
      (ranElement (runState [] 64)).run.map (·.clock) = some 65 ∧ (ranElement (runState [] 65)).run = none ∧
      (ranElement (runState [] 65)).tokens.getLsbD 8 = true ∧ mapGet 0 x.absorbed 1 = 1 ∧
      leToNat (mapGetN 0 x.elm (127 * 0xC00 + 4 * 64) 8) = 0x4040000040400000 := by
  decide +kernel

/-- That tick has no cause to hold, no store to wait for and good units. -/
theorem witness_IslandTickResult_run :
    let s := runState [] 0
    let i : Island := { oneCell with unit := some 5, trips := 1 }
    let g := s.region 0
    let e := g.element 0
    g.island 0 = some i ∧ firstStall (i.cells.flatMap fun c => causesOf g i c (tickUses g i c) true) = none ∧
      rsmPorts s 0 i = [] ∧ i.cells.Nodup ∧ s.poison = [] ∧ s.bad = [] ∧ tickUses g i 0 = usesOf g 0 .vnop 0 0 true ∧
      e.run.map (·.running) = some true ∧ e.grant = some grant4 ∧ (e.ag 0).head.isSome = true ∧ e.flight = [] := by
  decide +kernel

/-- A load port with a request due, one with a word that has not landed, a store port with an addressed entry, a faulted
port, and a port in the window. -/
theorem witness_GeneratorStep :
    let s := elementWith []
    let i : Island := { oneCell with unit := some 5, trips := 1 }
    let a : AgPort := { AgPort.zero with kind := 1, counters := 1, extents := [4], strides := [64], rsm := true
                                         base := window.toNat, count := 4, running := true, lead := 8 }
    let q : QEntry := { bytes := List.replicate 64 1#8, token := 0xFFFF#16, index := 0, addr := some window.toNat
                        landed := false, block := none, size := 1, born := 0, closed := false }
    let f : AgFault := { kind := 0, code := 0, word := 0, addr := 0 }
    let at_ := fun p : AgPort => s.setRegion 0 (((s.region 0).setIsland 0 (some i)).setElement 0 { s.elem with ag0 := p, ops := [0xA03800] })
    let t := at_ a
    let u := at_ { a with queue := [q], next := 1 }
    let v := at_ { a with kind := 2, queue := [q], next := 1, moved := 1 }
    let w := at_ { a with fault := some f }
    let x := at_ { a with rsm := false, base := 0x40 }
    decodeTableWord 24 0xA03800 = some (.vpop 0) ∧ portDue t 0 0 0 = true ∧ (match agRead t 0 0 a 0 with
      | (.ok y [], z) => decide (queueUsed [] + y.size ≤ 8 ∧ z.agPort 0 0 0 = a)
      | _ => false) = true ∧ (u.agPort 0 0 0).queue = [q] ∧ (u.agPort 0 0 0).kind = 1 ∧ q.landed = false ∧
      drainWaits v 0 0 0 q = false ∧ drainPicks v 0 0 (v.agPort 0 0 0) = [0] ∧ (v.agPort 0 0 0).kind = 2 ∧ (v.agPort 0 0 0).fault = none ∧ (match agWrite v 0 0 (v.agPort 0 0 0) q with
        | (.ok _ _, z) => decide (z.agPort 0 0 0 = v.agPort 0 0 0)
        | _ => false) = true ∧ faultedPort ((w.region 0).element 0) = some 0 ∧
      portDue x 0 0 0 = true ∧ (match agRead x 0 0 (x.agPort 0 0 0) 0 with
        | (.fault _ _, z) => decide (z.agPort 0 0 0 = x.agPort 0 0 0)
        | _ => false) = true := by
  decide +kernel

/-- A pending store of distinct bytes, not refused: performing at the chiplet and at its home; the
same into a poisoned unit, refused; frames that are and are not Mapped to the partition of a request. -/
theorem witness_StorePerformance :
    let s := after (.stI32 9 10 0 0) (stewardWith [(9, 5#64), (10, 0x20000000#64)])
    let t := { s with poison := [(0x20000000, true)] }
    let u := (stewardWith []).write 0x20000 [0x43#8]
    (match s.stores[0]? with
      | some p => decide ((p.cells.map (·.1)).Nodup) && !strongBefore s 0 7 p && decide (sameScope (homeScope s p.addr) 7 = 7) &&
          decide (sameScope (homeScope s p.addr) 3 ≠ 7) && !storeRefusedAt s 0 p && !storeWaits s 0 p &&
          p.cells.all fun x => (controlOff s x.1).isNone
      | none => false) = true ∧
      (match s.stores[0]? with
        | some p => storeRefusedAt t 0 p
        | none => false) = true ∧
      u.place 0x20000000 = .dram 0 ∧ ownerOk u 3 0x20000000 = true ∧ ownerOk u 3 0x20000007 = true ∧
      ownerOk u 4 0x20000000 = false ∧ mergesPoison u 0x20000000 8 = false ∧ u.poison = [] ∧ u.bad = [] := by
  decide +kernel

/-- A store to an unordered page that has not performed outside its core, with another older than it. -/
theorem witness_StorePerformance_unordered :
    let p : PStore := { cells := [(0x20000000, 1#8)], addr := 0x20000000, issuer := .core (.seq 0 0), agent := 0, part := 0
                        reached := 1, strong := false, scope := 7, unordered := true, readers := [] }
    let s := { stewardWith [] with stores := [{ p with reached := 4 }, p] }
    s.stores[1]? = some p ∧ p.floating = true ∧ 3 ≤ sameScope (homeScope s p.addr) 3 ∧
      sameScope (homeScope s p.addr) 3 ≠ 7 ∧ sameScope (homeScope s p.addr) 7 = 7 ∧ strongBefore s 1 7 p = false ∧
      storeRefusedAt s 1 p = false ∧ storeWaits s 1 p = false ∧
      (after (.storePerform 1 3) s).stores = [{ p with reached := 3 }, { p with reached := 4 }] := by
  decide +kernel

/-- An element outside every island with a unit, one in a unit, and alarms that are not raised. -/
theorem witness_ParityAndAlarmResult :
    let s := elementWith []
    let i : Island := { oneCell with unit := some 5, trips := 1 }
    (s.region 0).islandOf 0 = some (0, oneCell) ∧ oneCell.unit = none ∧ (s.region 0).islandOf 17 = none ∧
      ((s.region 0).setIsland 0 (some i)).islandOf 0 = some (0, i) ∧ i.unit = some 5 ∧ s.health.talarm = false ∧
      s.health.ialarm = false ∧ ((s.region 0).setIsland 0 (some i)).island 0 = some i := by
  decide +kernel

/-- Two halves of Lanika edge 9: element 0 sends north off the grid (its route word drives port 1), element 1 does not. -/
def linkState : State :=
  let s := elementWith []
  let w : SWord := { data := 5, valid := 0xFFFF#16, last := false }
  let t : Turnstile := { capacity := 8, element := 0, port := 1, initial := 0, entries := [], tokens := 1, line := 0
                         tokenLine := 0, edge := 9, send := [w], sent := 0, sendSeq := 255, recvSeq := 0, unreported := 0, crossing := [] }
  let g := ((s.region 0).setTurn 0 (some t)).setTurn 1
    (some { t with element := 1, send := [], recvSeq := 255, tokens := 0 })
  let e := g.element 0
  ((s.setRegion 0 (g.setElement 0 { e with routes := [2 ^ 7 + 2] })).write 0x40000000 (natToLe (4096 + 9) 2)).setPort 2
    { Port.zero with active := some [(0, 4096 + 9)], hop := 40, en := true, mapBase := 0x2000#35, pend := true
                     wire := [{ edge := 9, seq := 255, word := some w, token := false, resent := false, due := 0, fails := none }] }

/-- A slot that names the edge, an arrived word in sequence, and the halves of its edge. -/
theorem witness_LanikaTraffic :
    let s := linkState
    let x := s.port 2
    x.dead = false ∧ x.hop ≠ 0 ∧ slotEntry [(0, 4096 + 9)] (s.tick % 4096) 0 = 4096 + 9 ∧
      (sendHalf s 9).map (fun h => (h.1, h.2.1)) = some (0, 0) ∧ (receiveHalf s 9).map (fun h => (h.1, h.2.1)) = some (0, 1) ∧
      (sendHalf s 9).all (fun h => decide (h.2.2.sent < h.2.2.send.length)) = true ∧ x.wire.map (·.due) = [0] ∧
      (receiveHalf s 9).map (fun h => h.2.2.recvSeq) = some 255 ∧ x.naks = [] ∧ x.notice = none ∧ x.moving = none ∧
      x.wire.all (fun w => !duplicate s w && !w.resent) = true ∧
      ((edgeHalves s).filter (fun h => leavesPackage h && isSender s h)).length = 1 ∧
      slotEntry [(1, 0x3000)] 0 1 / 4096 > 2 ∧
      ({ x with hop := 0 }).hop = 0 ∧ s.tick % 4096 = 0 ∧ x.pend = true ∧ s.poison = [] ∧ s.bad = [] := by
  decide +kernel

/-- A live port, and a route table that is busy. -/
theorem witness_PortDeathResult :
    let s := linkState
    let t := after (.portDeclaredDead 2 [3, 5]) s
    (s.port 2).dead = false ∧ s.health.hbase = 0 ∧ t.health.rtbusy = true := by
  decide +kernel

/-- A partition with mailbox pages below the remote windows, no unit of them poisoned and no quote under way, the machine
up; a poisoned unit; a request under way. -/
theorem witness_HostResult :
    let s := stewardWith []
    let t := s.setPart 63 { s.part 63 with hmbx := 0x20000000#64 }
    let b := (t.part 63).hmbx.toNat / 2 ^ 14 % 2 ^ 38 * 2 ^ 14
    t.boot = .up ∧ b ≠ 0 ∧ b + 0x4000 ≤ 2 ^ 48 ∧ t.word (b + 0x3000) ≠ 1 ∧ 0x3FF8 + 8 ≤ 0x4000 ∧ t.health.hbase = 0 ∧
      t.poison = [] ∧ mergesPoison { t with poison := [(b, true)] } (b + 8) 8 = true ∧
      (t.write (b + 0x3000) [1#8]).word (b + 0x3000) = 1 := by
  decide +kernel

/-- The machine after reset, a partition that boots, one that runs, one that stops with no frame held. -/
theorem witness_ResetResult :
    let s := (stewardWith []).setPart 0 { Partition.zero with state := 1 }
    let t := (s.setPart 63 { Partition.zero with state := 2 }).setPart 5 { Partition.zero with state := 3 }
    State.reset.boot = .rom ∧ (shake256 State.reset.flash.key 4).take 32 = State.reset.fuses.keyHash ∧
      State.reset.fuses.counter ≤ State.reset.flash.version ∧ State.reset.frametab = 0 ∧
      headerAccepted { State.reset with fuses := { Fuses.blank with counter := 1 } } = false ∧ partState t 0 = 1 ∧ partState t 63 = 2 ∧ partState t 5 = 3 ∧ framesFree t 5 = true := by
  decide +kernel

/-- A health area with sources 6 and 7 enabled, armed and not, the tick matched, and a boundary reached. -/
theorem witness_SnapshotResult :
    let b := { stewardWith [] with health := { Health.zero with hbase := 0x2000 } }
    let s := b.write 0x20000100 [0xC1#8]
    let t := b.write 0x20000100 [0xC0#8]
    let w := controlWord s 0x20000000
    let v := controlWord t 0x20000000
    s.health.hbase ≠ 0 ∧ s.health.hbase.toNat * 2 ^ 16 + 2 ^ 16 ≤ 2 ^ 48 ∧ s.word 0x20000108 = s.tick ∧ nbit w 7 = true ∧
      nbit w 6 = true ∧ nbit w 0 = true ∧ s.snapAt = none ∧ nbit v 7 = true ∧ nbit v 0 = false ∧
      { s with snapAt := some (s.tick, 7) }.snapAt = some (s.tick, 7) ∧ s.tick < 2 ^ 64 ∧ nbit (controlWord b 0x20000000) 7 = false := by
  decide +kernel

/-- An area below the health area that takes the dump, and one off the end of memory. -/
theorem witness_SnapshotResult_dump :
    let b := { stewardWith [] with health := { Health.zero with hbase := 0x2000 }, dump := some [] }
    let s := b.write 0x20000110 (natToLe 0x18000000 8)
    let a := s.word 0x20000110 / 2 ^ 20 * 2 ^ 20
    s.dump = some [] ∧ dumpAreaOk s a = true ∧ a + 2 ^ 20 ≤ 0x20000000 ∧ dumpAreaOk s (2 ^ 52) = false := by
  decide +kernel

/-- An op that sends and awaits no token and reads no turnstile is ready when its queues and banks are. -/
theorem op_ready {i : Instr} {s : State} (pops : ∀ p ∈ (turnUses i s).pops, (s.elem.ag p).head ≠ none)
    (push : ∀ x ∈ opPush i, x.2 ≤ (s.elem.ag x.1).free) (turns : (turnUses i s).tpops = [])
    (send : ∀ q k, i ≠ .tksend q k) (wait : ∀ k, i ≠ .tkwait k)
    (banks : ∀ b ∈ opBanks i (plainIn (s.region s.focus.1) s.focus.2 (turnInput s).reg),
      bankMine (s.region s.focus.1) s.focus.2 b = true)
    (rsm : rsmPorts s s.focus.1 (turnIsland s) = [] := by decide +kernel)
    (poison : s.poison = [] := by decide +kernel) (bad : s.bad = [] := by decide +kernel) : opReady i s :=
  ⟨⟨pops, fun p n h => push (p, n) (by simp [h]), fun n h => by rw [turns] at h; exact (nomatch h),
    fun q k h => absurd h (send q k), fun k h => absurd h (wait k), banks, fun _ => rsm⟩,
    fun _ _ => by rw [poison, bad]; exact ⟨rfl, rfl⟩⟩

/-- Element 0 with a landed block of 32 eight-bit codes at the head of port 0, a store port 1, a grant of file 14, the
guard q2 all on, and tokens at its generator and array inputs. -/
def busyElement (l : List (Nat × Nat)) : State :=
  let s := elementWith l
  let q : QEntry := { bytes := List.replicate 32 1#8 ++ [0x7F#8, 0#8], token := 0xFFFF#16, index := 0, addr := some 0
                      landed := true, block := some (8, 32), size := 1, born := 0, closed := false }
  s.setElem { s.elem with
    q := [(2, 0xFFFF#16)], tokens := 0x182#9, grant := some grant4
    ag0 := { AgPort.zero with kind := 1, queue := [q] }, ag1 := { AgPort.zero with kind := 2 } }

/-- Integer ops are ready on any registers; a pack and a comparison in its range. -/
theorem witness_ElementIntegerResult :
    Legal.intType 2 = true ∧ opReady (.vadd 2 0 1) (elementWith [(1, every 0x7F), (2, every 1)]) ∧
      opReady (.vshi 2 2 7) (elementWith []) ∧ opReady (.vpack 2 2 1 1) (elementWith []) ∧ opReady (.vcmp 5 2 0) (elementWith []) :=
  ⟨by decide, op_ready (by decide +kernel) (by decide +kernel) (by decide +kernel) nofun nofun (by decide +kernel),
    op_ready (by decide +kernel) (by decide +kernel) (by decide +kernel) nofun nofun (by decide +kernel),
    op_ready (by decide +kernel) (by decide +kernel) (by decide +kernel) nofun nofun (by decide +kernel),
    op_ready (by decide +kernel) (by decide +kernel) (by decide +kernel) nofun nofun (by decide +kernel)⟩

/-- A broadcast of the last lane, a shuffle, a sign operation and a nop are ready; operand b may be a stream word. -/
theorem witness_ElementMoveResult :
    opReady .vnop (elementWith []) ∧ opReady (.vmov 1 15) (elementWith []) ∧ opReady (.vlogic 6) (elementWith []) ∧
      opReady (.vgop 6) (elementWith []) ∧ opReady (.vfsgn 2 6) (elementWith []) ∧ Legal.vshufOk 2 1 3 = true ∧
      opReady (.vshuf 2 1 3) (elementWith []) ∧ regStream (turnInput (elementWith [])).reg = false ∧ regStream 1 = true :=
  ⟨op_ready (by decide +kernel) (by decide +kernel) (by decide +kernel) nofun nofun (by decide +kernel),
    op_ready (by decide +kernel) (by decide +kernel) (by decide +kernel) nofun nofun (by decide +kernel),
    op_ready (by decide +kernel) (by decide +kernel) (by decide +kernel) nofun nofun (by decide +kernel),
    op_ready (by decide +kernel) (by decide +kernel) (by decide +kernel) nofun nofun (by decide +kernel),
    op_ready (by decide +kernel) (by decide +kernel) (by decide +kernel) nofun nofun (by decide +kernel), by decide,
    op_ready (by decide +kernel) (by decide +kernel) (by decide +kernel) nofun nofun (by decide +kernel), by decide +kernel,
    by decide⟩

/-- Floating ops in the last rounding mode, conversions between the widest pair, a reduction of each kind, finite
operands. -/
theorem witness_ElementFloatResult :
    Legal.rndOk 4 = true ∧ Legal.floatType 6 = true ∧ opReady (.vfma 6 1 4) (elementWith []) ∧
      Legal.vnarrowOk 1 4 3 0x43 = true ∧ opReady (.vnarrow 1 4 3 0x43) (elementWith []) ∧ Legal.vwidenOk 1 0 4 0xC2 = true ∧
      opReady (.vwiden 1 0 4 0xC2) (elementWith []) ∧ opReady (.mfma64 1 4) (elementWith []) ∧
      opReady (.vcmp 5 4 0) (elementWith []) ∧ Legal.vredOk 4 2 1 1 0 = true ∧ opReady (.vred 4 2 1 1 0 0) (elementWith []) ∧
      Legal.vredOk 0 3 0 0 4 = true ∧ opReady (.vred 0 3 0 0 0 4) (elementWith []) ∧ (Val.fin false 0 0).isFinite = true ∧
      (decodeFmt (fmtOfType 4) 0x7F7FFFFF).isFinite = true :=
  ⟨by decide, by decide, op_ready (by decide +kernel) (by decide +kernel) (by decide +kernel) nofun nofun (by decide +kernel),
    by decide, op_ready (by decide +kernel) (by decide +kernel) (by decide +kernel) nofun nofun (by decide +kernel),
    by decide, op_ready (by decide +kernel) (by decide +kernel) (by decide +kernel) nofun nofun (by decide +kernel),
    op_ready (by decide +kernel) (by decide +kernel) (by decide +kernel) nofun nofun (by decide +kernel),
    op_ready (by decide +kernel) (by decide +kernel) (by decide +kernel) nofun nofun (by decide +kernel),
    by decide, op_ready (by decide +kernel) (by decide +kernel) (by decide +kernel) nofun nofun (by decide +kernel),
    by decide, op_ready (by decide +kernel) (by decide +kernel) (by decide +kernel) nofun nofun (by decide +kernel),
    by decide, by decide +kernel⟩

/-- Row loads and stores at the last row and past it, slices, an atomic row, a pop, a push. -/
theorem witness_ElementMemoryResult :
    opReady (.vldm 0 0) (elementWith [(1, every 0x5FFC0)]) ∧ opReady (.vldm 0 0) (elementWith [(1, every 0x60000)]) ∧
      opReady (.vstm 7 3 0) (elementWith [(1, every 0x5FFC0)]) ∧ opReady (.vldl 0 0) (elementWith [(1, every 0x1FC)]) ∧
      opReady (.vstl 7 0 0) (elementWith [(1, every 0x200)]) ∧ opReady (.vatom 3 7 2 1) (elementWith [(1, every 0x5FFC0)]) ∧
      opReady (.vpop 0) (busyElement []) ∧ opReady (.vpush 1 2) (busyElement []) ∧ opReady (.vsend 2) (busyElement []) :=
  ⟨op_ready (by decide +kernel) (by decide +kernel) (by decide +kernel) nofun nofun (by decide +kernel),
    op_ready (by decide +kernel) (by decide +kernel) (by decide +kernel) nofun nofun (by decide +kernel),
    op_ready (by decide +kernel) (by decide +kernel) (by decide +kernel) nofun nofun (by decide +kernel),
    op_ready (by decide +kernel) (by decide +kernel) (by decide +kernel) nofun nofun (by decide +kernel),
    op_ready (by decide +kernel) (by decide +kernel) (by decide +kernel) nofun nofun (by decide +kernel),
    op_ready (by decide +kernel) (by decide +kernel) (by decide +kernel) nofun nofun (by decide +kernel),
    op_ready (by decide +kernel) (by decide +kernel) (by decide +kernel) nofun nofun (by decide +kernel),
    op_ready (by decide +kernel) (by decide +kernel) (by decide +kernel) nofun nofun (by decide +kernel),
    op_ready (by decide +kernel) (by decide +kernel) (by decide +kernel) nofun nofun (by decide +kernel)⟩

/-- A token to the array's start input, and the wait for a token that is there. -/
theorem witness_ElementMemoryResult_tokens :
    opReady (.tksend 7 8) (busyElement []) ∧ opReady (.tkwait 8) (busyElement []) ∧
      Machine.laneOut ((busyElement []).region 0) (turnIsland (busyElement [])) 0 8 = none ∧
      laneIn ((busyElement []).region 0) (turnIsland (busyElement [])) 0 8 = none ∧
      (turnUses (.tkwait 8) (busyElement [])).tpops = [] := by
  have none8 : Machine.laneOut ((busyElement []).region 0) (turnIsland (busyElement [])) 0 8 = none := by decide +kernel
  have in8 : laneIn ((busyElement []).region 0) (turnIsland (busyElement [])) 0 8 = none := by decide +kernel
  have laneIn8 : ∀ k, (8#8) = k → laneIn ((busyElement []).region 0) (turnIsland (busyElement [])) 0 k.toNat = none :=
    fun k h => h ▸ in8
  have lane : ∀ k, (8#8) = k → Machine.laneOut ((busyElement []).region 0) (turnIsland (busyElement [])) 0 k.toNat = none :=
    fun k h => h ▸ none8
  have focus : (busyElement []).focus = (0, 0) := by decide +kernel
  have tp1 : (turnUses (.tksend 7 8) (busyElement [])).tpops = [] := by decide +kernel
  have tp2 : (turnUses (.tkwait 8) (busyElement [])).tpops = [] := by decide +kernel
  have units : ∀ i, ∀ p ∈ turnUnits i (busyElement []), mapGet false (busyElement []).poison (unitKey (busyElement []) p) =
      false ∧ mapGet 0 (busyElement []).bad (unitKey (busyElement []) p) = 0 := fun _ _ _ => by
    rw [show (busyElement []).poison = [] by decide +kernel, show (busyElement []).bad = [] by decide +kernel]
    exact ⟨rfl, rfl⟩
  refine ⟨⟨⟨by decide +kernel, nofun, ?_, ?_, nofun, by decide +kernel⟩, units _⟩,
    ⟨⟨by decide +kernel, nofun, ?_, nofun, ?_, by decide +kernel⟩, units _⟩, none8, in8, tp2⟩
  · rw [tp1]
    exact nofun
  · rintro q k h n x hx
    injection h with _ hk
    rw [focus, lane k hk] at hx
    exact nomatch hx
  · rw [tp2]
    exact nofun
  · rintro k h
    injection h with hk
    rw [focus, laneIn8 k hk, ← hk]
    decide +kernel

/-- Element 0 whose first two units of memory and first unit of slices are failing and poisoned. -/
def failingElement (l : List (Nat × Nat)) : State :=
  { busyElement l with
    bad := mapSet 0 (mapSet 0 [] (elmUnit 0 0 0) 2) (lpsUnit 0 0 0) 2, poison := mapSet false [] (elmUnit 0 0 8) true }

/-- Row and slice loads, an atomic row and an accumulator read over failing units: nothing holds them. -/
theorem witness_ElementMemoryResult_units :
    let s := failingElement []
    opFree (.vldm 0 0) s ∧ opFree (.vldl 0 0) s ∧ opFree (.vatom 0 7 2 0) s ∧ opFree .mrdacc s ∧
      (false, 0) ∈ turnUnits (.vldm 0 0) s ∧ (true, 0) ∈ turnUnits (.vldl 0 0) s ∧ turnUnits .mrdacc s ≠ [] ∧
      mapGet 0 s.bad (unitKey s (false, 0)) = 2 ∧ mapGet false s.poison (unitKey s (false, 8)) = true := by
  have free {i : Instr} (pops : ∀ p ∈ (turnUses i (failingElement [])).pops, ((failingElement []).elem.ag p).head ≠ none)
      (push : opPush i = none) (turns : (turnUses i (failingElement [])).tpops = [])
      (send : ∀ q k, i ≠ .tksend q k) (wait : ∀ k, i ≠ .tkwait k)
      (banks : ∀ b ∈ opBanks i (plainIn ((failingElement []).region (failingElement []).focus.1) (failingElement []).focus.2
        (turnInput (failingElement [])).reg),
        bankMine ((failingElement []).region (failingElement []).focus.1) (failingElement []).focus.2 b = true) :
      opFree i (failingElement []) :=
    ⟨pops, fun p n h => by rw [push] at h; exact (nomatch h), fun n h => by rw [turns] at h; exact (nomatch h),
      fun q k h => absurd h (send q k), fun k h => absurd h (wait k), banks, fun _ => by decide +kernel⟩
  exact ⟨free (by decide +kernel) rfl (by decide +kernel) nofun nofun (by decide +kernel),
    free (by decide +kernel) rfl (by decide +kernel) nofun nofun (by decide +kernel),
    free (by decide +kernel) rfl (by decide +kernel) nofun nofun (by decide +kernel),
    free (by decide +kernel) rfl (by decide +kernel) nofun nofun (by decide +kernel),
    by decide +kernel, by decide +kernel, by decide +kernel, by decide +kernel, by decide +kernel⟩

/-- R359, R361, R382: a row load over a unit whose error lasts poisons it, counts a retirement of its bank and marks its
element; a whole row stored clears the marks when it takes effect, and a lane stored into a poisoned unit does not. -/
theorem test_failing_units :
    let s := failingElement []
    let t := after (.vldm 0 0) s
    let u := after (.vldl 0 0) s
    let cells := fun n : Nat => (List.range n).map fun k => (k, 0xAA#8)
    let store := fun n : Nat => storeDue (t.setElem { t.elem with flight := [(1, .elm (cells n))] }) 0 0
    mapGet false t.poison (elmUnit 0 0 0) = true ∧ t.health.retired = 1 ∧ (t.region 0).retiring = [0] ∧
      mapGet false u.poison (lpsUnit 0 0 0) = true ∧ (u.region 0).retiring = [0] ∧ u.health.retired = 0 ∧
      (store 64).poison = [] ∧ (store 64).elem.flight = [(1, .elm (cells 64))] ∧
      mapGet false (store 12).poison (elmUnit 0 0 8) = true ∧ mapGet false (store 12).poison (elmUnit 0 0 0) = false ∧
      (store 12).elem.flight = [(1, .elm (cells 8))] := by
  decide +kernel

/-- A grant request, the loads of a column from both sources at its last K block, the array and generator ops. -/
theorem witness_ElementMatrixResult :
    let s := busyElement [(1, lanes [1024 + 63, 2])]
    opReady (.shape 7 2) s ∧ opReady (.mbloadQueue 0) s ∧ s.elem.grant = some grant4 ∧ 63 < grant4.ne ∧ 1 < grant4.kb ∧
      64 ∣ grant4.ne ∧ opReady (.mbloadRegister 1 0xFF) s ∧ opReady (.mrun 2 1 0 0xFF) s ∧ opReady .mrdacc s ∧
      opReady (.mzero 1) s ∧ Legal.qstOk 1 6 = true ∧ opReady (.qst 1 1 1 2 6 7 0x1F) s ∧ Legal.vcldOk 1 4 4 = true ∧
      opReady (.vcld 1 0 4 1 4) s ∧ opReady (.agcfg 1 1 3 2) s ∧ opReady (.agbase 1) s ∧ opReady (.agrun 1 1 0) s :=
  ⟨op_ready (by decide +kernel) (by decide +kernel) (by decide +kernel) nofun nofun (by decide +kernel),
    op_ready (by decide +kernel) (by decide +kernel) (by decide +kernel) nofun nofun (by decide +kernel),
    by decide +kernel, by decide, by decide, by decide,
    op_ready (by decide +kernel) (by decide +kernel) (by decide +kernel) nofun nofun (by decide +kernel),
    op_ready (by decide +kernel) (by decide +kernel) (by decide +kernel) nofun nofun (by decide +kernel),
    op_ready (by decide +kernel) (by decide +kernel) (by decide +kernel) nofun nofun (by decide +kernel),
    op_ready (by decide +kernel) (by decide +kernel) (by decide +kernel) nofun nofun (by decide +kernel),
    by decide, op_ready (by decide +kernel) (by decide +kernel) (by decide +kernel) nofun nofun (by decide +kernel),
    by decide, op_ready (by decide +kernel) (by decide +kernel) (by decide +kernel) nofun nofun (by decide +kernel),
    op_ready (by decide +kernel) (by decide +kernel) (by decide +kernel) nofun nofun (by decide +kernel),
    op_ready (by decide +kernel) (by decide +kernel) (by decide +kernel) nofun nofun (by decide +kernel),
    op_ready (by decide +kernel) (by decide +kernel) (by decide +kernel) nofun nofun (by decide +kernel)⟩

/-- The last code, and the codes at the edge of the shared registers. -/
theorem witness_RegisterCodes : (31#5) ≠ 0 ∧ (8#5) ≠ 31 ∧ (7#5).toNat < 8 := by decide

/-- A core's turn at a misaligned pc, at a word, at a two-word instruction, at a word that is none; an element's turn;
an event's; a tick; an empty agenda. -/
theorem witness_StepRunsDecodedInstruction :
    let s := State.reset.withFetchWord 32 0x20900001
    let t := State.reset.withFetchWord 64 0x0010000032900000
    let u := { s with cur := .stew 0 }
    let v := { t with cur := .stew 0 }
    let o := { elementWith [] with agenda := [.op 0 0] }
    s.agenda = [.core (.stew 0)] ∧ coreMoves { s with agenda := [] } (.stew 0) = true ∧ u.me.pc.toNat % 4 = 0 ∧
      (fetchWord u u.me.pc.toNat).1 = .ok (leBytes 4 0x20900001) ∧ isLong 0x20900001 = false ∧
      decode (leBytes 4 0x20900001) = .ok (.addi 9 0 1, []) ∧ isLong 0x32900000 = true ∧
      (fetchWord v v.me.pc.toNat).1 = .ok (leBytes 4 0x32900000) ∧
      (fetchWord v (v.me.pc + 4).toNat).1 = .ok (leBytes 4 0x00100000) ∧
      decode (leBytes 4 0x32900000 ++ leBytes 4 0x00100000) = .ok (.li 9 0x100000, []) ∧
      (decode (leBytes 4 0xFFFFFFFF)).isOk = false ∧ (o.region 0).islandOf 0 = some (0, oneCell) ∧
      (o.region 0).awake = true ∧ o.health.crit = false ∧
      decodeOp (leBytes 3 (opWord oneCell ((o.region 0).element 0) oneCell.counter)) = .ok (.vnop, []) ∧
      State.reset.agenda = [.event (.powerOnBoot true)] ∧ (stewardWith []).agenda = [] := by
  decide +kernel

/-- Instructions of both forms at the ends of their fields, a refused guard, and words that decode. -/
theorem witness_EncodeDecodeRoundTrip :
    (Instr.li 31 0xFFFFFFFF).wf = true ∧ (Instr.li 31 0xFFFFFFFF).form = .sForm ∧ (Instr.vmovi 3 0xFF).wf = true ∧
      (Instr.vmovi 3 0xFF).form = .eForm ∧ (Instr.tksend 2 1).wf = true ∧ (Instr.tksend 2 1).form = .eForm ∧
      isLong 0x20900001 = false ∧ decodeS 0x20900001 = .ok (.addi 9 0 1) ∧ decodeE 0x043808 = .ok (.vadd 0 0 1) := by
  decide +kernel

/-- A state in canonical form whose step answers a next state. -/
theorem witness_InvariantKept :
    State.Inv (State.reset.withFetchWord 32 0x20900001) ∧ (match step (State.reset.withFetchWord 32 0x20900001) with
      | .next _ => true
      | _ => false) = true :=
  ⟨by show Memory.wf _ = true; decide, by decide +kernel⟩

/-- The same state for the placing of a word. -/
theorem witness_ResetMemoryCanonical : State.Inv (State.reset.write 0x20000000 [5#8]) := by
  show Memory.wf _ = true
  decide +kernel

end Sys2Proof.Tests
end

section
/-! SUPPORT. How the shared ends of an instruction compose: each write of the current task's record carries an `ends`
to the record that it leaves. -/

namespace Sys2Proof.Machine

theorem sameMemory.refl (s : State) : sameMemory s s := fun _ => rfl

theorem ends.refl (s : State) : ends s s s.me := ⟨rfl, onlyMe.refl s, sameMemory.refl s⟩

theorem ends.me {s t : State} {m : Task} (h : ends s t m) : t.me = m := h.1

theorem ends.cur {s t : State} {m : Task} (h : ends s t m) : t.cur = s.cur := h.2.1.cur

theorem ends.of_eq {s t : State} {m n : Task} (h : ends s t m) (e : m = n) : ends s t n := e ▸ h

/-- The registers s1 to s7 after a write of a register code (R202). -/
def setSregs (l : Map Word) (d : BitVec 5) (v : Word) : Map Word :=
  if d.toNat ≠ 0 ∧ d.toNat < 8 then mapSet 0 l d.toNat v else l

/-- The window ring after a write of a register code (R202, R223). -/
def setRing (l : Map Word) (base : Nat) (d : BitVec 5) (v : Word) : Map Word :=
  if 8 ≤ d.toNat then mapSet 0 l ((base + (d.toNat - 8)) % 56) v else l

/-- A write of a register in terms of the two register files, so that it passes every other field. -/
theorem Task.set_eq (m : Task) (d : BitVec 5) (v : Word) :
    m.set d v = { m with sregs := setSregs m.sregs d v, ring := setRing m.ring m.base d v } := by
  unfold Task.set setSregs setRing
  dsimp only
  by_cases h0 : d.toNat = 0
  · rw [if_pos h0, if_neg (by omega), if_neg (by omega)]
  · rw [if_neg h0]
    by_cases h8 : d.toNat < 8
    · rw [if_pos h8, if_pos ⟨h0, h8⟩, if_neg (by omega)]
    · rw [if_neg h8, if_neg (by omega), if_pos (by omega)]

theorem ends.retire {s t : State} {m : Task} (h : ends s t m) (d : BitVec 5) (v : Word) :
    ends s (t.retire 4 d v 0) { m.set d v with pc := m.pc + 4 } := by
  obtain rfl := h.me
  exact (h.setMe _).of_eq (by
    rw [show t.me.fflags ||| 0 = t.me.fflags from BitVec.or_zero]
    simp only [Task.set_eq]
    rfl)

theorem ends.status {s t : State} {m : Task} (h : ends s t m) (d : BitVec 5) (code value : Nat) :
    ends s (t.status d code value) { m.set d (statusWord code value) with pc := m.pc + 4 } := h.retire d _

theorem ends.advance {s t : State} {m : Task} (h : ends s t m) :
    ends s (t.advance 4) { m with pc := m.pc + 4 } := by
  obtain rfl := h.me
  exact h.setMe _

theorem ends.holdMe {s t : State} {m : Task} (h : ends s t m) (w : Hold) : ends s (t.holdMe w) { m with hold := w } := by
  obtain rfl := h.me
  exact h.setMe _

theorem ends.markCapped {s t : State} {m : Task} (h : ends s t m) (c : Bool) :
    ends s (t.markCapped c) { m with capped := m.capped || c } := by
  obtain rfl := h.me
  cases c
  · exact h.of_eq (by simp)
  · exact (h.setMe _).of_eq (by simp)

/-- A write of d that also reports a cap. -/
theorem ends.retire_capped {s t : State} {m : Task} (h : ends s t m) (d : BitVec 5) (v : Word) (c : Bool) :
    ends s ((t.retire 4 d v 0).markCapped c) { m.set d v with pc := m.pc + 4, capped := m.capped || c } :=
  ((h.retire d v).markCapped c).of_eq (by simp only [Task.set_eq])

theorem ends.readyMe {s t : State} {m : Task} (h : ends s t m) {c : CoreId} (hc : c = t.cur) :
    ends s (t.ready c) { m with hold := .ready } := by
  obtain rfl := h.me
  subst hc
  exact h.setMe _

/-- A status for a task that is then ready (R245). -/
theorem ends.answer {s t : State} {m : Task} (h : ends s t m) (d : BitVec 5) (code value : Nat) :
    ends s ((t.setMe { t.me with hold := .ready }).status d code value)
      { m.set d (statusWord code value) with pc := m.pc + 4, hold := .ready } := by
  obtain rfl := h.me
  exact ((h.setMe _).status d code value).of_eq (by simp only [Task.set_eq])

/-- The status of an instruction whose code is a byte, without a value (R245). -/
theorem statusWord_code {code : Nat} (h : code < 256) : statusWord code 0 = BitVec.ofNat 64 code := by
  unfold statusWord
  congr 1
  omega

/-- The bits that R117 gives a fence word. -/
theorem fenceWord_eq (m : Task) (at_ : Nat) (timeout capped : Bool) :
    fenceWord m at_ timeout capped = BitVec.ofNat 64 (at_ * 2 ^ 16 + min m.nfail 255 * 2 ^ 8 +
      (if timeout then 2 ^ 4 else 0) + (if capped then 2 ^ 3 else 0) + (if m.refused then 2 ^ 2 else 0) +
      (if m.deadlink then 2 ^ 1 else 0) + (if (!m.refused && !m.deadlink && !timeout) = true then 2 ^ 0 else 0)) := by
  unfold fenceWord
  rw [Bool.and_comm (!m.deadlink)]
  rfl

/-- The task that the end of a fence or a release leaves: the fence word in d and the failure counts at zero (R117,
R240). -/
def Task.released (m : Task) (d : BitVec 5) (at_ : Nat) (capped timeout : Bool) : Task :=
  { m.set d (fenceWord m at_ timeout capped) with
    pc := m.pc + 4, hold := .ready, nfail := 0, refused := false, deadlink := false }

theorem ends.endRelease {s t : State} {m : Task} (h : ends s t m) (d : BitVec 5) (scope : Nat) (capped timeout : Bool) :
    ends s (t.endRelease d scope capped timeout)
      (m.released d (if timeout then reachedScope t t.cur scope else scope) capped timeout) := by
  obtain rfl := h.me
  exact h.setMe _

/-! ### Scopes (R17) and what a release waits for (R117, R239) -/

theorem capScope_eq (s : State) (p scope : Nat) :
    capScope s p scope = (min scope (s.part p).cap.toNat, decide ((s.part p).cap.toNat < scope)) := by
  unfold capScope
  dsimp only
  split <;> rename_i h <;> simp <;> omega

theorem capMe_eq (s : State) (scope : Nat) :
    capMe s scope = (min scope (s.part (s.partOf s.cur)).cap.toNat,
      decide ((s.part (s.partOf s.cur)).cap.toNat < scope)) := capScope_eq ..

/-- A fence has nothing to wait for below its core's level, or once every store of the core has performed. -/
theorem fenceOver_iff (s : State) (c : CoreId) (scope : Nat) :
    fenceOver s c scope = true ↔ scope < coreLevel c ∨ ∀ p ∈ s.stores, p.issuer = .core c → scope ≤ p.reached := by
  simp [fenceOver, storesPending]

theorem fenceOver_eq_false_iff (s : State) (c : CoreId) (scope : Nat) :
    fenceOver s c scope = false ↔ ¬ (scope < coreLevel c ∨ ∀ p ∈ s.stores, p.issuer = .core c → scope ≤ p.reached) := by
  rw [← fenceOver_iff, Bool.not_eq_true]

theorem fenceOver_of_performed {s : State} {c : CoreId} {scope : Nat}
    (h : ∀ p ∈ s.stores, p.issuer = .core c → scope ≤ p.reached) : fenceOver s c scope = true :=
  (fenceOver_iff ..).2 (.inr h)

theorem fenceOver_of_pending {s : State} {c : CoreId} {scope : Nat}
    (h : ∃ p ∈ s.stores, p.issuer = .core c ∧ p.reached < scope) (hl : coreLevel c ≤ scope) :
    fenceOver s c scope = false := by
  obtain ⟨p, hp, hc, hr⟩ := h
  rw [fenceOver_eq_false_iff]
  rintro (hlt | hall)
  · omega
  · have := hall p hp hc
    omega

theorem releaseWait_over {s : State} {scope : Nat} (h : fenceOver s s.cur scope = true) (i : Instr) (capped : Bool)
    (f : State → State) : releaseWait s i scope capped f = f s := by
  rw [releaseWait, if_pos h]

theorem releaseWait_pending {s : State} {scope : Nat} (h : fenceOver s s.cur scope = false) (i : Instr) (capped : Bool)
    (f : State → State) :
    ends s (releaseWait s i scope capped f) { s.me with hold := .fence i scope capped (fenceLimit s) s.tick } := by
  rw [releaseWait, if_neg (by simp [h])]
  exact (ends.refl s).holdMe _

/-! ### Integers that bytes hold (R2, R234) -/

/-- A number read as a signed integer of w bits is its balanced residue. -/
theorem intRead_false_eq (w n : Nat) (h : 0 < w) : intRead w false n = Int.bmod (n : Int) (2 ^ w) := by
  unfold intRead Int.bmod
  have h2 : (2 : Nat) ^ w = 2 * 2 ^ (w - 1) := by
    rw [← Nat.pow_succ']
    congr 1
    omega
  have hp : 0 < (2 : Nat) ^ (w - 1) := Nat.two_pow_pos _
  have e : (n : Int) % ((2 ^ w : Nat) : Int) = ((n % 2 ^ w : Nat) : Int) := (Int.natCast_mod n (2 ^ w)).symm
  dsimp only
  simp only [Bool.false_or, decide_eq_true_eq]
  rw [e]
  have hm : n % 2 ^ w < 2 ^ w := Nat.mod_lt _ (Nat.two_pow_pos w)
  generalize n % 2 ^ w = m at *
  rw [h2] at hm ⊢
  generalize (2 : Nat) ^ (w - 1) = q at *
  split <;> rename_i h1 <;> split <;> omega

theorem leToNat_lt : ∀ bs : List Byte, leToNat bs < 2 ^ (8 * bs.length)
  | [] => by simp [leToNat]
  | b :: bs => by
    have ih := leToNat_lt bs
    have hb : b.toNat < 256 := b.isLt
    have hs : (2 : Nat) ^ (8 * (b :: bs).length) = 256 * 2 ^ (8 * bs.length) := by
      rw [List.length_cons, Nat.mul_add, Nat.pow_add, Nat.mul_comm]
    rw [leToNat, hs]
    omega

/-- The word that a load or an acquire leaves is the integer its bytes hold. -/
theorem extendTo64_leToNat (uns : Bool) (bs : List Byte) (h : bs ≠ []) :
    extendTo64 (8 * bs.length) uns (leToNat bs) = BitVec.ofInt 64 (bytesInt uns bs) := by
  unfold extendTo64 bytesInt
  cases uns
  · have : 0 < bs.length := List.length_pos_iff.2 h
    simp [intRead_false_eq _ _ (show 0 < 8 * bs.length by omega)]
  · simp [Nat.mod_eq_of_lt (leToNat_lt bs)]

end Sys2Proof.Machine
end

section
/-! SUPPORT. Acquires (R238) and fences (R239). -/

namespace Sys2Proof.Machine

/-! ### The settling of a fence -/

/-- Without a store whose place a fence of the core could settle, nothing changes (R116). -/
theorem State.settle_of_none {s : State} {c : CoreId}
    (h : ∀ p ∈ s.stores, p.unordered = false ∨ (p.issuer ≠ .core c ∧ s.agent c ∉ p.readers)) (n : Nat) :
    s.settle c n = s := by
  have hsel : s.stores.filter
      (fun p => p.unordered && p.issuer = .core c && decide (n ≤ p.reached) && p.floating) = [] := by
    rw [List.filter_eq_nil_iff]
    intro p hp
    rcases h p hp with hu | ⟨hi, -⟩ <;> simp [*]
  have hfix : s.stores.map (fun p => if p.unordered && p.issuer = .core c && decide (n ≤ p.reached) ||
      (p.unordered && p.readers.contains (s.agent c)) then { p with unordered := false } else p) = s.stores := by
    conv_rhs => rw [← List.map_id s.stores]
    refine List.map_congr_left fun p hp => if_neg ?_
    rcases h p hp with hu | ⟨hi, hr⟩ <;> simp [*]
  unfold State.settle
  dsimp only
  rw [hsel, if_pos (by simp), hfix]

theorem State.settle_me (s : State) (c : CoreId) (n : Nat) : (s.settle c n).me = s.me := by
  have h := congrArg State.me (State.settle_frame s c n)
  exact h

/-- A fence that has nothing to wait for settles the order of stores and gives its word (R117, R239). -/
theorem State.endFence_ends (s : State) (d : BitVec 5) (scope : Nat) (capped : Bool) :
    ends (s.settle s.cur (if scope < coreLevel s.cur then 0 else scope)) (s.endFence d scope capped false)
      (s.me.released d scope capped false) := by
  unfold State.endFence
  split
  · exact ((ends.refl _).endRelease d scope capped false).of_eq (by rw [State.settle_me]; rfl)
  · exact ((ends.refl _).endRelease d scope capped false).of_eq (by rw [State.settle_me]; rfl)

/-- What a fence at a named scope does: it ends where it has nothing to wait for, and else waits. -/
theorem fence_outcome (s : State) (i : Instr) (d : BitVec 5) (named : Nat) :
    let scope := min named (s.part (s.partOf s.cur)).cap.toNat
    let capped := decide ((s.part (s.partOf s.cur)).cap.toNat < named)
    let t := releaseWait s i (capMe s named).1 (capMe s named).2 fun t =>
      t.endFence d (capMe s named).1 (capMe s named).2 false
    (fenceOver s s.cur scope = true →
      ends (s.settle s.cur (if scope < coreLevel s.cur then 0 else scope)) t (s.me.released d scope capped false)) ∧
      (fenceOver s s.cur scope = false →
        ends s t { s.me with hold := .fence i scope capped (fenceLimit s) s.tick }) := by
  simp only [capMe_eq]
  refine ⟨fun h => ?_, fun h => releaseWait_pending h ..⟩
  rw [releaseWait_over h]
  exact State.endFence_ends ..

end Sys2Proof.Machine

namespace Sys2Proof.Settled

open Sys2Proof.Machine

/-- Settles O9: the acquire is one read at the capped scope, and then a write of d. -/
theorem acquireResult : Obligations.AcquireResult := by
  intro s u d a w uns sc bs
  dsimp only
  intro hal hlen hread
  have hne : bs ≠ [] := List.length_pos_iff.1 (hlen ▸ Nat.two_pow_pos _)
  have hw : extendTo64 (8 * 2 ^ w.toNat) (uns = 1) (leToNat bs) = BitVec.ofInt 64 (bytesInt (uns = 1) bs) := by
    rw [← extendTo64_leToNat _ _ hne, hlen]
  refine ⟨_, ?_, (ends.refl u).retire_capped d _ _⟩
  show execLdacq d a w uns sc s = _
  simp only [execLdacq, acqBytes, capMe_eq, scopeCode, hal, ne_eq, not_true, if_false, hread, hw]

/-- Settles O11: a fence and a fence.lca are one operation at the scope named or computed. -/
theorem fenceWord : Obligations.FenceWord := by
  intro s d a sc i named hi
  dsimp only
  have hexec : exec i s = .next (releaseWait s i (capMe s named).1 (capMe s named).2 fun t =>
      t.endFence d (capMe s named).1 (capMe s named).2 false) := by
    rcases hi with ⟨rfl, rfl⟩ | ⟨rfl, rfl⟩ <;> rfl
  obtain ⟨hover, hwaits⟩ := fence_outcome s i d named
  refine ⟨_, hexec, State.settle_of_none, fun h => ?_, fun hl hp => hwaits (fenceOver_of_pending hp hl)⟩
  refine (hover ((fenceOver_iff ..).2 h)).of_eq ?_
  rw [Task.released, fenceWord_eq]
  simp

end Sys2Proof.Settled
end

section
/-! SUPPORT. Translation and reads leave the control cores alone: which core moves, the regions and the steward cores
(R97 to R103, R358 to R360, R382 to R389). -/

namespace Sys2Proof.Machine

/-- The core that moves, every region and every steward core are the same. -/
def sameCores (s t : State) : Prop := t.cur = s.cur ∧ t.regions = s.regions ∧ t.stews = s.stews

theorem sameCores.refl (s : State) : sameCores s s := ⟨rfl, rfl, rfl⟩

theorem sameCores.trans {s t u : State} (h : sameCores s t) (k : sameCores t u) : sameCores s u :=
  ⟨k.1.trans h.1, k.2.1.trans h.2.1, k.2.2.trans h.2.2⟩

theorem sameCores.task {s t : State} (h : sameCores s t) (c : CoreId) : t.task c = s.task c := by
  obtain ⟨-, hr, hs⟩ := h
  cases c <;> simp only [State.task, State.region, State.stew, hr, hs]

theorem sameCores.me {s t : State} (h : sameCores s t) : t.me = s.me := by
  rw [State.me, h.1, h.task]
  rfl

/-- An answer taken apart. -/
theorem sameCores.of_snd {α : Type} {s t : State} {p : α × State} {a : α} (h : sameCores s p.2) (e : p = (a, t)) :
    sameCores s t := by
  rw [e] at h
  exact h

/-- Steps of a fold that leave the cores alone leave them alone together. -/
theorem sameCores.foldl {α : Type} {f : State → α → State} (h : ∀ t x, sameCores t (f t x)) :
    ∀ (l : List α) (t : State), sameCores t (l.foldl f t)
  | [], t => .refl t
  | x :: l, t => (h t x).trans (sameCores.foldl h l (f t x))

/-! ### Writes at home, vectors and HEALTH -/

theorem State.write_sameCores (s : State) (a : Nat) (bs : List Byte) : sameCores s (s.write a bs) := ⟨rfl, rfl, rfl⟩

theorem State.writeWord_sameCores (s : State) (a v : Nat) : sameCores s (s.writeWord a v) := ⟨rfl, rfl, rfl⟩

theorem sendVector_sameCores (s : State) (p v : Nat) : sameCores s (sendVector s p v) := by
  unfold sendVector
  dsimp only
  split
  · exact .refl s
  · exact ⟨rfl, rfl, rfl⟩

theorem State.setHealth_sameCores (s : State) (h : Health) : sameCores s (s.setHealth h) := by
  unfold State.setHealth
  dsimp only
  split
  · exact ⟨rfl, rfl, rfl⟩
  · exact sameCores.trans (t := { s with health := h }) ⟨rfl, rfl, rfl⟩
      (sameCores.foldl (fun t p => sendVector_sameCores t p 1) _ _)

theorem healthWrite_sameCores (s : State) (off : Nat) (bs : List Byte) : sameCores s (healthWrite s off bs) := by
  unfold healthWrite
  split
  · exact .refl s
  · exact s.write_sameCores _ _

theorem countTransient_sameCores (s : State) (c : Nat) (chip : Option Nat) : sameCores s (countTransient s c chip) :=
  sameCores.trans ⟨rfl, rfl, rfl⟩ (healthWrite_sameCores _ _ _)

theorem countCorrected_sameCores (s : State) (c : Nat) (chip : Option Nat) : sameCores s (countCorrected s c chip) :=
  sameCores.trans ⟨rfl, rfl, rfl⟩ (healthWrite_sameCores _ _ _)

theorem fireSnapshot_sameCores (s : State) (source : Nat) : sameCores s (fireSnapshot s source) := by
  unfold fireSnapshot
  split
  · exact .refl s
  dsimp only
  split
  · exact .refl s
  split
  · repeat' split
    all_goals exact ⟨rfl, rfl, rfl⟩
  · exact s.writeWord_sameCores _ _

theorem writeRecords_sameCores (b tick : Nat) : ∀ (l : List (Nat × Nat × Nat)) (n : Nat) (s : State),
    sameCores s (writeRecords b tick n l s)
  | [], _, s => .refl s
  | _ :: l, n, s => (s.write_sameCores _ _).trans (writeRecords_sameCores b tick l (n + 1) _)

/-- The log of a retirement. -/
theorem retireLog_sameCores (s : State) (l old : List (Nat × Nat × Nat)) :
    sameCores s (match healthBase s with
      | none => s
      | some b =>
        (writeRecords b s.tick (s.word (b + 0x1F8) - old.length) l s).writeWord (b + 0x1F8)
          ((s.word (b + 0x1F8) + 1) % 2 ^ 64)) := by
  split
  · exact .refl s
  · exact (writeRecords_sameCores _ _ l _ s).trans (State.writeWord_sameCores _ _ _)

theorem retireRecord_sameCores (s : State) (cls info addr : Nat) (no : Bool) :
    sameCores s (retireRecord s cls info addr no) := by
  unfold retireRecord
  exact (((retireLog_sameCores s _ _).trans (healthWrite_sameCores _ _ _)).trans (State.setHealth_sameCores _ _)).trans
    (fireSnapshot_sameCores _ _)

/-! ### Reads of protection units (R358, R359) -/

theorem wayOff_sameCores (s : State) (pa u : Nat) : sameCores s (wayOff s pa u) := by
  unfold wayOff
  refine sameCores.trans ?_ (retireRecord_sameCores _ _ _ _ _)
  exact ⟨rfl, rfl, rfl⟩

theorem disableWay_sameCores (s : State) (pa u : Nat) : sameCores s (disableWay s pa u).2 := by
  unfold disableWay
  refine sameCores.trans ?_ (wayOff_sameCores _ _ _)
  split
  · exact ⟨rfl, rfl, rfl⟩
  · exact .refl s

theorem readLevel_sameCores (s : State) (chip : Option Nat) (pa u : Nat) : sameCores s (readLevel s chip pa u).2 := by
  unfold readLevel
  split
  · exact .refl s
  · exact .trans (by exact ⟨rfl, rfl, rfl⟩) (countTransient_sameCores _ _ _)
  · exact .trans (by exact ⟨rfl, rfl, rfl⟩) (countCorrected_sameCores _ _ _)
  · exact disableWay_sameCores _ _ _

theorem readCache_sameCores (s : State) (chip pa : Nat) : sameCores s (readCache s chip pa).2 := by
  unfold readCache
  dsimp only
  repeat' split
  · exact .refl s
  · exact readLevel_sameCores _ _ _ _
  · exact (readLevel_sameCores _ _ _ _).trans (readLevel_sameCores _ _ _ _)

theorem readHome_sameCores (s : State) (pa : Nat) : sameCores s (readHome s pa).2 := by
  unfold readHome
  dsimp only
  repeat' split
  all_goals try exact ⟨rfl, rfl, rfl⟩
  · exact .trans (by exact ⟨rfl, rfl, rfl⟩) (countTransient_sameCores _ _ _)
  · exact .trans (by exact ⟨rfl, rfl, rfl⟩) (countCorrected_sameCores _ _ _)
  · exact .trans (by exact ⟨rfl, rfl, rfl⟩) (countTransient_sameCores _ _ _)
  · exact .trans (by exact ⟨rfl, rfl, rfl⟩) (countCorrected_sameCores _ _ _)
  · exact .trans (by exact ⟨rfl, rfl, rfl⟩) (retireRecord_sameCores _ _ _ _ _)

theorem readUnit_sameCores (s : State) (chip pa : Nat) : sameCores s (readUnit s chip pa).2 := by
  unfold readUnit
  dsimp only
  split
  · exact readCache_sameCores _ _ _
  · exact (readCache_sameCores _ _ _).trans (readHome_sameCores _ _)

theorem readUnits_sameCores (s : State) (chip pa : Nat) : ∀ n, sameCores s (readUnits s chip pa n).2
  | 0 => .refl s
  | n + 1 => by
    have ih := readUnits_sameCores s chip pa n
    unfold readUnits
    dsimp only
    split
    · exact ih.trans (readUnit_sameCores _ _ _)
    · exact ih

/-! ### Translation (R97 to R103) -/

theorem readFrameByte_sameCores (s : State) (chip pa : Nat) : sameCores s (readFrameByte s chip pa).2 := by
  unfold readFrameByte
  split
  · exact readUnits_sameCores _ _ _ _
  · exact .refl s

theorem leafCheck_sameCores (s : State) (x : XCtx) (e : Word) (lvl va pa : Nat) (k : Access) :
    sameCores s (leafCheck s x e lvl va pa k).2 := by
  unfold leafCheck
  split
  · exact .refl s
  split
  · rename_i h
    exact (readFrameByte_sameCores _ _ _).of_snd h
  · rename_i h
    have hf := (readFrameByte_sameCores _ _ _).of_snd h
    split <;> exact hf

theorem readEntry_sameCores (s : State) (x : XCtx) (a : Nat) : sameCores s (readEntry s x a).2 := by
  unfold readEntry
  dsimp only
  repeat' split
  · exact .refl s
  · exact .refl s
  · exact readUnits_sameCores _ _ _ _
  · exact readUnits_sameCores _ _ _ _

theorem fillWalk_sameCores (s : State) (x : XCtx) (va lvl pfn : Nat) : sameCores s (fillWalk s x va lvl pfn) :=
  ⟨rfl, rfl, rfl⟩

theorem walkGo_sameCores (x : XCtx) (va : Nat) (k : Access) : ∀ (l base : Nat) (s : State),
    sameCores s (walkGo x va k l base s).2.2.2
  | 0, _, s => .refl s
  | l + 1, base, s => by
    have hf := readFrameByte_sameCores s (agentChiplet x.agent) (base * 4096)
    unfold walkGo
    dsimp only
    split
    · exact hf
    split
    · exact hf
    split <;> rename_i he
    · exact hf.trans ((readEntry_sameCores _ _ _).of_snd he)
    · exact hf.trans ((readEntry_sameCores _ _ _).of_snd he)
    · have ht := hf.trans ((readEntry_sameCores _ _ _).of_snd he)
      repeat' split
      all_goals first
        | exact ht
        | exact (ht.trans (fillWalk_sameCores ..)).trans (walkGo_sameCores x va k l _ _)
        | exact ht.trans (walkGo_sameCores x va k l _ _)

theorem walkGo_sameCores_of_eq {x : XCtx} {va l base n a : Nat} {k : Access} {s t : State} {r : XRes}
    (h : walkGo x va k l base s = (r, n, a, t)) : sameCores s t := by
  have hw := walkGo_sameCores x va k l base s
  rw [h] at hw
  exact hw

theorem readGroup_sameCores (s : State) (x : XCtx) (a : Nat) (e : Word) : sameCores s (readGroup s x a e).2 := by
  unfold readGroup
  dsimp only
  split
  · exact .refl s
  · exact readUnits_sameCores _ _ _ _

theorem readGroupAt_sameCores (s : State) (x : XCtx) (a : Nat) (e : Word) (lvl : Nat) :
    sameCores s (if lvl = 1 then readGroup s x a e else (false, s)).2 := by
  split
  · exact readGroup_sameCores _ _ _ _
  · exact .refl s

theorem setAccessed_sameCores (s : State) (a : Nat) (group : Bool) : sameCores s (setAccessed s a group) := by
  have one : ∀ (t : State) (b : Nat), sameCores t (if nbit (t.word b) 4 then t else t.writeWord b (t.word b + 16)) := by
    intro t b
    split
    · exact .refl t
    · exact t.writeWord_sameCores _ _
  unfold setAccessed
  dsimp only
  split
  · exact sameCores.foldl (fun t j => one t _) _ _
  · exact one s a

theorem swapsFail_sameCores (s : State) (x : XCtx) (a : Nat) : sameCores s (swapsFail s x a).2 := by
  unfold swapsFail
  split
  · exact ⟨rfl, rfl, rfl⟩
  · exact .refl s

theorem setDirty_sameCores (s : State) (x : XCtx) (va : Nat) (t : Tlb) : sameCores s (setDirty s x va t) := by
  unfold setDirty
  dsimp only
  repeat' split
  all_goals exact ⟨rfl, rfl, rfl⟩

theorem markDirty_sameCores (s : State) (x : XCtx) (va : Nat) (k : Access) (t : Tlb) (r : Nat × Word) :
    sameCores s (markDirty s x va k t r).2 := by
  unfold markDirty
  split
  · exact .refl s
  split <;> rename_i h
  · exact (swapsFail_sameCores _ _ _).of_snd h
  · exact ((swapsFail_sameCores _ _ _).of_snd h).trans (setDirty_sameCores _ _ _ _)

theorem State.setTlb_sameCores (s : State) (agent : Nat) (l : List Tlb) : sameCores s (s.setTlb agent l) :=
  ⟨rfl, rfl, rfl⟩

/-- A leaf is marked accessed and cached. -/
theorem cacheLeaf_sameCores (s : State) (x : XCtx) (a agent : Nat) (e : Word) (lvl : Nat) (group : Bool) (l : List Tlb) :
    sameCores s ((setAccessed (if lvl = 1 then readGroup s x a e else (false, s)).2 a group).setTlb agent l) :=
  ((readGroupAt_sameCores s x a e lvl).trans (setAccessed_sameCores _ _ _)).trans (State.setTlb_sameCores _ _ _)

theorem translateMiss_sameCores (s : State) (x : XCtx) (v : Nat) (k : Access) (setD : Bool) :
    sameCores s (translateMiss s x v k setD).2 := by
  unfold translateMiss
  dsimp only
  split <;> rename_i hwalk
  · have hw : sameCores s _ := .trans (by split; exacts [⟨rfl, rfl, rfl⟩, .refl s]) (walkGo_sameCores_of_eq hwalk)
    split <;> rename_i hleaf
    · have hl := hw.trans ((leafCheck_sameCores _ _ _ _ _ _ _).of_snd hleaf)
      split
      · split <;> rename_i hd
        · exact ((hl.trans (cacheLeaf_sameCores ..)).trans ((markDirty_sameCores _ _ _ _ _ _).of_snd hd)).trans
            (State.setTlb_sameCores _ _ _)
        · exact (hl.trans (cacheLeaf_sameCores ..)).trans (markDirty_sameCores _ _ _ _ _ _)
      · exact hl.trans (cacheLeaf_sameCores ..)
    · exact hw.trans (leafCheck_sameCores _ _ _ _ _ _ _)
  · exact .trans (by split; exacts [⟨rfl, rfl, rfl⟩, .refl s]) (walkGo_sameCores_of_eq hwalk)

theorem translateHit_sameCores (s : State) (x : XCtx) (v : Nat) (k : Access) (setD : Bool) (t : Tlb) :
    sameCores s (translateHit s x v k setD t).2 := by
  unfold translateHit
  dsimp only
  split
  · exact .refl s
  split <;> rename_i he
  · exact (readEntry_sameCores _ _ _).of_snd he
  · exact (readEntry_sameCores _ _ _).of_snd he
  · have hu := (readEntry_sameCores _ _ _).of_snd he
    split
    · exact hu.trans (markDirty_sameCores _ _ _ _ _ _)
    · exact (hu.trans (State.setTlb_sameCores _ _ _)).trans (translateMiss_sameCores _ _ _ _ _)

theorem translate_sameCores (s : State) (x : XCtx) (va : Nat) (k : Access) (setD : Bool) :
    sameCores s (translate s x va k setD).2 := by
  unfold translate
  dsimp only
  split
  · exact .refl s
  split
  · repeat' split
    · exact s.setTlb_sameCores _ _
    · exact s.setTlb_sameCores _ _
    · exact (s.setTlb_sameCores _ _).trans (translateHit_sameCores _ _ _ _ _ _)
  · exact translateMiss_sameCores _ _ _ _ _

theorem translatePhys_state (s : State) (va : Nat) (k : Access) : (translatePhys s va k).2 = s := by
  unfold translatePhys
  split
  · rfl
  split <;> rfl

theorem xlate_sameCores (s : State) (x : XCtx) (va : Nat) (k : Access) (setD : Bool) :
    sameCores s (xlate s x va k setD).2 := by
  unfold xlate
  split
  · rw [translatePhys_state]
    exact .refl s
  · exact translate_sameCores _ _ _ _ _

/-! ### Accesses in pieces (R235, R236) -/

theorem piecesGo_sameCores (x : XCtx) (k : Access) (setD : Bool) : ∀ (f va n : Nat) (s : State),
    sameCores s (piecesGo x k setD f va n s).2
  | 0, _, _, s => .refl s
  | f + 1, va, n, s => by
    unfold piecesGo
    dsimp only
    split
    · exact .refl s
    split <;> rename_i hx
    · have ht := (xlate_sameCores _ _ _ _ _).of_snd hx
      split <;> rename_i hp
      · exact ht.trans ((piecesGo_sameCores x k setD f _ _ _).of_snd hp)
      · exact ht.trans ((piecesGo_sameCores x k setD f _ _ _).of_snd hp)
    · exact (xlate_sameCores _ _ _ _ _).of_snd hx
    · exact ((xlate_sameCores _ _ _ _ _).of_snd hx).trans (piecesGo_sameCores x k setD f _ _ _)

theorem pieces_sameCores (s : State) (x : XCtx) (va n : Nat) (k : Access) (setD : Bool) :
    sameCores s (pieces s x va n k setD).2 := piecesGo_sameCores x k setD _ va n s

theorem readUnordered_sameCores (s : State) (agent pa n : Nat) : sameCores s (readUnordered s agent pa n).2 := by
  unfold readUnordered
  dsimp only
  split
  · exact .refl s
  · exact ⟨rfl, rfl, rfl⟩

theorem pieceBytes_sameCores (s : State) (agent : Nat) (p : Piece) : sameCores s (pieceBytes s agent p).2 := by
  unfold pieceBytes
  split
  · exact readUnordered_sameCores _ _ _ _
  · exact .refl s

theorem readGo_sameCores (agent : Nat) : ∀ (l : List Piece) (s : State), sameCores s (readGo agent l s).2
  | [], s => .refl s
  | p :: l, s => by
    unfold readGo
    dsimp only
    split
    · split <;> rename_i h
      · exact (readGo_sameCores agent l s).of_snd h
      · exact readGo_sameCores agent l s
    have hu := readUnits_sameCores s (agentChiplet agent) p.pa p.n
    split
    · exact hu
    have hb := hu.trans (pieceBytes_sameCores _ agent p)
    split <;> rename_i h
    · exact hb.trans ((readGo_sameCores agent l _).of_snd h)
    · exact hb.trans (readGo_sameCores agent l _)

theorem readPieces_sameCores (agent part : Nat) (l : List Piece) (s : State) :
    sameCores s (readPieces agent part l s).2 := by
  unfold readPieces
  split
  · exact .refl s
  · exact readGo_sameCores agent l s

end Sys2Proof.Machine
end

section
/-! SUPPORT. Reads and stores of a task keep every register of every task: they change out-of-range records and failure
counts at most (R87, R117, R235, R236). -/

namespace Sys2Proof.Machine

/-- A task without what its accesses may record: the out-of-range record and the failure counts. -/
def Task.bare (m : Task) : Task := { m with oor := 0, nfail := 0, refused := false, deadlink := false }

/-- The core that moves is the same, and so is every task but for its records of accesses. -/
def sameRegisters (s t : State) : Prop := t.cur = s.cur ∧ ∀ c, (t.task c).bare = (s.task c).bare

theorem sameRegisters.refl (s : State) : sameRegisters s s := ⟨rfl, fun _ => rfl⟩

theorem sameRegisters.trans {s t u : State} (h : sameRegisters s t) (k : sameRegisters t u) : sameRegisters s u :=
  ⟨k.1.trans h.1, fun c => (k.2 c).trans (h.2 c)⟩

theorem sameCores.registers {s t : State} (h : sameCores s t) : sameRegisters s t :=
  ⟨h.1, fun c => congrArg Task.bare (h.task c)⟩

theorem sameRegisters.of_snd {α : Type} {s t : State} {p : α × State} {a : α} (h : sameRegisters s p.2)
    (e : p = (a, t)) : sameRegisters s t := by
  rw [e] at h
  exact h

theorem sameRegisters.me_bare {s t : State} (h : sameRegisters s t) : t.me.bare = s.me.bare := by
  rw [State.me, h.1, h.2]
  rfl

theorem sameRegisters.reg {s t : State} (h : sameRegisters s t) (r : BitVec 5) : t.reg r = s.reg r := by
  show t.me.bare.get r = s.me.bare.get r
  rw [h.me_bare]

theorem sameRegisters.base {s t : State} (h : sameRegisters s t) : t.me.base = s.me.base := by
  show t.me.bare.base = s.me.bare.base
  rw [h.me_bare]

theorem sameRegisters.low {s t : State} (h : sameRegisters s t) : t.me.low = s.me.low := by
  show t.me.bare.low = s.me.bare.low
  rw [h.me_bare]

theorem sameRegisters.wsp {s t : State} (h : sameRegisters s t) : t.me.wsp = s.me.wsp := by
  show t.me.bare.wsp = s.me.bare.wsp
  rw [h.me_bare]

/-- Steps of a fold over an answer and a state that keep every register keep them together. -/
theorem sameRegisters.foldl {α β : Type} {f : α × State → β → α × State} (h : ∀ p x, sameRegisters p.2 (f p x).2) :
    ∀ (l : List β) (p : α × State), sameRegisters p.2 (l.foldl f p).2
  | [], p => .refl p.2
  | x :: l, p => (h p x).trans (sameRegisters.foldl h l (f p x))

/-- A record written into a task keeps its registers. -/
theorem State.setTask_sameRegisters (s : State) (c : CoreId) {m : Task} (h : m.bare = (s.task c).bare) :
    sameRegisters s (s.setTask c m) := by
  refine ⟨State.setTask_cur .., fun d => ?_⟩
  by_cases e : d = c
  · subst e
    rw [State.task_setTask, h]
  · rw [State.task_setTask_ne _ _ e]

/-- A region written with the tasks it has keeps every register. -/
theorem State.setRegion_sameRegisters (s : State) (r : Nat) {g : Region} (h : g.tasks = (s.region r).tasks) :
    sameRegisters s (s.setRegion r g) := by
  refine ⟨rfl, fun c => congrArg Task.bare ?_⟩
  cases c with
  | stew c => rfl
  | seq q n =>
    by_cases e : q = r
    · subst e
      simp only [State.task, State.region_setRegion, Region.task, h]
    · simp only [State.task, State.region_setRegion_ne _ _ e]

theorem Task.oorAt_bare (m : Task) (lvl : Nat) (wr : Bool) (a : Nat) : (m.oorAt lvl wr a).bare = m.bare := by
  unfold Task.oorAt Task.bare
  split <;> rfl

theorem State.oorMe_sameRegisters (s : State) (lvl : Nat) (wr : Bool) (a : Option Nat) :
    sameRegisters s (s.oorMe lvl wr a) := by
  cases a with
  | none => exact .refl s
  | some a => exact s.setTask_sameRegisters _ (Task.oorAt_bare _ _ _ _)

theorem countFailure_sameRegisters (s : State) (who : Issuer) (dead : Bool) :
    sameRegisters s (countFailure s who dead) := by
  cases who with
  | core c => exact s.setTask_sameRegisters _ rfl
  | tracker r n => exact .refl s
  | none => exact .refl s

/-! ### Region-shared memory (R84, R359) -/

theorem readElmUnit_sameRegisters (s : State) (r e off : Nat) : sameRegisters s (readElmUnit s r e off).2 := by
  unfold readElmUnit
  dsimp only
  split
  · exact .refl s
  split
  · exact .refl s
  · exact (sameCores.trans (by exact ⟨rfl, rfl, rfl⟩) (countTransient_sameCores _ _ _)).registers
  · exact (sameCores.trans (by exact ⟨rfl, rfl, rfl⟩) (countCorrected_sameCores _ _ _)).registers
  · refine sameRegisters.trans (sameRegisters.trans ?_ (State.setRegion_sameRegisters _ r ?_))
      (retireRecord_sameCores _ _ _ _ _).registers
    · exact sameCores.registers ⟨rfl, rfl, rfl⟩
    · rfl

theorem noteSpill_sameRegisters (s : State) (r e b : Nat) : sameRegisters s (noteSpill s r e b) := by
  unfold noteSpill
  split
  · exact .refl s
  · exact sameCores.registers ⟨rfl, rfl, rfl⟩

theorem readRsm_sameRegisters (s : State) (r a n : Nat) : sameRegisters s (readRsm s r a n).2 := by
  unfold readRsm
  split
  · exact noteSpill_sameRegisters _ _ _ _
  · have hf : sameRegisters s ((upTo n).foldl (fun (acc : Bool × State) i =>
        let b := (a + i) % 2 ^ 27
        if elmReach (s.region r) (rsmElem b) (rsmOff b) && (i = 0 || b % 8 = 0) then
          let (x, t) := readElmUnit acc.2 r (rsmElem b) (rsmOff b)
          (acc.1 || x, t)
        else acc) (false, s)).2 := by
      refine sameRegisters.foldl (fun p i => ?_) (upTo n) (false, s)
      dsimp only
      split
      · exact readElmUnit_sameRegisters _ _ _ _
      · exact .refl _
    dsimp only
    split <;> exact hf

theorem Region.rsmSet_tasks (g : Region) (a : Nat) (b : Byte) : (g.rsmSet a b).tasks = g.tasks := by
  unfold Region.rsmSet
  split <;> rfl

theorem Region.rsmSetN_tasks : ∀ (bs : List Byte) (g : Region) (a : Nat), (g.rsmSetN a bs).tasks = g.tasks
  | [], _, _ => rfl
  | b :: bs, g, _ => (Region.rsmSetN_tasks bs _ _).trans (g.rsmSet_tasks _ b)

theorem writeRsm_sameRegisters (s : State) (r a : Nat) (bs : List Byte) : sameRegisters s (writeRsm s r a bs).2 := by
  unfold writeRsm
  dsimp only
  split
  · exact noteSpill_sameRegisters _ _ _ _
  split
  · exact .refl s
  · refine (State.setRegion_sameRegisters s r (Region.rsmSetN_tasks bs (s.region r) a)).trans ?_
    exact sameCores.registers ⟨rfl, rfl, rfl⟩

/-! ### Reads and stores of the current task -/

theorem coreRead_sameRegisters (s : State) (va n : Nat) (k : Access) (code : Nat) :
    sameRegisters s (coreRead s va n k code).2 := by
  unfold coreRead
  split
  · split
    · exact .refl s
    split <;> rename_i h
    · exact ((readRsm_sameRegisters _ _ _ _).of_snd h).trans (State.oorMe_sameRegisters _ _ _ _)
    · exact (readRsm_sameRegisters _ _ _ _).of_snd h
    · exact (readRsm_sameRegisters _ _ _ _).of_snd h
  · split <;> rename_i h
    · have hp := ((pieces_sameCores _ _ _ _ _ _).of_snd h).registers
      split
      · exact hp
      split <;> rename_i hr
      · exact (hp.trans ((readPieces_sameCores _ _ _ _).of_snd hr).registers).trans (State.oorMe_sameRegisters _ _ _ _)
      · exact hp.trans ((readPieces_sameCores _ _ _ _).of_snd hr).registers
    · exact ((pieces_sameCores _ _ _ _ _ _).of_snd h).registers

theorem issuePiece_sameRegisters (s : State) (p : Piece) (bs : List Byte) (code : Nat) (placed : Bool) :
    sameRegisters s (issuePiece s p bs code placed) := by
  unfold issuePiece
  split
  · exact .refl s
  split
  · exact countFailure_sameRegisters _ _ _
  · exact sameCores.registers ⟨rfl, rfl, rfl⟩

theorem issuePieces_sameRegisters (code : Nat) (placed : Bool) : ∀ (l : List Piece) (bs : List Byte) (s : State),
    sameRegisters s (issuePieces code placed l bs s)
  | [], _, s => .refl s
  | p :: l, _, s =>
    (issuePiece_sameRegisters s p _ code placed).trans (issuePieces_sameRegisters code placed l _ _)

theorem coreWrite_sameRegisters (s : State) (va : Nat) (bs : List Byte) (code : Nat) (spills : Bool) :
    sameRegisters s (coreWrite s va bs code spills).2 := by
  unfold coreWrite
  split
  · split <;> rename_i h
    · exact ((writeRsm_sameRegisters _ _ _ _).of_snd h).trans (State.oorMe_sameRegisters _ _ _ _)
    · exact ((writeRsm_sameRegisters _ _ _ _).of_snd h).trans (countFailure_sameRegisters _ _ _)
    · exact (writeRsm_sameRegisters _ _ _ _).of_snd h
  · split <;> rename_i h
    · have hp := ((pieces_sameCores _ _ _ _ _ _).of_snd h).registers
      split
      · exact hp
      · exact (hp.trans (issuePieces_sameRegisters _ _ _ _ _)).trans (State.oorMe_sameRegisters _ _ _ _)
    · have hp := ((pieces_sameCores _ _ _ _ _ _).of_snd h).registers
      split
      · exact hp
      · exact hp.trans (countFailure_sameRegisters _ _ _)
    · exact ((pieces_sameCores _ _ _ _ _ _).of_snd h).registers

end Sys2Proof.Machine
end

section
/-! SUPPORT. Atomics (R241 to R243), traps to K (R340 to R343) and waiting on a word (R280). -/

namespace Sys2Proof.Machine

/-! ### The function of an atomic (R241) -/

theorem amoLess_false (n x y : Nat) (h : 0 < n) :
    amoLess n false x y = decide (Int.bmod (x : Int) (2 ^ (8 * n)) < Int.bmod (y : Int) (2 ^ (8 * n))) := by
  rw [amoLess, intRead_false_eq _ _ (by omega), intRead_false_eq _ _ (by omega)]

theorem amoLess_true (n x y : Nat) : amoLess n true x y = decide (x % 2 ^ (8 * n) < y % 2 ^ (8 * n)) := by
  simp only [amoLess, intRead, Bool.true_or, if_true, Int.ofNat_lt]

theorem amoBytes_pos (w : BitVec 1) : 0 < amoBytes w := by
  unfold amoBytes
  split <;> omega

/-- An atomic whose stores have performed, or that does not release, is the read-modify-write alone (R243). -/
theorem amo_performs {s v : State} {i : Instr} {d a : BitVec 5} {w : BitVec 1} {o : BitVec 2} {sc : BitVec 3}
    {f : Nat → Option Nat} (hal : (s.reg a).toNat % amoBytes w = 0)
    (hv : (o.getLsbD 1 = false ∧ v = s) ∨
      (o.getLsbD 1 = true ∧ fenceOver v s.cur (capMe s (scopeAt s sc.toNat (s.reg a).toNat .atomic)).1 = true ∧
        ((∃ r k, s.cur = .seq r k ∧ isRsm (s.reg a).toNat = true ∧ v = s) ∨
          ((∀ r k, s.cur = .seq r k → isRsm (s.reg a).toNat = false) ∧
            ∃ l, pieces s (coreCtx s s.cur) (s.reg a).toNat (amoBytes w) .atomic true = (.ok l, v))))) :
    amo i d a w o sc f s = .next (performAmo i d (s.reg a).toNat (amoBytes w)
      (capMe s (scopeAt s sc.toNat (s.reg a).toNat .atomic)).2
      (capMe s (scopeAt s sc.toNat (s.reg a).toNat .atomic)).1 f v) := by
  unfold amo releases
  dsimp only
  rw [if_neg (not_not_intro hal)]
  rcases hv with ⟨ho, rfl⟩ | ⟨ho, hover, ⟨r, k, hc, hrsm, rfl⟩ | ⟨hrsm, l, hp⟩⟩
  · rw [ho]
    rfl
  · rw [if_neg (by simp [ho]), hrsm]
    simp only [hc] at hover ⊢
    rw [releaseWait_over (by rw [hc]; exact hover)]
  · have hcur : v.cur = s.cur := ((pieces_sameCores _ _ _ _ _ _).of_snd hp).1
    rw [if_neg (by simp [ho])]
    split
    · rename_i r k hc hr
      rw [hrsm r k hc] at hr
      cases hr
    · rw [hp]
      dsimp only
      rw [releaseWait_over (by rw [hcur]; exact hover)]

/-- What an atomic leaves: the old value, sign-extended, in d (R241). -/
theorem performAmo_ends {v u : State} {va n old sc : Nat} {f : Nat → Option Nat} (hn : 0 < n)
    (h : coreAtomic v va n f (scopeCode sc) = (.ok old, u)) (i : Instr) (d : BitVec 5) (capped : Bool) :
    ends u (performAmo i d va n capped sc f v) { u.me.set d (BitVec.ofInt 64 (Int.bmod (old : Int) (2 ^ (8 * n)))) with
      pc := u.me.pc + 4, hold := .ready, capped := u.me.capped || capped } := by
  have hw : extendTo64 (8 * n) false old = BitVec.ofInt 64 (Int.bmod (old : Int) (2 ^ (8 * n))) := by
    rw [← intRead_false_eq _ _ (by omega)]
    rfl
  unfold performAmo
  rw [h]
  dsimp only
  rw [hw]
  have he := (ends.refl u).retire_capped d (BitVec.ofInt 64 (Int.bmod (old : Int) (2 ^ (8 * n)))) capped
  exact he.readyMe he.cur.symm

/-! ### Traps to K -/

/-- R342: the handler's address. -/
theorem kVector_eq (s : State) (p : Nat) :
    kVector s p = BitVec.ofInt 64 (Int.bmod ((s.part p).kvec.toNat % 2 ^ 57 / 4 * 4 : Nat) (2 ^ 57)) := by
  unfold kVector va64 nbits Int.bmod
  have hlt : (s.part p).kvec.toNat < 2 ^ 64 := (s.part p).kvec.isLt
  have e : (s.part p).kvec.toNat / 2 ^ 2 % 2 ^ (56 + 1 - 2) * 4 = (s.part p).kvec.toNat % 2 ^ 57 / 4 * 4 := by omega
  rw [e]
  generalize hx : (s.part p).kvec.toNat % 2 ^ 57 / 4 * 4 = x
  have hx57 : x < 2 ^ 57 := by omega
  apply BitVec.eq_of_toNat_eq
  rw [BitVec.toNat_ofNat, BitVec.toNat_ofInt]
  dsimp only
  split <;> split <;> omega

theorem causeWord_eq (t : Trap) (l : Level) (h : t.code < 256) : causeWord t l = recordWord l t.info t.code := by
  unfold causeWord recordWord
  rw [show t.code % 2 ^ 8 = t.code from Nat.mod_eq_of_lt h]

theorem takeK_entersK (s : State) (t : Trap) (h : t.code < 256) :
    entersK s (takeK s t) t.code t.info t.pc t.val := by
  refine (State.setMe_ends s _).of_eq ?_
  rw [causeWord_eq t _ h, kVector_eq]

/-- A task at U, or at K without a live record, takes a precise trap to K (R343, R344). -/
theorem State.trap_entersK (s : State) {code : Nat} (info : Nat) (val : Word) (hc : code < 256)
    (hl : s.me.level = .u ∨ (s.me.level = .k ∧ s.me.kcause.getLsbD 63 = false)) :
    entersK s (s.trap code info val) code info s.me.pc val := by
  have hk : (s.me.level = .k && isLive s.me.kcause) = false := by
    rcases hl with h | ⟨h, hl⟩
    · simp [h]
    · rw [isLive, hl, Bool.and_false]
  have hh : s.me.level ≠ .h := by
    rcases hl with h | ⟨h, -⟩ <;> rw [h] <;> decide
  have e : s.trap code info val = takeK s { code := code, info := info, pc := s.me.pc, val := val } := by
    unfold State.trap State.take
    dsimp only
    split
    · rw [hk]
      rfl
    · rw [if_neg hh, hk]
      rfl
  rw [e]
  exact takeK_entersK s _ hc

/-! ### Waiting on a word -/

/-- One reading of the word by a waiting or issuing task (R280). -/
theorem waitaStep_ends {s u : State} {d a b : BitVec 5} {bs : List Byte} (hlen : bs.length = 8)
    (hread : coreRead s (s.reg a).toNat 8 .read (scopeCode (capMe s 7).1) = (.ok bs, u)) (changed : Bool) :
    (changed = false → leToNat bs = (u.reg b).toNat →
      ends u (waitaStep d a b changed s)
        { u.me with hold := .wait (.waita d a b), capped := u.me.capped || (capMe u 7).2 }) ∧
      (changed = true ∨ leToNat bs ≠ (u.reg b).toNat →
        ends u (waitaStep d a b changed s) { u.me.set d (BitVec.ofNat 64 (leToNat bs % 2 ^ 32 * 2 ^ 32)) with
          pc := u.me.pc + 4, hold := .ready, capped := u.me.capped || (capMe u 7).2 }) := by
  have hreg : u.reg b = s.reg b := ((coreRead_sameRegisters s _ _ _ _).of_snd hread).reg b
  have hlt : leToNat bs < 2 ^ 64 := by
    have := leToNat_lt bs
    rwa [hlen] at this
  have heq : (BitVec.ofNat 64 (leToNat bs) = s.reg b) ↔ leToNat bs = (u.reg b).toNat := by
    rw [hreg, ← BitVec.toNat_inj, BitVec.toNat_ofNat, Nat.mod_eq_of_lt hlt]
  have hm := (ends.refl u).markCapped (capMe u 7).2
  unfold waitaStep
  rw [hread]
  dsimp only
  refine ⟨fun hc hw => ?_, fun hc => ?_⟩
  · rw [if_pos (by simp [hc, heq.2 hw])]
    exact hm.holdMe _
  · rw [if_neg (by rcases hc with h | h <;> simp [h, heq])]
    refine (hm.answer d stOK (leToNat bs % 2 ^ 32)).of_eq ?_
    have hst : statusWord stOK (leToNat bs % 2 ^ 32) = BitVec.ofNat 64 (leToNat bs % 2 ^ 32 * 2 ^ 32) := by
      simp [statusWord, stOK]
    simp only [hst, Task.set_eq]

end Sys2Proof.Machine

namespace Sys2Proof.Settled

open Sys2Proof.Machine

/-- Settles O10: the ten atomics are one operation with the function that each names. -/
theorem atomicResult : Obligations.AtomicResult := by
  intro s v u d a b w o sc old i g
  dsimp only
  intro hi hal _ hv hat
  have hfun : g = amoFun s i ∧ exec i s = amo i d a w o sc (amoFun s i) s := by
    have hn := amoBytes_pos w
    rcases hi with h | h | h | h | h | h | h | h | h | h <;> obtain ⟨rfl, rfl⟩ := h <;> refine ⟨funext fun x => ?_, rfl⟩
    case inr.inr.inr.inr.inl =>
      simp only [amoFun, amoMin, amoLess_false _ _ _ hn, decide_eq_true_eq]
      rfl
    case inr.inr.inr.inr.inr.inl =>
      simp only [amoFun, amoMax, amoLess_false _ _ _ hn, decide_eq_true_eq]
      rfl
    case inr.inr.inr.inr.inr.inr.inl =>
      simp only [amoFun, amoMin, amoLess_true, amoOperand, Nat.mod_mod, decide_eq_true_eq]
      rfl
    case inr.inr.inr.inr.inr.inr.inr.inl =>
      simp only [amoFun, amoMax, amoLess_true, amoOperand, Nat.mod_mod, decide_eq_true_eq]
      rfl
    all_goals rfl
  obtain ⟨rfl, hexec⟩ := hfun
  refine ⟨_, hexec.trans (amo_performs (v := v) hal ?_), ?_⟩
  · rw [capMe_eq]
    exact hv
  · rw [capMe_eq]
    exact performAmo_ends (amoBytes_pos w) hat i d _

/-- Settles O38: each reading is one step, which RELEASE repeats, and a misaligned address traps before it. -/
theorem waitOnWordResult : Obligations.WaitOnWordResult := by
  intro s d a b
  refine ⟨fun c i s0 u bs changed hi hread hlen hcur => ?_, fun hal hl => ?_⟩
  · have hexec : exec i s = .next (waitaStep d a b changed s0) := by
      rcases hi with ⟨rfl, rfl, rfl, rfl, hal⟩ | ⟨hh, rfl, rfl⟩
      · show execWaita d a b s0 = _
        rw [execWaita, if_neg (not_not_intro hal)]
      · show execWaitaRelease c s = _
        unfold execWaitaRelease
        rw [hh]
        cases changed <;> rfl
    have h := waitaStep_ends (d := d) (b := b) hlen (by rw [capMe_eq]; exact hread) changed
    rw [capMe_eq] at h
    exact ⟨_, hexec, h⟩
  · refine ⟨_, ?_, (s.trap_entersK 0 (s.reg a) (by decide) hl : entersK s (s.trap 3 0 (s.reg a)) 3 0 s.me.pc (s.reg a))⟩
    show execWaita d a b s = _
    rw [execWaita, if_pos hal, State.misaligned, BitVec.ofNat_toNat, BitVec.setWidth_eq]
    rfl

end Sys2Proof.Settled
end

section
/-! SUPPORT. Messages (R275, R276). -/

namespace Sys2Proof.Machine

/-- The first register of a list is the one it starts from (R201, R246). -/
theorem Task.listFrom_head (m : Task) (a : BitVec 5) (n : Nat) : (m.listFrom a n).getD 0 0 = m.get a := by
  simp [Task.listFrom, upTo, List.range_succ_eq_map]

/-- A message placed: its status goes to d and its outcome to SENDST (R275). -/
theorem placeMessage_ends {s u : State} {d a : BitVec 5} {code st : Nat}
    (h : sendMessage s (coreKctx s s.cur) ((s.reg a).toNat % 4096) ((s.me.listFrom a 3).drop 1) (senderWord s) =
      (code, st, u)) (hcode : code < 256) (capped : Bool) :
    ends u (placeMessage d a capped s) { u.me.set d (BitVec.ofNat 64 code) with
      pc := u.me.pc + 4, hold := .ready, sendst := BitVec.ofNat 3 st, capped := u.me.capped || capped } := by
  unfold placeMessage
  dsimp only
  rw [Task.listFrom_head, show s.me.get a = s.reg a from rfl, h, ← statusWord_code hcode]
  exact ((((ends.refl u).setMe { u.me with sendst := BitVec.ofNat 3 st, hold := .ready }).markCapped capped).status
    d code 0).of_eq (by simp only [Task.set_eq])

/-! ### The outcomes of placing a message, by the state of its endpoint (R31, R32, R275) -/

section
variable {s u : State} {x : XCtx} {h e : Nat} (p : List Word) (w : Word)

theorem sendMessage_zero (s : State) (x : XCtx) : sendMessage s x 0 p w = (5, 4, s) := rfl

theorem sendMessage_unused (h0 : h ≠ 0) (he : endpointGet s x h = (some e, u)) (hs : epState e = 0) :
    sendMessage s x h p w = (5, 4, u) := by
  unfold sendMessage
  rw [if_neg h0, he]
  dsimp only
  rw [if_pos (by simp [hs])]
  rfl

theorem sendMessage_exited (h0 : h ≠ 0) (he : endpointGet s x h = (some e, u)) (hr : epRegion e ≤ 639)
    (hs : epState e = 3) : sendMessage s x h p w = (23, 3, u) := by
  unfold sendMessage
  rw [if_neg h0, he]
  dsimp only
  rw [if_neg (by simp [hs]; omega), if_pos hs]
  rfl

theorem sendMessage_saved (h0 : h ≠ 0) (he : endpointGet s x h = (some e, u)) (hr : epRegion e ≤ 639)
    (hs : epState e = 2) {v0 v1 v2 : State} {i j : Nat} {o1 o2 : Option Nat}
    (hix : mboxIndices u (mailCtx u (epRegion e) x.part 2) (epMbox e) = (some (i, j), v0))
    (hroom : (i + 2 ^ 64 - j) % 2 ^ 64 < 126)
    (hm : writeVirt (noteBox v0 x.part h (some (i, j))) (mailCtx u (epRegion e) x.part 2)
      (epMbox e + 0x40 + 32 * (i % 126)) ((p ++ [w]).flatMap fun z => natToLe z.toNat 8) true = (.ok o1, v1))
    (hi : writeVirt v1 (mailCtx u (epRegion e) x.part 2) (epMbox e) (natToLe ((i + 1) % 2 ^ 64) 8) true = (.ok o2, v2)) :
    sendMessage s x h p w = (22, 1, noteBox v2 x.part h (some (1, 0))) := by
  unfold sendMessage
  rw [if_neg h0, he]
  dsimp only
  rw [if_neg (by simp [hs]; omega), hs, if_neg (show ¬ (2 : Nat) = 3 by decide),
    if_neg (show ¬ (2 : Nat) = 1 by decide), hix]
  dsimp only
  rw [if_neg (by simp), if_neg (by omega), hm]
  dsimp only
  rw [hi]
  rfl

theorem sendMessage_placed (h0 : h ≠ 0) (he : endpointGet s x h = (some e, u)) (hr : epRegion e ≤ 639)
    (hs : epState e = 1) {v0 : State} {ix : Option (Nat × Nat)}
    (hix : mboxIndices (mboxMove (mailCtx u (epRegion e) x.part 1) (epRegion e) (epSlot e) (epMbox e) 17 u)
      (mailCtx u (epRegion e) x.part 1) (epMbox e) = (ix, v0))
    (hnone : ix = none → boxHolds (noteBox v0 x.part h ix) x.part h = false)
    (hsome : ∀ i j, ix = some (i, j) → i = j)
    (hroom : ((noteBox v0 x.part h ix).region (epRegion e)).queue.length < 16) :
    sendMessage s x h p w = (0, 0, (noteBox v0 x.part h ix).setRegion (epRegion e)
      { (noteBox v0 x.part h ix).region (epRegion e) with
        queue := ((noteBox v0 x.part h ix).region (epRegion e)).queue ++
          [{ slot := epSlot e, payload := p, sender := w }] }) := by
  unfold sendMessage
  rw [if_neg h0, he]
  dsimp only
  rw [if_neg (by simp [hs]; omega), hs, if_neg (show ¬ (1 : Nat) = 3 by decide), if_pos rfl, hix]
  dsimp only
  rw [if_pos ?_]
  · rfl
  · cases ix with
    | none => simp [hnone rfl, hroom]
    | some q => simp [hsome q.1 q.2 rfl, hroom]

end

/-! ### Receiving (R276) -/

/-- The oldest message of a slot, and the queue without it. -/
theorem takeMessage_eq_some {n : Nat} {x : Message} (hx : x.slot = n) (after : List Message) :
    ∀ before : List Message, (∀ y ∈ before, y.slot ≠ n) →
      takeMessage n (before ++ x :: after) = some (x, before ++ after)
  | [], _ => by simp [takeMessage, hx]
  | y :: before, h => by
    have ih := takeMessage_eq_some hx after before fun z hz => h z (List.mem_cons_of_mem _ hz)
    simp [takeMessage, h y List.mem_cons_self, ih]

theorem takeMessage_eq_none {n : Nat} : ∀ l : List Message, (∀ y ∈ l, y.slot ≠ n) → takeMessage n l = none
  | [], _ => rfl
  | y :: l, h => by
    have ih := takeMessage_eq_none l fun z hz => h z (List.mem_cons_of_mem _ hz)
    simp [takeMessage, h y List.mem_cons_self, ih]

/-- A task without a message waits (R276). -/
theorem receive_waits {u : State} {r n : Nat} (h : ∀ x ∈ (u.region r).queue, x.slot ≠ n) (d : BitVec 5) :
    ends u (receive d r n u) { u.me with hold := .wait (.recvm d) } := by
  unfold receive
  rw [takeMessage_eq_none _ h]
  exact (ends.refl u).holdMe _

/-- Another queue of the current task's region leaves the task as it is. -/
theorem State.me_setRegion_queue (u : State) {r n : Nat} (hc : u.cur = .seq r n) (q : List Message) :
    (u.setRegion r { u.region r with queue := q }).me = u.me := by
  simp [State.me, State.task, hc, Region.task]

/-- A message taken leaves the queue for the registers of its task (R276). -/
theorem receive_takes {u : State} {r n : Nat} {before after : List Message} {x : Message} (hc : u.cur = .seq r n)
    (hq : (u.region r).queue = before ++ x :: after) (hx : x.slot = n) (hb : ∀ y ∈ before, y.slot ≠ n) (d : BitVec 5) :
    let v := u.setRegion r { u.region r with queue := before ++ after }
    ends v (receive d r n u) { u.me.setMessage d x.payload (x.sender &&& 0x7FFFFFFFFFFFFFFF#64) with
      pc := u.me.pc + 4, hold := .ready } := by
  intro v
  have hme : v.me = u.me := State.me_setRegion_queue u hc _
  unfold receive
  rw [hq, takeMessage_eq_some hx after before hb]
  dsimp only
  refine (((ends.refl v).setMe _).advance).of_eq ?_
  rw [hme]
  simp only [Task.setMessage, Task.set_eq]
  rfl

theorem onlyRegion.trans {r : Nat} {s t u : State} (h : onlyRegion r s t) (k : onlyRegion r t u) : onlyRegion r s u := by
  obtain ⟨h1, h2⟩ := h
  obtain ⟨k1, k2⟩ := k
  refine ⟨?_, fun q hq => (k2 q hq).trans (h2 q hq)⟩
  rw [← h1, ← k1]

theorem State.setRegion_onlyRegion (s : State) (r : Nat) (g : Region) : onlyRegion r s (s.setRegion r g) :=
  ⟨rfl, fun _ hq => State.region_setRegion_ne _ _ hq⟩

theorem State.setMe_onlyRegion {s : State} {r n : Nat} (hc : s.cur = .seq r n) (m : Task) :
    onlyRegion r s (s.setMe m) := by
  rw [State.setMe, hc]
  exact s.setRegion_onlyRegion r _

/-- Taking a message changes one region and no byte of memory. -/
theorem receive_onlyRegion {u : State} {r n : Nat} (hc : u.cur = .seq r n) (d : BitVec 5) :
    onlyRegion r u (receive d r n u) := by
  unfold receive
  split
  · exact State.setMe_onlyRegion hc _
  · refine ((u.setRegion_onlyRegion r _).trans (State.setMe_onlyRegion (n := n) ?_ _)).trans
      (State.setMe_onlyRegion (n := n) ?_ _)
    · exact hc
    · rw [State.setMe_cur]
      exact hc

/-- Of a region whose queue was written, an instruction of one of its tasks changes that task alone. -/
theorem ends.region_frame {u t : State} {r n : Nat} {m : Task} {q : List Message} (hc : u.cur = .seq r n)
    (h : ends (u.setRegion r { u.region r with queue := q }) t m) :
    { t.region r with tasks := [] } = { u.region r with tasks := [], queue := q } ∧
      (∀ j, j ≠ n → (t.region r).task j = (u.region r).task j) ∧ sameMemory u t := by
  obtain ⟨-, ⟨-, ht, hr, -⟩, hmem⟩ := h
  refine ⟨?_, fun j hj => ?_, hmem⟩
  · rw [hr r, State.region_setRegion]
  · have := ht (.seq r j) (by simp [hc, hj])
    simpa [State.task, Region.task] using this

end Sys2Proof.Machine

namespace Sys2Proof.Settled

open Sys2Proof.Machine

/-- Settles O36: each outcome of a send is one path through the placing, and a receive takes the oldest message. -/
theorem messageResult : Obligations.MessageResult := by
  intro s d a
  refine ⟨?_, ?_, fun x p w => ⟨sendMessage_zero p w s x, fun h e u h0 he hr => ⟨sendMessage_unused p w h0 he,
    sendMessage_exited p w h0 he hr, ?_, ?_⟩⟩, ?_, ?_⟩
  · intro u code st scope
    dsimp only
    intro hscope hsend hcode _
    rcases hscope with ⟨hnone, rfl⟩ | ⟨hsome, hover⟩
    · refine ⟨_, ?_, placeMessage_ends hsend hcode _⟩
      show execSendm d a s = _
      rw [execSendm, hnone]
      rfl
    · refine ⟨_, ?_, placeMessage_ends hsend hcode _⟩
      show execSendm d a s = _
      rw [execSendm, hsome]
      dsimp only
      rw [capMe_eq, releaseWait_over hover]
  · intro scope hsome cap hover
    refine ⟨_, ?_, releaseWait_pending hover (.sendm d a) _ (placeMessage d a (decide (cap < scope)))⟩
    show execSendm d a s = _
    rw [execSendm, hsome]
    dsimp only
    rw [capMe_eq]
  · intro v0 v1 v2 i j o1 o2 hs y hix hroom hm hi
    exact sendMessage_saved p w h0 he hr hs hix hroom hm hi
  · intro v0 v ix hs
    dsimp only
    intro hix hv hnone hsome hroom
    subst hv
    exact ⟨_, sendMessage_placed p w h0 he hr hs hix hnone hsome hroom, State.region_setRegion _ _ _,
      State.setRegion_onlyRegion _ _ _⟩
  · intro r n i u hi hcur
    have hexec : exec i s = .next (receive d r n u) := by
      rcases hi with ⟨rfl, hc, rfl⟩ | ⟨rfl, hh, rfl⟩
      · show execRecvm d s = _
        rw [execRecvm, hc]
      · show execRecvmRelease (.seq r n) s = _
        unfold execRecvmRelease
        rw [show (s.task (.seq r n)).hold = .wait (.recvm d) from hh]
    refine ⟨fun hq => ⟨_, hexec, receive_waits hq d⟩, fun before x after hq hx hb => ⟨_, hexec, ?_⟩⟩
    have h := receive_takes hcur hq hx hb d
    obtain ⟨hregion, htasks, hmem⟩ := h.region_frame hcur
    exact ⟨h.me, hregion, htasks, receive_onlyRegion hcur d, hmem⟩
  · intro c hc
    refine ⟨_, ?_, ((ends.refl s).setMe (s.me.setMessage d [] (1#64 <<< 63))).advance.of_eq ?_⟩
    · show execRecvm d s = _
      rw [execRecvm, hc]
    · simp only [Task.setMessage, Task.set_eq]
      rfl

end Sys2Proof.Settled
end

section
/-! SUPPORT. Barriers (R277 to R279). -/

namespace Sys2Proof.Machine

/-! ### The entries and the bindings of barriers -/

@[simp] theorem State.barrier_setBarrier (s : State) (u : Nat × Nat) (b : Option Barrier) :
    mapGet none (s.setBarrier u b).barriers (u.1 * 1024 + u.2) = b := mapGet_mapSet_same _ _ _ _

theorem State.barrier_setBarrier_ne (s : State) (u : Nat × Nat) (b : Option Barrier) {k : Nat}
    (h : k ≠ u.1 * 1024 + u.2) : mapGet none (s.setBarrier u b).barriers k = mapGet none s.barriers k :=
  mapGet_mapSet_ne _ _ _ h

@[simp] theorem bindBarrier_barriers (s : State) (p h : Nat) (u : Option (Nat × Nat)) :
    (bindBarrier s p h u).barriers = s.barriers := rfl

@[simp] theorem barBinding_bindBarrier (s : State) (p h : Nat) (u : Option (Nat × Nat)) :
    barBinding (bindBarrier s p h u) p h = u := by
  simp [barBinding, bindBarrier]

theorem bindBarrier_sameCores (s : State) (p h : Nat) (u : Option (Nat × Nat)) : sameCores s (bindBarrier s p h u) :=
  ⟨rfl, rfl, rfl⟩

theorem State.setBarrier_sameCores (s : State) (u : Nat × Nat) (b : Option Barrier) : sameCores s (s.setBarrier u b) :=
  ⟨rfl, rfl, rfl⟩

/-- The lowest entry that is free is the one found (R277). -/
theorem freeBarrier_eq_some {s : State} {c e : Nat} (he : e < 1024) (hfree : s.barrier (c, e) = none)
    (hlow : ∀ j, j < e → s.barrier (c, j) ≠ none) : freeBarrier s c = some e := by
  unfold freeBarrier upTo
  rw [List.find?_range_eq_some]
  simp only [decide_eq_true_eq, List.mem_range, Bool.not_eq_true', decide_eq_false_iff_not]
  exact ⟨hfree, he, hlow⟩

theorem State.status_barriers (s : State) (d : BitVec 5) (code value : Nat) :
    (s.status d code value).barriers = s.barriers := State.setMe_barriers s _

theorem State.status_parts (s : State) (d : BitVec 5) (code value : Nat) : (s.status d code value).parts = s.parts :=
  State.setMe_parts s _

theorem barBinding_congr {s t : State} (h : t.parts = s.parts) (p n : Nat) : barBinding t p n = barBinding s p n := by
  unfold barBinding State.part
  rw [h]

/-! ### The waiting tasks of a handle that is released (R277) -/

/-- A task that `barwait` held returns BADHANDLE. -/
def Task.dropped (m : Task) (d : BitVec 5) : Task := { m.set d 5 with pc := m.pc + 4, hold := .ready }

theorem dropWaiter_waiting {s : State} {c : CoreId} {d : BitVec 5} {x : BitVec 8}
    (h : (s.task c).hold = .wait (.barwait d x)) : dropWaiter x.toNat s c = s.setTask c ((s.task c).dropped d) := by
  unfold dropWaiter
  rw [h]
  dsimp only
  rw [if_pos rfl]
  rfl

theorem dropWaiter_ready {s : State} {c : CoreId} (h : (s.task c).hold = .ready) (n : Nat) : dropWaiter n s c = s := by
  unfold dropWaiter
  rw [h]

/-- What a step of the release does: nothing, or a write of the task it is about. -/
theorem dropWaiter_cases (n : Nat) (s : State) (c : CoreId) :
    dropWaiter n s c = s ∨ ∃ m, dropWaiter n s c = s.setTask c m := by
  unfold dropWaiter
  split
  · split
    · exact .inr ⟨_, rfl⟩
    · exact .inl rfl
  · exact .inl rfl

theorem dropWaiter_task_ne (n : Nat) (s : State) {c x : CoreId} (h : x ≠ c) : (dropWaiter n s c).task x = s.task x := by
  rcases dropWaiter_cases n s c with e | ⟨m, e⟩ <;> rw [e]
  exact State.task_setTask_ne _ _ h

theorem dropWaiters_frame (n : Nat) : ∀ (l : List CoreId) (s : State),
    (l.foldl (dropWaiter n) s).cur = s.cur ∧ (l.foldl (dropWaiter n) s).parts = s.parts ∧
      (l.foldl (dropWaiter n) s).barriers = s.barriers
  | [], _ => ⟨rfl, rfl, rfl⟩
  | c :: l, s => by
    obtain ⟨h1, h2, h3⟩ := dropWaiters_frame n l (dropWaiter n s c)
    rw [List.foldl_cons, h1, h2, h3]
    rcases dropWaiter_cases n s c with e | ⟨m, e⟩ <;> rw [e]
    · exact ⟨rfl, rfl, rfl⟩
    · exact ⟨State.setTask_cur .., State.setTask_parts .., State.setTask_barriers ..⟩

theorem dropWaiters_ready (n : Nat) {x : CoreId} : ∀ (l : List CoreId) (s : State), (s.task x).hold = .ready →
    (l.foldl (dropWaiter n) s).task x = s.task x
  | [], _, _ => rfl
  | c :: l, s, h => by
    have hx : (dropWaiter n s c).task x = s.task x := by
      by_cases e : x = c
      · subst e
        rw [dropWaiter_ready h]
      · exact dropWaiter_task_ne n s e
    exact (dropWaiters_ready n l _ (by rw [hx, h])).trans hx

theorem dropWaiters_waiting {x : CoreId} {d : BitVec 5} {h : BitVec 8} {l : List CoreId} {s : State} (hm : x ∈ l)
    (hw : (s.task x).hold = .wait (.barwait d h)) :
    (l.foldl (dropWaiter h.toNat) s).task x = (s.task x).dropped d := by
  induction l generalizing s with
  | nil => cases hm
  | cons c l ih =>
    rw [List.foldl_cons]
    by_cases e : x = c
    · subst e
      rw [dropWaiter_waiting hw, dropWaiters_ready _ l _ (by rw [State.task_setTask]; rfl), State.task_setTask]
    · have hx := dropWaiter_task_ne h.toNat s e
      rw [ih ((List.mem_cons.1 hm).resolve_left e) (by rw [hx, hw]), hx]

/-- A key that is not listed reads as the value of an unlisted key. -/
theorem mem_keys_of_mapGet_ne {α : Type} {z : α} {m : Map α} {a : Nat} (h : mapGet z m a ≠ z) : a ∈ m.map (·.1) := by
  induction m with
  | nil => exact absurd rfl h
  | cons p m ih =>
    by_cases e : a = p.1
    · exact List.mem_map.2 ⟨p, List.mem_cons_self, e.symm⟩
    · rw [mapGet, if_neg e] at h
      exact List.mem_map.2 (by
        obtain ⟨q, hq, rfl⟩ := List.mem_map.1 (ih h)
        exact ⟨q, List.mem_cons_of_mem _ hq, rfl⟩)

/-- Every core with a task is among those of its partition. -/
theorem mem_coresOf {s : State} {c : CoreId} (hh : (s.task c).hold ≠ .free) (hk : ∀ r k, c = .seq r k → k < 8) :
    c ∈ coresOf s (s.partOf c) := by
  unfold coresOf
  rw [List.mem_append]
  cases c with
  | seq r k =>
    left
    have hr : s.region r ≠ Region.zero := fun e => hh (by rw [State.task, e]; rfl)
    simp only [List.mem_flatMap, List.mem_filter, List.mem_map, upTo, List.mem_range]
    exact ⟨r, ⟨List.mem_map.1 (mem_keys_of_mapGet_ne hr), by simp [State.partOf]⟩, k, hk r k rfl, rfl⟩
  | stew c =>
    right
    have hc : s.stew c ≠ Steward.zero := fun e => hh (by rw [State.task, e]; rfl)
    simp only [List.mem_filter, List.mem_map]
    exact ⟨c, ⟨List.mem_map.1 (mem_keys_of_mapGet_ne hc), by simp [State.partOf]⟩, rfl⟩

/-! ### The outcomes of `barinit` (R277) -/

section
variable {s : State} (d : BitVec 5) {a : BitVec 5} {h : BitVec 8}

theorem barinit_large (hn : (s.reg a).toNat > 65535) : exec (.barinit d a h) s = .next (s.status d stBADDESC 0) := by
  show execBarinit d a h s = _
  simp only [execBarinit, if_pos hn]

theorem barinit_bound {u : Nat × Nat} (hb : barBinding s (s.partOf s.cur) h.toNat = some u) (h0 : 0 < (s.reg a).toNat)
    (hn : (s.reg a).toNat ≤ 65535) : exec (.barinit d a h) s = .next (s.status d stBUSY 0) := by
  show execBarinit d a h s = _
  simp only [execBarinit, if_neg (Nat.not_lt.2 hn), hb, if_pos (Nat.pos_iff_ne_zero.1 h0)]

theorem barinit_unbound (hb : barBinding s (s.partOf s.cur) h.toNat = none) (h0 : (s.reg a).toNat = 0) :
    exec (.barinit d a h) s = .next (s.status d stALREADY 0) := by
  show execBarinit d a h s = _
  simp only [execBarinit, h0, hb, if_true]
  rfl

theorem barinit_binds {e : Nat} (hb : barBinding s (s.partOf s.cur) h.toNat = none) (h0 : 0 < (s.reg a).toNat)
    (hn : (s.reg a).toNat ≤ 65535) (he : freeBarrier s (coreChiplet s.cur) = some e) :
    exec (.barinit d a h) s = .next ((bindBarrier (s.setBarrier (coreChiplet s.cur, e)
      (some { count := (s.reg a).toNat, arrivals := 0, gen := 0 })) (s.partOf s.cur) h.toNat
        (some (coreChiplet s.cur, e))).status d stOK 0) := by
  show execBarinit d a h s = _
  simp only [execBarinit, if_neg (Nat.not_lt.2 hn), hb, if_neg (Nat.pos_iff_ne_zero.1 h0), he]

/-- The state in which a handle is released, before its waiting tasks return. -/
def releasedBarrier (s : State) (h : Nat) (u : Nat × Nat) : State :=
  bindBarrier (s.setBarrier u none) (s.partOf s.cur) h none

theorem barinit_releases {u : Nat × Nat} (hb : barBinding s (s.partOf s.cur) h.toNat = some u)
    (h0 : (s.reg a).toNat = 0) :
    exec (.barinit d a h) s = .next (((coresOf (releasedBarrier s h.toNat u) (s.partOf s.cur)).foldl
      (dropWaiter h.toNat) (releasedBarrier s h.toNat u)).status d stOK 0) := by
  show execBarinit d a h s = _
  simp only [execBarinit, h0, hb]
  rfl

theorem releasedBarrier_sameCores (s : State) (h : Nat) (u : Nat × Nat) : sameCores s (releasedBarrier s h u) :=
  (s.setBarrier_sameCores u none).trans (bindBarrier_sameCores _ _ _ _)

theorem releasedBarrier_partOf (s : State) (h : Nat) (u : Nat × Nat) (c : CoreId) :
    (releasedBarrier s h u).partOf c = s.partOf c := by
  cases c <;> rfl

/-- A status after the release of a handle: the handle and its entry are free, the waiting tasks have returned and
the issuing task has its status. -/
theorem barinit_release_result {t : State} {u : Nat × Nat} (ht : t = ((coresOf (releasedBarrier s h.toNat u)
      (s.partOf s.cur)).foldl (dropWaiter h.toNat) (releasedBarrier s h.toNat u)).status d stOK 0) :
    barBinding t (s.partOf s.cur) h.toNat = none ∧ t.barrier u = none ∧
      (s.me.hold = .ready → t.me = { s.me.set d 0 with pc := s.me.pc + 4 }) ∧
      ∀ core x, core ≠ s.cur → s.partOf core = s.partOf s.cur → (s.task core).hold = .wait (.barwait x h) →
        (∀ r k, core = .seq r k → k < 8) → t.task core = (s.task core).dropped x := by
  have hv := releasedBarrier_sameCores s h.toNat u
  obtain ⟨hcur, hparts, hbars⟩ := dropWaiters_frame h.toNat (coresOf (releasedBarrier s h.toNat u) (s.partOf s.cur))
    (releasedBarrier s h.toNat u)
  generalize hw : (coresOf (releasedBarrier s h.toNat u) (s.partOf s.cur)).foldl (dropWaiter h.toNat)
    (releasedBarrier s h.toNat u) = w at *
  have hend := (ends.refl w).status d stOK 0
  rw [← ht] at hend
  refine ⟨?_, ?_, fun hr => ?_, fun core x hc hp hwait hk => ?_⟩
  · rw [barBinding_congr (s := releasedBarrier s h.toNat u) (by rw [ht, State.status_parts, hparts])]
    exact barBinding_bindBarrier _ _ _ _
  · rw [State.barrier, ht, State.status_barriers, hbars]
    exact State.barrier_setBarrier s u none
  · have hme : w.me = s.me := by
      rw [State.me, hcur, ← hw, dropWaiters_ready _ _ _ (by rw [hv.task, hv.1]; exact hr), hv.task, hv.1]
      rfl
    rw [hend.me, hme]
    rfl
  · have hw' : ((releasedBarrier s h.toNat u).task core).hold = .wait (.barwait x h) := by rw [hv.task, hwait]
    have hm : core ∈ coresOf (releasedBarrier s h.toNat u) (s.partOf s.cur) := by
      rw [← hp, ← releasedBarrier_partOf s h.toNat u]
      exact mem_coresOf (by rw [hw']; exact fun e => by cases e) hk
    rw [hend.2.1.2.1 core (by rw [hcur, hv.1]; exact hc), ← hw, dropWaiters_waiting hm hw', hv.task]

end

/-! ### Arrivals (R278) -/

theorem State.setBarrier_setTask (s : State) (c : CoreId) (m : Task) (u : Nat × Nat) (b : Option Barrier) :
    (s.setTask c m).setBarrier u b = (s.setBarrier u b).setTask c m := by
  cases c <;> rfl

/-- The entry of a barrier after one arrival. -/
def Barrier.arrived (b : Barrier) : Barrier :=
  if b.arrivals + 1 ≥ b.count then { b with arrivals := 0, gen := (b.gen + 1) % 2 ^ 32 }
  else { b with arrivals := b.arrivals + 1 }

/-- An arrival counts in the entry, and its generation goes to d and to the pair of the task. -/
theorem arrive_ends {s : State} {h : BitVec 8} {u : Nat × Nat} {b : Barrier}
    (hb : barBinding s (s.partOf s.cur) h.toNat = some u) (he : s.barrier u = some b) (d : BitVec 5) (scope : Nat)
    (capped : Bool) :
    ends (s.setBarrier u (some b.arrived)) (arrive d h scope capped s)
      { s.me.set d (BitVec.ofNat 64 (b.gen % 2 ^ 32 * 2 ^ 32)) with
        pc := s.me.pc + 4, hold := .ready, pair := some (h.toNat, b.gen, scope), capped := s.me.capped || capped } := by
  have hb' : barBinding (s.setMe { s.me with hold := .ready }) ((s.setMe { s.me with hold := .ready }).partOf s.cur)
      h.toNat = some u := by
    rw [State.partOf_setMe, barBinding, State.part_setMe]
    exact hb
  have he' : (s.setMe { s.me with hold := .ready }).barrier u = some b := by
    rw [State.barrier, State.setMe_barriers]
    exact he
  have hst : statusWord stOK b.gen = BitVec.ofNat 64 (b.gen % 2 ^ 32 * 2 ^ 32) := by simp [statusWord, stOK]
  have h0 : ends (s.setBarrier u (some b.arrived)) ((s.setMe { s.me with hold := .ready }).setBarrier u (some b.arrived))
      { s.me with hold := .ready } := by
    unfold State.setMe
    rw [State.setBarrier_setTask]
    exact (ends.refl (s.setBarrier u (some b.arrived))).setMe _
  have heq : arrive d h scope capped s = (((((s.setMe { s.me with hold := .ready }).setBarrier u (some b.arrived)).setMe
      { ((s.setMe { s.me with hold := .ready }).setBarrier u (some b.arrived)).me with
        pair := some (h.toNat, b.gen, scope) }).markCapped capped).status d stOK b.gen) := by
    unfold arrive
    simp only [State.setMe_cur, hb', he']
    rfl
  rw [heq, h0.me]
  refine (((h0.setMe { s.me with hold := .ready, pair := some (h.toNat, b.gen, scope) }).markCapped capped).status
    d stOK b.gen).of_eq ?_
  rw [hst]
  simp only [Task.set_eq]

/-- After a write of one entry, what ends an instruction leaves the entry as written and the others as they were. -/
theorem ends.of_setBarrier {s t : State} {u : Nat × Nat} {b : Option Barrier} {m : Task}
    (h : ends (s.setBarrier u b) t m) :
    mapGet none t.barriers (u.1 * 1024 + u.2) = b ∧
      (∀ k, k ≠ u.1 * 1024 + u.2 → mapGet none t.barriers k = mapGet none s.barriers k) ∧
      ends { s with barriers := t.barriers } t m := by
  have hbars : t.barriers = (s.setBarrier u b).barriers := by
    have hm := congrArg State.barriers h.2.1.1
    exact hm
  rw [hbars]
  exact ⟨State.barrier_setBarrier s u b, fun k hk => State.barrier_setBarrier_ne s u b hk, h⟩

/-! ### Waiting at a barrier (R279) -/

/-- The step of a waiting task for a pair of another handle, an old generation or the present one. -/
theorem barwaitStep_ends (s : State) (d : BitVec 5) (h : BitVec 8) :
    ((∀ gen sc, s.me.pair ≠ some (h.toNat, gen, sc)) →
      ends s (barwaitStep d h s) { s.me.set d 18 with pc := s.me.pc + 4, hold := .ready }) ∧
    ∀ gen sc, s.me.pair = some (h.toNat, gen, sc) → ∀ u b, barBinding s (s.partOf s.cur) h.toNat = some u →
      s.barrier u = some b →
      (b.gen = gen → ends s (barwaitStep d h s) { s.me with hold := .wait (.barwait d h) }) ∧
      (b.gen ≠ gen → ends s (barwaitStep d h s) { s.me.set d 0 with pc := s.me.pc + 4, hold := .ready }) := by
  unfold barwaitStep
  refine ⟨fun hp => ?_, fun gen sc hp u b hu hb => ?_⟩
  · have ha : barwaitAnswer s h = some stNOARRIVE := by
      unfold barwaitAnswer
      split
      · rfl
      · rename_i x gen sc he
        rw [if_pos fun e => hp gen sc (by rw [he, e])]
    rw [ha]
    exact (ends.refl s).answer d stNOARRIVE 0
  · have ha : barwaitAnswer s h = if b.gen = gen then none else some stOK := by
      unfold barwaitAnswer
      rw [hp]
      dsimp only
      rw [if_neg (not_not_intro rfl), hu]
      dsimp only
      rw [hb]
    rw [ha]
    refine ⟨fun hg => ?_, fun hg => ?_⟩
    · rw [if_pos hg]
      exact (ends.refl s).holdMe _
    · rw [if_neg hg]
      exact (ends.refl s).answer d stOK 0

end Sys2Proof.Machine

namespace Sys2Proof.Settled

open Sys2Proof.Machine

/-- Settles O37: each outcome of the three instructions is one path, and the tasks that a release lets go are found
among the cores of the partition. -/
theorem barrierResult : Obligations.BarrierResult := by
  intro s d a h p n home bound entry
  have hhome : home = coreChiplet s.cur := rfl
  clear_value home
  subst hhome
  refine ⟨fun hn => ⟨_, barinit_large d hn, s.status_retires d 9 0⟩, fun hb h0 hn => ?_,
    fun hb h0 => ⟨_, barinit_unbound d hb h0, s.status_retires d 3 0⟩, fun e hb h0 hn he hfree hlow => ?_,
    fun c e hb h0 => ?_, fun sc c e b hb hbar => ?_, fun sc hb => ?_, fun c i u hi => ?_⟩
  · obtain ⟨u, hu⟩ := Option.ne_none_iff_exists'.1 hb
    exact ⟨_, barinit_bound d hu h0 hn, s.status_retires d 1 0⟩
  · refine ⟨_, barinit_binds d hb h0 hn (freeBarrier_eq_some he hfree hlow), ?_, ?_, fun k hk => ?_, ?_⟩
    · exact (barBinding_congr (State.status_parts _ d stOK 0) p _).trans (barBinding_bindBarrier _ _ _ _)
    · show mapGet none (State.status _ d stOK 0).barriers _ = _
      rw [State.status_barriers, bindBarrier_barriers]
      exact State.barrier_setBarrier s (coreChiplet s.cur, e) _
    · rw [State.status_barriers, bindBarrier_barriers]
      exact State.barrier_setBarrier_ne s (coreChiplet s.cur, e) _ hk
    · rw [State.status_barriers, State.status_parts]
      exact State.status_retires _ d 0 0
  · obtain ⟨h1, h2, h3, h4⟩ := barinit_release_result (h := h) (u := (c, e)) d (s := s) rfl
    exact ⟨_, barinit_releases d hb h0, h1, h2, h3, h4⟩
  · have hexec : exec (.bararr d sc h) s = .next (releaseWait s (.bararr d sc h) (capMe s sc.toNat).1
        (capMe s sc.toNat).2 (arrive d h (capMe s sc.toNat).1 (capMe s sc.toNat).2)) := by
      show execBararr d sc h s = _
      unfold execBararr
      rw [show barBinding s (s.partOf s.cur) h.toNat = some (c, e) from hb]
    rw [capMe_eq] at hexec
    refine ⟨fun hover => ?_, fun hover => ⟨_, hexec, releaseWait_pending hover _ _ _⟩⟩
    rw [releaseWait_over hover] at hexec
    have hend := arrive_ends hb hbar d (min sc.toNat (s.part p).cap.toNat) (decide ((s.part p).cap.toNat < sc.toNat))
    obtain ⟨hentry, hothers, hends⟩ := hend.of_setBarrier
    exact ⟨_, hexec, hentry, hothers, hends⟩
  · refine ⟨_, ?_, s.status_retires d 5 0⟩
    show execBararr d sc h s = _
    unfold execBararr
    rw [show barBinding s (s.partOf s.cur) h.toNat = none from hb]
    rfl
  · have hcore : u.me = s.task c ∧ exec i s = .next (barwaitStep d h u) ∧ u.barriers = s.barriers ∧
        u.part (u.partOf u.cur) = s.part (s.partOf c) := by
      rcases hi with ⟨rfl, rfl, rfl⟩ | ⟨hh, rfl, rfl⟩
      · exact ⟨rfl, rfl, rfl, rfl⟩
      · refine ⟨by cases c <;> rfl, ?_, rfl, by cases c <;> rfl⟩
        show execBarwaitRelease c s = _
        unfold execBarwaitRelease
        rw [hh]
    obtain ⟨hme, hexec, hbars, hpart⟩ := hcore
    have hstep := barwaitStep_ends u d h
    simp only [barBinding, State.barrier, hpart, hbars, hme] at hstep
    exact ⟨_, hexec, hstep.1, fun gen sc hp v e b hv hb => hstep.2 gen sc hp (v, e) b hv hb⟩

end Sys2Proof.Settled
end

section
/-! SUPPORT. Bytes and words of memory after a write at their home (R2, R85, R111), and tables written key by key. -/

namespace Sys2Proof.Machine

/-! ### Tables -/

section
variable {α β : Type} [DecidableEq α] {z : α} {key : β → Nat} {val : β → α}

/-- Keys that are not written read as before. -/
theorem mapGet_foldl_mapSet_ne {a : Nat} : ∀ (l : List β) (m : Map α), (∀ x ∈ l, key x ≠ a) →
    mapGet z (l.foldl (fun m x => mapSet z m (key x) (val x)) m) a = mapGet z m a
  | [], _, _ => rfl
  | y :: l, m, h =>
    (mapGet_foldl_mapSet_ne l _ fun x hx => h x (List.mem_cons_of_mem _ hx)).trans
      (mapGet_mapSet_ne z m _ (h y List.mem_cons_self).symm)

/-- A key that is written, whenever it is written with the same value, reads as that value. -/
theorem mapGet_foldl_mapSet {x : β} : ∀ (l : List β) (m : Map α), x ∈ l → (∀ y ∈ l, key y = key x → val y = val x) →
    mapGet z (l.foldl (fun m y => mapSet z m (key y) (val y)) m) (key x) = val x
  | y :: l, m, hx, hv => by
    have hv' : ∀ y ∈ l, key y = key x → val y = val x := fun y hy => hv y (List.mem_cons_of_mem _ hy)
    rw [List.foldl_cons]
    by_cases hl : ∃ w ∈ l, key w = key x
    · obtain ⟨w, hw, hk⟩ := hl
      rw [← hk, ← hv' w hw hk]
      refine mapGet_foldl_mapSet l _ hw fun y hy e => ?_
      rw [hv' y hy (e.trans hk), hv' w hw hk]
    · have hne : ∀ w ∈ l, key w ≠ key x := fun w hw e => hl ⟨w, hw, e⟩
      have hy : x = y := (List.mem_cons.1 hx).resolve_right fun h => hne x h rfl
      rw [mapGet_foldl_mapSet_ne l _ hne, hy]
      exact mapGet_mapSet_same ..

end

/-! ### Addresses of one page -/

/-- R85: within a page of 4 KiB an address and its local form move together. -/
theorem canonPa_add {own a k : Nat} (h : a % 4096 + k < 4096) : canonPa own (a + k) = canonPa own a + k := by
  unfold canonPa
  simp only [Bool.and_eq_true, decide_eq_true_eq]
  split <;> split <;> omega

/-! ### Bytes -/

theorem findCell_filter_out {a n c : Nat} (h : a ≤ c ∧ c < a + n) : ∀ l : List (Nat × Byte),
    findCell (l.filter fun x => !(decide (a ≤ x.1) && decide (x.1 < a + n))) c = none
  | [] => rfl
  | (k, v) :: l => by
    have ih := findCell_filter_out h l
    by_cases hk : a ≤ k ∧ k < a + n
    · simpa [List.filter_cons, hk] using ih
    · have hne : k ≠ c := fun e => hk (e ▸ h)
      have hf : (!(decide (a ≤ k) && decide (k < a + n))) = true := by
        rw [← Bool.decide_and, Bool.not_eq_true', decide_eq_false_iff_not]
        exact hk
      rw [List.filter_cons, if_pos hf, findCell, if_neg hne, ih]

theorem findCell_filter_in {a n c : Nat} (h : ¬ (a ≤ c ∧ c < a + n)) : ∀ l : List (Nat × Byte),
    findCell (l.filter fun x => !(decide (a ≤ x.1) && decide (x.1 < a + n))) c = findCell l c
  | [] => rfl
  | (k, v) :: l => by
    have ih := findCell_filter_in h l
    by_cases hk : a ≤ k ∧ k < a + n
    · have hne : k ≠ c := fun e => h (e ▸ hk)
      simpa [List.filter_cons, hk, findCell, hne] using ih
    · have hf : (!(decide (a ≤ k) && decide (k < a + n))) = true := by
        rw [← Bool.decide_and, Bool.not_eq_true', decide_eq_false_iff_not]
        exact hk
      rw [List.filter_cons, if_pos hf, findCell, findCell, ih]

/-- A write at its home supersedes the pending stores to its bytes, and no others. -/
theorem pendingByte_dropCells (a n c : Nat) : ∀ l : List PStore,
    pendingByte (l.map (dropCells a n)) c = if a ≤ c ∧ c < a + n then none else pendingByte l c
  | [] => by simp [pendingByte]
  | p :: l => by
    have ih := pendingByte_dropCells a n c l
    rw [List.map_cons, pendingByte, pendingByte, ih]
    by_cases h : a ≤ c ∧ c < a + n
    · rw [if_pos h, if_pos h, dropCells, findCell_filter_out h]
    · rw [if_neg h, if_neg h, dropCells, findCell_filter_in h]

/-- The newest store to a byte, or the byte of its home (R111). -/
theorem State.byte_eq_getD (s : State) (a : Nat) : s.byte a =
    (pendingByte s.stores (canonPa s.pkg.toNat a)).getD (memGet s.mem (canonPa s.pkg.toNat a)) := by
  unfold State.byte
  cases pendingByte s.stores (canonPa s.pkg.toNat a) <;> rfl

theorem State.write_stores (s : State) (a : Nat) (bs : List Byte) :
    (s.write a bs).stores = s.stores.map (dropCells (canonPa s.pkg.toNat a) bs.length) := rfl

/-- A byte after a write of consecutive bytes (R2). -/
theorem State.byte_write (s : State) (a : Nat) (bs : List Byte) (x : Nat) :
    (s.write a bs).byte x =
      if canonPa s.pkg.toNat a ≤ canonPa s.pkg.toNat x ∧ canonPa s.pkg.toNat x < canonPa s.pkg.toNat a + bs.length
      then bs.getD (canonPa s.pkg.toNat x - canonPa s.pkg.toNat a) 0 else s.byte x := by
  rw [State.byte_eq_getD, State.byte_eq_getD, State.write_pkg, State.write_mem, State.write_stores,
    pendingByte_dropCells, memGet_memSetN]
  split <;> rfl

theorem State.bytes_eq_map (s : State) (a n : Nat) : s.bytes a n = (List.range n).map fun k => s.byte (a + k) := by
  induction n generalizing a with
  | zero => rfl
  | succ n ih =>
    rw [State.bytes, ih, List.range_succ_eq_map, List.map_cons, List.map_map]
    refine congrArg (_ :: ·) (List.map_congr_left fun k _ => ?_)
    rw [Function.comp_apply, Nat.add_assoc, Nat.add_comm 1 k]

theorem State.bytes_congr {s t : State} {a n : Nat} (h : ∀ k, k < n → t.byte (a + k) = s.byte (a + k)) :
    t.bytes a n = s.bytes a n := by
  rw [State.bytes_eq_map, State.bytes_eq_map]
  exact List.map_congr_left fun k hk => h k (List.mem_range.1 hk)

/-- Bytes of one page that were written read back. -/
theorem State.bytes_write (s : State) {a : Nat} {bs : List Byte} (h : a % 4096 + bs.length ≤ 4096) :
    (s.write a bs).bytes a bs.length = bs := by
  rw [State.bytes_eq_map]
  refine List.ext_getElem (by simp) fun k h1 h2 => ?_
  have hk : k < bs.length := h2
  rw [List.getElem_map, List.getElem_range, State.byte_write, canonPa_add (by omega), if_pos (by omega),
    Nat.add_sub_cancel_left, List.getD_eq_getElem _ _ hk]

/-- A word of one page that was written reads back. -/
theorem State.word_writeWord (s : State) {a : Nat} (h : a % 4096 + 8 ≤ 4096) (v : Nat) :
    (s.writeWord a v).word a = v % 2 ^ 64 := by
  have hl := natToLe_length 8 v
  have hb := s.bytes_write (a := a) (bs := natToLe v 8) (by rw [hl]; exact h)
  rw [hl] at hb
  rw [State.word, State.writeWord, hb, leToNat_natToLe]
  norm_num

end Sys2Proof.Machine
end

section
/-! SUPPORT. The register writes that are steps of their own (R18, R60, R91, R190, R199, R208, R271). -/

namespace Sys2Proof.Machine

/-! ### The window of a steward core (R271) -/

theorem Task.foldl_setAbs (f : Nat → Nat) (g : Nat → Word) : ∀ (l : List Nat) (m : Task),
    l.foldl (fun x i => x.setAbs (f i) (g i)) m =
      { m with ring := l.foldl (fun r i => mapSet 0 r (f i % 56) (g i)) m.ring }
  | [], _ => rfl
  | i :: l, m => by
    rw [List.foldl_cons, Task.foldl_setAbs f g l (m.setAbs (f i) (g i))]
    rfl

/-- A change of DEPTH moves BASE and LOW, and changes the ring otherwise. -/
theorem Task.setDepth_eq (m : Task) (n : Nat) : m.setDepth n =
    { m with base := m.base0 + n, low := m.base0 + n, ring := (m.setDepth n).ring } := by
  unfold Task.setDepth
  dsimp only
  rw [Task.foldl_setAbs]

theorem Task.setDepth_ring (m : Task) (n : Nat) : (m.setDepth n).ring =
    (upTo 24).foldl (fun r i => mapSet 0 r ((m.base0 + n + i) % 56) (m.abs (m.base + i))) m.ring := by
  unfold Task.setDepth
  dsimp only
  rw [Task.foldl_setAbs]

/-- A change of DEPTH keeps every register: w0 to w23 move along with the base. -/
theorem Task.get_setDepth (m : Task) (n : Nat) (q : BitVec 5) : (m.setDepth n).get q = m.get q := by
  have hq := q.isLt
  rw [Task.setDepth_eq]
  unfold Task.get
  dsimp only
  split
  · rfl
  split
  · rfl
  · rename_i h0 h8
    rw [Task.setDepth_ring]
    refine (mapGet_foldl_mapSet (key := fun i => (m.base0 + n + i) % 56) (val := fun i => m.abs (m.base + i))
      (x := q.toNat - 8) (upTo 24) m.ring ?_ fun i hi e => ?_)
    · rw [upTo, List.mem_range]
      omega
    · rw [upTo, List.mem_range] at hi
      have : i = q.toNat - 8 := by omega
      rw [this]

/-- A flush that succeeds spills every register below the base and moves WSP past them (R271). -/
theorem flushWindow_ok : ∀ (f : Nat) (s u : State), flushWindow f s = (.ok (), u) → s.me.low ≤ s.me.base →
    s.me.base ≤ s.me.low + f → u.me.low = s.me.base ∧ u.me.base = s.me.base ∧
      u.me.wsp = s.me.wsp + BitVec.ofNat 54 (s.me.base - s.me.low)
  | 0, s, u, h, h1, h2 => by
    cases h
    have e : s.me.low = s.me.base := by omega
    refine ⟨e, rfl, ?_⟩
    rw [e, Nat.sub_self]
    exact (BitVec.add_zero _).symm
  | f + 1, s, u, h, h1, h2 => by
    unfold flushWindow at h
    split at h
    · cases h
      have e : s.me.low = s.me.base := by omega
      refine ⟨e, rfl, ?_⟩
      rw [e, Nat.sub_self]
      exact (BitVec.add_zero _).symm
    rename_i hlt
    split at h
    · rename_i x t hs
      have hr : sameRegisters s t := (coreWrite_sameRegisters _ _ _ _ _).of_snd hs
      obtain ⟨i1, i2, i3⟩ := flushWindow_ok f _ u h (by
        simp only [State.me_setMe, Task.moveWsp, hr.low, hr.base]; omega) (by
        simp only [State.me_setMe, Task.moveWsp, hr.low, hr.base]; omega)
      simp only [State.me_setMe, Task.moveWsp, hr.low, hr.base, hr.wsp] at i1 i2 i3
      refine ⟨i1, i2, ?_⟩
      rw [i3, BitVec.add_assoc]
      congr 1
      rw [show BitVec.ofInt 54 1 = BitVec.ofNat 54 1 from rfl, ← BitVec.ofNat_add]
      congr 1
      omega
    · rename_i e t hne hs
      exact absurd (congrArg Prod.fst h) (hne () · )

/-! ### STATE of a partition (R188, R190) -/

theorem boxBase_congr {s t : State} {p : Nat} (h : (t.part p).hmbx = (s.part p).hmbx) (k : t.pkg = s.pkg) :
    boxBase t p = boxBase s p := by
  unfold boxBase
  rw [h, k]

theorem statusPage_aligned {s : State} {p a : Nat} (h : statusPage s p = some a) : a % 4096 = 0 := by
  unfold statusPage boxBase at h
  dsimp only at h
  split at h
  · cases h
  · simp only [Option.map_some, Option.some.injEq] at h
    subst h
    unfold canonPa
    split <;> omega

theorem State.bytes_of_page {s : State} {p a : Nat} (h : statusPage s p = some a) (bs : List Byte)
    (hl : bs.length ≤ 4096) : (s.write a bs).bytes a bs.length = bs :=
  s.bytes_write (by rw [statusPage_aligned h]; omega)

/-- STATE depends on a partition's base and word and on the bytes of memory. -/
theorem partState_congr {s t : State} {p : Nat} (h1 : (t.part p).hmbx = (s.part p).hmbx)
    (h2 : (t.part p).state = (s.part p).state) (h3 : t.pkg = s.pkg) (h4 : ∀ a, t.byte a = s.byte a) :
    partState t p = partState s p := by
  unfold partState statusPage
  rw [boxBase_congr h1 h3, h2]
  split
  · rfl
  · rw [State.bytes_congr fun k _ => h4 _]

/-- A field that a write of a partition keeps. -/
theorem State.part_setPart_field {α : Type} (f : Partition → α) (s : State) {p : Nat} {x : Partition}
    (h : f x = f (s.part p)) (q : Nat) : f ((s.setPart p x).part q) = f (s.part q) := by
  by_cases e : q = p
  · rw [e, State.part_setPart, h]
  · rw [State.part_setPart_ne _ _ e]

/-- A partition with one more pending vector (R188). -/
def Partition.withVector (x : Partition) (v : Nat) : Partition :=
  { x with vectors := x.vectors ||| BitVec.ofNat 3 (2 ^ v) }

theorem partState_sendVector (s : State) (p v q : Nat) : partState (sendVector s p v) q = partState s q := by
  unfold sendVector
  dsimp only
  split
  · rfl
  · refine partState_congr ?_ ?_ rfl fun _ => rfl
    · exact State.part_setPart_field Partition.hmbx s (x := (s.part p).withVector v) rfl q
    · exact State.part_setPart_field Partition.state s (x := (s.part p).withVector v) rfl q

/-- STATE written without a reason, at the status page where there is one, reads back (R190). -/
theorem partState_write (t : State) (p : Nat) {st : Nat} (ht : (t.part p).state = st) (hst : st < 2 ^ 32) :
    partState (match statusPage t p with
      | none => t
      | some a => t.write a (natToLe st 4)) p = st := by
  split
  · rename_i hp
    unfold partState
    rw [hp]
    exact ht
  · rename_i a hp
    have hl := natToLe_length 4 st
    have hb := State.bytes_of_page hp (natToLe st 4) (by omega)
    rw [hl] at hb
    rw [partState, show statusPage (t.write a (natToLe st 4)) p = some a from hp]
    dsimp only
    rw [hb, leToNat_natToLe]
    omega

/-- STATE reads as it was written, where that needs no reason. -/
theorem partState_setPartState (s : State) (p reason : Nat) {st : Nat} (h4 : st ≠ 4) (hst : st < 2 ^ 32) :
    partState (setPartState s p st reason) p = st := by
  have ht := congrArg Partition.state (State.part_setPart s p
    { s.part p with state := st, reason := if st = 4 then reason else (s.part p).reason })
  unfold setPartState
  dsimp only
  simp only [if_neg h4] at ht ⊢
  generalize s.setPart p { s.part p with state := st } = t at ht ⊢
  have key := partState_write t p ht hst
  split
  · exact key
  · rw [partState_sendVector]
    exact key

/-! ### HEALTH (R384) -/

theorem sendVector_health (s : State) (p v : Nat) : (sendVector s p v).health = s.health := by
  unfold sendVector
  dsimp only
  split <;> rfl

theorem sendVectors_health (v : Nat) : ∀ (l : List Nat) (s : State),
    (l.foldl (fun t p => sendVector t p v) s).health = s.health
  | [], _ => rfl
  | p :: l, s => (sendVectors_health v l _).trans (sendVector_health s p v)

theorem State.setHealth_health (s : State) (h : Health) : (s.setHealth h).health = h := by
  unfold State.setHealth
  dsimp only
  split
  · rfl
  · exact sendVectors_health 1 _ _

/-! ### Flags of an island (R60) -/

theorem Region.island_setIsland (g : Region) (k : Nat) (x : Option Island) : (g.setIsland k x).island k = x :=
  mapGet_mapSet_same _ _ _ _

theorem Region.island_setIsland_ne (g : Region) (x : Option Island) {k j : Nat} (h : j ≠ k) :
    (g.setIsland k x).island j = g.island j :=
  mapGet_mapSet_ne _ _ _ h

theorem Region.islandOf_congr {g h : Region} (e : h.islands = g.islands) (n : Nat) : h.islandOf n = g.islandOf n := by
  unfold Region.islandOf
  rw [e]

theorem BitVec.extractLsb'_eq_nbits (v : Word) (hi lo : Nat) :
    v.extractLsb' lo (hi + 1 - lo) = BitVec.ofNat (hi + 1 - lo) (nbits v.toNat hi lo) := by
  apply BitVec.eq_of_toNat_eq
  rw [BitVec.extractLsb'_toNat, BitVec.toNat_ofNat, nbits, Nat.mod_mod, Nat.shiftRight_eq_div_pow]

/-- A write of EL_FFLAGS selects the element and clears flags of its island alone. -/
theorem writeElFflags_region (s : State) (r : Nat) (v clr : Word) :
    let sel := v.extractLsb' 18 8
    let g := (writeElFflags s r v clr).region r
    { g with islands := (s.region r).islands } = { s.region r with fflSel := sel } ∧
      (∀ k x, (s.region r).islandOf sel.toNat = some (k, x) →
        g.island k = some { x with flags := x.flags &&& ~~~ (clr.setWidth 7) } ∧
          ∀ j, j ≠ k → g.island j = (s.region r).island j) ∧
      ((s.region r).islandOf sel.toNat = none → g.islands = (s.region r).islands) := by
  have hsel : v.extractLsb' 18 8 = BitVec.ofNat 8 (nbits v.toNat 25 18) := BitVec.extractLsb'_eq_nbits v 25 18
  dsimp only
  rw [hsel]
  unfold writeElFflags
  dsimp only
  rw [State.region_setRegion]
  generalize BitVec.ofNat 8 (nbits v.toNat 25 18) = sel
  have hi : ({ s.region r with fflSel := sel } : Region).islandOf sel.toNat = (s.region r).islandOf sel.toNat :=
    Region.islandOf_congr rfl _
  rw [hi]
  cases (s.region r).islandOf sel.toNat with
  | none => exact ⟨rfl, fun _ _ h => absurd h nofun, fun _ => rfl⟩
  | some q =>
    refine ⟨rfl, fun k x h => ?_, fun h => by cases h⟩
    cases h
    exact ⟨Region.island_setIsland _ k _, fun j hj => Region.island_setIsland_ne _ _ hj⟩

end Sys2Proof.Machine

namespace Sys2Proof.Settled

open Sys2Proof.Machine

theorem ctxMask_eq : ctxMask = 0xFFF000FFFFFFFFFF#64 := by decide

/-- Settles O17: each event is one write, read back and framed. -/
theorem registerWriteEvents : Obligations.RegisterWriteEvents := by
  intro s
  refine ⟨fun p cap => ?_, fun r n v => ?_, fun c v => ?_, fun r v => ?_, fun c n => ?_, fun c u hf hlow hbase => ?_,
    fun p v hv hp => ?_, fun p v => ?_, fun ht hi => ?_⟩
  · exact ⟨_, rfl, rfl, State.part_setPart _ _ _, fun q hq => State.part_setPart_ne _ _ hq⟩
  · refine ⟨_, rfl, State.setRegion_onlyRegion s r _, ?_⟩
    rw [← ctxMask_eq]
    exact State.region_setRegion _ _ _
  · refine ⟨_, rfl, ⟨rfl, fun d hd => State.stew_setStew_ne _ _ hd⟩, ?_⟩
    rw [← ctxMask_eq]
    exact State.stew_setStew _ _ _
  · exact ⟨_, rfl, State.setRegion_onlyRegion s r _, writeElFflags_region s r v v⟩
  · obtain ⟨t, ht, h⟩ : ∃ t, exec (.stWinDepth c n) s = .next t ∧
        ends { s with cur := .stew c } t ((s.stew c).task.setDepth n.toNat) := ⟨_, rfl, State.setMe_ends _ _⟩
    refine ⟨t, ht, h.of_eq ?_, fun q => ?_⟩
    · rw [h.me]
      exact Task.setDepth_eq _ _
    · rw [h.me]
      exact Task.get_setDepth _ _ _
  · obtain ⟨h1, h2, h3⟩ := flushWindow_ok 64 _ u hf hlow (Nat.le_trans hbase (Nat.add_le_add_left (by decide) _))
    refine ⟨?_, h1, h2, h3⟩
    show execStWinFlush c s = _
    unfold execStWinFlush
    dsimp only
    rw [hf]
  · refine ⟨_, rfl, ?_⟩
    show partState (writeUp s p v) p = 2
    rw [writeUp, if_pos (by rw [hv, hp]; rfl)]
    exact partState_setPartState s p 0 (by decide) (by decide)
  · have hmap : v.extractLsb' 17 35 = BitVec.ofNat 35 (nbits v.toNat 51 17) := BitVec.extractLsb'_eq_nbits v 51 17
    refine ⟨_, rfl, rfl, fun q hq => State.port_setPort_ne _ _ hq, ?_⟩
    rw [hmap]
    exact State.port_setPort _ _ _
  · refine ⟨_, rfl, ?_⟩
    show (restartClocks s).health = _
    rw [restartClocks, if_neg (by simp [ht, hi])]
    exact State.setHealth_health _ _

end Sys2Proof.Settled
end

section
/-! SUPPORT. The state that refutes the spawn statement (R269, R31, R361): a mark of an unpoisoned unit stands in the
list of poison marks. -/

namespace Sys2Proof.Machine

/-- Partition 0 with its counters in DRAM; task 0 of region 0 runs with the argument list of a spawn under counter 1
with endpoint 5; the agent's TLB maps page 0 to DRAM. The unit that holds entry 5 is listed as not poisoned: every
look-up answers that no unit is poisoned, and yet a write of a part of that unit is refused as one into poison. -/
def listedCleanUnit : State :=
  { State.reset with
    cur := .seq 0 0
    parts := [(0, { Partition.zero with ctrbase := 0x20000000 })]
    mem := [(0x20000008, 1), (0x2000000F, 0x80)]
    poison := [(0x200405040, false)]
    tlbs := [(12, [{ part := 0, cid := some 0, vpn := 0, pages := 1, pfn := 0x200405, leaf := 7, level := 1,
                     leafAddr := 0, dirty := [0] }])]
    regions := [(0, { Region.zero with
      tasks := [(0, { Task.zero with hold := .ready, ring := [(9, 0x3FF005001#64)] })] })] }

namespace listedCleanUnit

/-- The endpoint that the argument list names. -/
def endpoint : Nat := ((listedCleanUnit.me.listFrom 16 (2 : BitVec 3).toNat).getD 1 0).toNat / 2 ^ 12 % 4096

/-- The entry as the check of the spawn reads it. -/
def checked : Option Nat × State := endpointGet listedCleanUnit (coreKctx listedCleanUnit listedCleanUnit.cur) endpoint

/-- The entry as the placing of the task reads it. -/
def placing : Option Nat × State := endpointGet checked.2 (coreKctx checked.2 checked.2.cur) endpoint

/-- The low word that PLACED in region 0, slot 1 needs. -/
def lowWord : Nat := 2 ^ 62 + 0 * 2 ^ 52 + 1 * 2 ^ 49 + (epGen (placing.1.getD 0) + 1) % 2 ^ 32

/-- The state after the write of the entry. -/
def written : State :=
  if placing.1 = none then placing.2 else endpointPut placing.2 (coreKctx placing.2 placing.2.cur) endpoint lowWord

/-- The translation of the entry's address for the write. -/
def entryPieces : Acc (List Piece) × State :=
  pieces placing.2 (coreKctx placing.2 placing.2.cur)
    (endpointVa placing.2 (coreKctx placing.2 placing.2.cur).part endpoint) 8 .write true

/-- Where the entry lies. -/
def entryPiece : Piece := { pa := 0x200405050, n := 8, va := 80, leaf := 7 }

theorem checked_eta : checked = (checked.1, checked.2) := Prod.mk.eta.symm

theorem placing_eta : placing = (placing.1, placing.2) := Prod.mk.eta.symm

theorem entryPieces_eq : entryPieces = (.ok [entryPiece], entryPieces.2) := Prod.ext (by decide +kernel) rfl

theorem no_poison (u : Nat) : mapGet false entryPieces.2.poison u = false := by
  have h : entryPieces.2.poison = [(0x200405040, false)] := by decide +kernel
  rw [h, mapGet, mapGet]
  split <;> rfl

theorem no_bad (u : Nat) : mapGet 0 entryPieces.2.bad u = 0 := by
  have h : entryPieces.2.bad = [] := by decide +kernel
  rw [h]
  rfl

theorem entry_plain : plainAt entryPieces.2 entryPiece.pa 8 :=
  ⟨by decide, by decide, .inl ⟨0, by decide +kernel⟩, by decide +kernel, no_poison, no_bad⟩

/-- The write of the entry was refused: its highest byte is not that of PLACED. -/
theorem entry_not_placed : written.byte (entryPiece.pa + 7) ≠ (natToLe lowWord 8).getD 7 0 := by decide +kernel

end listedCleanUnit

end Sys2Proof.Machine

namespace Sys2Proof.Settled

open Sys2Proof.Machine

/-- Refutes O31: in `listedCleanUnit` the entry's word is not PLACED after the spawn, since the write of its eight
bytes is refused although no unit reads as poisoned. -/
theorem not_spawnResult : ¬ Obligations.SpawnResult := by
  intro h
  obtain ⟨-, -, -, t, -, -, -, -, -, -, hplaced⟩ := h listedCleanUnit listedCleanUnit.checked.2
    listedCleanUnit.placing.2 listedCleanUnit.written 2 16 2 0 1 listedCleanUnit.checked.1 listedCleanUnit.placing.1
    (by decide +kernel) (by decide +kernel) (.inr ⟨by decide +kernel, 0, rfl⟩) (by decide +kernel) (by decide +kernel)
    (by decide +kernel)
    (.inr ⟨by decide +kernel, listedCleanUnit.checked_eta, by decide +kernel, by decide +kernel,
      listedCleanUnit.placing_eta, by decide +kernel, rfl⟩)
    (by decide +kernel) (by decide +kernel)
  obtain ⟨-, hbytes⟩ := hplaced (by decide +kernel) (by decide +kernel)
  exact listedCleanUnit.entry_not_placed
    (hbytes listedCleanUnit.entryPiece listedCleanUnit.entryPieces.2 listedCleanUnit.entryPieces_eq
      listedCleanUnit.entry_plain 7 (by decide))

end Sys2Proof.Settled
end

section
/-! SUPPORT. Writes of region-shared memory (R84, R86, R111): the bytes written, and what stays. -/

namespace Sys2Proof.Machine

/-! ### One byte -/

theorem Region.element_setElement (g : Region) (e : Nat) (x : Element) : (g.setElement e x).element e = x :=
  mapGet_mapSet_same _ _ _ _

theorem Region.element_setElement_ne (g : Region) (x : Element) {e f : Nat} (h : f ≠ e) :
    (g.setElement e x).element f = g.element f :=
  mapGet_mapSet_ne _ _ _ h

/-- The byte of an element memory. -/
def Region.elmByte (g : Region) (e off : Nat) : Byte := mapGet 0 (g.element e).elm off

theorem Region.rsmSet_elmByte {g : Region} {a : Nat} (h : elmReach g (rsmElem a) (rsmOff a) = true) (b : Byte) :
    (g.rsmSet a b).elmByte (rsmElem a) (rsmOff a) = b := by
  rw [Region.rsmSet, if_pos h]
  dsimp only
  rw [Region.elmByte, Region.element_setElement]
  exact mapGet_mapSet_same _ _ _ _

theorem Region.rsmSet_elmByte_ne (g : Region) {a e off : Nat} (h : (e, off) ≠ (rsmElem a, rsmOff a)) (b : Byte) :
    (g.rsmSet a b).elmByte e off = g.elmByte e off := by
  unfold Region.rsmSet
  split
  · dsimp only
    unfold Region.elmByte
    by_cases he : e = rsmElem a
    · subst he
      rw [Region.element_setElement]
      exact mapGet_mapSet_ne _ _ _ fun ho => h (by rw [ho])
    · rw [Region.element_setElement_ne _ _ he]
  · rfl

/-- A region without the contents of its elements. -/
def Region.bare (g : Region) : Region := { g with elements := [] }

/-- An element without the contents of its memory. -/
def Element.emptied (x : Element) : Element := { x with elm := [] }

theorem Region.rsmSet_bare (g : Region) (a : Nat) (b : Byte) : (g.rsmSet a b).bare = g.bare := by
  unfold Region.rsmSet
  split <;> rfl

theorem Region.rsmSet_element_emptied (g : Region) (a e : Nat) (b : Byte) :
    ((g.rsmSet a b).element e).emptied = (g.element e).emptied := by
  unfold Region.rsmSet
  split
  · dsimp only
    by_cases he : e = rsmElem a
    · subst he
      rw [Region.element_setElement]
      rfl
    · rw [Region.element_setElement_ne _ _ he]
  · rfl

theorem elmReach_congr {g h : Region} (e : h.bare = g.bare) (k off : Nat) : elmReach h k off = elmReach g k off := by
  have := congrArg Region.enabled e
  unfold elmReach
  rw [show h.enabled = g.enabled from this]

/-! ### Consecutive bytes -/

theorem Region.rsmSetN_bare : ∀ (bs : List Byte) (g : Region) (a : Nat), (g.rsmSetN a bs).bare = g.bare
  | [], _, _ => rfl
  | b :: bs, g, _ => (Region.rsmSetN_bare bs _ _).trans (g.rsmSet_bare _ b)

theorem Region.rsmSetN_element_emptied (e : Nat) : ∀ (bs : List Byte) (g : Region) (a : Nat),
    ((g.rsmSetN a bs).element e).emptied = (g.element e).emptied
  | [], _, _ => rfl
  | b :: bs, g, _ => (Region.rsmSetN_element_emptied e bs _ _).trans (g.rsmSet_element_emptied _ e b)

/-- Bytes that no address of the range names stay. -/
theorem Region.rsmSetN_elmByte_ne {e off : Nat} : ∀ (bs : List Byte) (g : Region) (a : Nat),
    (∀ j, j < bs.length → (e, off) ≠ (rsmElem ((a + j) % 2 ^ 27), rsmOff ((a + j) % 2 ^ 27))) →
    (g.rsmSetN a bs).elmByte e off = g.elmByte e off
  | [], _, _, _ => rfl
  | b :: bs, g, a, h => by
    have h0 : (e, off) ≠ (rsmElem (a % 2 ^ 27), rsmOff (a % 2 ^ 27)) := h 0 (by simp)
    rw [Region.rsmSetN, Region.rsmSetN_elmByte_ne bs _ _ fun j hj => ?_, Region.rsmSet_elmByte_ne _ h0]
    rw [Nat.add_assoc, Nat.add_comm 1 j]
    exact h (j + 1) (by simpa using hj)

/-- Element and offset tell the addresses of the window apart. -/
theorem rsmPlace_inj {x y : Nat} (hx : x < 2 ^ 27) (hy : y < 2 ^ 27)
    (h : (rsmElem x, rsmOff x) = (rsmElem y, rsmOff y)) :
    x = y := by
  simp only [rsmElem, rsmOff, Prod.mk.injEq] at h
  omega

/-- The bytes written read back. -/
theorem Region.rsmSetN_elmByte : ∀ (bs : List Byte) (g : Region) (a j : Nat), j < bs.length → bs.length ≤ 2 ^ 27 →
    elmReach g (rsmElem ((a + j) % 2 ^ 27)) (rsmOff ((a + j) % 2 ^ 27)) = true →
    (g.rsmSetN a bs).elmByte (rsmElem ((a + j) % 2 ^ 27)) (rsmOff ((a + j) % 2 ^ 27)) = bs.getD j 0
  | b :: bs, g, a, 0, _, hl, hr => by
    rw [Region.rsmSetN, Region.rsmSetN_elmByte_ne bs _ _ fun k hk e => ?_]
    · exact Region.rsmSet_elmByte hr b
    · have := rsmPlace_inj (Nat.mod_lt _ (by decide)) (Nat.mod_lt _ (by decide)) e
      rw [List.length_cons] at hl
      omega
  | b :: bs, g, a, j + 1, hj, hl, hr => by
    rw [Nat.add_comm j 1, ← Nat.add_assoc] at hr ⊢
    rw [List.length_cons] at hj hl
    rw [Region.rsmSetN, Region.rsmSetN_elmByte bs _ (a + 1) j (by omega) (by omega)
      (by rw [elmReach_congr (g.rsmSet_bare _ b)]; exact hr), Nat.add_comm 1 j, List.getD_cons_succ]

/-! ### A write of the window -/

theorem upTo_eq_range (n : Nat) : upTo n = List.range n := rfl

theorem rsmForeign_eq_none {g : Region} {a : Nat} : ∀ n, (∀ k, k < n →
    bankMine g (rsmElem ((a + k) % 2 ^ 27)) (rsmOff ((a + k) % 2 ^ 27) / 0xC00) = true) → rsmForeign g a n = none
  | 0, _ => rfl
  | n + 1, h => by
    rw [rsmForeign, rsmForeign_eq_none n fun k hk => h k (by omega)]
    dsimp only
    rw [h n (by omega), Bool.not_true, Bool.and_false, if_neg nofun]

theorem rsmFirstOut_eq_none {g : Region} {a n : Nat} (h : ∀ k, k < n →
    elmReach g (rsmElem ((a + k) % 2 ^ 27)) (rsmOff ((a + k) % 2 ^ 27)) = true) : rsmFirstOut g a n = none := by
  simp only [rsmFirstOut, upTo_eq_range, List.find?_eq_none, List.mem_map, List.mem_range]
  rintro _ ⟨k, hk, rfl⟩
  rw [h k hk]
  decide

/-- Marks that are cleared leave no poison where there was none. -/
theorem poison_foldl_clear {sel : Nat → Bool} {key : Nat → Nat} : ∀ (l : List Nat) (m : Map Bool),
    (∀ u, mapGet false m u = false) →
    ∀ u, mapGet false (l.foldl (fun m i => if sel i then mapSet false m (key i) false else m) m) u = false
  | [], _, h => h
  | i :: l, m, h => by
    refine poison_foldl_clear l _ fun u => ?_
    dsimp only
    split
    · by_cases e : u = key i
      · rw [e, mapGet_mapSet_same]
      · rw [mapGet_mapSet_ne _ _ _ e]
        exact h u
    · exact h u

/-- A machine after a store of a region's sequencer to its window, with the poison marks that it leaves. -/
def State.windowStored (s : State) (r va : Nat) (bs : List Byte) (q : Map Bool) : State :=
  { s.setRegion r ((s.region r).rsmSetN (va % 2 ^ 27) bs) with poison := q }

/-- R84, R111: a store of a sequencer to bytes of its window that it reaches performs at once. -/
theorem coreWrite_window {s : State} {r k va : Nat} {bs : List Byte} (hc : s.cur = .seq r k) (hr : isRsm va = true)
    (hw : windowAt s r va bs.length) (code : Nat) :
    ∃ q : Map Bool, (∀ u, mapGet false q u = false) ∧
      coreWrite s va bs code = (.ok (), s.windowStored r va bs q) := by
  obtain ⟨hreach, hpoison, -⟩ := hw
  have hmod : ∀ j, (va % 2 ^ 27 + j) % 2 ^ 27 = (va + j) % 2 ^ 27 := fun j => Nat.mod_add_mod va (2 ^ 27) j
  have hf : rsmForeign (s.region r) (va % 2 ^ 27) bs.length = none :=
    rsmForeign_eq_none _ fun j hj => by rw [hmod]; exact (hreach j hj).2
  have ho : rsmFirstOut (s.region r) (va % 2 ^ 27) bs.length = none :=
    rsmFirstOut_eq_none fun j hj => by rw [hmod]; exact (hreach j hj).1
  unfold coreWrite
  rw [hc, hr]
  dsimp only
  unfold writeRsm
  dsimp only
  rw [hf]
  dsimp only
  rw [if_neg (by simp [hpoison]), ho]
  exact ⟨_, poison_foldl_clear (upTo bs.length) _ hpoison, rfl⟩

end Sys2Proof.Machine
end

section
/-! SUPPORT. The store of a release (R238): issued at level H to plain memory (R111, R342), and what the task does
once the store is accepted. -/

namespace Sys2Proof.Machine

/-! ### Addresses at level H -/

theorem coreCtx_phys {s : State} (h : s.me.level = .h) : (coreCtx s s.cur).phys = true := by
  unfold coreCtx
  dsimp only
  rw [show (s.task s.cur).level = .h from h]

/-- R342: at level H bytes of one page that memory holds are one piece at their own address. -/
theorem pieces_physical {s : State} {va n : Nat} (h : s.me.level = .h) (hv : va < 2 ^ 52) (hpage : va % 4096 + n ≤ 4096)
    (hplace : s.place va ≠ .hole) (hn : 0 < n) (k : Access) (setD : Bool) :
    pieces s (coreCtx s s.cur) va n k setD = (.ok [{ pa := va, n := n, va := va, leaf := 0 }], s) := by
  have hx : xlate s (coreCtx s s.cur) va k setD = (.ok va 0, s) := by
    rw [xlate, if_pos (coreCtx_phys h), translatePhys, if_neg (by rw [Nat.div_eq_of_lt hv]; decide), if_neg hplace]
  have hm : min n (4096 - va % 4096) = n := Nat.min_eq_left (by omega)
  unfold pieces
  rw [piecesGo, if_neg (by omega)]
  simp only [hm, hx, Nat.sub_self]
  rw [piecesGo, if_pos rfl]
  rfl

/-! ### The cells of a store -/

theorem findCell_cellsFrom_ne {own x : Nat} : ∀ (bs : List Byte) (a : Nat),
    (∀ j, j < bs.length → x ≠ canonPa own (a + j)) → findCell (cellsFrom own a bs) x = none
  | [], _, _ => rfl
  | b :: bs, a, h => by
    rw [cellsFrom, findCell, if_neg fun e => h 0 (by simp) e.symm]
    refine findCell_cellsFrom_ne bs (a + 1) fun j hj => ?_
    rw [Nat.add_assoc, Nat.add_comm 1 j]
    exact h (j + 1) (by simpa using hj)

theorem findCell_cellsFrom {own : Nat} : ∀ (bs : List Byte) (a j : Nat), a % 4096 + bs.length ≤ 4096 → j < bs.length →
    findCell (cellsFrom own a bs) (canonPa own (a + j)) = some (bs.getD j 0)
  | b :: bs, a, 0, _, _ => by
    rw [cellsFrom, findCell, Nat.add_zero, if_pos rfl]
    rfl
  | b :: bs, a, j + 1, hpage, hj => by
    rw [List.length_cons] at hpage hj
    have hne : canonPa own a ≠ canonPa own (a + (j + 1)) := by
      rw [canonPa_add (by omega)]
      omega
    have ih := findCell_cellsFrom (own := own) bs (a + 1) j (by omega) (by omega)
    rw [Nat.add_assoc, Nat.add_comm 1 j] at ih
    rw [cellsFrom, findCell, if_neg hne, ih, List.getD_cons_succ]

/-- A byte once a store is newer than all others. -/
theorem State.byte_cons_store (s : State) (p : PStore) (x : Nat) :
    ({ s with stores := p :: s.stores } : State).byte x =
      (findCell p.cells (canonPa s.pkg.toNat x)).getD (s.byte x) := by
  rw [State.byte_eq_getD, State.byte_eq_getD]
  simp only [pendingByte]
  cases findCell p.cells (canonPa s.pkg.toNat x) <;> rfl

/-- The bytes of a store that is newer than all others read back; every other byte reads as before. -/
theorem State.byte_issued (s : State) {p : PStore} {va : Nat} {bs : List Byte}
    (hp : p.cells = cellsFrom s.pkg.toNat va bs) (hpage : va % 4096 + bs.length ≤ 4096) :
    (∀ j, j < bs.length → ({ s with stores := p :: s.stores } : State).byte (va + j) = bs.getD j 0) ∧
      sameBut s { s with stores := p :: s.stores } va bs.length := by
  refine ⟨fun j hj => ?_, fun x hx => ?_⟩
  · rw [State.byte_cons_store, hp, findCell_cellsFrom bs va j hpage hj]
    rfl
  · rw [State.byte_cons_store, hp, findCell_cellsFrom_ne bs va hx]
    rfl

/-! ### A store to plain memory from a steward core at level H -/

theorem plainAt.place_ne {s : State} {a n : Nat} (h : plainAt s a n) : s.place a ≠ .hole ∧ s.place a ≠ .cspHole := by
  obtain ⟨-, -, ⟨k, hk⟩ | ⟨k, hk⟩, -⟩ := h <;> rw [hk] <;> exact ⟨nofun, nofun⟩

theorem plainAt.routeDead {s : State} {a n : Nat} (h : plainAt s a n) : routeDead s a = false := by
  obtain ⟨-, -, ⟨k, hk⟩ | ⟨k, hk⟩, -⟩ := h <;> rw [Machine.routeDead, hk]

/-- R111, R342: the store is on its way, performed at the core's own level. -/
theorem coreWrite_physical {s : State} {c va : Nat} {bs : List Byte} (hc : s.cur = .stew c) (hl : s.me.level = .h)
    (hp : plainAt s va bs.length) (hbs : bs ≠ []) (code : Nat) :
    ∃ p : PStore, coreWrite s va bs code = (.ok (), { s with stores := p :: s.stores }) ∧ p.issuer = .core s.cur ∧
      p.reached = 2 ∧ p.cells = cellsFrom s.pkg.toNat va bs := by
  obtain ⟨hv, hpage, -⟩ := id hp
  obtain ⟨hhole, hcsp⟩ := hp.place_ne
  have hpc := pieces_physical hl hv hpage hhole (List.length_pos_iff.2 hbs) .write true
  have hout : oorPiece s [{ pa := va, n := bs.length, va := va, leaf := 0 }] = none := by
    simp [oorPiece, pieceHole, hcsp]
  have hcore : coreWrite s va bs code =
      (.ok (), issuePiece s { pa := va, n := bs.length, va := va, leaf := 0 } bs code) := by
    unfold coreWrite
    simp only [hc] at hpc ⊢
    simp only [hpc, hout, issuePieces, List.take_length, Bool.false_eq_true, if_false, State.oorMe]
  have hissue : issuePiece s { pa := va, n := bs.length, va := va, leaf := 0 } bs code = { s with stores :=
      { cells := cellsFrom s.pkg.toNat va bs, addr := canonPa s.pkg.toNat va, issuer := .core s.cur
        agent := s.agent s.cur, part := s.partOf s.cur, reached := firstScope s.cur, strong := pteOrd 0 = 1
        scope := orderScope s code va, unordered := pteOrd 0 = 2 && !false, readers := [] } :: s.stores } := by
    rw [issuePiece, if_neg (by simp [pieceHole, hcsp]), if_neg (by simp [hp.routeDead])]
  exact ⟨_, hcore.trans (by rw [hissue]), rfl, by rw [hc]; rfl, rfl⟩

/-! ### The release store (R238) -/

/-- What the store of a release and the wait after it are, from the state that the first wait leaves. -/
def releaseStore (d a b : BitVec 5) (w : BitVec 2) (sc : BitVec 3) (va scope : Nat) (capped : Bool)
    (t : State) : State :=
  issueRelease (.strel d a b w sc) d b va (2 ^ w.toNat) scope capped (fenceLimit t) t.tick t

section
variable {s v : State} {b : BitVec 5} {va n scope : Nat}

/-- Once its store is accepted, a release that has nothing more to wait for completes. -/
theorem issueRelease_over (h : coreWrite s va (natToLe (s.reg b).toNat n) (max 1 scope) = (.ok (), v))
    (ho : fenceOver v v.cur scope = true) (i : Instr) (d : BitVec 5) (capped : Bool) (limit since : Nat) :
    issueRelease i d b va n scope capped limit since s = v.endRelease d scope capped false := by
  rw [issueRelease, scopeCode, h]
  dsimp only
  rw [if_pos ho]

/-- Otherwise it waits until its store, too, has performed. -/
theorem issueRelease_pending (h : coreWrite s va (natToLe (s.reg b).toNat n) (max 1 scope) = (.ok (), v))
    (ho : fenceOver v v.cur scope = false) (i : Instr) (d : BitVec 5) (capped : Bool) (limit since : Nat) :
    issueRelease i d b va n scope capped limit since s = v.holdMe (.strel d scope capped limit since) := by
  rw [issueRelease, scopeCode, h]
  dsimp only
  rw [if_neg (by rw [ho]; decide)]

/-- What the task of a release is once its store is accepted. -/
theorem issueRelease_stored (h : coreWrite s va (natToLe (s.reg b).toNat n) (max 1 scope) = (.ok (), v)) (i : Instr)
    (d : BitVec 5) (capped : Bool) (limit since : Nat) :
    ((scope < coreLevel v.cur ∨ ∀ p ∈ v.stores, p.issuer = .core v.cur → scope ≤ p.reached) →
      ends v (issueRelease i d b va n scope capped limit since s) (v.me.released d scope capped false)) ∧
    (¬ (scope < coreLevel v.cur ∨ ∀ p ∈ v.stores, p.issuer = .core v.cur → scope ≤ p.reached) →
      ends v (issueRelease i d b va n scope capped limit since s)
        { v.me with hold := .strel d scope capped limit since }) := by
  refine ⟨fun ho => ?_, fun ho => ?_⟩
  · rw [issueRelease_over h ((fenceOver_iff ..).2 ho)]
    exact (ends.refl v).endRelease d scope capped false
  · rw [issueRelease_pending h ((fenceOver_eq_false_iff ..).2 ho)]
    exact (ends.refl v).holdMe _

end

/-- From a steward core at level H a release stores; it completes below the core's
own level, and waits for its store elsewhere. -/
theorem issueRelease_physical {s : State} {b : BitVec 5} {c va n scope : Nat} (hc : s.cur = .stew c)
    (hl : s.me.level = .h) (hp : plainAt s va n) (hn : 0 < n) (i : Instr) (d : BitVec 5) (capped : Bool) (limit since : Nat) :
    ∃ p : PStore, p.issuer = .core s.cur ∧ p.reached = 2 ∧
      (∀ j, j < n → ({ s with stores := p :: s.stores } : State).byte (va + j) = (natToLe (s.reg b).toNat n).getD j 0) ∧
      sameBut s { s with stores := p :: s.stores } va n ∧
      ends { s with stores := p :: s.stores } (issueRelease i d b va n scope capped limit since s)
        (if scope < 3 then s.me.released d scope capped false
          else { s.me with hold := .strel d scope capped limit since }) := by
  have hlen := natToLe_length n (s.reg b).toNat
  obtain ⟨p, hv, hi, hr, hcells⟩ := coreWrite_physical hc hl (hlen.symm ▸ hp)
    (List.length_pos_iff.1 (hlen.symm ▸ hn)) (max 1 scope)
  obtain ⟨hbytes, hbut⟩ := s.byte_issued hcells (by rw [hlen]; exact hp.2.1)
  obtain ⟨hover, hwaits⟩ := issueRelease_stored hv i d capped limit since
  rw [hlen] at hbytes hbut
  refine ⟨p, hi, hr, hbytes, hbut, ?_⟩
  split <;> rename_i hs
  · exact hover (.inl (by rw [hc]; exact hs))
  · refine hwaits fun h => ?_
    rcases h with h | h
    · rw [hc] at h
      exact hs h
    · have := h p List.mem_cons_self hi
      omega

section
variable {s u : State} {d a b : BitVec 5} {w : BitVec 2} {sc : BitVec 3} {x : Acc (List Piece)}

/-- A strel with an aligned address whose translation, in the window or outside it, is accepted. -/
theorem exec_strel (hal : (s.reg a).toNat % 2 ^ w.toNat = 0)
    (h : ((∃ r k, s.cur = .seq r k) ∧ isRsm (s.reg a).toNat = true ∧ u = s) ∨
      (¬ ((∃ r k, s.cur = .seq r k) ∧ isRsm (s.reg a).toNat = true) ∧
        pieces s (coreCtx s s.cur) (s.reg a).toNat (2 ^ w.toNat) .write true = (x, u) ∧
        (∀ c y, x ≠ .xlate c y) ∧ ∀ l y, x ≠ .memerr l y)) :
    let named := scopeAt s sc.toNat (s.reg a).toNat .write
    let cap := (s.part (s.partOf s.cur)).cap.toNat
    exec (.strel d a b w sc) s = .next (releaseWait u (.strel d a b w sc) (min named cap) (decide (cap < named))
      (releaseStore d a b w sc (s.reg a).toNat (min named cap) (decide (cap < named)))) := by
  show execStrel d a b w sc s = _
  unfold execStrel acqBytes
  simp only [capMe_eq]
  rw [if_neg (by rw [hal]; decide)]
  rcases h with ⟨⟨r, k, hc⟩, hr, rfl⟩ | ⟨hout, hp, hx, hm⟩
  · rw [hr]
    simp only [hc]
    rfl
  · split
    · rename_i r k hc hr
      exact absurd ⟨⟨r, k, hc⟩, hr⟩ hout
    · rw [hp]
      split
      · rename_i c y t e
        exact absurd (congrArg Prod.fst e) (hx c y)
      · rename_i l y t e
        exact absurd (congrArg Prod.fst e) (hm l y)
      · rename_i y t _ _ e
        cases e
        rfl

end

end Sys2Proof.Machine
end

section
/-! SUPPORT. The release store in the window and to plain memory (R238), and the ends of its waits (R118, R119). -/

namespace Sys2Proof.Machine

section
variable {s t : State} {r k va : Nat} {bs : List Byte} {q : Map Bool} {m : Task}

theorem State.windowStored_region (s : State) (r va : Nat) (bs : List Byte) (q : Map Bool) :
    (s.windowStored r va bs q).region r = (s.region r).rsmSetN (va % 2 ^ 27) bs := State.region_setRegion ..

theorem State.windowStored_me (hc : s.cur = .seq r k) : (s.windowStored r va bs q).me = s.me := by
  show (s.windowStored r va bs q).task s.cur = s.task s.cur
  rw [hc]
  show ((s.windowStored r va bs q).region r).task k = (s.region r).task k
  rw [State.windowStored_region, Region.task, Region.rsmSetN_tasks, Region.task]

/-- What a task's end after a store to its window leaves of the machine. -/
theorem ends.window_frame (hc : s.cur = .seq r k) (hlen : bs.length ≤ 2 ^ 27) (hw : windowAt s r va bs.length)
    (h : ends (s.windowStored r va bs q) t m) :
    (∀ j, j < bs.length → t.elmByte r ((va + j) % 2 ^ 27 / 2 ^ 19) ((va + j) % 2 ^ 19) = bs.getD j 0) ∧
      (∀ e off, (∀ j, j < bs.length → (e, off) ≠ ((va + j) % 2 ^ 27 / 2 ^ 19, (va + j) % 2 ^ 19)) →
        t.elmByte r e off = s.elmByte r e off) ∧
      (∀ e, { (t.region r).element e with elm := [] } = { (s.region r).element e with elm := [] }) ∧
      { t.region r with elements := [], tasks := [] } = { s.region r with elements := [], tasks := [] } ∧
      (∀ j, j ≠ k → (t.region r).task j = (s.region r).task j) ∧
      t.poison = q ∧ sameMemory s t := by
  obtain ⟨-, ⟨hmachine, htask, hreg, -⟩, hmem⟩ := h
  have hbare := hreg r
  rw [State.windowStored_region] at hbare
  have hels : (t.region r).elements = ((s.region r).rsmSetN (va % 2 ^ 27) bs).elements := by
    have := congrArg Region.elements hbare
    exact this
  have hel : ∀ e, (t.region r).element e = ((s.region r).rsmSetN (va % 2 ^ 27) bs).element e := fun e => by
    rw [Region.element, hels, Region.element]
  have hbyte : ∀ e off, t.elmByte r e off = ((s.region r).rsmSetN (va % 2 ^ 27) bs).elmByte e off := fun e off => by
    rw [State.elmByte, hel, Region.elmByte]
  have hplace : ∀ j, (rsmElem ((va % 2 ^ 27 + j) % 2 ^ 27), rsmOff ((va % 2 ^ 27 + j) % 2 ^ 27)) =
      ((va + j) % 2 ^ 27 / 2 ^ 19, (va + j) % 2 ^ 19) := fun j => by
    simp only [rsmElem, rsmOff, Prod.mk.injEq]
    omega
  refine ⟨fun j hj => ?_, fun e off hne => ?_, fun e => ?_, ?_, fun j hj => ?_, ?_, hmem⟩
  · have hr := (hw.1 j hj).1
    rw [← Nat.mod_add_mod] at hr
    have hb := Region.rsmSetN_elmByte bs (s.region r) (va % 2 ^ 27) j hj hlen hr
    obtain ⟨he, ho⟩ := Prod.mk.inj (hplace j)
    rw [he, ho] at hb
    rw [hbyte, hb]
  · rw [hbyte, Region.rsmSetN_elmByte_ne _ _ _ fun j hj => by rw [hplace]; exact hne j hj]
    rfl
  · rw [hel]
    exact Region.rsmSetN_element_emptied e bs _ _
  · have h1 := congrArg (fun g : Region => { g with elements := [] }) hbare
    have h2 := congrArg (fun g : Region => { g with tasks := [] }) (Region.rsmSetN_bare bs (s.region r) (va % 2 ^ 27))
    exact h1.trans h2
  · have h1 := htask (.seq r j) (by rw [show (s.windowStored r va bs q).cur = s.cur from rfl, hc]; simpa using hj)
    have h2 : ((s.windowStored r va bs q).region r).task j = (s.region r).task j := by
      rw [State.windowStored_region, Region.task, Region.rsmSetN_tasks, Region.task]
    exact h1.trans h2
  · exact congrArg State.poison hmachine

/-- The end of a release whose store went to the window. -/
theorem State.windowStored_endRelease (hc : s.cur = .seq r k) (d : BitVec 5) (scope : Nat) (capped : Bool) :
    ends (s.windowStored r va bs q) ((s.windowStored r va bs q).endRelease d scope capped false)
      (s.me.released d scope capped false) ∧
    onlyRegion r { s with poison := q } ((s.windowStored r va bs q).endRelease d scope capped false) := by
  refine ⟨((ends.refl _).endRelease d scope capped false).of_eq (by rw [State.windowStored_me hc]; rfl), ?_⟩
  have h : onlyRegion r { s with poison := q } (s.windowStored r va bs q) :=
    State.setRegion_onlyRegion { s with poison := q } r _
  exact h.trans (State.setMe_onlyRegion (s := s.windowStored r va bs q) hc _)

end

/-! ### The ends of the waits -/

theorem storeWait_fence {m : Task} {i : Instr} {at_ lim since : Nat} {capped : Bool}
    (h : m.hold = .fence i at_ capped lim since) : storeWait m = some (at_, lim, since) := by
  rw [storeWait, h]

/-- FENCE_COMPLETE of a wait whose stores have performed. -/
theorem exec_fenceComplete {s : State} {c : CoreId} {i : Instr} {at_ lim since : Nat} {capped : Bool}
    (h : (s.task c).hold = .fence i at_ capped lim since) (ho : fenceOver s c at_ = true) :
    exec (.fenceComplete c) s = .next (endHold { s with cur := c } i at_ capped false lim since) := by
  show execFenceComplete c s = _
  rw [execFenceComplete, storeWait_fence h]
  dsimp only
  rw [if_pos ho, finishWait, show State.me { s with cur := c } = s.task c from rfl, h]

/-- FENCE_TIMEOUT of a wait whose limit has passed. -/
theorem exec_fenceTimeout {s : State} {c : CoreId} {i : Instr} {at_ lim since : Nat} {capped : Bool}
    (h : (s.task c).hold = .fence i at_ capped lim since) (ho : fenceOver s c at_ = false) (hl : lim ≠ 0)
    (ht : lim ≤ s.tick - since) :
    exec (.fenceTimeout c) s = .next (endHold { s with cur := c } i at_ capped true lim since) := by
  show execFenceTimeout c s = _
  rw [execFenceTimeout, storeWait_fence h]
  dsimp only
  rw [if_neg (by simp [hl, ho]; omega), finishWait, show State.me { s with cur := c } = s.task c from rfl, h]

theorem reachedScope_setMe (s : State) (m : Task) (c : CoreId) (scope : Nat) :
    reachedScope (s.setMe m) c scope = reachedScope s c scope := by
  rw [reachedScope, State.setMe_stores]
  rfl

/-- A count of failures that a byte holds: past 255 it does not matter how far. -/
theorem min_satInc (n : Nat) : min (satInc n 255) 255 = min (min (n + 1) 255) 255 := by
  unfold satInc
  split <;> omega

/-- A fence word sees no more of the count than its byte. -/
theorem Task.released_nfail (m : Task) (d : BitVec 5) (at_ : Nat) (capped timeout : Bool) {n k : Nat}
    (h : min n 255 = min k 255) :
    ({ m with nfail := n } : Task).released d at_ capped timeout =
      ({ m with nfail := k } : Task).released d at_ capped timeout := by
  simp only [Task.released, fenceWord, h, Task.set_eq]

end Sys2Proof.Machine

namespace Sys2Proof.Settled

open Sys2Proof.Machine

/-- The record that a release leaves, with its word spelled out. -/
theorem released_eq (m : Task) (d : BitVec 5) (at_ : Nat) (capped timeout : Bool) :
    m.released d at_ capped timeout = { m.set d (BitVec.ofNat 64 (at_ * 2 ^ 16 + min m.nfail 255 * 2 ^ 8 +
      (if timeout then 2 ^ 4 else 0) + (if capped then 2 ^ 3 else 0) + (if m.refused then 2 ^ 2 else 0) +
      (if m.deadlink then 2 ^ 1 else 0) + (if (!m.refused && !m.deadlink && !timeout) = true then 2 ^ 0 else 0))) with
      pc := m.pc + 4, hold := .ready, nfail := 0, refused := false, deadlink := false } := by
  rw [Task.released, fenceWord_eq]

/-- Settles O13: the first wait, the store, and the second wait, each by its own rule. -/
theorem releaseStoreResult : Obligations.ReleaseStoreResult := by
  intro s d a b w sc
  dsimp only
  simp only [← released_eq]
  have hn : 2 ^ w.toNat ≤ 8 := Nat.pow_le_pow_right (by decide) (show w.toNat ≤ 3 by omega)
  have hpos : 0 < 2 ^ w.toNat := Nat.two_pow_pos _
  have hlen := natToLe_length (2 ^ w.toNat) (s.reg b).toNat
  have hexec := fun x u => exec_strel (s := s) (u := u) (d := d) (a := a) (b := b) (w := w) (sc := sc) (x := x)
  dsimp only at hexec
  generalize min (scopeAt s sc.toNat (s.reg a).toNat .write) (s.part (s.partOf s.cur)).cap.toNat = scope at hexec ⊢
  generalize decide ((s.part (s.partOf s.cur)).cap.toNat < scopeAt s sc.toNat (s.reg a).toNat .write) = capped
    at hexec ⊢
  refine ⟨fun hal hperf => ⟨fun r k hc hr hw => ?_, fun c hc hl hp => ?_⟩,
    fun x u hal hx => ⟨fun hperf v hv => ?_, fun hperf => ?_⟩,
    fun c at_ lim since capped hh => ⟨fun hperf v hv => ?_, fun hperf hlim htick => ?_⟩⟩
  · have h := hexec .held s hal (.inl ⟨⟨r, k, hc⟩, hr, rfl⟩)
    rw [← hlen] at hw
    obtain ⟨q, hq, hv⟩ := coreWrite_window hc hr hw (max 1 scope)
    rw [releaseWait_over (fenceOver_of_performed hperf), releaseStore,
      issueRelease_over hv (fenceOver_of_performed hperf)] at h
    obtain ⟨hend, honly⟩ := State.windowStored_endRelease (va := (s.reg a).toNat)
      (bs := natToLe (s.reg b).toNat (2 ^ w.toNat)) (q := q) hc d scope capped
    generalize (s.windowStored r (s.reg a).toNat (natToLe (s.reg b).toNat (2 ^ w.toNat)) q).endRelease d scope capped
      false = t at h hend honly
    obtain ⟨hbytes, hrest, hel, hreg, htasks, hq', hmem⟩ := hend.window_frame hc (by omega) hw
    rw [hlen] at hbytes hrest
    exact ⟨t, h, hend.me, hbytes, hrest, hel, hreg, htasks, by rw [hq']; exact hq, by rw [hq']; exact honly, hmem⟩
  · have houtside : ¬ ((∃ r k, s.cur = .seq r k) ∧ isRsm (s.reg a).toNat = true) := by
      rintro ⟨⟨r, k, e⟩, -⟩
      rw [hc] at e
      cases e
    have h := hexec _ s hal (.inr ⟨houtside, pieces_physical hl hp.1 hp.2.1 hp.place_ne.1 hpos _ _, nofun, nofun⟩)
    rw [releaseWait_over (fenceOver_of_performed hperf), releaseStore] at h
    obtain ⟨p, hi, hr, hbytes, hbut, hend⟩ := issueRelease_physical (b := b) hc hl hp hpos (.strel d a b w sc) d
      capped (fenceLimit s) s.tick
    obtain ⟨hme, honly, hmem⟩ := hend
    have hst : (issueRelease (.strel d a b w sc) d b (s.reg a).toNat (2 ^ w.toNat) scope capped (fenceLimit s) s.tick
      s).stores = p :: s.stores := congrArg State.stores honly.1
    refine ⟨_, p, h, hst, hi, hr, fun j hj => (hmem _).trans (hbytes j hj), fun x hx => (hmem x).trans (hbut x hx), ?_,
      hme⟩
    rw [hst]
    exact honly
  · exact ⟨_, (hexec x u hal hx).trans (congrArg Host.Outcome.next (releaseWait_over ((fenceOver_iff ..).2 hperf) ..)),
      issueRelease_stored hv ..⟩
  · exact ⟨_, hexec x u hal hx, releaseWait_pending ((fenceOver_eq_false_iff ..).2 hperf) ..⟩
  · exact ⟨_, exec_fenceComplete hh ((fenceOver_iff ..).2 hperf), issueRelease_stored hv ..⟩
  · have h := (State.setMe_ends { s with cur := c }
      { s.task c with nfail := satInc (s.task c).nfail 255 }).endRelease d at_ capped true
    have hreached := reachedScope_setMe { s with cur := c } { s.task c with nfail := satInc (s.task c).nfail 255 } c at_
    refine ⟨_, exec_fenceTimeout hh ((fenceOver_eq_false_iff ..).2 hperf) hlim htick, h.of_eq ?_⟩
    rw [if_pos rfl, State.setMe_cur, hreached, reachedScope, Task.released_nfail _ _ _ _ _ (min_satInc _), released_eq]
    rfl

end Sys2Proof.Settled
end

section
/-! SUPPORT. Words of the counter table (R24, R25): one reads as it was written, and a write leaves the others. -/

namespace Sys2Proof.Machine

/-! ### Addresses of the table -/

/-- R85: within a block of 32 KiB an address and its local form move together. -/
theorem canonPa_block (own b o : Nat) (h : o < 2 ^ 15) :
    canonPa own (b * 2 ^ 15 + o) = canonPa own (b * 2 ^ 15) + o := by
  unfold canonPa
  simp only [Bool.and_eq_true, decide_eq_true_eq]
  split <;> split <;> omega

theorem ctrAddr_page (s : State) (part h : Nat) : ctrAddr s part h % 4096 + 8 ≤ 4096 := by
  unfold ctrAddr
  omega

/-- The byte j of an entry, in its local form. -/
theorem canonPa_ctrAddr (s : State) (part h : Nat) {j : Nat} (hj : j < 8) :
    canonPa s.pkg.toNat (ctrAddr s part h + j) =
      canonPa s.pkg.toNat (nbits (s.part part).ctrbase.toNat 51 15 * 2 ^ 15) + (8 * (h % 4096) + j) := by
  rw [ctrAddr, Nat.add_assoc, canonPa_block _ _ _ (by omega)]

/-! ### Entries -/

theorem State.word_congr {s t : State} {a : Nat} (h : ∀ k, k < 8 → t.byte (a + k) = s.byte (a + k)) :
    t.word a = s.word a := by
  rw [State.word, State.bytes_congr h, State.word]

theorem sameMemory.word {s t : State} (h : sameMemory s t) (a : Nat) : t.word a = s.word a :=
  State.word_congr fun _ _ => h _

/-- A word is 64 bits. -/
theorem State.word_lt (s : State) (a : Nat) : s.word a < 2 ^ 64 := by
  have h := leToNat_lt (s.bytes a 8)
  rw [State.bytes_eq_map, List.length_map, List.length_range] at h
  rw [State.word, State.bytes_eq_map]
  exact h

theorem ctrGet_ctrPut (s : State) (part h v : Nat) : ctrGet (ctrPut s part h v) part h = v % 2 ^ 64 :=
  s.word_writeWord (ctrAddr_page s part h) v

theorem ctrGet_ctrPut_ne (s : State) (part v : Nat) {h k : Nat} (hk : k % 4096 ≠ h % 4096) :
    ctrGet (ctrPut s part h v) part k = ctrGet s part k := by
  refine State.word_congr fun j hj => ?_
  have h0 := canonPa_ctrAddr s part h (j := 0) (by decide)
  have h1 := canonPa_ctrAddr s part k hj
  show (s.write (ctrAddr s part h) (natToLe v 8)).byte (ctrAddr s part k + j) = s.byte (ctrAddr s part k + j)
  rw [State.byte_write, natToLe_length, if_neg]
  rw [h1, ← Nat.add_zero (ctrAddr s part h), h0]
  omega

/-! ### What a write of the table leaves -/

/-- The control cores and the registers of the partitions are the same: no more than memory changed. -/
def sameTables (s t : State) : Prop := sameCores s t ∧ t.parts = s.parts

theorem sameTables.refl (s : State) : sameTables s s := ⟨.refl s, rfl⟩

theorem sameTables.trans {s t u : State} (h : sameTables s t) (k : sameTables t u) : sameTables s u :=
  ⟨h.1.trans k.1, k.2.trans h.2⟩

theorem sameTables.cur {s t : State} (h : sameTables s t) : t.cur = s.cur := h.1.1

theorem sameTables.region {s t : State} (h : sameTables s t) (q : Nat) : t.region q = s.region q := by
  obtain ⟨⟨-, hr, -⟩, -⟩ := h
  rw [State.region, hr, State.region]

theorem sameTables.task {s t : State} (h : sameTables s t) (c : CoreId) : t.task c = s.task c := h.1.task c

theorem sameTables.ctrAddr {s t : State} (h : sameTables s t) (part k : Nat) :
    Machine.ctrAddr t part k = Machine.ctrAddr s part k := by
  unfold Machine.ctrAddr State.part
  rw [h.2]

theorem ctrPut_sameTables (s : State) (part h v : Nat) : sameTables s (ctrPut s part h v) :=
  ⟨State.writeWord_sameCores _ _ _, rfl⟩

theorem ctrAdd_sameTables (s : State) (part h n : Nat) : sameTables s (ctrAdd s part h n) := by
  unfold ctrAdd
  split
  · exact .refl s
  · exact ctrPut_sameTables ..

/-! ### One child more (R23, R25) -/

/-- The count of a word below the limit rises by one, and nothing else in the word changes. -/
theorem setBits_count_succ {w : Nat} (hw : w < 2 ^ 64) (hc : ctrCount w + 1 ≤ 0xFFFFFFFF) :
    setBits w 31 0 (ctrCount w + 1) % 2 ^ 64 = w + 1 := by
  unfold ctrCount setBits nbits at *
  omega

theorem ctrGet_ctrAdd {s : State} {part h : Nat} (h0 : h ≠ 0) (hf : ctrFull s part h 1 = false) :
    ctrGet (ctrAdd s part h 1) part h = ctrGet s part h + 1 := by
  have hc : ctrCount (ctrGet s part h) + 1 ≤ 0xFFFFFFFF := by simpa [ctrFull] using hf
  rw [ctrAdd, if_neg h0, ctrGet_ctrPut]
  exact setBits_count_succ (s.word_lt _) hc

theorem ctrGet_ctrAdd_ne (s : State) (part n : Nat) {h k : Nat} (hk : k % 4096 ≠ h % 4096) :
    ctrGet (ctrAdd s part h n) part k = ctrGet s part k := by
  unfold ctrAdd
  split
  · rfl
  · exact ctrGet_ctrPut_ne s part _ hk

/-! ### One word in many entries -/

section
variable {part w : Nat}

/-- The same word put into the entries of a list. -/
def ctrPutAll (part w : Nat) (us : List (Nat × Nat)) (s : State) : State :=
  us.foldl (fun t u => ctrPut t part u.2 w) s

theorem ctrPutAll_sameTables : ∀ (us : List (Nat × Nat)) (s : State), sameTables s (ctrPutAll part w us s)
  | [], s => .refl s
  | u :: us, s => (ctrPut_sameTables s part u.2 w).trans (ctrPutAll_sameTables us _)

theorem ctrGet_ctrPutAll_ne {k : Nat} : ∀ (us : List (Nat × Nat)) (s : State), (∀ u ∈ us, k % 4096 ≠ u.2 % 4096) →
    ctrGet (ctrPutAll part w us s) part k = ctrGet s part k
  | [], _, _ => rfl
  | u :: us, s, h => (ctrGet_ctrPutAll_ne us _ fun x hx => h x (List.mem_cons_of_mem _ hx)).trans
      (ctrGet_ctrPut_ne s part w (h u List.mem_cons_self))

theorem ctrGet_ctrPutAll {k : Nat} : ∀ (us : List (Nat × Nat)) (s : State),
    ((∃ u ∈ us, u.2 = k) ∨ ctrGet s part k = w % 2 ^ 64) → (∀ u ∈ us, u.2 % 4096 = k % 4096 → u.2 = k) →
    ctrGet (ctrPutAll part w us s) part k = w % 2 ^ 64
  | [], _, h, _ => h.resolve_left nofun
  | u :: us, s, h, hd => by
    refine ctrGet_ctrPutAll us _ ?_ fun x hx => hd x (List.mem_cons_of_mem _ hx)
    by_cases hu : u.2 = k
    · exact .inr (hu ▸ ctrGet_ctrPut s part u.2 w)
    · rw [ctrGet_ctrPut_ne s part w fun e => hu (hd u List.mem_cons_self e.symm)]
      refine h.imp_left fun ⟨x, hx, e⟩ => ?_
      rcases List.mem_cons.1 hx with rfl | hx
      · exact absurd e hu
      · exact ⟨x, hx, e⟩

end

end Sys2Proof.Machine
end

section
/-! SUPPORT. What a launch writes into its region (R268): the units of its islands and the preloaded registers. -/

namespace Sys2Proof.Machine

/-! ### The units of a launch -/

/-- The islands of a mask, ascending. -/
def LaunchArgs.islands (x : LaunchArgs) : List Nat := (upTo 64).filter fun k => nbit x.mask k

theorem LaunchArgs.mem_islands {x : LaunchArgs} {i : Nat} : i ∈ x.islands ↔ i < 64 ∧ nbit x.mask i = true := by
  simp [LaunchArgs.islands, upTo_eq_range]

theorem LaunchArgs.units_eq (x : LaunchArgs) :
    x.units = ((List.range x.islands.length).zip x.islands).map fun p => (p.2, x.u0 + p.1) := rfl

theorem LaunchArgs.units_length (x : LaunchArgs) : x.units.length = x.islands.length := by
  simp [LaunchArgs.units_eq]

theorem LaunchArgs.units_fst (x : LaunchArgs) : x.units.map Prod.fst = x.islands := by
  rw [LaunchArgs.units_eq, List.map_map]
  exact List.map_snd_zip (by simp)

theorem LaunchArgs.units_eq_nil {x : LaunchArgs} : x.units = [] ↔ x.islands = [] := by
  rw [← List.length_eq_zero_iff, LaunchArgs.units_length, List.length_eq_zero_iff]

/-- The j-th island of the mask takes the j-th handle from U0 on. -/
theorem LaunchArgs.mem_units {x : LaunchArgs} {u : Nat × Nat} :
    u ∈ x.units ↔ ∃ j, x.islands[j]? = some u.1 ∧ u.2 = x.u0 + j := by
  rw [LaunchArgs.units_eq, List.mem_map]
  constructor
  · rintro ⟨⟨j, i⟩, hp, rfl⟩
    obtain ⟨k, hk⟩ := List.mem_iff_getElem?.1 hp
    rw [List.getElem?_zip_eq_some] at hk
    obtain ⟨hj, hi⟩ := hk
    obtain ⟨hlt, rfl⟩ := List.getElem?_eq_some_iff.1 hj
    rw [List.getElem_range]
    exact ⟨k, hi, rfl⟩
  · rintro ⟨j, hi, hu⟩
    obtain ⟨hlt, -⟩ := List.getElem?_eq_some_iff.1 hi
    refine ⟨(j, u.1), List.mem_iff_getElem?.2 ⟨j, List.getElem?_zip_eq_some.2 ⟨?_, hi⟩⟩, by rw [← hu]⟩
    rw [List.getElem?_range hlt]

theorem LaunchArgs.islands_nodup (x : LaunchArgs) : x.islands.Nodup := List.nodup_range.filter _

/-! ### Islands -/

/-- R268 step 3 for one island and its unit. -/
def Region.startIsland (trips : Nat) (g : Region) (u : Nat × Nat) : Region :=
  match g.island u.1 with
  | some i => g.setIsland u.1 (some (i.start u.2 trips))
  | none => g

/-- R268 step 3. -/
def Region.startIslands (g : Region) (trips : Nat) (us : List (Nat × Nat)) : Region :=
  us.foldl (Region.startIsland trips) g

theorem Region.startIsland_frame (g : Region) (trips : Nat) (u : Nat × Nat) :
    { g.startIsland trips u with islands := [] } = { g with islands := [] } := by
  unfold Region.startIsland
  split <;> rfl

theorem Region.startIslands_frame (trips : Nat) : ∀ (us : List (Nat × Nat)) (g : Region),
    { g.startIslands trips us with islands := [] } = { g with islands := [] }
  | [], _ => rfl
  | u :: us, g => (Region.startIslands_frame trips us _).trans (g.startIsland_frame trips u)

theorem Region.startIsland_island_ne (g : Region) (trips : Nat) {u : Nat × Nat} {i : Nat} (h : i ≠ u.1) :
    (g.startIsland trips u).island i = g.island i := by
  unfold Region.startIsland
  split
  · exact g.island_setIsland_ne _ h
  · rfl

theorem Region.startIslands_island_ne (trips : Nat) {i : Nat} : ∀ (us : List (Nat × Nat)) (g : Region),
    i ∉ us.map Prod.fst → (g.startIslands trips us).island i = g.island i
  | [], _, _ => rfl
  | u :: us, g, h => by
    rw [List.map_cons, List.mem_cons, not_or] at h
    exact (Region.startIslands_island_ne trips us _ h.2).trans (g.startIsland_island_ne trips h.1)

/-- An island of the mask runs its unit. -/
theorem Region.startIslands_island (trips : Nat) {u : Nat × Nat} {y : Island} : ∀ (us : List (Nat × Nat)) (g : Region),
    (us.map Prod.fst).Nodup → u ∈ us → g.island u.1 = some y →
    (g.startIslands trips us).island u.1 = some (y.start u.2 trips)
  | v :: us, g, hd, hu, hy => by
    rw [List.map_cons, List.nodup_cons] at hd
    obtain ⟨hv, hd⟩ := hd
    rcases List.mem_cons.1 hu with rfl | hu
    · have h1 : (g.startIsland trips u).island u.1 = some (y.start u.2 trips) := by
        rw [Region.startIsland, hy]
        exact g.island_setIsland _ _
      exact (Region.startIslands_island_ne trips us _ hv).trans h1
    · have hne : u.1 ≠ v.1 := fun e => hv (e ▸ List.mem_map_of_mem hu)
      exact Region.startIslands_island trips us _ hd hu ((g.startIsland_island_ne trips hne).trans hy)

/-! ### Preloads -/

/-- A vector register of an element. -/
def Region.vreg (g : Region) (e v : Nat) : BitVec 512 := mapGet 0 (g.element e).v v

/-- R268 step 2 for one record. -/
def Region.preload (g : Region) (p : Preload) : Region :=
  g.setElement p.elem { g.element p.elem with v := mapSet 0 (g.element p.elem).v p.reg p.data }

theorem Region.preload_vreg (g : Region) (p : Preload) : (g.preload p).vreg p.elem p.reg = p.data := by
  rw [Region.vreg, Region.preload, Region.element_setElement]
  exact mapGet_mapSet_same _ _ _ _

theorem Region.preload_vreg_ne (g : Region) (p : Preload) {e v : Nat} (h : p.elem = e → p.reg ≠ v) :
    (g.preload p).vreg e v = g.vreg e v := by
  unfold Region.vreg Region.preload
  by_cases he : e = p.elem
  · subst he
    rw [Region.element_setElement]
    exact mapGet_mapSet_ne _ _ _ (h rfl).symm
  · rw [Region.element_setElement_ne _ _ he]

theorem Region.preload_element (g : Region) (p : Preload) (e : Nat) :
    { (g.preload p).element e with v := [] } = { g.element e with v := [] } := by
  unfold Region.preload
  by_cases he : e = p.elem
  · subst he
    rw [Region.element_setElement]
  · rw [Region.element_setElement_ne _ _ he]

theorem writePreloads_frame : ∀ (l : List Preload) (g : Region),
    { writePreloads g l with elements := [] } = { g with elements := [] }
  | [], _ => rfl
  | p :: l, g => (writePreloads_frame l (g.preload p)).trans rfl

theorem writePreloads_element (e : Nat) : ∀ (l : List Preload) (g : Region),
    { (writePreloads g l).element e with v := [] } = { g.element e with v := [] }
  | [], _ => rfl
  | p :: l, g => (writePreloads_element e l (g.preload p)).trans (g.preload_element p e)

theorem writePreloads_vreg_ne {e v : Nat} : ∀ (l : List Preload) (g : Region), (∀ p ∈ l, p.elem = e → p.reg ≠ v) →
    (writePreloads g l).vreg e v = g.vreg e v
  | [], _, _ => rfl
  | p :: l, g, h => (writePreloads_vreg_ne l (g.preload p) fun q hq => h q (List.mem_cons_of_mem _ hq)).trans
      (g.preload_vreg_ne p (h p List.mem_cons_self))

/-- A register that every record for it gives the same value holds that value. -/
theorem writePreloads_vreg {e v : Nat} {x : BitVec 512} (l : List Preload) (g : Region)
    (hx : ∀ p ∈ l, p.elem = e → p.reg = v → p.data = x)
    (h : (∃ p ∈ l, p.elem = e ∧ p.reg = v) ∨ g.vreg e v = x) : (writePreloads g l).vreg e v = x := by
  induction l generalizing g with
  | nil => exact h.resolve_left fun ⟨_, hq, _⟩ => nomatch hq
  | cons p l ih =>
    refine ih (g.preload p) (fun q hq => hx q (List.mem_cons_of_mem _ hq)) ?_
    by_cases hp : p.elem = e ∧ p.reg = v
    · obtain ⟨rfl, rfl⟩ := hp
      exact .inr ((g.preload_vreg p).trans (hx p List.mem_cons_self rfl rfl))
    · rw [g.preload_vreg_ne p fun he hv => hp ⟨he, hv⟩]
      refine h.imp_left fun ⟨q, hq, hm⟩ => ?_
      rcases List.mem_cons.1 hq with rfl | hq
      · exact absurd hm hp
      · exact ⟨q, hq, hm⟩

/-! ### The region of a launch -/

/-- The region once a launch has started. -/
def Region.launched (g : Region) (x : LaunchArgs) (pre : List Preload) : Region :=
  (writePreloads g pre).startIslands x.trips x.units

theorem Region.launched_tasks (g : Region) (x : LaunchArgs) (pre : List Preload) : (g.launched x pre).tasks = g.tasks :=
  (congrArg Region.tasks (Region.startIslands_frame x.trips x.units (writePreloads g pre)):).trans
    (congrArg Region.tasks (writePreloads_frame pre g):)

theorem writePreloads_island (g : Region) (pre : List Preload) (i : Nat) :
    (writePreloads g pre).island i = g.island i := by
  have h : (writePreloads g pre).islands = g.islands := (congrArg Region.islands (writePreloads_frame pre g):)
  rw [Region.island, h, Region.island]

theorem Region.launched_element (g : Region) (x : LaunchArgs) (pre : List Preload) (e : Nat) :
    (g.launched x pre).element e = (writePreloads g pre).element e := by
  have h : (g.launched x pre).elements = (writePreloads g pre).elements :=
    (congrArg Region.elements (Region.startIslands_frame x.trips x.units (writePreloads g pre)):)
  rw [Region.element, h, Region.element]

/-- The j-th island of the mask runs its unit. -/
theorem Region.launched_island {g : Region} {x : LaunchArgs} {i j : Nat} {y : Island} (hj : x.islands[j]? = some i)
    (hy : g.island i = some y) (pre : List Preload) :
    (g.launched x pre).island i = some (y.start (x.u0 + j) x.trips) :=
  Region.startIslands_island x.trips (u := (i, x.u0 + j)) _ _ (by rw [x.units_fst]; exact x.islands_nodup)
    (LaunchArgs.mem_units.2 ⟨j, hj, rfl⟩) ((writePreloads_island g pre i).trans hy)

/-- The islands outside the mask stay. -/
theorem Region.launched_island_ne (g : Region) (x : LaunchArgs) (pre : List Preload) {i : Nat}
    (h : nbit x.mask i = false ∨ 64 ≤ i) : (g.launched x pre).island i = g.island i := by
  refine (Region.startIslands_island_ne x.trips _ _ ?_).trans (writePreloads_island g pre i)
  rw [x.units_fst, LaunchArgs.mem_islands]
  rintro ⟨hlt, hb⟩
  rcases h with h | h
  · rw [h] at hb
    cases hb
  · omega

end Sys2Proof.Machine
end

section
/-! SUPPORT. A launch (R268): its counters, its refusals and its waits (R117, R337). -/

namespace Sys2Proof.Machine

/-! ### The counters of a launch -/

/-- The table once a launch has opened its own counter and those of its units. -/
def openLaunch (s : State) (g : Region) (x : LaunchArgs) : State :=
  ctrPut (ctrPutAll g.part (ctrMake 0 false false x.l 0 x.trips) x.units s) g.part x.l
    (ctrMake 1 false false x.p g.phase x.units.length)

/-- The table once the parent and the phase, too, count the launch. -/
def countLaunch (s : State) (g : Region) (x : LaunchArgs) : State :=
  ctrAdd (ctrAdd (openLaunch s g x) g.part x.p 1) g.part g.phase 1

theorem openLaunch_sameTables (s : State) (g : Region) (x : LaunchArgs) : sameTables s (openLaunch s g x) :=
  (ctrPutAll_sameTables x.units s).trans (ctrPut_sameTables ..)

theorem countLaunch_sameTables (s : State) (g : Region) (x : LaunchArgs) : sameTables s (countLaunch s g x) :=
  ((openLaunch_sameTables s g x).trans (ctrAdd_sameTables ..)).trans (ctrAdd_sameTables ..)

/-- The handles of a launch name counters, all different. -/
structure LaunchArgs.Distinct (x : LaunchArgs) (phase : Nat) : Prop where
  launch_lt : x.l < 4096
  parent_lt : x.p < 4096
  phase_lt : phase < 4096
  unit_lt : ∀ u ∈ x.units, u.2 < 4096
  launch_parent : x.l ≠ x.p
  launch_phase : x.l ≠ phase
  parent_phase : x.p ≠ phase
  unit_other : ∀ u ∈ x.units, u.2 ≠ x.l ∧ u.2 ≠ x.p ∧ u.2 ≠ phase

theorem ctrMake_lt (level parent phase count : Nat) (h : level < 8) :
    ctrMake level false false parent phase count < 2 ^ 64 := by
  unfold ctrMake
  simp only [Bool.false_eq_true, if_false]
  omega

section
variable {s : State} {g : Region} {x : LaunchArgs}

/-- Neither the parent nor the phase is opened anew. -/
theorem ctrGet_openLaunch_ne {k : Nat} (hk : k < 4096) (hl : x.l < 4096) (hu : ∀ u ∈ x.units, u.2 < 4096)
    (hkl : k ≠ x.l) (hku : ∀ u ∈ x.units, u.2 ≠ k) : ctrGet (openLaunch s g x) g.part k = ctrGet s g.part k := by
  rw [openLaunch, ctrGet_ctrPut_ne _ _ _ (by omega)]
  refine ctrGet_ctrPutAll_ne _ _ fun u h => ?_
  have h1 := hu u h
  have h2 := hku u h
  omega

theorem ctrGet_openLaunch_launch :
    ctrGet (openLaunch s g x) g.part x.l = ctrMake 1 false false x.p g.phase x.units.length := by
  rw [openLaunch, ctrGet_ctrPut, Nat.mod_eq_of_lt (ctrMake_lt _ _ _ _ (by decide))]

theorem ctrGet_openLaunch_unit (hd : x.Distinct g.phase) {u : Nat × Nat} (h : u ∈ x.units) :
    ctrGet (openLaunch s g x) g.part u.2 = ctrMake 0 false false x.l 0 x.trips := by
  have h1 := hd.unit_lt u h
  have h2 := hd.launch_lt
  obtain ⟨hl, -, -⟩ := hd.unit_other u h
  rw [openLaunch, ctrGet_ctrPut_ne _ _ _ (by omega), ctrGet_ctrPutAll _ _ (.inl ⟨u, h, rfl⟩) fun v hv e => ?_,
    Nat.mod_eq_of_lt (ctrMake_lt _ _ _ _ (by decide))]
  have h3 := hd.unit_lt v hv
  omega

theorem ctrFull_congr {t : State} {part h n : Nat} (e : ctrGet t part h = ctrGet s part h) :
    ctrFull t part h n = ctrFull s part h n := by
  rw [ctrFull, e, ctrFull]

theorem ctrGet_countLaunch_ne {k : Nat} (hk : k < 4096) (hp : x.p < 4096) (hph : g.phase < 4096) (hkp : k ≠ x.p)
    (hkph : k ≠ g.phase) : ctrGet (countLaunch s g x) g.part k = ctrGet (openLaunch s g x) g.part k := by
  rw [countLaunch, ctrGet_ctrAdd_ne _ _ _ (by omega), ctrGet_ctrAdd_ne _ _ _ (by omega)]

/-- R268: the parent counts one child more. -/
theorem ctrGet_countLaunch_parent (hd : x.Distinct g.phase) (h0 : x.p ≠ 0) (hf : ctrFull s g.part x.p 1 = false) :
    ctrGet (countLaunch s g x) g.part x.p = ctrGet s g.part x.p + 1 := by
  have h1 := hd.parent_lt
  have h2 := hd.phase_lt
  have h3 := hd.parent_phase
  have ho : ctrGet (openLaunch s g x) g.part x.p = ctrGet s g.part x.p :=
    ctrGet_openLaunch_ne h1 hd.launch_lt hd.unit_lt hd.launch_parent.symm fun u h => (hd.unit_other u h).2.1
  rw [countLaunch, ctrGet_ctrAdd_ne _ _ _ (by omega), ctrGet_ctrAdd h0 (by rw [ctrFull_congr ho]; exact hf), ho]

/-- R268: the phase counts one child more. -/
theorem ctrGet_countLaunch_phase (hd : x.Distinct g.phase) (h0 : g.phase ≠ 0) (hf : ctrFull s g.part g.phase 1 = false) :
    ctrGet (countLaunch s g x) g.part g.phase = ctrGet s g.part g.phase + 1 := by
  have h1 := hd.parent_lt
  have h2 := hd.phase_lt
  have h3 := hd.parent_phase
  have ho : ctrGet (ctrAdd (openLaunch s g x) g.part x.p 1) g.part g.phase = ctrGet s g.part g.phase := by
    rw [ctrGet_ctrAdd_ne _ _ _ (by omega)]
    exact ctrGet_openLaunch_ne h2 hd.launch_lt hd.unit_lt hd.launch_phase.symm fun u h => (hd.unit_other u h).2.2
  rw [countLaunch, ctrGet_ctrAdd h0 (by rw [ctrFull_congr ho]; exact hf), ho]

end

/-! ### The start -/

section
variable {s : State} {x : LaunchArgs}

theorem startLaunch_empty (h : x.units = []) (r : Nat) (pre : List Preload) :
    startLaunch s r x pre = openLaunch s (s.region r) x := by
  unfold startLaunch
  dsimp only
  rw [if_pos h]
  rfl

theorem startLaunch_eq (h : x.units ≠ []) (r : Nat) (pre : List Preload) :
    startLaunch s r x pre =
      (countLaunch s (s.region r) x).setRegion r ((s.region r).launched x pre) := by
  unfold startLaunch
  dsimp only
  rw [if_neg h]
  show (countLaunch s (s.region r) x).setRegion r
    (((countLaunch s (s.region r) x).region r).launched x pre) = _
  rw [(countLaunch_sameTables s (s.region r) x).region]

/-- What a launch leaves of the control cores and the other regions. -/
theorem startLaunch_frame (s : State) (r : Nat) (x : LaunchArgs) (pre : List Preload) :
    (startLaunch s r x pre).cur = s.cur ∧ (∀ c, (startLaunch s r x pre).task c = s.task c) ∧
      (∀ q, q ≠ r → (startLaunch s r x pre).region q = s.region q) ∧
      ∀ part k, ctrAddr (startLaunch s r x pre) part k = ctrAddr s part k := by
  by_cases h : x.units = []
  · have ht := openLaunch_sameTables s (s.region r) x
    rw [startLaunch_empty h]
    exact ⟨ht.cur, ht.task, fun q _ => ht.region q, ht.ctrAddr⟩
  · have ht := countLaunch_sameTables s (s.region r) x
    rw [startLaunch_eq h]
    refine ⟨ht.cur, fun c => ?_, fun q hq => (State.region_setRegion_ne _ _ hq).trans (ht.region q), ht.ctrAddr⟩
    cases c with
    | stew c => exact ht.task (.stew c)
    | seq q n =>
      by_cases hq : q = r
      · subst hq
        show ((State.setRegion _ q _).region q).task n = (s.region q).task n
        rw [State.region_setRegion, Region.task, Region.launched_tasks, Region.task]
      · show ((State.setRegion _ r _).region q).task n = (s.region q).task n
        rw [State.region_setRegion_ne _ _ hq, ht.region]

end

end Sys2Proof.Machine
end

section
/-! SUPPORT. The paths of a launch (R268): refused, held by a token, waiting as a release, and accepted. -/

namespace Sys2Proof.Machine

theorem ctrBad_eq_false {s : State} {part h : Nat} (hb : ctrBad s part h = false) : h ≠ 0 ∧ h < 4096 := by
  simp only [ctrBad, Bool.or_eq_false_iff, decide_eq_false_iff_not] at hb
  omega

/-- An accepted launch names a parent and handles of the table. -/
theorem launchRefusal_handles {s : State} {g : Region} {x : LaunchArgs} {n : Nat} (h : launchRefusal s g x n = none) :
    x.p ≠ 0 ∧ ∀ u ∈ x.units, u.2 < 4096 := by
  unfold launchRefusal at h
  dsimp only at h
  split at h
  · cases h
  · rename_i hb
    simp only [Bool.or_eq_true, not_or, Bool.not_eq_true, Bool.not_eq_false', List.any_eq_false] at hb
    obtain ⟨⟨-, hp⟩, hu⟩ := hb
    refine ⟨fun e => ?_, fun u hm => (ctrBad_eq_false (by simpa using hu u hm)).2⟩
    rw [e] at hp
    simp [openParent, ctrBad] at hp

/-- Different handles, as the list of them has them. -/
theorem LaunchArgs.distinct_of_nodup {x : LaunchArgs} {phase : Nat} (hl : x.l < 4096) (hp : x.p < 4096)
    (hph : phase < 4096) (hu : ∀ u ∈ x.units, u.2 < 4096)
    (hd : (x.l :: x.p :: phase :: (upTo x.islands.length).map fun j => x.u0 + j).Nodup) : x.Distinct phase := by
  have hmem : ∀ u ∈ x.units, u.2 ∈ (upTo x.islands.length).map fun j => x.u0 + j := fun u h => by
    obtain ⟨j, hj, e⟩ := LaunchArgs.mem_units.1 h
    rw [List.mem_map]
    exact ⟨j, List.mem_range.2 (List.getElem?_eq_some_iff.1 hj).1, e.symm⟩
  simp only [List.nodup_cons, List.mem_cons, not_or] at hd
  obtain ⟨⟨h1, h2, h3⟩, ⟨h4, h5⟩, h6, -⟩ := hd
  exact ⟨hl, hp, hph, hu, h1, h2, h4, fun u h => ⟨fun e => h3 (e ▸ hmem u h), fun e => h5 (e ▸ hmem u h),
    fun e => h6 (e ▸ hmem u h)⟩⟩

theorem launchArgs_lt (l : List Word) : (launchArgs l).l < 4096 ∧ (launchArgs l).p < 4096 :=
  ⟨Nat.mod_lt _ (by decide), Nat.mod_lt _ (by decide)⟩

section
variable {s : State} {r k : Nat} {d a : BitVec 5} {n : BitVec 3}

theorem exec_launch_accepted (hc : s.cur = .seq r k) (ht : (s.region r).token = none)
    (hr : launchRefusal s (s.region r) (launchArgs (s.me.listFrom a n.toNat)) (s.me.listFrom a n.toNat).length = none) :
    exec (.launch d a n) s = .next (releaseWait s (.launch d a n) (capMe s 2).1 (capMe s 2).2 (launchAt d a n r)) := by
  show execLaunch d a n s = _
  unfold execLaunch onSequencer
  rw [hc]
  dsimp only
  rw [if_pos (by rw [ht, hr]; decide)]

theorem exec_launch_else (hc : s.cur = .seq r k) (h : ¬ ((s.region r).token = none ∧
    launchRefusal s (s.region r) (launchArgs (s.me.listFrom a n.toNat)) (s.me.listFrom a n.toNat).length = none)) :
    exec (.launch d a n) s = .next (launchAt d a n r s) := by
  show execLaunch d a n s = _
  unfold execLaunch onSequencer
  rw [hc]
  dsimp only
  rw [if_neg (by simpa using h)]

theorem launchAt_token (ht : (s.region r).token ≠ none) : launchAt d a n r s = s.holdMe (.wait (.launch d a n)) := by
  unfold launchAt
  dsimp only
  rw [if_pos ht]

theorem launchAt_refused {code : Nat} (ht : (s.region r).token = none)
    (hr : launchRefusal s (s.region r) (launchArgs (s.me.listFrom a n.toNat)) (s.me.listFrom a n.toNat).length =
      some code) : launchAt d a n r s = s.answer d code 0 := by
  unfold launchAt
  dsimp only
  rw [if_neg (by simp [ht]), hr]

/-- The preload records of an accepted launch, and the state that reading them leaves. -/
theorem launchAt_goes {u : State} {pre : List Preload} {bs : List Byte} (ht : (s.region r).token = none)
    (hr : launchRefusal s (s.region r) (launchArgs (s.me.listFrom a n.toNat)) (s.me.listFrom a n.toNat).length = none)
    (hp : ((launchArgs (s.me.listFrom a n.toNat)).count = 0 ∧ u = s ∧ pre = []) ∨
      (0 < (launchArgs (s.me.listFrom a n.toNat)).count ∧
        coreRead s ((s.me.listFrom a n.toNat).getD 3 0).toNat (72 * (launchArgs (s.me.listFrom a n.toNat)).count) .read =
          (.ok bs, u) ∧ pre = preloadsOf (launchArgs (s.me.listFrom a n.toNat)).count bs)) :
    launchAt d a n r s = launchGo d r (launchArgs (s.me.listFrom a n.toNat)) pre u := by
  unfold launchAt
  dsimp only
  rw [if_neg (by simp [ht]), hr]
  dsimp only
  rcases hp with ⟨hcount, rfl, rfl⟩ | ⟨hcount, hread, rfl⟩
  · rw [if_pos hcount]
  · rw [if_neg (by omega), hread]

theorem launchGo_starts {x : LaunchArgs} {pre : List Preload} (hm : ∀ p ∈ pre, inMask (s.region r) x p.elem = true)
    (hf : launchFull s (s.region r) x = false) : launchGo d r x pre s = (startLaunch s r x pre).answer d 0 0 := by
  unfold launchGo
  dsimp only
  rw [if_neg (by simpa using hm), if_neg (by simp [hf])]
  rfl

end

/-! ### The words of a launch -/

section
variable {s : State} {r : Nat} {x : LaunchArgs}

theorem startLaunch_word (h : x.units ≠ []) (r : Nat) (pre : List Preload) (part k : Nat) :
    (startLaunch s r x pre).word (ctrAddr s part k) = ctrGet (countLaunch s (s.region r) x) part k := by
  rw [startLaunch_eq h, ← (countLaunch_sameTables s (s.region r) x).ctrAddr]
  rfl

/-- The launch's own word holds the number of islands, its parent and the phase. -/
theorem startLaunch_launch (hd : x.Distinct (s.region r).phase) (pre : List Preload) :
    (startLaunch s r x pre).word (ctrAddr s (s.region r).part x.l) =
      ctrMake 1 false false x.p (s.region r).phase x.islands.length := by
  rw [← x.units_length]
  by_cases h : x.units = []
  · rw [startLaunch_empty h, ← (openLaunch_sameTables s (s.region r) x).ctrAddr]
    exact ctrGet_openLaunch_launch
  · rw [startLaunch_word h, ctrGet_countLaunch_ne hd.launch_lt hd.parent_lt hd.phase_lt hd.launch_parent hd.launch_phase,
      ctrGet_openLaunch_launch]

/-- The word of a unit holds its trips under the launch. -/
theorem startLaunch_unit (hd : x.Distinct (s.region r).phase) {i j : Nat} (hj : x.islands[j]? = some i)
    (pre : List Preload) :
    (startLaunch s r x pre).word (ctrAddr s (s.region r).part (x.u0 + j)) = ctrMake 0 false false x.l 0 x.trips := by
  have hu : (i, x.u0 + j) ∈ x.units := LaunchArgs.mem_units.2 ⟨j, hj, rfl⟩
  obtain ⟨-, hp, hph⟩ := hd.unit_other _ hu
  rw [startLaunch_word (List.ne_nil_of_mem hu),
    ctrGet_countLaunch_ne (hd.unit_lt _ hu) hd.parent_lt hd.phase_lt hp hph]
  exact ctrGet_openLaunch_unit hd hu

/-- Parent and phase count the launch. -/
theorem startLaunch_parents (hd : x.Distinct (s.region r).phase) (h : x.units ≠ []) (h0 : x.p ≠ 0)
    (hf : launchFull s (s.region r) x = false) (pre : List Preload) :
    (startLaunch s r x pre).word (ctrAddr s (s.region r).part x.p) = s.word (ctrAddr s (s.region r).part x.p) + 1 ∧
      ((s.region r).phase ≠ 0 → (startLaunch s r x pre).word (ctrAddr s (s.region r).part (s.region r).phase) =
        s.word (ctrAddr s (s.region r).part (s.region r).phase) + 1) := by
  simp only [launchFull, Bool.or_eq_false_iff, Bool.and_eq_false_iff, decide_eq_false_iff_not] at hf
  obtain ⟨hfp, hfph⟩ := hf
  rw [startLaunch_word h, startLaunch_word h]
  exact ⟨ctrGet_countLaunch_parent hd h0 hfp, fun hne =>
    ctrGet_countLaunch_phase hd hne (hfph.resolve_left fun e => e hne)⟩

/-! ### The region of a launch -/

/-- The islands and elements of the region, whether or not the mask names an island. -/
theorem startLaunch_region {pre : List Preload} (hp : x.units = [] → pre = []) :
    (startLaunch s r x pre).region r = (s.region r).launched x pre := by
  by_cases h : x.units = []
  · rw [startLaunch_empty h, (openLaunch_sameTables s (s.region r) x).region, hp h, Region.launched, h]
    rfl
  · rw [startLaunch_eq h]
    exact State.region_setRegion ..

end

/-- Regions that differ in their tasks alone have the same islands and elements. -/
theorem Region.parts_of_frame {g h : Region} (e : { h with tasks := [] } = { g with tasks := [] }) :
    (∀ i, h.island i = g.island i) ∧ ∀ k, h.element k = g.element k := by
  have hi : h.islands = g.islands := by
    have := congrArg Region.islands e
    exact this
  have he : h.elements = g.elements := by
    have := congrArg Region.elements e
    exact this
  exact ⟨fun i => by rw [Region.island, hi, Region.island], fun k => by rw [Region.element, he, Region.element]⟩

/-! ### An answer to a sequencer -/

theorem State.answer_ends (s : State) (d : BitVec 5) {code : Nat} (h : code < 256) :
    ends s (s.answer d code 0)
      { s.me.set d (BitVec.ofNat 64 code) with pc := s.me.pc + 4, hold := .ready } :=
  ((ends.refl s).answer d code 0).of_eq (by rw [statusWord_code h])

theorem State.answer_onlyRegion {s : State} {r k : Nat} (hc : s.cur = .seq r k) (d : BitVec 5) (code value : Nat) :
    onlyRegion r s (s.answer d code value) := by
  have h := State.setMe_onlyRegion hc { s.me with hold := .ready }
  refine h.trans (State.setMe_onlyRegion (n := k) ?_ _)
  rw [State.setMe_cur, hc]

/-! ### The ends of a launch's waits -/

/-- A core that becomes ready, seen from itself. -/
theorem State.ready_ends (s : State) (c : CoreId) :
    ends { s with cur := c } { s.ready c with cur := c } { s.task c with hold := .ready } := by
  have h := State.setMe_ends { s with cur := c } { s.task c with hold := .ready }
  cases c <;> exact h

/-- LAUNCH_HOLD_END of a task that the token held (R268). -/
theorem exec_launchHoldEnd {s : State} {c : CoreId} {d a : BitVec 5} {n : BitVec 3}
    (h : (s.task c).hold = .wait (.launch d a n)) (ht : tokenGone s c = true) :
    exec (.launchHoldEnd c) s = .next (s.ready c) := by
  show execLaunchHoldEnd c s = _
  rw [execLaunchHoldEnd, holdEnd, h]
  dsimp only
  rw [ht]
  rfl

/-- Once a launch has nothing to wait for, its issue is the launch itself. -/
theorem exec_launch_over {s : State} (h : fenceOver s s.cur (capMe s 2).1 = true) (d a : BitVec 5) (n : BitVec 3) :
    exec (.launch d a n) s = .next (launchRun d a n s) := by
  show execLaunch d a n s = _
  unfold execLaunch launchRun onSequencer
  cases hc : s.cur with
  | stew c => rfl
  | seq r k =>
    dsimp only
    split
    · rw [releaseWait_over h]
    · rfl

end Sys2Proof.Machine

namespace Sys2Proof.Settled

open Sys2Proof.Machine

/-- Settles O30: each path of a launch by its own rule; an accepted one writes its counters, its islands and its
preloads in turn. -/
theorem launchResult : Obligations.LaunchResult := by
  intro s r k d a n hc
  dsimp only
  refine ⟨fun code ht hr hcode => ?_, fun ht => ?_, fun j ht hw => ?_, fun ht hr h2 hp => ?_,
    fun c at_ capped since lim hw hp => ⟨?_, fun hat => ?_⟩,
    fun u pre bs ht hr hp hread hmask hfull hphase hcur hnd => ?_⟩
  · refine ⟨_, exec_launch_else hc (fun h => by rw [hr] at h; cases h.2), ?_⟩
    rw [launchAt_refused ht hr]
    exact s.answer_ends d hcode
  · refine ⟨_, exec_launch_else hc (fun h => ht h.1), ?_⟩
    rw [launchAt_token ht]
    exact (ends.refl s).holdMe _
  · exact ⟨_, exec_launchHoldEnd (c := .seq r j) hw (by simp [tokenGone, ht]), s.ready_ends (.seq r j)⟩
  · refine ⟨_, (capMe s 2).2, exec_launch_accepted hc ht hr, ?_⟩
    rw [capMe_eq]
    have hlevel : coreLevel s.cur = 2 := by
      rw [hc]
      rfl
    exact releaseWait_pending (fenceOver_of_pending hp (hlevel ▸ h2)) ..
  · exact exec_fenceComplete hw (fenceOver_of_performed hp)
  · rw [exec_fenceComplete hw (fenceOver_of_performed hp), exec_launch_over]
    · rfl
    · rw [capMe_eq]
      simp only [State.ready, State.setTask_cur, State.partOf_setTask, State.part_setTask]
      refine fenceOver_of_performed fun p hs hi => ?_
      rw [State.setTask_stores] at hs
      exact Nat.le_trans (Nat.le_of_eq hat.symm) (hp p hs hi)
  · obtain ⟨hp0, hunits⟩ := launchRefusal_handles hr
    obtain ⟨hl, hpl⟩ := launchArgs_lt (s.me.listFrom a n.toNat)
    have hd := LaunchArgs.distinct_of_nodup hl hpl hphase hunits hnd
    have hexec := exec_launch_accepted (d := d) hc ht hr
    rw [releaseWait_over (by rw [capMe_eq]; exact fenceOver_of_performed hp), launchAt_goes ht hr hread,
      launchGo_starts hmask hfull] at hexec
    generalize launchArgs (s.me.listFrom a n.toNat) = x at *
    have hnil : x.units = [] → pre = [] := fun h => List.eq_nil_iff_forall_not_mem.2 fun p hp => by
      have := hmask p hp
      rw [inMask, h] at this
      cases this
    have hnn : x.islands ≠ [] → x.units ≠ [] := fun h e => h (LaunchArgs.units_eq_nil.1 e)
    obtain ⟨wcur, wtask, wregion, -⟩ := startLaunch_frame u r x pre
    have hreg := startLaunch_region (s := u) (r := r) hnil
    have hend := (startLaunch u r x pre).answer_ends d (code := 0) (by decide)
    have honly := State.answer_onlyRegion (s := startLaunch u r x pre) (wcur.trans (hcur.trans hc)) d 0 0
    have hwl := startLaunch_launch hd pre
    have hwu := fun i j (h : x.islands[j]? = some i) => startLaunch_unit hd h pre
    have hwp := fun h => startLaunch_parents hd (hnn h) hp0 hfull pre
    generalize startLaunch u r x pre = w at *
    generalize w.answer d 0 0 = t at *
    obtain ⟨hme, ⟨-, htasks, hregs, -⟩, hmem⟩ := hend
    have hwm : w.me = u.me := by
      rw [State.me, wcur, wtask]
      rfl
    obtain ⟨hisl, hel⟩ := Region.parts_of_frame (hreg ▸ hregs r)
    refine ⟨t, hexec, ?_, fun c hne => ?_, fun q hq => (honly.2 q hq).trans (wregion q hq), (hmem.word _).trans hwl,
      fun hne => ⟨(hmem.word _).trans (hwp hne).1, fun h0 => (hmem.word _).trans ((hwp hne).2 h0)⟩,
      fun j i hj => ⟨(hmem.word _).trans (hwu i j hj), fun y hy => ?_⟩,
      fun i hi => ?_, fun hne p hpre hsame => ?_, fun e => ⟨?_, fun v hv => ?_⟩⟩
    · rw [hme, hwm]
      rfl
    · exact (htasks c (by rw [wcur, hcur]; exact hne)).trans (wtask c)
    · exact (hisl i).trans (Region.launched_island hj hy pre)
    · exact (hisl i).trans ((u.region r).launched_island_ne x pre hi)
    · rw [hel, Region.launched_element]
      exact writePreloads_vreg pre (u.region r) hsame (.inl ⟨p, hpre, rfl, rfl⟩)
    · rw [hel, Region.launched_element]
      exact writePreloads_element e pre (u.region r)
    · rw [hel, Region.launched_element]
      exact writePreloads_vreg_ne pre (u.region r) hv

end Sys2Proof.Settled
end

section
/-! SUPPORT. Reads of region-shared memory (R84, R111): a clean window answers its bytes and nothing changes. -/

namespace Sys2Proof.Machine

/-- R359: a unit without a mark and without an error reads well, and nothing changes. -/
theorem readElmUnit_clean {s : State} (hp : ∀ u, mapGet false s.poison u = false) (hb : ∀ u, mapGet 0 s.bad u = 0)
    (r e off : Nat) : readElmUnit s r e off = (false, s) := by
  simp [readElmUnit, hp, hb]

/-- A fold whose every step keeps its value keeps it. -/
theorem foldl_eq_self {α β : Type} {f : α → β → α} {a : α} (l : List β) (h : ∀ x ∈ l, f a x = a) :
    l.foldl f a = a := by
  induction l with
  | nil => rfl
  | cons x l ih =>
    rw [List.foldl_cons, h x List.mem_cons_self]
    exact ih fun y hy => h y (List.mem_cons_of_mem _ hy)

/-- The window of n bytes from an address, by the address that the bus carries (R84). -/
theorem windowAt.reach {s : State} {r va n : Nat} (h : windowAt s r va n) {j : Nat} (hj : j < n) :
    elmReach (s.region r) (rsmElem ((va % 2 ^ 27 + j) % 2 ^ 27)) (rsmOff ((va % 2 ^ 27 + j) % 2 ^ 27)) = true ∧
      bankMine (s.region r) (rsmElem ((va % 2 ^ 27 + j) % 2 ^ 27)) (rsmOff ((va % 2 ^ 27 + j) % 2 ^ 27) / 0xC00) =
        true := by
  rw [Nat.mod_add_mod]
  exact h.1 j hj

/-- R84: the element and the offset of an address of the window. -/
theorem rsmPlace_mod (a j : Nat) :
    (rsmElem ((a % 2 ^ 27 + j) % 2 ^ 27), rsmOff ((a % 2 ^ 27 + j) % 2 ^ 27)) =
      ((a + j) % 2 ^ 27 / 2 ^ 19, (a + j) % 2 ^ 19) := by
  simp only [rsmElem, rsmOff, Prod.mk.injEq]
  omega

/-- R84: a read of a clean window answers the bytes of the element memories. -/
theorem readRsm_window {s : State} {r va n : Nat} (hw : windowAt s r va n) :
    readRsm s r (va % 2 ^ 27) n = (.ok ((upTo n).map fun k =>
      s.elmByte r ((va + k) % 2 ^ 27 / 2 ^ 19) ((va + k) % 2 ^ 19), rsmOut (s.region r) (va % 2 ^ 27) n), s) := by
  have hfold := foldl_eq_self (a := (false, s)) (f := fun (acc : Bool × State) i =>
      let b := (va % 2 ^ 27 + i) % 2 ^ 27
      if elmReach (s.region r) (rsmElem b) (rsmOff b) && (i = 0 || b % 8 = 0) then
        let (x, t) := readElmUnit acc.2 r (rsmElem b) (rsmOff b)
        (acc.1 || x, t)
      else acc) (upTo n) fun i _ => by
    dsimp only
    rw [readElmUnit_clean hw.2.1 hw.2.2]
    exact ite_self _
  have hbytes : ((upTo n).map fun i => rsmByte (s.region r) ((va % 2 ^ 27 + i) % 2 ^ 27)) = (upTo n).map fun k =>
      s.elmByte r ((va + k) % 2 ^ 27 / 2 ^ 19) ((va + k) % 2 ^ 19) := by
    refine List.map_congr_left fun j hj => ?_
    rw [upTo_eq_range, List.mem_range] at hj
    obtain ⟨he, ho⟩ := Prod.mk.inj (rsmPlace_mod va j)
    rw [rsmByte, if_pos (hw.reach hj).1, he, ho, State.elmByte]
  unfold readRsm
  rw [rsmForeign_eq_none n fun j hj => (hw.reach hj).2]
  dsimp only at hfold ⊢
  rw [hfold, hbytes]
  rfl

/-- R235: a sequencer reads its window. -/
theorem coreRead_window {s : State} {r k va n : Nat} (hc : s.cur = .seq r k) (hr : isRsm va = true)
    (hw : windowAt s r va n) (code : Nat) :
    coreRead s va n .read code = (.ok ((upTo n).map fun k =>
      s.elmByte r ((va + k) % 2 ^ 27 / 2 ^ 19) ((va + k) % 2 ^ 19)), s) := by
  unfold coreRead
  rw [hc, hr]
  dsimp only
  rw [if_neg (by decide), readRsm_window hw]
  dsimp only
  rw [rsmFirstOut_eq_none fun j hj => (hw.reach hj).1]
  rfl

/-- What a store to the window leaves, seen through the bytes of the element memories. -/
theorem State.windowStored_elmByte {s : State} {r va : Nat} {bs : List Byte} (hw : windowAt s r va bs.length)
    (hl : bs.length ≤ 2 ^ 27) (q : Map Bool) :
    (∀ j, j < bs.length → (s.windowStored r va bs q).elmByte r ((va + j) % 2 ^ 27 / 2 ^ 19) ((va + j) % 2 ^ 19) =
      bs.getD j 0) ∧
    ∀ e off, (∀ j, j < bs.length → (e, off) ≠ ((va + j) % 2 ^ 27 / 2 ^ 19, (va + j) % 2 ^ 19)) →
      (s.windowStored r va bs q).elmByte r e off = s.elmByte r e off := by
  have hbyte : ∀ e off, (s.windowStored r va bs q).elmByte r e off =
      ((s.region r).rsmSetN (va % 2 ^ 27) bs).elmByte e off := fun e off => by
    rw [State.elmByte, State.windowStored_region, Region.elmByte]
  refine ⟨fun j hj => ?_, fun e off hne => ?_⟩
  · obtain ⟨he, ho⟩ := Prod.mk.inj (rsmPlace_mod va j)
    rw [hbyte, ← he, ← ho]
    exact Region.rsmSetN_elmByte bs _ _ j hj hl (hw.reach hj).1
  · rw [hbyte]
    exact Region.rsmSetN_elmByte_ne _ _ _ fun j hj => by rw [rsmPlace_mod]; exact hne j hj

end Sys2Proof.Machine

namespace Sys2Proof.Settled

open Sys2Proof.Machine

/-- Settles O8: a read and a store of a clean window go to the element memories alone. -/
theorem windowAccess : Obligations.WindowAccess := by
  intro s r m va n hc hr _ hn hw
  refine ⟨coreRead_window hc hr hw, fun bs code hlen => ?_⟩
  subst hlen
  obtain ⟨q, hq, hstore⟩ := coreWrite_window hc hr hw code
  obtain ⟨hbytes, hrest⟩ := State.windowStored_elmByte hw (Nat.le_trans hn (by decide)) q
  refine ⟨_, hstore, hbytes, hrest, fun e => ?_, ?_, hq, ?_, fun _ => rfl⟩
  · rw [State.windowStored_region]
    exact Region.rsmSetN_element_emptied e bs _ _
  · rw [State.windowStored_region]
    exact Region.rsmSetN_bare bs _ _
  · exact State.setRegion_onlyRegion { s with poison := q } r _

end Sys2Proof.Settled
end

section
/-! SUPPORT. Writes of the counter table as changes of memory alone, and one child fewer (R23 to R25). -/

namespace Sys2Proof.Machine

/-! ### Changes of memory alone -/

/-- A state that differs from another in memory, the stores on their way and the poison marks at most. -/
def memoryOnly (s t : State) : Prop := { s with mem := t.mem, stores := t.stores, poison := t.poison } = t

theorem memoryOnly.refl (s : State) : memoryOnly s s := rfl

theorem memoryOnly.trans {s t u : State} (h : memoryOnly s t) (k : memoryOnly t u) : memoryOnly s u := by
  unfold memoryOnly at *
  rw [← h] at k
  exact k

theorem memoryOnly.tables {s t : State} (h : memoryOnly s t) : sameTables s t := by
  rw [← h]
  exact ⟨⟨rfl, rfl, rfl⟩, rfl⟩

theorem memoryOnly.pkg {s t : State} (h : memoryOnly s t) : t.pkg = s.pkg := by
  rw [← h]

theorem State.write_memoryOnly (s : State) (a : Nat) (bs : List Byte) : memoryOnly s (s.write a bs) := rfl

theorem ctrPut_memoryOnly (s : State) (part h v : Nat) : memoryOnly s (ctrPut s part h v) := rfl

theorem ctrAdd_memoryOnly (s : State) (part h n : Nat) : memoryOnly s (ctrAdd s part h n) := by
  unfold ctrAdd
  split
  · exact .refl s
  · exact ctrPut_memoryOnly ..

theorem ctrSub_memoryOnly (part : Nat) : ∀ (f h : Nat) (s : State), memoryOnly s (ctrSub part f h s)
  | 0, _, s => .refl s
  | f + 1, h, s => by
    unfold ctrSub
    dsimp only
    split
    · exact .refl s
    split
    · exact .refl s
    have h1 := ctrPut_memoryOnly s part h (setBits (ctrGet s part h) 31 0 (ctrCount (ctrGet s part h) - 1))
    split
    · have h2 := h1.trans (ctrSub_memoryOnly part f (ctrParent (ctrGet s part h)) _)
      split
      · exact h2.trans (ctrSub_memoryOnly part f _ _)
      · exact h2
    · exact h1

theorem ctrDone_memoryOnly (s : State) (part h : Nat) : memoryOnly s (ctrDone s part h) := ctrSub_memoryOnly part 6 h s

/-- A status in d after a change of memory alone. -/
theorem memoryOnly.retires {s u : State} (h : memoryOnly s u) (d : BitVec 5) {code : Nat} (hc : code < 256) :
    let t := u.status d code 0
    Machine.retires { s with mem := t.mem, stores := t.stores, poison := t.poison } t 4 d (BitVec.ofNat 64 code) 0 := by
  intro t
  have hu : { s with mem := t.mem, stores := t.stores, poison := t.poison } = u := by
    have hm : t.mem = u.mem := State.setMe_mem ..
    have hs : t.stores = u.stores := State.setMe_stores ..
    have hp : t.poison = u.poison := State.setMe_poison ..
    rw [hm, hs, hp]
    exact h
  rw [hu, ← statusWord_code hc]
  exact u.status_retires d code 0

/-- A status changes no byte. -/
theorem State.status_sameMemory (s : State) (d : BitVec 5) (code value : Nat) : sameMemory s (s.status d code value) :=
  fun a => State.byte_retire s 4 d _ 0 a

/-! ### What a write of an entry leaves of memory -/

theorem sameBut.refl (s : State) (a n : Nat) : sameBut s s a n := fun _ _ => rfl

theorem sameMemory.but {s t : State} (h : sameMemory s t) (a n : Nat) : sameBut s t a n := fun x _ => h x

theorem sameBut.trans {s t u : State} {a n : Nat} (h : sameBut s t a n) (hp : t.pkg = s.pkg) (k : sameBut t u a n) :
    sameBut s u a n := fun x hx => (k x (by rw [hp]; exact hx)).trans (h x hx)

theorem sameBut.memory {s t u : State} {a n : Nat} (h : sameBut s t a n) (k : sameMemory t u) : sameBut s u a n :=
  fun x hx => (k x).trans (h x hx)

/-- A write within a page leaves every other byte. -/
theorem State.write_sameBut (s : State) {a : Nat} {bs : List Byte} (h : a % 4096 + bs.length ≤ 4096) :
    sameBut s (s.write a bs) a bs.length := fun x hx => by
  rw [State.byte_write, if_neg]
  rintro ⟨h1, h2⟩
  refine hx (canonPa s.pkg.toNat x - canonPa s.pkg.toNat a) (by omega) ?_
  rw [canonPa_add (by omega)]
  omega

theorem ctrPut_sameBut (s : State) (part h v : Nat) : sameBut s (ctrPut s part h v) (ctrAddr s part h) 8 := by
  have hl := natToLe_length 8 v
  have hb := s.write_sameBut (a := ctrAddr s part h) (bs := natToLe v 8) (by rw [hl]; exact ctrAddr_page s part h)
  rw [hl] at hb
  exact hb

theorem ctrAdd_sameBut (s : State) (part h n : Nat) : sameBut s (ctrAdd s part h n) (ctrAddr s part h) 8 := by
  unfold ctrAdd
  split
  · exact .refl _ _ _
  · exact ctrPut_sameBut _ _ _ _

/-- An entry as the table of an earlier state names it. -/
theorem memoryOnly.word {s u : State} (h : memoryOnly s u) (part k : Nat) :
    u.word (ctrAddr s part k) = ctrGet u part k := by
  rw [ctrGet, h.tables.ctrAddr]

/-! ### The fields of an entry (R24) -/

theorem ctrLevel_eq (w : Nat) : ctrLevel w = w / 2 ^ 61 % 8 := rfl
theorem ctrCount_eq (w : Nat) : ctrCount w = w % 2 ^ 32 := by
  unfold ctrCount nbits
  omega
theorem ctrParent_eq (w : Nat) : ctrParent w = w / 2 ^ 44 % 2 ^ 12 := rfl
theorem ctrOpen_eq (w : Nat) : ctrOpen w = decide (w / 2 ^ 59 % 2 = 1) := rfl
theorem ctrCanc_eq (w : Nat) : ctrCanc w = decide (w / 2 ^ 60 % 2 = 1) := rfl

/-- R24, R25: the handles of the table that name no counter. -/
theorem ctrBad_iff {h : Nat} (hh : h < 4096) (s : State) (part : Nat) :
    ctrBad s part h = true ↔ h = 0 ∨ s.word (ctrAddr s part h) / 2 ^ 61 % 8 ≥ 5 := by
  have hm : ¬ h > 0xFFF := by omega
  simp [ctrBad, ctrLevel_eq, ctrGet, hm]

theorem BitVec.toNat_eq_zero_iff {n : Nat} (h : BitVec n) : h.toNat = 0 ↔ h = 0 := by
  rw [← BitVec.toNat_inj]
  rfl

theorem ctrBad_handle (s : State) (part : Nat) (h : BitVec 12) :
    ctrBad s part h.toNat = true ↔ h = 0 ∨ s.word (ctrAddr s part h.toNat) / 2 ^ 61 % 8 ≥ 5 := by
  rw [ctrBad_iff h.isLt, BitVec.toNat_eq_zero_iff]

/-- R25: one child more is too many for a counter at its limit. -/
theorem ctrFull_one (s : State) (part h : Nat) :
    ctrFull s part h 1 = true ↔ s.word (ctrAddr s part h) % 2 ^ 32 = 0xFFFFFFFF := by
  rw [ctrFull, decide_eq_true_eq, ctrCount_eq, ctrGet]
  omega

theorem ctrFull_one_eq_false (s : State) (part h : Nat) :
    ctrFull s part h 1 = false ↔ s.word (ctrAddr s part h) % 2 ^ 32 < 0xFFFFFFFF := by
  rw [← Bool.not_eq_true, ctrFull_one]
  omega

/-! ### One child fewer (R23, R25) -/

theorem ctrGet_lt (s : State) (part h : Nat) : ctrGet s part h < 2 ^ 64 := s.word_lt _

theorem setBits_count_pred {w : Nat} (hw : w < 2 ^ 64) (hc : ctrCount w ≠ 0) :
    setBits w 31 0 (ctrCount w - 1) % 2 ^ 64 = w - 1 := by
  unfold ctrCount setBits nbits at *
  omega

/-- A counter with more than one child only counts. -/
theorem ctrSub_of_two {part h : Nat} {s : State} (h0 : h ≠ 0) (hc : 2 ≤ ctrCount (ctrGet s part h)) (f : Nat) :
    ctrSub part (f + 1) h s = ctrPut s part h (setBits (ctrGet s part h) 31 0 (ctrCount (ctrGet s part h) - 1)) := by
  rw [ctrSub, if_neg h0]
  dsimp only
  rw [if_neg (by omega), if_neg (by omega)]

/-- With more than one child a counter counts one fewer, and no other byte changes. -/
theorem ctrSub_two {part h : Nat} {s : State} (h0 : h ≠ 0) (hc : 2 ≤ ctrCount (ctrGet s part h)) (f : Nat) :
    ctrGet (ctrSub part (f + 1) h s) part h = ctrGet s part h - 1 ∧
      sameBut s (ctrSub part (f + 1) h s) (ctrAddr s part h) 8 := by
  rw [ctrSub_of_two h0 hc]
  refine ⟨?_, ctrPut_sameBut _ _ _ _⟩
  rw [ctrGet_ctrPut, setBits_count_pred (ctrGet_lt ..) (by omega)]

theorem ctrSub_zero_handle (part f : Nat) (s : State) : ctrSub part f 0 s = s := by
  cases f with
  | zero => rfl
  | succ f => rw [ctrSub, if_pos rfl]

/-- The last child of a counter that is no launch: its parent counts one fewer. -/
theorem ctrSub_last {part h : Nat} {s : State} (h0 : h ≠ 0) (hc : ctrCount (ctrGet s part h) = 1)
    (hl : ctrLevel (ctrGet s part h) ≠ 1) (f : Nat) :
    ctrSub part (f + 1) h s = ctrSub part f (ctrParent (ctrGet s part h))
      (ctrPut s part h (setBits (ctrGet s part h) 31 0 (ctrCount (ctrGet s part h) - 1))) := by
  rw [ctrSub, if_neg h0]
  dsimp only
  rw [if_neg (by omega), if_pos hc, if_neg hl]

/-- The end of a child, as a task or a command ends it, in the terms of the counter words. -/
theorem ctrDone_two {s : State} {part h : Nat} (h0 : h ≠ 0) (hc : s.word (ctrAddr s part h) % 2 ^ 32 ≥ 2) :
    (ctrDone s part h).word (ctrAddr s part h) = s.word (ctrAddr s part h) - 1 ∧
      sameBut s (ctrDone s part h) (ctrAddr s part h) 8 := by
  have h2 := ctrSub_two (s := s) h0 (by rw [ctrCount_eq]; exact hc) 5
  refine ⟨?_, h2.2⟩
  rw [(ctrDone_memoryOnly s part h).word]
  exact h2.1

theorem ctrDone_zero (s : State) (part : Nat) : ctrDone s part 0 = s := ctrSub_zero_handle ..

end Sys2Proof.Machine
end

section
/-! SUPPORT. The paths of `gopen`, `jopen` and `gclose` (R272). -/

namespace Sys2Proof.Machine

/-- A graph or job whose OPEN is cleared: what stands in its word. -/
theorem setBits_open_clear {w : Nat} (hw : w < 2 ^ 64) (ho : w / 2 ^ 59 % 2 = 1) :
    setBits w 59 59 0 % 2 ^ 64 = w - 2 ^ 59 := by
  unfold setBits nbits
  omega

section
variable {s : State} {part h : Nat}

/-- R272: a graph or job after its OPEN was cleared. -/
def ctrClosed (s : State) (part h : Nat) : State := ctrPut s part h (setBits (ctrGet s part h) 59 59 0)

theorem ctrGet_ctrClosed (ho : ctrOpen (ctrGet s part h) = true) :
    ctrGet (ctrClosed s part h) part h = ctrGet s part h - 2 ^ 59 := by
  rw [ctrClosed, ctrGet_ctrPut, setBits_open_clear (ctrGet_lt ..) (by simpa [ctrOpen_eq] using ho)]

theorem ctrClosed_sameBut (s : State) (part h : Nat) : sameBut s (ctrClosed s part h) (ctrAddr s part h) 8 :=
  ctrPut_sameBut s part h _

theorem ctrClosed_memoryOnly (s : State) (part h : Nat) : memoryOnly s (ctrClosed s part h) := ctrPut_memoryOnly ..

/-- The other fields of an entry once its OPEN is cleared. -/
theorem ctr_closed_fields {w : Nat} (hw : w < 2 ^ 64) (ho : ctrOpen w = true) :
    ctrCount (w - 2 ^ 59) = ctrCount w ∧ ctrLevel (w - 2 ^ 59) = ctrLevel w ∧ ctrParent (w - 2 ^ 59) = ctrParent w := by
  rw [ctrOpen_eq, decide_eq_true_eq] at ho
  simp only [ctrCount_eq, ctrLevel_eq, ctrParent_eq]
  omega

/-- R272: a closed graph or job with children counts one fewer; with its last one, so does its parent. -/
theorem ctrDone_ctrClosed (h0 : h ≠ 0) (ho : ctrOpen (ctrGet s part h) = true) (hl : ctrLevel (ctrGet s part h) ≠ 1) :
    let w := ctrGet s part h
    let t := ctrDone (ctrClosed s part h) part h
    (ctrCount w ≥ 2 ∨ (ctrCount w = 1 ∧ ctrParent w = 0) →
      ctrGet t part h = w - 2 ^ 59 - 1 ∧ sameBut s t (ctrAddr s part h) 8) ∧
    (ctrCount w = 1 → ctrParent w ≠ 0 → ctrParent w % 4096 ≠ h % 4096 →
      2 ≤ ctrCount (ctrGet s part (ctrParent w)) →
      ctrGet t part h = w - 2 ^ 59 - 1 ∧ ctrGet t part (ctrParent w) = ctrGet s part (ctrParent w) - 1) := by
  obtain ⟨hcount, hlevel, hparent⟩ := ctr_closed_fields (ctrGet_lt s part h) ho
  have hget := ctrGet_ctrClosed ho
  have hmem := ctrClosed_memoryOnly s part h
  have hbut := ctrClosed_sameBut s part h
  have hother : ∀ k, k % 4096 ≠ h % 4096 → ctrGet (ctrClosed s part h) part k = ctrGet s part k :=
    fun k hk => ctrGet_ctrPut_ne s part _ hk
  rw [← hget] at hcount hlevel hparent
  dsimp only
  rw [← hget]
  generalize ctrClosed s part h = u at *
  refine ⟨fun hc => ?_, fun hc hp hne h2 => ?_⟩
  · have hs : ctrDone u part h = ctrPut u part h (setBits (ctrGet u part h) 31 0 (ctrCount (ctrGet u part h) - 1)) := by
      rcases hc with hc | ⟨hc, hp⟩
      · exact ctrSub_of_two h0 (by omega) 5
      · rw [ctrDone, ctrSub_last h0 (by omega) (by rw [hlevel]; exact hl), hparent, hp, ctrSub_zero_handle]
    rw [hs]
    refine ⟨?_, hbut.trans hmem.pkg ?_⟩
    · rw [ctrGet_ctrPut, setBits_count_pred (ctrGet_lt ..) (by omega)]
    · rw [← hmem.tables.ctrAddr]
      exact ctrPut_sameBut _ _ _ _
  · have h3 := ctrGet_ctrPut_ne u part (setBits (ctrGet u part h) 31 0 (ctrCount (ctrGet u part h) - 1)) hne
    rw [hother _ hne] at h3
    rw [ctrDone, ctrSub_last h0 (by omega) (by rw [hlevel]; exact hl), hparent, ctrSub_of_two hp (by rw [h3]; exact h2)]
    refine ⟨?_, ?_⟩
    · rw [ctrGet_ctrPut_ne _ _ _ hne.symm, ctrGet_ctrPut, setBits_count_pred (ctrGet_lt ..) (by omega)]
    · rw [ctrGet_ctrPut, h3, setBits_count_pred (ctrGet_lt ..) (by omega)]

end

/-! ### Opening (R272) -/

theorem ctrMake_word {level parent count : Nat} (hl : level < 8) (hp : parent < 4096) (hc : count < 2 ^ 32) :
    ctrMake level false true parent 0 count % 2 ^ 64 = level * 2 ^ 61 + 2 ^ 59 + parent * 2 ^ 44 + count := by
  unfold ctrMake
  simp only [Bool.false_eq_true, if_false, if_true]
  omega

section
variable {s : State} {part p : Nat} {h : BitVec 12}

/-- R272: the handles that `gopen` answers with BADHANDLE. -/
theorem gopen_bad_iff (hp : p < 4096) :
    (ctrBad s part h.toNat || ctrBad s part p || decide (ctrLevel (ctrGet s part p) ≠ 4) || !ctrOpen (ctrGet s part p)) =
        true ↔
      (h = 0 ∨ s.word (ctrAddr s part h.toNat) / 2 ^ 61 % 8 ≥ 5) ∨ (p = 0 ∨
        s.word (ctrAddr s part p) / 2 ^ 61 % 8 ≠ 4 ∨ s.word (ctrAddr s part p) / 2 ^ 59 % 2 = 0) := by
  rw [Bool.or_eq_true, Bool.or_eq_true, Bool.or_eq_true, ctrBad_handle, ctrBad_iff hp, decide_eq_true_eq, ctrLevel_eq,
    ctrOpen_eq, Bool.not_eq_true', decide_eq_false_iff_not, ctrGet]
  constructor
  · rintro (((h | h) | h) | h)
    · exact .inl h
    · omega
    · omega
    · omega
  · rintro (h | h | h | h)
    · exact .inl (.inl (.inl h))
    · omega
    · omega
    · omega

/-- R272: a new graph, and its job with one child more. -/
def openGraph (s : State) (part h p : Nat) : State :=
  ctrAdd (ctrPut s part h (ctrMake 2 false true p 0 1)) part p 1

theorem openGraph_memoryOnly (s : State) (part h p : Nat) : memoryOnly s (openGraph s part h p) :=
  (ctrPut_memoryOnly ..).trans (ctrAdd_memoryOnly ..)

theorem openGraph_graph {h : Nat} (hh : h < 4096) (hp : p < 4096) (hne : p ≠ h) :
    ctrGet (openGraph s part h p) part h = 2 * 2 ^ 61 + 2 ^ 59 + p * 2 ^ 44 + 1 := by
  rw [openGraph, ctrGet_ctrAdd_ne _ _ _ (by omega), ctrGet_ctrPut, ctrMake_word (by decide) hp (by decide)]

theorem openGraph_job {h : Nat} (hh : h < 4096) (hp : p < 4096) (h0 : p ≠ 0) (hne : p ≠ h)
    (hf : ctrFull s part p 1 = false) : ctrGet (openGraph s part h p) part p = ctrGet s part p + 1 := by
  have hv := ctrGet_ctrPut_ne s part (ctrMake 2 false true p 0 1) (h := h) (k := p) (by omega)
  rw [openGraph, ctrGet_ctrAdd h0 (by rw [ctrFull_congr hv]; exact hf), hv]

theorem openGraph_bytes (s : State) (part h p x : Nat)
    (hx : ∀ j, j < 8 → canonPa s.pkg.toNat x ≠ canonPa s.pkg.toNat (ctrAddr s part h + j) ∧
      canonPa s.pkg.toNat x ≠ canonPa s.pkg.toNat (ctrAddr s part p + j)) :
    (openGraph s part h p).byte x = s.byte x := by
  have h1 := ctrPut_sameBut s part h (ctrMake 2 false true p 0 1) x fun j hj => (hx j hj).1
  have hm := ctrPut_memoryOnly s part h (ctrMake 2 false true p 0 1)
  rw [openGraph]
  generalize ctrPut s part h (ctrMake 2 false true p 0 1) = t at *
  exact (ctrAdd_sameBut t part p 1 x fun j hj => by rw [hm.pkg, hm.tables.ctrAddr]; exact (hx j hj).2).trans h1

end

end Sys2Proof.Machine

namespace Sys2Proof.Settled

open Sys2Proof.Machine

/-- Settles O33: each refusal and each acceptance is one path, and an accepted one writes one or two words. -/
theorem counterOpenResult : Obligations.CounterOpenResult := by
  intro s d a h
  dsimp only
  have hp : (s.reg a).toNat % 4096 < 4096 := Nat.mod_lt _ (by decide)
  have hh : h.toNat < 4096 := h.isLt
  have hbad := ctrBad_handle s (s.partOf s.cur) h
  have hzero : h.toNat = 0 ↔ h = 0 := BitVec.toNat_eq_zero_iff h
  have hword := fun (u : State) (hu : memoryOnly s u) (code k : Nat) =>
    ((u.status_sameMemory d code 0).word (ctrAddr s (s.partOf s.cur) k)).trans (hu.word (s.partOf s.cur) k)
  refine ⟨?_, ?_, ?_⟩
  · show ∃ t code, execGopen d a h s = .next t ∧ _
    unfold execGopen
    dsimp only
    have hboth := gopen_bad_iff (s := s) (part := s.partOf s.cur) (h := h) hp
    have hfull := ctrFull_one s (s.partOf s.cur) ((s.reg a).toNat % 4096)
    generalize (s.reg a).toNat % 4096 = p at *
    generalize s.partOf s.cur = part at *
    split
    · rename_i hb
      refine ⟨_, 5, rfl, (memoryOnly.refl s).retires d (by decide), fun _ => ⟨rfl, s.status_sameMemory d _ _⟩, ?_, ?_, ?_⟩
      all_goals exact fun h1 h2 => absurd (hboth.1 hb) (not_or.2 ⟨h1, h2⟩)
    rename_i hb
    have hnb := fun h => hb (hboth.2 h)
    rw [ctrCount_eq, ctrGet]
    split
    · rename_i hbusy
      exact ⟨_, 1, rfl, (memoryOnly.refl s).retires d (by decide), fun h => absurd h hnb,
        fun _ _ _ => ⟨rfl, s.status_sameMemory d _ _⟩, fun _ _ h => absurd h hbusy, fun _ _ h => absurd h hbusy⟩
    rename_i hidle
    rw [not_not] at hidle
    split
    · rename_i hf
      have hlimit := hfull.1 hf
      exact ⟨_, 2, rfl, (memoryOnly.refl s).retires d (by decide), fun h => absurd h hnb, fun _ _ h => absurd hidle h,
        fun _ _ _ _ => ⟨rfl, s.status_sameMemory d _ _⟩, fun _ _ _ h => by omega⟩
    rename_i hf
    have hmem := openGraph_memoryOnly s part h.toNat p
    have hj : p ≠ 0 := fun e => hnb (.inr (.inl e))
    exact ⟨_, 0, rfl, hmem.retires d (by decide), fun h => absurd h hnb, fun _ _ h => absurd hidle h,
      fun _ _ _ h => absurd (hfull.2 h) hf, fun _ _ _ _ hne => ⟨rfl,
        (hword _ hmem _ _).trans (openGraph_graph hh hp hne),
        (hword _ hmem _ _).trans (openGraph_job hh hp hj hne (by simpa using hf)),
        fun x hx => (State.status_sameMemory _ d _ _ x).trans (openGraph_bytes s part _ p x hx)⟩⟩
  · show ∃ t code, execJopen d h s = .next t ∧ _
    unfold execJopen
    dsimp only
    generalize s.partOf s.cur = part at *
    rw [ctrCount_eq, ctrGet]
    split
    · rename_i hb
      exact ⟨_, 5, rfl, (memoryOnly.refl s).retires d (by decide), fun _ => ⟨rfl, s.status_sameMemory d _ _⟩,
        fun h => absurd (hbad.1 hb) h, fun h => absurd (hbad.1 hb) h⟩
    rename_i hb
    split
    · rename_i hbusy
      exact ⟨_, 1, rfl, (memoryOnly.refl s).retires d (by decide), fun h => absurd (hbad.2 h) hb,
        fun _ _ => ⟨rfl, s.status_sameMemory d _ _⟩, fun _ h => absurd h hbusy⟩
    rename_i hidle
    have hmem := ctrPut_memoryOnly s part h.toNat (ctrMake 4 false true 0 0 1)
    refine ⟨_, 0, rfl, hmem.retires d (by decide), fun h => absurd (hbad.2 h) hb, fun _ h => absurd h hidle,
      fun _ _ => ⟨rfl, (hword _ hmem _ _).trans ?_, (ctrPut_sameBut s part _ _).memory (State.status_sameMemory _ d _ _)⟩⟩
    rw [ctrGet_ctrPut, ctrMake_word (by decide) (by decide) (by decide)]
    norm_num
  · show ∃ t code, execGclose d h s = .next t ∧ _
    unfold execGclose
    dsimp only
    generalize s.partOf s.cur = part at *
    rw [ctrLevel_eq, ctrOpen_eq]
    split
    · rename_i hb
      refine ⟨_, 5, rfl, (memoryOnly.refl s).retires d (by decide), fun _ => ⟨rfl, s.status_sameMemory d _ _⟩, ?_, ?_, ?_⟩
      all_goals exact fun h => absurd (hbad.1 hb) h
    rename_i hb
    have hnb := fun h => hb (hbad.2 h)
    split
    · rename_i hl
      obtain ⟨h2, h4⟩ : s.word (ctrAddr s part h.toNat) / 2 ^ 61 % 8 ≠ 2 ∧
          s.word (ctrAddr s part h.toNat) / 2 ^ 61 % 8 ≠ 4 := by
        simp only [Bool.and_eq_true] at hl
        exact ⟨of_decide_eq_true hl.1, of_decide_eq_true hl.2⟩
      exact ⟨_, 4, rfl, (memoryOnly.refl s).retires d (by decide), fun h => absurd h hnb,
        fun _ _ _ => ⟨rfl, s.status_sameMemory d _ _⟩, fun _ h => absurd h (not_or.2 ⟨h2, h4⟩),
        fun _ h => absurd h (not_or.2 ⟨h2, h4⟩)⟩
    rename_i hl
    have hlevel : s.word (ctrAddr s part h.toNat) / 2 ^ 61 % 8 = 2 ∨
        s.word (ctrAddr s part h.toNat) / 2 ^ 61 % 8 = 4 := by
      by_contra h
      obtain ⟨h2, h4⟩ := not_or.1 h
      exact hl (Bool.and_eq_true_iff.2 ⟨decide_eq_true h2, decide_eq_true h4⟩)
    split
    · rename_i ho
      have hclosed : s.word (ctrAddr s part h.toNat) / 2 ^ 59 % 2 ≠ 1 := by
        rw [Bool.not_eq_true'] at ho
        exact of_decide_eq_false ho
      exact ⟨_, 3, rfl, (memoryOnly.refl s).retires d (by decide), fun h => absurd h hnb,
        fun _ h2 h4 => absurd hlevel (not_or.2 ⟨h2, h4⟩), fun _ _ _ => ⟨rfl, s.status_sameMemory d _ _⟩,
        fun _ _ h => absurd h hclosed⟩
    rename_i ho
    have hopen : s.word (ctrAddr s part h.toNat) / 2 ^ 59 % 2 = 1 := by
      rw [Bool.not_eq_true', Bool.not_eq_false] at ho
      exact of_decide_eq_true ho
    have hmem := (ctrClosed_memoryOnly s part h.toNat).trans (ctrDone_memoryOnly _ part h.toNat)
    obtain ⟨hown, hlast⟩ := ctrDone_ctrClosed (s := s) (part := part) (h := h.toNat) (fun e => hnb (.inl (hzero.1 e)))
      (by rw [ctrOpen_eq, decide_eq_true_eq]; exact hopen) (by rw [ctrLevel_eq, ctrGet]; omega)
    rw [ctrCount_eq, ctrParent_eq] at hown hlast
    refine ⟨_, 0, rfl, hmem.retires d (by decide), fun h => absurd h hnb,
      fun _ h2 h4 => absurd hlevel (not_or.2 ⟨h2, h4⟩), fun _ _ h => by omega, fun _ _ _ => ⟨rfl, fun hc => ?_,
        fun hc hq hqh h2 => ?_⟩⟩
    · obtain ⟨h1, h2⟩ := hown hc
      exact ⟨(hword _ hmem _ _).trans h1, h2.memory (State.status_sameMemory _ d _ _)⟩
    · obtain ⟨h1, h2⟩ := hlast hc hq (by rw [ctrGet]; omega) (by rw [ctrCount_eq]; exact h2)
      exact ⟨(hword _ hmem _ _).trans h1, (hword _ hmem _ _).trans h2⟩

end Sys2Proof.Settled
end

section
/-! SUPPORT. Engine queues of a region, and the issue of a command (R89, R246, R247). -/

namespace Sys2Proof.Machine

/-! ### The current task of a sequencer in its region -/

theorem State.region_setMe_seq {s : State} {r k : Nat} (hc : s.cur = .seq r k) (m : Task) :
    (s.setMe m).region r = (s.region r).setTask k m := by
  rw [State.setMe, hc]
  exact State.region_setRegion ..

theorem State.me_seq {s : State} {r k : Nat} (hc : s.cur = .seq r k) : s.me = (s.region r).task k := by
  rw [State.me, hc]
  rfl

/-- The bytes of memory do not depend on regions. -/
theorem onlyRegion.sameMemory {r : Nat} {s t : State} (h : onlyRegion r s t) : Machine.sameMemory s t := fun a => by
  have := congrArg (fun u : State => u.byte a) h.1
  exact this

/-! ### Queues -/

@[simp] theorem Region.queueOf_setTask (g : Region) (n : Nat) (t : Task) (e : Engine) :
    (g.setTask n t).queueOf e = g.queueOf e := by
  cases e <;> rfl

@[simp] theorem Region.task_setQueue (g : Region) (e : Engine) (q : List Command) (n : Nat) :
    (g.setQueue e q).task n = g.task n := by
  cases e <;> rfl

@[simp] theorem Region.part_setQueue (g : Region) (e : Engine) (q : List Command) : (g.setQueue e q).part = g.part := by
  cases e <;> rfl

@[simp] theorem Region.queueOf_setQueue (g : Region) (e : Engine) (q : List Command) :
    (g.setQueue e q).queueOf e = q := by
  cases e <;> rfl

theorem Region.queueOf_setQueue_ne (g : Region) {e f : Engine} (q : List Command) (h : f ≠ e) :
    (g.setQueue e q).queueOf f = g.queueOf f := by
  cases e <;> cases f <;> first | rfl | exact absurd rfl h

/-- A queue written into a region whose tasks changed. -/
theorem Region.setQueue_tasks (g : Region) (e : Engine) (q : List Command) (l : Map Task) :
    ({ g with tasks := l } : Region).setQueue e q = { g.setQueue e q with tasks := l } := by
  cases e <;> rfl

/-! ### The issue of a command -/

/-- The task after it has issued a command that its engine takes (R89, R247). -/
def Task.issued (m : Task) (d : BitVec 5) (tag : Nat) : Task :=
  { m.set d 0 with
    pc := m.pc + 4, hold := .ready, counts := mapSet 0 m.counts tag (mapGet 0 m.counts tag + 1)
    tags := m.tags &&& ~~~ BitVec.ofNat 64 (2 ^ tag), tagc := m.tagc &&& ~~~ BitVec.ofNat 64 (2 ^ tag) }

theorem canIssue_iff {g : Region} {m : Task} {e : Engine} {tag : Nat} :
    canIssue g m e tag = true ↔ (g.queueOf e).length < 16 ∧ mapGet 0 m.counts tag < 15 := by
  simp [canIssue]

section
variable {u : State} {r k : Nat} {e : Engine} {i : Instr} {d : BitVec 5} {l : List Word} {tag : Nat} {desc : List Byte}

/-- The command that an instruction queues. -/
def issuedCommand (i : Instr) (l : List Word) (k tag counter : Nat) (desc : List Byte) : Command :=
  { instr := i, list := l, owner := .slot k, tag := tag, counter := counter, desc := desc, rest := none }

theorem issueCommand_waits (h : canIssue (u.region r) ((u.region r).task k) e tag = false) :
    issueCommand r k e i d l tag desc u = u.holdMe (.wait i) := by
  rw [issueCommand]
  dsimp only
  rw [h, if_pos (by decide)]

theorem issueCommand_full (hc : u.cur = .seq r k) (h : canIssue (u.region r) u.me e tag = true) (h0 : u.me.counter ≠ 0)
    (hf : ctrFull u (u.region r).part u.me.counter 1 = true) :
    issueCommand r k e i d l tag desc u = u.answer d 2 0 := by
  rw [State.me_seq hc] at h h0 hf
  rw [issueCommand]
  dsimp only
  rw [h, if_neg (by decide), if_pos (by simp [h0, hf]), State.answer, State.me_seq hc]
  rfl

/-- What an accepted command changes: its task, its queue and the word of its counter. -/
theorem issueCommand_accepted (hc : u.cur = .seq r k) (h : canIssue (u.region r) u.me e tag = true)
    (hf : u.me.counter = 0 ∨ ctrFull u (u.region r).part u.me.counter 1 = false) :
    let t := issueCommand r k e i d l tag desc u
    let v := ctrAdd u (u.region r).part u.me.counter 1
    let c := issuedCommand i l k tag u.me.counter desc
    t.me = u.me.issued d tag ∧
      t.region r = { (u.region r).setQueue e ((u.region r).queueOf e ++ [c]) with tasks := (t.region r).tasks } ∧
      (∀ j, j ≠ k → (t.region r).task j = (u.region r).task j) ∧ onlyRegion r v t := by
  have hv := (ctrAdd_memoryOnly u (u.region r).part u.me.counter 1).tables
  have heq : issueCommand r k e i d l tag desc u =
      ((((ctrAdd u (u.region r).part u.me.counter 1).setMe { u.me.beginCommand tag with hold := .ready }).setRegion r
        ((((u.region r).setTask k { u.me.beginCommand tag with hold := .ready }).setQueue e
          ((u.region r).queueOf e ++ [issuedCommand i l k tag u.me.counter desc])))).status d 0 0) := by
    have hvc : (ctrAdd u (u.region r).part u.me.counter 1).cur = .seq r k := hv.cur.trans hc
    have hme : (ctrAdd u (u.region r).part u.me.counter 1).me = u.me := by
      rw [State.me, hv.cur, hv.task]
      rfl
    rw [State.me_seq hc] at h hf hvc hme hv ⊢
    rw [issueCommand]
    dsimp only
    rw [h, if_neg (by decide), if_neg (by rcases hf with hf | hf <;> simp [hf]), hme,
      State.region_setMe_seq hvc, hv.region, Region.queueOf_setTask]
    rfl
  intro t v c
  have hvc : v.cur = .seq r k := hv.cur.trans hc
  have hvr : v.region r = u.region r := hv.region r
  have ht : t = ((v.setMe { u.me.beginCommand tag with hold := .ready }).setRegion r
    (((u.region r).setTask k { u.me.beginCommand tag with hold := .ready }).setQueue e
      ((u.region r).queueOf e ++ [c]))).status d 0 0 := heq
  generalize hw : (v.setMe { u.me.beginCommand tag with hold := .ready }).setRegion r
    (((u.region r).setTask k { u.me.beginCommand tag with hold := .ready }).setQueue e
      ((u.region r).queueOf e ++ [c])) = w at ht
  have hwc : w.cur = .seq r k := by
    rw [← hw, State.setRegion_cur, State.setMe_cur, hvc]
  have hwr : w.region r = ((u.region r).setTask k { u.me.beginCommand tag with hold := .ready }).setQueue e
      ((u.region r).queueOf e ++ [c]) := by
    rw [← hw]
    exact State.region_setRegion ..
  have hwm : w.me = { u.me.beginCommand tag with hold := .ready } := by
    rw [State.me_seq hwc, hwr, Region.task_setQueue]
    exact Region.task_setTask ..
  have htr : t.region r = (w.region r).setTask k (w.status d 0 0).me := by
    rw [ht, State.status, State.retire, State.me_setMe]
    exact State.region_setMe_seq hwc _
  have hvw : onlyRegion r v w := by
    rw [← hw]
    exact (State.setMe_onlyRegion hvc _).trans (State.setRegion_onlyRegion _ r _)
  refine ⟨?_, ?_, fun j hj => ?_, hvw.trans ?_⟩
  · rw [ht]
    refine ((ends.refl w).status d 0 0).me.trans ?_
    rw [hwm]
    simp only [Task.issued, Task.beginCommand, Task.set_eq]
    rfl
  · rw [htr, hwr, Region.setTask]
    cases e <;> rfl
  · rw [htr, Region.task_setTask_ne _ _ hj, hwr, Region.task_setQueue, Region.task_setTask_ne _ _ hj]
  · rw [ht]
    exact State.setMe_onlyRegion hwc _

end

end Sys2Proof.Machine
end

section
/-! SUPPORT. The engine instructions with accepted operands come to one operation (R250 to R267). -/

namespace Sys2Proof.Machine

section
variable {s u : State} {r k : Nat} {d a : BitVec 5} {tag : BitVec 6} {desc : List Byte}

theorem onSequencer_seq (hc : s.cur = .seq r k) (i : Instr) (f : Nat → Nat → State) : onSequencer s i f = f r k := by
  rw [onSequencer, hc]

/-- R250: a copy of something is not complete at issue. -/
theorem finishEmpty_of_ne {n : Nat} (h : n ≠ 0) (r before : Nat) (s : State) : finishEmpty r n before s = s := by
  unfold finishEmpty
  dsimp only
  split
  · exact if_neg h
  · rfl

theorem exec_copy_issues (hc : s.cur = .seq r k) {n rnd : BitVec 3} {v : BitVec 2}
    (hd : descsOk (optReg (s.me.listFrom a n.toNat) 5) = true) (h0 : copyN0 (s.me.listFrom a n.toNat) ≠ 0) :
    exec (.copy d a n rnd v tag) s =
      .next (issueCommand r k .copy (.copy d a n rnd v tag) d (s.me.listFrom a n.toNat) tag.toNat [] s) := by
  show execCopy d a n rnd v tag s = _
  rw [execCopy, onSequencer_seq hc]
  dsimp only
  rw [hd, if_neg (by decide), finishEmpty_of_ne h0]

theorem exec_copyCfg_issues (hc : s.cur = .seq r k) (hl : 1 ≤ s.me.level.num) :
    exec (.copyCfg d a tag) s =
      .next (issueCommand r k .copy (.copyCfg d a tag) d (s.me.listFrom a 2) tag.toNat [] s) := by
  show execCopyCfg d a tag s = _
  rw [execCopyCfg, onSequencer_seq hc, atLevel, if_neg (show ¬ s.me.level.num < Level.k.num from Nat.not_lt.2 hl)]

/-- R254: gather and scatter check one list. -/
theorem exec_indexed_issues (hc : s.cur = .seq r k) {n rnd : BitVec 3} {v : BitVec 2} {i : Instr}
    (hi : i = .gather d a n rnd v tag ∨ i = .scatter d a n rnd v tag)
    (hb : indexedBad (s.me.listFrom a n.toNat) = false) :
    exec i s = .next (issueCommand r k .copy i d (s.me.listFrom a n.toNat) tag.toNat [] s) := by
  rcases hi with rfl | rfl
  · show execGather d a n rnd v tag s = _
    rw [execGather, onSequencer_seq hc]
    dsimp only
    rw [hb, if_neg (by decide)]
  · show execScatter d a n rnd v tag s = _
    rw [execScatter, onSequencer_seq hc]
    dsimp only
    rw [hb, if_neg (by decide)]

/-- The engine instructions that need no check beyond the list. -/
theorem exec_plain_issues (hc : s.cur = .seq r k) {i : Instr} {n : Nat} {e : Engine}
    (hi : (∃ y rnd z, i = .merge d a y rnd z tag ∧ n = 7 ∧ e = .merge) ∨ (i = .mscan d a tag ∧ n = 3 ∧ e = .merge) ∨
      (i = .tfork d a tag ∧ n = 4 ∧ e = .attention) ∨ (i = .tevict d a tag ∧ n = 3 ∧ e = .attention)) :
    exec i s = .next (issueCommand r k e i d (s.me.listFrom a n) tag.toNat [] s) := by
  rcases hi with ⟨y, rnd, z, rfl, rfl, rfl⟩ | ⟨rfl, rfl, rfl⟩ | ⟨rfl, rfl, rfl⟩ | ⟨rfl, rfl, rfl⟩
  · exact congrArg Host.Outcome.next (onSequencer_seq hc _ _)
  · exact congrArg Host.Outcome.next (onSequencer_seq hc _ _)
  · exact congrArg Host.Outcome.next (onSequencer_seq hc _ _)
  · exact congrArg Host.Outcome.next (onSequencer_seq hc _ _)

theorem exec_topk_issues (hc : s.cur = .seq r k) (hd : Legal.descValid (topkDesc (s.me.listFrom a 4)) = true)
    (ho : topkOk (s.me.listFrom a 4) = true) :
    exec (.topk d a tag) s =
      .next (issueCommand r k .attention (.topk d a tag) d (s.me.listFrom a 4) tag.toNat [] s) := by
  show execTopk d a tag s = _
  rw [execTopk, onSequencer_seq hc]
  dsimp only
  rw [hd, if_neg (by decide), ho, if_neg (by decide)]

theorem exec_abatch_issues (hc : s.cur = .seq r k) (hr : coreRead s (s.reg a).toNat 64 .read = (.ok desc, u))
    (hb : batchOk (leToNat desc) = true) (hs : mapGet none (u.region r).sets (Batch.of (leToNat desc)).bindh ≠ none) :
    exec (.abatch d a tag) s =
      .next (issueCommand r k .attention (.abatch d a tag) d (s.me.listFrom a 0) tag.toNat desc u) := by
  show execAbatch d a tag s = _
  rw [execAbatch, onSequencer_seq hc]
  dsimp only
  rw [hr]
  dsimp only
  rw [if_neg (by simp [hb, hs])]

theorem exec_tseal_issues (hc : s.cur = .seq r k) {h : BitVec 1}
    (hr : coreRead s (s.reg a).toNat 64 .read = (.ok desc, u))
    (hd : Legal.descValid (keyDesc (s.me.listFrom a 1)) = true)
    (ht : tsealRefusal (decide (h = 1)) (s.me.listFrom a 1) (leToNat desc) = none) :
    exec (.tseal d a h tag) s =
      .next (issueCommand r k .attention (.tseal d a h tag) d (s.me.listFrom a 1) tag.toNat desc u) := by
  show execTseal d a h tag s = _
  rw [execTseal, onSequencer_seq hc]
  dsimp only
  rw [hd, if_neg (by decide), hr, isSet]
  dsimp only
  rw [ht]

theorem exec_hullw_issues (hc : s.cur = .seq r k) (hr : coreRead s (s.reg a).toNat 64 .read = (.ok desc, u))
    (hd : Legal.descValid (keyDesc (s.me.listFrom a 1)) = true)
    (ht : hullwRefusal (s.me.listFrom a 1) (leToNat desc) = none) :
    exec (.hullw d a tag) s =
      .next (issueCommand r k .attention (.hullw d a tag) d (s.me.listFrom a 1) tag.toNat desc u) := by
  show execHullw d a tag s = _
  rw [execHullw, onSequencer_seq hc]
  dsimp only
  rw [hd, if_neg (by decide), hr]
  dsimp only
  rw [ht]

end

end Sys2Proof.Machine

namespace Sys2Proof.Settled

open Sys2Proof.Machine

/-- Settles O24: every engine instruction with accepted operands is one issue, which waits, is refused or queues. -/
theorem engineIssue : Obligations.EngineIssue := by
  intro s u r k n d a tag i e desc l hc hi
  have hlist : l = s.me.listFrom a n := rfl
  have hissue : exec i s = .next (issueCommand r k e i d l tag.toNat desc u) := by
    rw [hlist] at hi ⊢
    rcases hi with ⟨rfl, rfl, h | h | h | h | h | h | h | h⟩ | ⟨hr, rfl, h | h | h⟩
    · obtain ⟨n', rnd, v, rfl, rfl, rfl, hd, h0⟩ := h
      exact exec_copy_issues hc hd h0
    · obtain ⟨rfl, rfl, rfl, hl⟩ := h
      exact exec_copyCfg_issues hc hl
    · obtain ⟨n', rnd, v, hi, rfl, rfl, hb⟩ := h
      exact exec_indexed_issues hc hi hb
    · exact exec_plain_issues hc (.inl h)
    · exact exec_plain_issues hc (.inr (.inl h))
    · obtain ⟨rfl, rfl, rfl, hd, ho⟩ := h
      exact exec_topk_issues hc hd ho
    · exact exec_plain_issues hc (.inr (.inr (.inl h)))
    · exact exec_plain_issues hc (.inr (.inr (.inr h)))
    · obtain ⟨rfl, rfl, hb, hs⟩ := h
      exact exec_abatch_issues hc hr hb hs
    · obtain ⟨h, rfl, rfl, hd, ht⟩ := h
      exact exec_tseal_issues hc hr hd ht
    · obtain ⟨rfl, rfl, hd, ht⟩ := h
      exact exec_hullw_issues hc hr hd ht
  have huc : u.cur = .seq r k := by
    rcases hi with ⟨rfl, -⟩ | ⟨hr, -⟩
    · exact hc
    · exact ((coreRead_sameRegisters s _ _ _ _).of_snd hr).1.trans hc
  clear_value l
  dsimp only
  have hfull := ctrFull_one u (u.region r).part u.me.counter
  have hroom := ctrFull_one_eq_false u (u.region r).part u.me.counter
  refine ⟨_, hissue, fun hq hn hl => ?_, fun hw => ?_, fun hq hn h0 hl => ?_⟩
  · obtain ⟨hme, hregion, htasks, honly⟩ := issueCommand_accepted (i := i) (d := d) (l := l) (desc := desc) huc
      (canIssue_iff.2 ⟨hq, hn⟩) (hl.imp_right hroom.2)
    have hmem := ctrAdd_memoryOnly u (u.region r).part u.me.counter 1
    have hsame := onlyRegion.sameMemory honly
    have hbut := ctrAdd_sameBut u (u.region r).part u.me.counter 1
    have hword := fun h0 : u.me.counter ≠ 0 => ctrGet_ctrAdd h0 (hroom.2 (hl.resolve_left h0))
    have hzero : u.me.counter = 0 → ctrAdd u (u.region r).part u.me.counter 1 = u := fun h0 => if_pos h0
    generalize issueCommand r k e i d l tag.toNat desc u = t at *
    generalize ctrAdd u (u.region r).part u.me.counter 1 = v at *
    refine ⟨hme, hregion, htasks, ?_, fun h0 => ?_, fun h0 => ⟨?_, hbut.memory hsame⟩⟩
    · have hv : { u with mem := t.mem, stores := t.stores, poison := t.poison } = v := by
        have h1 := honly.1
        rw [← hmem, ← h1]
      rw [hv]
      exact honly
    · rw [hzero h0] at hsame
      exact hsame
    · rw [hsame.word, hmem.word, hword h0]
      rfl
  · rw [issueCommand_waits]
    · exact (ends.refl u).holdMe _
    · rw [← Bool.not_eq_true, canIssue_iff, ← State.me_seq huc]
      omega
  · rw [issueCommand_full huc (canIssue_iff.2 ⟨hq, hn⟩) h0 (hfull.2 hl)]
    exact u.answer_ends d (by decide)

end Sys2Proof.Settled
end

section
/-! SUPPORT. Completion and abandonment of an engine command (R89, R248, R345): the task that owns it, its queue and
its counter. -/

namespace Sys2Proof.Machine

/-! ### The task that owns a command (R29) -/

/-- A region after a change of the task that owns a command, if one does. -/
def Region.onOwner (g : Region) (o : Owner) (f : Task → Task) : Region :=
  match o with
  | .slot n => g.setTask n (f (g.task n))
  | _ => g

theorem onOwner_region (s : State) (r : Nat) (o : Owner) (f : Task → Task) :
    (Machine.onOwner s r o f).region r = (s.region r).onOwner o f := by
  cases o with
  | slot n => exact State.region_setRegion ..
  | tracker n => rfl
  | none => rfl

theorem onOwner_onlyRegion (s : State) (r : Nat) (o : Owner) (f : Task → Task) :
    onlyRegion r s (Machine.onOwner s r o f) := by
  cases o with
  | slot n => exact s.setRegion_onlyRegion r _
  | tracker n => exact ⟨rfl, fun _ _ => rfl⟩
  | none => exact ⟨rfl, fun _ _ => rfl⟩

theorem Region.onOwner_tasks (g : Region) (o : Owner) (f : Task → Task) :
    g.onOwner o f = { g with tasks := (g.onOwner o f).tasks } := by
  cases o <;> rfl

theorem Region.task_onOwner (g : Region) (o : Owner) (f : Task → Task) (j : Nat) :
    (g.onOwner o f).task j = if o = .slot j then f (g.task j) else g.task j := by
  cases o with
  | slot n =>
    by_cases h : n = j
    · subst h
      rw [if_pos rfl]
      exact Region.task_setTask ..
    · rw [if_neg fun e => h (Owner.slot.inj e)]
      exact Region.task_setTask_ne _ _ fun e => h e.symm
  | tracker n => exact (if_neg nofun).symm
  | none => exact (if_neg nofun).symm

/-! ### What the end of a command does to its task -/

theorem Task.oorAt_eq (m : Task) (lvl : Nat) (wr : Bool) (a : Nat) :
    m.oorAt lvl wr a = { m with oor := (m.oorAt lvl wr a).oor } := by
  unfold Task.oorAt
  split <;> rfl

/-- Out-of-range records change SQ_OOR alone (R87). -/
theorem Task.oorAll_eq : ∀ (l : List (Nat × Bool × Nat)) (m : Task), m.oorAll l = { m with oor := (m.oorAll l).oor }
  | [], _ => rfl
  | x :: l, m => by
    have ih := Task.oorAll_eq l (m.oorAt x.1 x.2.1 x.2.2)
    rw [Task.oorAt_eq] at ih
    have e : m.oorAll (x :: l) = (m.oorAt x.1 x.2.1 x.2.2).oorAll l := rfl
    rw [e, Task.oorAt_eq]
    exact ih

/-- A record that is valid keeps its address (R87). -/
theorem Task.oorAll_valid : ∀ (l : List (Nat × Bool × Nat)) (m : Task), m.oor.getLsbD 63 = true → m.oorAll l = m
  | [], _, _ => rfl
  | x :: l, m, h => by
    have e : m.oorAt x.1 x.2.1 x.2.2 = m := by
      unfold Task.oorAt
      rw [if_pos h]
    show (m.oorAt x.1 x.2.1 x.2.2).oorAll l = m
    rw [e]
    exact Task.oorAll_valid l m h

theorem faultEngine_lt (i : Instr) : faultEngine i < 8 := by
  unfold faultEngine
  split <;> decide

/-- The record of a fault (R345). -/
def Task.faulted (m : Task) (c : Command) : Option EFault → Task
  | none => m
  | some f => m.efaultAt c.tag (faultEngine c.instr) f

theorem Task.faulted_eq (m : Task) (c : Command) (f : Option EFault) :
    m.faulted c f = { m with efault := (m.faulted c f).efault, efaddr := (m.faulted c f).efaddr } := by
  cases f with
  | none => rfl
  | some f =>
    unfold Task.faulted Task.efaultAt
    dsimp only
    split <;> rfl

theorem Task.faulted_valid {m : Task} (h : m.efault.getLsbD 63 = true) (c : Command) (f : EFault) :
    m.faulted c (some f) = m := by
  rw [Task.faulted, Task.efaultAt, if_pos h]

theorem Task.faulted_fresh {m : Task} (h : m.efault.getLsbD 63 = false) (c : Command) (f : EFault) :
    (m.faulted c (some f)).efault = BitVec.ofNat 64 (2 ^ 63 + c.tag % 64 * 2 ^ 57 + f.kind % 16 * 2 ^ 53 +
        faultEngine c.instr * 2 ^ 50 + f.code % 2 ^ 16) ∧
      (m.faulted c (some f)).efaddr = BitVec.ofNat 64 (f.addr % 2 ^ 57) := by
  rw [Task.faulted, Task.efaultAt, if_neg (by rw [h]; decide), efaultWord, Nat.mod_eq_of_lt (faultEngine_lt _)]
  exact ⟨rfl, rfl⟩

/-- The end of a command in the fields of its task that it changes (R59, R89). -/
theorem Task.endCommand_eq (m : Task) (tag : Nat) (fl : Flags) (ab : Bool) :
    m.endCommand tag fl ab = { m with
      counts := mapSet 0 m.counts tag (mapGet 0 m.counts tag - 1)
      tagc := if ab then m.tagc ||| tagBit tag else m.tagc
      tags := if mapGet 0 m.counts tag - 1 = 0 then m.tags ||| tagBit tag else m.tags
      fflags := if mapGet 0 m.counts tag - 1 = 0 then m.fflags ||| (mapGet 0 m.tagflags tag ||| fl) else m.fflags
      tagflags := mapSet 0 m.tagflags tag
        (if mapGet 0 m.counts tag - 1 = 0 then 0 else mapGet 0 m.tagflags tag ||| fl) } := by
  unfold Task.endCommand
  dsimp only
  split <;> rfl

/-- A task once one of its commands has ended. -/
def Emitted.ended (w : Emitted) (c : Command) (m : Task) : Task :=
  ((m.oorAll w.oor).faulted c w.fault).endCommand c.tag w.flags w.fault.isSome

/-! ### The region and the machine after the end of a command -/

/-- A region once a command has left its queue and its task has seen its end. -/
theorem finishCommand_eq (s : State) (r : Nat) (e : Engine) (idx : Nat) (c : Command) (fl : Flags) (ab : Bool) :
    ∃ v : State, finishCommand s r e idx c fl ab = ctrDone v (s.region r).part c.counter ∧ onlyRegion r s v ∧
      v.region r = ((s.region r).setQueue e (dropAt ((s.region r).queueOf e) idx)).onOwner c.owner
        fun m => m.endCommand c.tag fl ab := by
  refine ⟨_, rfl, (s.setRegion_onlyRegion r _).trans (onOwner_onlyRegion ..), ?_⟩
  rw [onOwner_region, State.region_setRegion]

/-- A region after a change of its pending configuration and of the task that owns a command. -/
structure OwnerChanged (g h : Region) (p : Option Image) (o : Owner) (f : Task → Task) : Prop where
  frame : { h with tasks := [] } = { g with pending := p, tasks := [] }
  task : ∀ j, h.task j = if o = .slot j then f (g.task j) else g.task j

theorem Region.onOwner_changed (g : Region) (o : Owner) (f : Task → Task) :
    OwnerChanged g (g.onOwner o f) g.pending o f := by
  refine ⟨?_, g.task_onOwner o f⟩
  rw [g.onOwner_tasks o f]

theorem OwnerChanged.onOwner {g h : Region} {p : Option Image} {o : Owner} {f : Task → Task}
    (k : OwnerChanged g h p o f) (f' : Task → Task) : OwnerChanged g (h.onOwner o f') p o fun m => f' (f m) := by
  refine ⟨?_, fun j => ?_⟩
  · rw [h.onOwner_tasks o f']
    exact k.frame
  · rw [Region.task_onOwner, k.task]
    split <;> rfl

theorem OwnerChanged.setPending {g h : Region} {p : Option Image} {o : Owner} {f : Task → Task}
    (k : OwnerChanged g h p o f) (q : Option Image) : OwnerChanged g { h with pending := q } q o f :=
  ⟨congrArg (fun x : Region => { x with pending := q }) k.frame, k.task⟩

/-- A region with the configuration that a copy has left pending, if it has left one (R252). -/
def State.withPending (s : State) (r : Nat) : Option Image → State
  | none => s
  | some m => s.setRegion r { s.region r with pending := some m }

/-- What the end of a command leaves before its counter counts it. -/
structure CommandEnded (r : Nat) (e : Engine) (idx : Nat) (c : Command) (w : Emitted) (p : Option Image) (v : State) :
    Prop where
  only : onlyRegion r w.s v
  frame : { v.region r with tasks := [] } = { ({ w.s.region r with pending := p } : Region).setQueue e
      (dropAt ((w.s.region r).queueOf e) idx) with tasks := [] }
  task : ∀ j, (v.region r).task j =
    if c.owner = .slot j then w.ended c ((w.s.region r).task j) else (w.s.region r).task j

section
variable {s x : State} {r idx : Nat} {e : Engine} {c : Command} {w : Emitted} {im p : Option Image} {f : Task → Task}

theorem finishCommand_ends (hx : onlyRegion r w.s x) (hr : OwnerChanged (w.s.region r) (x.region r) p c.owner f)
    (hf : ∀ m, (f m).endCommand c.tag w.flags w.fault.isSome = w.ended c m) :
    ∃ v, finishCommand x r e idx c w.flags w.fault.isSome = ctrDone v (w.s.region r).part c.counter ∧
      CommandEnded r e idx c w p v := by
  obtain ⟨v, hv, honly, hreg⟩ := finishCommand_eq x r e idx c w.flags w.fault.isSome
  have hpart : (x.region r).part = (w.s.region r).part := by
    have := congrArg Region.part hr.frame
    exact this
  have hqueue : (x.region r).queueOf e = (w.s.region r).queueOf e := by
    have := congrArg (fun g : Region => g.queueOf e) hr.frame
    cases e <;> exact this
  refine ⟨v, by rw [hv, hpart], hx.trans honly, ?_, fun j => ?_⟩
  · rw [hreg, Region.onOwner_tasks, hqueue]
    have := congrArg (fun g : Region => g.setQueue e (dropAt ((w.s.region r).queueOf e) idx)) hr.frame
    cases e <;> exact this
  · rw [hreg, Region.task_onOwner, Region.task_setQueue, hr.task]
    split
    · exact hf _
    · rfl

/-- A command without a fault completes (R89). -/
theorem completeCommand_ends (hq : ((s.region r).queueOf e)[idx]? = some c) (hs : (s.region r).saved = none)
    (hw : commandWork s r c = some (w, im)) (hh : w.held = false) (hf : w.fault = none) (hp : c.parted = false) :
    ∃ v, completeCommand r e idx (isBatch c.instr) s = ctrDone v (w.s.region r).part c.counter ∧
      CommandEnded r e idx c w (im.or (w.s.region r).pending) v := by
  have hend : ∀ m : Task, (m.oorAll w.oor).endCommand c.tag w.flags w.fault.isSome = w.ended c m := fun m => by
    rw [Emitted.ended, hf]
    rfl
  have hoor : onlyRegion r w.s (recordOor w.s r c w) := onOwner_onlyRegion ..
  have hreg : OwnerChanged (w.s.region r) ((recordOor w.s r c w).region r) (w.s.region r).pending c.owner
      fun m => m.oorAll w.oor := by
    rw [recordOor, onOwner_region]
    exact Region.onOwner_changed ..
  have hfin : completeCommand r e idx (isBatch c.instr) s =
      finishCommand ((recordOor w.s r c w).withPending r im) r e idx c w.flags w.fault.isSome := by
    rw [completeCommand, hq]
    dsimp only
    rw [if_neg (by simp [hs]), hp, if_neg (by decide), hw]
    dsimp only
    rw [hh, if_neg (by decide), hf, if_neg (by simp)]
    cases im <;> rfl
  rw [hfin]
  cases im with
  | none => exact finishCommand_ends hoor hreg hend
  | some m =>
    refine finishCommand_ends (hoor.trans (State.setRegion_onlyRegion _ r _)) ?_ hend
    rw [State.withPending, State.region_setRegion]
    exact hreg.setPending _

/-- A command with a fault is abandoned (R248, R345). -/
theorem abandonCommand_ends (hq : ((s.region r).queueOf e)[idx]? = some c) (hs : (s.region r).saved = none)
    (hw : commandWork s r c = some (w, im)) (hh : w.held = false) {f : EFault} (hf : w.fault = some f) :
    ∃ v, abandonCommand r e idx (isBatch c.instr) s = ctrDone v (w.s.region r).part c.counter ∧
      CommandEnded r e idx c w (w.s.region r).pending v := by
  have hend : ∀ m : Task, ((m.oorAll w.oor).efaultAt c.tag (faultEngine c.instr) f).endCommand c.tag w.flags
      w.fault.isSome = w.ended c m := fun m => by
    rw [Emitted.ended, hf]
    rfl
  have hreg : OwnerChanged (w.s.region r) ((recordOor w.s r c w).region r) (w.s.region r).pending c.owner
      fun m => m.oorAll w.oor := by
    rw [recordOor, onOwner_region]
    exact Region.onOwner_changed ..
  have hfin : abandonCommand r e idx (isBatch c.instr) s = finishCommand (Machine.onOwner (recordOor w.s r c w) r c.owner
      fun x => x.efaultAt c.tag (faultEngine c.instr) f) r e idx c w.flags w.fault.isSome := by
    rw [abandonCommand, hq]
    dsimp only
    rw [if_neg (by simp [hs]), hw]
    dsimp only
    rw [hh, hf]
    rfl
  rw [hfin]
  refine finishCommand_ends ((onOwner_onlyRegion ..).trans (onOwner_onlyRegion ..)) ?_ hend
  rw [onOwner_region]
  exact hreg.onOwner _

/-- R267: the first part of an eviction. -/
theorem partCommand_parts {v : Emitted} {rest : List (Nat × List Byte)}
    (hq : ((s.region r).queueOf e)[idx]? = some c) (hb : isBatch c.instr = false) (hs : (s.region r).saved = none)
    (hp : c.parted = true) (hw : evictFirst s r c = (v, rest)) (hh : v.held = false) (hf : v.fault = none) :
    let t := completeCommand r e idx false s
    onlyRegion r v.s t ∧ (t.region r).queueOf e = ((v.s.region r).queueOf e).set idx { c with rest := some rest } ∧
      (∀ e', e' ≠ e → (t.region r).queueOf e' = (v.s.region r).queueOf e') ∧
      ∀ j, { (t.region r).task j with oor := 0 } = { (v.s.region r).task j with oor := 0 } := by
  have hreg : (recordOor v.s r c v).region r = (v.s.region r).onOwner c.owner fun m => m.oorAll v.oor := by
    rw [recordOor, onOwner_region]
  have hqueue : ∀ e', ((recordOor v.s r c v).region r).queueOf e' = (v.s.region r).queueOf e' := fun e' => by
    rw [hreg, Region.onOwner_tasks]
    cases e' <;> rfl
  have heq : completeCommand r e idx false s = (recordOor v.s r c v).setRegion r
      (((recordOor v.s r c v).region r).setQueue e (((v.s.region r).queueOf e).set idx { c with rest := some rest })) := by
    rw [completeCommand, hq]
    dsimp only
    rw [if_neg (by simp [hb, hs]), hp, if_pos rfl, partCommand, hw]
    dsimp only
    rw [hh, if_neg (by decide), hf, if_neg (by simp), hqueue]
  dsimp only
  rw [heq, State.region_setRegion]
  refine ⟨(onOwner_onlyRegion ..).trans (State.setRegion_onlyRegion _ r _), Region.queueOf_setQueue .., fun e' he => ?_,
    fun j => ?_⟩
  · rw [Region.queueOf_setQueue_ne _ _ he, hqueue]
  · rw [Region.task_setQueue, hreg, Region.task_onOwner]
    split
    · rw [Task.oorAll_eq]
    · rfl

end

end Sys2Proof.Machine
end

section
/-! SUPPORT. The fields of a task after the end of one of its commands (R59, R87, R89, R345). -/

namespace Sys2Proof.Machine

section
variable (w : Emitted) (c : Command) (m : Task)

/-- The end of a command in the fields of its task that it changes. -/
theorem Emitted.ended_eq : w.ended c m = { m with
    oor := (m.oorAll w.oor).oor, efault := (m.faulted c w.fault).efault, efaddr := (m.faulted c w.fault).efaddr
    counts := mapSet 0 m.counts c.tag (mapGet 0 m.counts c.tag - 1)
    tagc := if w.fault.isSome then m.tagc ||| tagBit c.tag else m.tagc
    tags := if mapGet 0 m.counts c.tag - 1 = 0 then m.tags ||| tagBit c.tag else m.tags
    fflags := if mapGet 0 m.counts c.tag - 1 = 0 then m.fflags ||| (mapGet 0 m.tagflags c.tag ||| w.flags)
      else m.fflags
    tagflags := mapSet 0 m.tagflags c.tag
      (if mapGet 0 m.counts c.tag - 1 = 0 then 0 else mapGet 0 m.tagflags c.tag ||| w.flags) } := by
  have hf : ∀ o : Word, ({ m with oor := o } : Task).faulted c w.fault = { m.faulted c w.fault with oor := o } := by
    intro o
    cases w.fault with
    | none => rfl
    | some f =>
      unfold Task.faulted Task.efaultAt
      dsimp only
      split <;> rfl
  rw [Emitted.ended, Task.endCommand_eq, Task.oorAll_eq, hf, Task.faulted_eq]

theorem Emitted.ended_counts : mapGet 0 (w.ended c m).counts c.tag = mapGet 0 m.counts c.tag - 1 := by
  rw [Emitted.ended_eq]
  exact mapGet_mapSet_same ..

theorem Emitted.ended_other {q : Nat} (h : q ≠ c.tag) : mapGet 0 (w.ended c m).counts q = mapGet 0 m.counts q ∧
    mapGet 0 (w.ended c m).tagflags q = mapGet 0 m.tagflags q := by
  rw [Emitted.ended_eq]
  exact ⟨mapGet_mapSet_ne _ _ _ h, mapGet_mapSet_ne _ _ _ h⟩

/-- With the last command of a tag the tag bit sets, and the flags join the task's. -/
theorem Emitted.ended_last (h : mapGet 0 m.counts c.tag - 1 = 0) :
    (w.ended c m).tags = m.tags ||| tagBit c.tag ∧
      (w.ended c m).fflags = m.fflags ||| (mapGet 0 m.tagflags c.tag ||| w.flags) ∧
      mapGet 0 (w.ended c m).tagflags c.tag = 0 := by
  rw [Emitted.ended_eq]
  refine ⟨if_pos h, if_pos h, ?_⟩
  dsimp only
  rw [mapGet_mapSet_same, if_pos h]

/-- The flags of an earlier one wait. -/
theorem Emitted.ended_earlier (h : mapGet 0 m.counts c.tag - 1 ≠ 0) :
    (w.ended c m).tags = m.tags ∧ (w.ended c m).fflags = m.fflags ∧
      mapGet 0 (w.ended c m).tagflags c.tag = mapGet 0 m.tagflags c.tag ||| w.flags := by
  rw [Emitted.ended_eq]
  refine ⟨if_neg h, if_neg h, ?_⟩
  dsimp only
  rw [mapGet_mapSet_same, if_neg h]

theorem Emitted.ended_whole (h : w.fault = none) :
    (w.ended c m).tagc = m.tagc ∧ (w.ended c m).efault = m.efault ∧ (w.ended c m).efaddr = m.efaddr := by
  rw [Emitted.ended_eq, h]
  exact ⟨rfl, rfl, rfl⟩

theorem Emitted.ended_faulted {f : EFault} (h : w.fault = some f) :
    (w.ended c m).tagc = m.tagc ||| tagBit c.tag ∧
      (m.efault.getLsbD 63 = true → (w.ended c m).efault = m.efault ∧ (w.ended c m).efaddr = m.efaddr) ∧
      (m.efault.getLsbD 63 = false →
        (w.ended c m).efault = BitVec.ofNat 64 (2 ^ 63 + c.tag % 64 * 2 ^ 57 + f.kind % 16 * 2 ^ 53 +
          faultEngine c.instr * 2 ^ 50 + f.code % 2 ^ 16) ∧
        (w.ended c m).efaddr = BitVec.ofNat 64 (f.addr % 2 ^ 57)) := by
  rw [Emitted.ended_eq, h]
  refine ⟨rfl, fun hv => ?_, Task.faulted_fresh (c := c) (f := f)⟩
  dsimp only
  rw [Task.faulted_valid hv]
  exact ⟨rfl, rfl⟩

theorem Emitted.ended_oor (h : w.oor = [] ∨ m.oor.getLsbD 63 = true) : (w.ended c m).oor = m.oor := by
  rw [Emitted.ended_eq]
  rcases h with h | h
  · rw [h]
    rfl
  · rw [Task.oorAll_valid _ _ h]

theorem Emitted.ended_frame :
    { w.ended c m with counts := m.counts, tagflags := m.tagflags, tags := m.tags, fflags := m.fflags, tagc := m.tagc
                       efault := m.efault, efaddr := m.efaddr, oor := m.oor } = m := by
  rw [Emitted.ended_eq]

end

/-! ### The machine after the end of a command -/

section
variable {r idx : Nat} {e : Engine} {c : Command} {w : Emitted} {p : Option Image} {v : State}

theorem CommandEnded.queue (h : CommandEnded r e idx c w p v) :
    (v.region r).queueOf e = dropAt ((w.s.region r).queueOf e) idx := by
  have := congrArg (fun g : Region => g.queueOf e) h.frame
  cases e <;> exact this

theorem CommandEnded.queue_ne (h : CommandEnded r e idx c w p v) {e' : Engine} (he : e' ≠ e) :
    (v.region r).queueOf e' = (w.s.region r).queueOf e' := by
  have hq := congrArg (fun g : Region => g.queueOf e') h.frame
  have hn := Region.queueOf_setQueue_ne { w.s.region r with pending := p } (dropAt ((w.s.region r).queueOf e) idx) he
  cases e' <;> exact Eq.trans hq hn

theorem CommandEnded.pending (h : CommandEnded r e idx c w p v) : (v.region r).pending = p := by
  have := congrArg Region.pending h.frame
  cases e <;> exact this

theorem CommandEnded.rest (h : CommandEnded r e idx c w p v) :
    { v.region r with tasks := [], pending := none, copyq := [], mergeq := [], pipeq := [] } =
      { w.s.region r with tasks := [], pending := none, copyq := [], mergeq := [], pipeq := [] } := by
  have := congrArg (fun g : Region => { g with pending := none, copyq := [], mergeq := [], pipeq := [] }) h.frame
  cases e <;> exact this

end

/-- The event that ends a command, by its kind and its fault, is one of two operations. -/
theorem exec_commandEnd {s : State} {r idx : Nat} {e : Engine} {c : Command} (w : Emitted)
    (h : isBatch c.instr = true → e = .attention) :
    exec (match isBatch c.instr, w.fault with
      | true, none => .attentionBatchComplete r idx
      | true, some _ => .attentionBatchAbandon r idx
      | false, none => .engineCommandComplete r e idx
      | false, some _ => .engineCommandAbandon r e idx) s =
      .next (if w.fault = none then completeCommand r e idx (isBatch c.instr) s
        else abandonCommand r e idx (isBatch c.instr) s) := by
  cases hb : isBatch c.instr <;> cases hf : w.fault
  · rfl
  · rfl
  · rw [h hb]
    rfl
  · rw [h hb]
    rfl

end Sys2Proof.Machine

namespace Sys2Proof.Settled

open Sys2Proof.Machine

/-- Settles O25: completion and abandonment end a command in one way, up to the record of its fault; an eviction that
has not begun changes its queue entry alone. -/
theorem engineCompletion : Obligations.EngineCompletion := by
  intro s r idx e c w im
  dsimp only
  intro hq hs hw hh hbatch hpart hparted
  refine ⟨?_, fun v rest hp hb hev hvh hvf => ?_⟩
  · obtain ⟨v, hend, h⟩ : ∃ v, (if w.fault = none then completeCommand r e idx (isBatch c.instr) s
          else abandonCommand r e idx (isBatch c.instr) s) = ctrDone v (w.s.region r).part c.counter ∧
        CommandEnded r e idx c w
          (if w.fault = none then im.or (w.s.region r).pending else (w.s.region r).pending) v := by
      by_cases hf : w.fault = none
      · rw [if_pos hf, if_pos hf]
        exact completeCommand_ends hq hs hw hh hf (hparted hf)
      · rw [if_neg hf, if_neg hf]
        obtain ⟨f, hf⟩ := Option.ne_none_iff_exists'.1 hf
        exact abandonCommand_ends hq hs hw hh hf
    have hmem := ctrDone_memoryOnly v (w.s.region r).part c.counter
    have hsame := onlyRegion.sameMemory h.only
    have haddr : ctrAddr v (w.s.region r).part c.counter = ctrAddr w.s (w.s.region r).part c.counter := by
      have := congrArg (fun x : State => ctrAddr x (w.s.region r).part c.counter) h.only.1
      exact this
    have htwo := ctrDone_two (s := v) (part := (w.s.region r).part) (h := c.counter)
    have hzero : c.counter = 0 → ctrDone v (w.s.region r).part c.counter = v := fun h0 => by
      rw [h0, ctrDone_zero]
    rw [haddr, hsame.word] at htwo
    refine ⟨_, (exec_commandEnd w hbatch).trans (congrArg Host.Outcome.next hend), ?_⟩
    generalize ctrDone v (w.s.region r).part c.counter = t at *
    have hregion := hmem.tables.region r
    rw [hregion]
    refine ⟨h.queue, ⟨?_, fun q hne => (hmem.tables.region q).trans (h.only.2 q hne)⟩, h.rest, fun _ => h.queue_ne,
      h.pending, fun j hj => (h.task j).trans (if_neg hj), fun h0 => ?_, fun h0 h2 => ?_, fun j hj => ?_⟩
    · have h1 := h.only.1
      rw [← h1, ← hmem]
    · rw [hzero h0]
      exact hsame
    · obtain ⟨h3, h4⟩ := htwo h0 h2
      exact ⟨h3, fun x hx => (h4 x (by
        have hpkg : v.pkg = w.s.pkg := by
          have := congrArg State.pkg h.only.1
          exact this
        rw [hpkg]
        exact hx)).trans (hsame x)⟩
    · rw [h.task j, if_pos hj]
      exact ⟨w.ended_counts .., fun q hne => w.ended_other c _ hne, w.ended_last c _, w.ended_earlier c _,
        fun hf => w.ended_whole c _ (not_not.1 hf), fun f => w.ended_faulted c _, w.ended_oor c _, w.ended_frame ..⟩
  · obtain ⟨honly, hqueue, hothers, htasks⟩ := partCommand_parts hq hb hs hp hev hvh hvf
    exact ⟨_, rfl, hqueue, hothers, honly, onlyRegion.sameMemory honly, htasks⟩

end Sys2Proof.Settled
end

section
/-! SUPPORT. The end of a task (R29, R270). -/

namespace Sys2Proof.Machine

/-- What a byte reads does not depend on whose the stores are. -/
theorem pendingByte_map {f : PStore → PStore} (hf : ∀ p, (f p).cells = p.cells) (a : Nat) :
    ∀ l : List PStore, pendingByte (l.map f) a = pendingByte l a
  | [] => rfl
  | p :: l => by rw [List.map_cons, pendingByte, pendingByte, hf, pendingByte_map hf a l]

/-- A region whose task in slot n has gone, its commands with a new owner. -/
def Region.released (g : Region) (n : Nat) (o : Owner) : Region :=
  { g with
    copyq := moveOwner (.slot n) o g.copyq, mergeq := moveOwner (.slot n) o g.mergeq
    pipeq := moveOwner (.slot n) o g.pipeq, queue := g.queue.filter fun m => m.slot ≠ n
    tasks := mapSet Task.zero g.tasks n (g.task n).freed }

@[simp] theorem Region.task_released (g : Region) (n : Nat) (o : Owner) : (g.released n o).task n = (g.task n).freed :=
  mapGet_mapSet_same ..

theorem Region.task_released_ne (g : Region) {n k : Nat} (h : k ≠ n) (o : Owner) : (g.released n o).task k = g.task k :=
  mapGet_mapSet_ne _ _ _ h

/-- A region after a write of one tracker entry. -/
def Region.setTracker (g : Region) (n : Nat) (x : Option Tracker) : Region :=
  { g with trackers := mapSet none g.trackers n x }

theorem Region.tracker_setTracker (g : Region) (n : Nat) (x : Option Tracker) :
    mapGet none (g.setTracker n x).trackers n = x := mapGet_mapSet_same ..

theorem Region.tracker_setTracker_ne (g : Region) {n j : Nat} (h : j ≠ n) (x : Option Tracker) :
    mapGet none (g.setTracker n x).trackers j = mapGet none g.trackers j := mapGet_mapSet_ne _ _ _ h

/-- The state in which the endpoint of a task is marked exited (R29). -/
def State.exited (s : State) (r n : Nat) : State :=
  endpointState s (regionKctx s r) ((s.region r).task n).endpoint 3

/-- A store of the task of a slot given to another issuer. -/
def PStore.moved (r n : Nat) (w : Issuer) (p : PStore) : PStore :=
  if p.issuer = .core (.seq r n) then { p with issuer := w } else p

theorem PStore.cells_moved (r n : Nat) (w : Issuer) (p : PStore) : (p.moved r n w).cells = p.cells := by
  unfold PStore.moved
  split <;> rfl

section
variable (s : State) (r n : Nat) (o : Owner) (w : Issuer)

theorem releaseTask_eq : releaseTask s r n o w =
    { (s.exited r n).setRegion r (((s.exited r n).region r).released n o) with
      stores := (s.exited r n).stores.map (PStore.moved r n w) } := rfl

@[simp] theorem releaseTask_region :
    (releaseTask s r n o w).region r = ((s.exited r n).region r).released n o :=
  (s.exited r n).region_setRegion r _

theorem releaseTask_region_ne {q : Nat} (h : q ≠ r) : (releaseTask s r n o w).region q = (s.exited r n).region q :=
  (s.exited r n).region_setRegion_ne _ h

theorem releaseTask_task {c : CoreId} (h : c ≠ .seq r n) : (releaseTask s r n o w).task c = (s.exited r n).task c := by
  cases c with
  | stew c => rfl
  | seq q k =>
    show ((releaseTask s r n o w).region q).task k = _
    by_cases hq : q = r
    · subst hq
      rw [releaseTask_region, Region.task_released_ne _ (fun e => h (by rw [e]))]
      rfl
    · rw [releaseTask_region_ne s r n o w hq]
      rfl

theorem releaseTask_sameMemory : sameMemory (s.exited r n) (releaseTask s r n o w) := fun a => by
  rw [releaseTask_eq]
  generalize s.exited r n = u
  show (match pendingByte (u.stores.map (PStore.moved r n w)) (canonPa u.pkg.toNat a) with
    | some v => v
    | none => memGet u.mem (canonPa u.pkg.toNat a)) = _
  rw [pendingByte_map (PStore.cells_moved r n w)]
  rfl

theorem releaseTask_ctrAddr (part h : Nat) :
    ctrAddr (releaseTask s r n o w) part h = ctrAddr (s.exited r n) part h := rfl

end

/-- A region write that keeps the tasks keeps every task of the machine. -/
theorem State.task_setRegion_of_tasks {s : State} {r : Nat} {g : Region} (h : g.tasks = (s.region r).tasks) (c : CoreId) :
    (s.setRegion r g).task c = s.task c := by
  cases c with
  | stew c => rfl
  | seq q j =>
    show ((s.setRegion r g).region q).task j = (s.region q).task j
    by_cases hq : q = r
    · subst hq
      rw [State.region_setRegion, Region.task, h, Region.task]
    · rw [State.region_setRegion_ne _ _ hq]

/-- A region write reads no byte of memory otherwise. -/
theorem State.setRegion_sameMemory (s : State) (r : Nat) (g : Region) : sameMemory s (s.setRegion r g) :=
  (s.setRegion_onlyRegion r g).sameMemory

/-! ### Whether accesses are outstanding -/

theorem hasCommands_iff {g : Region} {o : Owner} :
    hasCommands g o = true ↔ ∃ c ∈ g.copyq ++ g.mergeq ++ g.pipeq, c.owner = o := by
  simp only [hasCommands, List.any_eq_true, decide_eq_true_eq]

theorem hasStores_iff {s : State} {w : Issuer} : hasStores s w = true ↔ ∃ p ∈ s.stores, p.issuer = w := by
  simp only [hasStores, List.any_eq_true, decide_eq_true_eq]

theorem taskBusy_iff {s : State} {r k : Nat} : taskBusy s r k = true ↔
    (∃ c ∈ (s.region r).copyq ++ (s.region r).mergeq ++ (s.region r).pipeq, c.owner = .slot k) ∨
      ∃ p ∈ s.stores, p.issuer = .core (.seq r k) := by
  rw [taskBusy, Bool.or_eq_true, hasCommands_iff, hasStores_iff]

/-- The tracker entry that `tail` takes is the lowest free one. -/
theorem freeTracker_eq_some {g : Region} {n : Nat} (hn : n < 16) (h : mapGet none g.trackers n = none)
    (hl : ∀ j, j < n → mapGet none g.trackers j ≠ none) : freeTracker g = some n := by
  rw [freeTracker, upTo_eq_range, List.find?_range_eq_some]
  exact ⟨decide_eq_true h, List.mem_range.2 hn, fun j hj => by simpa using hl j hj⟩

theorem freeTracker_eq_none {g : Region} : freeTracker g = none ↔ ∀ j, j < 16 → mapGet none g.trackers j ≠ none := by
  rw [freeTracker, upTo_eq_range, List.find?_range_eq_none]
  simp

/-! ### `tail` on a sequencer -/

section
variable {s : State} {r k : Nat}

theorem exec_tail (hc : s.cur = .seq r k) : exec .tail s = .next (tailTask r k s) := by
  show execTail s = _
  rw [execTail, hc]

theorem tailTask_idle (h : taskBusy s r k = false) :
    tailTask r k s = ctrDone (releaseTask s r k .none .none) (s.region r).part ((s.region r).task k).counter := by
  unfold tailTask
  rw [h]
  rfl

theorem tailTask_tracked (h : taskBusy s r k = true) {n : Nat} (hn : freeTracker (s.region r) = some n) :
    tailTask r k s = (releaseTask s r k (.tracker n) (.tracker r n)).setRegion r
      ((((s.exited r k).region r).released k (.tracker n)).setTracker n
        (some { counter := ((s.region r).task k).counter, slot := k })) := by
  unfold tailTask
  dsimp only
  rw [h, hn, ← releaseTask_region s r k (.tracker n) (.tracker r n)]
  rfl

theorem tailTask_waits (h : taskBusy s r k = true) (hn : freeTracker (s.region r) = none) :
    tailTask r k s = s.holdMe (.wait .tail) := by
  unfold tailTask
  dsimp only
  rw [h, hn]
  rfl

theorem exec_tailHoldEnd (hw : ((s.region r).task k).hold = .wait .tail) (ht : tailReady s (.seq r k) = true) :
    exec (.tailHoldEnd (.seq r k)) s = .next (s.ready (.seq r k)) := by
  show execTailHoldEnd _ s = _
  rw [execTailHoldEnd, holdEnd, show (s.task (.seq r k)).hold = .wait .tail from hw]
  dsimp only
  rw [ht]
  rfl

theorem exec_retirementTrackerDrain {n : Nat} {x : Tracker} (hx : mapGet none (s.region r).trackers n = some x)
    (hc : hasCommands (s.region r) (.tracker n) = false) (hs : hasStores s (.tracker r n) = false) :
    exec (.retirementTrackerDrain r n) s = .next (ctrDone (s.setRegion r
      ((s.region r).setTracker n none)) (s.region r).part x.counter) := by
  show execRetirementTrackerDrain r n s = _
  unfold execRetirementTrackerDrain
  dsimp only
  rw [hx, hc, hs]
  rfl

end

/-- R270: on a steward core the end of a task is the trap TAIL. -/
theorem exec_tail_stew {s : State} {c : Nat} (hc : s.cur = .stew c)
    (hl : s.me.level = .u ∨ (s.me.level = .k ∧ s.me.kcause.getLsbD 63 = false)) :
    exec .tail s = .next (takeK s { code := tcTAIL, info := 0, pc := s.me.pc + 4, val := 0 }) := by
  show execTail s = _
  have hh : s.me.level ≠ .h := by rcases hl with h | ⟨h, -⟩ <;> rw [h] <;> decide
  have hk : (s.me.level = .k && isLive s.me.kcause) = false := by
    rcases hl with h | ⟨-, hl⟩
    · rw [h]
      rfl
    · rw [isLive, hl, Bool.and_false]
  rw [execTail, State.take, hc]
  dsimp only
  rw [if_neg hh, hk]
  rfl

/-- A child fewer, in a state whose memory is another's. -/
theorem ctrDone_memory {s u : State} (hm : sameMemory s u) (hp : u.pkg = s.pkg) {part h : Nat}
    (ha : ctrAddr u part h = ctrAddr s part h) :
    (h = 0 → sameMemory s (ctrDone u part h)) ∧
      (h ≠ 0 → s.word (ctrAddr s part h) % 2 ^ 32 ≥ 2 →
        (ctrDone u part h).word (ctrAddr s part h) = s.word (ctrAddr s part h) - 1 ∧
          sameBut s (ctrDone u part h) (ctrAddr s part h) 8) := by
  refine ⟨?_, fun h0 hw => ?_⟩
  · rintro rfl
    rw [ctrDone_zero]
    exact hm
  · have hd := ctrDone_two (s := u) (part := part) h0 (by rw [ha, hm.word]; exact hw)
    rw [ha, hm.word] at hd
    exact ⟨hd.1, (hm.but _ _).trans hp hd.2⟩

end Sys2Proof.Machine

namespace Sys2Proof.Settled

open Sys2Proof.Machine

/-- Settles O32: `tail` and its events each take one path of the model; every path is the end of the task (`releaseTask`)
followed by one child fewer, by a tracker entry, or by nothing. -/
theorem tailResult : Obligations.TailResult := by
  intro s r k
  dsimp only
  have hb := taskBusy_iff (s := s) (r := r) (k := k)
  have hfold : endpointState s (regionKctx s r) ((s.region r).task k).endpoint 3 = s.exited r k := rfl
  rw [hfold, ← hb]
  refine ⟨fun hc hn hpart hk => ?_, fun n hc hn hlt hfree hlow hk => ?_, fun hc hn hfull => ?_, fun hw hr => ?_,
    fun n x hx hcmd hst => ?_, fun c hc hl => ?_⟩
  · refine ⟨_, (exec_tail hc).trans (congrArg _ (tailTask_idle (by simpa using hn))), ?_⟩
    have hm := ctrDone_memoryOnly (releaseTask s r k .none .none) (s.region r).part ((s.region r).task k).counter
    have hmem := ctrDone_memory (releaseTask_sameMemory s r k .none .none) rfl
      (releaseTask_ctrAddr s r k .none .none (s.region r).part ((s.region r).task k).counter)
    refine ⟨?_, fun c h => (hm.tables.task c).trans (releaseTask_task s r k .none .none h), ?_,
      fun q hq => (hm.tables.region q).trans (releaseTask_region_ne s r k .none .none hq), hmem⟩
    · rw [hm.tables.region, releaseTask_region, Region.task_released, hk]
      rfl
    · rw [hm.tables.region, releaseTask_region]
      rfl
  · refine ⟨_, (exec_tail hc).trans (congrArg _ (tailTask_tracked hn (freeTracker_eq_some hlt hfree hlow))), ?_⟩
    have htask := fun c h => releaseTask_task s r k (.tracker n) (.tracker r n) (c := c) h
    have hregion := releaseTask_region s r k (.tracker n) (.tracker r n)
    have hother := fun q h => releaseTask_region_ne s r k (.tracker n) (.tracker r n) (q := q) h
    have hmem := releaseTask_sameMemory s r k (.tracker n) (.tracker r n)
    have hstores := congrArg State.stores (releaseTask_eq s r k (.tracker n) (.tracker r n))
    generalize releaseTask s r k (.tracker n) (.tracker r n) = u at *
    generalize s.exited r k = w at *
    rw [State.region_setRegion]
    refine ⟨?_, fun c h => ?_, Region.tracker_setTracker .., rfl, rfl, rfl, rfl, hstores, fun q hq => ?_,
      fun a => (u.setRegion_sameMemory r _ a).trans (hmem a)⟩
    · exact (Region.task_released _ k (.tracker n)).trans (by rw [hk]; rfl)
    · rw [State.task_setRegion_of_tasks (by rw [hregion]; rfl), htask c h]
    · rw [State.region_setRegion_ne _ _ hq, hother q hq]
  · refine ⟨_, (exec_tail hc).trans (congrArg _ (tailTask_waits hn (freeTracker_eq_none.2 hfull))), ?_⟩
    exact ((ends.refl s).holdMe _).of_eq (by rw [State.me_seq hc])
  · refine ⟨_, exec_tailHoldEnd hw ?_, s.ready_ends (.seq r k)⟩
    rcases hr with h | ⟨j, hj, hf⟩
    · simp [tailReady, h]
    · have : freeTracker (s.region r) ≠ none := fun h => freeTracker_eq_none.1 h j hj hf
      simp [tailReady, this]
  · refine ⟨_, exec_retirementTrackerDrain hx ?_ ?_, ?_⟩
    · exact Bool.eq_false_iff.2 fun h => by
        obtain ⟨c, hc, ho⟩ := hasCommands_iff.1 h
        exact hcmd c hc ho
    · exact Bool.eq_false_iff.2 fun h => by
        obtain ⟨p, hp, ho⟩ := hasStores_iff.1 h
        exact hst p hp ho
    · generalize hu : s.setRegion r _ = u
      have hur : u.region r = (s.region r).setTracker n none := by
        rw [← hu, State.region_setRegion]
      have honly : onlyRegion r s u := hu ▸ s.setRegion_onlyRegion r _
      have hm := ctrDone_memoryOnly u (s.region r).part x.counter
      have hmem := ctrDone_memory honly.sameMemory (by rw [← hu]; rfl)
        (show ctrAddr u (s.region r).part x.counter = ctrAddr s (s.region r).part x.counter by rw [← hu]; rfl)
      rw [hm.tables.region, hur]
      refine ⟨rfl, Region.tracker_setTracker .., fun j hj => Region.tracker_setTracker_ne _ hj _, ?_, hmem⟩
      refine ⟨?_, fun q hq => (hm.tables.region q).trans (honly.2 q hq)⟩
      generalize ctrDone u (s.region r).part x.counter = t at *
      subst hu
      rw [← hm]
      rfl
  · exact ⟨_, exec_tail_stew hc hl, takeK_entersK s ⟨tcTAIL, 0, s.me.pc + 4, 0⟩ (show tcTAIL < 256 by decide)⟩

end Sys2Proof.Settled
end

section
/-! SUPPORT. A tick of a unit that drains while a port's configuration takes effect (R137, R327). -/

namespace Sys2Proof.Machine

/-- An element whose port 0 stands faulted, with a configuration of another kind about to take effect. -/
def reconfiguringElement : Element :=
  { Element.zero with
    ag0 := { AgPort.zero with fault := some { kind := 1, code := 0, word := 0, addr := 0 } }
    flight := [(1, .cfg 0 { AgPort.zero with kind := 1 })] }

/-- An island of that element whose unit has ended its last trip. -/
def drainingIsland : Island :=
  { row0 := 0, col0 := 0, nrow := 1, ncol := 1, lop := 1, lrt := 1, lra := 1, counter := 0, unit := some 1, trips := 0
    flags := 0, held := none, watch := 0, stalled := false, charges := Charges.zero, phase := Charges.zero, hit := 0 }

/-- A machine whose region 0 holds that island. -/
def drainingState : State :=
  State.reset.setRegion 0 { Region.zero with
    islands := [(0, some drainingIsland)], elements := [(0, reconfiguringElement)] }

/-- What the tick of that island is charged to, as the island shows it. -/
def drainingState.held : Option Stall :=
  (((islandTick 0 0 drainingState).region 0).island 0).bind (·.held)

/-- The configuration has cleared the fault (R327) before the cause of the tick is read: it is LATE. -/
theorem drainingState.held_late : drainingState.held = some .late := by decide +kernel

theorem exec_islandTick (r k : Nat) (s : State) : exec (.islandTick r k) s = .next (islandTick r k s) := rfl

/-- Before the tick the port stands faulted: the cause is QUIET. -/
theorem drainingState.cause_quiet : drainCause (drainingState.region 0) drainingIsland = .quiet := by decide +kernel

/-- Nothing holds the tick. -/
theorem drainingState.runs :
    firstStall (drainingIsland.cells.flatMap fun e => causesOf (drainingState.region 0) drainingIsland e
      (tickUses (drainingState.region 0) drainingIsland e) true) = none := by decide +kernel

theorem drainingState.no_rsm : rsmPorts drainingState 0 drainingIsland = [] := by decide +kernel

end Sys2Proof.Machine

namespace Sys2Proof.Settled

open Sys2Proof.Machine

/-- Refutes O41: in `drainingState` a port of the drained unit's element is faulted, and a configuration that changes
its kind takes effect in this very tick. The statement charges the tick to the cause that the element gave before it
(QUIET); the model reads the cause once the results of the tick are in, when the fault is gone, and charges LATE. -/
theorem not_islandTickResult : ¬ Obligations.IslandTickResult := by
  intro h
  obtain ⟨⟨t, ht, -, -, -, -, hrun⟩, -⟩ := h drainingState 0 0 drainingIsland (by decide +kernel)
  have hfrozen : ¬((drainingState.region 0).frozen = true ∨ drainingState.health.crit = true) := by decide +kernel
  have hdefer : ¬((drainingState.region 0).deferred ≠ none ∧
      atPoint (drainingState.region 0) 0 drainingIsland = true) := by decide +kernel
  have hwd : (drainingState.region 0).stallwd = 0 := by decide +kernel
  obtain ⟨hisl, -⟩ := hrun (by decide) hfrozen rfl
    (by rw [if_neg hdefer, List.append_nil]; exact drainingState.runs) (.inl drainingState.no_rsm)
    (fun _ hal => hal.1 hwd)
  have hheld := congrArg (Option.bind · (·.held)) hisl
  have hnext : t = islandTick 0 0 drainingState := Host.Outcome.next.inj (ht.symm.trans (exec_islandTick 0 0 _))
  rw [hnext] at hheld
  have hlate : (((islandTick 0 0 drainingState).region 0).island 0).bind (·.held) = some .late := drainingState.held_late
  rw [hlate] at hheld
  have hq : some Stall.late = some (drainCause (drainingState.region 0) drainingIsland) := hheld
  rw [drainingState.cause_quiet] at hq
  cases hq

end Sys2Proof.Settled
end

section
/-! SUPPORT. Banks that pass between contexts while no protection unit holds an error (R37, R38). -/

namespace Sys2Proof.Machine

/-! ### Tables -/

theorem mapGet_filter_key {α : Type} (z : α) (f : Nat → Bool) (u : Nat) : ∀ m : Map α,
    mapGet z (m.filter fun x => f x.1) u = if f u then mapGet z m u else z
  | [] => by simp [mapGet]
  | (k, v) :: m => by
    have ih := mapGet_filter_key z f u m
    by_cases hf : f k = true
    · rw [List.filter_cons_of_pos (by exact hf), mapGet, mapGet, ih]
      by_cases hk : u = k
      · subst hk
        simp [hf]
      · simp only [hk, if_false]
    · rw [List.filter_cons_of_neg (by exact hf), ih, mapGet]
      by_cases hk : u = k
      · subst hk
        simp [hf]
      · rw [if_neg hk]

theorem mapGet_map_value {α : Type} {z : α} {f : Nat × α → Nat × α} {g : α → α} (hf : ∀ k v, f (k, v) = (k, g v))
    (hz : g z = z) (u : Nat) : ∀ m : Map α, mapGet z (m.map f) u = g (mapGet z m u)
  | [] => hz.symm
  | (k, v) :: m => by
    rw [List.map_cons, hf, mapGet, mapGet, mapGet_map_value hf hz u m]
    split <;> rfl

theorem mapGet_mapSetN {α : Type} [DecidableEq α] (z : α) (a : Nat) : ∀ (xs : List α) (m : Map α) (b : Nat),
    mapGet z (mapSetN z m b xs) a = if b ≤ a ∧ a < b + xs.length then xs.getD (a - b) z else mapGet z m a
  | [], m, b => by rw [mapSetN, if_neg (by simp)]
  | x :: xs, m, b => by
    rw [mapSetN, mapGet_mapSetN z a xs, mapGet_mapSet]
    by_cases h : b ≤ a ∧ a < b + (x :: xs).length
    · rw [if_pos h]
      rw [List.length_cons] at h
      by_cases hb : a = b
      · subst hb
        rw [if_neg (by omega), if_pos rfl, Nat.sub_self, List.getD_cons_zero]
      · rw [if_pos (by omega), show a - b = a - (b + 1) + 1 by omega, List.getD_cons_succ]
    · rw [if_neg h]
      rw [List.length_cons] at h
      rw [if_neg (by omega), if_neg (by omega)]

theorem mapGetN_eq_map {α : Type} (z : α) (m : Map α) : ∀ n a : Nat,
    mapGetN z m a n = (upTo n).map fun k => mapGet z m (a + k)
  | 0, _ => rfl
  | n + 1, a => by
    rw [mapGetN, mapGetN_eq_map z m n, upTo_eq_range, upTo_eq_range, List.range_succ_eq_map, List.map_cons, List.map_map]
    refine congrArg (_ :: ·) (List.map_congr_left fun k _ => ?_)
    rw [Function.comp_apply, Nat.add_assoc, Nat.add_comm 1 k]

/-! ### Clean protection units (R358, R359) -/

/-- No protection unit is poisoned or about to fail. -/
def State.clean (s : State) : Prop := (∀ u, mapGet false s.poison u = false) ∧ ∀ u, mapGet 0 s.bad u = 0

theorem State.clean.write {s : State} (h : s.clean) (a : Nat) (bs : List Byte) : (s.write a bs).clean := by
  refine ⟨fun u => ?_, h.2⟩
  have e := mapGet_filter_key false (fun k => match unitRange s k with
    | none => true
    | some r => !coversRange (canonPa s.pkg.toNat a) bs.length r) u s.poison
  rw [h.1 u, ite_self] at e
  exact e

/-- A bank of a context kept by the hypervisor. -/
def State.keeping (s : State) (r e b : Nat) (c : Nat × Nat) : State :=
  { s with kept := { region := r, part := c.1, cid := c.2, elem := e, bank := b, bad := []
                     bytes := (upTo 0xC00).map fun k => s.elmByte r e (b * 0xC00 + k) } :: s.kept }

section
variable {s : State} (h : s.clean)
include h

theorem readUnit_clean (chip pa : Nat) : readUnit s chip pa = (false, s) := by
  have hc : readCache s chip pa = (false, s) := by
    simp [readCache, readLevel, h.1, h.2]
  rw [readUnit, hc]
  dsimp only
  rw [if_neg (by decide), readHome]
  dsimp only
  rw [h.1, h.2, if_neg (by decide)]
  cases s.place pa <;> rfl

theorem readBank_clean (r e b : Nat) : readBank s r e b = s := by
  unfold readBank
  split
  · rfl
  · exact foldl_eq_self _ fun o _ => by rw [readElmUnit_clean h.1 h.2]

theorem poisonedWords_clean (r e b : Nat) : poisonedWords s r e b = [] := by
  unfold poisonedWords
  split
  · rfl
  · exact List.filter_eq_nil_iff.2 fun o _ => by simp [h.1]

theorem readImageWords_clean (r b a : Nat) : readImageWords s r b a = ([], s) := by
  unfold readImageWords
  split
  · rfl
  · exact foldl_eq_self _ fun o _ => by
      rw [readUnit_clean h]
      rfl

theorem setBankValid_clean (r p e b : Nat) (v : Bool) : setBankValid s r p e b v =
    s.write (bankValid p e b).1 [BitVec.ofNat 8 (setBits (s.byte (bankValid p e b).1).toNat (bankValid p e b).2
      (bankValid p e b).2 (if v then 1 else 0))] := by
  unfold setBankValid
  dsimp only
  rw [readValid, readUnit_clean h]

theorem spillBank_clean (r e b p : Nat) : spillBank s r e b p =
    setBankValid (s.write (bankImage p e b) (mapGetN 0 ((s.region r).element e).elm (b * bankSize) bankSize))
      r p e b true := by
  rw [spillBank, readBank_clean h, poisonedWords_clean h, List.foldl_nil]

theorem keepBank_clean (r e b : Nat) (c : Nat × Nat) : keepBank s r e b c = s.keeping r e b c := by
  rw [keepBank, readBank_clean h, poisonedWords_clean h, mapGetN_eq_map]
  rfl

end

/-! ### A bank put in place -/

/-- A region with a bank of given bytes and tag. -/
def Region.putBank (g : Region) (e b : Nat) (bs : List Byte) (tag : Option (Nat × Nat)) : Region :=
  (g.setElement e { g.element e with elm := mapSetN 0 (g.element e).elm (b * bankSize) bs }).setTag e b tag

section
variable (g : Region) (e b : Nat) (bs : List Byte) (tag : Option (Nat × Nat))

theorem Region.putBank_element : (g.putBank e b bs tag).element e = { g.element e with
    elm := mapSetN 0 (g.element e).elm (b * bankSize) bs
    tags := mapSet none (g.element e).tags b (if tag = g.tagBase then none else some tag) } := by
  unfold Region.putBank Region.setTag
  dsimp only
  rw [Region.element_setElement, Region.element_setElement]
  rfl

theorem Region.putBank_element_ne {q : Nat} (h : q ≠ e) : (g.putBank e b bs tag).element q = g.element q := by
  unfold Region.putBank Region.setTag
  dsimp only
  rw [Region.element_setElement_ne _ _ h, Region.element_setElement_ne _ _ h]

theorem Region.putBank_tasks : (g.putBank e b bs tag).tasks = g.tasks := rfl

theorem Region.putBank_bankTag (k : Nat) :
    (g.putBank e b bs tag).bankTag e k = if k = b then tag else g.bankTag e k := by
  rw [Region.bankTag, Region.putBank_element]
  dsimp only
  rw [mapGet_mapSet, Region.bankTag]
  show Option.getD _ g.tagBase = _
  split
  · split
    · next h => exact h.symm
    · rfl
  · rfl

theorem Region.putBank_elm (k : Nat) (h : bs.length = bankSize) :
    mapGet 0 ((g.putBank e b bs tag).element e).elm k =
      if k / bankSize = b then bs.getD (k - b * bankSize) 0 else mapGet 0 (g.element e).elm k := by
  rw [Region.putBank_element]
  dsimp only
  rw [mapGet_mapSetN, h]
  have hk : (b * bankSize ≤ k ∧ k < b * bankSize + bankSize) ↔ k / bankSize = b := by
    rw [show bankSize = 3072 from rfl]
    omega
  simp only [hk]

end

/-- One state is another with a bank of given bytes and tag. -/
def bankPut (r e b : Nat) (bs : List Byte) (tag : Option (Nat × Nat)) (s t : State) : Prop :=
  { t with regions := s.regions, poison := s.poison, bad := s.bad } = s ∧
    t.region r = (s.region r).putBank e b bs tag ∧ (∀ q, q ≠ r → t.region q = s.region q) ∧ (s.clean → t.clean)

/-- The marks of units after those of a bank are cleared. -/
theorem mapGet_foldl_unmark {α : Type} [DecidableEq α] {z : α} (key : Nat → Nat) : ∀ (l : List Nat) {m : Map α},
    (∀ u, mapGet z m u = z) → ∀ u, mapGet z (l.foldl (fun m o => mapSet z m (key o) z) m) u = z
  | [], _, h => h
  | o :: l, m, h => mapGet_foldl_unmark key l fun u => by
      rw [mapGet_mapSet]
      split
      · rfl
      · exact h u

/-- A write of memory after a bank was put in place is the bank put in place after the write. -/
theorem bankPut.write {r e b : Nat} {bs : List Byte} {tag : Option (Nat × Nat)} {s t : State}
    (h : bankPut r e b bs tag s t) (hc : s.clean) (a : Nat) (l : List Byte) :
    bankPut r e b bs tag (s.write a l) (t.write a l) := by
  obtain ⟨hrest, hreg, hother, hclean⟩ := h
  refine ⟨?_, hreg, hother, fun _ => (hclean hc).write a l⟩
  rw [← hrest]
  rfl

theorem bankPut.byte {r e b : Nat} {bs : List Byte} {tag : Option (Nat × Nat)} {s t : State}
    (h : bankPut r e b bs tag s t) (a : Nat) : t.byte a = s.byte a := by
  rw [← h.1]
  rfl

theorem putBank_put (s : State) (r e b : Nat) (bs : List Byte) (tag : Option (Nat × Nat)) :
    bankPut r e b bs tag s (putBank s r e b bs [] tag) := by
  have hr := s.region_setRegion r ((s.region r).putBank e b bs tag)
  have hq := fun q hq => s.region_setRegion_ne (p := r) (q := q) ((s.region r).putBank e b bs tag) hq
  unfold putBank
  dsimp only
  split
  · exact ⟨rfl, hr, hq, fun h => h⟩
  · have hp := fun h => mapGet_foldl_unmark (z := false) (elmUnit r e) (bankUnits b) (m := s.poison) h
    have hb := fun h => mapGet_foldl_unmark (z := 0) (elmUnit r e) (bankUnits b) (m := s.bad) h
    have hnone : (fun (m : Map Bool) o => mapSet false m (elmUnit r e o) (([] : List Nat).contains o)) =
        fun m o => mapSet false m (elmUnit r e o) false := rfl
    rw [hnone]
    generalize bankUnits b = l at *
    exact ⟨rfl, hr, hq, fun h => ⟨hp h.1, hb h.2⟩⟩

/-! ### The passing of a bank (R37) -/

/-- A task whose wait is tried again. -/
def Task.retried (m : Task) : Task :=
  match m.hold with
  | .wait _ => { m with hold := .ready }
  | _ => m

theorem retryWaits_task (s : State) (r n : Nat) :
    ((retryWaits s r).region r).task n = ((s.region r).task n).retried := by
  rw [retryWaits, State.region_setRegion]
  refine mapGet_map_value (g := Task.retried) (fun k m => ?_) rfl n _
  unfold Task.retried
  cases m.hold <;> rfl

theorem retryWaits_element (s : State) (r q : Nat) :
    ((retryWaits s r).region r).element q = (s.region r).element q := by
  rw [retryWaits, State.region_setRegion]
  rfl

theorem retryWaits_tagBase (s : State) (r : Nat) : ((retryWaits s r).region r).tagBase = (s.region r).tagBase := by
  rw [retryWaits, State.region_setRegion]

theorem retryWaits_onlyRegion (s : State) (r : Nat) : onlyRegion r s (retryWaits s r) := s.setRegion_onlyRegion r _

/-- What is left of a region and of the machine when one of its banks has passed with given bytes to a context. -/
structure BankPassed (r e b : Nat) (bs : List Byte) (tag : Option (Nat × Nat)) (u t : State) : Prop where
  tags : ∀ k, (t.region r).bankTag e k = if k = b then tag else (u.region r).bankTag e k
  bytes : ∀ k, t.elmByte r e k = if k / bankSize = b then bs.getD (k - b * bankSize) 0 else u.elmByte r e k
  elements : ∀ q, q ≠ e → (t.region r).element q = (u.region r).element q
  tasks : ∀ n, (t.region r).task n = ((u.region r).task n).retried
  regions : ∀ q, q ≠ r → t.region q = u.region q
  rest : { t with regions := u.regions, poison := u.poison, bad := u.bad } = u

theorem bankPut.passed {r e b : Nat} {bs : List Byte} {tag : Option (Nat × Nat)} {u v : State}
    (h : bankPut r e b bs tag u v) (hl : bs.length = bankSize) : BankPassed r e b bs tag u (retryWaits v r) := by
  obtain ⟨hrest, hreg, hother, -⟩ := h
  have he : ∀ q, ((retryWaits v r).region r).element q = ((u.region r).putBank e b bs tag).element q := fun q => by
    rw [← hreg, retryWaits_element]
  have hb : ((retryWaits v r).region r).tagBase = ((u.region r).putBank e b bs tag).tagBase := by
    rw [← hreg, retryWaits_tagBase]
  obtain ⟨hm, ho⟩ := retryWaits_onlyRegion v r
  refine ⟨fun k => ?_, fun k => ?_, fun q hq => ?_, fun n => ?_, fun q hq => (ho q hq).trans (hother q hq), ?_⟩
  · rw [Region.bankTag, he, hb, ← Region.bankTag, Region.putBank_bankTag]
  · rw [State.elmByte, he, Region.putBank_elm _ _ _ _ _ _ hl, State.elmByte]
  · rw [he, Region.putBank_element_ne _ _ _ _ _ hq]
  · rw [retryWaits_task, hreg]
    rfl
  · rw [← hrest, ← hm]
    rfl

/-- A step leaves memory as it was when it changes no more than regions and the marks of units. -/
theorem BankPassed.sameMemory {r e b : Nat} {bs : List Byte} {tag : Option (Nat × Nat)} {u t : State}
    (h : BankPassed r e b bs tag u t) : Machine.sameMemory u t := fun a => by
  conv_rhs => rw [← h.rest]
  rfl

/-- The state in which no access waits for a bank. -/
def State.unspilled (s : State) (r e b : Nat) : State := { s with spills := s.spills.filter (· ≠ (r, e, b)) }

theorem exec_bankAccessRelease {s : State} {r e b : Nat} (ht : (s.region r).bankTag e b ≠ some (s.region r).context)
    (hb : b < 128) (he : e ∈ (s.region r).enabled) : exec (.bankAccessRelease r e b) s =
      .next (retryWaits (claimBank (releaseBank (s.unspilled r e b) r e b) r e b (s.region r).context) r) := by
  show execBankAccessRelease r e b s = _
  unfold execBankAccessRelease
  dsimp only
  rw [if_neg]
  · rfl
  · simp only [Bool.or_eq_true, decide_eq_true_eq, Bool.not_eq_true', not_or]
    refine ⟨⟨fun h => ht (of_decide_eq_true h), by omega⟩, fun hn => ?_⟩
    exact Bool.false_ne_true (hn.symm.trans (List.contains_iff_mem.2 he))

/-! What goes with a bank's contents (R37 step 1) -/

theorem releaseBank_none {s : State} {r e b : Nat} (h : (s.region r).bankTag e b = none) : releaseBank s r e b = s := by
  rw [releaseBank, h]

theorem releaseBank_kept {s : State} {r e b : Nat} {c : Nat × Nat} (h : (s.region r).bankTag e b = some c)
    (ha : bankArea s r c = none) : releaseBank s r e b = keepBank s r e b c := by
  rw [releaseBank, h]
  dsimp only
  rw [ha]

theorem releaseBank_spilled {s : State} {r e b p : Nat} {c : Nat × Nat} (h : (s.region r).bankTag e b = some c)
    (ha : bankArea s r c = some p) : releaseBank s r e b = spillBank s r e b p := by
  rw [releaseBank, h]
  dsimp only
  rw [ha]

/-- A context of which no copy is kept gets its bank from its bank save area. -/
theorem claimBank_fills {s : State} {r e b : Nat} {ctx : Nat × Nat} (h : ∀ x ∈ s.kept, x.isFor r e b ctx = false) :
    claimBank s r e b ctx = fillBank s r e b (bankArea s r ctx) (some ctx) := by
  have hf : s.kept.find? (fun x => x.isFor r e b ctx) = none := List.find?_eq_none.2 fun x hx => by simp [h x hx]
  rw [claimBank, hf]

theorem bankArea_eq_none {s : State} {r : Nat} {ctx : Nat × Nat}
    (h : ∀ x ∈ s.saves, x.region ≠ r ∨ (x.part, ctxCid x.ctx) ≠ ctx) : bankArea s r ctx = none := by
  have hf : s.saves.find? (fun x => x.region = r && (x.part, ctxCid x.ctx) = ctx) = none :=
    List.find?_eq_none.2 fun x hx => by
      rw [Bool.and_eq_true, decide_eq_true_eq, decide_eq_true_eq]
      rintro ⟨h1, h2⟩
      exact (h x hx).elim (· h1) (· h2)
  rw [bankArea, hf]

theorem BankPassed.frame {r e b : Nat} {bs : List Byte} {tag : Option (Nat × Nat)} {u t : State}
    (h : BankPassed r e b bs tag u t) : t.stews = u.stews ∧ t.spills = u.spills ∧ t.kept = u.kept := by
  rw [← h.rest]
  exact ⟨rfl, rfl, rfl⟩

theorem BankPassed.zero {r e b : Nat} {tag : Option (Nat × Nat)} {u t : State}
    (h : BankPassed r e b (List.replicate bankSize 0) tag u t) (k : Nat) (hk : k / 0xC00 = b) : t.elmByte r e k = 0 := by
  rw [h.bytes, show bankSize = 0xC00 from rfl, if_pos hk, List.getD_eq_getElem?_getD, List.getElem?_replicate]
  split <;> rfl

/-- The passing of a bank, seen from a state whose regions and stewards are those of the one in which it passes. -/
theorem BankPassed.passes {r e b : Nat} {bs : List Byte} {c : Nat × Nat} {s u t : State}
    (h : BankPassed r e b bs (some c) u t) (hr : u.regions = s.regions) (hs : u.stews = s.stews)
    (hp : u.spills = s.spills.filter (· ≠ (r, e, b))) :
    (t.region r).bankTag e b = some c ∧ (∀ k, k ≠ b → (t.region r).bankTag e k = (s.region r).bankTag e k) ∧
      (∀ k, k / 0xC00 ≠ b → t.elmByte r e k = s.elmByte r e k) ∧
      (∀ q, q ≠ e → (t.region r).element q = (s.region r).element q) ∧ (∀ q, q ≠ r → t.region q = s.region q) ∧
      t.stews = s.stews ∧ (r, e, b) ∉ t.spills ∧
      (∀ n i, ((s.region r).task n).hold = .wait i → (t.region r).task n = { (s.region r).task n with hold := .ready }) ∧
      ∀ n, (∀ i, ((s.region r).task n).hold ≠ .wait i) → (t.region r).task n = (s.region r).task n := by
  have hreg : ∀ q, u.region q = s.region q := fun q => by rw [State.region, hr, State.region]
  obtain ⟨hstews, hspills, -⟩ := h.frame
  refine ⟨by rw [h.tags, if_pos rfl], fun k hk => by rw [h.tags, if_neg hk, hreg], fun k hk => ?_,
    fun q hq => (h.elements q hq).trans (by rw [hreg]), fun q hq => (h.regions q hq).trans (hreg q),
    hstews.trans hs, ?_, fun n i hn => ?_, fun n hn => ?_⟩
  · rw [h.bytes, show bankSize = 0xC00 from rfl, if_neg hk, State.elmByte, hreg, State.elmByte]
  · rw [hspills, hp]
    simp
  · rw [h.tasks, hreg, Task.retried, hn]
  · rw [h.tasks, hreg, Task.retried]
    cases hh : ((s.region r).task n).hold with
    | wait i => exact absurd hh (hn i)
    | _ => rfl

/-! ### A bank written to a bank save area (R38) -/

theorem setBits_one_testBit (x : BitVec 8) (i : Fin 8) :
    (BitVec.ofNat 8 (setBits x.toNat i i 1)).getLsbD i = true := by
  revert x i
  decide +kernel

theorem setBits_zero_testBit (x : BitVec 8) (i : Fin 8) :
    (BitVec.ofNat 8 (setBits x.toNat i i 0)).getLsbD i = false := by
  revert x i
  decide +kernel

theorem canonPa_of_lt {own a : Nat} (h : a < 2 ^ 48) : canonPa own a = a := by
  unfold canonPa
  rw [if_neg]
  simp only [Bool.and_eq_true, decide_eq_true_eq]
  omega

/-- A bank and its valid bit, written. -/
theorem spillBank_bytes {s : State} (h : s.clean) {r e b p : Nat} (he : e < 256) (hb : b < 128)
    (hp : p + 0x7000000 ≤ 2 ^ 48) :
    (∀ k, k < 0xC00 → (spillBank s r e b p).byte (p + e * 0x60000 + b * 0xC00 + k) = s.elmByte r e (b * 0xC00 + k)) ∧
      ((spillBank s r e b p).byte (p + 0x6000000 + (128 * e + b) / 8)).getLsbD (b % 8) = true ∧
      ∀ y, (∀ k, k < 0xC00 → canonPa s.pkg.toNat y ≠ p + e * 0x60000 + b * 0xC00 + k) →
        canonPa s.pkg.toNat y ≠ p + 0x6000000 + (128 * e + b) / 8 → (spillBank s r e b p).byte y = s.byte y := by
  have hc := h.write (bankImage p e b) (mapGetN 0 ((s.region r).element e).elm (b * bankSize) bankSize)
  rw [spillBank_clean h, setBankValid_clean hc]
  rw [show bankValid p e b = (p + 0x6000000 + (128 * e + b) / 8, (128 * e + b) % 8) from rfl,
    show bankImage p e b = p + e * 0x60000 + b * 0xC00 from rfl]
  dsimp only
  have hlen : (mapGetN 0 ((s.region r).element e).elm (b * bankSize) bankSize).length = 0xC00 := by
    rw [mapGetN_eq_map, List.length_map, upTo_length]
    rfl
  have hmark := canonPa_of_lt (own := s.pkg.toNat) (a := p + 0x6000000 + (128 * e + b) / 8) (by omega)
  have himage := canonPa_of_lt (own := s.pkg.toNat) (a := p + e * 0x60000 + b * 0xC00) (by omega)
  generalize hl : mapGetN 0 ((s.region r).element e).elm (b * bankSize) bankSize = l at *
  refine ⟨fun k hk => ?_, ?_, fun y hy hm => ?_⟩
  · have hk' := canonPa_of_lt (own := s.pkg.toNat) (a := p + e * 0x60000 + b * 0xC00 + k) (by omega)
    rw [State.byte_write, State.write_pkg, hmark, hk', List.length_singleton, if_neg (by omega), State.byte_write,
      himage, hk', hlen, if_pos (by omega), Nat.add_sub_cancel_left, ← hl, mapGetN_eq_map,
      List.getD_eq_getElem _ _ (by rw [List.length_map, upTo_length]; exact hk), List.getElem_map]
    simp only [upTo_eq_range, List.getElem_range]
    rfl
  · rw [State.byte_write, State.write_pkg, hmark, List.length_singleton, if_pos (by omega), Nat.sub_self,
      List.getD_cons_zero, show b % 8 = (128 * e + b) % 8 by omega]
    exact setBits_one_testBit _ ⟨(128 * e + b) % 8, by omega⟩
  · rw [State.byte_write, State.write_pkg, hmark, List.length_singleton, if_neg (by omega), State.byte_write, himage,
      hlen, if_neg]
    rintro ⟨h1, h2⟩
    exact hy (canonPa s.pkg.toNat y - (p + e * 0x60000 + b * 0xC00)) (by omega) (by omega)

/-- A spill writes memory alone. -/
theorem spillBank_memoryOnly {s : State} (h : s.clean) (r e b p : Nat) : memoryOnly s (spillBank s r e b p) := by
  rw [spillBank_clean h, setBankValid_clean (h.write _ _)]
  exact (s.write_memoryOnly _ _).trans (State.write_memoryOnly _ _ _)

theorem spillBank_isClean {s : State} (h : s.clean) (r e b p : Nat) : (spillBank s r e b p).clean := by
  have hc := h.write (bankImage p e b) (mapGetN 0 ((s.region r).element e).elm (b * bankSize) bankSize)
  rw [spillBank_clean h, setBankValid_clean hc]
  exact hc.write _ _

/-- A bank of a context with neither a copy nor an area comes up zero. -/
theorem claimBank_zero {s : State} {r e b : Nat} {ctx : Nat × Nat} (h : ∀ x ∈ s.kept, x.isFor r e b ctx = false)
    (ha : bankArea s r ctx = none) :
    BankPassed r e b (List.replicate bankSize 0) (some ctx) s (retryWaits (claimBank s r e b ctx) r) := by
  rw [claimBank_fills h, ha]
  exact (putBank_put s r e b _ _).passed List.length_replicate

/-- The bit of a bank in the valid map of an area (R38), cleared. -/
def State.invalidated (s : State) (p e b : Nat) : State :=
  s.write (bankValid p e b).1 [BitVec.ofNat 8 (setBits (s.byte (bankValid p e b).1).toNat (bankValid p e b).2
    (bankValid p e b).2 0)]

/-- A bank whose area holds a valid copy comes up as that copy, which is valid no more. -/
theorem claimBank_reload {s : State} (hc : s.clean) {r e b p : Nat} {ctx : Nat × Nat}
    (h : ∀ x ∈ s.kept, x.isFor r e b ctx = false) (ha : bankArea s r ctx = some p) (hv : isBankValid s p e b = true) :
    BankPassed r e b (s.bytes (bankImage p e b) bankSize) (some ctx) (s.invalidated p e b)
      (retryWaits (claimBank s r e b ctx) r) := by
  have hput := putBank_put s r e b (s.bytes (bankImage p e b) bankSize) (some ctx)
  have hlen : (s.bytes (bankImage p e b) bankSize).length = bankSize := by
    rw [State.bytes_eq_map, List.length_map, List.length_range]
  rw [claimBank_fills h, ha, fillBank, readValid, readUnit_clean hc]
  dsimp only
  rw [hv, readImageWords_clean hc]
  dsimp only
  rw [if_neg (by decide), setBankValid_clean (hput.2.2.2 hc), hput.byte]
  exact (hput.write hc _ _).passed hlen

/-- An area's valid map after a bit of it was cleared. -/
theorem State.invalidated_bytes (s : State) {p e b : Nat} (he : e < 256) (hb : b < 128) (hp : p + 0x7000000 ≤ 2 ^ 48) :
    ((s.invalidated p e b).byte (p + 0x6000000 + (128 * e + b) / 8)).getLsbD (b % 8) = false ∧
      sameBut s (s.invalidated p e b) (p + 0x6000000 + (128 * e + b) / 8) 1 := by
  have hmark := canonPa_of_lt (own := s.pkg.toNat) (a := p + 0x6000000 + (128 * e + b) / 8) (by omega)
  unfold State.invalidated
  rw [show bankValid p e b = (p + 0x6000000 + (128 * e + b) / 8, (128 * e + b) % 8) from rfl]
  dsimp only
  refine ⟨?_, fun y hy => ?_⟩
  · rw [State.byte_write, hmark, List.length_singleton, if_pos (by omega), Nat.sub_self, List.getD_cons_zero,
      show b % 8 = (128 * e + b) % 8 by omega]
    exact setBits_zero_testBit _ ⟨(128 * e + b) % 8, by omega⟩
  · have h0 := hy 0 (by decide)
    rw [Nat.add_zero, hmark] at h0
    rw [State.byte_write, hmark, List.length_singleton, if_neg (by omega)]

theorem State.invalidated_memoryOnly (s : State) (p e b : Nat) : memoryOnly s (s.invalidated p e b) :=
  s.write_memoryOnly _ _

/-- What memory alone shows of a state is what the state before shows, regions, stewards and lists. -/
theorem memoryOnly.lists {s t : State} (h : memoryOnly s t) : t.regions = s.regions ∧ t.stews = s.stews ∧
    t.spills = s.spills ∧ t.kept = s.kept ∧ t.saves = s.saves := by
  rw [← h]
  exact ⟨rfl, rfl, rfl, rfl, rfl⟩

/-- The valid bit of a bank, by its byte (R38). -/
theorem isBankValid_of_bit {s : State} {p e b : Nat}
    (h : (s.byte (p + 0x6000000 + (128 * e + b) / 8)).getLsbD (b % 8) = true) : isBankValid s p e b = true := by
  unfold isBankValid nbit
  rw [show bankValid p e b = (p + 0x6000000 + (128 * e + b) / 8, (128 * e + b) % 8) from rfl]
  dsimp only
  rw [show (128 * e + b) % 8 = b % 8 by omega, decide_eq_true_eq]
  rw [BitVec.getLsbD, Nat.testBit_eq_decide_div_mod_eq, decide_eq_true_eq] at h
  exact h

theorem ctxCid_eq (w : Word) : ctxCid w = w.toNat / 2 ^ 52 := by
  have := w.isLt
  unfold ctxCid nbits
  omega

end Sys2Proof.Machine

namespace Sys2Proof.Settled

open Sys2Proof.Machine

/-- Settles O40: the bank's contents go to the context that its tag names (three cases of `releaseBank`), and then the
bank comes up for the new one, as zeros or as its valid copy (`claimBank`). -/
theorem bankReleaseResult : Obligations.BankReleaseResult := by
  intro s r e b old p
  dsimp only
  intro hold hne he hb hin hpoison hbad hkept
  rw [← ctxCid_eq, ← Region.context] at *
  subst hold
  have hclean : (s.unspilled r e b).clean := ⟨hpoison, hbad⟩
  have hexec := exec_bankAccessRelease (s := s) hne hb hin
  have hother : ∀ x : Kept, (x.part, x.cid) ≠ (s.region r).context → x.isFor r e b (s.region r).context = false :=
    fun x hx => by simp [Kept.isFor, hx]
  refine ⟨fun hsaves => ⟨_, hexec, ?_⟩, fun hnone harea hp hvalid => ⟨_, hexec, ?_⟩⟩
  · have harea : bankArea (s.unspilled r e b) r (s.region r).context = none :=
      bankArea_eq_none fun x hx => ctxCid_eq x.ctx ▸ hsaves x hx
    have hreg : (s.unspilled r e b).region r = s.region r := rfl
    cases ht : (s.region r).bankTag e b with
    | none =>
      have hp := claimBank_zero (s := s.unspilled r e b) (e := e) (b := b) hkept harea
      rw [releaseBank_none (s := s.unspilled r e b) ht]
      exact ⟨hp.passes rfl rfl rfl, hp.zero, fun _ => ⟨hp.sameMemory, hp.frame.2.2⟩,
        fun x h => (nomatch h), fun x h => (nomatch h)⟩
    | some c =>
      have hcne : c ≠ (s.region r).context := fun h => hne (h ▸ ht)
      cases ha : bankArea (s.unspilled r e b) r c with
      | none =>
        rw [releaseBank_kept (s := s.unspilled r e b) ht ha, keepBank_clean hclean]
        have hk : ∀ x ∈ ((s.unspilled r e b).keeping r e b c).kept, x.isFor r e b (s.region r).context = false := by
          rintro x (_ | ⟨_, hx⟩)
          · exact hother _ hcne
          · exact hkept x hx
        have hp := claimBank_zero hk harea
        refine ⟨hp.passes rfl rfl rfl, hp.zero, fun h => (nomatch h), fun x hx _ => ?_, fun x hx hq => ?_⟩
        · cases hx
          exact ⟨hp.sameMemory, hp.frame.2.2⟩
        · cases hx
          cases ha.symm.trans hq
      | some q =>
        rw [releaseBank_spilled (s := s.unspilled r e b) ht ha]
        have hm := spillBank_memoryOnly hclean r e b q
        have hbytes := fun h => spillBank_bytes hclean (r := r) (p := q) he hb h
        generalize spillBank (s.unspilled r e b) r e b q = u at *
        obtain ⟨hregions, hstews, hspills, hkept', hsaves'⟩ := hm.lists
        have hp := claimBank_zero (s := u) (r := r) (e := e) (b := b) (by rw [hkept']; exact hkept)
          (by rw [bankArea, hsaves', ← bankArea]; exact harea)
        refine ⟨hp.passes hregions hstews hspills, hp.zero, fun h => (nomatch h), fun x hx hn => ?_,
          fun x hx hq h48 => ?_⟩
        · cases hx
          cases ha.symm.trans hn
        · cases hx
          cases ha.symm.trans hq
          obtain ⟨himage, hmark, hother⟩ := hbytes h48
          exact ⟨hp.frame.2.2.trans hkept', fun k hk => (hp.sameMemory _).trans (himage k hk),
            (congrArg (fun x => BitVec.getLsbD x _) (hp.sameMemory _)).trans hmark,
            fun y hy hm => (hp.sameMemory y).trans (hother y hy hm)⟩
  · have hpass := claimBank_reload hclean hkept harea (isBankValid_of_bit hvalid)
    have hm := (s.unspilled r e b).invalidated_memoryOnly p e b
    obtain ⟨hbit, hbut⟩ := (s.unspilled r e b).invalidated_bytes he hb hp
    rw [releaseBank_none (s := s.unspilled r e b) hnone]
    generalize (s.unspilled r e b).invalidated p e b = u at *
    obtain ⟨hregions, hstews, hspills, -, -⟩ := hm.lists
    refine ⟨hpass.passes hregions hstews hspills, fun k hk => ?_,
      (congrArg (fun x => BitVec.getLsbD x _) (hpass.sameMemory _)).trans hbit, fun y hy => (hpass.sameMemory y).trans (hbut y hy)⟩
    rw [hpass.bytes, show bankSize = 0xC00 from rfl, if_pos (by omega), Nat.add_sub_cancel_left, State.bytes_eq_map,
      List.getD_eq_getElem _ _ (by rw [List.length_map, List.length_range]; exact hk), List.getElem_map,
      List.getElem_range]
    rfl

end Sys2Proof.Settled
end

section
/-! SUPPORT. What the accesses of an agent and the work of the engines leave of the machine: everything but memory and
its marks, the caches, HEALTH and the vectors sent, the pending causes, and the element memories of one region. -/

namespace Sys2Proof.Machine

/-- A partition but for the vectors that it has pending (R188). -/
def Partition.quiet (p : Partition) : Partition := { p with vectors := 0 }

/-- A region but for its elements, the list of those to retire (R387) and its stage elements (R156). -/
def Region.quiet (g : Region) : Region := { g with elements := [], retiring := [], stages := [] }

/-- A steward core but for its pending causes (R343). -/
def Steward.quiet (x : Steward) : Steward := { x with pending := [] }

/-- What a state shows besides memory and its marks, caches, HEALTH, vectors, pending causes, free choices and the
element and stage memories of region r. -/
@[irreducible] def State.shows (r : Nat) (s : State) :
    State × (Nat → Partition) × (Nat → Region) × (Nat → Steward) :=
  ({ s with
      free := 0, mem := [], stores := [], poison := [], bad := [], waysOff := [], rowWork := [], spareRows := []
      epSent := [], health := State.reset.health, snapAt := none, parts := [], stews := [], regions := [], tlbs := []
      walks := [], spills := [], sent := [], boxes := [] },
    fun p => (s.part p).quiet, fun q => if q = r then (s.region q).quiet else s.region q, fun c => (s.stew c).quiet)

section
variable (r : Nat) (s : State)

/-- A change of what is not shown. -/
@[simp] theorem State.quiet_shows (free : Nat) (mem : Map Byte) (stores : List PStore) (poison : Map Bool) (bad : Map Nat)
    (waysOff rowWork : List Nat) (spareRows : Map Nat) (epSent : List Nat) (health : Health)
    (snapAt : Option (Nat × Nat)) (tlbs : Map (List Tlb)) (walks : Map (List WalkEntry))
    (spills : List (Nat × Nat × Nat)) (sent : List (Nat × Nat)) (boxes : Map Bool) :
    State.shows r { s with
      free := free, mem := mem, stores := stores, poison := poison, bad := bad, waysOff := waysOff, rowWork := rowWork
      spareRows := spareRows, epSent := epSent, health := health, snapAt := snapAt, tlbs := tlbs, walks := walks
      spills := spills, sent := sent, boxes := boxes } = s.shows r := by
  unfold State.shows
  rfl

@[simp] theorem State.write_shows (a : Nat) (bs : List Byte) : (s.write a bs).shows r = s.shows r := by
  simp [State.write]

@[simp] theorem State.writeWord_shows (a v : Nat) : (s.writeWord a v).shows r = s.shows r := s.write_shows r ..

theorem setPart_vectors_shows (p : Nat) (v : BitVec 3) :
    (s.setPart p { s.part p with vectors := v }).shows r = s.shows r := by
  unfold State.shows
  refine Prod.ext rfl (Prod.ext (funext fun q => ?_) rfl)
  by_cases hq : q = p
  · subst hq
    exact (congrArg Partition.quiet (s.part_setPart q _)).trans rfl
  · exact congrArg Partition.quiet (s.part_setPart_ne _ hq)

@[simp] theorem sendVector_shows (p v : Nat) : (sendVector s p v).shows r = s.shows r := by
  unfold sendVector
  dsimp only
  split
  · rfl
  · rw [← setPart_vectors_shows r s p]
    exact State.quiet_shows ..

end

theorem foldl_shows {α : Type} {r : Nat} {f : State → α → State} (h : ∀ t x, (f t x).shows r = t.shows r) :
    ∀ (l : List α) (t : State), (l.foldl f t).shows r = t.shows r
  | [], _ => rfl
  | x :: l, t => (foldl_shows h l (f t x)).trans (h t x)

section
variable (r : Nat) (s : State)

@[simp] theorem State.setHealth_shows (h : Health) : (s.setHealth h).shows r = s.shows r := by
  unfold State.setHealth sendVectorAll
  dsimp only
  split
  · simp
  · rw [foldl_shows fun t p => sendVector_shows r t p 1]
    simp

@[simp] theorem healthWrite_shows (off : Nat) (bs : List Byte) :
    (healthWrite s off bs).shows r = s.shows r := by
  unfold healthWrite
  split <;> simp

@[simp] theorem countTransient_shows (c : Nat) (chip : Option Nat) : (countTransient s c chip).shows r = s.shows r := by
  simp [countTransient]

@[simp] theorem countCorrected_shows (c : Nat) (chip : Option Nat) : (countCorrected s c chip).shows r = s.shows r := by
  simp [countCorrected]

@[simp] theorem fireSnapshot_shows (source : Nat) : (fireSnapshot s source).shows r = s.shows r := by
  unfold fireSnapshot
  dsimp only
  repeat' split
  all_goals simp

@[simp] theorem writeRecords_shows (b tick : Nat) (l : List (Nat × Nat × Nat)) (n : Nat) (s : State) :
    (writeRecords b tick n l s).shows r = s.shows r := by
  induction l generalizing n s with
  | nil => rfl
  | cons x l ih => rw [writeRecords, ih, State.write_shows]

@[simp] theorem retireRecord_shows (cls info addr : Nat) (no : Bool) :
    (retireRecord s cls info addr no).shows r = s.shows r := by
  unfold retireRecord
  dsimp only
  rw [fireSnapshot_shows, State.setHealth_shows, healthWrite_shows]
  split <;> simp

/-! ### Reads of protection units (R358, R359) -/

@[simp] theorem disableWay_shows (pa u : Nat) : (disableWay s pa u).2.shows r = s.shows r := by
  unfold disableWay wayOff
  dsimp only
  split <;> simp

@[simp] theorem readLevel_shows (chip : Option Nat) (pa u : Nat) : (readLevel s chip pa u).2.shows r = s.shows r := by
  unfold readLevel
  split <;> simp

@[simp] theorem readCache_shows (chip pa : Nat) : (readCache s chip pa).2.shows r = s.shows r := by
  unfold readCache
  dsimp only
  repeat' split
  all_goals simp

@[simp] theorem readHome_shows (pa : Nat) : (readHome s pa).2.shows r = s.shows r := by
  unfold readHome poisonHostLine
  dsimp only
  repeat' split
  all_goals simp

@[simp] theorem readUnit_shows (chip pa : Nat) : (readUnit s chip pa).2.shows r = s.shows r := by
  unfold readUnit
  dsimp only
  split <;> simp

@[simp] theorem readUnits_shows (chip pa n : Nat) : (readUnits s chip pa n).2.shows r = s.shows r := by
  induction n with
  | zero => rfl
  | succ n ih =>
    unfold readUnits
    dsimp only
    split <;> simp [ih]

/-! ### Translation (R97 to R103) -/

@[simp] theorem readFrameByte_shows (chip pa : Nat) : (readFrameByte s chip pa).2.shows r = s.shows r := by
  unfold readFrameByte
  split <;> simp

end

/-- An answer taken apart. -/
theorem shows_of_snd {α : Type} {r : Nat} {a : α} {s t : State} {p : α × State} (h : p.2.shows r = s.shows r)
    (e : p = (a, t)) : t.shows r = s.shows r := by
  rw [← h, e]

section
variable (r : Nat) (s : State) (x : XCtx)

@[simp] theorem leafCheck_shows (e : Word) (lvl va pa : Nat) (k : Access) :
    (leafCheck s x e lvl va pa k).2.shows r = s.shows r := by
  unfold leafCheck
  grind [readFrameByte_shows]

@[simp] theorem readEntry_shows (a : Nat) : (readEntry s x a).2.shows r = s.shows r := by
  unfold readEntry
  grind [readUnits_shows]

@[simp] theorem fillWalk_shows (va lvl pfn : Nat) : (fillWalk s x va lvl pfn).shows r = s.shows r := by
  simp [fillWalk]

@[simp] theorem walkGo_shows (va : Nat) (k : Access) (l base : Nat) (s : State) :
    (walkGo x va k l base s).2.2.2.shows r = s.shows r := by
  induction l generalizing base s with
  | zero => rfl
  | succ l ih =>
    unfold walkGo
    grind [readFrameByte_shows, readEntry_shows, fillWalk_shows]

theorem walkGo_shows_of_eq {x : XCtx} {va l base n a : Nat} {k : Access} {s t : State} {p : XRes}
    (h : walkGo x va k l base s = (p, n, a, t)) : t.shows r = s.shows r := by
  have hw := walkGo_shows r x va k l base s
  rw [h] at hw
  exact hw

@[simp] theorem readGroup_shows (a : Nat) (e : Word) : (readGroup s x a e).2.shows r = s.shows r := by
  unfold readGroup
  grind [readUnits_shows]

@[simp] theorem setAccessed_shows (a : Nat) (group : Bool) : (setAccessed s a group).shows r = s.shows r := by
  have one : ∀ (t : State) (b : Nat),
      (if nbit (t.word b) 4 then t else t.writeWord b (t.word b + 16)).shows r = t.shows r := fun t b => by
    split <;> simp
  unfold setAccessed
  dsimp only
  split
  · exact foldl_shows (fun t j => one t _) _ _
  · exact one s a

@[simp] theorem swapsFail_shows (a : Nat) : (swapsFail s x a).2.shows r = s.shows r := by
  unfold swapsFail State.takeFree
  dsimp only
  split <;> simp

@[simp] theorem State.setTlb_shows (agent : Nat) (l : List Tlb) : (s.setTlb agent l).shows r = s.shows r := by
  simp [State.setTlb]

@[simp] theorem setDirty_shows (va : Nat) (t : Tlb) : (setDirty s x va t).shows r = s.shows r := by
  unfold setDirty
  dsimp only
  repeat' split
  all_goals simp

@[simp] theorem markDirty_shows (va : Nat) (k : Access) (t : Tlb) (p : Nat × Word) :
    (markDirty s x va k t p).2.shows r = s.shows r := by
  unfold markDirty
  grind [swapsFail_shows, setDirty_shows]

@[simp] theorem translateMiss_shows (v : Nat) (k : Access) (setD : Bool) :
    (translateMiss s x v k setD).2.shows r = s.shows r := by
  have hhit : ∀ l : Map (List WalkEntry), State.shows r { s with walks := l } = s.shows r := fun l => by simp
  unfold translateMiss
  dsimp only
  split <;> rename_i hwalk
  · have hw := (walkGo_shows_of_eq r hwalk).trans (by split; exacts [hhit _, rfl])
    have hgroup : ∀ (t : State) (lvl a : Nat) (e : Word),
        (if lvl = 1 then readGroup t x a e else (false, t)).2.shows r = t.shows r := fun t lvl a e => by
      split <;> simp
    split <;> rename_i hleaf
    · have hl := (shows_of_snd (leafCheck_shows r _ ..) hleaf).trans hw
      split
      · split <;> rename_i hd
        · refine (State.setTlb_shows ..).trans ((shows_of_snd (markDirty_shows r _ ..) hd).trans ?_)
          simp only [State.setTlb_shows, setAccessed_shows, hgroup, hl]
        · simp only [markDirty_shows, State.setTlb_shows, setAccessed_shows, hgroup, hl]
      · simp only [State.setTlb_shows, setAccessed_shows, hgroup, hl]
    · exact (leafCheck_shows ..).trans hw
  · exact (walkGo_shows_of_eq r hwalk).trans (by split; exacts [hhit _, rfl])

@[simp] theorem translateHit_shows (v : Nat) (k : Access) (setD : Bool) (t : Tlb) :
    (translateHit s x v k setD t).2.shows r = s.shows r := by
  unfold translateHit
  grind [readEntry_shows, markDirty_shows, State.setTlb_shows, translateMiss_shows]

@[simp] theorem xlate_shows (va : Nat) (k : Access) (setD : Bool) : (xlate s x va k setD).2.shows r = s.shows r := by
  unfold xlate translate
  grind [translatePhys_state, State.setTlb_shows, translateHit_shows, translateMiss_shows]

/-! ### Accesses in pieces (R235, R236) -/

@[simp] theorem piecesGo_shows (k : Access) (setD : Bool) (f va n : Nat) (s : State) :
    (piecesGo x k setD f va n s).2.shows r = s.shows r := by
  induction f generalizing va n s with
  | zero => rfl
  | succ f ih =>
    unfold piecesGo
    grind [xlate_shows]

@[simp] theorem pieces_shows (va n : Nat) (k : Access) (setD : Bool) :
    (pieces s x va n k setD).2.shows r = s.shows r := piecesGo_shows ..

@[simp] theorem readGo_shows (agent : Nat) (l : List Piece) (s : State) : (readGo agent l s).2.shows r = s.shows r := by
  have hu : ∀ (t : State) (p : Piece), (pieceBytes t agent p).2.shows r = t.shows r := fun t p => by
    unfold pieceBytes readUnordered State.takeFree
    dsimp only
    repeat' split
    all_goals simp
  induction l generalizing s with
  | nil => rfl
  | cons p l ih =>
    unfold readGo
    dsimp only
    split
    · split <;> rename_i h
      · exact shows_of_snd (ih s) h
      · exact ih s
    split
    · exact readUnits_shows ..
    split <;> rename_i h
    · exact ((shows_of_snd (ih _) h).trans (hu _ p)).trans (readUnits_shows ..)
    · exact ((ih _).trans (hu _ p)).trans (readUnits_shows ..)

@[simp] theorem readPieces_shows (agent part : Nat) (l : List Piece) : (readPieces agent part l s).2.shows r = s.shows r := by
  unfold readPieces
  grind [readGo_shows]

@[simp] theorem readVirt_shows (va n : Nat) (k : Access) : (readVirt s x va n k).2.shows r = s.shows r := by
  unfold readVirt
  grind [pieces_shows, readPieces_shows]

@[simp] theorem State.busWrite_shows (a : Nat) (bs : List Byte) : (s.busWrite a bs).shows r = s.shows r := by
  unfold State.busWrite pageVectors
  rw [foldl_shows]
  · exact s.write_shows ..
  · intro t p
    grind [sendVector_shows]

@[simp] theorem writePieces_shows (part : Nat) (l : List Piece) (bs : List Byte) (s : State) :
    (writePieces part l bs s).2.shows r = s.shows r := by
  induction l generalizing bs s with
  | nil => rfl
  | cons p l ih =>
    unfold writePieces
    grind [State.busWrite_shows]

@[simp] theorem writeVirt_shows (va : Nat) (bs : List Byte) (setD : Bool) :
    (writeVirt s x va bs setD).2.shows r = s.shows r := by
  unfold writeVirt
  grind [pieces_shows, writePieces_shows]

end

end Sys2Proof.Machine
end

section
/-! SUPPORT. What the work of an engine command leaves of the machine (R248): each function of a job in turn. -/

namespace Sys2Proof.Machine

/-! ### Region-shared memory -/

section
variable (r : Nat) (s : State)

theorem State.setRegion_shows {g : Region} (h : g.quiet = (s.region r).quiet) : (s.setRegion r g).shows r = s.shows r := by
  unfold State.shows
  refine Prod.ext rfl (Prod.ext rfl (Prod.ext (funext fun q => ?_) rfl))
  by_cases hq : q = r
  · subst hq
    exact (if_pos rfl).trans ((congrArg Region.quiet (s.region_setRegion q g)).trans (h.trans (if_pos rfl).symm))
  · exact (if_neg hq).trans ((s.region_setRegion_ne g hq).trans (if_neg hq).symm)

@[simp] theorem readElmUnit_shows (e off : Nat) : (readElmUnit s r e off).2.shows r = s.shows r := by
  unfold readElmUnit
  dsimp only
  split
  · rfl
  split
  · rfl
  · simp
  · simp
  · rw [retireRecord_shows, State.setRegion_shows]
    · exact State.quiet_shows ..
    · rfl

@[simp] theorem noteSpill_shows (e b : Nat) : (noteSpill s r e b).shows r = s.shows r := by
  unfold noteSpill
  split <;> simp

theorem foldl_pair_shows {α β : Type} {r : Nat} {f : β × State → α → β × State}
    (h : ∀ p x, (f p x).2.shows r = p.2.shows r) : ∀ (l : List α) (p : β × State), (l.foldl f p).2.shows r = p.2.shows r
  | [], _ => rfl
  | x :: l, p => (foldl_pair_shows h l (f p x)).trans (h p x)

@[simp] theorem readRsm_shows (a n : Nat) : (readRsm s r a n).2.shows r = s.shows r := by
  unfold readRsm
  split
  · exact noteSpill_shows ..
  · dsimp only
    have hf := foldl_pair_shows (r := r) (f := fun (acc : Bool × State) i =>
      if elmReach (s.region r) (rsmElem ((a + i) % 2 ^ 27)) (rsmOff ((a + i) % 2 ^ 27)) &&
          (i = 0 || (a + i) % 2 ^ 27 % 8 = 0) then
        (acc.1 || (readElmUnit acc.2 r (rsmElem ((a + i) % 2 ^ 27)) (rsmOff ((a + i) % 2 ^ 27))).1,
          (readElmUnit acc.2 r (rsmElem ((a + i) % 2 ^ 27)) (rsmOff ((a + i) % 2 ^ 27))).2)
      else acc) (fun p x => by split <;> simp) (upTo n) (false, s)
    split <;> exact hf

theorem Region.rsmSetN_quiet (bs : List Byte) : ∀ (g : Region) (a : Nat), (g.rsmSetN a bs).quiet = g.quiet := by
  have one : ∀ (g : Region) (a : Nat) (b : Byte), (g.rsmSet a b).quiet = g.quiet := fun g a b => by
    unfold Region.rsmSet
    split <;> rfl
  induction bs with
  | nil => exact fun _ _ => rfl
  | cons b bs ih => exact fun g a => (ih _ _).trans (one g _ b)

@[simp] theorem writeRsm_shows (a : Nat) (bs : List Byte) : (writeRsm s r a bs).2.shows r = s.shows r := by
  unfold writeRsm
  dsimp only
  repeat' split
  · exact noteSpill_shows ..
  · rfl
  · exact (State.quiet_shows ..).trans (s.setRegion_shows r (Region.rsmSetN_quiet bs _ a))

@[simp] theorem State.takeFree_shows : s.takeFree.2.shows r = s.shows r := by
  simp [State.takeFree]

end

/-! ### Jobs -/

/-- What a job leaves of the machine on which it works: everything that its region's state shows. -/
@[irreducible] def Job.kept (j : Job) : Nat × (State × (Nat → Partition) × (Nat → Region) × (Nat → Steward)) :=
  (j.r, j.s.shows j.r)

section
variable (j : Job)

/-- A change of what is planned. -/
@[simp] theorem Job.planned_kept (x : XCtx) (writes : List PWrite) (oor : List (Nat × Bool × Nat)) (flags : Flags)
    (fault : Option EFault) (held : Bool) (tables : List ((Nat × Nat) × Nat)) :
    Job.kept { j with x := x, writes := writes, oor := oor, flags := flags, fault := fault, held := held
                      tables := tables } = j.kept := by
  unfold Job.kept
  rfl

/-- A step of the machine that shows nothing. -/
theorem Job.stepped_kept {t : State} (h : t.shows j.r = j.s.shows j.r) (x : XCtx) (writes : List PWrite)
    (oor : List (Nat × Bool × Nat)) (flags : Flags) (fault : Option EFault) (held : Bool)
    (tables : List ((Nat × Nat) × Nat)) :
    Job.kept { s := t, r := j.r, x := x, writes := writes, oor := oor, flags := flags, fault := fault, held := held
               tables := tables } = j.kept := by
  unfold Job.kept
  rw [← h]

@[simp] theorem Job.fail_kept (kind code addr : Nat) : (j.fail kind code addr).kept = j.kept := by
  unfold Job.fail
  split <;> simp

@[simp] theorem Job.addOor_kept (lvl : Nat) (wr : Bool) (o : Option Nat) : (j.addOor lvl wr o).kept = j.kept := by
  unfold Job.addOor
  split <;> simp

@[simp] theorem Job.put_kept (va : Nat) (bs : List Byte) (f : Flags) : (j.put va bs f).kept = j.kept := by
  unfold Job.put
  split <;> simp

@[simp] theorem Job.dropLine_kept (va : Nat) : (j.dropLine va).kept = j.kept := by
  simp [Job.dropLine]

@[simp] theorem Job.clear_kept : j.clear.kept = j.kept := by
  simp [Job.clear]

theorem Job.stop_kept {α : Type} {t : State} (h : t.shows j.r = j.s.shows j.r) (a : Acc α) :
    (j.stop t a).kept = j.kept := by
  unfold Job.stop
  split <;> exact j.stepped_kept h ..

@[simp] theorem Job.readBeat_kept (va n : Nat) : (j.readBeat va n).2.kept = j.kept := by
  unfold Job.readBeat
  split
  · rfl
  split
  · split <;> rename_i h
    · rw [Job.addOor_kept]
      exact j.stepped_kept (shows_of_snd (readRsm_shows ..) h) ..
    · exact j.stop_kept (shows_of_snd (readRsm_shows ..) h) _
  · split <;> rename_i h
    · rw [Job.addOor_kept]
      exact j.stepped_kept (shows_of_snd (readVirt_shows ..) h) ..
    · exact j.stop_kept (shows_of_snd (readVirt_shows ..) h) _

@[simp] theorem Job.readBeats_kept (f va n : Nat) (j : Job) : (Job.readBeats f va n j).2.kept = j.kept := by
  induction f generalizing va n j with
  | zero => rfl
  | succ f ih =>
    unfold Job.readBeats
    grind [Job.readBeat_kept]

@[simp] theorem Job.read_kept (va n : Nat) : (j.read va n).2.kept = j.kept := Job.readBeats_kept ..

@[simp] theorem Job.num_kept (va n : Nat) : (j.num va n).2.kept = j.kept := j.read_kept ..

@[simp] theorem Job.once_kept (va n : Nat) : (j.once va n).2.kept = j.kept := by
  unfold Job.once
  split
  · rfl
  · dsimp only
    split <;> simp

@[simp] theorem Job.source_kept (va n : Nat) : (j.source va n).2.kept = j.kept := by
  unfold Job.source
  dsimp only
  split
  · simp
  · exact ((j.read va n).2.stepped_kept (State.takeFree_shows ..) ..).trans (j.read_kept ..)

@[simp] theorem Job.sourceBlock_kept (va n : Nat) : (j.sourceBlock va n).2.kept = j.kept := by
  unfold Job.sourceBlock
  dsimp only
  split
  · simp
  · exact ((j.read va n).2.stepped_kept (State.takeFree_shows ..) ..).trans (j.read_kept ..)

@[simp] theorem Job.side_kept (va : Nat) (k : Access) : (j.side va k).2.kept = j.kept := by
  unfold Job.side
  dsimp only
  split
  · rfl
  · split <;> rename_i h
    · exact j.stepped_kept (shows_of_snd (xlate_shows ..) h) ..
    all_goals
      rw [Job.fail_kept]
      exact j.stepped_kept (shows_of_snd (xlate_shows ..) h) ..

@[simp] theorem Job.sides_kept (src dst : Nat) (desc : Option Nat) : (j.sides src dst desc).2.2.kept = j.kept := by
  simp [Job.sides]

/-! ### Copies (R250, R251) -/

@[simp] theorem Job.elem_kept (at_ : Job → Nat → Fmt) (f : Fmt) (row i0 : Nat) : (j.elem at_ f row i0).2.kept = j.kept := by
  simp [Job.elem]

theorem Job.over_kept {α : Type} (ahead : Job → Job) {read : Job → α × Job} (h : ∀ k, (read k).2.kept = k.kept) :
    (j.over ahead read).2.kept = j.kept := by
  simp [Job.over, h]

@[simp] theorem Job.typedRow_kept (ahead : List (Fmt × Nat) → Job → Job) (at_ : Job → Nat → Fmt) (f : Fmt)
    (row n i0 : Nat) (done : List (Fmt × Nat)) (j : Job) : (Job.typedRow ahead at_ f row n i0 done j).2.kept = j.kept := by
  induction n generalizing i0 done j with
  | zero => rfl
  | succ n ih =>
    have ho := j.over_kept (ahead done) (read := fun m => m.elem at_ f row i0) fun k => k.elem_kept ..
    unfold Job.typedRow
    grind

@[simp] theorem Job.block_kept (w n row b : Nat) : (j.block w n row b).2.kept = j.kept := by
  unfold Job.block
  grind [Job.addOor_kept, Job.sourceBlock_kept, Job.fail_kept]

@[simp] theorem Job.blockRow_kept (ahead : List Val → Job → Job) (w n row m b : Nat) (done : List Val) (j : Job) :
    (Job.blockRow ahead w n row m b done j).2.kept = j.kept := by
  induction m generalizing b done j with
  | zero => rfl
  | succ m ih =>
    have ho := j.over_kept (ahead done) (read := fun y => y.block w n row b) fun k => k.block_kept ..
    unfold Job.blockRow
    grind

@[simp] theorem Job.row_kept (ahead : Elems → Job → Job) (at_ : Job → Nat → Fmt → Fmt) (f : Side) (row n0 : Nat) :
    (j.row ahead at_ f row n0).2.kept = j.kept := by
  unfold Job.row
  cases f <;> simp

@[simp] theorem putTyped_kept (f : Fmt) (row i0 : Nat) (l : List (Nat × Flags)) (j : Job) :
    (putTyped f row i0 l j).kept = j.kept := by
  fun_induction putTyped f row i0 l j <;> grind [Job.put_kept, Job.num_kept]

@[simp] theorem putBlocks_kept (w n : Nat) (c : Convert) (row b i : Nat) (l : List (List Val)) (j : Job) :
    (putBlocks w n c row b i l j).kept = j.kept := by
  induction l generalizing b i j with
  | nil => rfl
  | cons x l ih =>
    unfold putBlocks
    simp [ih]

@[simp] theorem moveBlocks_kept (w n src dst m b : Nat) (j : Job) : (moveBlocks w n src dst m b j).kept = j.kept := by
  induction m generalizing b j with
  | zero => rfl
  | succ m ih =>
    unfold moveBlocks
    grind [Job.source_kept, Job.addOor_kept, Job.dropLine_kept, Job.put_kept]

@[simp] theorem planRow_kept (at_ : Job → Nat → Fmt → Fmt) (df : Side) (c : Convert) (dst i : Nat) (whole : Bool)
    (e : Elems) : (planRow at_ df c dst i whole e j).kept = j.kept := by
  unfold planRow
  grind [putBlocks_kept, Job.addOor_kept, putTyped_kept]

@[simp] theorem copyRow_kept (sf df : Side) (c : Convert) (desc : Option Nat) (src dst n0 i : Nat) :
    (copyRow sf df c desc src dst n0 i j).kept = j.kept := by
  unfold copyRow
  dsimp only
  repeat' split
  all_goals simp

@[simp] theorem copyRows_kept (m : CopyArgs) (c : Convert) (l : List Nat) (j : Job) : (copyRows m c l j).kept = j.kept := by
  induction l generalizing j with
  | nil => rfl
  | cons i l ih =>
    unfold copyRows
    simp [ih]

@[simp] theorem copyJob_kept (c : Convert) (l : List Word) : (copyJob c l j).kept = j.kept := by
  unfold copyJob
  dsimp only
  split <;> simp

/-! ### Gather, scatter, merge and scan (R254, R257, R258) -/

@[simp] theorem keepWriter_kept (scatter : Bool) (seen : List (Nat × Nat)) (di y : Nat) :
    (keepWriter scatter seen di y j).2.kept = j.kept := by
  unfold keepWriter
  split
  · exact j.stepped_kept (State.takeFree_shows ..) ..
  · rfl

@[simp] theorem moveIndexed_kept (scatter : Bool) (sf df : Fmt) (c : Convert) (desc : Option Nat)
    (dst src idx n i : Nat) (seen : List (Nat × Nat)) (j : Job) :
    (moveIndexed scatter sf df c desc dst src idx n i seen j).kept = j.kept := by
  induction n generalizing i seen j with
  | zero => rfl
  | succ n ih =>
    unfold moveIndexed
    grind [Job.num_kept, Job.elem_kept, keepWriter_kept, Job.fail_kept, Job.dropLine_kept, Job.put_kept,
      Job.planned_kept]

@[simp] theorem gatherJob_kept (scatter : Bool) (c : Convert) (l : List Word) : (gatherJob scatter c l j).kept = j.kept := by
  unfold gatherJob
  grind [moveIndexed_kept, Job.fail_kept]

@[simp] theorem Job.nextIndex_kept (base i n : Nat) : (j.nextIndex base i n).2.kept = j.kept := by
  unfold Job.nextIndex
  split <;> simp

@[simp] theorem mergePut_kept (m : MergeArgs) (k x v : Nat) (fl : Flags) : (mergePut m k x v fl j).kept = j.kept := by
  simp [mergePut]

@[simp] theorem mergeGo_kept (m : MergeArgs) (f i b k : Nat) (pa pb : Option Nat) (j : Job) :
    (mergeGo m f i b k pa pb j).2.kept = j.kept := by
  induction f generalizing i b k pa pb j with
  | zero => rfl
  | succ f ih =>
    unfold mergeGo
    grind [Job.nextIndex_kept, Job.fail_kept, Job.num_kept, mergePut_kept, Job.planned_kept]

@[simp] theorem scanGo_kept (counts out n k p : Nat) (j : Job) : (scanGo counts out n k p j).kept = j.kept := by
  induction n generalizing k p j with
  | zero => rfl
  | succ n ih =>
    unfold scanGo
    grind [Job.num_kept, Job.put_kept, Job.dropLine_kept]

@[simp] theorem scanJob_kept (l : List Word) : (scanJob l j).kept = j.kept := by
  unfold scanJob
  grind [Job.fail_kept, scanGo_kept, Job.put_kept]

end

end Sys2Proof.Machine
end

section
/-! SUPPORT. What the tessera commands and the attention batches leave of the machine (R155 to R181, R262 to R267), and
the writes of a command, made (R248). -/

namespace Sys2Proof.Machine

section
variable (j : Job)

/-! ### Rows and lists of a sequence (R159 to R164) -/

@[simp] theorem Job.tessList_kept (lva ttab n i : Nat) (j : Job) : (Job.tessList lva ttab n i j).2.kept = j.kept := by
  induction n generalizing i j with
  | zero => rfl
  | succ n ih =>
    unfold Job.tessList
    grind [Job.once_kept]

@[simp] theorem Job.walk_kept (sva ttab : Nat) : (j.walk sva ttab).2.2.kept = j.kept := by
  unfold Job.walk
  grind [Job.once_kept, Job.tessList_kept]

@[simp] theorem Job.rowElems_kept (base desc n d : Nat) : (j.rowElems base desc n d).2.kept = j.kept := by
  unfold Job.rowElems Job.rowSide
  grind [Job.side_kept, Job.typedRow_kept, Job.blockRow_kept]

@[simp] theorem Job.rowVals_kept (base desc n d : Nat) : (j.rowVals base desc n d).2.kept = j.kept :=
  j.rowElems_kept base desc n d

@[simp] theorem Job.boundOf_kept (t : Tess) (q : List Val) (d : Nat) : (j.boundOf t q d).2.kept = j.kept := by
  simp [Job.boundOf, Job.hullOf]

/-! ### Tessera commands (R262 to R266) -/

@[simp] theorem Job.hullElem_kept (big : Bool) (l : List Val) : (j.hullElem big l).2.kept = j.kept := by
  unfold Job.hullElem
  split
  · rfl
  · exact j.stepped_kept (State.takeFree_shows ..) ..

@[simp] theorem Job.hullHalf_kept (big : Bool) (keys : List (List Val)) (n k : Nat) (j : Job) :
    (Job.hullHalf big keys n k j).2.kept = j.kept := by
  induction n generalizing k j with
  | zero => rfl
  | succ n ih =>
    unfold Job.hullHalf
    simp [ih]

@[simp] theorem Job.keyRows_kept (t : Tess) (desc d n k : Nat) (j : Job) :
    (Job.keyRows t desc d n k j).2.kept = j.kept := by
  induction n generalizing k j with
  | zero => rfl
  | succ n ih =>
    unfold Job.keyRows
    grind [Job.rowVals_kept]

@[simp] theorem sealJob_kept (seals hull : Bool) (c : Command) : (sealJob seals hull c j).kept = j.kept := by
  unfold sealJob
  dsimp only
  repeat' split
  all_goals simp

@[simp] theorem Job.topkBounds_kept (q : List Val) (d : Nat) (l : List Tess) (j : Job) :
    (Job.topkBounds q d l j).2.kept = j.kept := by
  induction l generalizing j with
  | nil => rfl
  | cons t l ih =>
    unfold Job.topkBounds
    grind [Job.boundOf_kept]

@[simp] theorem putEntries_kept (out : Nat) (l : List Nat) (k : Nat) (j : Job) : (putEntries out l k j).kept = j.kept := by
  induction l generalizing k j with
  | nil => rfl
  | cons x l ih => simp [putEntries, ih]

@[simp] theorem topkJob_kept (c : Command) : (topkJob c j).kept = j.kept := by
  unfold topkJob
  dsimp only
  split <;> simp

@[simp] theorem copyPlaces_kept (l : List ((Nat × Nat) × (Nat × Nat))) (j : Job) : (copyPlaces l j).kept = j.kept := by
  induction l generalizing j with
  | nil => rfl
  | cons p l ih => simp [copyPlaces, ih]

@[simp] theorem copyRowBytes_kept (src dst n : Nat) (l : List (Nat × Nat)) : (copyRowBytes src dst n l j).kept = j.kept := by
  unfold copyRowBytes
  split <;> simp

@[simp] theorem forkTail_kept (c : Command) (t : Tess) (n : Nat) : (forkTail c t n j).kept = j.kept := by
  simp [forkTail]

@[simp] theorem forkJob_kept (c : Command) : (forkJob c j).kept = j.kept := by
  unfold forkJob
  dsimp only
  repeat' split
  all_goals simp

@[simp] theorem evictJob_kept (c : Command) : (evictJob c j).kept = j.kept := by
  unfold evictJob
  dsimp only
  repeat' split
  all_goals simp

@[simp] theorem evictPlan_kept (s : State) (r : Nat) (c : Command) : (evictPlan s r c).kept = (Job.start s r 6).kept := by
  unfold evictPlan
  dsimp only
  split <;> simp

/-! ### Stage programs (R156) -/

theorem readSlice_shows (r u : Nat) (s : State) : (readSlice u id s).2.shows r = s.shows r := by
  unfold readSlice
  repeat' split
  all_goals simp

theorem stageRead_shows (r n : Nat) (x : StageRun) (off : Nat) : (stageRead r n x off).s.shows r = x.s.shows r := by
  unfold stageRead
  dsimp only
  split
  · exact readSlice_shows ..
  · exact (State.takeFree_shows ..).trans (readSlice_shows ..)

/-- Steps of a stage program that show nothing show nothing together. -/
theorem StageRun.foldl_shows {α : Type} {r : Nat} {f : StageRun → α → StageRun}
    (h : ∀ x a, (f x a).s.shows r = x.s.shows r) : ∀ (l : List α) (x : StageRun), (l.foldl f x).s.shows r = x.s.shows r
  | [], _ => rfl
  | a :: l, x => (StageRun.foldl_shows h l (f x a)).trans (h x a)

theorem stageReads_shows (r n : Nat) (us : List Nat) (x : StageRun) :
    (stageReads r n us x).s.shows r = x.s.shows r := by
  unfold stageReads
  split
  · rfl
  · exact StageRun.foldl_shows (stageRead_shows r n) us x

theorem stageStores_shows (r n : Nat) (l : List (Nat × Effect)) (p : State × List (Nat × Effect)) :
    (l.foldl (stageStore r n) p).1.shows r = p.1.shows r := by
  induction l generalizing p with
  | nil => rfl
  | cons x l ih =>
    rw [List.foldl_cons, ih]
    unfold stageStore storeCells
    split <;> simp

theorem StageRun.settle_shows (r n : Nat) (x : StageRun) : (x.settle r n).s.shows r = x.s.shows r := by
  unfold StageRun.settle
  dsimp only
  split
  · rfl
  · exact stageStores_shows r n _ _

theorem stageTick_shows (r n : Nat) (i : IslandRec) (e : ElementRec) (c : Nat) (x : StageRun) :
    (stageTick r n i e c x).s.shows r = x.s.shows r := by
  unfold stageTick
  rw [StageRun.settle_shows]
  exact stageReads_shows r n _ x

theorem settleN_shows (r n k : Nat) (x : StageRun) : (settleN r n k x).s.shows r = x.s.shows r := by
  induction k generalizing x with
  | zero => rfl
  | succ k ih => exact (ih _).trans (StageRun.settle_shows r n x)

theorem stageTrip_shows (r n : Nat) (i : IslandRec) (e : ElementRec) (x : StageRun) :
    (stageTrip r n i e x).s.shows r = x.s.shows r :=
  (settleN_shows r n 16 _).trans (StageRun.foldl_shows (fun y c => stageTick_shows r n i e c y) _ x)

theorem setStages_shows (r : Nat) (s : State) (m : Map Element) :
    (s.setRegion r { s.region r with stages := m }).shows r = s.shows r := s.setRegion_shows r rfl

@[simp] theorem Job.invoke_kept (im : Image) (k : Nat) (ins : List (Nat × Nat × BitVec 512))
    (placed : List (Nat × BitVec 512)) (q7 : BitVec 16) (beats : List QEntry) :
    (j.invoke im k ins placed q7 beats).2.kept = j.kept := by
  unfold Job.invoke
  split
  · rfl
  · exact j.stepped_kept ((setStages_shows ..).trans (stageTrip_shows ..)) ..

/-! ### Attention batches (R155 to R181) -/

@[simp] theorem Job.ksideOf_kept (im : Image) (q : Seq) (p : Nat) : (j.ksideOf im q p).2.kept = j.kept := by
  unfold Job.ksideOf
  split <;> simp

@[simp] theorem Job.ends_kept (im : Image) (q : Query) (s : Seq) (t : Tess) : (j.ends im q s t).2.kept = j.kept := by
  unfold Job.ends
  split <;> simp

@[simp] theorem Job.endsAll_kept (im : Image) (q : Query) (s : Seq) (l : List Tess) (j : Job) :
    (Job.endsAll im q s l j).2.kept = j.kept := by
  induction l generalizing j with
  | nil => rfl
  | cons t l ih => simp [Job.endsAll, ih]

@[simp] theorem Job.maskCull_kept (im : Image) (q : Query) (s : Seq) (l : List Tess) :
    (j.maskCull im q s l).2.kept = j.kept := by
  unfold Job.maskCull
  dsimp only
  repeat' split
  all_goals simp

@[simp] theorem Job.bounds_kept (im : Image) (b : Batch) (q : Query) (l : List Tess) (j : Job) :
    (Job.bounds im b q l j).2.kept = j.kept := by
  induction l generalizing j with
  | nil => rfl
  | cons t l ih =>
    unfold Job.bounds
    dsimp only
    repeat' split
    all_goals simp [ih]

@[simp] theorem Job.pairsOf_kept (im : Image) (b : Batch) (q : Query) (s : Seq) (t : Tess) (l : List Nat) (j : Job) :
    (Job.pairsOf im b q s t l j).2.kept = j.kept := by
  induction l generalizing j with
  | nil => rfl
  | cons o l ih =>
    unfold Job.pairsOf
    dsimp only
    split <;> simp [ih]

@[simp] theorem Job.valuesOf_kept (b : Batch) (t : Tess) (l : List Nat) (j : Job) :
    (Job.valuesOf b t l j).2.kept = j.kept := by
  induction l generalizing j with
  | nil => rfl
  | cons o l ih =>
    unfold Job.valuesOf
    dsimp only
    split <;> simp [ih]

@[simp] theorem Job.fetchGroup_kept (im : Image) (b : Batch) (q : Query) (s : Seq) (l : List Tess) (j : Job) :
    (Job.fetchGroup im b q s l j).2.2.kept = j.kept := by
  induction l generalizing j with
  | nil => rfl
  | cons t l ih => simp [Job.fetchGroup, ih]

@[simp] theorem Job.grid_kept (score : Nat) (visible : Bool) : (j.grid score visible).2.2.kept = j.kept := by
  unfold Job.grid
  split
  · rfl
  split
  · rfl
  split
  · exact j.stepped_kept (State.takeFree_shows ..) ..
  all_goals rfl

@[simp] theorem Job.gridAll_kept (scores : BitVec 512) (vis : BitVec 16) (n k : Nat) (j : Job) :
    (Job.gridAll scores vis n k j).2.2.kept = j.kept := by
  induction n generalizing k j with
  | zero => rfl
  | succ n ih => simp [Job.gridAll, ih]

@[simp] theorem Job.scores_kept (im : Image) (q : Query) (f : Nat) (l : List Pair) (j : Job) :
    (Job.scores im q f l j).2.2.kept = j.kept := by
  induction f generalizing l j with
  | zero => rfl
  | succ f ih =>
    unfold Job.scores
    dsimp only
    split <;> simp [ih]

@[simp] theorem Job.present_kept (im : Image) (b : Batch) (q : Query) (s : Seq) (group : List (Tess × Nat)) (st : Blend)
    (p : Present) : (Job.present im b q s group st p j).2.2.kept = j.kept := by
  unfold Job.present
  dsimp only
  repeat' split
  all_goals simp

@[simp] theorem Job.partial_kept (im : Image) (b : Batch) (q : Query) (s : Seq) (l : List (List (Tess × Nat)))
    (st : Blend) (p : Present) (j : Job) : (Job.partial_ im b q s l st p j).2.2.kept = j.kept := by
  induction l generalizing st p j with
  | nil => rfl
  | cons g l ih =>
    unfold Job.partial_
    dsimp only
    split <;> simp [ih]

@[simp] theorem Job.leaves_kept (im : Image) (b : Batch) (q : Query) (s : Seq) (groups : List (List (Tess × Nat)))
    (per n k : Nat) (p : Present) (j : Job) : (Job.leaves im b q s groups per n k p j).2.2.kept = j.kept := by
  induction n generalizing k p j with
  | zero => rfl
  | succ n ih => simp [Job.leaves, Job.initState, ih]

@[simp] theorem Job.mergeLevel_kept (im : Image) (l : List Blend) (j : Job) :
    (Job.mergeLevel im l j).2.kept = j.kept := by
  have hm : ∀ (j : Job) a b, (j.mergeStates im a b).2.kept = j.kept := fun j a b => by simp [Job.mergeStates]
  fun_induction Job.mergeLevel im l j <;> grind

@[simp] theorem Job.blend_kept (im : Image) (b : Batch) (q : Query) (s : Seq) (l : List (Tess × Nat)) :
    (j.blend im b q s l).2.2.kept = j.kept := by
  simp [Job.blend]

@[simp] theorem Job.query_kept (im : Image) (b : Batch) (i : Nat) : (j.query im b i).2.kept = j.kept := by
  have hq : (j.queryOf b i).2.kept = j.kept := by simp [Job.queryOf]
  unfold Job.query
  dsimp only
  split
  · refine (Job.stepped_kept _ ?_ ..).trans ((Job.walk_kept ..).trans hq)
    exact (State.takeFree_shows ..).trans (State.takeFree_shows ..)
  split
  · exact (Job.stepped_kept _ (State.takeFree_shows ..) ..).trans ((Job.walk_kept ..).trans hq)
  · simp [hq]

end

/-! ### The writes, made (R26, R248) -/

section
variable (r : Nat) (x : XCtx)

@[simp] theorem engineStore_shows (s : State) (va : Nat) (bs : List Byte) :
    (engineStore x r s va bs).2.shows r = s.shows r := by
  unfold engineStore
  grind [writeRsm_shows, writeVirt_shows]

@[simp] theorem emitBeat_shows (l : List (Nat × List Byte)) (s : State) : (emitBeat x r l s).2.shows r = s.shows r := by
  induction l generalizing s with
  | nil => rfl
  | cons p l ih =>
    unfold emitBeat
    grind [engineStore_shows]

@[simp] theorem beatWalks_shows (l : List (Nat × List Byte)) (s : State) : (beatWalks x l s).shows r = s.shows r := by
  induction l generalizing s with
  | nil => rfl
  | cons p l ih =>
    unfold beatWalks
    grind [pieces_shows]

@[simp] theorem emitGo_shows (f : Nat) (l : List PWrite) (s : State) : (emitGo x r f l s).s.shows r = s.shows r := by
  fun_induction emitGo x r f l s <;> grind [emitBeat_shows, beatWalks_shows]

end

theorem Job.kept_eq (j : Job) : j.kept = (j.r, j.s.shows j.r) := by
  unfold Job.kept
  rfl

/-! The two equations of `batchGo`. Its own equation theorems evaluate the query, which is too large. -/

theorem batchGo_zero (im : Image) (b : Batch) (i : Nat) (j : Job) : batchGo im b 0 i j = j := by
  delta batchGo
  generalize Job.query = q
  rfl

theorem batchGo_succ (im : Image) (b : Batch) (n i : Nat) (j : Job) : batchGo im b (n + 1) i j =
    match j.query im b i with
    | (w, k) =>
      if !k.going then { k with flags := j.flags }
      else match emitBeat k.x k.r w k.s with
        | (.ok o, t) => batchGo im b n (i + 1) { k with s := t, oor := o.reverse ++ k.oor }
        | (.bank _ _ _, t) => { k with s := t, held := true }
        | (a, _) => { k with s := beatWalks k.x w k.s, fault := some (accEFault a), flags := j.flags } := by
  delta batchGo batchGo._f
  generalize Job.query = q
  generalize emitBeat = e
  rfl

@[simp] theorem batchGo_kept (im : Image) (b : Batch) (n i : Nat) (j : Job) : (batchGo im b n i j).kept = j.kept := by
  induction n generalizing i j with
  | zero => rw [batchGo_zero]
  | succ n ih =>
    have hq := j.query_kept im b i
    rw [batchGo_succ]
    generalize j.query im b i = p at hq
    obtain ⟨w, k⟩ := p
    dsimp only at hq ⊢
    rw [← hq]
    split
    · simp
    split <;> rename_i h
    · exact (ih ..).trans (k.stepped_kept (shows_of_snd (emitBeat_shows ..) h) ..)
    · exact k.stepped_kept (shows_of_snd (emitBeat_shows ..) h) ..
    · exact k.stepped_kept (beatWalks_shows ..) ..

end Sys2Proof.Machine
end

section
/-! SUPPORT. What stays within one region: a step that changes the region, memory and its marks, and nothing that
another region or a core shows. -/

namespace Sys2Proof.Machine

/-- What of t is not memory, its marks or region r is as in s. -/
structure State.Within (r : Nat) (s t : State) : Prop where
  cur : t.cur = s.cur
  parts : ∀ p, (t.part p).quiet = (s.part p).quiet
  stews : ∀ c, (t.stew c).quiet = (s.stew c).quiet
  others : ∀ q, q ≠ r → t.region q = s.region q

section
variable {r : Nat} {s t u : State}

theorem State.Within.refl (r : Nat) (s : State) : State.Within r s s := ⟨rfl, fun _ => rfl, fun _ => rfl, fun _ _ => rfl⟩

theorem State.Within.trans (h : State.Within r s t) (k : State.Within r t u) : State.Within r s u :=
  ⟨k.cur.trans h.cur, fun p => (k.parts p).trans (h.parts p), fun c => (k.stews c).trans (h.stews c),
    fun q hq => (k.others q hq).trans (h.others q hq)⟩

theorem State.setRegion_within (s : State) (r : Nat) (g : Region) : State.Within r s (s.setRegion r g) :=
  ⟨rfl, fun _ => rfl, fun _ => rfl, fun _ hq => s.region_setRegion_ne g hq⟩

/-- What a state shows outside a region. -/
theorem within_of_shows (h : t.shows r = s.shows r) : State.Within r s t := by
  unfold State.shows at h
  obtain ⟨hs, h⟩ := Prod.mk.inj h
  obtain ⟨hp, h⟩ := Prod.mk.inj h
  obtain ⟨hr, hc⟩ := Prod.mk.inj h
  have hcur := congrArg State.cur hs
  refine ⟨hcur, congrFun hp, congrFun hc, fun q hq => ?_⟩
  simpa only [if_neg hq] using congrFun hr q

/-- What a state shows of the region. -/
theorem quiet_of_shows (h : t.shows r = s.shows r) : (t.region r).quiet = (s.region r).quiet := by
  unfold State.shows at h
  simpa only [if_pos] using congrFun (congrArg (fun p => p.2.2.1) h) r

theorem memoryOnly.within (h : memoryOnly s t) : State.Within r s t := by
  obtain ⟨⟨hcur, hregions, hstews⟩, hparts⟩ := h.tables
  refine ⟨hcur, fun p => ?_, fun c => ?_, fun q _ => ?_⟩
  · rw [State.part, State.part, hparts]
  · rw [State.stew, State.stew, hstews]
  · rw [State.region, State.region, hregions]

theorem memoryOnly.region {s t : State} (h : memoryOnly s t) (q : Nat) : t.region q = s.region q := h.tables.region q

end

/-! ### What a step keeps of its region -/

/-- A step within region r that keeps f of it. -/
structure State.Keeps {α : Type} (f : Region → α) (r : Nat) (s t : State) : Prop extends State.Within r s t where
  kept : f (t.region r) = f (s.region r)

section
variable {α β : Type} {f : Region → α} {r : Nat} {s t u : State}

theorem State.Keeps.refl (f : Region → α) (r : Nat) (s : State) : State.Keeps f r s s := ⟨.refl r s, rfl⟩

theorem State.Keeps.trans (h : State.Keeps f r s t) (k : State.Keeps f r t u) : State.Keeps f r s u :=
  ⟨h.toWithin.trans k.toWithin, k.kept.trans h.kept⟩

/-- A part of what is kept. -/
theorem State.Keeps.part (h : State.Keeps f r s t) {g : Region → β} (hg : ∀ x y, f x = f y → g x = g y) :
    State.Keeps g r s t := ⟨h.toWithin, hg _ _ h.kept⟩

theorem State.setRegion_keeps (s : State) {r : Nat} {g : Region} (h : f g = f (s.region r)) :
    State.Keeps f r s (s.setRegion r g) := ⟨s.setRegion_within r g, by rw [s.region_setRegion, h]⟩

theorem keeps_of_shows (h : t.shows r = s.shows r) : State.Keeps Region.quiet r s t := ⟨within_of_shows h, quiet_of_shows h⟩

theorem memoryOnly.keeps (h : memoryOnly s t) : State.Keeps f r s t := ⟨h.within, by rw [h.region]⟩

theorem foldl_keeps {γ : Type} {step : State → γ → State} (h : ∀ t x, State.Keeps f r t (step t x)) :
    ∀ (l : List γ) (s : State), State.Keeps f r s (l.foldl step s)
  | [], s => .refl f r s
  | x :: l, s => (h s x).trans (foldl_keeps h l (step s x))

end

/-! ### Store streams and units that end (R26, R33, R104, R137) -/

/-- A region but for its elements and the positions of its logs (R33, R104). -/
def Region.plain (g : Region) : Region := { g.quiet with busymap := 0, busypos := 0, dirtylog := 0, dirtypos := 0 }

theorem Region.plain_of_quiet (x y : Region) (h : x.quiet = y.quiet) : x.plain = y.plain := by
  unfold Region.plain
  rw [h]

section
variable (s : State) (r : Nat)

theorem logBusy_keeps (v : Nat) : State.Keeps Region.plain r s (logBusy s r v) := by
  unfold logBusy
  dsimp only
  split
  · exact .refl ..
  split
  · exact s.setRegion_keeps rfl
  split <;> rename_i h <;>
  exact ((keeps_of_shows (shows_of_snd (writeVirt_shows r ..) h)).part Region.plain_of_quiet).trans
    (State.setRegion_keeps _ rfl)

theorem logDirty_keeps (v : Nat) : State.Keeps Region.plain r s (logDirty s r v) := by
  unfold logDirty
  dsimp only
  split
  · exact .refl ..
  split
  · exact s.setRegion_keeps rfl
  split <;> rename_i h <;>
  exact ((keeps_of_shows (shows_of_snd (writeVirt_shows r ..) h)).part Region.plain_of_quiet).trans
    (State.setRegion_keeps _ rfl)

theorem State.setElement_keeps (e : Nat) (x : Element) :
    State.Keeps Region.plain r s (s.setRegion r ((s.region r).setElement e x)) := s.setRegion_keeps rfl

theorem closePort_keeps (e p cause : Nat) : State.Keeps Region.plain r s (closePort s r e p cause) := by
  unfold closePort
  dsimp only
  split
  · exact (logDirty_keeps s r _).trans (State.setElement_keeps ..)
  · exact .refl ..

theorem closeElement_keeps (e cause : Nat) : State.Keeps Region.plain r s (closeElement s r e cause) :=
  (closePort_keeps ..).trans (closePort_keeps ..)

theorem closeQueued_keeps (e p : Nat) : State.Keeps Region.plain r s (closeQueued s r e p) := by
  unfold closeQueued
  dsimp only
  split
  · exact .refl ..
  · exact State.setElement_keeps ..

end
end Sys2Proof.Machine
end

section
/-! SUPPORT. Units that end (R26, R137). -/

namespace Sys2Proof.Machine

/-- What a map answers besides its default stands in it. -/
theorem mem_of_mapGet {α : Type} {z v : α} {m : Map α} {a : Nat} (h : mapGet z m a = v) (hv : v ≠ z) : (a, v) ∈ m := by
  induction m with
  | nil => exact absurd h.symm hv
  | cons p m ih =>
    obtain ⟨b, w⟩ := p
    by_cases e : a = b
    · subst e
      rw [mapGet, if_pos rfl] at h
      exact h ▸ List.mem_cons_self
    · rw [mapGet, if_neg e] at h
      exact List.mem_cons_of_mem _ (ih h)

/-- A region but for its elements, the positions of its logs and its islands. -/
def Region.unitless (g : Region) : Region := { g.plain with islands := [] }

theorem Region.unitless_of_plain (x y : Region) (h : x.plain = y.plain) : x.unitless = y.unitless := by
  unfold Region.unitless
  rw [h]

theorem Region.island_of_plain (k : Nat) (x y : Region) (h : x.plain = y.plain) : x.island k = y.island k := by
  have := congrArg Region.islands h
  exact congrArg (fun m => mapGet none m k) this

/-- An island whose unit has ended. -/
def Island.finished (i : Island) : Island :=
  { i with unit := none, trips := 0, held := none, watch := 0, stalled := false, charges := Charges.zero, hit := 0 }

section
variable (s : State) (r : Nat)

theorem State.setIsland_keeps (k : Nat) (x : Option Island) :
    State.Keeps Region.unitless r s (s.setRegion r ((s.region r).setIsland k x)) := s.setRegion_keeps rfl

theorem finishUnit_keeps (k end_ : Nat) : State.Keeps Region.unitless r s (finishUnit s r k end_) := by
  unfold finishUnit
  split
  · exact .refl ..
  split
  · exact .refl ..
  · exact ((logBusy_keeps s r _).part Region.unitless_of_plain).trans (State.setIsland_keeps ..)

theorem finishUnit_island_ne {k j : Nat} (hj : j ≠ k) (end_ : Nat) :
    ((finishUnit s r k end_).region r).island j = (s.region r).island j := by
  unfold finishUnit
  split
  · rfl
  split
  · rfl
  · dsimp only
    rw [State.region_setRegion, Region.island_setIsland_ne _ _ hj]
    exact Region.island_of_plain j _ _ (logBusy_keeps ..).kept

theorem finishUnit_island {k : Nat} {i : Island} (hi : (s.region r).island k = some i) (hu : i.unit ≠ none) (end_ : Nat) :
    ((finishUnit s r k end_).region r).island k = some i.finished := by
  obtain ⟨h, hu⟩ := Option.ne_none_iff_exists'.1 hu
  unfold finishUnit
  rw [hi]
  dsimp only
  rw [hu]
  dsimp only
  rw [State.region_setRegion, Region.island_setIsland]
  rfl

/-- The elements of an island whose unit stops. -/
def State.stopElement (r cause : Nat) (t : State) (e : Nat) : State :=
  let u := closeQueued (closeQueued t r e 0) r e 1
  closeElement (u.putElem r e ((u.region r).element e).cancel) r e cause

theorem State.stopElement_keeps (cause : Nat) (e : Nat) : State.Keeps Region.plain r s (s.stopElement r cause e) :=
  (((closeQueued_keeps ..).trans (closeQueued_keeps ..)).trans (State.setElement_keeps ..)).trans (closeElement_keeps ..)

theorem stopUnit_eq {k : Nat} {i : Island} (hi : (s.region r).island k = some i) (hu : i.unit ≠ none) (end_ cause : Nat) :
    stopUnit s r k end_ cause = finishUnit (i.cells.foldl (State.stopElement r cause) s) r k end_ := by
  unfold stopUnit
  rw [hi]
  dsimp only
  rw [if_neg hu]
  rfl

/-- A unit that stops is one that stops, or nothing. -/
theorem stopUnit_cases (k end_ cause : Nat) :
    (stopUnit s r k end_ cause = s ∧ ∀ i, (s.region r).island k = some i → i.unit = none) ∨
    ∃ i u, (s.region r).island k = some i ∧ i.unit ≠ none ∧ State.Keeps Region.plain r s u ∧
      stopUnit s r k end_ cause = finishUnit u r k end_ := by
  cases hi : (s.region r).island k with
  | none => exact .inl ⟨by rw [stopUnit, hi], fun _ h => nomatch h⟩
  | some i =>
    by_cases hu : i.unit = none
    · refine .inl ⟨?_, fun _ h => Option.some.inj h ▸ hu⟩
      unfold stopUnit
      rw [hi]
      exact if_pos hu
    · exact .inr ⟨i, _, rfl, hu, foldl_keeps (fun t e => t.stopElement_keeps r cause e) _ _, stopUnit_eq s r hi hu ..⟩

theorem stopUnit_keeps (k end_ cause : Nat) : State.Keeps Region.unitless r s (stopUnit s r k end_ cause) := by
  rcases stopUnit_cases s r k end_ cause with ⟨h, -⟩ | ⟨i, u, -, -, hu, h⟩ <;> rw [h]
  · exact .refl ..
  · exact (hu.part Region.unitless_of_plain).trans (finishUnit_keeps ..)

theorem stopUnit_island_ne {k j : Nat} (hj : j ≠ k) (end_ cause : Nat) :
    ((stopUnit s r k end_ cause).region r).island j = (s.region r).island j := by
  rcases stopUnit_cases s r k end_ cause with ⟨h, -⟩ | ⟨i, u, -, -, hu, h⟩ <;> rw [h]
  exact (finishUnit_island_ne u r hj end_).trans (Region.island_of_plain j _ _ hu.kept)

/-- The island of a unit that stops holds none. -/
theorem stopUnit_island {k : Nat} {i : Island} (hi : (s.region r).island k = some i) (end_ cause : Nat) :
    ∃ y, ((stopUnit s r k end_ cause).region r).island k = some y ∧ y.unit = none := by
  rcases stopUnit_cases s r k end_ cause with ⟨h, hn⟩ | ⟨i', u, hi', hu', hu, h⟩ <;> rw [h]
  · exact ⟨i, hi, hn i hi⟩
  · exact ⟨_, finishUnit_island u r ((Region.island_of_plain k _ _ hu.kept).trans hi') hu' end_, rfl⟩

/-- One island of a cancellation. -/
def State.cancelIsland (set : List Nat) (r : Nat) (t : State) (p : Nat × Option Island) : State :=
  match p.2 with
  | some i => match i.unit with
    | some u => if set.contains u then stopUnit t r p.1 1 2 else t
    | none => t
  | none => t

theorem cancelUnits_eq (set : List Nat) :
    cancelUnits set s r = (s.region r).islands.foldl (State.cancelIsland set r) s := rfl

theorem State.cancelIsland_cases (set : List Nat) (p : Nat × Option Island) :
    s.cancelIsland set r p = s ∨ s.cancelIsland set r p = stopUnit s r p.1 1 2 := by
  unfold State.cancelIsland
  repeat' split
  all_goals simp

theorem State.cancelIsland_keeps (set : List Nat) (p : Nat × Option Island) :
    State.Keeps Region.unitless r s (s.cancelIsland set r p) := by
  rcases s.cancelIsland_cases r set p with h | h <;> rw [h]
  · exact .refl ..
  · exact stopUnit_keeps ..

theorem cancelUnits_keeps (set : List Nat) : State.Keeps Region.unitless r s (cancelUnits set s r) :=
  foldl_keeps (fun t p => t.cancelIsland_keeps r set p) _ _

/-- An island with a unit keeps its place: with its unit or without one. -/
def unitAtMost (k : Nat) (x : Island) (g : Region) : Prop := g.island k = some x ∨ ∃ y, g.island k = some y ∧ y.unit = none

theorem State.cancelIsland_unitAtMost {k : Nat} {x : Island} (h : unitAtMost k x (s.region r)) (set : List Nat)
    (p : Nat × Option Island) : unitAtMost k x ((s.cancelIsland set r p).region r) := by
  rcases s.cancelIsland_cases r set p with hp | hp <;> rw [hp]
  · exact h
  · by_cases hk : k = p.1
    · subst hk
      rcases h with h | ⟨y, h, -⟩ <;> exact .inr (stopUnit_island s r h 1 2)
    · unfold unitAtMost
      rwa [stopUnit_island_ne s r hk]

theorem State.cancelIsland_none {k : Nat} (h : ∃ y, (s.region r).island k = some y ∧ y.unit = none) (set : List Nat)
    (p : Nat × Option Island) : ∃ y, ((s.cancelIsland set r p).region r).island k = some y ∧ y.unit = none := by
  obtain ⟨y, hy, hn⟩ := h
  rcases s.cancelIsland_unitAtMost r (.inl hy : unitAtMost k y _) set p with h | h
  · exact ⟨y, h, hn⟩
  · exact h

theorem cancelIslands_none {set : List Nat} {k u : Nat} {x : Island} (hx : x.unit = some u) (hu : u ∈ set) :
    ∀ (l : List (Nat × Option Island)) (s : State), (k, some x) ∈ l → unitAtMost k x (s.region r) →
      ∃ y, ((l.foldl (State.cancelIsland set r) s).region r).island k = some y ∧ y.unit = none := by
  have hkeep : ∀ (l : List (Nat × Option Island)) (s : State), (∃ y, (s.region r).island k = some y ∧ y.unit = none) →
      ∃ y, ((l.foldl (State.cancelIsland set r) s).region r).island k = some y ∧ y.unit = none := by
    intro l
    induction l with
    | nil => exact fun _ h => h
    | cons p l ih => exact fun s h => ih _ (s.cancelIsland_none r h set p)
  intro l
  induction l with
  | nil => exact fun _ h => nomatch h
  | cons p l ih =>
    intro s hl h
    rcases List.mem_cons.1 hl with rfl | hl
    · refine hkeep l _ ?_
      have hstop : s.cancelIsland set r (k, some x) = stopUnit s r k 1 2 := by
        unfold State.cancelIsland
        dsimp only
        rw [hx]
        exact if_pos (List.contains_iff_mem.2 hu)
      rw [hstop]
      rcases h with h | ⟨y, h, -⟩ <;> exact stopUnit_island s r h 1 2
    · exact ih _ hl (s.cancelIsland_unitAtMost r h set p)

/-- R26: the islands of cancelled units are left without one. -/
theorem cancelUnits_island {set : List Nat} {k u : Nat} {x : Island} (hk : (s.region r).island k = some x)
    (hx : x.unit = some u) (hu : u ∈ set) : ∃ y, ((cancelUnits set s r).region r).island k = some y ∧ y.unit = none := by
  rw [cancelUnits_eq]
  exact cancelIslands_none r hx hu _ s (mem_of_mapGet hk (Option.some_ne_none x)) (.inl hk)

theorem cancelUnits_unitAtMost {k : Nat} {x : Island} (h : unitAtMost k x (s.region r)) (set : List Nat) :
    unitAtMost k x ((cancelUnits set s r).region r) :=
  List.foldlRecOn (motive := fun t : State => unitAtMost k x (t.region r)) _ _ h
    fun t ht p _ => t.cancelIsland_unitAtMost r ht set p

theorem cancelUnits_none {k : Nat} (h : ∃ y, (s.region r).island k = some y ∧ y.unit = none) (set : List Nat) :
    ∃ y, ((cancelUnits set s r).region r).island k = some y ∧ y.unit = none :=
  List.foldlRecOn (motive := fun t : State => ∃ y, (t.region r).island k = some y ∧ y.unit = none) _ _ h
    fun t ht p _ => t.cancelIsland_none r ht set p

end

end Sys2Proof.Machine
end

section
/-! SUPPORT. Commands that are cancelled (R26, R89). -/

namespace Sys2Proof.Machine

/-- The task of a slot but for what its engine commands answer: tags, flags and fault records (R87, R89, R345). -/
def Task.own (t : Task) : Task :=
  { t with counts := [], tagflags := [], tags := 0, fflags := 0, tagc := 0, efault := 0, efaddr := 0, oor := 0 }

theorem Task.own_oorAll (m : Task) (l : List (Nat × Bool × Nat)) : (m.oorAll l).own = m.own := by
  rw [m.oorAll_eq l]
  rfl

theorem Task.own_endCommand (m : Task) (tag : Nat) (fl : Flags) (ab : Bool) : (m.endCommand tag fl ab).own = m.own := by
  rw [m.endCommand_eq]
  rfl

/-- A region but for its elements, its queues and its tasks, with its tasks but for what commands answer. -/
def Region.unqueued (g : Region) : Region × (Nat → Task) :=
  ({ g.quiet with tasks := [], copyq := [], mergeq := [], pipeq := [] }, fun j => (g.task j).own)

theorem Region.unqueued_of_quiet (x y : Region) (h : x.quiet = y.quiet) : x.unqueued = y.unqueued := by
  have ht : x.tasks = y.tasks := by
    have := congrArg Region.tasks h
    exact this
  unfold Region.unqueued Region.task
  rw [h, ht]

theorem Region.unqueued_onOwner (g : Region) (o : Owner) {f : Task → Task} (hf : ∀ m, (f m).own = m.own) :
    (g.onOwner o f).unqueued = g.unqueued := by
  refine Prod.ext ?_ (funext fun j => ?_)
  · rw [g.onOwner_tasks o f]
    rfl
  · show ((g.onOwner o f).task j).own = (g.task j).own
    rw [g.task_onOwner]
    split
    · exact hf _
    · rfl

theorem Region.unqueued_setQueue (g : Region) (e : Engine) (q : List Command) :
    (g.setQueue e q).unqueued = g.unqueued := by
  cases e <;> rfl

theorem onlyRegion.within {r : Nat} {s t : State} (h : onlyRegion r s t) : State.Within r s t := by
  obtain ⟨h1, h2⟩ := h
  have hcur := congrArg State.cur h1
  have hparts := congrArg State.parts h1
  have hstews := congrArg State.stews h1
  dsimp only at hcur hparts hstews
  refine ⟨hcur, fun p => ?_, fun c => ?_, h2⟩
  · rw [State.part, State.part, hparts]
  · rw [State.stew, State.stew, hstews]

/-- The queues of a region are those of a region of which everything but its elements is kept. -/
theorem Region.queueOf_of_quiet {x y : Region} (h : x.quiet = y.quiet) (e : Engine) : x.queueOf e = y.queueOf e := by
  have := congrArg (fun g : Region => g.queueOf e) h
  cases e <;> exact this

section
variable (s : State) (r : Nat)

theorem recordOor_keeps (c : Command) (w : Emitted) : State.Keeps Region.unqueued r s (recordOor s r c w) := by
  refine ⟨(onOwner_onlyRegion ..).within, ?_⟩
  rw [recordOor, onOwner_region]
  exact Region.unqueued_onOwner _ _ fun m => m.own_oorAll _

theorem recordOor_queueOf (c : Command) (w : Emitted) (e : Engine) :
    ((recordOor s r c w).region r).queueOf e = (s.region r).queueOf e := by
  rw [recordOor, onOwner_region, Region.onOwner_tasks]
  cases e <;> rfl

theorem finishCommand_keeps (e : Engine) (idx : Nat) (c : Command) (fl : Flags) (ab : Bool) :
    State.Keeps Region.unqueued r s (finishCommand s r e idx c fl ab) := by
  obtain ⟨v, hv, honly, hreg⟩ := finishCommand_eq s r e idx c fl ab
  rw [hv]
  refine State.Keeps.trans ⟨honly.within, ?_⟩ (ctrDone_memoryOnly ..).keeps
  rw [hreg, Region.unqueued_onOwner _ _ fun m => m.own_endCommand .., Region.unqueued_setQueue]

theorem finishCommand_queueOf (e e' : Engine) (idx : Nat) (c : Command) (fl : Flags) (ab : Bool) :
    ((finishCommand s r e idx c fl ab).region r).queueOf e' =
      if e' = e then dropAt ((s.region r).queueOf e) idx else (s.region r).queueOf e' := by
  obtain ⟨v, hv, -, hreg⟩ := finishCommand_eq s r e idx c fl ab
  rw [hv, (ctrDone_memoryOnly ..).region, hreg, Region.onOwner_tasks]
  cases e <;> cases e' <;> rfl

/-! ### What a cancelled command had done (R26) -/

/-- A job that keeps what it began with. -/
theorem Job.shows_of_kept {r : Nat} {s0 : State} {j : Job} (h : j.kept = (r, s0.shows r)) :
    j.r = r ∧ j.s.shows r = s0.shows r := by
  rw [Job.kept_eq] at h
  obtain ⟨hr, hs⟩ := Prod.mk.inj h
  subst hr
  exact ⟨rfl, hs⟩

/-- The writes of a job, made in part, show nothing more than the job does. -/
theorem cutJob_shows {r : Nat} {s0 : State} {j : Job} (h : j.kept = (r, s0.shows r)) (n : Nat) (l : List PWrite) :
    (emitGo j.x j.r n l j.s).s.shows r = s0.shows r := by
  obtain ⟨hr, hs⟩ := j.shows_of_kept h
  rw [hr, emitGo_shows, hs]

theorem Job.start_kept (s : State) (r kind : Nat) : (Job.start s r kind).kept = (r, s.shows r) := Job.kept_eq _

theorem prefixWork_shows (c : Command) : (prefixWork s r c).s.shows r = s.shows r := by
  have h0 := s.takeFree_shows r
  unfold prefixWork
  generalize s.takeFree = p at h0
  obtain ⟨n, s0⟩ := p
  dsimp only at h0 ⊢
  rw [← h0]
  split
  case h_11 =>
    split
    · rfl
    · exact (Job.shows_of_kept ((batchGo_kept ..).trans (Job.start_kept s0 r 6))).2
  case h_12 => rfl
  all_goals
    refine cutJob_shows ?_ _ _
    simp [Job.start_kept]

/-! ### The queues of a cancellation -/

theorem cancelCommand_keeps (e : Engine) (idx : Nat) (c : Command) :
    State.Keeps Region.unqueued r s (cancelCommand s r e idx c) :=
  (((keeps_of_shows (prefixWork_shows s r c)).part Region.unqueued_of_quiet).trans (recordOor_keeps ..)).trans
    (finishCommand_keeps ..)

theorem cancelCommand_queueOf (e e' : Engine) (idx : Nat) (c : Command) :
    ((cancelCommand s r e idx c).region r).queueOf e' =
      if e' = e then dropAt ((s.region r).queueOf e) idx else (s.region r).queueOf e' := by
  have hq := Region.queueOf_of_quiet (quiet_of_shows (prefixWork_shows s r c))
  unfold cancelCommand
  dsimp only
  rw [finishCommand_queueOf, recordOor_queueOf, recordOor_queueOf, hq, hq]

end

/-- The counters of the commands of a queue. -/
def queueCounters (q : List Command) : List Nat := q.map fun c => c.counter

/-- R26: the first cancelled command of a list leaves it. -/
theorem dropAt_findIdx {α : Type} (p : α → Bool) : ∀ l : List α, (match l.findIdx? p with
    | none => l
    | some k => dropAt l k) = l.eraseP p
  | [] => rfl
  | x :: l => by
    have ih := dropAt_findIdx p l
    rw [List.findIdx?_cons, List.eraseP_cons]
    cases hx : p x
    · rw [← ih]
      cases l.findIdx? p <;> rfl
    · rfl

theorem filter_eraseP {α : Type} (p : α → Bool) (l : List α) :
    (l.eraseP p).filter (fun x => !p x) = l.filter fun x => !p x := by
  induction l with
  | nil => rfl
  | cons x l ih => cases hx : p x <;> simp [hx, ih]

theorem countP_eraseP {α : Type} (p : α → Bool) (l : List α) : (l.eraseP p).countP p = l.countP p - 1 := by
  induction l with
  | nil => rfl
  | cons x l ih => cases hx : p x <;> simp [hx, ih]

/-- Once every element that satisfies p has gone, the others are left in their order. -/
theorem iterate_eraseP {α : Type} (p : α → Bool) : ∀ (n : Nat) (l : List α), l.countP p ≤ n →
    (List.eraseP p)^[n] l = l.filter fun x => !p x
  | 0, l, h => by
    rw [Function.iterate_zero, id, eq_comm, List.filter_eq_self]
    intro x hx
    simpa using List.countP_eq_zero.1 (Nat.le_zero.1 h) x hx
  | n + 1, l, h => by
    rw [Function.iterate_succ_apply, iterate_eraseP p n _ (by rw [countP_eraseP]; omega), filter_eraseP]

section
variable (set : List Nat) (r : Nat) (e : Engine) (s : State)

theorem cancelFirst_cases : (cancelFirst set r e s = s ∧ ∀ c ∈ (s.region r).queueOf e, c.counter ∉ set) ∨
    ∃ k c, ((s.region r).queueOf e).findIdx? (fun c => set.contains c.counter) = some k ∧
      cancelFirst set r e s = cancelCommand s r e k c := by
  unfold cancelFirst
  dsimp only
  split <;> rename_i h
  · exact .inl ⟨rfl, fun c hc => by simpa using List.findIdx?_eq_none_iff.1 h c hc⟩
  · obtain ⟨hk, -⟩ := List.findIdx?_eq_some_iff_getElem.1 h
    rw [List.getElem?_eq_getElem hk]
    exact .inr ⟨_, _, h, rfl⟩

theorem cancelFirst_keeps : State.Keeps Region.unqueued r s (cancelFirst set r e s) := by
  rcases cancelFirst_cases set r e s with ⟨h, -⟩ | ⟨k, c, -, h⟩ <;> rw [h]
  · exact .refl ..
  · exact cancelCommand_keeps ..

theorem cancelFirst_queueOf : ((cancelFirst set r e s).region r).queueOf e =
    ((s.region r).queueOf e).eraseP fun c => set.contains c.counter := by
  rw [← dropAt_findIdx]
  rcases cancelFirst_cases set r e s with ⟨h, hn⟩ | ⟨k, c, hk, h⟩ <;> rw [h]
  · rw [List.findIdx?_eq_none_iff.2 fun c hc => by simpa using hn c hc]
  · rw [hk, cancelCommand_queueOf, if_pos rfl]

theorem cancelFirst_queueOf_ne {e' : Engine} (he : e' ≠ e) :
    ((cancelFirst set r e s).region r).queueOf e' = (s.region r).queueOf e' := by
  rcases cancelFirst_cases set r e s with ⟨h, -⟩ | ⟨k, c, -, h⟩ <;> rw [h]
  rw [cancelCommand_queueOf, if_neg he]

theorem cancelQueue_keeps (n : Nat) (s : State) : State.Keeps Region.unqueued r s (cancelQueue set r e n s) := by
  induction n generalizing s with
  | zero => exact .refl ..
  | succ n ih => exact (cancelFirst_keeps ..).trans (ih _)

theorem cancelQueue_queueOf_ne {e' : Engine} (he : e' ≠ e) (n : Nat) (s : State) :
    ((cancelQueue set r e n s).region r).queueOf e' = (s.region r).queueOf e' := by
  induction n generalizing s with
  | zero => rfl
  | succ n ih => exact (ih _).trans (cancelFirst_queueOf_ne set r e s he)

theorem cancelQueue_queueOf (n : Nat) (s : State) : ((cancelQueue set r e n s).region r).queueOf e =
    (List.eraseP fun c : Command => set.contains c.counter)^[n] ((s.region r).queueOf e) := by
  induction n generalizing s with
  | zero => rfl
  | succ n ih => rw [cancelQueue, ih, cancelFirst_queueOf, Function.iterate_succ_apply]

/-- A queue without cancelled commands is left as it is. -/
theorem cancelQueue_none (h : ∀ c ∈ (s.region r).queueOf e, c.counter ∉ set) (n : Nat) : cancelQueue set r e n s = s := by
  induction n with
  | zero => rfl
  | succ n ih =>
    rcases cancelFirst_cases set r e s with ⟨hc, -⟩ | ⟨k, c, hk, -⟩
    · rw [cancelQueue, hc, ih]
    · rw [List.findIdx?_eq_none_iff.2 fun c hc => by simpa using h c hc] at hk
      exact nomatch hk

/-- The three queues of a region in a cancellation. -/
def cancelQueues (t : State) (r : Nat) : State :=
  cancelQueue set r .attention 16 (cancelQueue set r .merge 16 (cancelQueue set r .copy 16 t))

theorem cancelQueues_keeps : State.Keeps Region.unqueued r s (cancelQueues set s r) :=
  ((cancelQueue_keeps ..).trans (cancelQueue_keeps ..)).trans (cancelQueue_keeps ..)

theorem cancelQueues_queueOf (e : Engine) : ((cancelQueues set s r).region r).queueOf e =
    (List.eraseP fun c : Command => set.contains c.counter)^[16] ((s.region r).queueOf e) := by
  have hcm := cancelQueue_queueOf_ne set r .merge (show Engine.copy ≠ .merge by decide)
  have hca := cancelQueue_queueOf_ne set r .attention (show Engine.copy ≠ .attention by decide)
  have hmc := cancelQueue_queueOf_ne set r .copy (show Engine.merge ≠ .copy by decide)
  have hma := cancelQueue_queueOf_ne set r .attention (show Engine.merge ≠ .attention by decide)
  have hac := cancelQueue_queueOf_ne set r .copy (show Engine.attention ≠ .copy by decide)
  have ham := cancelQueue_queueOf_ne set r .merge (show Engine.attention ≠ .merge by decide)
  unfold cancelQueues
  cases e
  · rw [hca, hcm, cancelQueue_queueOf]
  · rw [hma, cancelQueue_queueOf, hmc]
  · rw [cancelQueue_queueOf, ham, hac]

/-- R26: the commands of other counters stay, in their order. -/
theorem queueCounters_cancelled {q : List Command} (h : q.length ≤ 16) :
    queueCounters ((List.eraseP fun c : Command => set.contains c.counter)^[16] q) =
      (queueCounters q).filter fun x => !set.contains x := by
  rw [iterate_eraseP _ 16 q (List.countP_le_length.trans h), queueCounters, queueCounters, List.filter_map]
  rfl

theorem cancelQueues_counters (h : ((s.region r).queueOf e).length ≤ 16) :
    queueCounters (((cancelQueues set s r).region r).queueOf e) =
      (queueCounters ((s.region r).queueOf e)).filter fun x => !set.contains x := by
  rw [cancelQueues_queueOf, queueCounters_cancelled set h]

theorem cancelQueues_length :
    (((cancelQueues set s r).region r).queueOf e).length ≤ ((s.region r).queueOf e).length := by
  rw [cancelQueues_queueOf]
  generalize (s.region r).queueOf e = q
  generalize 16 = n
  induction n generalizing q with
  | zero => exact Nat.le_refl _
  | succ n ih =>
    rw [Function.iterate_succ_apply]
    exact (ih _).trans (List.length_eraseP_le)

end

end Sys2Proof.Machine
end

section
/-! SUPPORT. Tasks that are cancelled, and a cancellation over the regions of a partition (R26). -/

namespace Sys2Proof.Machine

/-! ### The end of a cancelled task -/

/-- A region but for its elements, its tasks, its messages, its trackers and the owners of its commands. -/
def Region.vacant (g : Region) : Region × (Engine → List Nat) :=
  ({ g.quiet with tasks := [], queue := [], trackers := [], copyq := [], mergeq := [], pipeq := [] },
    fun e => queueCounters (g.queueOf e))

theorem Region.vacant_of_quiet (x y : Region) (h : x.quiet = y.quiet) : x.vacant = y.vacant := by
  unfold Region.vacant
  rw [h]
  exact congrArg _ (funext fun e => by rw [Region.queueOf_of_quiet h])

theorem queueCounters_moveOwner (old new : Owner) (q : List Command) :
    queueCounters (moveOwner old new q) = queueCounters q := by
  rw [queueCounters, moveOwner, List.map_map]
  refine List.map_congr_left fun c _ => ?_
  show (if c.owner = old then { c with owner := new } else c).counter = _
  split <;> rfl

theorem Region.vacant_released (g : Region) (n : Nat) (o : Owner) : (g.released n o).vacant = g.vacant := by
  refine Prod.ext rfl (funext fun e => ?_)
  cases e <;> exact queueCounters_moveOwner ..

@[simp] theorem endpointState_shows (r : Nat) (s : State) (x : XCtx) (h st : Nat) :
    (endpointState s x h st).shows r = s.shows r := by
  have hget : ∀ t : State, (endpointGet t x h).2.shows r = t.shows r := fun t => by
    unfold endpointGet
    split <;> rename_i e <;> exact shows_of_snd (readVirt_shows ..) e
  unfold endpointState endpointPut
  split
  · rfl
  split <;> rename_i e
  · exact (writeVirt_shows ..).trans (shows_of_snd (hget s) e)
  · exact shows_of_snd (hget s) e

theorem State.exited_shows (s : State) (r n : Nat) : (s.exited r n).shows r = s.shows r := endpointState_shows ..

section
variable (s : State) (r n : Nat) (o : Owner) (w : Issuer)

theorem releaseTask_keeps : State.Keeps Region.vacant r s (releaseTask s r n o w) := by
  refine State.Keeps.trans (s := s) ((keeps_of_shows (s.exited_shows r n)).part Region.vacant_of_quiet) ?_
  rw [releaseTask_eq]
  exact (State.setRegion_keeps (s.exited r n) (Region.vacant_released ..)).trans ⟨⟨rfl, fun _ => rfl, fun _ => rfl,
    fun _ _ => rfl⟩, rfl⟩

theorem State.exited_task (j : Nat) : ((s.exited r n).region r).task j = (s.region r).task j := by
  have := congrArg Region.tasks (quiet_of_shows (s.exited_shows r n))
  exact congrArg (fun m => mapGet Task.zero m j) this

theorem releaseTask_slot (j : Nat) : ((releaseTask s r n o w).region r).task j =
    if j = n then ((s.region r).task n).freed else (s.region r).task j := by
  rw [releaseTask_region]
  split
  · next h => rw [h, Region.task_released, s.exited_task]
  · next h => rw [Region.task_released_ne _ h, s.exited_task]

end

/-- Whether a cancellation ends a task. -/
def Task.ends (set : List Nat) (m : Task) : Bool := m.hold ≠ .free && set.contains m.counter

/-- The end of the task of a slot, if a cancellation ends it. -/
def State.cancelSlot (set : List Nat) (g : Region) (r : Nat) (u : State) (n : Nat) : State :=
  if (g.task n).ends set then releaseTask u r n .none .none else u

/-- The trackers of cancelled counters count nothing. -/
def Region.dropTrackers (set : List Nat) (g : Region) : Region :=
  { g with trackers := g.trackers.map fun p => (p.1, p.2.map fun x =>
      if set.contains x.counter then { x with counter := 0 } else x) }

section
variable (set : List Nat) (s : State) (r : Nat)

theorem cancelTasks_eq : cancelTasks set s r =
    (((upTo 8).foldl (State.cancelSlot set (s.region r) r) s).setRegion r
      ((((upTo 8).foldl (State.cancelSlot set (s.region r) r) s).region r).dropTrackers set)) := rfl

theorem State.cancelSlot_keeps (g : Region) (u : State) (n : Nat) :
    State.Keeps Region.vacant r u (u.cancelSlot set g r n) := by
  unfold State.cancelSlot
  split
  · exact releaseTask_keeps ..
  · exact .refl ..

theorem cancelTasks_keeps : State.Keeps Region.vacant r s (cancelTasks set s r) := by
  rw [cancelTasks_eq]
  exact (foldl_keeps (fun t n => State.cancelSlot_keeps set r _ t n) _ s).trans (State.setRegion_keeps _ rfl)

theorem State.cancelSlot_task (g : Region) (u : State) (n j : Nat) : ((u.cancelSlot set g r n).region r).task j =
    if j = n ∧ (g.task n).ends set then ((u.region r).task n).freed else (u.region r).task j := by
  unfold State.cancelSlot
  by_cases h : (g.task n).ends set
  · rw [if_pos h, releaseTask_slot]
    simp [h]
  · rw [if_neg h, if_neg fun e => h e.2]

theorem Task.freed_hold (m : Task) : m.freed.hold = .free := rfl

theorem cancelSlots_task (g : Region) {j : Nat} (hc : (g.task j).ends set = false) (l : List Nat) (u : State) :
    ((l.foldl (State.cancelSlot set g r) u).region r).task j = (u.region r).task j := by
  induction l generalizing u with
  | nil => rfl
  | cons n l ih =>
    rw [List.foldl_cons, ih, u.cancelSlot_task, if_neg]
    rintro ⟨rfl, h⟩
    rw [hc] at h
    exact nomatch h

theorem cancelSlots_free (g : Region) (j : Nat) : ∀ (l : List Nat) (u : State),
    ((u.region r).task j).hold = .free ∨ (j ∈ l ∧ (g.task j).ends set) →
      (((l.foldl (State.cancelSlot set g r) u).region r).task j).hold = .free := by
  intro l
  induction l with
  | nil => exact fun u h => h.resolve_right (fun h => nomatch h.1)
  | cons n l ih =>
    intro u h
    refine ih _ ?_
    rw [u.cancelSlot_task]
    rcases h with h | ⟨h, hc⟩
    · split
      · exact .inl rfl
      · exact .inl h
    · rcases List.mem_cons.1 h with rfl | h
      · rw [if_pos ⟨rfl, hc⟩]
        exact .inl rfl
      · exact .inr ⟨h, hc⟩

theorem cancelTasks_task {j : Nat} (hc : ((s.region r).task j).ends set = false) :
    ((cancelTasks set s r).region r).task j = (s.region r).task j := by
  rw [cancelTasks_eq, State.region_setRegion]
  exact cancelSlots_task set r _ hc _ s

theorem cancelTasks_free {j : Nat} (hj : j < 8)
    (h : ((s.region r).task j).hold = .free ∨ ((s.region r).task j).counter ∈ set) :
    (((cancelTasks set s r).region r).task j).hold = .free := by
  rw [cancelTasks_eq, State.region_setRegion]
  refine cancelSlots_free set r _ j _ s ?_
  by_cases hf : ((s.region r).task j).hold = .free
  · exact .inl hf
  · refine .inr ⟨by rw [upTo_eq_range]; exact List.mem_range.2 hj, ?_⟩
    simp [Task.ends, hf, h.resolve_left hf]

theorem cancelTasks_calm (h : ∀ n, n < 8 → ((s.region r).task n).ends set = false) :
    cancelTasks set s r = s.setRegion r ((s.region r).dropTrackers set) := by
  have hfold : (upTo 8).foldl (State.cancelSlot set (s.region r) r) s = s := foldl_eq_self _ fun n hn => by
    rw [State.cancelSlot, h n (by rw [upTo_eq_range] at hn; exact List.mem_range.1 hn)]
    rfl
  rw [cancelTasks_eq, hfold]

end

/-! ### One step after another over the regions of a partition -/

/-- A step over regions, each of which keeps f. -/
structure State.Spread {α : Type} (f : Region → α) (rs : List Nat) (s t : State) : Prop where
  cur : t.cur = s.cur
  parts : ∀ p, (t.part p).quiet = (s.part p).quiet
  stews : ∀ c, (t.stew c).quiet = (s.stew c).quiet
  others : ∀ q, q ∉ rs → t.region q = s.region q
  kept : ∀ q, f (t.region q) = f (s.region q)

section
variable {α β : Type} {f : Region → α} {rs : List Nat} {s t u : State}

theorem State.Spread.refl (f : Region → α) (rs : List Nat) (s : State) : State.Spread f rs s s :=
  ⟨rfl, fun _ => rfl, fun _ => rfl, fun _ _ => rfl, fun _ => rfl⟩

theorem State.Spread.trans (h : State.Spread f rs s t) (k : State.Spread f rs t u) : State.Spread f rs s u :=
  ⟨k.cur.trans h.cur, fun p => (k.parts p).trans (h.parts p), fun c => (k.stews c).trans (h.stews c),
    fun q hq => (k.others q hq).trans (h.others q hq), fun q => (k.kept q).trans (h.kept q)⟩

theorem State.Spread.part (h : State.Spread f rs s t) {g : Region → β} (hg : ∀ x y, f x = f y → g x = g y) :
    State.Spread g rs s t := ⟨h.cur, h.parts, h.stews, h.others, fun q => hg _ _ (h.kept q)⟩

theorem State.Keeps.spread {r : Nat} (h : State.Keeps f r s t) (hr : r ∈ rs) : State.Spread f rs s t := by
  have hne : ∀ q, q ∉ rs → q ≠ r := fun q hq e => hq (e ▸ hr)
  refine ⟨h.cur, h.parts, h.stews, fun q hq => h.others q (hne q hq), fun q => ?_⟩
  by_cases hq : q = r
  · subst hq
    exact h.kept
  · rw [h.others q hq]

theorem memoryOnly.spread (h : memoryOnly s t) : State.Spread f rs s t :=
  let w := memoryOnly.within (r := 0) h
  ⟨w.cur, w.parts, w.stews, fun q _ => h.region q, fun q => by rw [h.region]⟩

theorem foldl_spread {step : State → Nat → State} (h : ∀ t r, State.Keeps f r t (step t r)) :
    ∀ (l : List Nat) (s : State), (∀ r ∈ l, r ∈ rs) → State.Spread f rs s (l.foldl step s)
  | [], s, _ => .refl f rs s
  | r :: l, s, hl => ((h s r).spread (hl r List.mem_cons_self)).trans
      (foldl_spread h l _ fun q hq => hl q (List.mem_cons_of_mem _ hq))

/-- What a step establishes of its region holds of each region once the steps are done, when every step keeps it and what
it needs. -/
theorem foldl_region {step : State → Nat → State} {I P : Region → Prop} (hw : ∀ t r, State.Within r t (step t r))
    (hI : ∀ t r, I (t.region r) → I ((step t r).region r)) (hP : ∀ t r, P (t.region r) → P ((step t r).region r))
    (h : ∀ t r, I (t.region r) → P ((step t r).region r)) {q : Nat} :
    ∀ (l : List Nat) (s : State), P (s.region q) ∨ (q ∈ l ∧ I (s.region q)) → P ((l.foldl step s).region q)
  | [], s, hs => hs.resolve_right fun h => nomatch h.1
  | r :: l, s, hs => by
    refine foldl_region hw hI hP h l _ ?_
    by_cases hq : q = r
    · subst hq
      rcases hs with hs | ⟨-, hs⟩
      · exact .inl (hP s q hs)
      · exact .inl (h s q hs)
    · rw [(hw s r).others q hq]
      exact hs.imp_right fun hs => ⟨(List.mem_cons.1 hs.1).resolve_left hq, hs.2⟩

end
end Sys2Proof.Machine
end

section
/-! SUPPORT. A cancellation (R26): what it ends in the regions of its partition, and what it leaves. -/

namespace Sys2Proof.Machine

/-- What a cancellation ends in some regions: units, then commands, then tasks. -/
def cancelRegions (set rs : List Nat) (s : State) : State :=
  rs.foldl (cancelTasks set) (rs.foldl (cancelQueues set) (rs.foldl (cancelUnits set) s))

/-- A saved region with the counters that are cancelled meanwhile (R26, R35). -/
def State.noteCancelled (s : State) (part : Nat) (set : List Nat) : State :=
  { s with saves := s.saves.map fun x =>
      if x.part = part && x.live then { x with cancelled := x.cancelled ++ set } else x }

theorem cancelAll_eq (s : State) (part h : Nat) : cancelAll s part h =
    (cancelRegions (cancelSet s part h) (regionsOf s part)
      (cancelParents part (cancelSet s part h) (cancelCounters part (cancelSet s part h) s))).noteCancelled part
        (cancelSet s part h) := rfl

theorem foldl_memoryOnly {α : Type} {f : State → α → State} (h : ∀ t x, memoryOnly t (f t x)) :
    ∀ (l : List α) (s : State), memoryOnly s (l.foldl f s)
  | [], s => .refl s
  | x :: l, s => (h s x).trans (foldl_memoryOnly h l (f s x))

section
variable (part : Nat) (set rs : List Nat) (s : State)

theorem cancelCounters_memoryOnly : memoryOnly s (cancelCounters part set s) :=
  foldl_memoryOnly (fun t h => ctrPut_memoryOnly t part h _) set s

/-- One child fewer for a counter that is not cancelled itself. -/
def cancelUp (u : State) (p : Nat) : State := if set.contains p then u else ctrDone u part p

/-- The parents of one cancelled counter. -/
def cancelParent (t : State) (h : Nat) : State :=
  let w := ctrGet t part h
  let u := cancelUp part set t (ctrParent w)
  if ctrLevel w = 1 then cancelUp part set u (ctrPhase w) else u

theorem cancelParents_eq : cancelParents part set s = set.foldl (cancelParent part set) s := rfl

theorem cancelUp_memoryOnly (u : State) (p : Nat) : memoryOnly u (cancelUp part set u p) := by
  unfold cancelUp
  split
  · exact .refl u
  · exact ctrDone_memoryOnly ..

theorem cancelParents_memoryOnly : memoryOnly s (cancelParents part set s) := by
  rw [cancelParents_eq]
  refine foldl_memoryOnly (fun t h => ?_) set s
  unfold cancelParent
  dsimp only
  split
  · exact (cancelUp_memoryOnly ..).trans (cancelUp_memoryOnly ..)
  · exact cancelUp_memoryOnly ..

/-! ### What a cancellation leaves of the machine -/

theorem cancelRegions_spread : State.Spread Region.part rs s (cancelRegions set rs s) := by
  refine ((State.Spread.part (foldl_spread (fun t r => cancelUnits_keeps t r set) rs s fun _ h => h) ?_).trans
    ((foldl_spread (fun t r => cancelQueues_keeps set r t) rs _ fun _ h => h).part ?_)).trans
    ((foldl_spread (fun t r => cancelTasks_keeps set t r) rs _ fun _ h => h).part ?_)
  · intro x y h
    have := congrArg Region.part h
    exact this
  · intro x y h
    have := congrArg (fun p => p.1.part) h
    exact this
  · intro x y h
    have := congrArg (fun p => p.1.part) h
    exact this

theorem cancelAll_spread (h : Nat) :
    State.Spread Region.part (regionsOf s part) s (cancelAll s part h) := by
  rw [cancelAll_eq]
  refine ((cancelCounters_memoryOnly part (cancelSet s part h) s).spread.trans
    (cancelParents_memoryOnly part (cancelSet s part h) _).spread).trans ((cancelRegions_spread (cancelSet s part h) (regionsOf s part) _).trans ?_)
  exact ⟨rfl, fun _ => rfl, fun _ => rfl, fun _ _ => rfl, fun _ => rfl⟩

/-- The regions that a cancellation leaves are those that the three steps leave, started with the same ones. -/
theorem cancelAll_region (h q : Nat) : ∃ u : State, (∀ q, u.region q = s.region q) ∧
    (cancelAll s part h).region q = (cancelRegions (cancelSet s part h) (regionsOf s part) u).region q :=
  ⟨_, fun q => ((cancelParents_memoryOnly ..).region q).trans ((cancelCounters_memoryOnly ..).region q), rfl⟩

/-! ### The units, commands and tasks that it ends -/

section
variable {set rs : List Nat} {s : State} {q : Nat}

theorem Region.island_of_unqueued (k : Nat) (x y : Region) (h : x.unqueued = y.unqueued) : x.island k = y.island k := by
  have := congrArg (fun p => p.1.islands) h
  exact congrArg (fun m => mapGet none m k) this

theorem Region.island_of_vacant (k : Nat) (x y : Region) (h : x.vacant = y.vacant) : x.island k = y.island k := by
  have := congrArg (fun p => p.1.islands) h
  exact congrArg (fun m => mapGet none m k) this

theorem Region.tasks_of_unitless (x y : Region) (h : x.unitless = y.unitless) : x.tasks = y.tasks := by
  have := congrArg Region.tasks h
  exact this

theorem Region.queueOf_of_unitless (e : Engine) (x y : Region) (h : x.unitless = y.unitless) :
    x.queueOf e = y.queueOf e := by
  have := congrArg (fun g : Region => g.queueOf e) h
  cases e <;> exact this

theorem cancelRegions_island (hq : q ∈ rs) {k u : Nat} {x : Island} (hk : (s.region q).island k = some x)
    (hx : x.unit = some u) (hu : u ∈ set) :
    ∃ y, ((cancelRegions set rs s).region q).island k = some y ∧ y.unit = none := by
  have hunits := foldl_region (P := fun g => ∃ y, g.island k = some y ∧ y.unit = none) (q := q)
    (fun t r => (cancelUnits_keeps t r set).toWithin) (fun t r h => cancelUnits_unitAtMost t r h set)
    (fun t r h => cancelUnits_none t r h set)
    (fun t r (h : unitAtMost k x (t.region r)) => h.elim (fun h => cancelUnits_island t r h hx hu)
      fun h => cancelUnits_none t r h set) rs s (.inr ⟨hq, .inl hk⟩)
  have hqueues := foldl_spread (fun t r => cancelQueues_keeps set r t) rs (rs.foldl (cancelUnits set) s) fun _ h => h
  have htasks := foldl_spread (fun t r => cancelTasks_keeps set t r) rs
    (rs.foldl (cancelQueues set) (rs.foldl (cancelUnits set) s)) fun _ h => h
  rw [cancelRegions, Region.island_of_vacant k _ _ (htasks.kept q), Region.island_of_unqueued k _ _ (hqueues.kept q)]
  exact hunits

/-- The commands of a region in a cancellation keep their order (R26). -/
theorem cancelRegions_queue (hq : q ∈ rs) {e : Engine} (hl : ((s.region q).queueOf e).length ≤ 16) :
    queueCounters (((cancelRegions set rs s).region q).queueOf e) =
      (queueCounters ((s.region q).queueOf e)).filter fun x => !set.contains x := by
  have hunits := foldl_spread (fun t r => cancelUnits_keeps t r set) rs s fun _ h => h
  have htasks := foldl_spread (fun t r => cancelTasks_keeps set t r) rs
    (rs.foldl (cancelQueues set) (rs.foldl (cancelUnits set) s)) fun _ h => h
  have hqueues := foldl_region (q := q) (step := cancelQueues set)
    (I := fun g => (g.queueOf e).length ≤ 16 ∧
      (queueCounters (g.queueOf e)).filter (fun x => !set.contains x) =
        (queueCounters ((s.region q).queueOf e)).filter fun x => !set.contains x)
    (P := fun g => (g.queueOf e).length ≤ 16 ∧ queueCounters (g.queueOf e) =
        (queueCounters ((s.region q).queueOf e)).filter fun x => !set.contains x)
    (fun t r => (cancelQueues_keeps set r t).toWithin) (fun t r h => ?_) (fun t r h => ?_) (fun t r h => ?_) rs
    (rs.foldl (cancelUnits set) s) (.inr ⟨hq, ?_⟩)
  · exact (congrFun (congrArg Prod.snd (htasks.kept q)) e).trans hqueues.2
  · exact ⟨(cancelQueues_length ..).trans h.1, by
      rw [cancelQueues_counters set r e t h.1, List.filter_filter]
      simpa using h.2⟩
  · refine ⟨(cancelQueues_length ..).trans h.1, ?_⟩
    rw [cancelQueues_counters set r e t h.1, h.2, List.filter_filter]
    simp
  · exact ⟨(cancelQueues_length ..).trans h.1, (cancelQueues_counters set r e t h.1).trans h.2⟩
  · rw [Region.queueOf_of_unitless e _ _ (hunits.kept q)]
    exact ⟨hl, rfl⟩

theorem Task.own_fields {x y : Task} (h : x.own = y.own) : x.hold = y.hold ∧ x.counter = y.counter ∧ x.pc = y.pc ∧
    ∀ d, x.get d = y.get d := by
  have hhold := congrArg Task.hold h
  have hcounter := congrArg Task.counter h
  have hpc := congrArg Task.pc h
  have hget := fun d => congrArg (fun m : Task => m.get d) h
  exact ⟨hhold, hcounter, hpc, hget⟩

theorem cancelRegions_before (set rs : List Nat) (s : State) (q n : Nat) :
    (((rs.foldl (cancelQueues set) (rs.foldl (cancelUnits set) s)).region q).task n).own = ((s.region q).task n).own := by
  have hunits := foldl_spread (fun t r => cancelUnits_keeps t r set) rs s fun _ h => h
  have hqueues := foldl_spread (fun t r => cancelQueues_keeps set r t) rs (rs.foldl (cancelUnits set) s) fun _ h => h
  have hsnd := congrFun (congrArg Prod.snd (hqueues.kept q)) n
  exact hsnd.trans (congrArg (fun m => (mapGet Task.zero m n).own) (Region.tasks_of_unitless _ _ (hunits.kept q)))

theorem cancelRegions_free (hq : q ∈ rs) {n : Nat} (hn : n < 8)
    (h : ((s.region q).task n).hold = .free ∨ ((s.region q).task n).counter ∈ set) :
    (((cancelRegions set rs s).region q).task n).hold = .free := by
  obtain ⟨hhold, hcounter, -, -⟩ := Task.own_fields (cancelRegions_before set rs s q n)
  refine foldl_region (step := cancelTasks set) (I := fun g => (g.task n).hold = .free ∨ (g.task n).counter ∈ set)
    (P := fun g => (g.task n).hold = .free)
    (fun t r => (cancelTasks_keeps set t r).toWithin) (fun t r h => .inl (cancelTasks_free set t r hn h))
    (fun t r h => cancelTasks_free set t r hn (.inl h)) (fun t r h => cancelTasks_free set t r hn h) rs _ (.inr ⟨hq, ?_⟩)
  rwa [hhold, hcounter]

theorem cancelRegions_task {n : Nat} (h : ((s.region q).task n).counter ∉ set) :
    (((cancelRegions set rs s).region q).task n).own = ((s.region q).task n).own := by
  have hb := cancelRegions_before set rs s q n
  rw [← hb, cancelRegions]
  have hcounter : (((rs.foldl (cancelQueues set) (rs.foldl (cancelUnits set) s)).region q).task n).counter ∉ set := by
    rwa [(Task.own_fields hb).2.1]
  generalize rs.foldl (cancelQueues set) (rs.foldl (cancelUnits set) s) = u at hcounter ⊢
  have hstep : ∀ (t : State) (r : Nat), (t.region r).task n = (u.region q).task n →
      ((cancelTasks set t r).region r).task n = (u.region q).task n := fun t r h => by
    rw [cancelTasks_task, h]
    rw [h, Task.ends]
    simp [hcounter]
  have := foldl_region (step := cancelTasks set) (I := fun g => g.task n = (u.region q).task n)
    (P := fun g => g.task n = (u.region q).task n) (q := q)
    (fun t r => (cancelTasks_keeps set t r).toWithin) hstep hstep hstep rs u (.inl rfl)
  exact congrArg Task.own this

end
end
end Sys2Proof.Machine
end

section
/-! SUPPORT. The counter words after a cancellation (R24, R26). -/

namespace Sys2Proof.Machine

/-- The word of a cancelled counter: COUNT = 0, CANC = 1, OPEN = 0. -/
def ctrCancelled (w : Nat) : Nat := setBits (setBits (setBits w 31 0 0) 60 60 1) 59 59 0

theorem ctrCancelled_fields {w : Nat} (hw : w < 2 ^ 64) :
    ctrCancelled w < 2 ^ 64 ∧ ctrCancelled w % 2 ^ 32 = 0 ∧ ctrCancelled w / 2 ^ 60 % 2 = 1 ∧
      ctrCancelled w / 2 ^ 59 % 2 = 0 ∧ ctrCancelled w / 2 ^ 61 = w / 2 ^ 61 ∧
      ctrCancelled w / 2 ^ 32 % 2 ^ 27 = w / 2 ^ 32 % 2 ^ 27 := by
  have h1 : setBits w 31 0 0 = w / 2 ^ 32 * 2 ^ 32 := by
    unfold setBits nbits
    omega
  have h2 : setBits (w / 2 ^ 32 * 2 ^ 32) 60 60 1 =
      w / 2 ^ 61 * 2 ^ 61 + 2 ^ 60 + w / 2 ^ 32 % 2 ^ 28 * 2 ^ 32 := by
    unfold setBits nbits
    omega
  have h3 : ctrCancelled w = w / 2 ^ 61 * 2 ^ 61 + 2 ^ 60 + w / 2 ^ 32 % 2 ^ 27 * 2 ^ 32 := by
    rw [ctrCancelled, h1, h2]
    unfold setBits nbits
    omega
  rw [h3]
  omega

/-- The names in a cancelled counter's word stay. -/
theorem ctrCancelled_names {w : Nat} (hw : w < 2 ^ 64) : ctrLevel (ctrCancelled w) = ctrLevel w ∧
    ctrParent (ctrCancelled w) = ctrParent w ∧ ctrPhase (ctrCancelled w) = ctrPhase w := by
  obtain ⟨-, -, -, -, h1, h2⟩ := ctrCancelled_fields hw
  unfold ctrLevel ctrParent ctrPhase nbits
  omega

section
variable {part : Nat} {set : List Nat} {s : State}

theorem cancelCounters_cons (x : Nat) : cancelCounters part (x :: set) s =
    cancelCounters part set (ctrPut s part x (ctrCancelled (ctrGet s part x))) := by
  unfold cancelCounters ctrCancelled
  rw [List.foldl_cons]

theorem ctrGet_cancelCounters (hd : set.Nodup) (hl : ∀ x ∈ set, x < 4096) {k : Nat} (hk : k < 4096) :
    ctrGet (cancelCounters part set s) part k =
      if k ∈ set then ctrCancelled (ctrGet s part k) else ctrGet s part k := by
  induction set generalizing s with
  | nil => rfl
  | cons x set ih =>
    obtain ⟨hx, hd⟩ := List.nodup_cons.1 hd
    have hxl := hl x List.mem_cons_self
    have ih' := ih (s := ctrPut s part x (ctrCancelled (ctrGet s part x))) hd
      fun y hy => hl y (List.mem_cons_of_mem _ hy)
    rw [cancelCounters_cons, ih']
    by_cases h : k = x
    · subst h
      rw [if_neg hx, if_pos List.mem_cons_self, ctrGet_ctrPut, Nat.mod_eq_of_lt (ctrCancelled_fields (ctrGet_lt ..)).1]
    · rw [ctrGet_ctrPut_ne s part _ (by rwa [Nat.mod_eq_of_lt hk, Nat.mod_eq_of_lt hxl])]
      simp [h]

theorem cancelUp_inside {p : Nat} (h : p = 0 ∨ p ∈ set) (u : State) : cancelUp part set u p = u := by
  unfold cancelUp
  rcases h with rfl | h
  · rw [ctrDone_zero, ite_self]
  · rw [if_pos (List.contains_iff_mem.2 h)]

/-- No counter outside loses a child when every parent is cancelled itself. -/
theorem cancelParents_inside (h : ∀ y ∈ set, (ctrParent (ctrGet s part y) = 0 ∨ ctrParent (ctrGet s part y) ∈ set) ∧
    (ctrLevel (ctrGet s part y) = 1 → ctrPhase (ctrGet s part y) = 0 ∨ ctrPhase (ctrGet s part y) ∈ set)) :
    cancelParents part set s = s := by
  rw [cancelParents_eq]
  refine foldl_eq_self _ fun y hy => ?_
  obtain ⟨hp, hph⟩ := h y hy
  unfold cancelParent
  dsimp only
  rw [cancelUp_inside hp]
  split
  · next hl => rw [cancelUp_inside (hph hl)]
  · rfl

end

/-! ### Regions with nothing to cancel -/

/-- A region without commands, islands or tasks of some counters. -/
def Region.calm (set : List Nat) (g : Region) : Prop :=
  g.copyq = [] ∧ g.mergeq = [] ∧ g.pipeq = [] ∧ g.islands = [] ∧
    ∀ n, n < 8 → (g.task n).hold ≠ .free → (g.task n).counter ∉ set

section
variable {set rs : List Nat} {s : State}

theorem Region.calm.ends {g : Region} (h : g.calm set) {n : Nat} (hn : n < 8) : (g.task n).ends set = false := by
  obtain ⟨-, -, -, -, h⟩ := h
  simpa [Task.ends] using h n hn

theorem cancelUnits_calm {r : Nat} (h : (s.region r).calm set) : cancelUnits set s r = s := by
  obtain ⟨-, -, -, hi, -⟩ := h
  rw [cancelUnits_eq, hi]
  rfl

theorem cancelQueues_calm {r : Nat} (h : (s.region r).calm set) : cancelQueues set s r = s := by
  obtain ⟨hc, hm, hp, -⟩ := h
  have hq : ∀ e, ∀ c ∈ (s.region r).queueOf e, c.counter ∉ set := fun e c hc' => by
    cases e
    · exact absurd hc' (by rw [show (s.region r).queueOf .copy = [] from hc]; exact List.not_mem_nil)
    · exact absurd hc' (by rw [show (s.region r).queueOf .merge = [] from hm]; exact List.not_mem_nil)
    · exact absurd hc' (by rw [show (s.region r).queueOf .attention = [] from hp]; exact List.not_mem_nil)
  rw [cancelQueues, cancelQueue_none _ _ _ _ (hq .copy), cancelQueue_none _ _ _ _ (hq .merge),
    cancelQueue_none _ _ _ _ (hq .attention)]

theorem cancelTasks_calm_only {r : Nat} (h : (s.region r).calm set) :
    sameMemory s (cancelTasks set s r) ∧ ∀ q, (s.region q).calm set → ((cancelTasks set s r).region q).calm set := by
  rw [cancelTasks_calm set s r fun n hn => h.ends hn]
  refine ⟨s.setRegion_sameMemory r _, fun q hq => ?_⟩
  by_cases e : q = r
  · subst e
    rw [State.region_setRegion]
    exact hq
  · rwa [State.region_setRegion_ne _ _ e]

/-- A cancellation changes no byte by its regions when they have nothing to cancel. -/
theorem cancelRegions_calm (h : ∀ r ∈ rs, (s.region r).calm set) : sameMemory s (cancelRegions set rs s) := by
  rw [cancelRegions, foldl_eq_self _ fun r hr => cancelUnits_calm (h r hr),
    foldl_eq_self _ fun r hr => cancelQueues_calm (h r hr)]
  refine (List.foldlRecOn (motive := fun t : State => sameMemory s t ∧ ∀ r ∈ rs, (t.region r).calm set) rs
    (cancelTasks set) ⟨.refl s, h⟩ fun t ht r hr => ?_).1
  obtain ⟨h1, h2⟩ := cancelTasks_calm_only (ht.2 r hr)
  exact ⟨ht.1.trans h1, fun q hq => h2 q (ht.2 q hq)⟩

end

/-- The words of the counters after a cancellation of a partition whose regions have nothing to cancel, with every parent
inside. -/
theorem cancelAll_words {s : State} {part h : Nat} (hc : ∀ r ∈ regionsOf s part, (s.region r).calm (cancelSet s part h))
    (hp : ∀ y ∈ cancelSet s part h,
      (ctrParent (ctrGet s part y) = 0 ∨ ctrParent (ctrGet s part y) ∈ cancelSet s part h) ∧
      (ctrLevel (ctrGet s part y) = 1 →
        ctrPhase (ctrGet s part y) = 0 ∨ ctrPhase (ctrGet s part y) ∈ cancelSet s part h)) {k : Nat} (hk : k < 4096) :
    (cancelAll s part h).word (ctrAddr s part k) =
      if k ∈ cancelSet s part h then ctrCancelled (ctrGet s part k) else ctrGet s part k := by
  have hd : (cancelSet s part h).Nodup := by
    unfold cancelSet
    exact (List.nodup_range.filter _)
  have hl : ∀ x ∈ cancelSet s part h, x < 4096 := fun x hx => by
    have := (List.mem_filter.1 hx).1
    exact List.mem_range.1 this
  rw [cancelAll_eq]
  generalize cancelSet s part h = set at *
  have hget : ∀ {k}, k < 4096 → ctrGet (cancelCounters part set s) part k = _ := ctrGet_cancelCounters hd hl
  have hmem := cancelCounters_memoryOnly part set s
  have hin : cancelParents part set (cancelCounters part set s) = cancelCounters part set s := by
    refine cancelParents_inside fun y hy => ?_
    obtain ⟨h1, h2, h3⟩ := ctrCancelled_names (ctrGet_lt s part y)
    rw [hget (hl y hy), if_pos hy, h1, h2, h3]
    exact hp y hy
  rw [hin, ← hget hk, ← hmem.word]
  exact (cancelRegions_calm fun r hr => by rw [hmem.region]; exact hc r hr).word _

end Sys2Proof.Machine
end

section
/-! SUPPORT. `cancel` itself (R274): the status is in d before the cancellation. -/

namespace Sys2Proof.Machine

/-- The machine before a cancellation, its status in d. -/
structure Answered (s t : State) : Prop where
  only : onlyMe s t
  memory : sameMemory s t
  hold : t.me.hold = s.me.hold
  counter : t.me.counter = s.me.counter
  region : ∀ q, (∀ n, s.cur ≠ .seq q n) → t.region q = s.region q

theorem State.region_setMe_other {s : State} {q : Nat} (h : ∀ n, s.cur ≠ .seq q n) (m : Task) :
    (s.setMe m).region q = s.region q := by
  rw [State.setMe]
  cases hc : s.cur with
  | stew c => rfl
  | seq r n =>
    refine s.region_setRegion_ne _ fun e => h n ?_
    rw [hc, e]

theorem State.status_answered (s : State) (d : BitVec 5) (code value : Nat) : Answered s (s.status d code value) := by
  obtain ⟨-, -, hm, ho, hs⟩ := s.status_retires d code value
  exact ⟨ho, hs, by rw [hm]; exact Task.set_hold .., by rw [hm]; exact Task.set_counter ..,
    fun q hq => State.region_setMe_other hq _⟩

section
variable {s t : State} 

theorem Answered.task (h : Answered s t) (c : CoreId) :
    (t.task c).hold = (s.task c).hold ∧ (t.task c).counter = (s.task c).counter := by
  by_cases e : c = s.cur
  · have hc := h.only.cur
    subst e
    rw [← hc]
    refine ⟨h.hold.trans ?_, h.counter.trans ?_⟩ <;> rw [hc] <;> rfl
  · rw [h.only.2.1 c e]
    exact ⟨rfl, rfl⟩

theorem Answered.frame (h : Answered s t) (q : Nat) : { t.region q with tasks := [] } = { s.region q with tasks := [] } :=
  h.only.2.2.1 q

theorem Answered.part (h : Answered s t) (q : Nat) : (t.region q).part = (s.region q).part := by
  have := congrArg Region.part (h.frame q)
  exact this

theorem Answered.islands (h : Answered s t) (q : Nat) : (t.region q).islands = (s.region q).islands := by
  have := congrArg Region.islands (h.frame q)
  exact this

theorem Answered.queueOf (h : Answered s t) (q : Nat) (e : Engine) : (t.region q).queueOf e = (s.region q).queueOf e := by
  have := congrArg (fun g : Region => g.queueOf e) (h.frame q)
  cases e <;> exact this

theorem Answered.sameCtrAddr (h : Answered s t) (part k : Nat) : ctrAddr t part k = ctrAddr s part k := by
  have := congrArg (fun u : State => ctrAddr u part k) h.only.1
  exact this

theorem Answered.sameCtrGet (h : Answered s t) (part k : Nat) : ctrGet t part k = ctrGet s part k := by
  rw [ctrGet, h.sameCtrAddr, h.memory.word, ctrGet]

end

/-- A region that reads as anything but the one of a reset is among those of its partition. -/
theorem mem_regionsOf {s : State} {part r : Nat} :
    r ∈ regionsOf s part ↔ r ∈ s.regions.map (fun p => p.1) ∧ (s.region r).part = part := by
  rw [regionsOf, List.mem_filter, decide_eq_true_eq]

theorem regionsOf_or_zero {s : State} {part r : Nat} (h : (s.region r).part = part) :
    r ∈ regionsOf s part ∨ s.region r = Region.zero := by
  by_cases hz : s.region r = Region.zero
  · exact .inr hz
  · exact .inl (mem_regionsOf.2 ⟨mem_keys_of_mapGet_ne hz, h⟩)

theorem mem_endingUnits {s : State} {part x : Nat} : x ∈ endingUnits s part ↔
    ∃ r, (s.region r).part = part ∧ ∃ p ∈ (s.region r).islands, (match p.2 with
      | some i => if i.trips = 0 && i.held = none then i.unit else none
      | none => none) = some x := by
  simp only [endingUnits, List.mem_flatMap, List.mem_filterMap]
  constructor
  · rintro ⟨r, hr, h⟩
    exact ⟨r, (mem_regionsOf.1 hr).2, h⟩
  · rintro ⟨r, hr, p, hp, h⟩
    rcases regionsOf_or_zero hr with hm | hz
    · exact ⟨r, hm, p, hp, h⟩
    · rw [hz] at hp
      exact absurd hp List.not_mem_nil

theorem ctrUnder_congr {s t : State} {part : Nat} (h : ∀ k, ctrGet t part k = ctrGet s part k) (top f k : Nat) :
    ctrUnder t part top f k = ctrUnder s part top f k := by
  induction f generalizing k with
  | zero => rfl
  | succ f ih => simp only [ctrUnder, h, ih]

theorem Answered.sameCancelSet {s t : State} (h : Answered s t) (part k : Nat) : cancelSet t part k = cancelSet s part k := by
  unfold Machine.cancelSet
  dsimp only
  refine List.filter_congr fun x _ => ?_
  have he : (endingUnits t part).contains x = (endingUnits s part).contains x := by
    rw [Bool.eq_iff_iff, List.contains_iff_mem, List.contains_iff_mem, mem_endingUnits, mem_endingUnits]
    simp only [h.part, h.islands]
  rw [h.sameCtrGet, ctrUnder_congr (h.sameCtrGet part), he]

theorem mem_upTo_4096 {s : State} {part h y : Nat} (hy : y ∈ Machine.cancelSet s part h) : y < 4096 := by
  have := (List.mem_filter.1 hy).1
  exact List.mem_range.1 this

end Sys2Proof.Machine
end

section
/-! SUPPORT. A cancellation, started from the state in which its status is in d (R26, R274). -/

namespace Sys2Proof.Machine

section
variable {s t : State} {part h : Nat} (ha : Answered s t)
include ha

theorem Answered.cancel_task {r n : Nat} (hn : n < 8) (hp : (s.region r).part = part)
    (hf : ((s.region r).task n).hold ≠ .free) (hc : ((s.region r).task n).counter ∈ cancelSet s part h) :
    (((cancelAll t part h).region r).task n).hold = .free := by
  obtain ⟨hhold, hcounter⟩ := ha.task (.seq r n)
  obtain ⟨u, hu, he⟩ := cancelAll_region part t h r
  rcases regionsOf_or_zero ((ha.part r).trans hp) with hr | hz
  · rw [he]
    refine cancelRegions_free hr hn (.inr ?_)
    rw [hu, ha.sameCancelSet]
    exact hcounter ▸ hc
  · refine absurd (hhold.symm.trans ?_) hf
    show ((t.region r).task n).hold = .free
    rw [hz]
    rfl

theorem Answered.cancel_island {r k u : Nat} {x : Island} (hp : (s.region r).part = part)
    (hk : (s.region r).island k = some x) (hx : x.unit = some u) (hu : u ∈ cancelSet s part h) :
    ∃ y, ((cancelAll t part h).region r).island k = some y ∧ y.unit = none := by
  have hk' : (t.region r).island k = some x := by
    rw [Region.island, ha.islands]
    exact hk
  obtain ⟨v, hv, he⟩ := cancelAll_region part t h r
  rcases regionsOf_or_zero ((ha.part r).trans hp) with hr | hz
  · rw [he]
    exact cancelRegions_island hr (by rw [hv]; exact hk') hx (by rw [ha.sameCancelSet]; exact hu)
  · rw [hz] at hk'
    exact nomatch hk'

theorem Answered.cancel_queue {r : Nat} (hp : (s.region r).part = part) (e : Engine)
    (hl : ((s.region r).queueOf e).length ≤ 16) :
    queueCounters (((cancelAll t part h).region r).queueOf e) =
      (queueCounters ((s.region r).queueOf e)).filter fun x => !(cancelSet s part h).contains x := by
  obtain ⟨v, hv, he⟩ := cancelAll_region part t h r
  by_cases hr : r ∈ regionsOf t part
  · rw [he, cancelRegions_queue hr (by rw [hv, ha.queueOf]; exact hl), hv, ha.queueOf, ha.sameCancelSet]
  · have hz := (regionsOf_or_zero ((ha.part r).trans hp)).resolve_left hr
    rw [(cancelAll_spread part t h).others r hr, ← ha.queueOf, hz]
    cases e <;> rfl

theorem Answered.cancel_region (hc : s.partOf s.cur = part) {r : Nat} (hp : (s.region r).part ≠ part) :
    (cancelAll t part h).region r = s.region r := by
  have hr : r ∉ regionsOf t part := fun hr => hp ((ha.part r).symm.trans (mem_regionsOf.1 hr).2)
  rw [(cancelAll_spread part t h).others r hr]
  refine ha.region r fun n e => hp ?_
  rw [← hc, e]
  rfl

theorem Answered.cancel_stew {c : Nat} (hc : s.cur = .stew c) : (cancelAll t part h).me = t.me := by
  have hs := cancelAll_spread part t h
  have hcur : t.cur = .stew c := ha.only.cur.trans hc
  rw [State.me, State.me, hs.cur, hcur]
  have := congrArg Steward.task (hs.stews c)
  exact this

theorem Answered.cancel_me (hn : s.me.counter ∉ cancelSet s part h) :
    (cancelAll t part h).me.pc = t.me.pc ∧ ∀ d, (cancelAll t part h).reg d = t.me.get d := by
  cases hc : s.cur with
  | stew c =>
    rw [ha.cancel_stew hc]
    refine ⟨rfl, fun d => ?_⟩
    rw [State.reg, ha.cancel_stew hc]
  | seq r n =>
    have hcur : t.cur = .seq r n := ha.only.cur.trans hc
    have hme : t.me = (t.region r).task n := State.me_seq hcur
    obtain ⟨v, hv, he⟩ := cancelAll_region part t h r
    have hme' : (cancelAll t part h).me = ((cancelAll t part h).region r).task n :=
      State.me_seq ((cancelAll_spread part t h).cur.trans hcur)
    have hout : ((v.region r).task n).counter ∉ cancelSet t part h := by
      rw [hv, ← hme, ha.counter, ha.sameCancelSet]
      exact hn
    obtain ⟨-, -, hpc, hget⟩ := Task.own_fields (cancelRegions_task (rs := regionsOf t part) hout)
    rw [← he, ← hme', hv, ← hme] at hpc hget
    exact ⟨hpc, hget⟩

theorem Answered.cancel_words (hr : ∀ r, (s.region r).part = part → (s.region r).calm (cancelSet s part h))
    (hp : ∀ y ∈ cancelSet s part h, (ctrParent (ctrGet s part y) = 0 ∨ ctrParent (ctrGet s part y) ∈ cancelSet s part h) ∧
      (ctrLevel (ctrGet s part y) = 1 →
        ctrPhase (ctrGet s part y) = 0 ∨ ctrPhase (ctrGet s part y) ∈ cancelSet s part h)) {k : Nat} (hk : k < 4096) :
    (cancelAll t part h).word (ctrAddr s part k) =
      if k ∈ cancelSet s part h then ctrCancelled (ctrGet s part k) else ctrGet s part k := by
  have hcalm : ∀ r ∈ regionsOf t part, (t.region r).calm (cancelSet t part h) := fun r hm => by
    obtain ⟨h1, h2, h3, h4, h5⟩ := hr r ((ha.part r).symm.trans (mem_regionsOf.1 hm).2)
    rw [ha.sameCancelSet]
    refine ⟨(ha.queueOf r .copy).trans h1, (ha.queueOf r .merge).trans h2, (ha.queueOf r .attention).trans h3,
      (ha.islands r).trans h4, fun n hn => ?_⟩
    obtain ⟨hhold, hcounter⟩ := ha.task (.seq r n)
    have := h5 n hn
    rwa [← show ((t.region r).task n).hold = ((s.region r).task n).hold from hhold,
      ← show ((t.region r).task n).counter = ((s.region r).task n).counter from hcounter] at this
  have hw := cancelAll_words hcalm (by simpa only [ha.sameCtrGet, ha.sameCancelSet] using hp) hk
  rwa [ha.sameCtrAddr, ha.sameCtrGet, ha.sameCancelSet] at hw

end

/-- A cancellation that no condition refuses. -/
theorem exec_cancel {s : State} {d : BitVec 5} {l : BitVec 3} {h : BitVec 12}
    (hr : cancelRefusal s (s.partOf s.cur) l.toNat h.toNat = none) :
    exec (.cancel d l h) s = .next (cancelAll (s.status d stOK 0) (s.partOf s.cur) h.toNat) := by
  show execCancel d l h s = _
  rw [execCancel, hr]

theorem exec_cancel_refused {s : State} {d : BitVec 5} {l : BitVec 3} {h : BitVec 12} {code : Nat} (hcode : code < 256)
    (hr : cancelRefusal s (s.partOf s.cur) l.toNat h.toNat = some code) :
    ∃ t, exec (.cancel d l h) s = .next t ∧ retires s t 4 d (BitVec.ofNat 64 code) 0 := by
  refine ⟨s.status d code 0, ?_, ?_⟩
  · show execCancel d l h s = _
    rw [execCancel, hr]
  · rw [← statusWord_code hcode]
    exact s.status_retires d code 0

/-- R27: what refuses a cancellation, in the words of the table. -/
theorem cancelRefusal_eq (s : State) (part level : Nat) (h : BitVec 12) : cancelRefusal s part level h.toNat =
    if h = 0 ∨ s.word (ctrAddr s part h.toNat) / 2 ^ 61 % 8 ≥ 5 then some 5
    else if s.word (ctrAddr s part h.toNat) % 2 ^ 32 = 0 then some 3
    else if s.word (ctrAddr s part h.toNat) / 2 ^ 61 % 8 ≠ level then some 4
    else none := by
  unfold cancelRefusal
  rw [ctrCount_eq, ctrLevel_eq, ctrGet]
  by_cases hb : ctrBad s part h.toNat = true
  · rw [if_pos hb, if_pos ((ctrBad_handle ..).1 hb)]
    rfl
  · rw [if_neg hb, if_neg fun e => hb ((ctrBad_handle ..).2 e)]
    rfl

end Sys2Proof.Machine
end

section
/-! SUPPORT. The waits on a counter (R274), and a unit that completes (R137). -/

namespace Sys2Proof.Machine

section
variable {s : State} {d : BitVec 5} {h : BitVec 12}

/-- R274: a wait on a counter at zero. -/
theorem waitcStep_zero (hw : s.word (ctrAddr s (s.partOf s.cur) h.toNat) % 2 ^ 32 = 0) :
    ends s (waitcStep d h s) { s.me.set d
      (if s.word (ctrAddr s (s.partOf s.cur) h.toNat) / 2 ^ 60 % 2 = 1 then 7 else 0) with
        pc := s.me.pc + 4, hold := .ready } := by
  unfold waitcStep
  rw [if_neg (by rw [ctrCount_eq, ctrGet]; exact not_not.2 hw), ctrCanc_eq, ctrGet]
  by_cases hc : s.word (ctrAddr s (s.partOf s.cur) h.toNat) / 2 ^ 60 % 2 = 1
  · rw [decide_eq_true hc, if_pos rfl, if_pos hc]
    exact s.answer_ends d (code := 7) (by decide)
  · rw [decide_eq_false hc, if_neg (by decide), if_neg hc]
    exact s.answer_ends d (code := 0) (by decide)

/-- R274: a wait on a counter with children. -/
theorem waitcStep_waits (hw : s.word (ctrAddr s (s.partOf s.cur) h.toNat) % 2 ^ 32 ≠ 0) :
    ends s (waitcStep d h s) { s.me with hold := .wait (.waitc d h) } := by
  unfold waitcStep
  rw [if_pos (by rw [ctrCount_eq, ctrGet]; exact hw)]
  exact (ends.refl s).holdMe _

theorem exec_waitc_bad (hb : h = 0 ∨ s.word (ctrAddr s (s.partOf s.cur) h.toNat) / 2 ^ 61 % 8 ≥ 5) :
    exec (.waitc d h) s = .next (s.answer d stBADHANDLE 0) := by
  show execWaitc d h s = _
  rw [execWaitc, if_pos ((ctrBad_handle ..).2 hb)]

theorem exec_waitc_good (h0 : h ≠ 0) (hl : s.word (ctrAddr s (s.partOf s.cur) h.toNat) / 2 ^ 61 % 8 < 5) :
    exec (.waitc d h) s = .next (waitcStep d h s) := by
  show execWaitc d h s = _
  rw [execWaitc, if_neg fun e => ?_]
  rcases (ctrBad_handle ..).1 e with e | e
  · exact h0 e
  · omega

theorem exec_waitcRelease_wait {c : CoreId} (hw : (s.task c).hold = .wait (.waitc d h)) :
    exec (.waitcRelease c) s = .next (waitcStep d h { s with cur := c }) := by
  show execWaitcRelease c s = _
  rw [execWaitcRelease, hw]

theorem exec_waitcRelease_counted {c : CoreId} {seen : Bool} (hw : (s.task c).hold = .counted (.waitc d h) seen) :
    exec (.waitcRelease c) s = .next ({ s with cur := c }.answer d (if seen then stCANCELLED else stOK) 0) := by
  show execWaitcRelease c s = _
  rw [execWaitcRelease, hw]

end

/-! ### UNIT_COMPLETE -/

/-- A region but for its elements, the positions of its logs and its suspects. -/
def Region.unsuspected (g : Region) : Region := { g.plain with suspect := [] }

theorem Region.unsuspected_of_plain (x y : Region) (h : x.plain = y.plain) : x.unsuspected = y.unsuspected := by
  unfold Region.unsuspected
  rw [h]

theorem clearSuspects_keeps (r : Nat) (l : List Nat) (s : State) :
    State.Keeps Region.unsuspected r s (clearSuspects s r l) := by
  induction l generalizing s with
  | nil => exact .refl ..
  | cons e l ih =>
    unfold clearSuspects
    dsimp only
    split
    · refine State.Keeps.trans ?_ (ih _)
      refine State.Keeps.trans ?_ ((keeps_of_shows (countTransient_shows ..)).part fun x y h =>
        Region.unsuspected_of_plain x y (Region.plain_of_quiet x y h))
      exact State.setRegion_keeps s rfl
    · exact ih s

theorem Region.island_of_unsuspected (k : Nat) (x y : Region) (h : x.unsuspected = y.unsuspected) :
    x.island k = y.island k := by
  have := congrArg Region.islands h
  exact congrArg (fun m => mapGet none m k) this

theorem exec_unitComplete {s : State} {r k u : Nat} {x : Island} (hk : (s.region r).island k = some x)
    (hu : x.unit = some u) (ho : unitOver (s.region r) x = true) :
    ∃ v, State.Keeps Region.unsuspected r s v ∧
      exec (.unitComplete r k) s = .next (ctrDone (finishUnit v r k 0) (s.region r).part u) := by
  refine ⟨clearSuspects (x.cells.foldl (fun t e => closeElement t r e 0) s) r x.cells, ?_, ?_⟩
  rotate_left 1
  · show execUnitComplete r k s = _
    unfold execUnitComplete
    dsimp only
    rw [hk]
    dsimp only
    rw [hu]
    dsimp only
    rw [ho]
    rfl
  · exact ((foldl_keeps (fun t e => closeElement_keeps t r e 0) _ s).part Region.unsuspected_of_plain).trans
      (clearSuspects_keeps ..)

theorem Island.finished_eq {x : Island} (h : x.hit = 0) : x.finished =
    { x with unit := none, trips := 0, held := none, watch := 0, stalled := false, charges := Charges.zero } := by
  unfold Island.finished
  rw [h]

theorem unitOver_hit {g : Region} {x : Island} (h : unitOver g x = true) : x.hit = 0 := by
  unfold unitOver at h
  simp only [Bool.and_eq_true, decide_eq_true_eq] at h
  exact h.1.2

end Sys2Proof.Machine

namespace Sys2Proof.Settled

open Sys2Proof.Machine

/-- Settles O35: the waits read one counter word; a cancellation is three folds over the regions of the partition, each of
which keeps what the others end; a unit that completes is one `finishUnit`. -/
theorem waitAndCancelResult : Obligations.WaitAndCancelResult := by
  intro s d h
  dsimp only
  refine ⟨?_, fun c seen hs => ?_, fun hb => ?_, fun level => ?_, fun level h0 hrun hlevel hl5 => ?_, fun r k x u hk hu ho => ?_⟩
  · rintro c i u (⟨rfl, rfl, rfl⟩ | ⟨hw, rfl, rfl⟩) h0 hl
    · exact ⟨_, exec_waitc_good h0 hl, waitcStep_zero, waitcStep_waits⟩
    · exact ⟨_, exec_waitcRelease_wait hw, waitcStep_zero (s := { s with cur := c }),
        waitcStep_waits (s := { s with cur := c })⟩
  · refine ⟨_, exec_waitcRelease_counted hs, ?_⟩
    cases seen
    · exact State.answer_ends { s with cur := c } d (code := 0) (by decide)
    · exact State.answer_ends { s with cur := c } d (code := 7) (by decide)
  · exact ⟨_, exec_waitc_bad hb, s.answer_ends d (code := 5) (by decide)⟩
  · have hr := cancelRefusal_eq s (s.partOf s.cur) level.toNat h
    refine ⟨fun hb => ?_, fun h0 hl hz => ?_, fun h0 hl hn hne => ?_⟩
    · rw [if_pos hb] at hr
      exact exec_cancel_refused (by decide) hr
    · rw [if_neg (by rintro (e | e); exacts [h0 e, by omega]), if_pos hz] at hr
      exact exec_cancel_refused (by decide) hr
    · rw [if_neg (by rintro (e | e); exacts [h0 e, by omega]), if_neg hn, if_pos hne] at hr
      exact exec_cancel_refused (by decide) hr
  · have hr := cancelRefusal_eq s (s.partOf s.cur) level.toNat h
    rw [if_neg (by rintro (e | e); exacts [h0 e, by omega]), if_neg hrun, if_neg (not_not.2 hlevel)] at hr
    have ha := s.status_answered d stOK 0
    have hme : (s.status d stOK 0).me = { s.me.set d 0 with pc := s.me.pc + 4 } :=
      ((ends.refl s).status d stOK 0).me
    refine ⟨_, exec_cancel hr, fun r n hn hp hf hc => ha.cancel_task hn hp hf hc,
      fun r k x u hp hk hx hu => ha.cancel_island hp hk hx hu, fun r hp h1 h2 h3 => ?_,
      fun r hp => ha.cancel_region rfl hp, fun c hc => (ha.cancel_stew hc).trans hme, fun hn => ?_, fun hcalm hpar => ?_⟩
    · exact ⟨ha.cancel_queue hp .copy h1, ha.cancel_queue hp .merge h2, ha.cancel_queue hp .attention h3⟩
    · obtain ⟨hpc, hget⟩ := ha.cancel_me hn
      rw [hpc]
      refine ⟨by rw [hme], fun q => ?_⟩
      rw [hget, hme]
      rfl
    · have hw := fun {k} hk => ha.cancel_words (k := k) hcalm hpar hk
      refine ⟨fun y hy => ?_, fun y hy hn => ?_⟩
      · rw [hw (mem_upTo_4096 hy), if_pos hy]
        obtain ⟨-, h1, h2, h3, h4, -⟩ := ctrCancelled_fields (ctrGet_lt s (s.partOf s.cur) y)
        exact ⟨h1, h2, h3, h4⟩
      · rw [hw hy, if_neg hn]
        rfl
  · obtain ⟨v, hv, he⟩ := exec_unitComplete hk hu ho
    have hvk : (v.region r).island k = some x := (Region.island_of_unsuspected k _ _ hv.kept).trans hk
    have hm := ctrDone_memoryOnly (finishUnit v r k 0) (s.region r).part u
    have hf := finishUnit_keeps v r k 0
    refine ⟨_, he, ?_, fun j hj => ?_, fun q hq => ?_, ?_⟩
    · rw [hm.region, finishUnit_island v r hvk (by rw [hu]; exact Option.some_ne_none u), Island.finished_eq (unitOver_hit ho)]
    · rw [hm.region, finishUnit_island_ne v r hj]
      exact Region.island_of_unsuspected j _ _ hv.kept
    · rw [hm.region, hf.others q hq, hv.others q hq]
    · rw [hm.region, Region.tasks_of_unitless _ _ hf.kept]
      have := congrArg Region.tasks hv.kept
      exact this

end Sys2Proof.Settled
end

section
/-! SUPPORT. Resets (R190): the partition and the tasks of its regions. -/

namespace Sys2Proof.Machine

section
variable (s : State) (p : Nat)

/-- A partition whose state changes, but for the vectors that this sends (R188, R190). -/
theorem setPartState_part {st : Nat} (h4 : st ≠ 4) (reason : Nat) :
    ((setPartState s p st reason).part p).quiet = ({ s.part p with state := st } : Partition).quiet := by
  have hset := congrArg Partition.quiet (State.part_setPart s p
    { s.part p with state := st, reason := if st = 4 then reason else (s.part p).reason })
  rw [if_neg h4] at hset
  unfold setPartState
  simp only [if_neg h4]
  refine Eq.trans ?_ hset
  generalize s.setPart p _ = t
  have hs : ∀ u : State, (sendVector u p 2).shows 0 = u.shows 0 := fun u => sendVector_shows 0 u p 2
  have hw : (match statusPage t p with
      | none => t
      | some a => t.write a (natToLe st 4)).shows 0 = t.shows 0 := by
    split
    · rfl
    · exact State.write_shows ..
  refine (within_of_shows (r := 0) ?_).parts p
  split
  · exact hw
  · exact (hs _).trans hw

theorem setPartState_sameCores {st : Nat} (h4 : st ≠ 4) (reason : Nat) : sameCores s (setPartState s p st reason) := by
  unfold setPartState
  simp only [if_neg h4]
  have ht : sameCores s (s.setPart p { s.part p with state := st }) := ⟨rfl, rfl, rfl⟩
  refine ht.trans ?_
  generalize s.setPart p _ = t
  have hw : sameCores t (match statusPage t p with
      | none => t
      | some a => t.write a (natToLe st 4)) := by
    split
    · exact .refl t
    · exact State.write_sameCores ..
  split
  · exact hw
  · exact hw.trans (sendVector_sameCores ..)

/-- R190: the counters of a partition, cancelled one after another. -/
theorem cancelPartition_keeps : (∀ q, ((cancelPartition s p).part q).quiet = (s.part q).quiet) ∧
    ∀ q, ((cancelPartition s p).region q).part = (s.region q).part := by
  unfold cancelPartition
  refine List.foldlRecOn (motive := fun t : State => (∀ q, (t.part q).quiet = (s.part q).quiet) ∧
    ∀ q, (t.region q).part = (s.region q).part) _ _ ⟨fun _ => rfl, fun _ => rfl⟩ fun t ⟨h1, h2⟩ h _ => ?_
  split
  · exact ⟨h1, h2⟩
  · have hc := cancelAll_spread p t h
    exact ⟨fun q => (hc.parts q).trans (h1 q), fun q => (hc.kept q).trans (h2 q)⟩

/-- The end of a task of a stopped partition. -/
def State.stopTask (r : Nat) (u : State) (x : Nat × Task) : State :=
  if x.2.hold = .free then u else releaseTask u r x.1 .none .none

/-- R190: the tasks of one region end. -/
def stopRegion (s : State) (r : Nat) : State := (s.region r).tasks.foldl (State.stopTask r) s

theorem stopRegions_eq : stopRegions s p = (regionsOf s p).foldl stopRegion s := rfl

end

section
variable (s : State) (r : Nat)

theorem State.stopTask_keeps (u : State) (x : Nat × Task) : State.Keeps Region.vacant r u (u.stopTask r x) := by
  unfold State.stopTask
  split
  · exact .refl ..
  · exact releaseTask_keeps ..

theorem stopRegion_keeps : State.Keeps Region.vacant r s (stopRegion s r) :=
  foldl_keeps (fun u x => State.stopTask_keeps r u x) _ s

theorem stopTasks_free (n : Nat) : ∀ (l : List (Nat × Task)) (u : State),
    ((u.region r).task n).hold = .free ∨ (∃ m, (n, m) ∈ l ∧ m.hold ≠ .free) →
      (((l.foldl (State.stopTask r) u).region r).task n).hold = .free := by
  intro l
  induction l with
  | nil => exact fun u h => h.resolve_right fun ⟨_, h, _⟩ => nomatch h
  | cons x l ih =>
    intro u h
    refine ih _ ?_
    have hx : x.2.hold ≠ .free → u.stopTask r x = releaseTask u r x.1 .none .none := fun h => if_neg h
    have hx' : x.2.hold = .free → u.stopTask r x = u := fun h => if_pos h
    rcases h with h | ⟨m, hm, hf⟩
    · by_cases hf : x.2.hold = .free
      · rw [hx' hf]
        exact .inl h
      · rw [hx hf, releaseTask_slot]
        split
        · exact .inl rfl
        · exact .inl h
    · rcases List.mem_cons.1 hm with rfl | hm
      · rw [hx hf, releaseTask_slot, if_pos rfl]
        exact .inl rfl
      · exact .inr ⟨m, hm, hf⟩

theorem stopRegion_free (n : Nat) : (((stopRegion s r).region r).task n).hold = .free := by
  refine stopTasks_free r n _ s ?_
  by_cases h : ((s.region r).task n).hold = .free
  · exact .inl h
  · exact .inr ⟨_, mem_of_mapGet rfl fun e => h (by rw [Region.task, e]; rfl), h⟩

theorem stopRegion_stays (n : Nat) (h : ((s.region r).task n).hold = .free) :
    (((stopRegion s r).region r).task n).hold = .free := stopTasks_free r n _ s (.inl h)

theorem stopRegions_free {p : Nat} (hp : (s.region r).part = p) (n : Nat) :
    (((stopRegions s p).region r).task n).hold = .free := by
  rw [stopRegions_eq]
  refine foldl_region (step := stopRegion) (I := fun _ => True) (P := fun g => (g.task n).hold = .free)
    (fun t r => (stopRegion_keeps t r).toWithin) (fun _ _ _ => trivial) (fun t r h => stopRegion_stays t r n h)
    (fun t r _ => stopRegion_free t r n) _ s ?_
  rcases regionsOf_or_zero hp with h | h
  · exact .inr ⟨h, trivial⟩
  · refine .inl ?_
    rw [h]
    rfl

theorem stopRegions_parts (p q : Nat) : ((stopRegions s p).part q).quiet = (s.part q).quiet := by
  rw [stopRegions_eq]
  exact (foldl_spread (rs := regionsOf s p) (fun t r => stopRegion_keeps t r) _ s fun _ h => h).parts q

end

/-- A cause raised is pending (R343). -/
theorem mem_raiseH (s : State) (c code : Nat) (v : Word) : (code, v) ∈ ((raiseH s c code v).stew c).pending := by
  unfold raiseH
  dsimp only
  split
  · next h => exact List.contains_iff_mem.1 h
  · rw [State.stew_setStew]
    exact List.mem_append_right _ List.mem_cons_self

theorem raiseH_part (s : State) (c code : Nat) (v : Word) (q : Nat) : (raiseH s c code v).part q = s.part q := by
  unfold raiseH
  dsimp only
  split <;> rfl

theorem raiseH_region (s : State) (c code : Nat) (v : Word) (q : Nat) : (raiseH s c code v).region q = s.region q := by
  unfold raiseH
  dsimp only
  split <;> rfl

/-- R190: a function-level reset of a partition that boots or runs. -/
theorem exec_functionLevelReset {s : State} {p : Nat} (hp : p < 64) (hs : partState s p = 1 ∨ partState s p = 2) :
    exec (.functionLevelReset p) s = .next (raiseH (stopRegions (cancelPartition
      (setPartState (s.setPart p { s.part p with flr := true }) p 3 0) p) p) 0 tcFLR (BitVec.ofNat 64 p)) := by
  show execFunctionLevelReset p s = _
  rw [execFunctionLevelReset, if_neg]
  rcases hs with h | h <;> simp [h, hp]

theorem exec_partitionOff {s : State} {p : Nat} (hp : p < 64) (hs : partState s p = 3) (hf : framesFree s p = true) :
    exec (.partitionOff p) s = .next (setPartState (s.setPart p { s.part p with flr := false }) p 0 0) := by
  show execPartitionOff p s = _
  rw [execPartitionOff, if_pos]
  simp [hp, hs, hf]

/-- A partition but for its vectors: the fields that a reset names. -/
theorem Partition.quiet_fields {x y : Partition} (h : x.quiet = y.quiet) :
    x.flr = y.flr ∧ x.state = y.state ∧ x.reason = y.reason :=
  have hflr := congrArg Partition.flr h
  have hstate := congrArg Partition.state h
  have hreason := congrArg Partition.reason h
  ⟨hflr, hstate, hreason⟩

end Sys2Proof.Machine
end

section
/-! SUPPORT. Boot and the reset of the device (R190, R196, R197). -/

namespace Sys2Proof.Machine

theorem measurementAt_bounds : frametabSize ≤ measurementAt ∧ measurementAt + 64 ≤ 2 ^ 48 ∧
    measurementAt / 4096 < frametabSize := by
  unfold measurementAt frametabSize
  generalize Config.measurementFrame = n
  omega

theorem hvMeasurement_length (image : List Byte) : (hvMeasurement image).length = 64 := natToLe_length ..

section
variable {s : State}

/-- The hypervisor started on a steward core (R196). -/
def State.started (s : State) (c : Nat) (x : Steward) : State := { s.setStew c x with boot := .up }

theorem State.started_sameMemory (s : State) (c : Nat) (x : Steward) : sameMemory s (s.started c x) := fun _ => rfl

theorem State.stew_started (s : State) (c : Nat) (x : Steward) : (s.started c x).stew c = x := State.stew_setStew ..

theorem State.stew_started_ne (s : State) {c d : Nat} (h : d ≠ c) (x : Steward) : (s.started c x).stew d = s.stew d :=
  State.stew_setStew_ne _ _ h

theorem exec_powerOnBoot_accepted (hb : s.boot = .rom) (h : headerAccepted s = true) :
    exec (.powerOnBoot true) s = .next ((keepMeasurement s).started 0 { Steward.zero with task := { Task.zero with
      hold := .ready, level := .h, pc := Config.hypervisorEntry.setWidth 64 } }) := by
  show execPowerOnBoot true s = _
  rw [execPowerOnBoot, if_neg (not_not.2 hb), h]
  rfl

theorem exec_powerOnBoot_refused (hb : s.boot = .rom) {given : Bool} (h : given = false ∨ headerAccepted s = false) :
    exec (.powerOnBoot given) s = .next { s with boot := .recovery } := by
  show execPowerOnBoot given s = _
  rw [execPowerOnBoot, if_neg (not_not.2 hb), if_pos]
  rcases h with h | h <;> rw [h] <;> simp

theorem headerAccepted_iff : headerAccepted s = true ↔ (shake256 s.flash.key 4).take 32 = s.fuses.keyHash ∧
    s.fuses.counter ≤ s.flash.version ∧ Config.verifies s.flash.key s.flash.image s.flash.signature = true := by
  simp [headerAccepted, and_assoc]

/-- R197: where the measurement of the hypervisor stands, what its frame's byte says, and what is left. -/
theorem keepMeasurement_byte (hf : s.frametab = 0) (a : Nat) : (keepMeasurement s).byte a =
    if canonPa s.pkg.toNat a = measurementAt / 4096 then 0xC0
    else if measurementAt ≤ canonPa s.pkg.toNat a ∧ canonPa s.pkg.toNat a < measurementAt + 64 then
      (hvMeasurement s.flash.image).getD (canonPa s.pkg.toNat a - measurementAt) 0
    else s.byte a := by
  obtain ⟨h1, h2, h3⟩ := measurementAt_bounds
  have hlen := hvMeasurement_length s.flash.image
  have h0 : nbits s.frametab.toNat 51 12 * 4096 = 0 := by
    rw [hf]
    rfl
  unfold keepMeasurement
  rw [h0, Nat.zero_add, State.byte_write, State.write_pkg, State.byte_write, hlen,
    canonPa_of_lt (a := measurementAt / 4096) (by unfold frametabSize at h3; omega),
    canonPa_of_lt (a := measurementAt) (by omega)]
  generalize hvMeasurement s.flash.image = m
  generalize canonPa s.pkg.toNat a = x
  by_cases hx : x = measurementAt / 4096
  · subst hx
    rw [if_pos ⟨Nat.le_refl _, Nat.lt_succ_self _⟩, if_pos rfl, Nat.sub_self]
    rfl
  · rw [if_neg hx, if_neg fun e => hx (by
      have := e.2
      simp only [List.length_cons, List.length_nil] at this
      omega)]

theorem keepMeasurement_bytes (hf : s.frametab = 0) {t : State} (hm : sameMemory (keepMeasurement s) t) :
    t.bytes measurementAt 64 = hvMeasurement s.flash.image := by
  obtain ⟨h1, h2, h3⟩ := measurementAt_bounds
  have hlen := hvMeasurement_length s.flash.image
  rw [State.bytes_eq_map]
  refine List.ext_getElem (by simp [hlen]) fun k hk hk' => ?_
  rw [hlen] at hk'
  rw [List.getElem_map, List.getElem_range, hm, keepMeasurement_byte hf, canonPa_of_lt (by omega), if_neg (by omega),
    if_pos (by omega), Nat.add_sub_cancel_left, List.getD_eq_getElem _ _ (by omega)]

theorem keepMeasurement_memoryOnly (s : State) : memoryOnly s (keepMeasurement s) :=
  memoryOnly.trans (t := s.write measurementAt (hvMeasurement s.flash.image)) rfl rfl

theorem memoryOnly.started {s k : State} (h : memoryOnly s k) (hb : s.boot = .rom) (c : Nat) (x : Steward) :
    { k.started c x with stews := s.stews, boot := .rom, mem := s.mem, stores := s.stores, poison := s.poison } = s := by
  rw [← h, ← hb]
  rfl

end

theorem Region.silicon_zero : Region.zero.silicon = Region.zero := by
  unfold Region.silicon
  generalize Region.zero = z
  rfl

/-- What a region keeps over a reset of the device. -/
theorem deviceReset_region (s : State) (r : Nat) : (deviceReset s).region r = (s.region r).silicon :=
  mapGet_map_value (fun _ _ => rfl) Region.silicon_zero r s.regions

theorem deviceReset_mem (s : State) (a : Nat) :
    memGet (deviceReset s).mem a = if a < frametabSize then memGet State.reset.mem a else memGet s.mem a := by
  have h := mapGet_filter_key (memDefault a) (fun k => decide (frametabSize ≤ k)) a s.mem
  refine Eq.trans h ?_
  by_cases ha : a < frametabSize
  · rw [if_pos ha, if_neg (by simpa using ha)]
    rfl
  · rw [if_neg ha, if_pos (by simpa using ha)]
    rfl

theorem deviceReset_task (s : State) (c : CoreId) : (deviceReset s).task c = Task.zero := by
  cases c with
  | stew c => rfl
  | seq r n =>
    show ((deviceReset s).region r).task n = _
    rw [deviceReset_region]
    rfl

end Sys2Proof.Machine

namespace Sys2Proof.Settled

open Sys2Proof.Machine

/-- Settles O48: boot writes two runs of bytes; a function-level reset keeps the partition through the cancellation of its
counters, and every task of its regions ends; a device reset is its own definition, field by field. -/
theorem resetResult : Obligations.ResetResult := by
  intro s
  refine ⟨fun hb => ⟨exec_powerOnBoot_refused hb (.inl rfl), ?_⟩, fun p hp hs => ?_, fun p hp hs hf => ?_, ?_⟩
  · rw [← headerAccepted_iff]
    by_cases ha : headerAccepted s = true
    · refine ⟨_, exec_powerOnBoot_accepted hb ha, fun h => absurd ha h, fun _ hf => ?_⟩
      obtain ⟨h1, h2, h3⟩ := measurementAt_bounds
      have hbyte := keepMeasurement_byte hf
      have hmem := keepMeasurement_memoryOnly s
      have hbytes := fun {t} => keepMeasurement_bytes hf (t := t)
      generalize keepMeasurement s = k at *
      have hsame := k.started_sameMemory 0 { Steward.zero with task := { Task.zero with
        hold := .ready, level := .h, pc := Config.hypervisorEntry.setWidth 64 } }
      refine ⟨rfl, hbytes hsame, ?_, fun a hne hout => ?_, hmem.started hb .., fun c hc => ?_, State.stew_started ..⟩
      · rw [hsame, hbyte, if_pos (canonPa_of_lt (by unfold frametabSize at h3; omega))]
      · rw [hsame, hbyte, if_neg hne, if_neg (by omega)]
      · rw [State.stew_started_ne _ hc, State.stew, State.stew, hmem.tables.1.2.2]
    · exact ⟨_, exec_powerOnBoot_refused hb (.inr (by simpa using ha)), fun _ => rfl, fun h => absurd h ha⟩
  · refine ⟨_, exec_functionLevelReset hp hs, ?_⟩
    have hpart : ((setPartState (s.setPart p { s.part p with flr := true }) p 3 0).part p).quiet =
        ({ s.part p with flr := true, state := 3 } : Partition).quiet := by
      rw [setPartState_part _ _ (by decide), State.part_setPart]
    have hcores : sameCores s (setPartState (s.setPart p { s.part p with flr := true }) p 3 0) :=
      sameCores.trans (t := s.setPart p { s.part p with flr := true }) ⟨rfl, rfl, rfl⟩
        (setPartState_sameCores _ _ (by decide) _)
    generalize setPartState (s.setPart p { s.part p with flr := true }) p 3 0 = u at hpart hcores
    obtain ⟨hkeep, hregions⟩ := cancelPartition_keeps u p
    have hend := (stopRegions_parts (cancelPartition u p) p p).trans ((hkeep p).trans hpart)
    obtain ⟨hflr, hstate, hreason⟩ := Partition.quiet_fields hend
    rw [raiseH_part]
    refine ⟨hflr, fun r n _ hr => ?_, mem_raiseH .., hstate, hreason⟩
    rw [raiseH_region]
    refine stopRegions_free _ r ?_ n
    rw [hregions, State.region, hcores.2.1]
    exact hr
  · refine ⟨_, exec_partitionOff hp hs hf, partState_setPartState _ _ _ (by decide) (by decide), ?_⟩
    obtain ⟨hflr, -, -⟩ := Partition.quiet_fields (setPartState_part (s.setPart p { s.part p with flr := false }) p
      (st := 0) (by decide) 0)
    obtain ⟨-, hregions, hstews⟩ := setPartState_sameCores (s.setPart p { s.part p with flr := false }) p (st := 0)
      (by decide) 0
    refine ⟨hflr.trans ?_, hregions, hstews⟩
    rw [State.part_setPart]
  · refine ⟨_, rfl, rfl, deviceReset_mem s, rfl, rfl, rfl, rfl, rfl, rfl, rfl, rfl, deviceReset_task s, rfl, rfl, fun r => ?_⟩
    rw [deviceReset_region]
    exact ⟨rfl, rfl, rfl, rfl, rfl, rfl, rfl, rfl⟩

end Sys2Proof.Settled
end

section
/-! SUPPORT. The token of a region (R273): what the end of a phase leaves of the cores and of the region. -/

namespace Sys2Proof.Machine

/-! ### Writes by engines leave the cores as they are -/

theorem State.busWrite_sameCores (s : State) (a : Nat) (bs : List Byte) : sameCores s (s.busWrite a bs) := by
  unfold State.busWrite pageVectors
  refine (State.write_sameCores ..).trans (sameCores.foldl (fun t p => ?_) _ _)
  dsimp only
  split
  · exact .refl t
  · have h : ∀ (u : State) (b : Prop) [Decidable b] (v : Nat), sameCores u (if b then u else sendVector u p v) :=
      fun u b _ v => by
        split
        · exact .refl u
        · exact sendVector_sameCores ..
    exact (h t _ 0).trans (h _ _ 2)

theorem writePieces_sameCores (part : Nat) (l : List Piece) (bs : List Byte) (s : State) :
    sameCores s (writePieces part l bs s).2 := by
  induction l generalizing bs s with
  | nil => exact .refl s
  | cons p l ih =>
    unfold writePieces
    dsimp only
    repeat' split
    · exact ih ..
    · exact .refl s
    · exact .refl s
    · exact (State.busWrite_sameCores ..).trans (ih ..)

theorem writeVirt_sameCores (s : State) (x : XCtx) (va : Nat) (bs : List Byte) (setD : Bool) :
    sameCores s (writeVirt s x va bs setD).2 := by
  unfold writeVirt
  split <;> rename_i h
  · have hp := sameCores.of_snd (pieces_sameCores ..) h
    split <;> rename_i hw <;> exact hp.trans (sameCores.of_snd (writePieces_sameCores ..) hw)
  · exact sameCores.of_snd (pieces_sameCores ..) h

/-- A step that leaves the cores as they are, within what a region shows, keeps the region itself. -/
theorem keeps_of_sameCores {α : Type} {f : Region → α} {r : Nat} {s t : State} (hc : sameCores s t)
    (hs : t.shows r = s.shows r) : State.Keeps f r s t := by
  refine ⟨within_of_shows hs, ?_⟩
  rw [State.region, hc.2.1]
  rfl

/-! ### The end of a phase (R33, R104) -/

/-- A step within a region that leaves every steward core as it is and keeps f of the region. -/
structure State.Passes {α : Type} (f : Region → α) (r : Nat) (s t : State) : Prop extends State.Keeps f r s t where
  lists : t.stews = s.stews

section
variable {α β : Type} {f : Region → α} {r : Nat} {s t u : State}

theorem State.Passes.refl (f : Region → α) (r : Nat) (s : State) : State.Passes f r s s := ⟨.refl f r s, rfl⟩

theorem State.Passes.trans (h : State.Passes f r s t) (k : State.Passes f r t u) : State.Passes f r s u :=
  ⟨h.toKeeps.trans k.toKeeps, k.lists.trans h.lists⟩

theorem State.Passes.part (h : State.Passes f r s t) {g : Region → β} (hg : ∀ x y, f x = f y → g x = g y) :
    State.Passes g r s t := ⟨h.toKeeps.part hg, h.lists⟩

theorem State.setRegion_passes (s : State) {r : Nat} {g : Region} (h : f g = f (s.region r)) :
    State.Passes f r s (s.setRegion r g) := ⟨s.setRegion_keeps h, rfl⟩

theorem passes_of_sameCores (hc : sameCores s t) (hs : t.shows r = s.shows r) : State.Passes f r s t :=
  ⟨keeps_of_sameCores hc hs, hc.2.2⟩

theorem memoryOnly.passes (h : memoryOnly s t) : State.Passes f r s t := ⟨h.keeps, h.tables.1.2.2⟩

theorem foldl_passes {γ : Type} {step : State → γ → State} (h : ∀ t x, State.Passes f r t (step t x)) :
    ∀ (l : List γ) (s : State), State.Passes f r s (l.foldl step s)
  | [], s => .refl f r s
  | x :: l, s => (h s x).trans (foldl_passes h l (step s x))

end

/-- A region but for the positions of its logs and what a token discards of its elements. -/
def Region.settled (g : Region) : Region × (Nat → Element) :=
  ({ g with elements := [], busymap := 0, busypos := 0, dirtylog := 0, dirtypos := 0 }, fun e => (g.element e).keep)

/-- The change of a port is one that a token discards. -/
theorem Region.settled_setAg (g : Region) (e p : Nat) (a : AgPort) :
    (g.setElement e ((g.element e).setAg p a)).settled = g.settled := by
  refine Prod.ext rfl (funext fun k => ?_)
  show ((g.setElement e ((g.element e).setAg p a)).element k).keep = (g.element k).keep
  by_cases h : k = e
  · subst h
    rw [Region.element_setElement]
    unfold Element.setAg
    split <;> rfl
  · rw [Region.element_setElement_ne _ _ h]

section
variable (s : State) (r : Nat)

theorem writeVirt_passes {s t : State} {r va : Nat} {x : XCtx} {bs : List Byte} {setD : Bool} {a : Acc (Option Nat)}
    (h : writeVirt s x va bs setD = (a, t)) : State.Passes Region.settled r s t :=
  passes_of_sameCores (sameCores.of_snd (writeVirt_sameCores ..) h) (shows_of_snd (writeVirt_shows r ..) h)

theorem logBusy_passes (v : Nat) : State.Passes Region.settled r s (logBusy s r v) := by
  unfold logBusy
  dsimp only
  split
  · exact .refl ..
  split
  · exact s.setRegion_passes rfl
  split <;> rename_i h <;> exact (writeVirt_passes h).trans (State.setRegion_passes _ rfl)

theorem logDirty_passes (v : Nat) : State.Passes Region.settled r s (logDirty s r v) := by
  unfold logDirty
  dsimp only
  split
  · exact .refl ..
  split
  · exact s.setRegion_passes rfl
  split <;> rename_i h <;> exact (writeVirt_passes h).trans (State.setRegion_passes _ rfl)

theorem closePort_passes (e p cause : Nat) : State.Passes Region.settled r s (closePort s r e p cause) := by
  unfold closePort
  dsimp only
  split
  · exact (logDirty_passes s r _).trans (State.setRegion_passes _ (Region.settled_setAg ..))
  · exact .refl ..

theorem closeElement_passes (e cause : Nat) : State.Passes Region.settled r s (closeElement s r e cause) := by
  unfold closeElement
  exact (closePort_passes ..).trans (closePort_passes ..)

theorem closeAll_passes : State.Passes Region.settled r s (closeAll s r) := by
  unfold closeAll
  refine foldl_passes (fun t p => ?_) _ s
  exact closeElement_passes t r p.1 1

/-- R33: the phase record of one island. -/
def State.logIsland (r phase end_ : Nat) (t : State) (p : Nat × Option Island) : State :=
  match p.2 with
  | some i => logBusy t r (busyRecord i.phase i.phase.idle 1 end_ phase r i)
  | none => t

theorem State.logIsland_passes (phase end_ : Nat) (t : State) (p : Nat × Option Island) :
    State.Passes Region.settled r t (t.logIsland r phase end_ p) := by
  unfold State.logIsland
  split
  · exact logBusy_passes ..
  · exact .refl ..

theorem phaseRecords_eq : phaseRecords s r = if (s.region r).phase = 0 then s
    else (s.region r).islands.foldl (State.logIsland r (s.region r).phase
      (if ctrCanc (ctrGet s (s.region r).part (s.region r).phase) then 1 else 0)) s := rfl

theorem phaseRecords_passes : State.Passes Region.settled r s (phaseRecords s r) := by
  rw [phaseRecords_eq]
  split
  · exact .refl ..
  · exact foldl_passes (fun t p => State.logIsland_passes r _ _ t p) _ s

/-! ### Elements retired at the token (R387) -/

/-- A region but for the positions of its logs, its elements and which of them are enabled. -/
def Region.passing (g : Region) : Region :=
  { g with elements := [], busymap := 0, busypos := 0, dirtylog := 0, dirtypos := 0
           enabled := [], spares := [], suspect := [], retiring := [], lasting := [] }

theorem Region.passing_of_settled (x y : Region) (h : x.settled = y.settled) : x.passing = y.passing := by
  have := congrArg (fun p => p.1.passing) h
  exact this

theorem retireRecord_passes {α : Type} (f : Region → α) (cls info addr : Nat) (no : Bool) :
    State.Passes f r s (retireRecord s cls info addr no) :=
  passes_of_sameCores (retireRecord_sameCores ..) (retireRecord_shows ..)

theorem writeMaps_passes {α : Type} (f : Region → α) : State.Passes f r s (writeMaps s r) :=
  passes_of_sameCores (healthWrite_sameCores ..) (healthWrite_shows ..)

/-- The region once an enabled element has left it, with the spare that takes its place. -/
def Region.retired (g : Region) (e : Nat) : Region :=
  let sp := lowest g.spares
  { g with
    retiring := g.retiring.erase e, suspect := g.suspect.erase e, lasting := g.lasting.erase e
    enabled := g.enabled.erase e ++ sp.toList
    spares := match sp with
      | some x => g.spares.erase x
      | none => [] }

theorem retireElement_cases (e : Nat) :
    (e ∉ (s.region r).enabled ∧ retireElement r e s = s.setRegion r { s.region r with
      retiring := (s.region r).retiring.erase e, lasting := (s.region r).lasting.erase e }) ∨
    (e ∈ (s.region r).enabled ∧ ∀ {α : Type} (f : Region → α),
      State.Passes f r (s.setRegion r ((s.region r).retired e)) (retireElement r e s)) := by
  unfold retireElement
  dsimp only
  by_cases h : e ∈ (s.region r).enabled
  · rw [if_neg (by simpa using h)]
    refine .inr ⟨h, fun f => ?_⟩
    exact (retireRecord_passes ..).trans (writeMaps_passes ..)
  · rw [if_pos (by simpa using h)]
    exact .inl ⟨h, rfl⟩

theorem retireElement_passes (e : Nat) : State.Passes Region.passing r s (retireElement r e s) := by
  rcases retireElement_cases s r e with ⟨-, h⟩ | ⟨-, h⟩
  · rw [h]
    exact s.setRegion_passes rfl
  · refine State.Passes.trans ?_ (h Region.passing)
    exact s.setRegion_passes rfl

/-- R387: the one element to retire leaves the map, and the lowest spare takes its place. -/
theorem retireElement_region {e : Nat} (h : e ∈ (s.region r).enabled) :
    (retireElement r e s).region r = (s.region r).retired e := by
  rcases retireElement_cases s r e with ⟨hn, -⟩ | ⟨-, hp⟩
  · exact absurd h hn
  · exact (hp id).kept.trans (State.region_setRegion ..)

end

theorem lowest_spec : ∀ l : List Nat, (l = [] ∧ lowest l = none) ∨ ∃ x ∈ l, lowest l = some x ∧ ∀ y ∈ l, x ≤ y
  | [] => .inl ⟨rfl, rfl⟩
  | x :: l => by
    refine .inr ?_
    rcases lowest_spec l with ⟨rfl, -⟩ | ⟨y, hy, he, hl⟩
    · exact ⟨x, List.mem_cons_self, rfl, by simp⟩
    · refine ⟨min x y, ?_, by rw [lowest, he], fun z hz => ?_⟩
      · rcases Nat.le_total x y with h | h
        · rw [Nat.min_eq_left h]
          exact List.mem_cons_self
        · rw [Nat.min_eq_right h]
          exact List.mem_cons_of_mem _ hy
      · rcases List.mem_cons.1 hz with rfl | hz
        · exact Nat.min_le_left ..
        · exact (Nat.min_le_right ..).trans (hl z hz)

/-- The number in a list that none is below is its lowest. -/
theorem lowest_eq {x : Nat} {l : List Nat} (hx : x ∈ l) (hl : ∀ y ∈ l, x ≤ y) : lowest l = some x := by
  rcases lowest_spec l with ⟨rfl, -⟩ | ⟨y, hy, he, hy'⟩
  · exact nomatch hx
  · rw [he, Nat.le_antisymm (hy' x hx) (hl y hy)]

end Sys2Proof.Machine
end

section
/-! SUPPORT. A configuration that becomes resident (R273, R387). -/

namespace Sys2Proof.Machine

/-! ### The elements -/

/-- An element without its programs. -/
def Element.blank (e : Element) : Element := { e with ops := [], routes := [], regs := [] }

theorem Element.keep_zero : Element.zero.keep = Element.zero := rfl
theorem Element.blank_keep (e : Element) : e.keep.blank = e.keep := rfl

/-- The elements of a region after the token, before the new programs. -/
def Region.keepAll (g : Region) : Region := g.elements.foldl (fun h p => h.setElement p.1 (h.element p.1).keep) g

theorem Region.element_keepOne (h : Region) (k e : Nat) :
    (h.setElement k (h.element k).keep).element e = if e = k then (h.element e).keep else h.element e := by
  split
  · next he =>
    subst he
    exact Region.element_setElement ..
  · next he => exact Region.element_setElement_ne _ _ he

theorem Region.element_keepFold (x : Element) (e : Nat) : ∀ (l : List (Nat × Element)) (h : Region),
    (h.element e = x.keep ∨ (h.element e = x ∧ e ∈ l.map (·.1))) →
      (l.foldl (fun h p => h.setElement p.1 (h.element p.1).keep) h).element e = x.keep := by
  intro l
  induction l with
  | nil => exact fun h hx => hx.resolve_right fun hx => nomatch hx.2
  | cons p l ih =>
    intro h hx
    refine ih _ ?_
    rw [Region.element_keepOne]
    rcases hx with hx | ⟨hx, hm⟩
    · rw [hx]
      split <;> exact .inl rfl
    · rw [hx]
      split
      · exact .inl rfl
      · next hne => exact .inr ⟨rfl, (List.mem_cons.1 hm).resolve_left hne⟩

theorem Region.element_keepAll (g : Region) (e : Nat) : g.keepAll.element e = (g.element e).keep := by
  refine Region.element_keepFold _ e _ g ?_
  by_cases hm : e ∈ g.elements.map (·.1)
  · exact .inr ⟨rfl, hm⟩
  · have hz : g.element e = Element.zero := by
      by_contra hne
      exact hm (mem_keys_of_mapGet_ne hne)
    exact .inl (by rw [hz, Element.keep_zero])

/-- A region but for its elements. -/
def Region.stripped (g : Region) : Region := { g with elements := [] }

theorem Region.stripped_setElement (g : Region) (e : Nat) (x : Element) : (g.setElement e x).stripped = g.stripped := rfl

theorem Region.keepAll_stripped (g : Region) : g.keepAll.stripped = g.stripped :=
  List.foldlRecOn (motive := fun h : Region => h.stripped = g.stripped) _ _ rfl
    fun h hh _ _ => (h.stripped_setElement _ _).trans hh

/-- A region with the programs of a configuration. -/
def Region.program (g : Region) (l : List ElementRec) : Region :=
  l.foldl (fun h e =>
    let k := 16 * e.row + e.col
    h.setElement k { h.element k with ops := e.ops, routes := e.routes, regs := e.regs }) g

theorem Region.element_program (g : Region) (l : List ElementRec) (e : Nat) :
    ((g.program l).element e).blank = (g.element e).blank := by
  refine List.foldlRecOn (motive := fun h : Region => (h.element e).blank = (g.element e).blank) _ _ rfl
    fun h hh x _ => ?_
  rw [← hh]
  dsimp only
  by_cases he : e = 16 * x.row + x.col
  · rw [← he, Region.element_setElement]
    rfl
  · rw [Region.element_setElement_ne _ _ he]

theorem Region.program_stripped (g : Region) (l : List ElementRec) : (g.program l).stripped = g.stripped :=
  List.foldlRecOn (motive := fun h : Region => h.stripped = g.stripped) _ _ rfl
    fun h hh _ _ => (h.stripped_setElement _ _).trans hh

/-! ### The islands -/

/-- R387: the islands of a configuration that lie on enabled elements. -/
def installIslands (enabled : List Nat) (l : List (Nat × IslandRec)) (m : Map (Option Island)) : Map (Option Island) :=
  l.foldl (fun m p => if p.2.wholly enabled then mapSet none m p.1 (some p.2.install) else m) m

theorem installIslands_get (enabled : List Nat) (x : IslandRec) (j : Nat) : ∀ (l : List (Nat × IslandRec))
    (m : Map (Option Island)), (∀ y, (j, y) ∈ l → y = x) →
      mapGet none (installIslands enabled l m) j =
        if (j, x) ∈ l ∧ x.wholly enabled then some x.install else mapGet none m j := by
  intro l
  induction l with
  | nil => exact fun m _ => by simp [installIslands]
  | cons p l ih =>
    intro m h
    obtain ⟨k, y⟩ := p
    have ih' := ih (if y.wholly enabled then mapSet none m k (some y.install) else m)
      fun z hz => h z (List.mem_cons_of_mem _ hz)
    refine Eq.trans ih' ?_
    by_cases hk : j = k
    · subst hk
      have hy := h y List.mem_cons_self
      subst hy
      by_cases hw : y.wholly enabled = true
      · simp [hw]
      · simp [hw]
    · have hne : (j, x) ≠ (k, y) := fun e => hk (Prod.mk.inj e).1
      have hget : mapGet none (if y.wholly enabled then mapSet none m k (some y.install) else m) j = mapGet none m j := by
        split
        · exact mapGet_mapSet_ne _ _ _ hk
        · rfl
      rw [hget]
      simp [hne]

/-- The numbers of a list are the places of its entries. -/
theorem mem_numbered {α : Type} {l : List α} {j : Nat} {x : α} : (j, x) ∈ numbered l ↔ l[j]? = some x := by
  unfold numbered
  rw [upTo_eq_range, List.mem_iff_getElem?]
  constructor
  · rintro ⟨i, hi⟩
    obtain ⟨h1, h2⟩ := List.getElem?_zip_eq_some.1 hi
    obtain ⟨hlt, he⟩ := List.getElem?_eq_some_iff.1 h1
    rw [List.getElem_range] at he
    dsimp only at he h2
    rwa [he] at h2
  · intro h
    obtain ⟨hlt, -⟩ := List.getElem?_eq_some_iff.1 h
    exact ⟨j, List.getElem?_zip_eq_some.2 ⟨by simp [hlt], h⟩⟩

/-! ### The region that the token leaves -/

theorem Region.install_eq (g : Region) (im : Image) : g.install im = { g.keepAll.program im.elements with
    resident := { im with elements := [] }
    islands := installIslands g.enabled (numbered im.islands) []
    turnstiles := im.turns.foldl (fun m t => mapSet none m t.number (some (t.install im))) [] } := rfl

theorem Region.install_element (g : Region) (im : Image) (e : Nat) :
    ((g.install im).element e).blank = (g.element e).keep := by
  rw [Region.install_eq]
  refine (Region.element_program g.keepAll im.elements e).trans ?_
  rw [Region.element_keepAll, Element.blank_keep]

theorem Region.install_island (g : Region) {im : Image} {j : Nat} {x : IslandRec} (h : im.islands[j]? = some x) :
    (g.install im).island j = if x.wholly g.enabled then some x.install else none := by
  rw [Region.install_eq]
  refine (installIslands_get g.enabled x j (numbered im.islands) [] fun y hy => ?_).trans ?_
  · rw [mem_numbered, h] at hy
    exact (Option.some.inj hy).symm
  · simp [mem_numbered, h, mapGet]

/-- What a region keeps of itself when a configuration becomes resident. -/
def Region.housing (g : Region) : Region :=
  { g with elements := [], resident := Image.empty, islands := [], turnstiles := [] }

theorem Region.install_housing (g : Region) (im : Image) : (g.install im).housing = g.housing := by
  rw [Region.install_eq]
  have h := (Region.program_stripped g.keepAll im.elements).trans g.keepAll_stripped
  have := congrArg Region.housing h
  exact this

end Sys2Proof.Machine
end

section
/-! SUPPORT. The token passes (R273): the machine that it leaves. -/

namespace Sys2Proof.Machine

/-- The region once the ending phase has left its records, with the elements to retire retired. -/
def tokenEnds (s : State) (r : Nat) : State :=
  (rising (s.region r).retiring).foldl (fun t e => retireElement r e t) (phaseRecords (closeAll s r) r)

/-- What a token makes of the region that it finds. -/
def State.renewed (s : State) (r part : Nat) : State := s.setRegion r ((s.region r).renew (s.part part).books)

/-- The counters at the token: the old phase loses the child that held it open, the next one opens. -/
def tokenCounters (s : State) (part old next job : Nat) : State :=
  let t := if old = 0 then s else ctrDone s part old
  ctrAdd (ctrPut t part next (ctrMake 3 false true job 0 1)) part job 1

theorem passToken_eq {s : State} {r next job : Nat} (ht : (s.region r).token = some (next, job))
    (hs : (s.region r).saved = none) (hf : (s.region r).frozen = false) (hd : phaseDrained s (s.region r) = true) :
    let u := tokenCounters ((tokenEnds s r).renewed r (s.region r).part) (s.region r).part (s.region r).phase next job
    passToken r s = u.setRegion r { u.region r with phase := next } := by
  unfold passToken
  dsimp only
  rw [ht]
  dsimp only
  rw [hs, hf, hd, if_neg (by simp)]
  rfl

section
variable (s : State) (r : Nat)

theorem tokenEnds_passes : State.Passes Region.passing r s (tokenEnds s r) :=
  (((closeAll_passes s r).trans (phaseRecords_passes _ r)).part Region.passing_of_settled).trans
    (foldl_passes (fun t e => retireElement_passes t r e) _ _)

theorem tokenEnds_settled (h : (s.region r).retiring = []) : State.Passes Region.settled r s (tokenEnds s r) := by
  unfold tokenEnds
  rw [h]
  exact (closeAll_passes s r).trans (phaseRecords_passes _ r)

theorem tokenEnds_one {e : Nat} (h : (s.region r).retiring = [e]) (he : e ∈ (s.region r).enabled) :
    ∃ g : Region, g.settled = (s.region r).settled ∧ (tokenEnds s r).region r = g.retired e := by
  have hp := (closeAll_passes s r).trans (phaseRecords_passes _ r)
  refine ⟨_, hp.kept, ?_⟩
  unfold tokenEnds
  rw [h]
  refine retireElement_region _ r ?_
  have := congrArg (fun p => p.1.enabled) hp.kept
  rw [show ((phaseRecords (closeAll s r) r).region r).enabled = (s.region r).enabled from this]
  exact he

theorem tokenCounters_memoryOnly (part old next job : Nat) : memoryOnly s (tokenCounters s part old next job) := by
  unfold tokenCounters
  dsimp only
  refine memoryOnly.trans ?_ ((ctrPut_memoryOnly ..).trans (ctrAdd_memoryOnly ..))
  split
  · exact .refl s
  · exact ctrDone_memoryOnly ..

/-- The word of the next phase. -/
theorem ctrGet_tokenCounters (part old : Nat) {next job : Nat} (hne : job ≠ next) (hj : job < 4096) (hn : next < 4096) :
    ctrGet (tokenCounters s part old next job) part next = 3 * 2 ^ 61 + 2 ^ 59 + job * 2 ^ 44 + 1 := by
  unfold tokenCounters
  dsimp only
  rw [ctrGet_ctrAdd_ne _ _ _ (by omega), ctrGet_ctrPut, ctrMake]
  simp only [if_true, Bool.false_eq_true, if_false]
  omega

end

/-- The token takes nothing of the region's own but its phase (R273). -/
theorem Region.renew_fields (g : Region) (books : Map Codebook) :
    let u := g.renew books
    u.token = none ∧ u.ctx = g.ctxNext.getD g.ctx ∧ u.ctxNext = none ∧ u.oor = 0 ∧
      u.resident = { g.pending.getD Image.empty with elements := [] } ∧ u.tasks = g.tasks ∧ u.queue = g.queue ∧
      u.enabled = g.enabled ∧ u.spares = g.spares ∧ u.retiring = g.retiring := by
  have h := g.install_housing (g.pending.getD Image.empty)
  have htasks := congrArg Region.tasks h
  have hqueue := congrArg Region.queue h
  have henabled := congrArg Region.enabled h
  have hspares := congrArg Region.spares h
  have hretiring := congrArg Region.retiring h
  exact ⟨rfl, rfl, rfl, rfl, rfl, htasks, hqueue, henabled, hspares, hretiring⟩

theorem Region.renew_island (g : Region) (books : Map Codebook) {j : Nat} {x : IslandRec}
    (h : (g.renew books).resident.islands[j]? = some x) :
    (g.renew books).island j = if x.wholly g.enabled then some x.install else none := g.install_island h

theorem Region.renew_element (g : Region) (books : Map Codebook) (e : Nat) :
    ((g.renew books).element e).blank = (g.element e).keep := g.install_element _ e

/-- The region at the end of the token. -/
theorem passToken_region {s : State} {r next job : Nat} (ht : (s.region r).token = some (next, job))
    (hs : (s.region r).saved = none) (hf : (s.region r).frozen = false) (hd : phaseDrained s (s.region r) = true) :
    (passToken r s).region r =
      { ((tokenEnds s r).region r).renew ((tokenEnds s r).part (s.region r).part).books with phase := next } := by
  rw [passToken_eq ht hs hf hd]
  dsimp only
  rw [State.region_setRegion, (tokenCounters_memoryOnly ..).region, State.renewed, State.region_setRegion]

/-- Outside its region the token changes memory, its marks and HEALTH. -/
theorem passToken_passes {s : State} {r next job : Nat} (ht : (s.region r).token = some (next, job))
    (hs : (s.region r).saved = none) (hf : (s.region r).frozen = false) (hd : phaseDrained s (s.region r) = true) :
    State.Passes (fun _ => ()) r s (passToken r s) := by
  rw [passToken_eq ht hs hf hd]
  dsimp only
  refine State.Passes.trans ?_ (State.setRegion_passes _ rfl)
  refine State.Passes.trans ?_ (tokenCounters_memoryOnly ..).passes
  exact ((tokenEnds_passes s r).part fun _ _ _ => rfl).trans (State.setRegion_passes _ rfl)

/-- The table of a partition's counters lies where it lay. -/
theorem State.Within.ctrAddr {r : Nat} {s t : State} (h : State.Within r s t) (part k : Nat) :
    ctrAddr t part k = ctrAddr s part k := by
  have := congrArg Partition.ctrbase (h.parts part)
  have hb : (t.part part).ctrbase = (s.part part).ctrbase := this
  rw [Machine.ctrAddr, hb, Machine.ctrAddr]

theorem passToken_word {s : State} {r next job : Nat} (ht : (s.region r).token = some (next, job))
    (hs : (s.region r).saved = none) (hf : (s.region r).frozen = false) (hd : phaseDrained s (s.region r) = true)
    (hne : job ≠ next) (hj : job < 4096) (hn : next < 4096) :
    (passToken r s).word (ctrAddr s (s.region r).part next) = 3 * 2 ^ 61 + 2 ^ 59 + job * 2 ^ 44 + 1 := by
  have h := ctrGet_tokenCounters ((tokenEnds s r).renewed r (s.region r).part) (s.region r).part (s.region r).phase hne hj hn
  rw [← (passToken_passes ht hs hf hd).toWithin.ctrAddr, ← h, ctrGet]
  rw [passToken_eq ht hs hf hd]
  dsimp only
  exact (State.setRegion_sameMemory _ r _).word _

end Sys2Proof.Machine
end

section
/-! SUPPORT. `reconf` (R273 step 1). -/

namespace Sys2Proof.Machine

section
variable {s : State} {r k : Nat} {d : BitVec 5} {h : BitVec 12}

/-- Whether the job of a task is at its limit (R25). -/
def jobFull (s : State) (r : Nat) : Bool :=
  s.me.counter ≠ 0 && ctrFull s (s.region r).part (ctrRoot s (s.region r).part 5 s.me.counter) 1

theorem jobFull_iff : jobFull s r = true ↔ s.me.counter ≠ 0 ∧
    s.word (ctrAddr s (s.region r).part (ctrRoot s (s.region r).part 5 s.me.counter)) % 2 ^ 32 = 0xFFFFFFFF := by
  rw [jobFull, Bool.and_eq_true, ctrFull_one, decide_eq_true_eq]

/-- `reconf` by its conditions, in the order in which they refuse. -/
theorem exec_reconf (hc : s.cur = .seq r k) : exec (.reconf d h) s = .next
    (if ctrBad s (s.region r).part h.toNat then s.answer d stBADHANDLE 0
    else if s.word (ctrAddr s (s.region r).part h.toNat) % 2 ^ 32 ≠ 0 then s.answer d stBUSY 0
    else if jobFull s r then s.answer d stOVF 0
    else if (s.region r).token ≠ none then s.holdMe (.wait (.reconf d h))
    else (startToken s r h.toNat).answer d stOK 0) := by
  show execReconf d h s = _
  rw [execReconf, onSequencer_seq hc, jobFull]
  simp only [ctrCount_eq, ctrGet]

theorem exec_reconfHoldEnd (hw : ((s.region r).task k).hold = .wait (.reconf d h)) (ht : (s.region r).token = none) :
    exec (.reconfHoldEnd (.seq r k)) s = .next (s.ready (.seq r k)) := by
  show execReconfHoldEnd _ s = _
  rw [execReconfHoldEnd, holdEnd, show (s.task (.seq r k)).hold = .wait (.reconf d h) from hw]
  dsimp only
  rw [tokenGone, ht]
  rfl

/-- The phase counter with its OPEN bit clear, if there is a phase. -/
def phaseClosed (s : State) (r : Nat) : State :=
  if (s.region r).phase = 0 then s
  else ctrPut s (s.region r).part (s.region r).phase (setBits (ctrGet s (s.region r).part (s.region r).phase) 59 59 0)

theorem phaseClosed_memoryOnly (s : State) (r : Nat) : memoryOnly s (phaseClosed s r) := by
  unfold phaseClosed
  split
  · exact .refl s
  · exact ctrPut_memoryOnly ..

theorem phaseClosed_zero (hp : (s.region r).phase = 0) : phaseClosed s r = s := if_pos hp

theorem setBits_open (w : Nat) (hw : w < 2 ^ 64) : setBits w 59 59 0 % 2 ^ 64 = w - w / 2 ^ 59 % 2 * 2 ^ 59 := by
  unfold setBits nbits
  omega

theorem phaseClosed_word (hp : (s.region r).phase ≠ 0) :
    let a := ctrAddr s (s.region r).part (s.region r).phase
    (phaseClosed s r).word a = s.word a - s.word a / 2 ^ 59 % 2 * 2 ^ 59 ∧ sameBut s (phaseClosed s r) a 8 := by
  have h := (phaseClosed_memoryOnly s r).word (s.region r).part (s.region r).phase
  dsimp only
  rw [h]
  unfold phaseClosed
  rw [if_neg hp, ctrGet_ctrPut, setBits_open _ (ctrGet_lt ..)]
  exact ⟨rfl, ctrPut_sameBut _ _ _ _⟩

/-- A region with a token under way. -/
def Region.underWay (g : Region) (x : Nat × Nat) : Region := { g with token := some x }

theorem startToken_eq (n : Nat) : startToken s r n = (phaseClosed s r).setRegion r (((phaseClosed s r).region r).underWay
    (n, ctrRoot s (s.region r).part 5 s.me.counter)) := rfl

/-- A token that starts (R273 step 1): its task answered, its region with the token, the phase counter without OPEN. -/
theorem startToken_answers (hc : s.cur = .seq r k) (d : BitVec 5) (n : Nat) :
    let t := (startToken s r n).answer d stOK 0
    let a := ctrAddr s (s.region r).part (s.region r).phase
    t.me = { s.me.set d 0 with pc := s.me.pc + 4, hold := .ready } ∧
      { t.region r with tasks := [] } = { s.region r with tasks := [], token := (t.region r).token } ∧
      (t.region r).token.map (·.1) = some n ∧
      (∀ c, c ≠ s.cur → t.task c = s.task c) ∧
      onlyRegion r { s with mem := t.mem, stores := t.stores, poison := t.poison } t ∧
      ((s.region r).phase = 0 → sameMemory s t) ∧
      ((s.region r).phase ≠ 0 → t.word a = s.word a - s.word a / 2 ^ 59 % 2 * 2 ^ 59 ∧ sameBut s t a 8) := by
  rw [startToken_eq]
  have hmem := phaseClosed_memoryOnly s r
  have hzero := phaseClosed_zero (s := s) (r := r)
  have hword := phaseClosed_word (s := s) (r := r)
  generalize phaseClosed s r = u at *
  generalize ctrRoot s (s.region r).part 5 s.me.counter = job
  have hur := hmem.region r
  have hv := u.setRegion_onlyRegion r ((u.region r).underWay (n, job))
  have hvr : (u.setRegion r ((u.region r).underWay (n, job))).region r = (s.region r).underWay (n, job) := by
    rw [State.region_setRegion, hur]
  have hvt : ∀ c, (u.setRegion r ((u.region r).underWay (n, job))).task c = s.task c := fun c =>
    (State.task_setRegion_of_tasks (g := (u.region r).underWay (n, job)) rfl c).trans (hmem.tables.task c)
  have hvc : (u.setRegion r ((u.region r).underWay (n, job))).cur = .seq r k := hmem.tables.cur.trans hc
  generalize u.setRegion r ((u.region r).underWay (n, job)) = v at *
  have hme : v.me = s.me := by
    rw [State.me, hvc, hvt, State.me, hc]
  have hans : ends v (v.answer d stOK 0) { v.me.set d 0 with pc := v.me.pc + 4, hold := .ready } :=
    v.answer_ends d (code := 0) (by decide)
  obtain ⟨h1, ⟨-, h2, h3, -⟩, h4⟩ := hans
  have h5 := hv.trans (State.answer_onlyRegion hvc d stOK 0)
  have hsame := hv.sameMemory.trans h4
  generalize v.answer d stOK 0 = t at *
  have htok : (t.region r).token = some (n, job) := by
    have := congrArg Region.token (h3 r)
    have h : (t.region r).token = (v.region r).token := this
    rw [h, hvr]
    rfl
  refine ⟨by rw [h1, hme], ?_, by rw [htok]; rfl, fun c hne => ?_, ?_, fun hp => ?_, fun hp => ?_⟩
  · rw [htok, h3 r, hvr]
    rfl
  · rw [h2 c (by rwa [hvc, ← hc]), hvt]
  · have hm := congrArg State.mem h5.1
    have hst := congrArg State.stores h5.1
    have hpo := congrArg State.poison h5.1
    dsimp only at hm hst hpo
    have hu : { s with mem := t.mem, stores := t.stores, poison := t.poison } = u := by
      rw [hm, hst, hpo]
      exact hmem
    rw [hu]
    exact h5
  · rw [hzero hp] at hsame
    exact hsame
  · obtain ⟨hw, hb⟩ := hword hp
    exact ⟨(hsame.word _).trans hw, hb.memory hsame⟩

end

end Sys2Proof.Machine

namespace Sys2Proof.Settled

open Sys2Proof.Machine

/-- Settles O34: `reconf` answers by the first condition that holds; the token that passes leaves the region that
`Region.renew` makes of the one at the end of the phase. -/
theorem reconfigurationResult : Obligations.ReconfigurationResult := by
  intro s r k d h
  dsimp only
  have hbad := ctrBad_handle s (s.region r).part h
  have hfull := jobFull_iff (s := s) (r := r)
  refine ⟨fun hc h0 hl hz hj ht => ?_, fun hc => ⟨_, exec_reconf hc, fun code hcode => ?_, fun hb hz hf ht => ?_⟩,
    fun ht hw => ⟨_, exec_reconfHoldEnd hw ht, s.ready_ends (.seq r k)⟩, fun next job ht hs hf hd => ?_⟩
  · have hb : ctrBad s (s.region r).part h.toNat ≠ true := fun e => by
      rcases hbad.1 e with e | e
      · exact h0 e
      · omega
    have hf : jobFull s r ≠ true := fun e => by
      obtain ⟨e1, e2⟩ := hfull.1 e
      rcases hj with hj | hj
      · exact e1 hj
      · omega
    refine ⟨_, exec_reconf hc, ?_⟩
    rw [if_neg hb, if_neg (not_not.2 hz), if_neg hf, if_neg (not_not.2 ht)]
    exact startToken_answers hc d h.toNat
  · have ha := fun {n : Nat} => s.answer_ends d (code := n)
    rcases hcode with ⟨hb, rfl⟩ | ⟨hb, hz, rfl⟩ | ⟨hb, hz, hf, rfl⟩
    · rw [if_pos (hbad.2 hb)]
      exact ha (by decide)
    · rw [if_neg fun e => hb (hbad.1 e), if_pos hz]
      exact ha (by decide)
    · rw [if_neg fun e => hb (hbad.1 e), if_neg hz, if_pos (hfull.2 hf)]
      exact ha (by decide)
  · rw [if_neg fun e => hb (hbad.1 e), if_neg hz, if_neg fun e => hf (hfull.1 e), if_pos ht]
    exact (ends.refl s).holdMe _
  · have hp := passToken_passes ht hs hf hd
    refine ⟨_, rfl, hp.others, hp.lists, ?_, fun _ hne hj hn => passToken_word ht hs hf hd hne hj hn⟩
    have hreg := passToken_region ht hs hf hd
    have hpass := (tokenEnds_passes s r).kept
    have hsettled := tokenEnds_settled s r
    have hone := fun {e} => tokenEnds_one s r (e := e)
    generalize (passToken r s).region r = u at hreg
    generalize tokenEnds s r = v at hreg hpass hsettled hone
    obtain ⟨htoken, hctx, hnext, hoor, hres, htasks, hqueue, henabled, hspares, hretiring⟩ :=
      (v.region r).renew_fields (v.part (s.region r).part).books
    have hisland := fun {j x} => (v.region r).renew_island (v.part (s.region r).part).books (j := j) (x := x)
    have helement := (v.region r).renew_element (v.part (s.region r).part).books
    generalize (v.region r).renew (v.part (s.region r).part).books = w at *
    subst hreg
    dsimp only at hpass ⊢
    have hp1 := congrArg Region.ctx hpass
    have hp2 := congrArg Region.ctxNext hpass
    have hp3 := congrArg Region.pending hpass
    have hp4 := congrArg Region.tasks hpass
    have hp5 := congrArg Region.queue hpass
    change (v.region r).ctx = _ at hp1
    change (v.region r).ctxNext = _ at hp2
    change (v.region r).pending = _ at hp3
    change (v.region r).tasks = _ at hp4
    change (v.region r).queue = _ at hp5
    rw [hp1, hp2] at hctx
    rw [hp3] at hres
    refine ⟨rfl, htoken, hctx, hnext, hoor, hres, htasks.trans hp4, hqueue.trans hp5, fun hr => ?_,
      fun e x hr he hnd hx hl => ?_⟩
    · have hs' := (hsettled hr).kept
      have h1 := congrArg (fun p => p.1.enabled) hs'
      have h2 := congrArg (fun p => p.1.spares) hs'
      change (v.region r).enabled = (s.region r).enabled at h1
      change (v.region r).spares = (s.region r).spares at h2
      refine ⟨henabled.trans h1, hspares.trans h2, fun j x hx => ?_, fun e => ?_⟩
      · rw [← h1]
        exact hisland hx
      · exact (helement e).trans (congrFun (congrArg Prod.snd hs') e)
    · obtain ⟨g, hg, hv⟩ := hone hr he
      have h1 := congrArg (fun p => p.1.enabled) hg
      have h2 := congrArg (fun p => p.1.spares) hg
      have h3 := congrArg (fun p => p.1.retiring) hg
      change g.enabled = (s.region r).enabled at h1
      change g.spares = (s.region r).spares at h2
      change g.retiring = (s.region r).retiring at h3
      rw [henabled, hspares, hretiring, hv]
      have hlow : lowest g.spares = some x := by
        rw [h2]
        exact lowest_eq hx hl
      unfold Region.retired
      dsimp only
      rw [hlow, h1, h2, h3, hr]
      exact ⟨rfl, rfl, List.erase_cons_head ..⟩

end Sys2Proof.Settled
end

section
/-! SUPPORT. Accesses of agents in a machine without a failing unit (R358, R359): they meet no error, and what they do
does not depend on the regions. -/

namespace Sys2Proof.Machine

/-- A state with another table of regions. -/
def State.under (s : State) (R : Map Region) : State := { s with regions := R }

section
variable (s : State) (R : Map Region)

/-! ### What does not look at the regions -/

@[simp] theorem State.under_pkg : (s.under R).pkg = s.pkg := rfl
@[simp] theorem State.under_place (a : Nat) : (s.under R).place a = s.place a := rfl
@[simp] theorem State.under_bytes (a n : Nat) : (s.under R).bytes a n = s.bytes a n := by
  rw [State.bytes_eq_map, State.bytes_eq_map]
  rfl
@[simp] theorem State.under_word (a : Nat) : (s.under R).word a = s.word a := by
  rw [State.word, State.under_bytes, State.word]
@[simp] theorem State.under_tlb (a : Nat) : (s.under R).tlb a = s.tlb a := rfl
@[simp] theorem State.under_walks : (s.under R).walks = s.walks := rfl
@[simp] theorem State.under_stores : (s.under R).stores = s.stores := rfl
@[simp] theorem routeDead_under (a : Nat) : routeDead (s.under R) a = routeDead s a := rfl
@[simp] theorem homeRefuses_under (p a : Nat) : homeRefuses (s.under R) p a = homeRefuses s p a := rfl
@[simp] theorem ownerOk_under (p a : Nat) : ownerOk (s.under R) p a = ownerOk s p a := rfl
@[simp] theorem leafShape_under (e : Word) (lvl pa : Nat) (k : Access) :
    leafShape (s.under R) e lvl pa k = leafShape s e lvl pa k := rfl
@[simp] theorem leafRights_under (x : XCtx) (e : Word) (lvl va pa : Nat) (k : Access) :
    leafRights (s.under R) x e lvl va pa k = leafRights s x e lvl va pa k := rfl
@[simp] theorem entryContended_under (x : XCtx) (a : Nat) : entryContended (s.under R) x a = entryContended s x a := rfl
@[simp] theorem contiguous_under (a : Nat) (e : Word) : contiguous (s.under R) a e = contiguous s a e := by
  unfold contiguous
  simp
@[simp] theorem boxBase_under (p : Nat) : boxBase (s.under R) p = boxBase s p := rfl
@[simp] theorem pieceHole_under (p : Piece) : pieceHole (s.under R) p = pieceHole s p := rfl
@[simp] theorem pieceLost_under (part : Nat) (p : Piece) : pieceLost (s.under R) part p = pieceLost s part p := rfl
@[simp] theorem mergesPoison_under (a n : Nat) : mergesPoison (s.under R) a n = mergesPoison s a n := rfl
@[simp] theorem endpointVa_under (p h : Nat) : endpointVa (s.under R) p h = endpointVa s p h := rfl
@[simp] theorem State.under_busByte (a : Nat) : (s.under R).busByte a = s.busByte a := rfl
@[simp] theorem State.under_busBytes (a n : Nat) : (s.under R).busBytes a n = s.busBytes a n := by
  induction n generalizing a with
  | zero => rfl
  | succ n ih => rw [State.busBytes, ih, State.under_busByte, State.busBytes]
@[simp] theorem storedByte_under (l : List PStore) (a : Nat) (b : Byte) :
    storedByte (s.under R) l a b = storedByte s l a b := rfl
@[simp] theorem storedBytes_under (a : Nat) (l : List Byte) : storedBytes (s.under R) a l = storedBytes s a l := by
  induction l generalizing a with
  | nil => rfl
  | cons b l ih => rw [storedBytes, ih, storedBytes, storedByte_under, State.under_stores]

/-! ### Changes of what is no region -/

@[simp] theorem State.under_write (a : Nat) (bs : List Byte) : (s.under R).write a bs = (s.write a bs).under R := rfl
@[simp] theorem State.under_writeWord (a v : Nat) : (s.under R).writeWord a v = (s.writeWord a v).under R := rfl
@[simp] theorem State.under_setTlb (a : Nat) (l : List Tlb) : (s.under R).setTlb a l = (s.setTlb a l).under R := rfl
@[simp] theorem State.under_takeFree : (s.under R).takeFree = (s.takeFree.1, s.takeFree.2.under R) := rfl
@[simp] theorem sendVector_under (p v : Nat) : sendVector (s.under R) p v = (sendVector s p v).under R := by
  unfold sendVector
  show (if s.boot ≠ .up || (s.part p).vectors.getLsbD v then s.under R else _) = _
  dsimp only
  split <;> rfl

end

/-! ### Steps in a machine without a failing unit -/

/-- Two answers of one access, over two tables of regions, in a machine without a failing unit. -/
def blind {α : Type} (R : Map Region) (p q : α × State) : Prop := p = (q.1, q.2.under R) ∧ q.2.clean

section
variable {s : State} (h : s.clean) (R : Map Region)
include h

theorem State.clean.blind {α : Type} (a : α) : blind R (a, s.under R) (a, s) := ⟨rfl, h⟩

theorem State.clean.under : (s.under R).clean := h

theorem readUnits_clean (chip pa n : Nat) : readUnits s chip pa n = (false, s) := by
  induction n with
  | zero => rfl
  | succ n ih =>
    rw [readUnits, ih]
    dsimp only
    rw [readUnit_clean h]
    split <;> rfl

theorem readFrameByte_clean (chip pa : Nat) : readFrameByte s chip pa = (false, s) := by
  unfold readFrameByte
  split
  · exact readUnits_clean h ..
  · rfl

/-! ### Translation (R97 to R103) -/

theorem leafCheck_blind (x : XCtx) (e : Word) (lvl va pa : Nat) (k : Access) :
    blind R (leafCheck (s.under R) x e lvl va pa k) (leafCheck s x e lvl va pa k) := by
  unfold leafCheck
  rw [readFrameByte_clean h, readFrameByte_clean (h.under R)]
  dsimp only
  rw [leafShape_under, leafRights_under]
  split
  · exact h.blind R _
  · split <;> exact h.blind R _

theorem readEntry_blind (x : XCtx) (a : Nat) : blind R (readEntry (s.under R) x a) (readEntry s x a) := by
  unfold readEntry
  rw [readUnits_clean h, readUnits_clean (h.under R)]
  dsimp only
  rw [routeDead_under, homeRefuses_under, State.under_word]
  split
  · exact h.blind R _
  split <;> exact h.blind R _

end

theorem walkGo_blind (R : Map Region) (x : XCtx) (va : Nat) (k : Access) (l base : Nat) {s : State} (h : s.clean) :
    walkGo x va k l base (s.under R) = ((walkGo x va k l base s).1, (walkGo x va k l base s).2.1,
      (walkGo x va k l base s).2.2.1, (walkGo x va k l base s).2.2.2.under R) ∧ (walkGo x va k l base s).2.2.2.clean := by
  induction l generalizing base s with
  | zero => exact ⟨rfl, h⟩
  | succ l ih =>
    have hw := fun {t : State} (ht : t.clean) (e : Word) => ih (ptePfn e) (s := if l + 1 ≥ 3 then
      fillWalk t x va (l + 1) (ptePfn e) else t) (by split; exacts [ht, ht])
    obtain ⟨he, hc⟩ := readEntry_blind h R x (base * 4096 + 8 * vaIndex va (l + 1))
    unfold walkGo
    dsimp only
    rw [readFrameByte_clean h, readFrameByte_clean (h.under R)]
    dsimp only
    rw [he]
    generalize readEntry s x (base * 4096 + 8 * vaIndex va (l + 1)) = p at hc
    obtain ⟨a, t⟩ := p
    rw [ownerOk_under]
    dsimp only at hc ⊢
    have hfill : ∀ e : Word, (if l + 1 ≥ 3 then fillWalk (t.under R) x va (l + 1) (ptePfn e) else t.under R) =
        (if l + 1 ≥ 3 then fillWalk t x va (l + 1) (ptePfn e) else t).under R := fun e => by split <;> rfl
    by_cases ho : ownerOk s x.part (base * 4096) = true
    · simp only [ho, Bool.not_true, Bool.false_eq_true, if_false]
      cases a with
      | memerr => exact ⟨rfl, hc⟩
      | unreach d => exact ⟨rfl, hc⟩
      | ok e =>
        dsimp only
        rw [hfill]
        split
        · exact ⟨rfl, hc⟩
        split
        · exact ⟨rfl, hc⟩
        split
        · exact ⟨rfl, hc⟩
        · exact hw hc e
    · simp only [Bool.not_eq_true] at ho
      simp only [ho, Bool.not_false, Bool.false_eq_true, if_true, if_false]
      exact ⟨trivial, h⟩

/-! ### Steps of a translation that only write -/

theorem foldl_blind {α : Type} {R : Map Region} {f : State → α → State}
    (hf : ∀ (t : State) (x : α), t.clean → f (t.under R) x = (f t x).under R ∧ (f t x).clean) (l : List α) {s : State}
    (h : s.clean) : l.foldl f (s.under R) = (l.foldl f s).under R ∧ (l.foldl f s).clean := by
  induction l generalizing s with
  | nil => exact ⟨rfl, h⟩
  | cons x l ih =>
    obtain ⟨he, hc⟩ := hf s x h
    rw [List.foldl_cons, List.foldl_cons, he]
    exact ih hc

theorem setAccessed_blind {s : State} (h : s.clean) (R : Map Region) (a : Nat) (g : Bool) :
    setAccessed (s.under R) a g = (setAccessed s a g).under R ∧ (setAccessed s a g).clean := by
  have one : ∀ {t : State} (b : Nat), t.clean →
      (if nbit ((t.under R).word b) 4 then t.under R else (t.under R).writeWord b ((t.under R).word b + 16)) =
        (if nbit (t.word b) 4 then t else t.writeWord b (t.word b + 16)).under R ∧
      (if nbit (t.word b) 4 then t else t.writeWord b (t.word b + 16)).clean := by
    intro t b ht
    rw [State.under_word, State.under_writeWord]
    split
    · exact ⟨rfl, ht⟩
    · exact ⟨rfl, ht.write _ _⟩
  unfold setAccessed
  split
  · exact foldl_blind (fun t j ht => one _ ht) _ h
  · exact one a h

section
variable {s : State} (h : s.clean) (R : Map Region)
include h

theorem readGroup_blind (x : XCtx) (a : Nat) (e : Word) :
    blind R (readGroup (s.under R) x a e) (readGroup s x a e) := by
  unfold readGroup
  rw [readUnits_clean h, readUnits_clean (h.under R)]
  dsimp only
  rw [contiguous_under]
  split <;> exact h.blind R _

theorem swapsFail_blind (x : XCtx) (a : Nat) : blind R (swapsFail (s.under R) x a) (swapsFail s x a) := by
  unfold swapsFail
  rw [State.under_pkg, entryContended_under, State.under_takeFree]
  split
  · exact ⟨rfl, h⟩
  · exact h.blind R _

theorem setDirty_blind (x : XCtx) (va : Nat) (t : Tlb) :
    setDirty (s.under R) x va t = (setDirty s x va t).under R ∧ (setDirty s x va t).clean := by
  unfold setDirty
  dsimp only
  rw [State.under_word, State.under_writeWord]
  split
  · exact ⟨rfl, h⟩
  split
  · exact ⟨rfl, h⟩
  · exact ⟨rfl, h.write _ _⟩

theorem markDirty_blind (x : XCtx) (va : Nat) (k : Access) (t : Tlb) (r : Nat × Word) :
    blind R (markDirty (s.under R) x va k t r) (markDirty s x va k t r) := by
  unfold markDirty
  split
  · exact h.blind R _
  obtain ⟨he, hc⟩ := swapsFail_blind h R x (t.slotAt va).2
  rw [he]
  generalize swapsFail s x (t.slotAt va).2 = p at hc
  obtain ⟨b, u⟩ := p
  cases b with
  | true => exact ⟨rfl, hc⟩
  | false =>
    obtain ⟨hd, hcd⟩ := setDirty_blind hc R x va t
    exact ⟨Prod.ext rfl hd, hcd⟩

end

end Sys2Proof.Machine
end

section
/-! SUPPORT. One translation in a machine without a failing unit (R97 to R103), over any table of regions. -/

namespace Sys2Proof.Machine

/-- R97, R100 to R103: what a walk that reached a leaf goes on with, as `translateMiss` does it. -/
def leafEnd (x : XCtx) (v : Nat) (k : Access) (setD : Bool) (e : Word) (l ea pa : Nat) (s0 : State) : XRes × State :=
  let pages := levelPages l
  let (group, s1) := if l = 1 then readGroup s0 x ea e else (false, s0)
  let s2 := setAccessed s1 ea group
  let j := if group then v / 4096 % 16 else 0
  let n := if group then 16 else pages
  let t : Tlb :=
    { part := x.part, cid := if pteG e then none else some x.cid
      vpn := if l = 1 then v / 4096 - j else v / 4096 / pages * pages
      pages := n
      pfn := ptePfn e - j
      leaf := e, level := l, leafAddr := ea
      dirty := if group then
          (upTo 16).filter fun i => nbit (s1.word (ea / 128 * 128 + 8 * i)) 5
        else if pteD e then [0] else [] }
  let s3 := s2.setTlb x.agent (lruPut (tlbSize x.agent) (s2.tlb x.agent) t)
  if k.writes && setD then
    match markDirty s3 x v k t (pa, e) with
    | (.fault c, u) => (.fault c, u.setTlb x.agent (s2.tlb x.agent))
    | r => r
  else (.ok pa e, s3)

/-- R100: where a walk begins: below the deepest entry of the walk cache, or at the root. -/
def walkStart (s : State) (x : XCtx) (v : Nat) : Nat × Nat × State :=
  match walkHit (mapGet [] s.walks x.walker) x.part x.cid v with
  | some w => (w.level - 1, w.pfn,
      { s with walks := mapSet [] s.walks x.walker (lruPut 256 (mapGet [] s.walks x.walker) w) })
  | none => (5, x.root, s)

theorem translateMiss_eq (s : State) (x : XCtx) (v : Nat) (k : Access) (setD : Bool) : translateMiss s x v k setD =
    match walkGo x v k (walkStart s x v).1 (walkStart s x v).2.1 (walkStart s x v).2.2 with
    | (.ok _ e, l, ea, s0) =>
      let pa := (ptePfn e + v / 4096 % levelPages l) * 4096 + v % 4096
      match leafCheck s0 x e l v pa k with
      | (.ok _ _, s1) => leafEnd x v k setD e l ea pa s1
      | r => r
    | (r, _, _, s1) => (r, s1) := rfl

section
variable {s : State} (h : s.clean) (R : Map Region)
include h

theorem walkStart_blind (x : XCtx) (v : Nat) : walkStart (s.under R) x v = ((walkStart s x v).1,
    (walkStart s x v).2.1, (walkStart s x v).2.2.under R) ∧ (walkStart s x v).2.2.clean := by
  unfold walkStart
  rw [State.under_walks]
  cases walkHit (mapGet [] s.walks x.walker) x.part x.cid v <;> exact ⟨rfl, h⟩

/-- R99, R102: the group and A of a leaf. -/
theorem leafGroup_blind (x : XCtx) (e : Word) (l ea : Nat) :
    blind R (if l = 1 then readGroup (s.under R) x ea e else (false, s.under R))
      (if l = 1 then readGroup s x ea e else (false, s)) := by
  split
  · exact readGroup_blind h R x ea e
  · exact h.blind R _

theorem leafEnd_blind (x : XCtx) (v : Nat) (k : Access) (setD : Bool) (e : Word) (l ea pa : Nat) :
    blind R (leafEnd x v k setD e l ea pa (s.under R)) (leafEnd x v k setD e l ea pa s) := by
  obtain ⟨hg, hcg⟩ := leafGroup_blind h R x e l ea
  unfold leafEnd
  rw [hg]
  generalize (if l = 1 then readGroup s x ea e else (false, s)) = p at hcg
  obtain ⟨group, s1⟩ := p
  obtain ⟨ha, hca⟩ := setAccessed_blind hcg R ea group
  dsimp only at ha ⊢
  rw [ha]
  generalize setAccessed s1 ea group = s2 at hca
  simp only [State.under_word, State.under_tlb, State.under_setTlb]
  split
  · next hk =>
    generalize (Tlb.mk _ _ _ _ _ _ _ _ _) = t
    have hc : (s2.setTlb x.agent (lruPut (tlbSize x.agent) (s2.tlb x.agent) t)).clean := hca
    obtain ⟨hm, hcm⟩ := markDirty_blind hc R x v k t (pa, e)
    rw [hm]
    generalize markDirty (s2.setTlb x.agent (lruPut (tlbSize x.agent) (s2.tlb x.agent) t)) x v k t (pa, e) = q at hcm
    obtain ⟨a, u⟩ := q
    cases a <;> exact ⟨rfl, hcm⟩
  · exact ⟨rfl, hca⟩

theorem translateMiss_blind (x : XCtx) (v : Nat) (k : Access) (setD : Bool) :
    blind R (translateMiss (s.under R) x v k setD) (translateMiss s x v k setD) := by
  rw [translateMiss_eq, translateMiss_eq]
  obtain ⟨hw, hcw⟩ := walkStart_blind h R x v
  rw [hw]
  generalize walkStart s x v = w at hcw
  obtain ⟨lvl, base, s0⟩ := w
  obtain ⟨hg, hcg⟩ := walkGo_blind R x v k lvl base hcw
  dsimp only at hg ⊢
  rw [hg]
  generalize walkGo x v k lvl base s0 = g at hcg
  obtain ⟨a, l, ea, s1⟩ := g
  cases a with
  | ok _ e =>
    dsimp only
    generalize (ptePfn e + v / 4096 % levelPages l) * 4096 + v % 4096 = pa
    obtain ⟨hl, hcl⟩ := leafCheck_blind hcg R x e l v pa k
    dsimp only at hl
    rw [hl]
    generalize leafCheck s1 x e l v pa k = c at hcl
    obtain ⟨b, s2⟩ := c
    cases b with
    | ok _ _ => exact leafEnd_blind hcl R x v k setD e l ea pa
    | fault _ => exact ⟨rfl, hcl⟩
    | memerr _ => exact ⟨rfl, hcl⟩
    | unreach _ => exact ⟨rfl, hcl⟩
  | fault _ => exact ⟨rfl, hcg⟩
  | memerr _ => exact ⟨rfl, hcg⟩
  | unreach _ => exact ⟨rfl, hcg⟩

theorem translateHit_blind (x : XCtx) (v : Nat) (k : Access) (setD : Bool) (t : Tlb) :
    blind R (translateHit (s.under R) x v k setD t) (translateHit s x v k setD t) := by
  unfold translateHit
  dsimp only
  split
  · exact h.blind R _
  obtain ⟨he, hce⟩ := readEntry_blind h R x (t.slotAt v).2
  rw [he]
  generalize readEntry s x (t.slotAt v).2 = p at hce
  obtain ⟨a, u⟩ := p
  cases a with
  | memerr => exact ⟨rfl, hce⟩
  | unreach _ => exact ⟨rfl, hce⟩
  | ok e =>
    dsimp only
    split
    · exact markDirty_blind hce R x v k t _
    · exact translateMiss_blind (s := u.setTlb x.agent ((u.tlb x.agent).filter fun y => y ≠ t)) hce R x v k setD

theorem translate_blind (x : XCtx) (va : Nat) (k : Access) (setD : Bool) :
    blind R (translate (s.under R) x va k setD) (translate s x va k setD) := by
  unfold translate
  dsimp only
  split
  · exact h.blind R _
  rw [State.under_tlb]
  cases (s.tlb x.agent).find? (tlbMatches x (va % 2 ^ 64 % 2 ^ 57)) with
  | none => exact translateMiss_blind h R x _ k setD
  | some t =>
    have hc : (s.setTlb x.agent (lruPut (tlbSize x.agent) (s.tlb x.agent) t)).clean := h
    dsimp only
    rw [State.under_setTlb]
    split
    · exact hc.blind R _
    split
    · exact hc.blind R _
    · exact translateHit_blind hc R x _ k setD t

theorem xlate_blind (x : XCtx) (va : Nat) (k : Access) (setD : Bool) :
    blind R (xlate (s.under R) x va k setD) (xlate s x va k setD) := by
  unfold xlate
  split
  · unfold translatePhys
    rw [State.under_place]
    split
    · exact h.blind R _
    split <;> exact h.blind R _
  · exact translate_blind h R x va k setD

end

/-! ### Pieces (R235) -/

theorem piecesGo_blind (R : Map Region) (x : XCtx) (k : Access) (setD : Bool) (f va n : Nat) {s : State}
    (h : s.clean) : blind R (piecesGo x k setD f va n (s.under R)) (piecesGo x k setD f va n s) := by
  induction f generalizing va n s with
  | zero => exact h.blind R _
  | succ f ih =>
    unfold piecesGo
    dsimp only
    split
    · exact h.blind R _
    obtain ⟨hx, hcx⟩ := xlate_blind h R x va k setD
    rw [hx]
    generalize xlate s x va k setD = p at hcx
    obtain ⟨a, t⟩ := p
    obtain ⟨hr, hcr⟩ := ih ((va + min n (4096 - va % 4096)) % 2 ^ 64) (n - min n (4096 - va % 4096)) hcx
    dsimp only at hr hcr
    cases a with
    | ok pa leaf =>
      dsimp only
      rw [hr]
      generalize piecesGo x k setD f _ _ t = q at hcr
      obtain ⟨b, t'⟩ := q
      cases b <;> exact ⟨rfl, hcr⟩
    | fault c => exact ⟨rfl, hcx⟩
    | memerr l =>
      dsimp only
      rw [hr]
      exact ⟨rfl, hcr⟩
    | unreach d =>
      dsimp only
      rw [hr]
      exact ⟨rfl, hcr⟩

theorem pieces_blind {s : State} (h : s.clean) (R : Map Region) (x : XCtx) (va n : Nat) (k : Access) (setD : Bool) :
    blind R (pieces (s.under R) x va n k setD) (pieces s x va n k setD) := by
  obtain ⟨hp, hc⟩ := piecesGo_blind R x k setD (n / 4096 + 2) va n h
  unfold pieces
  dsimp only
  rw [hp]
  exact ⟨rfl, hc⟩

/-! ### Reads (R109, R116, R236) -/

section
variable {s : State} (h : s.clean) (R : Map Region)
include h

theorem readUnordered_blind (agent pa n : Nat) :
    blind R (readUnordered (s.under R) agent pa n) (readUnordered s agent pa n) := by
  unfold readUnordered
  dsimp only
  rw [State.under_stores, State.under_pkg, State.under_busBytes, State.under_takeFree]
  split
  · exact h.blind R _
  · refine ⟨Prod.ext ?_ rfl, h⟩
    exact State.under_busBytes
      { s with stores := (viewOf s agent (canonPa s.pkg.toNat pa) n s.takeFree.1).1 ++
        s.stores.filter fun p => !openAt agent (canonPa s.pkg.toNat pa) n p } R pa n

theorem pieceBytes_blind (agent : Nat) (p : Piece) :
    blind R (pieceBytes (s.under R) agent p) (pieceBytes s agent p) := by
  unfold pieceBytes
  split
  · exact readUnordered_blind h R agent p.pa p.n
  · rw [State.under_busBytes]
    exact h.blind R _

end

theorem readGo_blind (R : Map Region) (agent : Nat) (l : List Piece) {s : State} (h : s.clean) :
    blind R (readGo agent l (s.under R)) (readGo agent l s) := by
  induction l generalizing s with
  | nil => exact h.blind R _
  | cons p l ih =>
    unfold readGo
    rw [pieceHole_under]
    split
    · obtain ⟨hr, hc⟩ := ih h
      rw [hr]
      generalize readGo agent l s = q at hc
      obtain ⟨a, t⟩ := q
      cases a <;> exact ⟨rfl, hc⟩
    · rw [readUnits_clean h, readUnits_clean (h.under R)]
      obtain ⟨hb, hcb⟩ := pieceBytes_blind h R agent p
      simp only [Bool.false_eq_true, if_false]
      rw [hb]
      generalize pieceBytes s agent p = q at hcb
      obtain ⟨bs, t⟩ := q
      obtain ⟨hr, hc⟩ := ih hcb
      dsimp only at hr hc ⊢
      rw [hr]
      generalize readGo agent l t = w at hc
      obtain ⟨a, u⟩ := w
      cases a <;> exact ⟨rfl, hc⟩

section
variable {s : State} (h : s.clean) (R : Map Region)
include h

theorem readPieces_blind (agent part : Nat) (l : List Piece) :
    blind R (readPieces agent part l (s.under R)) (readPieces agent part l s) := by
  obtain ⟨hr, hc⟩ := readGo_blind R agent l h
  have hlost : pieceLost (s.under R) part = pieceLost s part := rfl
  unfold readPieces
  rw [hlost]
  cases l.find? (pieceLost s part) with
  | some p => exact h.blind R _
  | none =>
    dsimp only
    rw [hr]
    exact ⟨rfl, hc⟩

theorem readVirt_blind (x : XCtx) (va n : Nat) (k : Access) :
    blind R (readVirt (s.under R) x va n k) (readVirt s x va n k) := by
  obtain ⟨hp, hcp⟩ := pieces_blind h R x va n k true
  unfold readVirt
  rw [hp]
  generalize pieces s x va n k true = p at hcp
  obtain ⟨a, t⟩ := p
  cases a with
  | ok l =>
    obtain ⟨hr, hcr⟩ := readPieces_blind hcp R x.agent x.part l
    dsimp only at hr ⊢
    rw [hr]
    generalize readPieces x.agent x.part l t = q at hcr
    obtain ⟨b, u⟩ := q
    cases b <;> exact ⟨rfl, hcr⟩
  | _ => exact ⟨rfl, hcp⟩

/-! ### Writes (R188, R248) -/

theorem sendVector_clean (p v : Nat) : (sendVector s p v).clean := by
  unfold sendVector
  dsimp only
  split <;> exact h

end

theorem pageVectors_blind (R : Map Region) (s : State) {t : State} (h : t.clean) :
    pageVectors (s.under R) (t.under R) = (pageVectors s t).under R ∧ (pageVectors s t).clean := by
  have one : ∀ {t : State} (c : Prop) [Decidable c] (p v : Nat), t.clean →
      (if c then t.under R else sendVector (t.under R) p v) = (if c then t else sendVector t p v).under R ∧
        (if c then t else sendVector t p v).clean := by
    intro t c _ p v ht
    split
    · exact ⟨rfl, ht⟩
    · exact ⟨sendVector_under t R p v, sendVector_clean ht p v⟩
  unfold pageVectors
  refine foldl_blind (fun u p hu => ?_) _ h
  rw [boxBase_under]
  cases boxBase s p with
  | none => exact ⟨rfl, hu⟩
  | some b =>
    obtain ⟨he, hc⟩ := one (leToNat ((upTo 8).map fun i => memGet s.mem (b + 0x1000 + i)) =
      leToNat ((upTo 8).map fun i => memGet t.mem (b + 0x1000 + i))) p 0 hu
    have hlast := one (leToNat ((upTo 4).map fun i => memGet s.mem (b + 0x2000 + i)) =
      leToNat ((upTo 4).map fun i => memGet t.mem (b + 0x2000 + i))) p 2 hc
    rw [← he] at hlast
    exact hlast

theorem busWrite_blind {s : State} (h : s.clean) (R : Map Region) (a : Nat) (bs : List Byte) :
    (s.under R).busWrite a bs = (s.busWrite a bs).under R ∧ (s.busWrite a bs).clean := by
  unfold State.busWrite
  rw [storedBytes_under, State.under_pkg, State.under_write]
  exact pageVectors_blind R s (h.write _ _)

theorem writePieces_blind (R : Map Region) (part : Nat) (l : List Piece) (bs : List Byte) {s : State} (h : s.clean) :
    blind R (writePieces part l bs (s.under R)) (writePieces part l bs s) := by
  induction l generalizing bs s with
  | nil => exact h.blind R _
  | cons p l ih =>
    obtain ⟨hw, hcw⟩ := busWrite_blind h R p.pa (bs.take p.n)
    unfold writePieces
    dsimp only
    rw [pieceHole_under, pieceLost_under, State.under_pkg, mergesPoison_under, routeDead_under, hw]
    split
    · exact ih _ h
    split
    · exact h.blind R _
    split
    · exact h.blind R _
    · exact ih _ hcw

section
variable {s : State} (h : s.clean) (R : Map Region)
include h

theorem writeVirt_blind (x : XCtx) (va : Nat) (bs : List Byte) (setD : Bool) :
    blind R (writeVirt (s.under R) x va bs setD) (writeVirt s x va bs setD) := by
  obtain ⟨hp, hcp⟩ := pieces_blind h R x va bs.length .write setD
  unfold writeVirt
  rw [hp]
  generalize pieces s x va bs.length .write setD = p at hcp
  obtain ⟨a, t⟩ := p
  cases a with
  | ok l =>
    obtain ⟨hr, hcr⟩ := writePieces_blind R x.part l bs hcp
    dsimp only at hr ⊢
    rw [hr]
    generalize writePieces x.part l bs t = q at hcr
    obtain ⟨b, u⟩ := q
    cases b <;> exact ⟨rfl, hcr⟩
  | _ => exact ⟨rfl, hcp⟩

/-! ### Endpoints (R31) -/

theorem endpointGet_blind (x : XCtx) (e : Nat) :
    blind R (endpointGet (s.under R) x e) (endpointGet s x e) := by
  obtain ⟨hr, hc⟩ := readVirt_blind h R x (endpointVa s x.part e) 16 .read
  unfold endpointGet
  rw [endpointVa_under, hr]
  generalize readVirt s x (endpointVa s x.part e) 16 .read = p at hc
  obtain ⟨a, t⟩ := p
  cases a <;> exact ⟨rfl, hc⟩

theorem endpointPut_blind (x : XCtx) (e low : Nat) :
    endpointPut (s.under R) x e low = (endpointPut s x e low).under R ∧ (endpointPut s x e low).clean := by
  obtain ⟨hw, hc⟩ := writeVirt_blind h R x (endpointVa s x.part e) (natToLe low 8) true
  unfold endpointPut
  rw [endpointVa_under, hw]
  exact ⟨rfl, hc⟩

theorem endpointState_blind (x : XCtx) (e st : Nat) :
    endpointState (s.under R) x e st = (endpointState s x e st).under R ∧ (endpointState s x e st).clean := by
  unfold endpointState
  split
  · exact ⟨rfl, h⟩
  obtain ⟨hg, hc⟩ := endpointGet_blind h R x e
  rw [hg]
  generalize endpointGet s x e = p at hc
  obtain ⟨a, t⟩ := p
  cases a with
  | none => exact ⟨rfl, hc⟩
  | some w => exact endpointPut_blind hc R x e _

end

end Sys2Proof.Machine
end

section
/-! SUPPORT. What the state-save chain writes into an area (R35, R36, R285) while no unit holds an error. -/

namespace Sys2Proof.Machine

/-! ### The endpoints marked -/

theorem readVirt_sameCores (s : State) (x : XCtx) (va n : Nat) (k : Access) :
    sameCores s (readVirt s x va n k).2 := by
  unfold readVirt
  split
  · next h =>
    have hp := sameCores.of_snd (pieces_sameCores ..) h
    split <;> rename_i hr <;> exact hp.trans (sameCores.of_snd (readPieces_sameCores ..) hr)
  · next h => exact sameCores.of_snd (pieces_sameCores ..) h

theorem endpointState_sameCores (s : State) (x : XCtx) (e st : Nat) : sameCores s (endpointState s x e st) := by
  unfold endpointState endpointGet
  split
  · exact .refl s
  have hr : sameCores s (readVirt s x (endpointVa s x.part e) 16 .read).2 := readVirt_sameCores ..
  generalize readVirt s x (endpointVa s x.part e) 16 .read = p at hr
  obtain ⟨a, t⟩ := p
  cases a with
  | ok _ => exact hr.trans (writeVirt_sameCores ..)
  | _ => exact hr

theorem markTasks_sameCores (s : State) (r st : Nat) : sameCores s (markTasks s r st) := by
  unfold markTasks
  refine sameCores.foldl (fun t p => ?_) _ s
  split
  · exact .refl t
  · exact endpointState_sameCores ..

theorem markTasks_shows (q : Nat) (s : State) (r st : Nat) : (markTasks s r st).shows q = s.shows q := by
  unfold markTasks
  refine foldl_shows (fun t p => ?_) _ s
  split
  · rfl
  · exact endpointState_shows ..

theorem markTasks_blind {s : State} (h : s.clean) (R : Map Region) (r st : Nat)
    (hr : (s.under R).region r = s.region r) :
    markTasks (s.under R) r st = (markTasks s r st).under R ∧ (markTasks s r st).clean := by
  unfold markTasks
  rw [hr]
  generalize (s.region r).tasks = l
  induction l generalizing s with
  | nil => exact ⟨rfl, h⟩
  | cons p l ih =>
    rw [List.foldl_cons, List.foldl_cons]
    split
    · exact ih h hr
    · have hx : regionKctx (s.under R) r = regionKctx s r := by
        unfold regionKctx
        rw [hr]
        rfl
      obtain ⟨he, hc⟩ := endpointState_blind h R (regionKctx s r) p.2.endpoint st
      obtain ⟨-, hregions, -⟩ := endpointState_sameCores s (regionKctx s r) p.2.endpoint st
      rw [hx, he]
      refine ih hc (hr.trans ?_)
      rw [State.region, State.region, hregions]

/-! ### Memory cells -/

section
variable {α : Type} {key : α → Nat} {val : α → Byte}

theorem memGet_foldl_memSet_ne {k : Nat} (l : List α) (m : Map Byte) (h : ∀ x ∈ l, k ≠ key x) :
    memGet (l.foldl (fun m x => memSet m (key x) (val x)) m) k = memGet m k := by
  induction l generalizing m with
  | nil => rfl
  | cons x l ih =>
    rw [List.foldl_cons, ih _ fun y hy => h y (List.mem_cons_of_mem _ hy)]
    exact memGet_memSet_ne m _ (h x List.mem_cons_self)

theorem memGet_foldl_memSet {k : Nat} {b : Byte} (l : List α) (m : Map Byte) (hk : ∃ x ∈ l, key x = k)
    (hv : ∀ x ∈ l, key x = k → val x = b) :
    memGet (l.foldl (fun m x => memSet m (key x) (val x)) m) k = b := by
  induction l generalizing m with
  | nil => simp at hk
  | cons y l ih =>
    rw [List.foldl_cons]
    by_cases hl : ∃ x ∈ l, key x = k
    · exact ih _ hl fun x hx => hv x (List.mem_cons_of_mem _ hx)
    · have hne : ∀ x ∈ l, k ≠ key x := fun x hx e => hl ⟨x, hx, e.symm⟩
      obtain ⟨x, hx, e⟩ := hk
      have hxy : x = y := (List.mem_cons.1 hx).resolve_right fun hm => hne x hm e.symm
      rw [memGet_foldl_memSet_ne l _ hne, ← hv y List.mem_cons_self (hxy ▸ e), ← e, hxy]
      exact memGet_memSet_same ..

end

theorem findCell_filter (f : Nat → Bool) (k : Nat) (l : List (Nat × Byte)) :
    findCell (l.filter fun c => f c.1) k = if f k then findCell l k else none := by
  induction l with
  | nil => simp [findCell]
  | cons c l ih =>
    obtain ⟨j, v⟩ := c
    by_cases hj : j = k
    · subst hj
      by_cases hf : f j = true
      · simp [hf, findCell]
      · simp only [hf, Bool.false_eq_true, if_false] at ih
        simp [hf, ih]
    · by_cases hf : f j = true
      · rw [List.filter_cons_of_pos (by exact hf), findCell, findCell, if_neg hj, if_neg hj, ih]
      · rw [List.filter_cons_of_neg (by exact hf), ih, findCell, if_neg hj]

theorem pendingByte_filter (f : Nat → Bool) (k : Nat) (l : List PStore) :
    pendingByte (l.map fun p => { p with cells := p.cells.filter fun c => f c.1 }) k =
      if f k then pendingByte l k else none := by
  induction l with
  | nil => simp [pendingByte]
  | cons p l ih =>
    rw [List.map_cons, pendingByte, pendingByte, findCell_filter, ih]
    by_cases hf : f k = true <;> simp only [hf, if_true, Bool.false_eq_true, if_false]

/-! ### An area written -/

/-- R285: whether an address lies in an area at an offset of a set. -/
def areaHit (a : Nat) (inArea : Nat → Bool) (x : Nat) : Bool :=
  decide (a ≤ x) && decide (x < a + 2 ^ 22) && inArea (x - a)

section
variable (s : State) (a0 : Nat) (inArea : Nat → Bool) (cells : List (Nat × Byte))

/-- The zeros that a write of an area puts under its cells. -/
def areaZeros (a : Nat) (inArea : Nat → Bool) : List (Nat × Byte) :=
  if frametabSize ≤ a then [] else ((upTo (2 ^ 22)).filter inArea).map fun o => (o, (0 : Byte))

theorem writeArea_mem : (writeArea s a0 inArea cells).mem =
    (areaZeros (canonPa s.pkg.toNat a0) inArea ++ cells).foldl
      (fun m c => memSet m (canonPa s.pkg.toNat a0 + c.1) c.2)
      (s.mem.filter fun c => !areaHit (canonPa s.pkg.toNat a0) inArea c.1) := rfl

theorem writeArea_stores : (writeArea s a0 inArea cells).stores = s.stores.map fun p =>
    { p with cells := p.cells.filter fun c => !areaHit (canonPa s.pkg.toNat a0) inArea c.1 } := rfl

theorem areaZeros_hit {a : Nat} {inArea : Nat → Bool} {c : Nat × Byte} (h : c ∈ areaZeros a inArea) :
    areaHit a inArea (a + c.1) = true := by
  unfold areaZeros at h
  split at h
  · simp at h
  obtain ⟨o, ho, rfl⟩ := List.mem_map.1 h
  obtain ⟨hlt, hin⟩ := List.mem_filter.1 ho
  rw [upTo, List.mem_range] at hlt
  simp only [areaHit, Nat.add_sub_cancel_left, hin, Bool.and_true, Bool.and_eq_true, decide_eq_true_eq]
  omega

/-- R34 step 4: a byte outside the area and outside the cells stays. -/
theorem writeArea_byte_ne {x : Nat} (hx : areaHit (canonPa s.pkg.toNat a0) inArea (canonPa s.pkg.toNat x) = false)
    (hc : ∀ c ∈ cells, canonPa s.pkg.toNat x ≠ canonPa s.pkg.toNat a0 + c.1) :
    (writeArea s a0 inArea cells).byte x = s.byte x := by
  have hp : (writeArea s a0 inArea cells).pkg = s.pkg := rfl
  have hz : ∀ c ∈ areaZeros (canonPa s.pkg.toNat a0) inArea ++ cells,
      canonPa s.pkg.toNat x ≠ canonPa s.pkg.toNat a0 + c.1 := by
    intro c hm
    rcases List.mem_append.1 hm with hm | hm
    · intro e
      rw [e, areaZeros_hit hm] at hx
      cases hx
    · exact hc c hm
  rw [State.byte_eq_getD, State.byte_eq_getD, hp, writeArea_stores, writeArea_mem, memGet_foldl_memSet_ne _ _ hz,
    pendingByte_filter fun k => !areaHit (canonPa s.pkg.toNat a0) inArea k, memGet,
    mapGet_filter_key _ fun k => !areaHit (canonPa s.pkg.toNat a0) inArea k]
  simp [hx, memGet]

/-- R34 step 4: a cell of the area is read back. -/
theorem writeArea_byte_cell {x : Nat} {b : Byte}
    (hx : areaHit (canonPa s.pkg.toNat a0) inArea (canonPa s.pkg.toNat x) = true)
    (hk : ∃ c ∈ cells, canonPa s.pkg.toNat a0 + c.1 = canonPa s.pkg.toNat x)
    (hv : ∀ c ∈ cells, canonPa s.pkg.toNat a0 + c.1 = canonPa s.pkg.toNat x → c.2 = b) :
    (writeArea s a0 inArea cells).byte x = b := by
  have hp : (writeArea s a0 inArea cells).pkg = s.pkg := rfl
  rw [State.byte_eq_getD, hp, writeArea_stores, writeArea_mem, List.foldl_append,
    pendingByte_filter fun k => !areaHit (canonPa s.pkg.toNat a0) inArea k, memGet_foldl_memSet cells _ hk hv]
  simp [hx]

end

/-! ### Marks of slices (R359) -/

theorem readSlices_clean {s : State} (h : s.clean) (r : Nat) : readSlices s r = s := by
  unfold readSlices
  refine foldl_eq_self _ fun b _ => ?_
  cases sliceUnit r b.1 with
  | none => rfl
  | some p =>
    dsimp only
    split
    · rw [readSlice_clean (h.1 _) (h.2 _)]
    · rw [readLpsUnit, readSlice_clean (h.1 _) (h.2 _)]

theorem sliceWord_ge {g : Region} {e off w : Nat} (h : sliceWord g e off = some w) : 0x17A000 ≤ w := by
  unfold sliceWord stagePlace at h
  split at h
  · split at h <;> simp at h
    omega
  · split at h <;> simp at h
    omega

/-- A state with another table of marks. -/
def State.marked (s : State) (m : Map Bool) : State := { s with poison := m }

/-- No mark but at the words of the slices' part of an area (R35). -/
def onSliceWords (a : Nat) (m : Map Bool) : Prop :=
  ∀ u, (∀ w, 0x17A000 ≤ w → u ≠ cacheUnit (a + w)) → mapGet false m u = false

theorem onSliceWords.clear {a : Nat} {m : Map Bool} (h : onSliceWords a m) (k : Nat) :
    onSliceWords a (mapSet false m k false) := by
  intro u hu
  rw [mapGet_mapSet]
  split
  · rfl
  · exact h u hu

theorem onSliceWords.mark {a w : Nat} {m : Map Bool} (h : onSliceWords a m) (hw : 0x17A000 ≤ w) :
    onSliceWords a (mapSet false m (cacheUnit (a + w)) true) := by
  intro u hu
  rw [mapGet_mapSet_ne false _ _ (hu w hw)]
  exact h u hu

/-- The marks of a table without one unit's, which goes to its word, if it has one. -/
def movedMark (a : Nat) (m : Map Bool) (k : Nat) : Option Nat → Map Bool
  | some w => mapSet false (mapSet false m k false) (cacheUnit (a + w)) true
  | none => mapSet false m k false

theorem onSliceWords.moved {a : Nat} {m : Map Bool} (h : onSliceWords a m) (k : Nat) {x : Option Nat}
    (hx : ∀ w, x = some w → 0x17A000 ≤ w) : onSliceWords a (movedMark a m k x) := by
  cases x with
  | none => exact h.clear k
  | some w => exact (h.clear k).mark (hx w rfl)

/-- The mark of one unit, if it is a unit of slices, moved to its word, as `saveSliceMarks` does it. -/
def moveMark (g : Region) (a : Nat) (t : State) (k : Nat) : Option (Nat × Nat) → State
  | none => t
  | some x => t.marked (movedMark a t.poison k (sliceWord g x.1 x.2))

theorem moveMark_marked (g : Region) (a : Nat) (t : State) (k : Nat) (x : Option (Nat × Nat))
    (h : onSliceWords a t.poison) : ∃ m, moveMark g a t k x = t.marked m ∧ onSliceWords a m := by
  cases x with
  | none => exact ⟨_, rfl, h⟩
  | some x => exact ⟨_, rfl, h.moved k fun w => sliceWord_ge⟩

theorem foldl_moveMark (g : Region) (r a : Nat) (l : Map Bool) (t : State) (h : onSliceWords a t.poison) :
    ∃ m, l.foldl (fun t p => moveMark g a t p.1 (sliceUnit r p.1)) t = t.marked m ∧ onSliceWords a m := by
  induction l generalizing t with
  | nil => exact ⟨_, rfl, h⟩
  | cons p l ih =>
    obtain ⟨m, he, hm⟩ := moveMark_marked g a t p.1 (sliceUnit r p.1) h
    obtain ⟨m', he', hm'⟩ := ih (t.marked m) hm
    refine ⟨m', ?_, hm'⟩
    rw [List.foldl_cons, he, he']
    rfl

theorem saveSliceMarks_fold (s : State) (r a : Nat) : saveSliceMarks s r a =
    s.poison.foldl (fun t p => moveMark (s.region r) (canonPa s.pkg.toNat a) t p.1 (sliceUnit r p.1)) s := by
  unfold saveSliceMarks
  refine congrArg (fun f => List.foldl f s s.poison) (funext fun t => funext fun p => ?_)
  generalize sliceUnit r p.1 = x
  cases x with
  | none => rfl
  | some x =>
    obtain ⟨e, off⟩ := x
    unfold moveMark
    dsimp only
    generalize sliceWord (s.region r) e off = w
    cases w <;> rfl

/-- R35: the marks of slices go to words of the slices' part of the area alone. -/
theorem saveSliceMarks_eq {s : State} (h : ∀ u, mapGet false s.poison u = false) (r a : Nat) :
    ∃ m, saveSliceMarks s r a = s.marked m ∧ onSliceWords (canonPa s.pkg.toNat a) m := by
  rw [saveSliceMarks_fold]
  exact foldl_moveMark _ r _ s.poison s fun u _ => h u

end Sys2Proof.Machine
end

section
/-! SUPPORT. A region after its save (R34, R36, R37): its tags, its reset state, the cells of its area. -/

namespace Sys2Proof.Machine

/-! ### Tables in canonical form -/

theorem mapGet_of_mapWf_lt {α : Type} [DecidableEq α] {z : α} {m : Map α} {lo k : Nat} (h : mapWf z lo m = true)
    (hk : k < lo) : mapGet z m k = z := by
  induction m generalizing lo with
  | nil => rfl
  | cons p m ih =>
    obtain ⟨j, v⟩ := p
    simp only [mapWf, Bool.and_eq_true, decide_eq_true_eq] at h
    obtain ⟨⟨hlo, -⟩, hm⟩ := h
    rw [mapGet, if_neg (by omega)]
    exact ih hm (by omega)

/-- A table of optional values changed value by value, where the values that become none are left out. -/
theorem mapGet_filterMap {α β : Type} [DecidableEq α] {f : α → Option β} {m : Map (Option α)} {lo : Nat}
    (h : mapWf none lo m = true) (k : Nat) :
    mapGet none (m.filterMap fun t => (t.2.bind f).map fun y => (t.1, some y)) k = (mapGet none m k).bind f := by
  induction m generalizing lo with
  | nil => rfl
  | cons p m ih =>
    obtain ⟨j, v⟩ := p
    simp only [mapWf, Bool.and_eq_true, decide_eq_true_eq] at h
    obtain ⟨-, hm⟩ := h
    rw [mapGet, List.filterMap_cons]
    dsimp only
    cases hv : v.bind f with
    | none =>
      rw [Option.map_none]
      dsimp only
      rw [ih hm]
      split
      · next hk =>
        rw [hv, hk, mapGet_of_mapWf_lt hm (by omega)]
        rfl
      · rfl
    | some y =>
      rw [Option.map_some]
      dsimp only
      rw [mapGet, ih hm]
      split
      · exact hv.symm
      · rfl

/-! ### Tags (R34 step 5, R37) -/

/-- R34 step 5: a tag that a save leaves on a bank. -/
def Region.mark (g : Region) (t : Option (Nat × Nat)) : Option (Nat × Nat) := t.or (some g.context)

/-- R34 step 5: the tag of its own that a bank has after a save, if it differs from the region's. -/
def Region.ownTag (g : Region) (t : Option (Nat × Nat)) : Option (Option (Nat × Nat)) :=
  if g.mark t = g.mark g.tagBase then none else some (g.mark t)

/-- R34 step 5: an element as a save tags its banks. -/
def Region.retagElement (g : Region) (x : Element) : Element :=
  { x with tags := x.tags.filterMap fun t => (t.2.bind g.ownTag).map fun y => (t.1, some y) }

theorem Region.retag_eq (g : Region) : g.retag = { g with
    tagBase := g.mark g.tagBase, elements := g.elements.map fun p => (p.1, g.retagElement p.2) } := by
  unfold Region.retag Region.retagElement
  dsimp only
  refine congrArg (fun l => { g with tagBase := g.mark g.tagBase, elements := l }) ?_
  refine List.map_congr_left fun p _ => ?_
  refine congrArg (fun l => (p.1, { p.2 with tags := l })) ?_
  refine List.filterMap_congr fun t _ => ?_
  cases t.2 with
  | none => rfl
  | some v =>
    unfold Region.ownTag
    show (if g.mark v = g.mark g.tagBase then none else some (t.1, some (g.mark v))) = _
    rw [Option.bind_some]
    split <;> rfl

theorem Region.retag_element (g : Region) (e : Nat) : g.retag.element e = g.retagElement (g.element e) := by
  rw [Region.retag_eq]
  exact mapGet_map_value (fun _ _ => rfl) rfl e g.elements

theorem Region.retag_bankTag {g : Region} {e : Nat} (h : mapWf none 0 (g.element e).tags = true) (k : Nat) :
    g.retag.bankTag e k = (g.bankTag e k).or (some g.context) := by
  have hbase : g.retag.tagBase = g.mark g.tagBase := by rw [Region.retag_eq]
  rw [Region.bankTag, Region.bankTag, Region.retag_element, hbase, Region.retagElement, mapGet_filterMap h]
  cases mapGet none (g.element e).tags k with
  | none => rfl
  | some v =>
    rw [Option.bind_some, Option.getD_some, Region.ownTag]
    split
    · next hm => exact hm.symm
    · rfl

/-! ### The reset state (R36) -/

/-- R36: what a save leaves of a region, but for its elements. -/
def Region.shell (g : Region) (area : Nat) : Region := { Region.zero with
  part := g.part, enabled := g.enabled, spares := g.spares, suspect := g.suspect, retiring := g.retiring
  lasting := g.lasting, tagBase := g.tagBase, saved := some area }

section
variable (f : Nat → Element)

theorem foldl_setElement_rest {α : Type} (key : α → Nat) (l : List α) (g : Region) :
    { l.foldl (fun h p => h.setElement (key p) (f (key p))) g with elements := [] } = { g with elements := [] } := by
  induction l generalizing g with
  | nil => rfl
  | cons p l ih => exact (ih _).trans rfl

theorem foldl_setElement_element {α : Type} (key : α → Nat) (l : List α) (g : Region) (e : Nat) :
    (l.foldl (fun h p => h.setElement (key p) (f (key p))) g).element e =
      if e ∈ l.map key then f e else g.element e := by
  induction l generalizing g with
  | nil => simp
  | cons p l ih =>
    rw [List.foldl_cons, ih, List.map_cons]
    by_cases hl : e ∈ l.map key
    · rw [if_pos hl, if_pos (List.mem_cons_of_mem _ hl)]
    · rw [if_neg hl]
      by_cases he : e = key p
      · rw [if_pos (by simp [he]), he, Region.element_setElement]
      · rw [if_neg (by simp [he, hl]), Region.element_setElement_ne _ _ he]

end

theorem mapGet_of_not_mem {α : Type} {z : α} {m : Map α} {k : Nat} (h : k ∉ m.map (·.1)) : mapGet z m k = z := by
  induction m with
  | nil => rfl
  | cons p m ih =>
    rw [List.map_cons, List.mem_cons, not_or] at h
    rw [mapGet, if_neg h.1]
    exact ih h.2

theorem Region.emptied_rest (g : Region) (area : Nat) :
    { g.emptied area with elements := [] } = g.shell area :=
  (foldl_setElement_rest (fun e => (g.element e).memoryOnly) (fun p : Nat × Element => p.1) g.elements (g.shell area)).trans rfl

theorem Region.emptied_element (g : Region) (area e : Nat) : (g.emptied area).element e = (g.element e).memoryOnly := by
  refine (foldl_setElement_element (fun e => (g.element e).memoryOnly) (fun p : Nat × Element => p.1) g.elements
    (g.shell area) e).trans ?_
  split
  · rfl
  · next h =>
    rw [show g.element e = Element.zero from mapGet_of_not_mem h]
    rfl

theorem Region.emptied_bankTag (g : Region) (area e k : Nat) : (g.emptied area).bankTag e k = g.bankTag e k := by
  have hb : (g.emptied area).tagBase = g.tagBase := by
    have h := congrArg (fun x : Region => x.tagBase) (g.emptied_rest area)
    exact h
  rw [Region.bankTag, Region.bankTag, hb, Region.emptied_element]
  rfl

/-! ### Where the chain writes -/

/-- R35: whether an offset lies outside the first 16 bytes of the header. -/
def pastHeader (o : Nat) : Prop := o < 0x100000 ∨ 0x100010 ≤ o

theorem numbered_fst_lt {α : Type} {l : List α} {b : Nat × α} (h : b ∈ numbered l) : b.1 < l.length := by
  have := mem_numbered.1 h
  exact (List.getElem?_eq_some_iff.1 this).1

/-- A part that does not reach into the header. -/
def Part.clear (p : Part) : Prop := p.off + p.size ≤ 0x100000 ∨ 0x100010 ≤ p.off

theorem partCells_pastHeader {l : List Part} (h : ∀ p ∈ l, p.clear) : ∀ c ∈ partCells l, pastHeader c.1 := by
  intro c hc
  obtain ⟨p, hp, hc⟩ := List.mem_flatMap.1 hc
  obtain ⟨b, hb, rfl⟩ := List.mem_map.1 hc
  have hlt := numbered_fst_lt hb
  rw [List.length_take] at hlt
  have := h p hp
  unfold Part.clear at this
  unfold pastHeader
  dsimp only
  omega

theorem Region.parts_clear {g : Region} (he : ∀ e ∈ g.enabled, e < 256) (serial : Word) (now : Nat) :
    ∀ p ∈ g.parts serial now, p.clear := by
  intro p hp
  simp only [Region.parts, List.mem_append, List.mem_map, List.mem_cons, List.not_mem_nil, or_false] at hp
  unfold Part.clear
  rcases hp with ((((((( ⟨e, hm, rfl⟩ | ⟨n, -, rfl⟩) | rfl) | ⟨n, -, rfl⟩) | (rfl | rfl | rfl)) | ⟨n, -, rfl⟩) |
    ⟨n, -, rfl⟩) | ⟨n, -, rfl⟩) | rfl
  · have := he e hm
    show 0x1000 * e + 0x1000 ≤ 0x100000 ∨ _
    omega
  · show _ ∨ 0x100010 ≤ 0x100010 + 0x1000 * n
    omega
  · show _ ∨ 0x100010 ≤ 0x108010
    omega
  · show _ ∨ 0x100010 ≤ 0x130000 + 0x400 * n + 0x80
    omega
  · show _ ∨ 0x100010 ≤ 0x140000
    omega
  · show _ ∨ 0x100010 ≤ 0x150000
    omega
  · show _ ∨ 0x100010 ≤ 0x167FF0
    omega
  · show _ ∨ 0x100010 ≤ 0x168000 + 0x1000 * n
    omega
  · show _ ∨ 0x100010 ≤ 0x178000 + 0x4000 * n
    omega
  · show _ ∨ 0x100010 ≤ 0x184000 + 0x400 * n
    omega
  · show _ ∨ 0x100010 ≤ 0x186000
    omega

theorem turnCells_pastHeader (g : Region) : ∀ c ∈ turnCells g, pastHeader c.1 := by
  intro c hc
  obtain ⟨p, -, hc⟩ := List.mem_flatMap.1 hc
  unfold pastHeader
  cases hp : p.2 with
  | none =>
    rw [hp] at hc
    simp at hc
  | some t =>
    rw [hp] at hc
    obtain ⟨e, -, hc⟩ := List.mem_flatMap.1 hc
    rcases List.mem_append.1 hc with hc | hc <;> obtain ⟨b, -, rfl⟩ := List.mem_map.1 hc <;> dsimp only <;> omega

theorem sliceCells_pastHeader (g : Region) : ∀ c ∈ sliceCells g, pastHeader c.1 := by
  intro c hc
  unfold pastHeader
  rcases List.mem_append.1 hc with hc | hc <;> obtain ⟨p, -, hc⟩ := List.mem_flatMap.1 hc <;>
    obtain ⟨b, -, rfl⟩ := List.mem_map.1 hc
  · dsimp only
    omega
  · show _ ∨ 0x100010 ≤ 0x17A000 + 0x4000 * p.1 + b.1
    omega

/-- R35: what the chain writes but for the header. -/
def Region.chain (g : Region) (serial : Word) (now : Nat) : List (Nat × Byte) :=
  partCells (g.parts serial now) ++ turnCells g ++ sliceCells g

theorem Region.chain_pastHeader {g : Region} (he : ∀ e ∈ g.enabled, e < 256) (serial : Word) (now : Nat) :
    ∀ c ∈ g.chain serial now, pastHeader c.1 := by
  intro c hc
  rcases List.mem_append.1 hc with hc | hc
  · rcases List.mem_append.1 hc with hc | hc
    · exact partCells_pastHeader (Region.parts_clear he serial now) c hc
    · exact turnCells_pastHeader g c hc
  · exact sliceCells_pastHeader g c hc

/-- R285: the cells of the first word of the header. -/
def headerCells (g : Region) (r : Nat) : List (Nat × Byte) :=
  (numbered (natToLe (headerWord g r) 8)).map fun b => (0x100000 + b.1, b.2)

theorem mem_headerCells {g : Region} {r : Nat} {c : Nat × Byte} : c ∈ headerCells g r ↔
    ∃ k, (natToLe (headerWord g r) 8)[k]? = some c.2 ∧ c.1 = 0x100000 + k := by
  constructor
  · intro h
    obtain ⟨b, hb, rfl⟩ := List.mem_map.1 h
    exact ⟨b.1, mem_numbered.1 hb, rfl⟩
  · rintro ⟨k, hk, h⟩
    exact List.mem_map.2 ⟨(k, c.2), mem_numbered.2 hk, Prod.ext h.symm rfl⟩

end Sys2Proof.Machine
end

section
/-! SUPPORT. The end of a save (R34 steps 3 to 6) while no unit holds an error. -/

namespace Sys2Proof.Machine

theorem State.byte_of_memory {s t : State} (hm : t.mem = s.mem) (hs : t.stores = s.stores) (hp : t.pkg = s.pkg)
    (x : Nat) : t.byte x = s.byte x := by
  rw [State.byte_eq_getD, State.byte_eq_getD, hm, hs, hp]

theorem readUnit_good {s : State} {pa : Nat} (chip : Nat) (hc : mapGet false s.poison (cacheUnit pa) = false)
    (hu : mapGet false s.poison (unitOf s pa).1 = false) (hb : ∀ u, mapGet 0 s.bad u = 0) :
    readUnit s chip pa = (false, s) := by
  have hr : readCache s chip pa = (false, s) := by
    simp [readCache, readLevel, hc, hb]
  rw [readUnit, hr]
  dsimp only
  rw [if_neg (by decide), readHome]
  dsimp only
  rw [hu, hb, if_neg (by decide)]
  cases s.place pa <;> rfl

theorem unitOf_le (s : State) (pa : Nat) : (unitOf s pa).1 ≤ pa := by
  unfold unitOf
  split <;> dsimp only <;> omega

/-- R38: the bank save area that the header's second word names. -/
def State.namedBank (s : State) (a : Nat) : Option Nat :=
  if s.word (a + 0x100008) = 0 then none else some (s.word (a + 0x100008))

theorem headerBank_good {s : State} {a : Nat} (hb : ∀ u, mapGet 0 s.bad u = 0)
    (hm : onSliceWords (canonPa s.pkg.toNat a) s.poison) (ha : a + 2 ^ 22 ≤ 2 ^ 48) (r : Nat) :
    headerBank s r a = (s.namedBank a, s) := by
  rw [canonPa_of_lt (by omega)] at hm
  have hr : readAreaWord r a s 0x100008 = (false, s) := by
    unfold readAreaWord
    rw [canonPa_of_lt (by omega)]
    refine readUnit_good _ (hm _ fun w hw => ?_) (hm _ fun w hw => ?_) hb
    · unfold cacheUnit
      omega
    · have := unitOf_le s (a + 0x100008)
      unfold cacheUnit
      omega
  unfold headerBank State.namedBank
  rw [hr]
  simp only [Bool.false_or, decide_eq_true_eq]

section
variable (v : State) (r a : Nat) (serial : Word) (m : Map Bool)

/-- R34 step 4: the area written, with the marks of the slices. -/
def areaWritten : State :=
  (writeArea v a (v.region r).savedAt (headerCells (v.region r) r ++ (v.region r).chain serial v.tick)).marked m

/-- R34 steps 4 to 6: the state that a save leaves once its endpoints are marked. -/
def areaSaved : State :=
  let g := v.region r
  let t := areaWritten v r a serial m
  { (t.setRegion r g.retag).setRegion r (g.retag.emptied a) with
    saves := { area := a, region := r, part := g.part, ctx := g.ctx, live := true, cancelled := []
               beyond := partsBeyond (g.parts serial v.tick), serial := serial, bank := t.namedBank a } :: t.saves }

theorem writeSaveArea_eq {v : State} (h : v.clean) (r a : Nat) (serial : Word) :
    ∃ m, writeSaveArea v r a serial = areaWritten v r a serial m ∧ onSliceWords (canonPa v.pkg.toNat a) m := by
  have hpoison : ∀ u, mapGet false (writeArea v a (v.region r).savedAt
      (headerCells (v.region r) r ++ (v.region r).chain serial v.tick)).poison u = false := by
    intro u
    refine (mapGet_filter_key false (fun k => match unitRange v k with
      | none => true
      | some x => !((upTo x.2).all fun k =>
          areaHit (canonPa v.pkg.toNat a) (v.region r).savedAt (x.1 + k))) u v.poison).trans ?_
    rw [h.1 u, ite_self]
  obtain ⟨m, he, hm⟩ := saveSliceMarks_eq hpoison r a
  refine ⟨m, ?_, hm⟩
  unfold writeSaveArea
  rw [readSlices_clean h]
  dsimp only
  rw [List.append_assoc, List.append_assoc, ← List.append_assoc (partCells _)]
  exact he

theorem areaWritten_fields (v : State) (r a : Nat) (serial : Word) (m : Map Bool) :
    (areaWritten v r a serial m).region r = v.region r ∧ (areaWritten v r a serial m).bad = v.bad ∧
      (areaWritten v r a serial m).poison = m ∧ (areaWritten v r a serial m).pkg = v.pkg :=
  ⟨rfl, rfl, rfl, rfl⟩

theorem finishSave_eq {s v : State} {a r : Nat} (hv : markTasks { s with free := s.free + 1 } r 2 = v) (h : v.clean)
    (hd : (v.region r).deferred = none) (ha : a + 2 ^ 22 ≤ 2 ^ 48) :
    ∃ m, finishSave s r a = areaSaved v r a (BitVec.ofNat 64 s.free) m := by
  obtain ⟨m, hw, hm⟩ := writeSaveArea_eq h r a (BitVec.ofNat 64 s.free)
  refine ⟨m, ?_⟩
  unfold finishSave
  dsimp only
  rw [hv, hw, if_pos hd]
  obtain ⟨hreg, hbad, hpoison, hpkg⟩ := areaWritten_fields v r a (BitVec.ofNat 64 s.free) m
  unfold areaSaved
  dsimp only
  generalize areaWritten v r a (BitVec.ofNat 64 s.free) m = w at *
  rw [← hpkg, ← hpoison] at hm
  rw [hreg, headerBank_good (s := w.setRegion r (v.region r).retag) (hbad ▸ h.2) hm ha]
  dsimp only
  rw [State.region_setRegion]
  have hbank : (w.setRegion r (v.region r).retag).namedBank a = w.namedBank a := by
    have hw : (w.setRegion r (v.region r).retag).word (a + 0x100008) = w.word (a + 0x100008) :=
      State.word_congr fun k _ => State.byte_of_memory rfl rfl rfl _
    rw [State.namedBank, State.namedBank, hw]
  rw [hbank]
  rfl

end

/-! ### What it leaves -/

section
variable (v : State) (r a : Nat) (serial : Word) (m : Map Bool)

theorem areaSaved_region : (areaSaved v r a serial m).region r = (v.region r).retag.emptied a :=
  State.region_setRegion ..

theorem areaSaved_region_ne {q : Nat} (h : q ≠ r) : (areaSaved v r a serial m).region q = v.region q :=
  (State.region_setRegion_ne _ _ h).trans (State.region_setRegion_ne _ _ h)

theorem areaSaved_byte (x : Nat) : (areaSaved v r a serial m).byte x =
    (writeArea v a (v.region r).savedAt (headerCells (v.region r) r ++ (v.region r).chain serial v.tick)).byte x := by
  unfold areaSaved areaWritten
  generalize writeArea v a _ _ = w
  exact State.byte_of_memory rfl rfl rfl x

theorem areaSaved_namedBank : (areaWritten v r a serial m).namedBank a = (areaSaved v r a serial m).namedBank a := by
  have hw : (areaWritten v r a serial m).word (a + 0x100008) = (areaSaved v r a serial m).word (a + 0x100008) := by
    refine State.word_congr fun k _ => ?_
    rw [areaSaved_byte, areaWritten]
    generalize writeArea v a _ _ = w
    exact State.byte_of_memory rfl rfl rfl _
  rw [State.namedBank, State.namedBank, hw]

theorem Region.savedAt_header (g : Region) {k : Nat} (hk : k < 8) : g.savedAt (0x100000 + k) = true := by
  unfold Region.savedAt
  rw [if_neg (by omega), if_pos (by omega)]
  simp only [Bool.not_eq_true', Bool.and_eq_false_iff, decide_eq_false_iff_not]
  omega

theorem areaSaved_headerByte {v : State} {r a : Nat} (he : ∀ e ∈ (v.region r).enabled, e < 256)
    (ha : a + 2 ^ 22 ≤ 2 ^ 48) (serial : Word) (m : Map Bool) {k : Nat} {b : Byte}
    (hk : (natToLe (headerWord (v.region r) r) 8)[k]? = some b) :
    (areaSaved v r a serial m).byte (a + 0x100000 + k) = b := by
  have hlt : k < 8 := by
    have := (List.getElem?_eq_some_iff.1 hk).1
    rwa [natToLe_length] at this
  have hx : canonPa v.pkg.toNat (a + 0x100000 + k) = a + 0x100000 + k := canonPa_of_lt (by omega)
  have hcanon : canonPa v.pkg.toNat a = a := canonPa_of_lt (by omega)
  rw [areaSaved_byte]
  refine writeArea_byte_cell v a _ _ ?_ ?_ ?_
  · rw [hx, hcanon, areaHit, show a + 0x100000 + k - a = 0x100000 + k by omega, Region.savedAt_header _ hlt]
    simp only [Bool.and_true, Bool.and_eq_true, decide_eq_true_eq]
    omega
  · refine ⟨(0x100000 + k, b), List.mem_append.2 (.inl (mem_headerCells.2 ⟨k, hk, rfl⟩)), ?_⟩
    rw [hx, hcanon]
    dsimp only
    omega
  · intro c hc e
    rw [hx, hcanon] at e
    rcases List.mem_append.1 hc with hc | hc
    · obtain ⟨j, hj, hcj⟩ := mem_headerCells.1 hc
      rw [show j = k by omega, hk] at hj
      exact (Option.some.inj hj).symm
    · have := Region.chain_pastHeader he serial v.tick c hc
      unfold pastHeader at this
      omega

/-- R285: the first word of the header. -/
theorem areaSaved_headerWord {v : State} {r a : Nat} (hr : r ≤ 639) (he : ∀ e ∈ (v.region r).enabled, e < 256)
    (ha : a + 2 ^ 22 ≤ 2 ^ 48) (serial : Word) (m : Map Bool) :
    (areaSaved v r a serial m).word (a + 0x100000) = headerWord (v.region r) r := by
  have hbytes : (areaSaved v r a serial m).bytes (a + 0x100000) 8 = natToLe (headerWord (v.region r) r) 8 := by
    rw [State.bytes_eq_map]
    refine List.ext_getElem (by simp [natToLe_length]) fun k h1 h2 => ?_
    rw [List.getElem_map, List.getElem_range]
    exact areaSaved_headerByte he ha serial m (List.getElem?_eq_getElem h2)
  have hctx : ctxCid (v.region r).ctx < 2 ^ 12 := by
    have := (v.region r).ctx.isLt
    unfold ctxCid nbits
    omega
  rw [State.word, hbytes, leToNat_natToLe, Nat.mod_eq_of_lt]
  unfold headerWord
  omega

/-- R34 step 4: what lies outside the area and is no cell of the chain stays. -/
theorem areaSaved_byte_ne {v : State} {r a : Nat} (ha : a + 2 ^ 22 ≤ 2 ^ 48) (serial : Word) (m : Map Bool) {x : Nat}
    (hx : canonPa v.pkg.toNat x < a ∨ a + 2 ^ 22 ≤ canonPa v.pkg.toNat x)
    (hc : ∀ p ∈ (v.region r).chain serial v.tick, canonPa v.pkg.toNat x ≠ a + p.1) :
    (areaSaved v r a serial m).byte x = v.byte x := by
  have hcanon : canonPa v.pkg.toNat a = a := canonPa_of_lt (by omega)
  rw [areaSaved_byte]
  refine writeArea_byte_ne v a _ _ ?_ ?_
  · rw [hcanon, areaHit]
    simp only [Bool.and_eq_false_iff, decide_eq_false_iff_not]
    omega
  · rw [hcanon]
    intro c hm
    rcases List.mem_append.1 hm with hm | hm
    · obtain ⟨j, hj, hcj⟩ := mem_headerCells.1 hm
      have := (List.getElem?_eq_some_iff.1 hj).1
      rw [natToLe_length] at this
      omega
    · exact hc c hm

end

end Sys2Proof.Machine
end

section
/-! SUPPORT. RSAVE_COMPLETE of a region that is stopped and drained (R34, R36, R285). -/

namespace Sys2Proof.Machine

/-! ### A wait of a steward core that ends -/

section
variable (t : State) (c : Nat) (d : BitVec 5) (code value : Nat)

theorem endWait_stew_task : (t.endWait (.stew c) d code value).task (.stew c) =
    { ((t.task (.stew c)).set d (statusWord code value)) with
      pc := (t.task (.stew c)).pc + 4, hold := .ready } :=
  State.task_setTask t (.stew c) _

theorem endWait_stew_region (q : Nat) : (t.endWait (.stew c) d code value).region q = t.region q := rfl

theorem endWait_stew_ne {q : Nat} (h : q ≠ c) : (t.endWait (.stew c) d code value).stew q = t.stew q :=
  State.stew_setStew_ne t _ h

theorem endWait_stew_byte (x : Nat) : (t.endWait (.stew c) d code value).byte x = t.byte x :=
  State.byte_of_memory rfl rfl rfl x

/-- A wait of a core that ends with a code alone. -/
theorem endWait_ends (s : State) (c : CoreId) (d : BitVec 5) {code : Nat} (h : code < 256) :
    ends { s with cur := c } { s.endWait c d code 0 with cur := c }
      { (s.task c).set d (BitVec.ofNat 64 code) with pc := (s.task c).pc + 4, hold := .ready } := by
  have hs := State.setMe_ends { s with cur := c }
    { (s.task c).set d (BitVec.ofNat 64 code) with pc := (s.task c).pc + 4, hold := .ready }
  have he : { s.endWait c d code 0 with cur := c } = State.setMe { s with cur := c }
      { (s.task c).set d (BitVec.ofNat 64 code) with pc := (s.task c).pc + 4, hold := .ready } := by
    rw [State.endWait, statusWord_code h]
    cases c <;> rfl
  rw [he]
  exact hs

end

/-! ### A save that completes -/

theorem rsaveComplete_eq (c : CoreId) (s : State) : exec (.rsaveComplete c) s = execRsaveComplete c s := rfl

section
variable {s : State} {c : CoreId} {d a b : BitVec 5}

theorem rsaveComplete_saved (hh : (s.task c).hold = .wait (.rsave d a b))
    (hs : (s.region ((s.task c).get a).toNat).saved ≠ none) :
    exec (.rsaveComplete c) s = .next (s.endWait c d stALREADY 0) := by
  rw [rsaveComplete_eq, execRsaveComplete, hh]
  dsimp only
  rw [if_pos hs]

theorem rsaveComplete_stopped (hh : (s.task c).hold = .wait (.rsave d a b)) {g : Region}
    (hg : s.region ((s.task c).get a).toNat = g) (hs : g.saved = none) (hf : g.frozen = true)
    (hd : saveDrained s ((s.task c).get a).toNat = true) : exec (.rsaveComplete c) s =
      .next ((finishSave (s.setRegion ((s.task c).get a).toNat g) ((s.task c).get a).toNat
        ((s.task c).get b).toNat).endWait c d stOK 0) := by
  have hfrozen : { g with frozen := true } = g := by rw [← hf]
  rw [rsaveComplete_eq, execRsaveComplete, hh]
  dsimp only
  rw [hg, if_neg (by simp [hs]), hf, hd, hfrozen]
  rfl

end

theorem pkg_of_shows {r : Nat} {s t : State} (h : t.shows r = s.shows r) : t.pkg = s.pkg := by
  unfold State.shows at h
  exact congrArg (fun p => p.1.pkg) h

theorem tick_of_shows {r : Nat} {s t : State} (h : t.shows r = s.shows r) : t.tick = s.tick := by
  unfold State.shows at h
  exact congrArg (fun p => p.1.tick) h

/-- What the endpoints marked leave, for a state with its region put in place again. -/
theorem markTasks_replaced {s : State} (h : s.clean) (r : Nat) :
    ∃ v, markTasks { s.setRegion r (s.region r) with free := s.free + 1 } r 2 = v ∧ v.clean ∧
      (∀ q, v.region q = s.region q) ∧ v.stews = s.stews ∧ v.pkg = s.pkg ∧ v.tick = s.tick ∧
      ∀ x, v.byte x = (markTasks { s with free := s.free + 1 } r 2).byte x := by
  have hregion : ∀ q, (s.setRegion r (s.region r)).region q = s.region q := by
    intro q
    by_cases hq : q = r
    · rw [hq, State.region_setRegion]
    · exact State.region_setRegion_ne s _ hq
  have hw : State.clean { s with free := s.free + 1 } := h
  obtain ⟨he, hc⟩ := markTasks_blind hw (s.setRegion r (s.region r)).regions r 2 (hregion r)
  obtain ⟨-, hregions, hstews⟩ := markTasks_sameCores { s.setRegion r (s.region r) with free := s.free + 1 } r 2
  have hshows := markTasks_shows 0 { s with free := s.free + 1 } r 2
  refine ⟨_, he, hc, fun q => ?_, ?_, ?_, ?_, fun x => State.byte_of_memory rfl rfl rfl x⟩
  · exact hregion q
  · rw [← he]
    exact hstews
  · exact (pkg_of_shows (s := { s with free := s.free + 1 }) hshows : (markTasks { s with free := s.free + 1 } r 2).pkg = s.pkg)
  · exact (tick_of_shows (s := { s with free := s.free + 1 }) hshows :
      (markTasks { s with free := s.free + 1 } r 2).tick = s.tick)

/-! ### What the completed save leaves -/

theorem areaSaved_stews (v : State) (r a : Nat) (serial : Word) (m : Map Bool) :
    (areaSaved v r a serial m).stews = v.stews := by
  have h : (areaWritten v r a serial m).stews = v.stews := rfl
  rw [← h]
  unfold areaSaved
  generalize areaWritten v r a serial m = w
  rfl

theorem Region.retag_emptied_rest (g : Region) (area : Nat) : { g.retag.emptied area with elements := [] } =
    { g.shell area with tagBase := g.tagBase.or (some g.context) } := by
  rw [Region.emptied_rest, Region.retag_eq]
  rfl

theorem Region.retag_emptied_element (g : Region) (area e : Nat) :
    { (g.retag.emptied area).element e with tags := [] } = { Element.zero with elm := (g.element e).elm } := by
  rw [Region.emptied_element, Region.retag_element]
  rfl

theorem Region.retag_emptied_bankTag {g : Region} {e : Nat} (h : mapWf none 0 (g.element e).tags = true)
    (area k : Nat) : (g.retag.emptied area).bankTag e k = (g.bankTag e k).or (some g.context) :=
  (Region.emptied_bankTag ..).trans (Region.retag_bankTag h k)

theorem context_eq (g : Region) : g.context = (g.part, g.ctx.toNat / 2 ^ 52) := by
  have := g.ctx.isLt
  unfold Region.context ctxCid nbits
  refine Prod.ext rfl ?_
  dsimp only
  omega

end Sys2Proof.Machine
end

section
/-! SUPPORT. The clause of O39 about RSAVE_COMPLETE, put together. -/

namespace Sys2Proof.Machine

/-- What O39 says of the state that a completed save leaves: s the state before, g the region and area its place. -/
structure SaveLeaves (s t : State) (c r area : Nat) (d : BitVec 5) : Prop where
  task : t.task (.stew c) = { (s.task (.stew c)).set d 0 with pc := (s.task (.stew c)).pc + 4, hold := .ready }
  region : { t.region r with elements := [] } = { (s.region r).shell area with
    tagBase := (s.region r).tagBase.or (some ((s.region r).part, (s.region r).ctx.toNat / 2 ^ 52)) }
  elements : ∀ e, { (t.region r).element e with tags := [] } =
      { Element.zero with elm := ((s.region r).element e).elm } ∧
    ∀ k, (t.region r).bankTag e k =
      ((s.region r).bankTag e k).or (some ((s.region r).part, (s.region r).ctx.toNat / 2 ^ 52))
  saves : t.saves.head? = some { area := area, region := r, part := (s.region r).part, ctx := (s.region r).ctx
                                 live := true, cancelled := []
                                 beyond := partsBeyond ((s.region r).parts (BitVec.ofNat 64 s.free) s.tick)
                                 serial := BitVec.ofNat 64 s.free, bank := t.namedBank area }
  header : t.word (area + 0x100000) =
    r + (s.region r).ctx.toNat / 2 ^ 52 * 2 ^ 12 + (s.region r).part % 64 * 2 ^ 24
  bytes : ∀ x, (canonPa s.pkg.toNat x < area ∨ area + 2 ^ 22 ≤ canonPa s.pkg.toNat x) →
    (∀ p ∈ (s.region r).chain (BitVec.ofNat 64 s.free) s.tick, canonPa s.pkg.toNat x ≠ area + p.1) →
    t.byte x = (markTasks { s with free := s.free + 1 } r 2).byte x
  others : ∀ q, q ≠ r → t.region q = s.region q
  stews : ∀ q, q ≠ c → t.stew q = s.stew q

theorem headerWord_eq (g : Region) (r : Nat) :
    headerWord g r = r + g.ctx.toNat / 2 ^ 52 * 2 ^ 12 + g.part % 64 * 2 ^ 24 := by
  have hctx : ctxCid g.ctx = g.ctx.toNat / 2 ^ 52 := congrArg Prod.snd (context_eq g)
  rw [headerWord, hctx]

theorem areaSaved_saves (v : State) (r a : Nat) (serial : Word) (m : Map Bool) :
    (areaSaved v r a serial m).saves.head? = some { area := a, region := r, part := (v.region r).part
                                                    ctx := (v.region r).ctx, live := true, cancelled := []
                                                    beyond := partsBeyond ((v.region r).parts serial v.tick)
                                                    serial := serial
                                                    bank := (areaSaved v r a serial m).namedBank a } := by
  rw [← areaSaved_namedBank]
  unfold areaSaved
  rfl

/-- R34: a save that may complete leaves what O39 says. -/
theorem rsaveComplete_leaves {s : State} {c : Nat} {d a b : BitVec 5} {r area : Nat}
    (hr : ((s.task (.stew c)).get a).toNat = r) (ha : ((s.task (.stew c)).get b).toNat = area) (hlt : r ≤ 639)
    (hh : (s.task (.stew c)).hold = .wait (.rsave d a b)) (hs : (s.region r).saved = none)
    (hf : (s.region r).frozen = true) (hd : (s.region r).deferred = none) (hdrained : saveDrained s r = true)
    (hclean : s.clean) (hfit : area + 2 ^ 22 ≤ 2 ^ 48) (he : ∀ e ∈ (s.region r).enabled, e < 256)
    (htags : ∀ e, mapWf none 0 ((s.region r).element e).tags = true) :
    ∃ t, exec (.rsaveComplete (.stew c)) s = .next t ∧ SaveLeaves s t c r area d := by
  obtain ⟨v, hv, hcv, hregion, hstews, hpkg, htick, hbyte⟩ := markTasks_replaced hclean r
  obtain ⟨m, hfin⟩ := finishSave_eq (s := s.setRegion r (s.region r)) (r := r) hv hcv (by rw [hregion, hd]) hfit
  have hexec := rsaveComplete_stopped (g := s.region r) hh (by rw [hr]) hs hf (by rw [hr]; exact hdrained)
  rw [hr, ha, hfin, State.setRegion_free] at hexec
  refine ⟨_, hexec, ?_⟩
  have htask : (areaSaved v r area (BitVec.ofNat 64 s.free) m).task (.stew c) = s.task (.stew c) := by
    rw [State.task, State.task, State.stew, State.stew, areaSaved_stews, hstews]
  rw [← hregion r] at he
  constructor
  · rw [endWait_stew_task, htask]
    rfl
  · rw [endWait_stew_region, areaSaved_region, Region.retag_emptied_rest, hregion, context_eq]
  · intro e
    rw [endWait_stew_region, areaSaved_region, hregion]
    refine ⟨Region.retag_emptied_element .., fun k => ?_⟩
    rw [Region.retag_emptied_bankTag (htags e), context_eq]
  · have hsaves := areaSaved_saves v r area (BitVec.ofNat 64 s.free) m
    rw [hregion, htick] at hsaves
    generalize areaSaved v r area (BitVec.ofNat 64 s.free) m = w at *
    have hw : (w.endWait (.stew c) d stOK 0).word (area + 0x100008) = w.word (area + 0x100008) :=
      State.word_congr fun k _ => endWait_stew_byte ..
    rw [State.namedBank, hw]
    exact hsaves
  · rw [State.word_congr fun k _ => endWait_stew_byte .., areaSaved_headerWord hlt he hfit, hregion, headerWord_eq]
  · intro x hx hcells
    rw [endWait_stew_byte, ← hbyte]
    rw [← hpkg] at hx hcells
    rw [← htick, ← hregion r] at hcells
    exact areaSaved_byte_ne hfit _ m hx hcells
  · intro q hq
    rw [endWait_stew_region, areaSaved_region_ne _ _ _ _ _ hq, hregion]
  · intro q hq
    rw [endWait_stew_ne _ _ _ _ _ hq, State.stew, State.stew, areaSaved_stews, hstews]

end Sys2Proof.Machine
end

section
/-! SUPPORT. RREST_COMPLETE (R34, R36, R359) while no unit holds an error. -/

namespace Sys2Proof.Machine

/-! ### The area read (R359) -/

section
variable {s : State} (h : s.clean)
include h

theorem readAreaWord_clean (r a o : Nat) : readAreaWord r a s o = (false, s) := readUnit_clean h ..

theorem readArea_clean (r a : Nat) : readArea s r a = s := by
  unfold readArea
  refine foldl_eq_self _ fun b _ => foldl_eq_self _ fun o _ => ?_
  rw [readAreaWord_clean h]

theorem areaFails_clean (r a : Nat) : areaFails s r a = [] := by
  unfold areaFails
  refine List.filter_eq_nil_iff.2 fun o _ => ?_
  rw [readAreaWord_clean h]
  exact Bool.false_ne_true

theorem lostWord_clean (r a : Nat) : lostWord s r a = none := by
  rw [lostWord, areaFails_clean h]
  rfl

theorem loadSliceMarks_clean (r a : Nat) : loadSliceMarks s r a = s := by
  rw [loadSliceMarks, areaFails_clean h]
  rfl

end

/-! ### The region put in place -/

/-- R34, R36: the region of a save area over the physical region that it comes to, but for its elements. -/
def Region.frame (g x : Region) : Region := { x with
  enabled := g.enabled, spares := g.spares, suspect := g.suspect, retiring := g.retiring
  lasting := g.lasting, tagBase := g.tagBase, elements := [], saved := none, frozen := false, deferred := none }

theorem Region.restored_eq (g x : Region) : g.restored x = (g.elements ++ x.elements).foldl
    (fun h p => h.setElement p.1 ((x.element p.1).restored (g.element p.1))) (g.frame x) := rfl

theorem Region.restored_rest (g x : Region) : { g.restored x with elements := [] } = g.frame x := by
  rw [Region.restored_eq]
  exact foldl_setElement_rest (fun e => (x.element e).restored (g.element e)) (fun p : Nat × Element => p.1) _ _

theorem Region.restored_element (g x : Region) (e : Nat) :
    (g.restored x).element e = (x.element e).restored (g.element e) := by
  rw [Region.restored_eq]
  refine (foldl_setElement_element (fun e => (x.element e).restored (g.element e)) (fun p : Nat × Element => p.1) _ _
    e).trans ?_
  split
  · rfl
  · next h =>
    rw [List.map_append, List.mem_append, not_or] at h
    rw [show g.element e = Element.zero from mapGet_of_not_mem h.1,
      show x.element e = Element.zero from mapGet_of_not_mem h.2]
    rfl

/-! ### Messages moved (R32) -/

/-- A region but for its receive queue. -/
def Region.unmailed (g : Region) : Region := { g with queue := [] }

theorem Region.frame_unmailed (g x : Region) : (g.frame x).unmailed = { x with
    enabled := g.enabled, spares := g.spares, suspect := g.suspect, retiring := g.retiring
    lasting := g.lasting, tagBase := g.tagBase, saved := none, frozen := false, deferred := none
    elements := [], queue := [] } := by
  unfold Region.frame Region.unmailed
  rfl

section
variable {f : Region → Region} {r q : Nat}

theorem readVirt_passes (s : State) (x : XCtx) (va n : Nat) (k : Access) : State.Passes f q s (readVirt s x va n k).2 :=
  passes_of_sameCores (readVirt_sameCores ..) (readVirt_shows ..)

theorem writeVirt_passesAny (s : State) (x : XCtx) (va : Nat) (bs : List Byte) (setD : Bool) :
    State.Passes f q s (writeVirt s x va bs setD).2 :=
  passes_of_sameCores (writeVirt_sameCores ..) (writeVirt_shows ..)

theorem mboxIndices_passes (s : State) (x : XCtx) (mbox : Nat) : State.Passes f q s (mboxIndices s x mbox).2 := by
  have h := readVirt_passes (f := f) (q := q) s x mbox 16 .read
  unfold mboxIndices
  split <;> rename_i hr <;> rw [hr] at h <;> exact h

theorem endpointGet_passes (s : State) (x : XCtx) (e : Nat) : State.Passes f q s (endpointGet s x e).2 := by
  have h := readVirt_passes (f := f) (q := q) s x (endpointVa s x.part e) 16 .read
  unfold endpointGet
  split <;> rename_i hr <;> rw [hr] at h <;> exact h

theorem noteBox_passes (s : State) (part e : Nat) (ix : Option (Nat × Nat)) :
    State.Passes f q s (noteBox s part e ix) := by
  cases ix with
  | none => exact .refl f q s
  | some p => exact passes_of_sameCores ⟨rfl, rfl, rfl⟩ (State.quiet_shows ..)

end

theorem mboxMove_passes (x : XCtx) (r slot mbox : Nat) (n : Nat) (s : State) :
    State.Passes Region.unmailed r s (mboxMove x r slot mbox n s) := by
  induction n generalizing s with
  | zero => exact .refl ..
  | succ n ih =>
    have hix := mboxIndices_passes (f := Region.unmailed) (q := r) s x mbox
    unfold mboxMove
    generalize mboxIndices s x mbox = p at hix
    obtain ⟨ix, t⟩ := p
    cases ix with
    | none => exact hix
    | some w =>
      dsimp only at hix ⊢
      split
      · exact hix
      have hread := readVirt_passes (f := Region.unmailed) (q := r) t x (mbox + 0x40 + 32 * (w.2 % 126)) 32 .read
      generalize readVirt t x (mbox + 0x40 + 32 * (w.2 % 126)) 32 .read = p at hread
      obtain ⟨a, t1⟩ := p
      cases a with
      | ok _ =>
        dsimp only at hread ⊢
        have hwrite := writeVirt_passesAny (f := Region.unmailed) (q := r) t1 x (mbox + 8)
          (natToLe ((w.2 + 1) % 2 ^ 64) 8) true
        generalize writeVirt t1 x (mbox + 8) (natToLe ((w.2 + 1) % 2 ^ 64) 8) true = p at hwrite
        obtain ⟨b, t2⟩ := p
        cases b with
        | ok _ =>
          refine ((hix.trans hread).trans hwrite).trans (State.Passes.trans ?_ (ih _))
          exact State.setRegion_passes t2 rfl
        | _ => exact (hix.trans hread).trans hwrite
      | _ => exact hix.trans hread

theorem mailboxMove_passes (s : State) (r slot : Nat) :
    State.Passes Region.unmailed r s (mailboxMove s r slot) := by
  unfold mailboxMove
  dsimp only
  split
  · exact .refl ..
  have hget := endpointGet_passes (f := Region.unmailed) (q := r) s (regionKctx s r) ((s.region r).task slot).endpoint
  generalize endpointGet s (regionKctx s r) ((s.region r).task slot).endpoint = p at hget
  obtain ⟨w, t⟩ := p
  cases w with
  | none => exact hget
  | some w =>
    exact ((hget.trans (mboxMove_passes ..)).trans (mboxIndices_passes ..)).trans (noteBox_passes ..)

/-! ### The restore -/

/-- R34: the end of a restore that meets no cancellation. -/
theorem finishRestore_passes {s : State} (h : s.clean) {r a : Nat} (hgone : (cancelledWhile s r a).1 = []) :
    State.Passes Region.unmailed r ((cancelledWhile s r a).2.setRegion r
      ((s.region r).restored (resumedRegion (cancelledWhile s r a).2 r a))) (finishRestore s r a) := by
  have hsaves : (cancelledWhile s r a).2.region r = s.region r ∧ (cancelledWhile s r a).2.clean := by
    unfold cancelledWhile
    split <;> exact ⟨rfl, h⟩
  unfold finishRestore
  generalize cancelledWhile s r a = p at *
  obtain ⟨gone, t⟩ := p
  obtain ⟨hregion, hclean⟩ := hsaves
  dsimp only at hgone hregion hclean ⊢
  rw [if_pos hgone, hregion]
  generalize (s.region r).restored (resumedRegion t r a) = g
  rw [loadSliceMarks_clean (s := t.setRegion r g) hclean]
  refine (passes_of_sameCores (markTasks_sameCores ..) (markTasks_shows ..)).trans (foldl_passes (fun u p => ?_) _ _)
  split
  · exact .refl ..
  · exact mailboxMove_passes ..

theorem rrestComplete_eq (c : CoreId) (s : State) : exec (.rrestComplete c) s = execRrestComplete c s := rfl

section
variable {s : State} {c : CoreId} {d a b : BitVec 5}

theorem rrestComplete_free (hh : (s.task c).hold = .wait (.rrest d a b))
    (hs : (s.region ((s.task c).get a).toNat).saved = none) :
    exec (.rrestComplete c) s = .next (s.endWait c d stBUSY 0) := by
  rw [rrestComplete_eq, execRrestComplete, hh]
  dsimp only
  rw [if_pos hs]

theorem rrestComplete_restores (hh : (s.task c).hold = .wait (.rrest d a b)) (h : s.clean)
    (hs : (s.region ((s.task c).get a).toNat).saved ≠ none) : exec (.rrestComplete c) s =
      .next ((finishRestore s ((s.task c).get a).toNat ((s.task c).get b).toNat).endWait c d stOK 0) := by
  rw [rrestComplete_eq, execRrestComplete, hh]
  dsimp only
  rw [if_neg hs, readArea_clean h, lostWord_clean h]

end

/-- What O39 says of the state that a completed restore leaves. -/
structure RestoreLeaves (s t : State) (c r : Nat) (x : Region) (d : BitVec 5) : Prop where
  task : t.task (.stew c) = { (s.task (.stew c)).set d 0 with pc := (s.task (.stew c)).pc + 4, hold := .ready }
  region : { t.region r with elements := [], queue := [] } = { x with
    enabled := (s.region r).enabled, spares := (s.region r).spares, suspect := (s.region r).suspect
    retiring := (s.region r).retiring, lasting := (s.region r).lasting, tagBase := (s.region r).tagBase
    saved := none, frozen := false, deferred := none, elements := [], queue := [] }
  elements : ∀ e, (t.region r).element e = (x.element e).restored ((s.region r).element e)
  others : ∀ q, q ≠ r → t.region q = s.region q
  stews : ∀ q, q ≠ c → t.stew q = s.stew q

theorem rrestComplete_leaves {s : State} {c : Nat} {d a b : BitVec 5} {r area : Nat}
    (hr : ((s.task (.stew c)).get a).toNat = r) (ha : ((s.task (.stew c)).get b).toNat = area)
    (hh : (s.task (.stew c)).hold = .wait (.rrest d a b)) (hs : (s.region r).saved ≠ none) (h : s.clean)
    (hgone : (cancelledWhile s r area).1 = []) : ∃ t, exec (.rrestComplete (.stew c)) s = .next t ∧
      RestoreLeaves s t c r (resumedRegion (cancelledWhile s r area).2 r area) d := by
  have hexec := rrestComplete_restores hh h (by rw [hr]; exact hs)
  have hpass := finishRestore_passes h hgone
  have hfields : (cancelledWhile s r area).2.stews = s.stews ∧
      ∀ q, (cancelledWhile s r area).2.region q = s.region q := by
    unfold cancelledWhile
    split <;> exact ⟨rfl, fun _ => rfl⟩
  rw [hr, ha] at hexec
  refine ⟨_, hexec, ?_⟩
  obtain ⟨hstews, hregions⟩ := hfields
  generalize resumedRegion (cancelledWhile s r area).2 r area = x at hpass ⊢
  generalize (cancelledWhile s r area).2 = u at *
  generalize finishRestore s r area = t at *
  have hlists : t.stews = s.stews := hpass.lists.trans hstews
  have hkept := hpass.kept
  rw [State.region_setRegion] at hkept
  constructor
  · have htask : t.task (.stew c) = s.task (.stew c) := by
      rw [State.task, State.task, State.stew, State.stew, hlists]
    rw [endWait_stew_task, htask]
    rfl
  · rw [endWait_stew_region, ← Region.frame_unmailed, ← Region.restored_rest]
    have hg := congrArg (fun g : Region => { g with elements := [] }) hkept
    exact hg
  · intro e
    rw [endWait_stew_region, ← Region.restored_element]
    have he := congrArg (fun g : Region => g.element e) hkept
    exact he
  · intro q hq
    rw [endWait_stew_region, hpass.others q hq, State.region_setRegion_ne _ _ hq, hregions]
  · intro q hq
    rw [endWait_stew_ne _ _ _ _ _ hq, State.stew, State.stew, hlists]

end Sys2Proof.Machine
end

section
/-! SUPPORT. The issue of rsave and rrest by a steward core at level H (R34, R40, R285), and PPWAIT_EXPIRY. -/

namespace Sys2Proof.Machine

theorem onSteward_stew {s : State} {c : Nat} (hc : s.cur = .stew c) (i : Instr) (f : Nat → State) :
    onSteward s i f = f c := by
  rw [onSteward, hc]

theorem atLevel_same {s : State} {l : Level} (hl : s.me.level = l) (i : Instr) (f : State) : atLevel s i l f = f := by
  rw [atLevel, hl, if_neg (Nat.lt_irrefl _)]

theorem readAreaFrames_clean {s : State} (h : s.clean) (chip a : Nat) : readAreaFrames s chip a = (none, s) := by
  unfold readAreaFrames
  split
  · rfl
  · refine foldl_eq_self _ fun i _ => ?_
    rw [readFrameByte_clean h]
    rfl

section
variable {s : State} {c : Nat} {d a b : BitVec 5} (hc : s.cur = .stew c) (hl : s.me.level = .h)
include hc hl

/-! ### rsave -/

theorem rsave_beyond (hr : (s.reg a).toNat > 639) : exec (.rsave d a b) s = .next (s.status d stBADADDR 0) := by
  show execRsave d a b s = _
  rw [execRsave, onSteward_stew hc, atLevel_same hl]
  dsimp only
  rw [if_pos hr]

theorem rsave_saved (hr : (s.reg a).toNat ≤ 639) (hs : (s.region (s.reg a).toNat).saved ≠ none) :
    exec (.rsave d a b) s = .next (s.status d stALREADY 0) := by
  show execRsave d a b s = _
  rw [execRsave, onSteward_stew hc, atLevel_same hl]
  dsimp only
  rw [if_neg (by omega), if_pos hs]

theorem rsave_badArea (hr : (s.reg a).toNat ≤ 639) (hs : (s.region (s.reg a).toNat).saved = none) (h : s.clean)
    (ha : saveAreaOk s (s.reg b).toNat = false) : exec (.rsave d a b) s = .next (s.status d stBADADDR 0) := by
  show execRsave d a b s = _
  rw [execRsave, onSteward_stew hc, atLevel_same hl]
  dsimp only
  rw [if_neg (by omega), if_neg (by simp [hs]), readAreaFrames_clean h]
  dsimp only
  rw [ha]
  split <;> rfl

theorem rsave_accepted (hr : (s.reg a).toNat ≤ 639) (hs : (s.region (s.reg a).toNat).saved = none) (h : s.clean)
    (ha : saveAreaOk s (s.reg b).toNat = true) :
    exec (.rsave d a b) s = .next ((startSave s (s.reg a).toNat).holdMe (.wait (.rsave d a b))) := by
  have halign : (s.reg b).toNat % 2 ^ 22 = 0 := by
    unfold saveAreaOk at ha
    exact of_decide_eq_true (Bool.and_eq_true_iff.1 ha).1
  show execRsave d a b s = _
  rw [execRsave, onSteward_stew hc, atLevel_same hl]
  dsimp only
  rw [if_neg (by omega), if_neg (by simp [hs]), if_neg (not_not.2 halign), readAreaFrames_clean h]
  dsimp only
  rw [ha, readAreaWord, readUnit_clean h]
  rfl

/-! ### rrest -/

theorem rrest_free (hr : (s.reg a).toNat > 639 ∨ (s.region (s.reg a).toNat).saved = none) :
    exec (.rrest d a b) s = .next (s.status d stBUSY 0) := by
  show execRrest d a b s = _
  rw [execRrest, onSteward_stew hc, atLevel_same hl]
  dsimp only
  rw [if_pos (by simpa using hr)]

theorem rrest_saved (hr : (s.reg a).toNat ≤ 639) (hs : (s.region (s.reg a).toNat).saved ≠ none) (h : s.clean) :
    exec (.rrest d a b) s = .next (if s.word ((s.reg b).toNat + 0x100000) % 2 ^ 10 ≠ (s.reg a).toNat
      then s.status d stMISMATCH 0 else s.holdMe (.wait (.rrest d a b))) := by
  show execRrest d a b s = _
  rw [execRrest, onSteward_stew hc, atLevel_same hl]
  dsimp only
  rw [if_neg (by simpa using ⟨hr, hs⟩), readAreaWord, readUnit_clean h]
  dsimp only
  rw [if_neg Bool.false_ne_true]

end

/-! ### The stop of a region (R34 step 1, R40) -/

/-- R34, R40, R348: the region once a save of it was accepted. -/
def stopped (s : State) (r : Nat) : Region :=
  let g := s.region r
  if g.faulted = true ∧ quiescent s r = false then g
  else if g.resident.points ≠ [] ∧ (s.part g.part).ppwait ≠ 0 then { g with deferred := some s.tick }
  else { g with frozen := true }

theorem startSave_eq {s : State} {r : Nat} (hf : (s.region r).frozen = false) (hd : (s.region r).deferred = none) :
    (startSave s r).region r = stopped s r ∧ onlyRegion r s (startSave s r) := by
  unfold startSave stopped beginSave defersSave
  dsimp only
  rw [hf, hd]
  simp only [Bool.false_or, ne_eq, not_true_eq_false, decide_false, Bool.and_eq_true, Bool.not_eq_true',
    decide_not, decide_eq_false_iff_not]
  split
  · exact ⟨rfl, rfl, fun _ _ => rfl⟩
  · rw [State.region_setRegion]
    exact ⟨rfl, State.setRegion_onlyRegion ..⟩

theorem holdMe_stew {s u : State} {c r : Nat} (hc : s.cur = .stew c) (h : onlyRegion r s u) (w : Hold) :
    (u.holdMe w).me = { s.me with hold := w } ∧ (∀ q, (u.holdMe w).region q = u.region q) ∧
      (∀ q, q ≠ c → (u.holdMe w).stew q = s.stew q) ∧
      { u.holdMe w with regions := s.regions, stews := s.stews } = s := by
  obtain ⟨hrest, -⟩ := h
  have hcur : u.cur = .stew c := by
    have h := congrArg (fun x : State => x.cur) hrest
    exact h.trans hc
  have hstews : u.stews = s.stews := by
    have h := congrArg (fun x : State => x.stews) hrest
    exact h
  have hhold : u.holdMe w = u.setStew c { u.stew c with task := { (u.stew c).task with hold := w } } := by
    unfold State.holdMe State.setMe State.me
    rw [hcur]
    rfl
  rw [hhold]
  refine ⟨?_, fun _ => rfl, fun q hq => ?_, ?_⟩
  · have hme : s.me = (u.stew c).task := by
      rw [State.me, hc, State.task, State.stew, State.stew, hstews]
    have hnow : (u.setStew c { u.stew c with task := { (u.stew c).task with hold := w } }).cur = .stew c := hcur
    rw [State.me, hnow, State.task, State.stew_setStew, hme]
  · rw [State.stew_setStew_ne _ _ hq, State.stew, hstews, State.stew]
  · rw [← hrest]
    rfl

theorem ppwaitExpiry_eq {s : State} {r t0 : Nat} (hd : (s.region r).deferred = some t0)
    (hw : s.tick - t0 ≥ (s.part (s.region r).part).ppwait.toNat) :
    exec (.ppwaitExpiry r) s = .next (s.setRegion r { s.region r with frozen := true }) := by
  show execPpwaitExpiry r s = _
  unfold execPpwaitExpiry
  dsimp only
  split
  · next hn => exact absurd (hd.symm.trans hn) (by simp)
  · next t hn =>
    obtain rfl := Option.some.inj (hd.symm.trans hn)
    rw [if_neg (by omega)]

end Sys2Proof.Machine
end

section
namespace Sys2Proof.Settled
open Sys2Proof.Machine

/-- Settles O39: the issue of a save or a restore answers by its first refusal; a save that completes marks its
endpoints, writes the area, and leaves the region's tags and reset state; a restore that completes puts the region
of the area in place, and only the receive queue changes after that. -/
theorem regionSaveResult : Obligations.RegionSaveResult := by
  unfold Obligations.RegionSaveResult
  intro s c d a b
  refine ⟨fun hc hl => ?_, fun r t0 hd hw => ⟨_, ppwaitExpiry_eq hd hw, State.setRegion_onlyRegion ..,
    State.region_setRegion ..⟩, fun m k x hm => mapWf_mapSet k x hm, ?_⟩
  · refine ⟨fun hr => ⟨⟨_, rsave_beyond hc hl hr, s.status_retires d 19 0⟩, ⟨_, rrest_free hc hl (.inl hr),
      s.status_retires d 1 0⟩⟩, fun hr hs => ⟨_, rsave_saved hc hl hr hs, s.status_retires d 3 0⟩,
      fun hr hs hg ha => ⟨_, rsave_badArea hc hl hr hs hg ha, s.status_retires d 19 0⟩,
      fun hr hs hg ha hf hd => ?_, fun _ hs => ⟨_, rrest_free hc hl (.inr hs), s.status_retires d 1 0⟩,
      fun hr hs hg hw => ⟨_, (rrest_saved hc hl hr hs hg).trans (congrArg _ (if_pos hw)), s.status_retires d 20 0⟩,
      fun hr hs hg hw => ⟨_, (rrest_saved hc hl hr hs hg).trans (congrArg _ (if_neg (not_not.2 hw))),
        (ends.refl s).holdMe _⟩⟩
    obtain ⟨hreg, honly⟩ := startSave_eq hf hd
    obtain ⟨hme, hregions, hstews, hrest⟩ := holdMe_stew hc honly (.wait (.rsave d a b))
    exact ⟨_, rsave_accepted hc hl hr hs hg ha, hme, (hregions _).trans hreg,
      fun q hq => (hregions q).trans (honly.2 q hq), hstews, hrest⟩
  refine ⟨fun hh hs => ⟨_, rsaveComplete_saved hh hs, endWait_ends s (.stew c) d (by decide)⟩,
    fun hh hs => ⟨_, rrestComplete_free hh hs, endWait_ends s (.stew c) d (by decide)⟩,
    fun hr hh hs hf hd hdr hg hfit he htags => ?_, fun hh hs hg hgone => ?_⟩
  · obtain ⟨t, hexec, h⟩ := rsaveComplete_leaves rfl rfl hr hh hs hf hd hdr hg hfit he htags
    exact ⟨t, hexec, h.task, h.region, h.elements, h.saves, h.header, h.bytes, h.others, h.stews⟩
  · intro x
    obtain ⟨t, hexec, h⟩ : ∃ t, exec (.rrestComplete (.stew c)) s = .next t ∧
      RestoreLeaves s t c ((s.task (.stew c)).get a).toNat x d := rrestComplete_leaves rfl rfl hh hs hg hgone
    clear_value x
    exact ⟨t, hexec, h.task, h.region, h.elements, h.others, h.stews⟩

end Sys2Proof.Settled
end
